-- ==== Sys2Proof/Word.lean ====
section
/-! DEFINITION. The words of the OLC-640 and their plainest arithmetic (R44, R45). -/

namespace Sys2Proof

/-- One byte of any memory space. -/
abbrev Byte := BitVec 8
/-- A halfword of a stream (R75). -/
abbrev Half := BitVec 16
/-- One lane of a vector register (R141). -/
abbrev Lane := BitVec 32
/-- A scalar register (Table 1.2). -/
abbrev Word := BitVec 64

end Sys2Proof
end

