-- ==== Sys2Proof/Syntax.lean ====
section
/-! DEFINITION. The instructions and events of spec/opcode_table.json, one constructor per row. An encoded row's
arguments are its fields, under the table's own one-letter names (`g` is the issue gap G of R83). An unencoded row is an
operation of the part that no stream instruction words (a helper micro-instruction, an event of a unit, a mailbox command):
its arguments say which unit, core, message or register it concerns. -/

namespace Sys2Proof

/-- The four streams of a core (R13), and the handler bank of its control core (R130). -/
inductive Eng where
  | c | v | m | x | h
  deriving DecidableEq, Repr

/-- The contents of a HALF message of the Gusset engines (R360). -/
structure HalfMsg where
  regId : BitVec 32
  line  : Nat
  seq   : BitVec 32
  s     : List Lane
  ks    : Nat
  deriving DecidableEq, Repr

/-- Where a Hatbox put comes from: the n-th put in flight on this module, or another package over a Zynoth port (R345), through the
export of handle `exp`, with the target frame (a virtual address of the exporter), the put word, the place of its sender in the order of source
package, virtual die and logical core (R333), and the payload. -/
inductive PutSrc where
  | queued (n : Nat)
  | foreign (exp target word : Word) (src : Nat) (data : List Lane)
  deriving DecidableEq, Repr

/-- Where a unit of `prgrad` or `gdep` comes from: the n-th unit in flight on this module, or another package (R365), through the export of
handle `exp`, with the unit's virtual address at the exporter and its lanes. -/
inductive UnitSrc where
  | queued (n : Nat)
  | foreign (exp va : Word) (data : List Lane)
  deriving DecidableEq, Repr

/-- Every row of spec/opcode_table.json. -/
inductive Instr where
  /-- `NOP16` (R78). -/
  | nop16
  /-- `MV16` (R79). -/
  | mv16 (a : BitVec 5) (d : BitVec 5)
  /-- `ADD16` (R79). -/
  | add16 (a : BitVec 5) (d : BitVec 5)
  /-- `SUB16` (R79). -/
  | sub16 (a : BitVec 5) (d : BitVec 5)
  /-- `ADDI16` (R79). -/
  | addi16 (i : BitVec 5) (d : BitVec 5)
  /-- `LI16` (R79). -/
  | li16 (i : BitVec 5) (d : BitVec 5)
  /-- `EXT` (R81). -/
  | ext (n : BitVec 10)
  /-- `FMT` (R80). -/
  | fmt (n : BitVec 6)
  /-- `ADD` (R99). -/
  | add (d : BitVec 6) (a : BitVec 6) (b : BitVec 6) (g : BitVec 3)
  /-- `SUB` (R99). -/
  | sub (d : BitVec 6) (a : BitVec 6) (b : BitVec 6) (g : BitVec 3)
  /-- `AND` (R99). -/
  | and (d : BitVec 6) (a : BitVec 6) (b : BitVec 6) (g : BitVec 3)
  /-- `OR` (R99). -/
  | or (d : BitVec 6) (a : BitVec 6) (b : BitVec 6) (g : BitVec 3)
  /-- `XOR` (R99). -/
  | xor (d : BitVec 6) (a : BitVec 6) (b : BitVec 6) (g : BitVec 3)
  /-- `SLL` (R99). -/
  | sll (d : BitVec 6) (a : BitVec 6) (b : BitVec 6) (g : BitVec 3)
  /-- `SRL` (R99). -/
  | srl (d : BitVec 6) (a : BitVec 6) (b : BitVec 6) (g : BitVec 3)
  /-- `SRA` (R99). -/
  | sra (d : BitVec 6) (a : BitVec 6) (b : BitVec 6) (g : BitVec 3)
  /-- `MUL` (R99). -/
  | mul (d : BitVec 6) (a : BitVec 6) (b : BitVec 6) (g : BitVec 3)
  /-- `MULH` (R99). -/
  | mulh (d : BitVec 6) (a : BitVec 6) (b : BitVec 6) (g : BitVec 3)
  /-- `MULHU` (R99). -/
  | mulhu (d : BitVec 6) (a : BitVec 6) (b : BitVec 6) (g : BitVec 3)
  /-- `MIN` (R99). -/
  | min (d : BitVec 6) (a : BitVec 6) (b : BitVec 6) (g : BitVec 3)
  /-- `MAX` (R99). -/
  | max (d : BitVec 6) (a : BitVec 6) (b : BitVec 6) (g : BitVec 3)
  /-- `MINU` (R99). -/
  | minu (d : BitVec 6) (a : BitVec 6) (b : BitVec 6) (g : BitVec 3)
  /-- `MAXU` (R99). -/
  | maxu (d : BitVec 6) (a : BitVec 6) (b : BitVec 6) (g : BitVec 3)
  /-- `ADDI` (R99). -/
  | addi (d : BitVec 6) (a : BitVec 6) (i : BitVec 9) (g : BitVec 3)
  /-- `ANDI` (R99). -/
  | andi (d : BitVec 6) (a : BitVec 6) (i : BitVec 9) (g : BitVec 3)
  /-- `ORI` (R99). -/
  | ori (d : BitVec 6) (a : BitVec 6) (i : BitVec 9) (g : BitVec 3)
  /-- `XORI` (R99). -/
  | xori (d : BitVec 6) (a : BitVec 6) (i : BitVec 9) (g : BitVec 3)
  /-- `SLLI` (R99). -/
  | slli (d : BitVec 6) (a : BitVec 6) (s : BitVec 6) (g : BitVec 3)
  /-- `SRLI` (R99). -/
  | srli (d : BitVec 6) (a : BitVec 6) (s : BitVec 6) (g : BitVec 3)
  /-- `SRAI` (R99). -/
  | srai (d : BitVec 6) (a : BitVec 6) (s : BitVec 6) (g : BitVec 3)
  /-- `LUI` (R99). -/
  | lui (d : BitVec 6) (i : BitVec 15) (g : BitVec 3)
  /-- `CMP` (R100). -/
  | cmp (p : BitVec 3) (a : BitVec 6) (b : BitVec 6) (c : BitVec 3) (g : BitVec 3)
  /-- `CMPI` (R100). -/
  | cmpi (p : BitVec 3) (c : BitVec 3) (a : BitVec 6) (i : BitVec 9) (g : BitVec 3)
  /-- `PAND` (R100). -/
  | pand (d : BitVec 3) (a : BitVec 3) (b : BitVec 3) (g : BitVec 3)
  /-- `POR` (R100). -/
  | por (d : BitVec 3) (a : BitVec 3) (b : BitVec 3) (g : BitVec 3)
  /-- `PXOR` (R100). -/
  | pxor (d : BitVec 3) (a : BitVec 3) (b : BitVec 3) (g : BitVec 3)
  /-- `PANDN` (R100). -/
  | pandn (d : BitVec 3) (a : BitVec 3) (b : BitVec 3) (g : BitVec 3)
  /-- `PNOT` (R100). -/
  | pnot (d : BitVec 3) (a : BitVec 3) (b : BitVec 3) (g : BitVec 3)
  /-- `LD` (R102). -/
  | ld (d : BitVec 6) (b : BitVec 6) (w : BitVec 3) (i : BitVec 6) (g : BitVec 3)
  /-- `LD_SP` (R102). -/
  | ldSp (d : BitVec 6) (b : BitVec 6) (w : BitVec 3) (i : BitVec 6) (g : BitVec 3)
  /-- `ST` (R102). -/
  | st (d : BitVec 6) (b : BitVec 6) (w : BitVec 3) (i : BitVec 6) (g : BitVec 3)
  /-- `ST_SP` (R102). -/
  | stSp (d : BitVec 6) (b : BitVec 6) (w : BitVec 3) (i : BitVec 6) (g : BitVec 3)
  /-- `ATOM` (R108). -/
  | atom (d : BitVec 6) (b : BitVec 6) (o : BitVec 3) (z : BitVec 2) (c : BitVec 2) (g : BitVec 3)
  /-- `CAS` (R108). -/
  | cas (d : BitVec 6) (b : BitVec 6) (z : BitVec 2) (c : BitVec 2) (g : BitVec 3)
  /-- `ATOM_SP` (R108). -/
  | atomSp (d : BitVec 6) (b : BitVec 6) (o : BitVec 3) (z : BitVec 2) (c : BitVec 2) (g : BitVec 3)
  /-- `CAS_SP` (R108). -/
  | casSp (d : BitVec 6) (b : BitVec 6) (z : BitVec 2) (c : BitVec 2) (g : BitVec 3)
  /-- `FENCE` (R112). -/
  | fence (s : BitVec 3) (g : BitVec 3)
  /-- `FLSIG` (R113). -/
  | flsig (d : BitVec 6) (a : BitVec 6) (g : BitVec 3)
  /-- `TKWAIT` (R114). -/
  | tkwait (d : BitVec 6) (a : BitVec 6) (g : BitVec 3)
  /-- `PBR` (R115). -/
  | pbr (b : BitVec 3) (o : BitVec 18) (g : BitVec 3)
  /-- `BR` (R116). -/
  | br (b : BitVec 3) (p : BitVec 3) (g : BitVec 3)
  /-- `BR_L` (R116). -/
  | brL (b : BitVec 3) (p : BitVec 3) (g : BitVec 3)
  /-- `PBR_R` (R115). -/
  | pbrR (b : BitVec 3) (a : BitVec 6) (g : BitVec 3)
  /-- `EVTERM` (R117). -/
  | evterm (t : BitVec 4) (s : BitVec 2) (l : BitVec 1) (e : BitVec 5) (h : BitVec 9) (g : BitVec 3)
  /-- `EVINC` (R118). -/
  | evinc (x : BitVec 5) (i : BitVec 16) (g : BitVec 3)
  /-- `EVWAIT` (R118). -/
  | evwait (x : BitVec 5) (g : BitVec 3)
  /-- `BAR_ARRIVE` (R261). -/
  | barArrive (d : BitVec 6) (a : BitVec 6) (b : BitVec 6) (g : BitVec 3)
  /-- `BAR_WAIT` (R261). -/
  | barWait (d : BitVec 6) (a : BitVec 6) (b : BitVec 6) (g : BitVec 3)
  /-- `BAR_WAIT4` (R261). -/
  | barWait4 (d : BitVec 6) (a : BitVec 6) (b : BitVec 6) (g : BitVec 3)
  /-- `FLAG_ADD` (R259). -/
  | flagAdd (d : BitVec 6) (a : BitVec 6) (b : BitVec 6) (g : BitVec 3)
  /-- `FLAG_WAIT` (R259). -/
  | flagWait (d : BitVec 6) (a : BitVec 6) (b : BitVec 6) (g : BitVec 3)
  /-- `CHUNK` (R263). -/
  | chunk (d : BitVec 6) (a : BitVec 6) (b : BitVec 6) (g : BitVec 3)
  /-- `TLAUNCH` (R264). -/
  | tlaunch (d : BitVec 6) (a : BitVec 6) (b : BitVec 6) (g : BitVec 3)
  /-- `TDONE` (R265). -/
  | tdone (a : BitVec 6) (g : BitVec 3)
  /-- `TSIGNAL` (R265). -/
  | tsignal (g : BitVec 3)
  /-- `VADD_F32` (R146). -/
  | vaddF32 (d : BitVec 5) (a : BitVec 5) (b : BitVec 5) (q : BitVec 3) (g : BitVec 3)
  /-- `VSUB_F32` (R146). -/
  | vsubF32 (d : BitVec 5) (a : BitVec 5) (b : BitVec 5) (q : BitVec 3) (g : BitVec 3)
  /-- `VMUL_F32` (R146). -/
  | vmulF32 (d : BitVec 5) (a : BitVec 5) (b : BitVec 5) (q : BitVec 3) (g : BitVec 3)
  /-- `VMIN_F32` (R146). -/
  | vminF32 (d : BitVec 5) (a : BitVec 5) (b : BitVec 5) (q : BitVec 3) (g : BitVec 3)
  /-- `VMAX_F32` (R146). -/
  | vmaxF32 (d : BitVec 5) (a : BitVec 5) (b : BitVec 5) (q : BitVec 3) (g : BitVec 3)
  /-- `VABS_F32` (R146). -/
  | vabsF32 (d : BitVec 5) (a : BitVec 5) (q : BitVec 3) (g : BitVec 3)
  /-- `VNEG_F32` (R146). -/
  | vnegF32 (d : BitVec 5) (a : BitVec 5) (q : BitVec 3) (g : BitVec 3)
  /-- `VADD_I32` (R149). -/
  | vaddI32 (d : BitVec 5) (a : BitVec 5) (b : BitVec 5) (q : BitVec 3) (g : BitVec 3)
  /-- `VSUB_I32` (R149). -/
  | vsubI32 (d : BitVec 5) (a : BitVec 5) (b : BitVec 5) (q : BitVec 3) (g : BitVec 3)
  /-- `VMUL_I32` (R149). -/
  | vmulI32 (d : BitVec 5) (a : BitVec 5) (b : BitVec 5) (q : BitVec 3) (g : BitVec 3)
  /-- `VMULH_I32` (R149). -/
  | vmulhI32 (d : BitVec 5) (a : BitVec 5) (b : BitVec 5) (q : BitVec 3) (g : BitVec 3)
  /-- `VMIN_I32` (R149). -/
  | vminI32 (d : BitVec 5) (a : BitVec 5) (b : BitVec 5) (q : BitVec 3) (g : BitVec 3)
  /-- `VMAX_I32` (R149). -/
  | vmaxI32 (d : BitVec 5) (a : BitVec 5) (b : BitVec 5) (q : BitVec 3) (g : BitVec 3)
  /-- `VMINU_I32` (R149). -/
  | vminuI32 (d : BitVec 5) (a : BitVec 5) (b : BitVec 5) (q : BitVec 3) (g : BitVec 3)
  /-- `VMAXU_I32` (R149). -/
  | vmaxuI32 (d : BitVec 5) (a : BitVec 5) (b : BitVec 5) (q : BitVec 3) (g : BitVec 3)
  /-- `VAND` (R149). -/
  | vand (d : BitVec 5) (a : BitVec 5) (b : BitVec 5) (q : BitVec 3) (g : BitVec 3)
  /-- `VOR` (R149). -/
  | vor (d : BitVec 5) (a : BitVec 5) (b : BitVec 5) (q : BitVec 3) (g : BitVec 3)
  /-- `VXOR` (R149). -/
  | vxor (d : BitVec 5) (a : BitVec 5) (b : BitVec 5) (q : BitVec 3) (g : BitVec 3)
  /-- `VANDN` (R149). -/
  | vandn (d : BitVec 5) (a : BitVec 5) (b : BitVec 5) (q : BitVec 3) (g : BitVec 3)
  /-- `VSLL` (R149). -/
  | vsll (d : BitVec 5) (a : BitVec 5) (b : BitVec 5) (q : BitVec 3) (g : BitVec 3)
  /-- `VSRL` (R149). -/
  | vsrl (d : BitVec 5) (a : BitVec 5) (b : BitVec 5) (q : BitVec 3) (g : BitVec 3)
  /-- `VSRA` (R149). -/
  | vsra (d : BitVec 5) (a : BitVec 5) (b : BitVec 5) (q : BitVec 3) (g : BitVec 3)
  /-- `VFMA_F32` (R147). -/
  | vfmaF32 (d : BitVec 5) (a : BitVec 5) (b : BitVec 5) (c : BitVec 5) (g : BitVec 3)
  /-- `VFMS_F32` (R147). -/
  | vfmsF32 (d : BitVec 5) (a : BitVec 5) (b : BitVec 5) (c : BitVec 5) (g : BitVec 3)
  /-- `VFNMA_F32` (R147). -/
  | vfnmaF32 (d : BitVec 5) (a : BitVec 5) (b : BitVec 5) (c : BitVec 5) (g : BitVec 3)
  /-- `VFNMS_F32` (R147). -/
  | vfnmsF32 (d : BitVec 5) (a : BitVec 5) (b : BitVec 5) (c : BitVec 5) (g : BitVec 3)
  /-- `VRCP` (R148). -/
  | vrcp (d : BitVec 5) (a : BitVec 5) (q : BitVec 3) (g : BitVec 3)
  /-- `VRSQRT` (R148). -/
  | vrsqrt (d : BitVec 5) (a : BitVec 5) (q : BitVec 3) (g : BitVec 3)
  /-- `VEXP2` (R148). -/
  | vexp2 (d : BitVec 5) (a : BitVec 5) (q : BitVec 3) (g : BitVec 3)
  /-- `VLOG2` (R148). -/
  | vlog2 (d : BitVec 5) (a : BitVec 5) (q : BitVec 3) (g : BitVec 3)
  /-- `VCMP_F32` (R151). -/
  | vcmpF32 (d : BitVec 4) (a : BitVec 5) (b : BitVec 5) (c : BitVec 3) (q : BitVec 3) (g : BitVec 3)
  /-- `VCMP_I32` (R151). -/
  | vcmpI32 (d : BitVec 4) (a : BitVec 5) (b : BitVec 5) (c : BitVec 3) (q : BitVec 3) (g : BitVec 3)
  /-- `VLUT3` (R153). -/
  | vlut3 (d : BitVec 5) (a : BitVec 5) (b : BitVec 5) (c : BitVec 5) (g : BitVec 3)
  /-- `VFSL` (R154). -/
  | vfsl (d : BitVec 5) (a : BitVec 5) (b : BitVec 5) (i : BitVec 6) (g : BitVec 3)
  /-- `VFSR` (R154). -/
  | vfsr (d : BitVec 5) (a : BitVec 5) (b : BitVec 5) (i : BitVec 6) (g : BitVec 3)
  /-- `VROTL` (R154). -/
  | vrotl (d : BitVec 5) (a : BitVec 5) (i : BitVec 6) (g : BitVec 3)
  /-- `VPOPC` (R150). -/
  | vpopc (d : BitVec 5) (a : BitVec 5) (q : BitVec 3) (g : BitVec 3)
  /-- `VCLZ` (R150). -/
  | vclz (d : BitVec 5) (a : BitVec 5) (q : BitVec 3) (g : BitVec 3)
  /-- `VBREV` (R150). -/
  | vbrev (d : BitVec 5) (a : BitVec 5) (q : BitVec 3) (g : BitVec 3)
  /-- `VPART` (R157). -/
  | vpart (d : BitVec 5) (a : BitVec 5) (q : BitVec 3) (g : BitVec 3)
  /-- `VGATH` (R162). -/
  | vgath (v : BitVec 5) (i : BitVec 5) (b : BitVec 6) (s : BitVec 1) (q : BitVec 3) (g : BitVec 3)
  /-- `VSCAT` (R163). -/
  | vscat (v : BitVec 5) (i : BitVec 5) (b : BitVec 6) (s : BitVec 1) (q : BitVec 3) (g : BitVec 3)
  /-- `VLD_32` (R160). -/
  | vld32 (v : BitVec 5) (b : BitVec 6) (s : BitVec 1) (q : BitVec 3) (g : BitVec 3)
  /-- `VLD_B` (R160). -/
  | vldB (v : BitVec 5) (b : BitVec 6) (s : BitVec 1) (q : BitVec 3) (g : BitVec 3)
  /-- `VST_32` (R160). -/
  | vst32 (v : BitVec 5) (b : BitVec 6) (s : BitVec 1) (q : BitVec 3) (g : BitVec 3)
  /-- `VSLIDEUP` (R155). -/
  | vslideup (d : BitVec 5) (a : BitVec 5) (b : BitVec 5) (i : BitVec 6) (g : BitVec 3)
  /-- `VSLIDEDN` (R155). -/
  | vslidedn (d : BitVec 5) (a : BitVec 5) (b : BitVec 5) (i : BitVec 6) (g : BitVec 3)
  /-- `VPERM` (R156). -/
  | vperm (d : BitVec 5) (a : BitVec 5) (b : BitVec 5) (q : BitVec 3) (g : BitVec 3)
  /-- `VRED` (R164). -/
  | vred (d : BitVec 5) (a : BitVec 5) (m : BitVec 3) (q : BitVec 3) (g : BitVec 3)
  /-- `VSCAN` (R165). -/
  | vscan (d : BitVec 5) (a : BitVec 5) (m : BitVec 3) (q : BitVec 3) (g : BitVec 3)
  /-- `VCVT_TO` (R166). -/
  | vcvtTo (d : BitVec 5) (a : BitVec 5) (f : BitVec 6) (q : BitVec 3) (g : BitVec 3)
  /-- `VCVT_FROM` (R166). -/
  | vcvtFrom (d : BitVec 5) (a : BitVec 5) (f : BitVec 6) (q : BitVec 3) (g : BitVec 3)
  /-- `VMXQ` (R168). -/
  | vmxq (d : BitVec 5) (a : BitVec 5) (s : BitVec 5) (f : BitVec 6) (g : BitVec 3)
  /-- `VSRC` (R167). -/
  | vsrc (d : BitVec 5) (a : BitVec 5) (f : BitVec 6) (q : BitVec 3) (g : BitVec 3)
  /-- `QAND` (R152). -/
  | qand (d : BitVec 4) (a : BitVec 4) (b : BitVec 4) (g : BitVec 3)
  /-- `QOR` (R152). -/
  | qor (d : BitVec 4) (a : BitVec 4) (b : BitVec 4) (g : BitVec 3)
  /-- `QXOR` (R152). -/
  | qxor (d : BitVec 4) (a : BitVec 4) (b : BitVec 4) (g : BitVec 3)
  /-- `QANDN` (R152). -/
  | qandn (d : BitVec 4) (a : BitVec 4) (b : BitVec 4) (g : BitVec 3)
  /-- `QNOT` (R152). -/
  | qnot (d : BitVec 4) (a : BitVec 4) (b : BitVec 4) (g : BitVec 3)
  /-- `QMOV` (R152). -/
  | qmov (d : BitVec 4) (a : BitVec 4) (b : BitVec 4) (g : BitVec 3)
  /-- `VSETVL_IMM` (R159). -/
  | vsetvlImm (i : BitVec 7) (g : BitVec 3)
  /-- `VSETVL_REG` (R159). -/
  | vsetvlReg (a : BitVec 6) (g : BitVec 3)
  /-- `VMV` (R158). -/
  | vmv (d : BitVec 5) (a : BitVec 5) (s : BitVec 6) (g : BitVec 3)
  /-- `VBCAST` (R158). -/
  | vbcast (d : BitVec 5) (s : BitVec 6) (g : BitVec 3)
  /-- `VSEL` (R156). -/
  | vsel (d : BitVec 5) (a : BitVec 5) (b : BitVec 5) (q : BitVec 3) (g : BitVec 3)
  /-- `MNEST` (R174). -/
  | mnest (l : BitVec 3) (f : BitVec 3) (a : BitVec 6) (g : BitVec 3)
  /-- `MOPA` (R176). -/
  | mopa (b : BitVec 6) (s : BitVec 6) (p : BitVec 1) (t : BitVec 1) (g : BitVec 3)
  /-- `MOPB` (R176). -/
  | mopb (b : BitVec 6) (s : BitVec 6) (p : BitVec 1) (t : BitVec 1) (g : BitVec 3)
  /-- `MOPM` (R176). -/
  | mopm (b : BitVec 6) (s : BitVec 6) (p : BitVec 1) (t : BitVec 1) (g : BitVec 3)
  /-- `MMA` (R179). -/
  | mma (k : BitVec 4) (f : BitVec 6) (g : BitVec 3)
  /-- `MMAS` (R180). -/
  | mmas (k : BitVec 4) (f : BitVec 6) (g : BitVec 3)
  /-- `MGO` (R179). -/
  | mgo (k : BitVec 4) (f : BitVec 6) (g : BitVec 3)
  /-- `MFMT` (R188). -/
  | mfmt (d : BitVec 6) (a : BitVec 6) (b : BitVec 6) (g : BitVec 3)
  /-- `MFMT_POOL` (R189). -/
  | mfmtPool (a : BitVec 6) (b : BitVec 6) (g : BitVec 3)
  /-- `MFMTCOMMIT` (R190). -/
  | mfmtcommit (g : BitVec 3)
  /-- `CHBUILD` (R209). -/
  | chbuild (c : BitVec 8) (a : BitVec 6) (f : BitVec 1) (g : BitVec 3)
  /-- `CHCLOSE` (R210). -/
  | chclose (c : BitVec 8) (a : BitVec 6) (b : BitVec 6) (f : BitVec 1) (g : BitVec 3)
  /-- `CHSTAT` (R211). -/
  | chstat (c : BitVec 8) (a : BitVec 6) (g : BitVec 3)
  /-- `CHSPLICE` (R213). -/
  | chsplice (c : BitVec 8) (a : BitVec 6) (b : BitVec 6) (g : BitVec 3)
  /-- `CHHALT` (R215). -/
  | chhalt (c : BitVec 8) (g : BitVec 3)
  /-- `CHTHAW` (R215). -/
  | chthaw (c : BitVec 8) (g : BitVec 3)
  /-- `CHREL` (R216). -/
  | chrel (c : BitVec 8) (g : BitVec 3)
  /-- `CHREAD` (R212). -/
  | chread (c : BitVec 8) (a : BitVec 6) (b : BitVec 6) (f : BitVec 1) (g : BitVec 3)
  /-- `CP` (R227). -/
  | cp (d : BitVec 6) (s : BitVec 6) (p : BitVec 1) (q : BitVec 1) (n : BitVec 7) (g : BitVec 3)
  /-- `CP_R` (R227). -/
  | cpR (d : BitVec 6) (s : BitVec 6) (p : BitVec 1) (q : BitVec 1) (l : BitVec 6) (g : BitVec 3)
  /-- `CP_D_2D` (R228). -/
  | cpD2d (d : BitVec 6) (s : BitVec 1) (g : BitVec 3)
  /-- `CP_D_3D` (R228). -/
  | cpD3d (d : BitVec 6) (s : BitVec 1) (g : BitVec 3)
  /-- `CP_D_CVT` (R229). -/
  | cpDCvt (d : BitVec 6) (s : BitVec 1) (g : BitVec 3)
  /-- `CP_D_GATH` (R230). -/
  | cpDGath (d : BitVec 6) (s : BitVec 1) (g : BitVec 3)
  /-- `CP_D_SCAT` (R230). -/
  | cpDScat (d : BitVec 6) (s : BitVec 1) (g : BitVec 3)
  /-- `CP_D_FILL` (R231). -/
  | cpDFill (d : BitVec 6) (s : BitVec 1) (g : BitVec 3)
  /-- `CP_D_REMOTE` (R232). -/
  | cpDRemote (d : BitVec 6) (s : BitVec 1) (g : BitVec 3)
  /-- `STMAP` (R238). -/
  | stmap (d : BitVec 6) (a : BitVec 6) (b : BitVec 6) (g : BitVec 3)
  /-- `STUNMAP` (R241). -/
  | stunmap (d : BitVec 6) (g : BitVec 3)
  /-- `STFLUSH` (R241). -/
  | stflush (d : BitVec 6) (a : BitVec 6) (g : BitVec 3)
  /-- `STINV` (R241). -/
  | stinv (d : BitVec 6) (a : BitVec 6) (g : BitVec 3)
  /-- `BAR_ARRIVE_D` (R262). -/
  | barArriveD (a : BitVec 6) (b : BitVec 6) (g : BitVec 3)
  /-- `HLAUNCH` (R234). -/
  | hlaunch (a : BitVec 6) (b : BitVec 6) (g : BitVec 3)
  /-- `HSTOP` (R236). -/
  | hstop (g : BitVec 3)
  /-- `HSTAT` (R236). -/
  | hstat (d : BitVec 6) (g : BitVec 3)
  /-- `HCP` (R235). -/
  | hcp (kind : BitVec 3) (doff : BitVec 32)
  /-- `HWAIT` (R235). -/
  | hwait (land : BitVec 1) (t : BitVec 4)
  /-- `HLOOP` (R235). -/
  | hloop (back : BitVec 12) (cnt sadv dadv : BitVec 16)
  /-- `HFLAG` (R235). -/
  | hflag (land raiseEn : BitVec 1) (e : BitVec 5) (value : BitVec 32)
  /-- `HJMP` (R235). -/
  | hjmp (off : BitVec 20)
  /-- `HEND` (R235). -/
  | hend (value : BitVec 32)
  /-- `HBALLOC` (R340). -/
  | hballoc (d : BitVec 6) (a : BitVec 6) (b : BitVec 6) (g : BitVec 3)
  /-- `HBGATE` (R341). -/
  | hbgate (a : BitVec 6) (b : BitVec 6) (g : BitVec 3)
  /-- `HBPOLL` (R342). -/
  | hbpoll (d : BitVec 6) (a : BitVec 6) (g : BitVec 3)
  /-- `HBREL` (R342). -/
  | hbrel (a : BitVec 6) (g : BitVec 3)
  /-- `HBSTAT` (R343). -/
  | hbstat (d : BitVec 6) (a : BitVec 6) (g : BitVec 3)
  /-- `HBCFG` (R344). -/
  | hbcfg (d : BitVec 6) (a : BitVec 6) (g : BitVec 3)
  /-- `HBPUT` (R345). -/
  | hbput (d : BitVec 6) (a : BitVec 6) (b : BitVec 6) (g : BitVec 3)
  /-- `PRGRAD` (R365). -/
  | prgrad (d : BitVec 6) (a : BitVec 6) (b : BitVec 6) (g : BitVec 3)
  /-- `GDEP` (R366). -/
  | gdep (d : BitVec 6) (a : BitVec 6) (b : BitVec 6) (g : BitVec 3)
  /-- `PRREAD` (R365). -/
  | prread (d : BitVec 6) (a : BitVec 6) (b : BitVec 6) (g : BitVec 3)
  /-- `GREAD` (R366). -/
  | gread (d : BitVec 6) (a : BitVec 6) (b : BitVec 6) (g : BitVec 3)
  /-- `PRSYNC` (R367). -/
  | prsync (d : BitVec 6) (a : BitVec 6) (b : BitVec 6) (g : BitVec 3)
  /-- `PRRULE` (R367). -/
  | prrule (d : BitVec 6) (a : BitVec 6) (b : BitVec 6) (g : BitVec 3)
  /-- `GSPREAD` (R367). -/
  | gspread (p : BitVec 3) (a : BitVec 6) (b : BitVec 6) (g : BitVec 3)
  /-- `GMASS` (R367). -/
  | gmass (d : BitVec 6) (a : BitVec 6) (g : BitVec 3)
  /-- `GCFG` (R367). -/
  | gcfg (d : BitVec 6) (a : BitVec 6) (g : BitVec 3)
  /-- `CSRR` (R119). -/
  | csrr (d : BitVec 6) (c : BitVec 12) (g : BitVec 3)
  /-- `CSRW` (R119). -/
  | csrw (d : BitVec 6) (c : BitVec 12) (g : BitVec 3)
  /-- `TRAP` (R120). -/
  | trap (a : BitVec 6) (g : BitVec 3)
  /-- `ERET` (R132). -/
  | eret (g : BitVec 3)
  /-- `HALT` (R120). -/
  | halt (g : BitVec 3)
  /-- `BLOCK_START` (R37). -/
  | blockStart (die core : Nat) (e : Eng)
  /-- `BLOCK_RAISE` (R17). -/
  | blockRaise (die core : Nat) (e : Eng)
  /-- `TRACE_FREEZE` (R140). -/
  | traceFreeze (die core : Nat)
  /-- `HALT_COMPLETE` (R123). -/
  | haltComplete (die part : Nat)
  /-- `HANDLER_START` (R130). -/
  | handlerStart (die part : Nat)
  /-- `CONTAINMENT` (R133). -/
  | containment (die part : Nat)
  /-- `UNCORRECTABLE_ERROR` (R126). -/
  | uncorrectableError (die core : Nat) (e : Eng) (kind : BitVec 16)
  /-- `MEMORY_TIMEOUT` (R105). -/
  | memoryTimeout (die core : Nat) (e : Eng)
  /-- `SWITCH_OUT` (R135). -/
  | switchOut (die part : Nat) (full : Bool)
  /-- `SWITCH_IN` (R135). -/
  | switchIn (ctx : Nat)
  /-- `MATRIX_GROUP` (R175). -/
  | matrixGroup (die core : Nat)
  /-- `HOP_ARRIVAL` (R201). -/
  | hopArrival (n : Nat)
  /-- `CLOSE_START` (R204). -/
  | closeStart (ctx chain : Nat)
  /-- `CLOSE_LAND` (R204). -/
  | closeLand (ctx chain : Nat)
  /-- `COPY_BEAT_GROUP` (R224). -/
  | copyBeatGroup (die core : Nat)
  /-- `STASH_FILL` (R239). -/
  | stashFill (die core off : Nat)
  /-- `STASH_SNOOP` (R240). -/
  | stashSnoop (die core off : Nat) (write : Bool)
  /-- `STASH_WRITEBACK` (R240). -/
  | stashWriteback (die core off : Nat)
  /-- `QTAIL_WRITE` (R248). -/
  | qtailWrite (die q : Nat) (v : BitVec 64)
  /-- `QBASE_WRITE` (R370). -/
  | qbaseWrite (die q : Nat) (v : BitVec 64)
  /-- `QSIZE_WRITE` (R370). -/
  | qsizeWrite (die q : Nat) (v : BitVec 64)
  /-- `GRAPH_ADMIT` (R246). -/
  | graphAdmit (die : Nat)
  /-- `RECORD_ADMIT` (R250). -/
  | recordAdmit (graph : Nat)
  /-- `TASK_START` (R251). -/
  | taskStart (die part : Nat)
  /-- `GANG_START` (R255). -/
  | gangStart (die part : Nat)
  /-- `PREEMPT` (R256). -/
  | preempt (die part : Nat)
  /-- `TASK_RETIRE` (R27). -/
  | taskRetire (die core : Nat)
  /-- `READS` (R308). -/
  | reads (n : Nat)
  /-- `READX` (R308). -/
  | readx (n : Nat)
  /-- `WRITEBACK` (R308). -/
  | writeback (die line : Nat)
  /-- `HOME_DIE_READ` (R308). -/
  | homeDieRead (n : Nat)
  /-- `HOME_DIE_WRITE` (R308). -/
  | homeDieWrite (n : Nat)
  /-- `FWDS` (R308). -/
  | fwds (n : Nat)
  /-- `FWDH` (R308). -/
  | fwdh (n : Nat)
  /-- `INV` (R308). -/
  | inv (n : Nat)
  /-- `ENTRY_EVICTION` (R310). -/
  | entryEviction (die line : Nat)
  /-- `POSTED_STORE_PERFORMED` (R309). -/
  | postedStorePerformed (die core home : Nat)
  /-- `STORE_ACK` (R309). -/
  | storeAck (n : Nat)
  /-- `DIE_LOST` (R318). -/
  | dieLost (die : Nat)
  /-- `HB_PUT_ARRIVAL` (R333). -/
  | hbPutArrival (src : PutSrc)
  /-- `HB_TIMEOUT` (R335). -/
  | hbTimeout (die ctx slot : Nat)
  /-- `COMBINE_WRITE` (R334). -/
  | combineWrite (die ctx slot : Nat)
  /-- `PR_ARRIVAL` (R353). -/
  | prArrival (src : UnitSrc)
  /-- `PR_UPDATE` (R354). -/
  | prUpdate (record : Nat)
  /-- `HALVING` (R360). -/
  | halving (ctx line : Nat)
  /-- `HALF_MERGE` (R361). -/
  | halfMerge (port : Nat) (half : HalfMsg)
  /-- `HALF_APPLIED` (R361). -/
  | halfApplied (port : Nat) (seq : BitVec 32)
  /-- `HALF_REFUSED` (R361). -/
  | halfRefused (port : Nat) (seq : BitVec 32)
  /-- `HALF_RETRANSMIT` (R361). -/
  | halfRetransmit (ctx line : Nat)
  /-- `ZYNOTH_PORT_FAIL` (R362). -/
  | zynothPortFail (port : Nat)
  /-- `ZYNOTH_PORT_RETRAIN` (R362). -/
  | zynothPortRetrain (port : Nat) (applied : BitVec 32)
  /-- `EXPORT` (R305). -/
  | mbExport (fn : Nat)
  /-- `IMPORT` (R305). -/
  | mbImport (fn : Nat)
  /-- `UNIMPORT` (R305). -/
  | unimport (fn : Nat)
  /-- `REVOKE` (R316). -/
  | revoke (fn : Nat)
  /-- `INVALTR` (R303). -/
  | invaltr (fn : Nat)
  /-- `MIGRATE` (R313). -/
  | migrate (fn frame : Nat)
  /-- `WARMRESET` (R317). -/
  | warmreset (fn : Nat)
  /-- `GRESOLVE` (R362). -/
  | gresolve (fn : Nat)
  /-- `CTXCREATE` (R374). -/
  | ctxcreate (fn : Nat)
  /-- `CTXDESTROY` (R247). -/
  | ctxdestroy (fn : Nat)
  /-- `KEYLOAD` (R379). -/
  | keyload (fn : Nat)
  /-- `KEYCLR` (R379). -/
  | keyclr (fn : Nat)
  /-- `MANADD` (R380). -/
  | manadd (fn : Nat)
  /-- `MANSIGN` (R382). -/
  | mansign (fn : Nat)
  /-- `IMGPUSH` (R376). -/
  | imgpush (fn : Nat)
  /-- `PWRLIMIT` (R384). -/
  | pwrlimit (fn : Nat)
  /-- `FEATACCEPT_WRITE` (R377). -/
  | featacceptWrite (v : BitVec 64)
  /-- `REGISTER_WRITE` (R370). -/
  | registerWrite (fn off : Nat) (v : BitVec 64)
  /-- `POWER_GOOD` (R375). -/
  | powerGood
  /-- `DIE_ADMIT` (R375). -/
  | dieAdmit (die : Nat) (trained : Bool)
  /-- `POWER_SAMPLE` (R384). -/
  | powerSample (watts : Nat)
  /-- `THERMAL_SAMPLE` (R385). -/
  | thermalSample (temps : List Nat)
  /-- `CORE_AGEING_CHECK` (R383). -/
  | coreAgeingCheck (die core : Nat) (low : Bool)
  /-- `SAVED_CONTEXT_REPLY` (R110). -/
  | savedContextReply (die core : Nat) (e : Eng)
  /-- `FLAG_ADD_ARRIVAL` (R259). -/
  | flagAddArrival (n : Nat)
  /-- `DEPOSIT` (R366). -/
  | deposit (src : UnitSrc)
  /-- `ACKNOWLEDGEMENT` (R308). -/
  | acknowledgement (n : Nat)
  /-- `CXL_MEM_ACCESS` (R292). -/
  | cxlMemAccess (fn addr : Nat) (write : Bool) (data : List Byte)
  /-- `DIE_MAP_CHANGE` (R300). -/
  | dieMapChange (map : BitVec 64)
  /-- `L2_MODE_CHANGE` (R311). -/
  | l2ModeChange (die : Nat) (priv : Bool)
  /-- `CONTEXT_RESUME` (R134). -/
  | contextResume (ctx : Nat)
  /-- `POWER_LOSS` (R376). -/
  | powerLoss (flash : Bool)
  deriving DecidableEq, Repr

end Sys2Proof
end

