-- ==== Sys2Proof/WellFormed.lean ====
section
/-! DEFINITION. The checks an instruction's fields pass in every encoding the opcode map lists (R83, R85). A register number
outside a stream's range, a format code and an immediate's limits depend on the stream or the form and are checked where the
instruction reaches issue; an event's arguments name units and are free. -/

namespace Sys2Proof

/-- Store widths of majors 0x0E and 0x0F (R102): minors 1, 3 and 5 are not listed. -/
def storeWidthOk (w : BitVec 3) : Bool := w.toNat ∉ [1, 3, 5]

/-- R108: SZ 3 is reserved, 16 bytes is only for `swap` (OP 4), and `fadd` (OP 7) is only 4 bytes. -/
def atomOk (o : BitVec 3) (z : BitVec 2) : Bool :=
  z.toNat ≠ 3 && !(z.toNat = 2 && o.toNat ≠ 4) && !(o.toNat = 7 && z.toNat ≠ 0)

/-- Whether the minors an instruction carries as fields are ones that Table 4.4 lists. -/
def Instr.wellFormed : Instr → Bool
  | .cmp _ _ _ c _ | .cmpi _ c _ _ _ => c.toNat ≤ 5
  | .st _ _ w _ _ | .stSp _ _ w _ _ => storeWidthOk w
  | .atom _ _ o z _ _ | .atomSp _ _ o z _ _ => atomOk o z
  | .cas _ _ z _ _ | .casSp _ _ z _ _ => z.toNat ≠ 3
  | .fence s _ => s.toNat ≤ 3
  | .vcmpF32 _ _ _ c _ _ => c.toNat ≤ 3
  | .vcmpI32 _ _ _ c _ _ => c.toNat ≤ 5
  | .vred _ _ m _ _ | .vscan _ _ m _ _ => m.toNat ≤ 5
  | _ => true

end Sys2Proof
end

