-- ==== Sys2Proof/Decode.lean ====
section
/-! DEFINITION. The decoder of the encodings of R75 to R90 (total: a word it does not accept is rejected by name), the
decoder of the helper's micro-instructions (R235), and the encoder written from the same tables. -/

namespace Sys2Proof

/-- Why a word is no instruction (Table 4.5). -/
inductive DecodeErr where
  /-- Unassigned compact opcode (R78). -/
  | unCompact
  /-- Unassigned major opcode (R88). -/
  | unMajor
  /-- Minor value not listed (R83). -/
  | rsvMinor
  /-- Nonzero reserved field or bits (R77, R83). -/
  | rsvField
  /-- A block-header marker inside a body (R87). -/
  | hdrBody
  /-- A register field outside its range, in a word whose other fields are not what an instruction has (R85). -/
  | regRange
  /-- An immediate outside its limits (R85). -/
  | immRange
  deriving DecidableEq, Repr

/-- The subcode of Table 4.5 that a decode error raises. -/
def DecodeErr.subcode : DecodeErr → Nat
  | .unCompact => 0x08
  | .unMajor => 0x09
  | .rsvMinor => 0x0C
  | .rsvField => 0x0D
  | .hdrBody => 0x02
  | .regRange => 0x0E
  | .immRange => 0x0F

/-- The `wd` bits of `w` from bit `lo`, as a number. -/
def fldN (w lo wd : Nat) : Nat := w / 2 ^ lo % 2 ^ wd

/-- The `wd` bits of `w` from bit `lo`. -/
def fld (w lo wd : Nat) : BitVec wd := BitVec.ofNat wd (w / 2 ^ lo)

/-- The instruction read, if its minors are listed and every reserved field given as (position, width) is zero (R83). -/
def accept (w : Nat) (zeros : List (Nat × Nat)) (i : Instr) : Except DecodeErr Instr :=
  if i.wellFormed = false then .error .rsvMinor
  else if zeros.all (fun z => fldN w z.1 z.2 = 0) then .ok i
  else .error .rsvField

/-- A compact form (Table 4.1) by its opcode [5:1]. -/
def decodeCompact (op w : Nat) : Except DecodeErr Instr :=
  match op with
  | 0x00 => accept w [(6, 10)] .nop16
  | 0x01 => accept w [] (.mv16 (fld w 11 5) (fld w 6 5))
  | 0x02 => accept w [] (.add16 (fld w 11 5) (fld w 6 5))
  | 0x03 => accept w [] (.sub16 (fld w 11 5) (fld w 6 5))
  | 0x04 => accept w [] (.addi16 (fld w 11 5) (fld w 6 5))
  | 0x05 => accept w [] (.li16 (fld w 11 5) (fld w 6 5))
  | 0x1e => accept w [] (.ext (fld w 6 10))
  | 0x1f => accept w [(12, 4)] (.fmt (fld w 6 6))
  | _ => .error .unCompact

/-- Major opcode 0x01 (Table 4.4). -/
def decode01 (w : Nat) : Except DecodeErr Instr :=
  match fldN w 11 3 with
  | 0 => accept w [] (.add (fld w 26 6) (fld w 20 6) (fld w 14 6) (fld w 8 3))
  | 1 => accept w [] (.sub (fld w 26 6) (fld w 20 6) (fld w 14 6) (fld w 8 3))
  | 2 => accept w [] (.and (fld w 26 6) (fld w 20 6) (fld w 14 6) (fld w 8 3))
  | 3 => accept w [] (.or (fld w 26 6) (fld w 20 6) (fld w 14 6) (fld w 8 3))
  | 4 => accept w [] (.xor (fld w 26 6) (fld w 20 6) (fld w 14 6) (fld w 8 3))
  | 5 => accept w [] (.sll (fld w 26 6) (fld w 20 6) (fld w 14 6) (fld w 8 3))
  | 6 => accept w [] (.srl (fld w 26 6) (fld w 20 6) (fld w 14 6) (fld w 8 3))
  | 7 => accept w [] (.sra (fld w 26 6) (fld w 20 6) (fld w 14 6) (fld w 8 3))
  | _ => .error .rsvMinor

/-- Major opcode 0x02 (Table 4.4). -/
def decode02 (w : Nat) : Except DecodeErr Instr :=
  match fldN w 11 3 with
  | 0 => accept w [] (.mul (fld w 26 6) (fld w 20 6) (fld w 14 6) (fld w 8 3))
  | 1 => accept w [] (.mulh (fld w 26 6) (fld w 20 6) (fld w 14 6) (fld w 8 3))
  | 2 => accept w [] (.mulhu (fld w 26 6) (fld w 20 6) (fld w 14 6) (fld w 8 3))
  | 3 => accept w [] (.min (fld w 26 6) (fld w 20 6) (fld w 14 6) (fld w 8 3))
  | 4 => accept w [] (.max (fld w 26 6) (fld w 20 6) (fld w 14 6) (fld w 8 3))
  | 5 => accept w [] (.minu (fld w 26 6) (fld w 20 6) (fld w 14 6) (fld w 8 3))
  | 6 => accept w [] (.maxu (fld w 26 6) (fld w 20 6) (fld w 14 6) (fld w 8 3))
  | _ => .error .rsvMinor

/-- Major opcode 0x03 (Table 4.4). -/
def decode03 (w : Nat) : Except DecodeErr Instr :=
  accept w [] (.addi (fld w 26 6) (fld w 20 6) (fld w 11 9) (fld w 8 3))

/-- Major opcode 0x04 (Table 4.4). -/
def decode04 (w : Nat) : Except DecodeErr Instr :=
  accept w [] (.andi (fld w 26 6) (fld w 20 6) (fld w 11 9) (fld w 8 3))

/-- Major opcode 0x05 (Table 4.4). -/
def decode05 (w : Nat) : Except DecodeErr Instr :=
  accept w [] (.ori (fld w 26 6) (fld w 20 6) (fld w 11 9) (fld w 8 3))

/-- Major opcode 0x06 (Table 4.4). -/
def decode06 (w : Nat) : Except DecodeErr Instr :=
  accept w [] (.xori (fld w 26 6) (fld w 20 6) (fld w 11 9) (fld w 8 3))

/-- Major opcode 0x07 (Table 4.4). -/
def decode07 (w : Nat) : Except DecodeErr Instr :=
  match fldN w 17 3 with
  | 0 => accept w [] (.slli (fld w 26 6) (fld w 20 6) (fld w 11 6) (fld w 8 3))
  | 1 => accept w [] (.srli (fld w 26 6) (fld w 20 6) (fld w 11 6) (fld w 8 3))
  | 2 => accept w [] (.srai (fld w 26 6) (fld w 20 6) (fld w 11 6) (fld w 8 3))
  | _ => .error .rsvMinor

/-- Major opcode 0x08 (Table 4.4). -/
def decode08 (w : Nat) : Except DecodeErr Instr :=
  accept w [] (.lui (fld w 26 6) (fld w 11 15) (fld w 8 3))

/-- Major opcode 0x09 (Table 4.4). -/
def decode09 (w : Nat) : Except DecodeErr Instr :=
  accept w [(26, 3)] (.cmp (fld w 29 3) (fld w 20 6) (fld w 14 6) (fld w 11 3) (fld w 8 3))

/-- Major opcode 0x0a (Table 4.4). -/
def decode0A (w : Nat) : Except DecodeErr Instr :=
  accept w [] (.cmpi (fld w 29 3) (fld w 26 3) (fld w 20 6) (fld w 11 9) (fld w 8 3))

/-- Major opcode 0x0b (Table 4.4). -/
def decode0B (w : Nat) : Except DecodeErr Instr :=
  match fldN w 11 3 with
  | 0 => accept w [(14, 9)] (.pand (fld w 29 3) (fld w 26 3) (fld w 23 3) (fld w 8 3))
  | 1 => accept w [(14, 9)] (.por (fld w 29 3) (fld w 26 3) (fld w 23 3) (fld w 8 3))
  | 2 => accept w [(14, 9)] (.pxor (fld w 29 3) (fld w 26 3) (fld w 23 3) (fld w 8 3))
  | 3 => accept w [(14, 9)] (.pandn (fld w 29 3) (fld w 26 3) (fld w 23 3) (fld w 8 3))
  | 4 => accept w [(14, 9)] (.pnot (fld w 29 3) (fld w 26 3) (fld w 23 3) (fld w 8 3))
  | _ => .error .rsvMinor

/-- Major opcode 0x0c (Table 4.4). -/
def decode0C (w : Nat) : Except DecodeErr Instr :=
  accept w [] (.ld (fld w 26 6) (fld w 20 6) (fld w 17 3) (fld w 11 6) (fld w 8 3))

/-- Major opcode 0x0d (Table 4.4). -/
def decode0D (w : Nat) : Except DecodeErr Instr :=
  accept w [] (.ldSp (fld w 26 6) (fld w 20 6) (fld w 17 3) (fld w 11 6) (fld w 8 3))

/-- Major opcode 0x0e (Table 4.4). -/
def decode0E (w : Nat) : Except DecodeErr Instr :=
  accept w [] (.st (fld w 26 6) (fld w 20 6) (fld w 17 3) (fld w 11 6) (fld w 8 3))

/-- Major opcode 0x0f (Table 4.4). -/
def decode0F (w : Nat) : Except DecodeErr Instr :=
  accept w [] (.stSp (fld w 26 6) (fld w 20 6) (fld w 17 3) (fld w 11 6) (fld w 8 3))

/-- Major opcode 0x10 (Table 4.4). -/
def decode10 (w : Nat) : Except DecodeErr Instr :=
  accept w [(11, 2)] (.atom (fld w 26 6) (fld w 20 6) (fld w 17 3) (fld w 15 2) (fld w 13 2) (fld w 8 3))

/-- Major opcode 0x11 (Table 4.4). -/
def decode11 (w : Nat) : Except DecodeErr Instr :=
  accept w [(11, 2), (17, 3)] (.cas (fld w 26 6) (fld w 20 6) (fld w 15 2) (fld w 13 2) (fld w 8 3))

/-- Major opcode 0x12 (Table 4.4). -/
def decode12 (w : Nat) : Except DecodeErr Instr :=
  accept w [(11, 2)] (.atomSp (fld w 26 6) (fld w 20 6) (fld w 17 3) (fld w 15 2) (fld w 13 2) (fld w 8 3))

/-- Major opcode 0x13 (Table 4.4). -/
def decode13 (w : Nat) : Except DecodeErr Instr :=
  accept w [(11, 2), (17, 3)] (.casSp (fld w 26 6) (fld w 20 6) (fld w 15 2) (fld w 13 2) (fld w 8 3))

/-- Major opcode 0x14 (Table 4.4). -/
def decode14 (w : Nat) : Except DecodeErr Instr :=
  accept w [(14, 18)] (.fence (fld w 11 3) (fld w 8 3))

/-- Major opcode 0x15 (Table 4.4). -/
def decode15 (w : Nat) : Except DecodeErr Instr :=
  match fldN w 11 3 with
  | 0 => accept w [(14, 6)] (.flsig (fld w 26 6) (fld w 20 6) (fld w 8 3))
  | _ => .error .rsvMinor

/-- Major opcode 0x16 (Table 4.4). -/
def decode16 (w : Nat) : Except DecodeErr Instr :=
  match fldN w 11 3 with
  | 0 => accept w [(14, 6)] (.tkwait (fld w 26 6) (fld w 20 6) (fld w 8 3))
  | _ => .error .rsvMinor

/-- Major opcode 0x18 (Table 4.4). -/
def decode18 (w : Nat) : Except DecodeErr Instr :=
  accept w [] (.pbr (fld w 29 3) (fld w 11 18) (fld w 8 3))

/-- Major opcode 0x19 (Table 4.4). -/
def decode19 (w : Nat) : Except DecodeErr Instr :=
  match fldN w 25 1 with
  | 0 => accept w [(11, 14)] (.br (fld w 29 3) (fld w 26 3) (fld w 8 3))
  | 1 => accept w [(11, 14)] (.brL (fld w 29 3) (fld w 26 3) (fld w 8 3))
  | _ => .error .rsvMinor

/-- Major opcode 0x1a (Table 4.4). -/
def decode1A (w : Nat) : Except DecodeErr Instr :=
  accept w [(11, 9), (26, 3)] (.pbrR (fld w 29 3) (fld w 20 6) (fld w 8 3))

/-- Major opcode 0x1b (Table 4.4). -/
def decode1B (w : Nat) : Except DecodeErr Instr :=
  accept w [] (.evterm (fld w 28 4) (fld w 26 2) (fld w 25 1) (fld w 20 5) (fld w 11 9) (fld w 8 3))

/-- Major opcode 0x1c (Table 4.4). -/
def decode1C (w : Nat) : Except DecodeErr Instr :=
  accept w [] (.evinc (fld w 27 5) (fld w 11 16) (fld w 8 3))

/-- Major opcode 0x1d (Table 4.4); a nonzero IMM is outside its limits (R85). -/
def decode1D (w : Nat) : Except DecodeErr Instr :=
  if fldN w 11 16 = 0 then .ok (.evwait (fld w 27 5) (fld w 8 3)) else .error (if fldN w 27 5 ≤ 15 then .immRange else .regRange)

/-- Major opcode 0x20 (Table 4.4). -/
def decode20 (w : Nat) : Except DecodeErr Instr :=
  match fldN w 11 3 with
  | 0 => accept w [] (.barArrive (fld w 26 6) (fld w 20 6) (fld w 14 6) (fld w 8 3))
  | 1 => accept w [] (.barWait (fld w 26 6) (fld w 20 6) (fld w 14 6) (fld w 8 3))
  | 2 => accept w [] (.barWait4 (fld w 26 6) (fld w 20 6) (fld w 14 6) (fld w 8 3))
  | _ => .error .rsvMinor

/-- Major opcode 0x21 (Table 4.4). -/
def decode21 (w : Nat) : Except DecodeErr Instr :=
  match fldN w 11 3 with
  | 0 => accept w [] (.flagAdd (fld w 26 6) (fld w 20 6) (fld w 14 6) (fld w 8 3))
  | 1 => accept w [] (.flagWait (fld w 26 6) (fld w 20 6) (fld w 14 6) (fld w 8 3))
  | _ => .error .rsvMinor

/-- Major opcode 0x22 (Table 4.4). -/
def decode22 (w : Nat) : Except DecodeErr Instr :=
  match fldN w 11 3 with
  | 0 => accept w [] (.chunk (fld w 26 6) (fld w 20 6) (fld w 14 6) (fld w 8 3))
  | _ => .error .rsvMinor

/-- Major opcode 0x23 (Table 4.4). -/
def decode23 (w : Nat) : Except DecodeErr Instr :=
  match fldN w 11 3 with
  | 0 => accept w [] (.tlaunch (fld w 26 6) (fld w 20 6) (fld w 14 6) (fld w 8 3))
  | 1 => accept w [(14, 6), (26, 6)] (.tdone (fld w 20 6) (fld w 8 3))
  | 2 => accept w [(14, 18)] (.tsignal (fld w 8 3))
  | _ => .error .rsvMinor

/-- Major opcode 0x30 (Table 4.4). -/
def decode30 (w : Nat) : Except DecodeErr Instr :=
  match fldN w 14 3 with
  | 0 => accept w [] (.vaddF32 (fld w 27 5) (fld w 22 5) (fld w 17 5) (fld w 11 3) (fld w 8 3))
  | 1 => accept w [] (.vsubF32 (fld w 27 5) (fld w 22 5) (fld w 17 5) (fld w 11 3) (fld w 8 3))
  | 2 => accept w [] (.vmulF32 (fld w 27 5) (fld w 22 5) (fld w 17 5) (fld w 11 3) (fld w 8 3))
  | 3 => accept w [] (.vminF32 (fld w 27 5) (fld w 22 5) (fld w 17 5) (fld w 11 3) (fld w 8 3))
  | 4 => accept w [] (.vmaxF32 (fld w 27 5) (fld w 22 5) (fld w 17 5) (fld w 11 3) (fld w 8 3))
  | 5 => accept w [(17, 5)] (.vabsF32 (fld w 27 5) (fld w 22 5) (fld w 11 3) (fld w 8 3))
  | 6 => accept w [(17, 5)] (.vnegF32 (fld w 27 5) (fld w 22 5) (fld w 11 3) (fld w 8 3))
  | _ => .error .rsvMinor

/-- Major opcode 0x31 (Table 4.4). -/
def decode31 (w : Nat) : Except DecodeErr Instr :=
  match fldN w 14 3 with
  | 0 => accept w [] (.vaddI32 (fld w 27 5) (fld w 22 5) (fld w 17 5) (fld w 11 3) (fld w 8 3))
  | 1 => accept w [] (.vsubI32 (fld w 27 5) (fld w 22 5) (fld w 17 5) (fld w 11 3) (fld w 8 3))
  | 2 => accept w [] (.vmulI32 (fld w 27 5) (fld w 22 5) (fld w 17 5) (fld w 11 3) (fld w 8 3))
  | 3 => accept w [] (.vmulhI32 (fld w 27 5) (fld w 22 5) (fld w 17 5) (fld w 11 3) (fld w 8 3))
  | 4 => accept w [] (.vminI32 (fld w 27 5) (fld w 22 5) (fld w 17 5) (fld w 11 3) (fld w 8 3))
  | 5 => accept w [] (.vmaxI32 (fld w 27 5) (fld w 22 5) (fld w 17 5) (fld w 11 3) (fld w 8 3))
  | 6 => accept w [] (.vminuI32 (fld w 27 5) (fld w 22 5) (fld w 17 5) (fld w 11 3) (fld w 8 3))
  | 7 => accept w [] (.vmaxuI32 (fld w 27 5) (fld w 22 5) (fld w 17 5) (fld w 11 3) (fld w 8 3))
  | _ => .error .rsvMinor

/-- Major opcode 0x32 (Table 4.4). -/
def decode32 (w : Nat) : Except DecodeErr Instr :=
  match fldN w 14 3 with
  | 0 => accept w [] (.vand (fld w 27 5) (fld w 22 5) (fld w 17 5) (fld w 11 3) (fld w 8 3))
  | 1 => accept w [] (.vor (fld w 27 5) (fld w 22 5) (fld w 17 5) (fld w 11 3) (fld w 8 3))
  | 2 => accept w [] (.vxor (fld w 27 5) (fld w 22 5) (fld w 17 5) (fld w 11 3) (fld w 8 3))
  | 3 => accept w [] (.vandn (fld w 27 5) (fld w 22 5) (fld w 17 5) (fld w 11 3) (fld w 8 3))
  | 4 => accept w [] (.vsll (fld w 27 5) (fld w 22 5) (fld w 17 5) (fld w 11 3) (fld w 8 3))
  | 5 => accept w [] (.vsrl (fld w 27 5) (fld w 22 5) (fld w 17 5) (fld w 11 3) (fld w 8 3))
  | 6 => accept w [] (.vsra (fld w 27 5) (fld w 22 5) (fld w 17 5) (fld w 11 3) (fld w 8 3))
  | _ => .error .rsvMinor

/-- Major opcode 0x33 (Table 4.4). -/
def decode33 (w : Nat) : Except DecodeErr Instr :=
  match fldN w 11 1 with
  | 0 => accept w [] (.vfmaF32 (fld w 27 5) (fld w 22 5) (fld w 17 5) (fld w 12 5) (fld w 8 3))
  | 1 => accept w [] (.vfmsF32 (fld w 27 5) (fld w 22 5) (fld w 17 5) (fld w 12 5) (fld w 8 3))
  | _ => .error .rsvMinor

/-- Major opcode 0x34 (Table 4.4). -/
def decode34 (w : Nat) : Except DecodeErr Instr :=
  match fldN w 11 1 with
  | 0 => accept w [] (.vfnmaF32 (fld w 27 5) (fld w 22 5) (fld w 17 5) (fld w 12 5) (fld w 8 3))
  | 1 => accept w [] (.vfnmsF32 (fld w 27 5) (fld w 22 5) (fld w 17 5) (fld w 12 5) (fld w 8 3))
  | _ => .error .rsvMinor

/-- Major opcode 0x35 (Table 4.4). -/
def decode35 (w : Nat) : Except DecodeErr Instr :=
  match fldN w 14 3 with
  | 0 => accept w [(17, 5)] (.vrcp (fld w 27 5) (fld w 22 5) (fld w 11 3) (fld w 8 3))
  | 1 => accept w [(17, 5)] (.vrsqrt (fld w 27 5) (fld w 22 5) (fld w 11 3) (fld w 8 3))
  | 2 => accept w [(17, 5)] (.vexp2 (fld w 27 5) (fld w 22 5) (fld w 11 3) (fld w 8 3))
  | 3 => accept w [(17, 5)] (.vlog2 (fld w 27 5) (fld w 22 5) (fld w 11 3) (fld w 8 3))
  | _ => .error .rsvMinor

/-- Major opcode 0x36 (Table 4.4). -/
def decode36 (w : Nat) : Except DecodeErr Instr :=
  accept w [(11, 1)] (.vcmpF32 (fld w 28 4) (fld w 23 5) (fld w 18 5) (fld w 15 3) (fld w 12 3) (fld w 8 3))

/-- Major opcode 0x37 (Table 4.4). -/
def decode37 (w : Nat) : Except DecodeErr Instr :=
  accept w [(11, 1)] (.vcmpI32 (fld w 28 4) (fld w 23 5) (fld w 18 5) (fld w 15 3) (fld w 12 3) (fld w 8 3))

/-- Major opcode 0x38 (Table 4.4). -/
def decode38 (w : Nat) : Except DecodeErr Instr :=
  match fldN w 11 1 with
  | 0 => accept w [] (.vlut3 (fld w 27 5) (fld w 22 5) (fld w 17 5) (fld w 12 5) (fld w 8 3))
  | _ => .error .rsvMinor

/-- Major opcode 0x39 (Table 4.4). -/
def decode39 (w : Nat) : Except DecodeErr Instr :=
  accept w [] (.vfsl (fld w 27 5) (fld w 22 5) (fld w 17 5) (fld w 11 6) (fld w 8 3))

/-- Major opcode 0x3a (Table 4.4). -/
def decode3A (w : Nat) : Except DecodeErr Instr :=
  accept w [] (.vfsr (fld w 27 5) (fld w 22 5) (fld w 17 5) (fld w 11 6) (fld w 8 3))

/-- Major opcode 0x3b (Table 4.4). -/
def decode3B (w : Nat) : Except DecodeErr Instr :=
  accept w [(17, 5)] (.vrotl (fld w 27 5) (fld w 22 5) (fld w 11 6) (fld w 8 3))

/-- Major opcode 0x3c (Table 4.4). -/
def decode3C (w : Nat) : Except DecodeErr Instr :=
  match fldN w 14 3 with
  | 0 => accept w [(17, 5)] (.vpopc (fld w 27 5) (fld w 22 5) (fld w 11 3) (fld w 8 3))
  | 1 => accept w [(17, 5)] (.vclz (fld w 27 5) (fld w 22 5) (fld w 11 3) (fld w 8 3))
  | 2 => accept w [(17, 5)] (.vbrev (fld w 27 5) (fld w 22 5) (fld w 11 3) (fld w 8 3))
  | _ => .error .rsvMinor

/-- Major opcode 0x3d (Table 4.4). -/
def decode3D (w : Nat) : Except DecodeErr Instr :=
  match fldN w 14 3 with
  | 0 => accept w [(17, 5)] (.vpart (fld w 27 5) (fld w 22 5) (fld w 11 3) (fld w 8 3))
  | _ => .error .rsvMinor

/-- Major opcode 0x3e (Table 4.4). -/
def decode3E (w : Nat) : Except DecodeErr Instr :=
  accept w [(11, 1)] (.vgath (fld w 27 5) (fld w 22 5) (fld w 16 6) (fld w 15 1) (fld w 12 3) (fld w 8 3))

/-- Major opcode 0x3f (Table 4.4). -/
def decode3F (w : Nat) : Except DecodeErr Instr :=
  accept w [(11, 1)] (.vscat (fld w 27 5) (fld w 22 5) (fld w 16 6) (fld w 15 1) (fld w 12 3) (fld w 8 3))

/-- Major opcode 0x40 (Table 4.4). -/
def decode40 (w : Nat) : Except DecodeErr Instr :=
  match fldN w 17 3 with
  | 0 => accept w [(11, 3)] (.vld32 (fld w 27 5) (fld w 21 6) (fld w 20 1) (fld w 14 3) (fld w 8 3))
  | 1 => accept w [(11, 3)] (.vldB (fld w 27 5) (fld w 21 6) (fld w 20 1) (fld w 14 3) (fld w 8 3))
  | _ => .error .rsvMinor

/-- Major opcode 0x41 (Table 4.4). -/
def decode41 (w : Nat) : Except DecodeErr Instr :=
  match fldN w 17 3 with
  | 0 => accept w [(11, 3)] (.vst32 (fld w 27 5) (fld w 21 6) (fld w 20 1) (fld w 14 3) (fld w 8 3))
  | _ => .error .rsvMinor

/-- Major opcode 0x42 (Table 4.4). -/
def decode42 (w : Nat) : Except DecodeErr Instr :=
  accept w [] (.vslideup (fld w 27 5) (fld w 22 5) (fld w 17 5) (fld w 11 6) (fld w 8 3))

/-- Major opcode 0x43 (Table 4.4). -/
def decode43 (w : Nat) : Except DecodeErr Instr :=
  accept w [] (.vslidedn (fld w 27 5) (fld w 22 5) (fld w 17 5) (fld w 11 6) (fld w 8 3))

/-- Major opcode 0x44 (Table 4.4). -/
def decode44 (w : Nat) : Except DecodeErr Instr :=
  match fldN w 14 3 with
  | 0 => accept w [] (.vperm (fld w 27 5) (fld w 22 5) (fld w 17 5) (fld w 11 3) (fld w 8 3))
  | _ => .error .rsvMinor

/-- Major opcode 0x45 (Table 4.4). -/
def decode45 (w : Nat) : Except DecodeErr Instr :=
  accept w [(17, 5)] (.vred (fld w 27 5) (fld w 22 5) (fld w 14 3) (fld w 11 3) (fld w 8 3))

/-- Major opcode 0x46 (Table 4.4). -/
def decode46 (w : Nat) : Except DecodeErr Instr :=
  accept w [(17, 5)] (.vscan (fld w 27 5) (fld w 22 5) (fld w 14 3) (fld w 11 3) (fld w 8 3))

/-- Major opcode 0x47 (Table 4.4). -/
def decode47 (w : Nat) : Except DecodeErr Instr :=
  match fldN w 12 1 with
  | 0 => accept w [(11, 1)] (.vcvtTo (fld w 27 5) (fld w 22 5) (fld w 16 6) (fld w 13 3) (fld w 8 3))
  | 1 => accept w [(11, 1)] (.vcvtFrom (fld w 27 5) (fld w 22 5) (fld w 16 6) (fld w 13 3) (fld w 8 3))
  | _ => .error .rsvMinor

/-- Major opcode 0x48 (Table 4.4). -/
def decode48 (w : Nat) : Except DecodeErr Instr :=
  accept w [] (.vmxq (fld w 27 5) (fld w 22 5) (fld w 17 5) (fld w 11 6) (fld w 8 3))

/-- Major opcode 0x49 (Table 4.4). -/
def decode49 (w : Nat) : Except DecodeErr Instr :=
  accept w [(11, 2)] (.vsrc (fld w 27 5) (fld w 22 5) (fld w 16 6) (fld w 13 3) (fld w 8 3))

/-- Major opcode 0x4a (Table 4.4). -/
def decode4A (w : Nat) : Except DecodeErr Instr :=
  match fldN w 11 3 with
  | 0 => accept w [(14, 6)] (.qand (fld w 28 4) (fld w 24 4) (fld w 20 4) (fld w 8 3))
  | 1 => accept w [(14, 6)] (.qor (fld w 28 4) (fld w 24 4) (fld w 20 4) (fld w 8 3))
  | 2 => accept w [(14, 6)] (.qxor (fld w 28 4) (fld w 24 4) (fld w 20 4) (fld w 8 3))
  | 3 => accept w [(14, 6)] (.qandn (fld w 28 4) (fld w 24 4) (fld w 20 4) (fld w 8 3))
  | 4 => accept w [(14, 6)] (.qnot (fld w 28 4) (fld w 24 4) (fld w 20 4) (fld w 8 3))
  | 5 => accept w [(14, 6)] (.qmov (fld w 28 4) (fld w 24 4) (fld w 20 4) (fld w 8 3))
  | _ => .error .rsvMinor

/-- Major opcode 0x4b (Table 4.4). -/
def decode4B (w : Nat) : Except DecodeErr Instr :=
  match fldN w 25 1 with
  | 1 => accept w [(11, 7), (26, 6)] (.vsetvlImm (fld w 18 7) (fld w 8 3))
  | 0 => accept w [(11, 14)] (.vsetvlReg (fld w 26 6) (fld w 8 3))
  | _ => .error .rsvMinor

/-- Major opcode 0x4c (Table 4.4). -/
def decode4C (w : Nat) : Except DecodeErr Instr :=
  match fldN w 11 3 with
  | 0 => accept w [(14, 2)] (.vmv (fld w 27 5) (fld w 22 5) (fld w 16 6) (fld w 8 3))
  | 1 => accept w [(14, 2), (22, 5)] (.vbcast (fld w 27 5) (fld w 16 6) (fld w 8 3))
  | _ => .error .rsvMinor

/-- Major opcode 0x4d (Table 4.4). -/
def decode4D (w : Nat) : Except DecodeErr Instr :=
  match fldN w 14 3 with
  | 0 => accept w [] (.vsel (fld w 27 5) (fld w 22 5) (fld w 17 5) (fld w 11 3) (fld w 8 3))
  | _ => .error .rsvMinor

/-- Major opcode 0x60 (Table 4.4). -/
def decode60 (w : Nat) : Except DecodeErr Instr :=
  accept w [(11, 9)] (.mnest (fld w 29 3) (fld w 26 3) (fld w 20 6) (fld w 8 3))

/-- Major opcode 0x61 (Table 4.4). -/
def decode61 (w : Nat) : Except DecodeErr Instr :=
  match fldN w 11 3 with
  | 0 => accept w [(14, 4)] (.mopa (fld w 26 6) (fld w 20 6) (fld w 19 1) (fld w 18 1) (fld w 8 3))
  | 1 => accept w [(14, 4)] (.mopb (fld w 26 6) (fld w 20 6) (fld w 19 1) (fld w 18 1) (fld w 8 3))
  | 2 => accept w [(14, 4)] (.mopm (fld w 26 6) (fld w 20 6) (fld w 19 1) (fld w 18 1) (fld w 8 3))
  | _ => .error .rsvMinor

/-- Major opcode 0x62 (Table 4.4). -/
def decode62 (w : Nat) : Except DecodeErr Instr :=
  accept w [(11, 11)] (.mma (fld w 28 4) (fld w 22 6) (fld w 8 3))

/-- Major opcode 0x63 (Table 4.4). -/
def decode63 (w : Nat) : Except DecodeErr Instr :=
  accept w [(11, 11)] (.mmas (fld w 28 4) (fld w 22 6) (fld w 8 3))

/-- Major opcode 0x64 (Table 4.4). -/
def decode64 (w : Nat) : Except DecodeErr Instr :=
  accept w [(11, 11)] (.mgo (fld w 28 4) (fld w 22 6) (fld w 8 3))

/-- Major opcode 0x65 (Table 4.4). -/
def decode65 (w : Nat) : Except DecodeErr Instr :=
  match fldN w 11 3 with
  | 0 => accept w [] (.mfmt (fld w 26 6) (fld w 20 6) (fld w 14 6) (fld w 8 3))
  | 1 => accept w [(26, 6)] (.mfmtPool (fld w 20 6) (fld w 14 6) (fld w 8 3))
  | _ => .error .rsvMinor

/-- Major opcode 0x66 (Table 4.4). -/
def decode66 (w : Nat) : Except DecodeErr Instr :=
  accept w [(11, 21)] (.mfmtcommit (fld w 8 3))

/-- Major opcode 0x67 (Table 4.4). -/
def decode67 (w : Nat) : Except DecodeErr Instr :=
  accept w [(12, 6)] (.chbuild (fld w 24 8) (fld w 18 6) (fld w 11 1) (fld w 8 3))

/-- Major opcode 0x68 (Table 4.4). -/
def decode68 (w : Nat) : Except DecodeErr Instr :=
  accept w [] (.chclose (fld w 24 8) (fld w 18 6) (fld w 12 6) (fld w 11 1) (fld w 8 3))

/-- Major opcode 0x69 (Table 4.4). -/
def decode69 (w : Nat) : Except DecodeErr Instr :=
  accept w [(11, 7)] (.chstat (fld w 24 8) (fld w 18 6) (fld w 8 3))

/-- Major opcode 0x6a (Table 4.4). -/
def decode6A (w : Nat) : Except DecodeErr Instr :=
  accept w [(11, 1)] (.chsplice (fld w 24 8) (fld w 18 6) (fld w 12 6) (fld w 8 3))

/-- Major opcode 0x6b (Table 4.4). -/
def decode6B (w : Nat) : Except DecodeErr Instr :=
  match fldN w 12 6 with
  | 0 => accept w [(11, 1), (18, 6)] (.chhalt (fld w 24 8) (fld w 8 3))
  | 1 => accept w [(11, 1), (18, 6)] (.chthaw (fld w 24 8) (fld w 8 3))
  | 2 => accept w [(11, 1), (18, 6)] (.chrel (fld w 24 8) (fld w 8 3))
  | _ => .error .rsvMinor

/-- Major opcode 0x6c (Table 4.4). -/
def decode6C (w : Nat) : Except DecodeErr Instr :=
  accept w [] (.chread (fld w 24 8) (fld w 18 6) (fld w 12 6) (fld w 11 1) (fld w 8 3))

/-- Major opcode 0x70 (Table 4.4). -/
def decode70 (w : Nat) : Except DecodeErr Instr :=
  accept w [] (.cp (fld w 26 6) (fld w 20 6) (fld w 19 1) (fld w 18 1) (fld w 11 7) (fld w 8 3))

/-- Major opcode 0x71 (Table 4.4). -/
def decode71 (w : Nat) : Except DecodeErr Instr :=
  accept w [(17, 1)] (.cpR (fld w 26 6) (fld w 20 6) (fld w 19 1) (fld w 18 1) (fld w 11 6) (fld w 8 3))

/-- Major opcode 0x72 (Table 4.4). -/
def decode72 (w : Nat) : Except DecodeErr Instr :=
  match fldN w 16 3 with
  | 0 => accept w [(11, 5), (20, 6)] (.cpD2d (fld w 26 6) (fld w 19 1) (fld w 8 3))
  | 1 => accept w [(11, 5), (20, 6)] (.cpD3d (fld w 26 6) (fld w 19 1) (fld w 8 3))
  | 2 => accept w [(11, 5), (20, 6)] (.cpDCvt (fld w 26 6) (fld w 19 1) (fld w 8 3))
  | 3 => accept w [(11, 5), (20, 6)] (.cpDGath (fld w 26 6) (fld w 19 1) (fld w 8 3))
  | 4 => accept w [(11, 5), (20, 6)] (.cpDScat (fld w 26 6) (fld w 19 1) (fld w 8 3))
  | 5 => accept w [(11, 5), (20, 6)] (.cpDFill (fld w 26 6) (fld w 19 1) (fld w 8 3))
  | 6 => accept w [(11, 5), (20, 6)] (.cpDRemote (fld w 26 6) (fld w 19 1) (fld w 8 3))
  | _ => .error .rsvMinor

/-- Major opcode 0x73 (Table 4.4). -/
def decode73 (w : Nat) : Except DecodeErr Instr :=
  match fldN w 11 3 with
  | 0 => accept w [] (.stmap (fld w 26 6) (fld w 20 6) (fld w 14 6) (fld w 8 3))
  | 1 => accept w [(14, 12)] (.stunmap (fld w 26 6) (fld w 8 3))
  | 2 => accept w [(14, 6)] (.stflush (fld w 26 6) (fld w 20 6) (fld w 8 3))
  | 3 => accept w [(14, 6)] (.stinv (fld w 26 6) (fld w 20 6) (fld w 8 3))
  | _ => .error .rsvMinor

/-- Major opcode 0x74 (Table 4.4). -/
def decode74 (w : Nat) : Except DecodeErr Instr :=
  match fldN w 11 3 with
  | 0 => accept w [(26, 6)] (.barArriveD (fld w 20 6) (fld w 14 6) (fld w 8 3))
  | _ => .error .rsvMinor

/-- Major opcode 0x75 (Table 4.4). -/
def decode75 (w : Nat) : Except DecodeErr Instr :=
  match fldN w 11 3 with
  | 0 => accept w [(26, 6)] (.hlaunch (fld w 20 6) (fld w 14 6) (fld w 8 3))
  | _ => .error .rsvMinor

/-- Major opcode 0x76 (Table 4.4). -/
def decode76 (w : Nat) : Except DecodeErr Instr :=
  match fldN w 11 3 with
  | 0 => accept w [(14, 18)] (.hstop (fld w 8 3))
  | 1 => accept w [(14, 12)] (.hstat (fld w 26 6) (fld w 8 3))
  | _ => .error .rsvMinor

/-- Major opcode 0x78 (Table 4.4). -/
def decode78 (w : Nat) : Except DecodeErr Instr :=
  match fldN w 11 3 with
  | 0 => accept w [] (.hballoc (fld w 26 6) (fld w 20 6) (fld w 14 6) (fld w 8 3))
  | 1 => accept w [(26, 6)] (.hbgate (fld w 20 6) (fld w 14 6) (fld w 8 3))
  | 2 => accept w [(14, 6)] (.hbpoll (fld w 26 6) (fld w 20 6) (fld w 8 3))
  | 3 => accept w [(14, 6), (26, 6)] (.hbrel (fld w 20 6) (fld w 8 3))
  | 4 => accept w [(14, 6)] (.hbstat (fld w 26 6) (fld w 20 6) (fld w 8 3))
  | 5 => accept w [(14, 6)] (.hbcfg (fld w 26 6) (fld w 20 6) (fld w 8 3))
  | _ => .error .rsvMinor

/-- Major opcode 0x79 (Table 4.4). -/
def decode79 (w : Nat) : Except DecodeErr Instr :=
  match fldN w 11 3 with
  | 0 => accept w [] (.hbput (fld w 26 6) (fld w 20 6) (fld w 14 6) (fld w 8 3))
  | 1 => accept w [] (.prgrad (fld w 26 6) (fld w 20 6) (fld w 14 6) (fld w 8 3))
  | 2 => accept w [] (.gdep (fld w 26 6) (fld w 20 6) (fld w 14 6) (fld w 8 3))
  | 3 => accept w [] (.prread (fld w 26 6) (fld w 20 6) (fld w 14 6) (fld w 8 3))
  | 4 => accept w [] (.gread (fld w 26 6) (fld w 20 6) (fld w 14 6) (fld w 8 3))
  | _ => .error .rsvMinor

/-- Major opcode 0x7a (Table 4.4). -/
def decode7A (w : Nat) : Except DecodeErr Instr :=
  match fldN w 11 3 with
  | 0 => accept w [] (.prsync (fld w 26 6) (fld w 20 6) (fld w 14 6) (fld w 8 3))
  | 1 => accept w [] (.prrule (fld w 26 6) (fld w 20 6) (fld w 14 6) (fld w 8 3))
  | 2 => accept w [(26, 3)] (.gspread (fld w 29 3) (fld w 20 6) (fld w 14 6) (fld w 8 3))
  | 3 => accept w [(14, 6)] (.gmass (fld w 26 6) (fld w 20 6) (fld w 8 3))
  | 4 => accept w [(14, 6)] (.gcfg (fld w 26 6) (fld w 20 6) (fld w 8 3))
  | _ => .error .rsvMinor

/-- Major opcode 0x7c (Table 4.4). -/
def decode7C (w : Nat) : Except DecodeErr Instr :=
  match fldN w 11 1 with
  | 0 => accept w [(12, 2)] (.csrr (fld w 26 6) (fld w 14 12) (fld w 8 3))
  | 1 => accept w [(12, 2)] (.csrw (fld w 26 6) (fld w 14 12) (fld w 8 3))
  | _ => .error .rsvMinor

/-- Major opcode 0x7d (Table 4.4). -/
def decode7D (w : Nat) : Except DecodeErr Instr :=
  match fldN w 11 3 with
  | 0 => accept w [(14, 6), (26, 6)] (.trap (fld w 20 6) (fld w 8 3))
  | 1 => accept w [(14, 18)] (.eret (fld w 8 3))
  | 2 => accept w [(14, 18)] (.halt (fld w 8 3))
  | _ => .error .rsvMinor

/-- A 32-bit word (Table 4.4) by its major opcode [7:1]. -/
def decodeMajor (major w : Nat) : Except DecodeErr Instr :=
  match major with
  | 0x01 => decode01 w
  | 0x02 => decode02 w
  | 0x03 => decode03 w
  | 0x04 => decode04 w
  | 0x05 => decode05 w
  | 0x06 => decode06 w
  | 0x07 => decode07 w
  | 0x08 => decode08 w
  | 0x09 => decode09 w
  | 0x0a => decode0A w
  | 0x0b => decode0B w
  | 0x0c => decode0C w
  | 0x0d => decode0D w
  | 0x0e => decode0E w
  | 0x0f => decode0F w
  | 0x10 => decode10 w
  | 0x11 => decode11 w
  | 0x12 => decode12 w
  | 0x13 => decode13 w
  | 0x14 => decode14 w
  | 0x15 => decode15 w
  | 0x16 => decode16 w
  | 0x18 => decode18 w
  | 0x19 => decode19 w
  | 0x1a => decode1A w
  | 0x1b => decode1B w
  | 0x1c => decode1C w
  | 0x1d => decode1D w
  | 0x20 => decode20 w
  | 0x21 => decode21 w
  | 0x22 => decode22 w
  | 0x23 => decode23 w
  | 0x30 => decode30 w
  | 0x31 => decode31 w
  | 0x32 => decode32 w
  | 0x33 => decode33 w
  | 0x34 => decode34 w
  | 0x35 => decode35 w
  | 0x36 => decode36 w
  | 0x37 => decode37 w
  | 0x38 => decode38 w
  | 0x39 => decode39 w
  | 0x3a => decode3A w
  | 0x3b => decode3B w
  | 0x3c => decode3C w
  | 0x3d => decode3D w
  | 0x3e => decode3E w
  | 0x3f => decode3F w
  | 0x40 => decode40 w
  | 0x41 => decode41 w
  | 0x42 => decode42 w
  | 0x43 => decode43 w
  | 0x44 => decode44 w
  | 0x45 => decode45 w
  | 0x46 => decode46 w
  | 0x47 => decode47 w
  | 0x48 => decode48 w
  | 0x49 => decode49 w
  | 0x4a => decode4A w
  | 0x4b => decode4B w
  | 0x4c => decode4C w
  | 0x4d => decode4D w
  | 0x60 => decode60 w
  | 0x61 => decode61 w
  | 0x62 => decode62 w
  | 0x63 => decode63 w
  | 0x64 => decode64 w
  | 0x65 => decode65 w
  | 0x66 => decode66 w
  | 0x67 => decode67 w
  | 0x68 => decode68 w
  | 0x69 => decode69 w
  | 0x6a => decode6A w
  | 0x6b => decode6B w
  | 0x6c => decode6C w
  | 0x70 => decode70 w
  | 0x71 => decode71 w
  | 0x72 => decode72 w
  | 0x73 => decode73 w
  | 0x74 => decode74 w
  | 0x75 => decode75 w
  | 0x76 => decode76 w
  | 0x78 => decode78 w
  | 0x79 => decode79 w
  | 0x7a => decode7A w
  | 0x7c => decode7C w
  | 0x7d => decode7D w
  | 0x7f => .error .hdrBody
  | _ => .error .unMajor

/-- The instruction of a word: bit 0 gives its length (R75). -/
def decode (w : Nat) : Except DecodeErr Instr :=
  if w % 2 = 0 then decodeCompact (fldN w 1 5) (w % 2 ^ 16) else decodeMajor (fldN w 1 7) (w % 2 ^ 32)

/-- The word of an encoded instruction and its length in bits; 64 bits are a micro-instruction of the helper (Table 12.4), which encodes no loop
back of 0. `none` for an event, which no word encodes. -/
def encode : Instr → Option (Nat × Nat)
  | .nop16 => some (16, 0x0)
  | .mv16 a d => some (16, a.toNat * 2048 + d.toNat * 64 + 0x2)
  | .add16 a d => some (16, a.toNat * 2048 + d.toNat * 64 + 0x4)
  | .sub16 a d => some (16, a.toNat * 2048 + d.toNat * 64 + 0x6)
  | .addi16 i d => some (16, i.toNat * 2048 + d.toNat * 64 + 0x8)
  | .li16 i d => some (16, i.toNat * 2048 + d.toNat * 64 + 0xa)
  | .ext n => some (16, n.toNat * 64 + 0x3c)
  | .fmt n => some (16, n.toNat * 64 + 0x3e)
  | .add d a b g => some (32, d.toNat * 67108864 + a.toNat * 1048576 + b.toNat * 16384 + g.toNat * 256 + 0x3)
  | .sub d a b g => some (32, d.toNat * 67108864 + a.toNat * 1048576 + b.toNat * 16384 + g.toNat * 256 + 0x803)
  | .and d a b g => some (32, d.toNat * 67108864 + a.toNat * 1048576 + b.toNat * 16384 + g.toNat * 256 + 0x1003)
  | .or d a b g => some (32, d.toNat * 67108864 + a.toNat * 1048576 + b.toNat * 16384 + g.toNat * 256 + 0x1803)
  | .xor d a b g => some (32, d.toNat * 67108864 + a.toNat * 1048576 + b.toNat * 16384 + g.toNat * 256 + 0x2003)
  | .sll d a b g => some (32, d.toNat * 67108864 + a.toNat * 1048576 + b.toNat * 16384 + g.toNat * 256 + 0x2803)
  | .srl d a b g => some (32, d.toNat * 67108864 + a.toNat * 1048576 + b.toNat * 16384 + g.toNat * 256 + 0x3003)
  | .sra d a b g => some (32, d.toNat * 67108864 + a.toNat * 1048576 + b.toNat * 16384 + g.toNat * 256 + 0x3803)
  | .mul d a b g => some (32, d.toNat * 67108864 + a.toNat * 1048576 + b.toNat * 16384 + g.toNat * 256 + 0x5)
  | .mulh d a b g => some (32, d.toNat * 67108864 + a.toNat * 1048576 + b.toNat * 16384 + g.toNat * 256 + 0x805)
  | .mulhu d a b g => some (32, d.toNat * 67108864 + a.toNat * 1048576 + b.toNat * 16384 + g.toNat * 256 + 0x1005)
  | .min d a b g => some (32, d.toNat * 67108864 + a.toNat * 1048576 + b.toNat * 16384 + g.toNat * 256 + 0x1805)
  | .max d a b g => some (32, d.toNat * 67108864 + a.toNat * 1048576 + b.toNat * 16384 + g.toNat * 256 + 0x2005)
  | .minu d a b g => some (32, d.toNat * 67108864 + a.toNat * 1048576 + b.toNat * 16384 + g.toNat * 256 + 0x2805)
  | .maxu d a b g => some (32, d.toNat * 67108864 + a.toNat * 1048576 + b.toNat * 16384 + g.toNat * 256 + 0x3005)
  | .addi d a i g => some (32, d.toNat * 67108864 + a.toNat * 1048576 + i.toNat * 2048 + g.toNat * 256 + 0x7)
  | .andi d a i g => some (32, d.toNat * 67108864 + a.toNat * 1048576 + i.toNat * 2048 + g.toNat * 256 + 0x9)
  | .ori d a i g => some (32, d.toNat * 67108864 + a.toNat * 1048576 + i.toNat * 2048 + g.toNat * 256 + 0xb)
  | .xori d a i g => some (32, d.toNat * 67108864 + a.toNat * 1048576 + i.toNat * 2048 + g.toNat * 256 + 0xd)
  | .slli d a s g => some (32, d.toNat * 67108864 + a.toNat * 1048576 + s.toNat * 2048 + g.toNat * 256 + 0xf)
  | .srli d a s g => some (32, d.toNat * 67108864 + a.toNat * 1048576 + s.toNat * 2048 + g.toNat * 256 + 0x2000f)
  | .srai d a s g => some (32, d.toNat * 67108864 + a.toNat * 1048576 + s.toNat * 2048 + g.toNat * 256 + 0x4000f)
  | .lui d i g => some (32, d.toNat * 67108864 + i.toNat * 2048 + g.toNat * 256 + 0x11)
  | .cmp p a b c g => some (32, p.toNat * 536870912 + a.toNat * 1048576 + b.toNat * 16384 + c.toNat * 2048 + g.toNat * 256 + 0x13)
  | .cmpi p c a i g => some (32, p.toNat * 536870912 + c.toNat * 67108864 + a.toNat * 1048576 + i.toNat * 2048 + g.toNat * 256 + 0x15)
  | .pand d a b g => some (32, d.toNat * 536870912 + a.toNat * 67108864 + b.toNat * 8388608 + g.toNat * 256 + 0x17)
  | .por d a b g => some (32, d.toNat * 536870912 + a.toNat * 67108864 + b.toNat * 8388608 + g.toNat * 256 + 0x817)
  | .pxor d a b g => some (32, d.toNat * 536870912 + a.toNat * 67108864 + b.toNat * 8388608 + g.toNat * 256 + 0x1017)
  | .pandn d a b g => some (32, d.toNat * 536870912 + a.toNat * 67108864 + b.toNat * 8388608 + g.toNat * 256 + 0x1817)
  | .pnot d a b g => some (32, d.toNat * 536870912 + a.toNat * 67108864 + b.toNat * 8388608 + g.toNat * 256 + 0x2017)
  | .ld d b w i g => some (32, d.toNat * 67108864 + b.toNat * 1048576 + w.toNat * 131072 + i.toNat * 2048 + g.toNat * 256 + 0x19)
  | .ldSp d b w i g => some (32, d.toNat * 67108864 + b.toNat * 1048576 + w.toNat * 131072 + i.toNat * 2048 + g.toNat * 256 + 0x1b)
  | .st d b w i g => some (32, d.toNat * 67108864 + b.toNat * 1048576 + w.toNat * 131072 + i.toNat * 2048 + g.toNat * 256 + 0x1d)
  | .stSp d b w i g => some (32, d.toNat * 67108864 + b.toNat * 1048576 + w.toNat * 131072 + i.toNat * 2048 + g.toNat * 256 + 0x1f)
  | .atom d b o z c g => some (32, d.toNat * 67108864 + b.toNat * 1048576 + o.toNat * 131072 + z.toNat * 32768 + c.toNat * 8192 + g.toNat * 256 + 0x21)
  | .cas d b z c g => some (32, d.toNat * 67108864 + b.toNat * 1048576 + z.toNat * 32768 + c.toNat * 8192 + g.toNat * 256 + 0x23)
  | .atomSp d b o z c g => some (32, d.toNat * 67108864 + b.toNat * 1048576 + o.toNat * 131072 + z.toNat * 32768 + c.toNat * 8192 + g.toNat * 256 + 0x25)
  | .casSp d b z c g => some (32, d.toNat * 67108864 + b.toNat * 1048576 + z.toNat * 32768 + c.toNat * 8192 + g.toNat * 256 + 0x27)
  | .fence s g => some (32, s.toNat * 2048 + g.toNat * 256 + 0x29)
  | .flsig d a g => some (32, d.toNat * 67108864 + a.toNat * 1048576 + g.toNat * 256 + 0x2b)
  | .tkwait d a g => some (32, d.toNat * 67108864 + a.toNat * 1048576 + g.toNat * 256 + 0x2d)
  | .pbr b o g => some (32, b.toNat * 536870912 + o.toNat * 2048 + g.toNat * 256 + 0x31)
  | .br b p g => some (32, b.toNat * 536870912 + p.toNat * 67108864 + g.toNat * 256 + 0x33)
  | .brL b p g => some (32, b.toNat * 536870912 + p.toNat * 67108864 + g.toNat * 256 + 0x2000033)
  | .pbrR b a g => some (32, b.toNat * 536870912 + a.toNat * 1048576 + g.toNat * 256 + 0x35)
  | .evterm t s l e h g => some (32, t.toNat * 268435456 + s.toNat * 67108864 + l.toNat * 33554432 + e.toNat * 1048576 + h.toNat * 2048 + g.toNat * 256 + 0x37)
  | .evinc x i g => some (32, x.toNat * 134217728 + i.toNat * 2048 + g.toNat * 256 + 0x39)
  | .evwait x g => some (32, x.toNat * 134217728 + g.toNat * 256 + 0x3b)
  | .barArrive d a b g => some (32, d.toNat * 67108864 + a.toNat * 1048576 + b.toNat * 16384 + g.toNat * 256 + 0x41)
  | .barWait d a b g => some (32, d.toNat * 67108864 + a.toNat * 1048576 + b.toNat * 16384 + g.toNat * 256 + 0x841)
  | .barWait4 d a b g => some (32, d.toNat * 67108864 + a.toNat * 1048576 + b.toNat * 16384 + g.toNat * 256 + 0x1041)
  | .flagAdd d a b g => some (32, d.toNat * 67108864 + a.toNat * 1048576 + b.toNat * 16384 + g.toNat * 256 + 0x43)
  | .flagWait d a b g => some (32, d.toNat * 67108864 + a.toNat * 1048576 + b.toNat * 16384 + g.toNat * 256 + 0x843)
  | .chunk d a b g => some (32, d.toNat * 67108864 + a.toNat * 1048576 + b.toNat * 16384 + g.toNat * 256 + 0x45)
  | .tlaunch d a b g => some (32, d.toNat * 67108864 + a.toNat * 1048576 + b.toNat * 16384 + g.toNat * 256 + 0x47)
  | .tdone a g => some (32, a.toNat * 1048576 + g.toNat * 256 + 0x847)
  | .tsignal g => some (32, g.toNat * 256 + 0x1047)
  | .vaddF32 d a b q g => some (32, d.toNat * 134217728 + a.toNat * 4194304 + b.toNat * 131072 + q.toNat * 2048 + g.toNat * 256 + 0x61)
  | .vsubF32 d a b q g => some (32, d.toNat * 134217728 + a.toNat * 4194304 + b.toNat * 131072 + q.toNat * 2048 + g.toNat * 256 + 0x4061)
  | .vmulF32 d a b q g => some (32, d.toNat * 134217728 + a.toNat * 4194304 + b.toNat * 131072 + q.toNat * 2048 + g.toNat * 256 + 0x8061)
  | .vminF32 d a b q g => some (32, d.toNat * 134217728 + a.toNat * 4194304 + b.toNat * 131072 + q.toNat * 2048 + g.toNat * 256 + 0xc061)
  | .vmaxF32 d a b q g => some (32, d.toNat * 134217728 + a.toNat * 4194304 + b.toNat * 131072 + q.toNat * 2048 + g.toNat * 256 + 0x10061)
  | .vabsF32 d a q g => some (32, d.toNat * 134217728 + a.toNat * 4194304 + q.toNat * 2048 + g.toNat * 256 + 0x14061)
  | .vnegF32 d a q g => some (32, d.toNat * 134217728 + a.toNat * 4194304 + q.toNat * 2048 + g.toNat * 256 + 0x18061)
  | .vaddI32 d a b q g => some (32, d.toNat * 134217728 + a.toNat * 4194304 + b.toNat * 131072 + q.toNat * 2048 + g.toNat * 256 + 0x63)
  | .vsubI32 d a b q g => some (32, d.toNat * 134217728 + a.toNat * 4194304 + b.toNat * 131072 + q.toNat * 2048 + g.toNat * 256 + 0x4063)
  | .vmulI32 d a b q g => some (32, d.toNat * 134217728 + a.toNat * 4194304 + b.toNat * 131072 + q.toNat * 2048 + g.toNat * 256 + 0x8063)
  | .vmulhI32 d a b q g => some (32, d.toNat * 134217728 + a.toNat * 4194304 + b.toNat * 131072 + q.toNat * 2048 + g.toNat * 256 + 0xc063)
  | .vminI32 d a b q g => some (32, d.toNat * 134217728 + a.toNat * 4194304 + b.toNat * 131072 + q.toNat * 2048 + g.toNat * 256 + 0x10063)
  | .vmaxI32 d a b q g => some (32, d.toNat * 134217728 + a.toNat * 4194304 + b.toNat * 131072 + q.toNat * 2048 + g.toNat * 256 + 0x14063)
  | .vminuI32 d a b q g => some (32, d.toNat * 134217728 + a.toNat * 4194304 + b.toNat * 131072 + q.toNat * 2048 + g.toNat * 256 + 0x18063)
  | .vmaxuI32 d a b q g => some (32, d.toNat * 134217728 + a.toNat * 4194304 + b.toNat * 131072 + q.toNat * 2048 + g.toNat * 256 + 0x1c063)
  | .vand d a b q g => some (32, d.toNat * 134217728 + a.toNat * 4194304 + b.toNat * 131072 + q.toNat * 2048 + g.toNat * 256 + 0x65)
  | .vor d a b q g => some (32, d.toNat * 134217728 + a.toNat * 4194304 + b.toNat * 131072 + q.toNat * 2048 + g.toNat * 256 + 0x4065)
  | .vxor d a b q g => some (32, d.toNat * 134217728 + a.toNat * 4194304 + b.toNat * 131072 + q.toNat * 2048 + g.toNat * 256 + 0x8065)
  | .vandn d a b q g => some (32, d.toNat * 134217728 + a.toNat * 4194304 + b.toNat * 131072 + q.toNat * 2048 + g.toNat * 256 + 0xc065)
  | .vsll d a b q g => some (32, d.toNat * 134217728 + a.toNat * 4194304 + b.toNat * 131072 + q.toNat * 2048 + g.toNat * 256 + 0x10065)
  | .vsrl d a b q g => some (32, d.toNat * 134217728 + a.toNat * 4194304 + b.toNat * 131072 + q.toNat * 2048 + g.toNat * 256 + 0x14065)
  | .vsra d a b q g => some (32, d.toNat * 134217728 + a.toNat * 4194304 + b.toNat * 131072 + q.toNat * 2048 + g.toNat * 256 + 0x18065)
  | .vfmaF32 d a b c g => some (32, d.toNat * 134217728 + a.toNat * 4194304 + b.toNat * 131072 + c.toNat * 4096 + g.toNat * 256 + 0x67)
  | .vfmsF32 d a b c g => some (32, d.toNat * 134217728 + a.toNat * 4194304 + b.toNat * 131072 + c.toNat * 4096 + g.toNat * 256 + 0x867)
  | .vfnmaF32 d a b c g => some (32, d.toNat * 134217728 + a.toNat * 4194304 + b.toNat * 131072 + c.toNat * 4096 + g.toNat * 256 + 0x69)
  | .vfnmsF32 d a b c g => some (32, d.toNat * 134217728 + a.toNat * 4194304 + b.toNat * 131072 + c.toNat * 4096 + g.toNat * 256 + 0x869)
  | .vrcp d a q g => some (32, d.toNat * 134217728 + a.toNat * 4194304 + q.toNat * 2048 + g.toNat * 256 + 0x6b)
  | .vrsqrt d a q g => some (32, d.toNat * 134217728 + a.toNat * 4194304 + q.toNat * 2048 + g.toNat * 256 + 0x406b)
  | .vexp2 d a q g => some (32, d.toNat * 134217728 + a.toNat * 4194304 + q.toNat * 2048 + g.toNat * 256 + 0x806b)
  | .vlog2 d a q g => some (32, d.toNat * 134217728 + a.toNat * 4194304 + q.toNat * 2048 + g.toNat * 256 + 0xc06b)
  | .vcmpF32 d a b c q g => some (32, d.toNat * 268435456 + a.toNat * 8388608 + b.toNat * 262144 + c.toNat * 32768 + q.toNat * 4096 + g.toNat * 256 + 0x6d)
  | .vcmpI32 d a b c q g => some (32, d.toNat * 268435456 + a.toNat * 8388608 + b.toNat * 262144 + c.toNat * 32768 + q.toNat * 4096 + g.toNat * 256 + 0x6f)
  | .vlut3 d a b c g => some (32, d.toNat * 134217728 + a.toNat * 4194304 + b.toNat * 131072 + c.toNat * 4096 + g.toNat * 256 + 0x71)
  | .vfsl d a b i g => some (32, d.toNat * 134217728 + a.toNat * 4194304 + b.toNat * 131072 + i.toNat * 2048 + g.toNat * 256 + 0x73)
  | .vfsr d a b i g => some (32, d.toNat * 134217728 + a.toNat * 4194304 + b.toNat * 131072 + i.toNat * 2048 + g.toNat * 256 + 0x75)
  | .vrotl d a i g => some (32, d.toNat * 134217728 + a.toNat * 4194304 + i.toNat * 2048 + g.toNat * 256 + 0x77)
  | .vpopc d a q g => some (32, d.toNat * 134217728 + a.toNat * 4194304 + q.toNat * 2048 + g.toNat * 256 + 0x79)
  | .vclz d a q g => some (32, d.toNat * 134217728 + a.toNat * 4194304 + q.toNat * 2048 + g.toNat * 256 + 0x4079)
  | .vbrev d a q g => some (32, d.toNat * 134217728 + a.toNat * 4194304 + q.toNat * 2048 + g.toNat * 256 + 0x8079)
  | .vpart d a q g => some (32, d.toNat * 134217728 + a.toNat * 4194304 + q.toNat * 2048 + g.toNat * 256 + 0x7b)
  | .vgath v i b s q g => some (32, v.toNat * 134217728 + i.toNat * 4194304 + b.toNat * 65536 + s.toNat * 32768 + q.toNat * 4096 + g.toNat * 256 + 0x7d)
  | .vscat v i b s q g => some (32, v.toNat * 134217728 + i.toNat * 4194304 + b.toNat * 65536 + s.toNat * 32768 + q.toNat * 4096 + g.toNat * 256 + 0x7f)
  | .vld32 v b s q g => some (32, v.toNat * 134217728 + b.toNat * 2097152 + s.toNat * 1048576 + q.toNat * 16384 + g.toNat * 256 + 0x81)
  | .vldB v b s q g => some (32, v.toNat * 134217728 + b.toNat * 2097152 + s.toNat * 1048576 + q.toNat * 16384 + g.toNat * 256 + 0x20081)
  | .vst32 v b s q g => some (32, v.toNat * 134217728 + b.toNat * 2097152 + s.toNat * 1048576 + q.toNat * 16384 + g.toNat * 256 + 0x83)
  | .vslideup d a b i g => some (32, d.toNat * 134217728 + a.toNat * 4194304 + b.toNat * 131072 + i.toNat * 2048 + g.toNat * 256 + 0x85)
  | .vslidedn d a b i g => some (32, d.toNat * 134217728 + a.toNat * 4194304 + b.toNat * 131072 + i.toNat * 2048 + g.toNat * 256 + 0x87)
  | .vperm d a b q g => some (32, d.toNat * 134217728 + a.toNat * 4194304 + b.toNat * 131072 + q.toNat * 2048 + g.toNat * 256 + 0x89)
  | .vred d a m q g => some (32, d.toNat * 134217728 + a.toNat * 4194304 + m.toNat * 16384 + q.toNat * 2048 + g.toNat * 256 + 0x8b)
  | .vscan d a m q g => some (32, d.toNat * 134217728 + a.toNat * 4194304 + m.toNat * 16384 + q.toNat * 2048 + g.toNat * 256 + 0x8d)
  | .vcvtTo d a f q g => some (32, d.toNat * 134217728 + a.toNat * 4194304 + f.toNat * 65536 + q.toNat * 8192 + g.toNat * 256 + 0x8f)
  | .vcvtFrom d a f q g => some (32, d.toNat * 134217728 + a.toNat * 4194304 + f.toNat * 65536 + q.toNat * 8192 + g.toNat * 256 + 0x108f)
  | .vmxq d a s f g => some (32, d.toNat * 134217728 + a.toNat * 4194304 + s.toNat * 131072 + f.toNat * 2048 + g.toNat * 256 + 0x91)
  | .vsrc d a f q g => some (32, d.toNat * 134217728 + a.toNat * 4194304 + f.toNat * 65536 + q.toNat * 8192 + g.toNat * 256 + 0x93)
  | .qand d a b g => some (32, d.toNat * 268435456 + a.toNat * 16777216 + b.toNat * 1048576 + g.toNat * 256 + 0x95)
  | .qor d a b g => some (32, d.toNat * 268435456 + a.toNat * 16777216 + b.toNat * 1048576 + g.toNat * 256 + 0x895)
  | .qxor d a b g => some (32, d.toNat * 268435456 + a.toNat * 16777216 + b.toNat * 1048576 + g.toNat * 256 + 0x1095)
  | .qandn d a b g => some (32, d.toNat * 268435456 + a.toNat * 16777216 + b.toNat * 1048576 + g.toNat * 256 + 0x1895)
  | .qnot d a b g => some (32, d.toNat * 268435456 + a.toNat * 16777216 + b.toNat * 1048576 + g.toNat * 256 + 0x2095)
  | .qmov d a b g => some (32, d.toNat * 268435456 + a.toNat * 16777216 + b.toNat * 1048576 + g.toNat * 256 + 0x2895)
  | .vsetvlImm i g => some (32, i.toNat * 262144 + g.toNat * 256 + 0x2000097)
  | .vsetvlReg a g => some (32, a.toNat * 67108864 + g.toNat * 256 + 0x97)
  | .vmv d a s g => some (32, d.toNat * 134217728 + a.toNat * 4194304 + s.toNat * 65536 + g.toNat * 256 + 0x99)
  | .vbcast d s g => some (32, d.toNat * 134217728 + s.toNat * 65536 + g.toNat * 256 + 0x899)
  | .vsel d a b q g => some (32, d.toNat * 134217728 + a.toNat * 4194304 + b.toNat * 131072 + q.toNat * 2048 + g.toNat * 256 + 0x9b)
  | .mnest l f a g => some (32, l.toNat * 536870912 + f.toNat * 67108864 + a.toNat * 1048576 + g.toNat * 256 + 0xc1)
  | .mopa b s p t g => some (32, b.toNat * 67108864 + s.toNat * 1048576 + p.toNat * 524288 + t.toNat * 262144 + g.toNat * 256 + 0xc3)
  | .mopb b s p t g => some (32, b.toNat * 67108864 + s.toNat * 1048576 + p.toNat * 524288 + t.toNat * 262144 + g.toNat * 256 + 0x8c3)
  | .mopm b s p t g => some (32, b.toNat * 67108864 + s.toNat * 1048576 + p.toNat * 524288 + t.toNat * 262144 + g.toNat * 256 + 0x10c3)
  | .mma k f g => some (32, k.toNat * 268435456 + f.toNat * 4194304 + g.toNat * 256 + 0xc5)
  | .mmas k f g => some (32, k.toNat * 268435456 + f.toNat * 4194304 + g.toNat * 256 + 0xc7)
  | .mgo k f g => some (32, k.toNat * 268435456 + f.toNat * 4194304 + g.toNat * 256 + 0xc9)
  | .mfmt d a b g => some (32, d.toNat * 67108864 + a.toNat * 1048576 + b.toNat * 16384 + g.toNat * 256 + 0xcb)
  | .mfmtPool a b g => some (32, a.toNat * 1048576 + b.toNat * 16384 + g.toNat * 256 + 0x8cb)
  | .mfmtcommit g => some (32, g.toNat * 256 + 0xcd)
  | .chbuild c a f g => some (32, c.toNat * 16777216 + a.toNat * 262144 + f.toNat * 2048 + g.toNat * 256 + 0xcf)
  | .chclose c a b f g => some (32, c.toNat * 16777216 + a.toNat * 262144 + b.toNat * 4096 + f.toNat * 2048 + g.toNat * 256 + 0xd1)
  | .chstat c a g => some (32, c.toNat * 16777216 + a.toNat * 262144 + g.toNat * 256 + 0xd3)
  | .chsplice c a b g => some (32, c.toNat * 16777216 + a.toNat * 262144 + b.toNat * 4096 + g.toNat * 256 + 0xd5)
  | .chhalt c g => some (32, c.toNat * 16777216 + g.toNat * 256 + 0xd7)
  | .chthaw c g => some (32, c.toNat * 16777216 + g.toNat * 256 + 0x10d7)
  | .chrel c g => some (32, c.toNat * 16777216 + g.toNat * 256 + 0x20d7)
  | .chread c a b f g => some (32, c.toNat * 16777216 + a.toNat * 262144 + b.toNat * 4096 + f.toNat * 2048 + g.toNat * 256 + 0xd9)
  | .cp d s p q n g => some (32, d.toNat * 67108864 + s.toNat * 1048576 + p.toNat * 524288 + q.toNat * 262144 + n.toNat * 2048 + g.toNat * 256 + 0xe1)
  | .cpR d s p q l g => some (32, d.toNat * 67108864 + s.toNat * 1048576 + p.toNat * 524288 + q.toNat * 262144 + l.toNat * 2048 + g.toNat * 256 + 0xe3)
  | .cpD2d d s g => some (32, d.toNat * 67108864 + s.toNat * 524288 + g.toNat * 256 + 0xe5)
  | .cpD3d d s g => some (32, d.toNat * 67108864 + s.toNat * 524288 + g.toNat * 256 + 0x100e5)
  | .cpDCvt d s g => some (32, d.toNat * 67108864 + s.toNat * 524288 + g.toNat * 256 + 0x200e5)
  | .cpDGath d s g => some (32, d.toNat * 67108864 + s.toNat * 524288 + g.toNat * 256 + 0x300e5)
  | .cpDScat d s g => some (32, d.toNat * 67108864 + s.toNat * 524288 + g.toNat * 256 + 0x400e5)
  | .cpDFill d s g => some (32, d.toNat * 67108864 + s.toNat * 524288 + g.toNat * 256 + 0x500e5)
  | .cpDRemote d s g => some (32, d.toNat * 67108864 + s.toNat * 524288 + g.toNat * 256 + 0x600e5)
  | .stmap d a b g => some (32, d.toNat * 67108864 + a.toNat * 1048576 + b.toNat * 16384 + g.toNat * 256 + 0xe7)
  | .stunmap d g => some (32, d.toNat * 67108864 + g.toNat * 256 + 0x8e7)
  | .stflush d a g => some (32, d.toNat * 67108864 + a.toNat * 1048576 + g.toNat * 256 + 0x10e7)
  | .stinv d a g => some (32, d.toNat * 67108864 + a.toNat * 1048576 + g.toNat * 256 + 0x18e7)
  | .barArriveD a b g => some (32, a.toNat * 1048576 + b.toNat * 16384 + g.toNat * 256 + 0xe9)
  | .hlaunch a b g => some (32, a.toNat * 1048576 + b.toNat * 16384 + g.toNat * 256 + 0xeb)
  | .hstop g => some (32, g.toNat * 256 + 0xed)
  | .hstat d g => some (32, d.toNat * 67108864 + g.toNat * 256 + 0x8ed)
  | .hballoc d a b g => some (32, d.toNat * 67108864 + a.toNat * 1048576 + b.toNat * 16384 + g.toNat * 256 + 0xf1)
  | .hbgate a b g => some (32, a.toNat * 1048576 + b.toNat * 16384 + g.toNat * 256 + 0x8f1)
  | .hbpoll d a g => some (32, d.toNat * 67108864 + a.toNat * 1048576 + g.toNat * 256 + 0x10f1)
  | .hbrel a g => some (32, a.toNat * 1048576 + g.toNat * 256 + 0x18f1)
  | .hbstat d a g => some (32, d.toNat * 67108864 + a.toNat * 1048576 + g.toNat * 256 + 0x20f1)
  | .hbcfg d a g => some (32, d.toNat * 67108864 + a.toNat * 1048576 + g.toNat * 256 + 0x28f1)
  | .hbput d a b g => some (32, d.toNat * 67108864 + a.toNat * 1048576 + b.toNat * 16384 + g.toNat * 256 + 0xf3)
  | .prgrad d a b g => some (32, d.toNat * 67108864 + a.toNat * 1048576 + b.toNat * 16384 + g.toNat * 256 + 0x8f3)
  | .gdep d a b g => some (32, d.toNat * 67108864 + a.toNat * 1048576 + b.toNat * 16384 + g.toNat * 256 + 0x10f3)
  | .prread d a b g => some (32, d.toNat * 67108864 + a.toNat * 1048576 + b.toNat * 16384 + g.toNat * 256 + 0x18f3)
  | .gread d a b g => some (32, d.toNat * 67108864 + a.toNat * 1048576 + b.toNat * 16384 + g.toNat * 256 + 0x20f3)
  | .prsync d a b g => some (32, d.toNat * 67108864 + a.toNat * 1048576 + b.toNat * 16384 + g.toNat * 256 + 0xf5)
  | .prrule d a b g => some (32, d.toNat * 67108864 + a.toNat * 1048576 + b.toNat * 16384 + g.toNat * 256 + 0x8f5)
  | .gspread p a b g => some (32, p.toNat * 536870912 + a.toNat * 1048576 + b.toNat * 16384 + g.toNat * 256 + 0x10f5)
  | .gmass d a g => some (32, d.toNat * 67108864 + a.toNat * 1048576 + g.toNat * 256 + 0x18f5)
  | .gcfg d a g => some (32, d.toNat * 67108864 + a.toNat * 1048576 + g.toNat * 256 + 0x20f5)
  | .csrr d c g => some (32, d.toNat * 67108864 + c.toNat * 16384 + g.toNat * 256 + 0xf9)
  | .csrw d c g => some (32, d.toNat * 67108864 + c.toNat * 16384 + g.toNat * 256 + 0x8f9)
  | .trap a g => some (32, a.toNat * 1048576 + g.toNat * 256 + 0xfb)
  | .eret g => some (32, g.toNat * 256 + 0x8fb)
  | .halt g => some (32, g.toNat * 256 + 0x10fb)
  | .hcp k o => some (64, k.toNat * 4294967296 + o.toNat)
  | .hwait l t => some (64, 0x1000000000000000 + l.toNat * 16 + t.toNat)
  | .hloop b c s d => if b.toNat = 0 then none else some (64, 0x2000000000000000 + b.toNat * 281474976710656 + c.toNat * 4294967296 + s.toNat * 65536 + d.toNat)
  | .hflag l r e v => some (64, 0x3000000000000000 + l.toNat * 274877906944 + r.toNat * 137438953472 + e.toNat * 4294967296 + v.toNat)
  | .hjmp o => some (64, 0x4000000000000000 + o.toNat)
  | .hend v => some (64, 0x5000000000000000 + v.toNat)
  | .blockStart _ _ _ => none
  | .blockRaise _ _ _ => none
  | .traceFreeze _ _ => none
  | .haltComplete _ _ => none
  | .handlerStart _ _ => none
  | .containment _ _ => none
  | .uncorrectableError _ _ _ _ => none
  | .memoryTimeout _ _ _ => none
  | .switchOut _ _ _ => none
  | .switchIn _ => none
  | .matrixGroup _ _ => none
  | .hopArrival _ => none
  | .closeStart _ _ => none
  | .closeLand _ _ => none
  | .copyBeatGroup _ _ => none
  | .stashFill _ _ _ => none
  | .stashSnoop _ _ _ _ => none
  | .stashWriteback _ _ _ => none
  | .qtailWrite _ _ _ => none
  | .qbaseWrite _ _ _ => none
  | .qsizeWrite _ _ _ => none
  | .graphAdmit _ => none
  | .recordAdmit _ => none
  | .taskStart _ _ => none
  | .gangStart _ _ => none
  | .preempt _ _ => none
  | .taskRetire _ _ => none
  | .reads _ => none
  | .readx _ => none
  | .writeback _ _ => none
  | .homeDieRead _ => none
  | .homeDieWrite _ => none
  | .fwds _ => none
  | .fwdh _ => none
  | .inv _ => none
  | .entryEviction _ _ => none
  | .postedStorePerformed _ _ _ => none
  | .storeAck _ => none
  | .dieLost _ => none
  | .hbPutArrival _ => none
  | .hbTimeout _ _ _ => none
  | .combineWrite _ _ _ => none
  | .prArrival _ => none
  | .prUpdate _ => none
  | .halving _ _ => none
  | .halfMerge _ _ => none
  | .halfApplied _ _ => none
  | .halfRefused _ _ => none
  | .halfRetransmit _ _ => none
  | .zynothPortFail _ => none
  | .zynothPortRetrain _ _ => none
  | .mbExport _ => none
  | .mbImport _ => none
  | .unimport _ => none
  | .revoke _ => none
  | .invaltr _ => none
  | .migrate _ _ => none
  | .warmreset _ => none
  | .gresolve _ => none
  | .ctxcreate _ => none
  | .ctxdestroy _ => none
  | .keyload _ => none
  | .keyclr _ => none
  | .manadd _ => none
  | .mansign _ => none
  | .imgpush _ => none
  | .pwrlimit _ => none
  | .featacceptWrite _ => none
  | .registerWrite _ _ _ => none
  | .powerGood => none
  | .dieAdmit _ _ => none
  | .powerSample _ => none
  | .thermalSample _ => none
  | .coreAgeingCheck _ _ _ => none
  | .savedContextReply _ _ _ => none
  | .flagAddArrival _ => none
  | .deposit _ => none
  | .acknowledgement _ => none
  | .cxlMemAccess _ _ _ _ => none
  | .dieMapChange _ => none
  | .l2ModeChange _ _ => none
  | .contextResume _ => none
  | .powerLoss _ => none

/-- A helper micro-instruction word (Table 12.4); `none` where R235 raises HPROG for the word itself. -/
def decodeHelper (w : Nat) : Option Instr :=
  match fldN w 60 4 with
  | 0 => if fldN w 35 25 = 0 then some (.hcp (fld w 32 3) (fld w 0 32)) else none
  | 1 => if fldN w 5 55 = 0 then some (.hwait (fld w 4 1) (fld w 0 4)) else none
  | 2 => if fldN w 48 12 ≠ 0 then some (.hloop (fld w 48 12) (fld w 32 16) (fld w 16 16) (fld w 0 16)) else none
  | 3 => if fldN w 39 21 = 0 then some (.hflag (fld w 38 1) (fld w 37 1) (fld w 32 5) (fld w 0 32)) else none
  | 4 => if fldN w 20 40 = 0 then some (.hjmp (fld w 0 20)) else none
  | 5 => if fldN w 32 28 = 0 then some (.hend (fld w 0 32)) else none
  | _ => none

/-- The decoder on a word laid out as spec/opcode_table.json numbers its bits; a 64-bit word is a micro-instruction of the helper. -/
def decodeTableWord (nbits w : Nat) : Option Instr :=
  if nbits = 64 then decodeHelper w
  else match decode w with
    | .ok i => some i
    | .error _ => none

end Sys2Proof
end

