-- ==== Sys2Proof/Machine/Tab.lean ====
section
/-! DEFINITION. Sparse tables: a list of (key, value) pairs that lists only keys whose value differs from a default, keys
strictly rising. Every memory, register file and indexed unit of State is one, so equal contents are equal data. -/

namespace Sys2Proof.Machine

/-- A sparse table. A memory is `Tab Byte`, whose entries are Host.Cell. -/
abbrev Tab (α : Type) := List (Nat × α)
/-- A byte memory. -/
abbrev Mem := List Host.Cell

variable {α : Type}

/-- The value at a key: the first entry's, else the default. -/
def tGet (d : α) : Tab α → Nat → α
  | [], _ => d
  | (k', v) :: t, k => if k' = k then v else tGet d t k

/-- The entry at a key, if listed. -/
def tFind : Tab α → Nat → Option α
  | [], _ => none
  | (k', v) :: t, k => if k' = k then some v else tFind t k

/-- The table without a key. -/
def tDel : Tab α → Nat → Tab α
  | [], _ => []
  | (k', v) :: t, k => if k' = k then tDel t k else (k', v) :: tDel t k

/-- The table with an entry put before the first larger key. -/
def tIns : Tab α → Nat → α → Tab α
  | [], k, v => [(k, v)]
  | (k', v') :: t, k, v => if k < k' then (k, v) :: (k', v') :: t else (k', v') :: tIns t k v

/-- The table with `v` at `k`; a default value unlists the key. -/
def tSet [DecidableEq α] (d : α) (t : Tab α) (k : Nat) (v : α) : Tab α :=
  if v = d then tDel t k else tIns (tDel t k) k v

/-- Keys strictly rising from a bound, no entry at its default. -/
def tWfFrom [DecidableEq α] (d : α) : Nat → Tab α → Bool
  | _, [] => true
  | b, (k, v) :: t => decide (b ≤ k) && !decide (v = d) && tWfFrom d (k + 1) t

/-- The canonical form. -/
def tWf [DecidableEq α] (d : α) (t : Tab α) : Bool := tWfFrom d 0 t

/-- The canonical form of a memory, an unlisted byte of which reads as 0. -/
def Memory.wf (m : Mem) : Bool := tWf 0 m

/-- The entries with keys in [lo, hi), moved down by `lo`. -/
def tWindow : Tab α → Nat → Nat → Tab α
  | [], _, _ => []
  | (k, v) :: t, lo, hi => if lo ≤ k ∧ k < hi then (k - lo, v) :: tWindow t lo hi else tWindow t lo hi

end Sys2Proof.Machine
end

