-- ==== Sys2Proof/Machine/Bits.lean ====
section
/-! DEFINITION. Bit fields, sign extension and byte order (R44, R45, R83): what every unit uses to take words apart. -/

namespace Sys2Proof.Machine

/-- x[lo + w - 1 : lo]. -/
def bits (x lo w : Nat) : Nat := x / 2 ^ lo % 2 ^ w

/-- x[n]. -/
def bit (x n : Nat) : Bool := x / 2 ^ n % 2 = 1

/-- The low `w` bits of `x` as a two's-complement integer. -/
def sextI (x w : Nat) : Int := if x % 2 ^ w < 2 ^ (w - 1) then (x % 2 ^ w : Nat) else ((x % 2 ^ w : Nat) : Int) - 2 ^ w

/-- `sext(x, w)` of Table 2.5. -/
def sext (x w : Nat) : Word := BitVec.ofInt 64 (sextI x w)

/-- A Bool as a bit. -/
def b2n (b : Bool) : Nat := if b then 1 else 0

/-- Little-endian bytes to a number. -/
def bytesToNat : List Byte → Nat
  | [] => 0
  | b :: t => b.toNat + 256 * bytesToNat t

/-- The `n` low little-endian bytes of a number. -/
def natToBytes : Nat → Nat → List Byte
  | 0, _ => []
  | n + 1, x => BitVec.ofNat 8 x :: natToBytes n (x / 256)

/-- `n` bytes of a memory from `a`. -/
def mRead (m : Mem) (a : Nat) : Nat → List Byte
  | 0 => []
  | n + 1 => tGet 0 m a :: mRead m (a + 1) n

/-- The memory with bytes stored from `a`. -/
def mWrite (m : Mem) (a : Nat) : List Byte → Mem
  | [] => m
  | b :: t => mWrite (tSet 0 m a b) (a + 1) t

/-- `n` little-endian bytes of a memory as a number. -/
def mReadN (m : Mem) (a n : Nat) : Nat := bytesToNat (mRead m a n)

/-- The memory with the `n` low bytes of a number stored from `a`. -/
def mWriteN (m : Mem) (a n x : Nat) : Mem := mWrite m a (natToBytes n x)

/-- Round a range outward to 64-byte boundaries (R24). -/
def round64 (lo hi : Nat) : Nat × Nat := (lo / 64 * 64, (hi + 63) / 64 * 64)

/-- The first `k` of the naturals from `a`. -/
def upto (a : Nat) : Nat → List Nat
  | 0 => []
  | n + 1 => a :: upto (a + 1) n

/-- Whether `n` is a multiple of `k`. -/
def aligned (n k : Nat) : Bool := n % k = 0

/-- Replace the n-th element of a list. -/
def setNth {α : Type} : List α → Nat → α → List α
  | [], _, _ => []
  | _ :: t, 0, x => x :: t
  | y :: t, n + 1, x => y :: setNth t n x

/-- Drop the n-th element of a list. -/
def dropNth {α : Type} : List α → Nat → List α
  | [], _ => []
  | _ :: t, 0 => t
  | y :: t, n + 1 => y :: dropNth t n

/-- A signed 32-bit difference a − b (R114). -/
def diff32 (a b : BitVec 32) : Int := (a - b).toInt

end Sys2Proof.Machine
end

