-- ==== Sys2Proof/Config.lean ====
section
/-! DEFINITION. What an implementation fixes, and the free values: opaque functions with no body, of which nothing can be
proved but that they are functions of their arguments. A free value is applied to the counter State.free and an index that
says which value of the step it is. -/

namespace Sys2Proof.Config

/-- Cycles of the arithmetic clock in a microsecond (R3). -/
def clkPerUs : Nat := 2700
/-- Scratchpad bytes of a core (Table 1.2). -/
def spSize : Nat := 0x200000
/-- Logical cores of a compute die (R11). -/
def coresPerDie : Nat := 160
/-- Physical cores of a compute die (R11). -/
def physPerDie : Nat := 168
/-- Entries of the range-overlap scoreboard (R24). -/
def scoreboardSize : Nat := 64
/-- Entries of a copy queue (R222). -/
def copyQueueSize : Nat := 16
/-- Posted stores of one core to one home die (R309). -/
def postedQueueSize : Nat := 64
/-- The depth of a core's store queue, which the spec does not give (log 9). -/
def storeQueueSize : Nat := 64
/-- Clk after which a missing reply is a TIMEOUT: 200 µs (R105). -/
def timeoutClk : Nat := 200 * clkPerUs

/-- An unpredictable register value (R36), a value read under a changed key (R379), a fresh handle tag. -/
opaque freeBits : Nat → Nat → Nat
/-- Which way RNE takes a tie between 2^q and 2^(q+1) in a format of one significant bit: the spec does not say which is even. -/
opaque tieUp : Int → Bool
/-- log2 of the number of partitions into which firmware divides a die (R299), modulo 4. -/
opaque partLogOf : Nat → Nat
/-- The far-tier and expander pages that firmware allots (R301): page number, and 1 + die + 4 * partition. -/
opaque allotment : List (Nat × Nat)
/-- Bytes of a function's CXL.mem window (Table 22.1), which firmware sets up to 64 GiB. -/
opaque cxlWindow : Nat → Nat
/-- The number of this package in the order of packages (R333). -/
opaque packageNo : Nat
/-- Whether the Milliner's verification of a firmware image succeeds (R375): the signature scheme and the fused key are
outside the spec. -/
opaque imageVerifies : Nat → Bool
/-- The signature and public-key hash of a manifest report (R382), as bytes of a number: the identity key never leaves the part. -/
opaque signature : List Nat → Nat
/-- SHA-256 of the running firmware image (R380). -/
opaque imageHash : Nat → Nat
/-- The 16-byte device identifier and the hash of the identity public key (R382). -/
opaque deviceId : Nat
opaque identityHash : Nat
/-- A transcendental result on the grid G16 that the interval evaluation of `vexp2` and `vlog2` leaves open, or of POWS on
the f32 grid: function number, operand, mode. -/
opaque openRounding : Nat → Nat → Nat → Nat

end Sys2Proof.Config
end

