-- ==== Sys2Proof/Machine/State.lean ====
section
/-! DEFINITION. The state of the whole OLC-640 module as plain data: cores with their streams and engines, dies, contexts,
chains, the scheduler's graphs, the fabric's messages, the memory-side units and the Milliner; and the state after reset.
Tables are sparse (Tab): an unlisted key holds the default its reader names. Which piece of the spec names each field stands in
INVENTORY.md. Keys: a core is die * 160 + core; a partition die * 8 + part; a link slot (die * 168 + physical core) * 16 + slot;
a byte of HBM die * 2^52 + physical address, a byte of the far tier, an expander or host memory 4 * 2^52 + physical address. -/

namespace Sys2Proof.Machine

/-- Which of a core's streams acts: die, logical core, stream. -/
structure EngId where
  die  : Nat
  core : Nat
  eng  : Eng
  deriving DecidableEq, Repr

/-- A prefix that waits for its instruction (R80): kind, value, position in the body, and whether its reserved bits are not zero, which
the unit it belongs to reports (R92). -/
structure Pfx where
  isFmt : Bool
  val   : Nat
  pos   : Nat
  bad   : Bool := false
  deriving DecidableEq, Repr

/-- A block header's fields (Tables 4.3a and 4.3b); `rep` is the repeat count. -/
structure Header where
  rep     : Nat := 1
  len     : Nat := 0
  fmtBase : Nat := 0
  ilk     : Bool := false
  raiseEn : Bool := false
  raise   : Nat := 0
  await   : Nat := 0
  deriving DecidableEq, Repr

/-- A trap an engine carries (R122): class, subcode, address, clk, the body position it reports where that is not the
unit's first halfword (R92); whether it is imprecise, comes from work issued before (R133), or leaves no instruction to skip; and the HPC that a helper copy's fault reports (R225). -/
structure TrapRec where
  cls     : Nat
  sub     : Nat
  addr    : Word := 0
  clk     : Nat := 0
  pos     : Option Nat := none
  imprecise : Bool := false
  async   : Bool := false
  skip    : Bool := true
  hpc     : Option Nat := none
  deriving DecidableEq, Repr

/-- A request an engine waits for (R105, R110): since when, for which address, by which instruction with which prefixes, and whether it
has left the core and must not be made twice (R124). `pc` is its unit's place in the ring; `got` holds the elements of a vector load that have returned, by lane (R161). -/
structure Req where
  since : Nat
  addr  : Word
  instr : Instr
  once  : Bool
  pc    : Nat := 0
  pfx   : List Pfx := []
  got   : List (Nat × Lane) := []
  deriving DecidableEq, Repr

/-- A stop record (Tables 6.3 and 6.4): words 0 to 7. -/
structure StopRec where
  w0 : Word := 0
  w1 : Word := 0
  w2 : Word := 0
  w3 : Word := 0
  w4 : Word := 0
  w5 : Word := 0
  w6 : Word := 0
  w7 : Word := 0
  deriving DecidableEq, Repr

/-- Where a stream stands: ended (R14), at a block header, or in a block's body. -/
inductive Phase where
  | ended | header | body
  deriving DecidableEq, Repr

/-- A `csrr` of an event counter whose read has not landed (R98, R118): the destination, the clk of the landing, and the counter. -/
structure CntRead where
  d  : Nat
  at_ : Nat
  n  : Nat
  deriving DecidableEq, Repr

/-- One stream: its ring and place in it, its scalar file, predicates and branch registers (s, p, b of C; a, p, b of V, M, X). `gap` is
the issue gap of its last instruction (R36), `released` the clk from which the block it waits at may start although its term is false
again (R22), `cntReads` its counter reads on their way. -/
structure Engine where
  ringBase  : Nat := 0
  ringSize  : Nat := 0
  imgLen    : Nat := 0
  phase     : Phase := .ended
  blk       : Nat := 0
  pos       : Nat := 0
  iter      : Nat := 0
  hdr       : Header := {}
  awaited   : Bool := false
  x         : Tab Word := []
  p         : BitVec 8 := 1
  b         : Tab Word := []
  pfx       : List Pfx := []
  raiseDue  : Option Nat := none
  nextIssue : Nat := 0
  gap       : Nat := 0
  released  : Option Nat := none
  cntReads  : List CntRead := []
  busy      : Tab Nat := []
  req       : Option Req := none
  saved     : Option Req := none
  savedTrap : Option TrapRec := none
  trap      : Option TrapRec := none
  stop      : StopRec := {}
  stop0     : StopRec := {}
  deriving DecidableEq, Repr

/-- An event comparison, counter ≥ threshold (R21). -/
structure Cmp where
  e   : Nat
  thr : Nat
  deriving DecidableEq, Repr

/-- An event term: slots 0 and 1 form the first AND, 2 and 3 the second (R21, R117). -/
structure Term where
  s0 : Option Cmp := none
  s1 : Option Cmp := none
  s2 : Option Cmp := none
  s3 : Option Cmp := none
  deriving DecidableEq, Repr

/-- A pending `evterm` definition (R117). -/
structure PendTerm where
  t    : Nat
  last : Nat
  term : Term
  deriving DecidableEq, Repr

/-- Whose work an asynchronous command is; `remote` is another core's copy into this scratchpad (R232). -/
inductive Owner where
  | copy (n : Nat) | matrix (n : Nat) | close (key : Nat) | remote (die core n : Nat)
  deriving DecidableEq, Repr

/-- A scoreboard entry (R23, R24), its range rounded outward to 64 bytes. -/
structure SbEntry where
  num   : Nat
  lo    : Nat
  hi    : Nat
  write : Bool
  owner : Owner
  deriving DecidableEq, Repr

/-- A global store in a core's store queue (R105): its stream, bytes and memory key; `seq` is the number of the core's next posted item as it
entered, which orders it among those (R278), `rel` that its stream has raised a counter since (R283). -/
structure QStore where
  eng   : Eng
  mtype : Nat
  key   : Nat
  home  : Nat
  va    : Word
  keyNo : Nat
  data  : List Byte
  seq   : Nat := 0
  rel   : Bool := false
  deriving DecidableEq, Repr

/-- Posted traffic of a core not yet acknowledged (R113): its number, the import it goes through by the number that IMPORT gave it, the home die if on this
package, whether it has been performed or was dropped, whether an X-stream copy-queue entry posted it (R262), and the stream and memory type of a
store (R274). -/
structure OutItem where
  pid     : Nat
  imp     : Nat
  home    : Option Nat
  eng     : Eng := .x
  mtype   : Nat := 0
  done    : Bool := false
  dropped : Bool := false
  copy    : Bool := false
  deriving DecidableEq, Repr

/-- A flush in progress (R113): its sequence number, the items it still waits for, and whether one was dropped. -/
structure Flush where
  seq     : Nat
  items   : List Nat
  dropped : Bool
  deriving DecidableEq, Repr

/-- A nest level (R173): extent and the strides of A, B and metadata. -/
structure Level where
  ext  : Nat := 1
  astr : Int := 0
  bstr : Int := 0
  mstr : Int := 0
  deriving DecidableEq, Repr

/-- An operand descriptor (R176). -/
structure Operand where
  base : Word := 0
  str  : Nat := 0
  soff : Int := 0
  sp   : Bool := false
  t    : Bool := false
  deriving DecidableEq, Repr

/-- A set of six nest levels and three descriptors (R173), at its task-start values. -/
structure NestSet where
  l0 : Level := { ext := 64 }
  l1 : Level := { ext := 64 }
  l2 : Level := { ext := 32 }
  l3 : Level := {}
  l4 : Level := {}
  l5 : Level := {}
  a  : Operand := {}
  b  : Operand := {}
  m  : Operand := {}
  deriving DecidableEq, Repr

/-- MROWPROG (Table 9.2). -/
structure RowProg where
  half : Bool := false
  i5   : Nat := 0
  i4   : Nat := 0
  i3   : Nat := 0
  g    : Nat := 0
  deriving DecidableEq, Repr

/-- One row of A or column of B of a group: its scale code and the codes of its elements. -/
structure Vec where
  scale : Nat
  codes : List Nat
  deriving DecidableEq, Repr

/-- A matrix operation issued and not landed (R179): its number, slot and link, the resolved row, the active set it runs, its
scratchpad ranges, its progress, the rows and columns of a narrowed group whose second half is still to be added (R187), and since when and for which address its group
waits for operand data (R183). -/
structure MOp where
  num      : Nat
  slot     : Nat
  link     : Nat
  sparse   : Bool
  row      : Word
  flush    : Bool
  nest     : NestSet
  ranges   : List (Nat × Nat) := []
  prog     : RowProg := {}
  held     : Option (List Vec × List Vec) := none
  narrowed : Bool := false
  wait     : Option (Nat × Word) := none
  deriving DecidableEq, Repr

/-- A posted store, put, unit or copy write on its way to its home die (R309): the core and its item number, the import, the
exporter's address and the bytes. -/
structure Posted where
  die  : Nat
  core : Nat
  pid  : Nat
  home : Nat
  exp  : Nat
  slot : Nat
  va   : Word
  key  : Option Nat
  data : List Byte
  deriving DecidableEq, Repr

/-- The kind of a copy-queue entry (R222, R345, R365). -/
inductive CopyKind where
  /-- `cp`, `cp.r`, `2d`, `3d` -/
  | plain
  /-- `gath`: the rows' source offsets are given -/
  | gath
  /-- `scat`: the rows' destination offsets are given -/
  | scat
  | fill
  | cvt
  | remote
  | put
  | grad
  | dep
  | prRead
  | gRead
  deriving DecidableEq, Repr

/-- A copy-queue entry: geometry, spaces and progress. `helper` says the helper sequencer issued it; `pc` is CPPC, or the `hcp`'s offset;
`target` is the remote die and core, `tctx` the context whose scratchpad it names; `pids` are the items it posted, `entered` says it stands
in the remote scoreboard, `wait` since when and for which address its group waits (R225), `unsent` the posted writes of a group that have found no
room in their queues yet (R309). -/
structure Copy where
  num    : Nat
  kind   : CopyKind
  helper : Bool := false
  pc     : Nat := 0
  dst    : Word := 0
  src    : Word := 0
  n0     : Nat := 0
  n1     : Nat := 1
  n2     : Nat := 1
  dstr1  : Word := 0
  sstr1  : Word := 0
  dstr2  : Word := 0
  sstr2  : Word := 0
  dsp    : Bool := false
  ssp    : Bool := false
  idx    : List Nat := []
  sfmt   : Nat := 0
  dfmt   : Nat := 0
  pattern : Word := 0
  toRemote : Bool := true
  target : Option (Nat × Nat) := none
  tctx   : Nat := 0
  word   : Word := 0
  done   : Nat := 0
  pids   : List Nat := []
  entered : Bool := false
  wait   : Option (Nat × Word) := none
  unsent : List (OutItem × Posted) := []
  deriving DecidableEq, Repr

/-- A deferred arrival (R262): the first clk it may be performed in, the barrier and slot, the copy-queue entries it still waits for, and the posted
items of entries that have landed. -/
structure Deferred where
  at_  : Nat
  f    : Word
  j    : Nat
  nums : List Nat
  pids : List Nat
  deriving DecidableEq, Repr

/-- The helper sequencer (R234 to R237); `next` is the first clk in which it may run its next micro-instruction. -/
structure Helper where
  run     : Bool := false
  stopped : Bool := false
  stopReq : Bool := false
  hpc     : Nat := 0
  hloop   : Nat := 0
  ctl     : Nat := 0
  flag    : Nat := 0
  raiseEn : Bool := false
  e       : Nat := 0
  next    : Nat := 0
  deriving DecidableEq, Repr

/-- A stash mapping (R238). -/
structure StashMap where
  sp  : Nat
  va  : Word
  len : Nat
  deriving DecidableEq, Repr

/-- The state of a mapped 32-byte sector (R239). -/
inductive Sector where
  | invalid | clean | dirty
  deriving DecidableEq, Repr

/-- A mapped sector: its state, and the memory key and key number it was filled from or is to be written to. -/
structure StSector where
  st    : Sector := .invalid
  key   : Nat := 0
  keyNo : Nat := 0
  deriving DecidableEq, Repr

/-- A trace trigger (Table 6.7). -/
structure Trigger where
  raiseEn : Bool := false
  e       : Nat := 0
  en      : Bool := false
  kind    : Nat := 0
  val     : Word := 0
  mask    : Word := 0
  deriving DecidableEq, Repr

/-- The trace buffer and its CSRs (R139, R140); `left` counts the entries still to write once a trigger has fired. -/
structure Trace where
  en      : Bool := false
  post    : Nat := 0
  kinds   : BitVec 8 := 0
  engs    : BitVec 4 := 0
  frozen  : Bool := false
  wrapped : Bool := false
  head    : Nat := 0
  idx     : Nat := 0
  left    : Option Nat := none
  ring    : Tab (BitVec 128) := []
  t0      : Trigger := {}
  t1      : Trigger := {}
  t2      : Trigger := {}
  t3      : Trigger := {}
  deriving DecidableEq, Repr

/-- A footprint range (Table 13.1): mark 1 read, 2 write, 3 both. -/
structure Range where
  mark : Nat
  lo   : Nat
  len  : Nat
  deriving DecidableEq, Repr

/-- The tile task that runs on a core (R27, R253): its graph, record and tile, its record's address, and what the record gives it. -/
structure RunTask where
  addr    : Word := 0
  graph   : Nat
  record  : Nat
  tile    : Nat
  started : Nat
  ranges  : List Range
  cpol    : Nat := 2
  prio    : Nat := 0
  est     : Nat := 0
  restart : Bool := false
  det     : Bool := false
  phase   : Nat := 0
  gang    : Bool := false
  nest    : Bool := false
  inst    : Nat := 0
  tiles   : Nat := 1
  gbar    : Nat := 0
  retries : Nat := 0
  signalled : Bool := false
  effects : Bool := false
  deriving DecidableEq, Repr

/-- What an instruction still has to land (R36, R94): a CSR's new value, a format table, or a commit of R74. -/
inductive LateOp where
  | csr (n : Nat) (v : Word)
  | table (clear : Bool) (ws : List Nat)
  | commit
  deriving DecidableEq, Repr

/-- A landing on its way: its clk and its stream. -/
structure Late where
  at_ : Nat
  eng : Eng
  op  : LateOp
  deriving DecidableEq, Repr

/-- One core: its four streams and the handler bank, and the state of its engines. `lastClk` and `lastRank` say which command was the
last to issue, for the order of one clk (R23); `tsince` holds, for each term that is true, the clk from which a block may start on it (R22); `late` the
landings on their way; `mSkid` and `xSkid` that a group has run since the halt line rose (Table 6.2). `fbAt` is the model's own: the clk after the one in
which a row's FBPEND was set, since a commit does not act on a bit set in its own clk (R74). -/
structure Core where
  c        : Engine := {}
  v        : Engine := {}
  m        : Engine := {}
  x        : Engine := {}
  h        : Engine := {}
  vr       : Tab Lane := []
  q        : Tab Word := []
  vl       : Nat := 64
  cnt      : Tab (BitVec 16) := []
  terms    : Tab Term := []
  tsince   : Tab Nat := []
  pend     : Option PendTerm := none
  hpend    : Option PendTerm := none
  evsat    : Bool := false
  spov     : Bool := false
  fpflags  : BitVec 6 := 0
  seeds    : Tab Word := []
  srkey    : BitVec 16 := 0
  srseq    : BitVec 32 := 0
  spill    : Nat := 0
  spillOv  : Word := 0
  spillOvSz : Nat := 0
  flseq    : BitVec 32 := 0
  fldone   : BitVec 32 := 0
  flushes  : List Flush := []
  revokedFlush : List Nat := []
  flushMap : Tab Word := []
  posted   : List OutItem := []
  nextPid  : Nat := 0
  tcause   : Word := 0
  taddr    : Word := 0
  hfail    : Bool := false
  inHandler : Bool := false
  second   : Bool := false
  trace    : Trace := {}
  active   : NestSet := {}
  shadow   : NestSet := {}
  shadowPend : Bool := false
  mActive  : Bool := false
  mSparse  : Bool := false
  mSlot    : Nat := 0
  mNarrowed : Bool := false
  mWaiting : Bool := false
  mLanded  : BitVec 16 := 0
  nops     : BitVec 16 := 0
  ops      : List MOp := []
  fmtCfg   : Tab Word := []
  fmtStat  : Tab (BitVec 32) := []
  fbAt     : Tab Nat := []
  poolBase : Nat := 0
  poolUnits : Nat := 0
  poolSize : BitVec 16 := 0
  poolFree : BitVec 16 := 0
  scratch  : Mem := []
  hbuf     : Mem := []
  codeTop  : Nat := 0
  sb       : List SbEntry := []
  issueNo  : Nat := 0
  lastClk  : Nat := 0
  lastRank : Nat := 0
  late     : List Late := []
  mSkid    : Bool := false
  xSkid    : Bool := false
  storeq   : List QStore := []
  copyq    : List Copy := []
  helper   : Helper := {}
  stash    : List StashMap := []
  sectors  : Tab StSector := []
  fills    : List Nat := []
  defer    : List Deferred := []
  task     : Option RunTask := none
  htask    : Option RunTask := none
  deriving DecidableEq, Repr

/-- Link states (Table 10.1). -/
inductive LinkState where
  | idle | armed | filling | ready | sent | frozen
  deriving DecidableEq, Repr

/-- A link (R195): the context its slot belongs to, the chain (its context and number) and its position, counters, flags, progress, local
sums and incoming values. `formed` says its sum has been formed this round, `rearm` that a close left it to be armed at re-admission
(R217), `tasks` which tile tasks contributed this round. -/
structure Link where
  own     : Nat := 0
  ctx     : Nat := 0
  chain   : Nat := 0
  posn    : Nat := 0
  state   : LinkState := .idle
  pre     : LinkState := .idle
  decl    : Nat := 0
  issued  : Nat := 0
  recv    : Nat := 0
  inrcv   : Bool := false
  partialAdd : Bool := false
  needSplice : Bool := false
  lost    : Bool := false
  formed  : Bool := false
  rearm   : Bool := false
  tasks   : List (Nat × Nat × Nat) := []
  prog    : RowProg := {}
  hopf    : Nat := 0
  sum     : Tab (BitVec 32) := []
  inc     : Tab (BitVec 40) := []
  deriving DecidableEq, Repr

/-- A link as its chain names it: handle, the export it is reached through, virtual and physical die, logical core, slot, and the slot's
key. -/
structure LinkRef where
  via    : Option Nat
  handle : Word
  vdie   : Nat
  die    : Nat
  core   : Nat
  slot   : Nat
  key    : Nat
  deriving DecidableEq, Repr

/-- A queued or running close (R204, R210). -/
structure CloseReq where
  core   : Nat
  dst    : Nat
  rows   : Nat
  cols   : Nat
  stride : Nat
  scale  : BitVec 32
  clip   : Bool
  row    : Nat
  flush  : Bool
  started : Bool := false
  cfg    : Word := 0
  thresh : Nat := 0
  seed   : Word := 0
  deriving DecidableEq, Repr

/-- A chain (R193): its links from head to tail and its close and freeze state; `frozenAt` is the clk of the freeze (R206). -/
structure Chain where
  ctx     : Nat
  num     : Nat
  home    : Nat
  links   : List LinkRef
  closes  : BitVec 32 := 0
  lastClip : BitVec 16 := 0
  frozen  : Bool := false
  cause   : Nat := 0
  fpos    : Nat := 0xFF
  frozenAt : Nat := 0
  close   : Option CloseReq := none
  deriving DecidableEq, Repr

/-- A hop in flight (R201): the chain, the receiving position, and the values. -/
structure Hop where
  ctx   : Nat
  chain : Nat
  dest  : Nat
  vals  : Tab (BitVec 40)
  deriving DecidableEq, Repr

/-- The halt line of a partition (R123): when it rose, the class and subcode that raised it where no engine's trap did (0x0B, 0x0C),
whether every stop record is written, the primary engine and trap once known, whether a handler runs, and whether the trap has
gone to containment (R130, R131); `hfail` is TINFO.HFAIL of the primary core as the halt completed (R135). -/
structure HaltSt where
  clk      : Nat
  cls      : Nat := 0
  sub      : Nat := 0
  complete : Bool := false
  who      : EngId := ⟨0, 0, .c⟩
  trap     : TrapRec := { cls := 0, sub := 0 }
  handler  : Bool := false
  contain  : Bool := false
  hfail    : Bool := false
  deriving DecidableEq, Repr

/-- A partition (R299): its halt line and resident context, whose flag file (R258) the context holds. -/
structure Part where
  halt  : Option HaltSt := none
  ctx   : Option Nat := none
  deriving DecidableEq, Repr

/-- An import table entry (R304); `uid` numbers the imports of the module, so that traffic through a slot's earlier import is told apart (R113). -/
structure ImportEnt where
  kind    : Nat
  vdie    : Nat
  die     : Nat
  tag     : Nat
  uid     : Nat := 0
  exp     : Nat
  wbase   : Nat := 0
  len     : Nat := 0
  write   : Bool := false
  revoked : Bool := false
  foreign : Bool := false
  deriving DecidableEq, Repr

/-- An export (R304). -/
structure ExportEnt where
  handle  : Word
  ctx     : Nat
  die     : Nat
  kind    : Nat
  base    : Nat := 0
  len     : Nat := 0
  write   : Bool := false
  revoked : Bool := false
  deriving DecidableEq, Repr

/-- Hatbox slot states (Table 19.3). -/
inductive SlotState where
  | free | alloc | gated | done | released | taken
  deriving DecidableEq, Repr

/-- A Hatbox slot (R332): state, header fields and timer; `took` holds the positions that puts of clk `takenAt` have filled and where these came from
(R333). -/
structure HbSlot where
  state  : SlotState := .free
  aseq   : BitVec 32 := 0
  tag    : BitVec 32 := 0
  group  : Nat := 0
  exps   : List Nat := []
  wgts   : List (BitVec 32) := []
  arr    : BitVec 8 := 0
  sub    : BitVec 8 := 0
  flags  : BitVec 16 := 0
  resid  : Bool := false
  due    : Nat := 0
  combined : Bool := false
  takenAt : Nat := 0
  took   : List (Nat × Nat) := []
  deriving DecidableEq, Repr

/-- A Hatbox release group (Table 19.1). -/
structure HbGroup where
  tmo    : Nat
  unord  : Bool
  policy : Nat
  deriving DecidableEq, Repr

/-- A context's Hatbox configuration, slots and counters (R330, R343). -/
structure Hatbox where
  region : Word
  quota  : Nat
  dlen   : Nat
  groups : List HbGroup
  slots  : Tab HbSlot := []
  order  : Tab (List Nat) := []
  queue  : Tab (List Nat) := []
  aseq   : BitVec 32 := 0
  late   : Nat := 0
  stray  : Nat := 0
  tmos   : Nat := 0
  deriving DecidableEq, Repr

/-- A half outstanding or in doubt (R360, R362). -/
structure OutHalf where
  port  : Nat
  seq   : BitVec 32
  s     : List Lane
  ks    : Nat
  sent  : Nat
  doubt : Bool := false
  deriving DecidableEq, Repr

/-- A gossip line's exchange state (R360). -/
structure GLine where
  out      : Option OutHalf := none
  lastPort : Option Nat := none
  lastAt   : Option Nat := none
  deriving DecidableEq, Repr

/-- A context's gossip region (R359); `next` is the line the Gusset engine visits next (R360). -/
structure Gossip where
  region : Word
  nlines : Nat
  ports  : BitVec 12
  wq     : Nat
  period : Nat
  tack   : Nat
  regId  : BitVec 32
  lines  : Tab GLine := []
  delta  : Tab (BitVec 32) := []
  next   : Nat := 0
  deriving DecidableEq, Repr

/-- A rule of a context's rule table (R356, R357). -/
structure Rule where
  nops  : Nat
  k     : List (BitVec 32)
  words : List (BitVec 32)
  deriving DecidableEq, Repr

/-- A context: its descriptor (Table 22.4a), import table, units' shares, manifest, and what a switch-out saved of it (R135); `told` is the primary trap
that the host was told as containment destroyed it: TCAUSE and TADDR (R133). -/
structure Ctx where
  id       : Nat
  die      : Nat
  vdie     : Nat := 0
  part     : Nat
  ptroot   : Nat
  tvec     : Word := 0
  save     : Nat := 0
  cpol     : Nat := 0
  qmask    : Word := 0
  live     : Bool := true
  out      : Bool := false
  outFull  : Bool := false
  hostHalt : Bool := false
  gen      : BitVec 16 := 0
  flags    : Tab (BitVec 32) := []
  saved    : Tab Core := []
  savedHalt : Option HaltSt := none
  imports  : Tab ImportEnt := []
  hatbox   : Option Hatbox := none
  rules    : Option (Tab Rule) := none
  gossip   : Option Gossip := none
  man      : Tab Nat := []
  told     : Option (Word × Word) := none
  deriving DecidableEq, Repr

/-- A loop nest (Table 13.4). -/
structure Nest where
  e0    : Nat
  e1    : Nat
  e2    : Nat
  e3    : Nat
  order : Nat
  gang  : Bool
  gbar  : Nat
  deriving DecidableEq, Repr

/-- A task record under the scheduler (R250, R251): its words as read, dependence counter, successors, readiness, tiles and
result; `cut` says no further tile starts, `chosen` that a victim has been looked for on behalf of its next tile, `drain` the core that this tile waits
for (R256). -/
structure Rec where
  addr    : Word
  words   : Tab Word := []
  nest    : Option Nest := none
  dep     : Int := 0
  succs   : List Nat := []
  derived : List Nat := []
  admitted : Bool := false
  readyAt : Option Nat := none
  result  : Nat := 0
  tiles   : Nat := 1
  next    : Nat := 0
  running : Nat := 0
  ended   : Nat := 0
  failed  : Bool := false
  cut     : Bool := false
  skip    : Bool := false
  user    : BitVec 16 := 0
  userTile : Option Nat := none
  signals : List Nat := []
  signalled : Bool := false
  again   : List Nat := []
  chosen  : Bool := false
  drain   : Option Nat := none
  inst    : Nat := 0
  deriving DecidableEq, Repr

/-- A graph taken from a queue (R246, R247). -/
structure Graph where
  id     : Nat
  ctx    : Nat
  die    : Nat
  queue  : Nat
  entry  : Nat
  desc   : Word
  tasks  : Word := 0
  ntask  : Nat := 0
  prio   : Nat := 0
  pol    : Nat := 2
  det    : Bool := false
  compl  : Word := 0
  count  : Option Nat := none
  recs   : List Rec := []
  admitNext : Nat := 0
  admitted : Bool := false
  phaseOk : Option Nat := none
  deriving DecidableEq, Repr

/-- A checkpointed task (R256): the core it must resume on, its ready entry, its core's state, and whether it has looked for a victim. -/
structure Ckpt where
  die   : Nat
  core  : Nat
  prio  : Nat
  since : Nat
  image : Core
  chosen : Bool := false
  deriving DecidableEq, Repr

/-- A submission queue (R248): QBASE, QSIZE, QTAIL, the shadow tail of R249, how many entries were taken and which have completed,
BADENT, the value QPROG froze at, and the counts that `tlaunch` gave entries. -/
structure Queue where
  base   : Word := 0
  size   : Nat := 0
  tail   : BitVec 32 := 0
  shadow : Option (BitVec 32) := none
  taken  : Nat := 0
  doneSet : List Nat := []
  prog   : Nat := 0
  badent : Bool := false
  frozen : Option Nat := none
  counts : List (Nat × Nat) := []
  deriving DecidableEq, Repr

/-- A function's mailbox (Table 22.3); `cargs` are the arguments as they stood when the command was written. -/
structure Mbox where
  cmd      : Word := 0
  busy     : Bool := false
  progress : Bool := false
  ovr      : Bool := false
  code     : Nat := 0
  args     : Tab Word := []
  cargs    : Tab Word := []
  deriving DecidableEq, Repr

/-- A compute die (R299, R311, R317): how firmware divides it, its L2 mode, when it was admitted, whether it is under warm reset or
lost, its mailbox, its event log (cores reported for service), and the scheduler's last queue. -/
structure Die where
  partLog : Nat := 0
  priv    : Bool := false
  admitAt : Nat := 0
  warm    : Bool := false
  lost    : Bool := false
  phys    : Tab Nat := []
  failed  : List Nat := []
  retired : List Nat := []
  idleFrom : Tab Nat := []
  lastQ   : Nat := 63
  mbox    : Mbox := {}
  evlog   : List Nat := []
  deriving DecidableEq, Repr

/-- Directory states of a line at its home (Table 16.6). -/
inductive DirSt where
  | u | s | e | m | o
  deriving DecidableEq, Repr

/-- A directory entry: its state, owner and sharers. -/
structure Dir where
  st     : DirSt := .u
  owner  : Nat := 0
  sharers : List Nat := []
  deriving DecidableEq, Repr

/-- States of a remote line a die caches (R307). -/
inductive LineSt where
  | i | s | e | o | m
  deriving DecidableEq, Repr

/-- A cached remote line: state, bytes, and the key number it was last written under. -/
structure Line where
  st   : LineSt := .i
  data : Mem := []
  keyNo : Nat := 0
  deriving DecidableEq, Repr

/-- Requests to a line's home (Table 16.7). -/
inductive ReqKind where
  | readS | readX | homeRead | homeWrite
  deriving DecidableEq, Repr

/-- A request on its way to a line's home. -/
structure CohReq where
  kind : ReqKind
  die  : Nat
  line : Nat
  deriving DecidableEq, Repr

/-- Messages from a home to a holder (Table 16.7). -/
inductive FwdKind where
  | fwdS | fwdH | inv
  deriving DecidableEq, Repr

/-- A forward or invalidation in flight: to whom, for which line, on behalf of which die. -/
structure Fwd where
  kind : FwdKind
  dest : Nat
  line : Nat
  req  : Nat
  deriving DecidableEq, Repr

/-- A home transaction in progress (R308): the request, the acknowledgements still due, whether the owner answered with dirty data that it
keeps, and dirty data that has come home, with its key number. -/
structure Xact where
  req  : CohReq
  due  : List Nat
  dirty : Bool := false
  data : Option (Mem × Nat) := none
  deriving DecidableEq, Repr

/-- An InvAck or FwdAck on its way home; `nodata` is the NODATA answer of R308, `dirty` says the sender keeps a dirty copy, `data` is dirty
data it gave up, with its key number. -/
structure Ack where
  line  : Nat
  die   : Nat
  nodata : Bool
  dirty : Bool
  data  : Option (Mem × Nat) := none
  deriving DecidableEq, Repr

/-- A snoop on its way to a stash sector (R240): the core, the sector's scratchpad offset, and whether another agent writes. -/
structure Snoop where
  die   : Nat
  core  : Nat
  off   : Nat
  write : Bool
  deriving DecidableEq, Repr

/-- A put through a peer window in flight (R345): its core and item, the import it goes through, its home die (none on another package) and
export, the target in the exporter's addresses, the put word and the payload. -/
structure PutMsg where
  die    : Nat
  core   : Nat
  pid    : Nat
  slot   : Nat
  home   : Option Nat
  exp    : Nat
  target : Nat
  word   : Word
  data   : List Lane
  deriving DecidableEq, Repr

/-- A unit of `prgrad` (`grad`) or `gdep` through a peer window in flight (R365), as a put. -/
structure UnitMsg where
  grad   : Bool
  die    : Nat
  core   : Nat
  pid    : Nat
  slot   : Nat
  home   : Option Nat
  exp    : Nat
  va     : Nat
  data   : List Lane
  deriving DecidableEq, Repr

/-- An update of a parameter record that has been triggered (R354): the record's key, the rule read at the trigger and the key number. -/
structure Update where
  key  : Nat
  rule : Option Rule
  keyNo : Nat
  deriving DecidableEq, Repr

/-- A `flag.add` in flight to another flag file (R259). -/
structure FlagMsg where
  die   : Nat
  core  : Nat
  pid   : Nat
  exp   : Nat
  home  : Nat
  idx   : Nat
  val   : BitVec 32
  deriving DecidableEq, Repr

/-- An acknowledgement of a posted item on its way to its core (R309); `src` is the die it comes from, 4 another package. -/
structure StoreAck where
  src     : Nat
  die     : Nat
  core    : Nat
  pid     : Nat
  dropped : Bool
  deriving DecidableEq, Repr

/-- A leaf entry's translation: physical address of the byte and the page's attributes (Table 15.2), the entry's own physical address and
the page's size in bits. -/
structure Leaf where
  pa     : Nat
  w      : Bool
  keyNo  : Nat
  mtype  : Nat
  mclass : Nat
  entry  : Nat
  pbits  : Nat
  deriving DecidableEq, Repr

/-- A cached translation (R303): its context, the virtual address of the page's first byte, and the leaf of that byte. -/
structure TlbEnt where
  ctx  : Nat
  va   : Nat
  leaf : Leaf
  deriving DecidableEq, Repr

/-- An owner tag (Table 15.11): record instance, phase, and R(c), RS or W(c). -/
structure OwnTag where
  inst  : Nat := 0
  phase : Nat := 0
  write : Bool := false
  shared : Bool := false
  core  : Nat := 0
  deriving DecidableEq, Repr

/-- A Zynoth port (R359, R362): up, failed, its next sequence number, the numbers it has applied, and the floor below which
resolution refuses. -/
structure Port where
  up      : Bool := false
  failed  : Bool := false
  seq     : BitVec 32 := 0
  applied : List (BitVec 32) := []
  floor   : Option (BitVec 32) := none
  deriving DecidableEq, Repr

/-- The Milliner's state: stage and admissions (Table 22.5), accepted features (Table 22.6), the die map (Table 16.1) and its earlier values, power and
thermal state (Table 22.8), the flash image, and whether IDE is active on the host link (R379). -/
structure Mill where
  stage    : Nat := 0
  dieUp    : BitVec 4 := 0
  farUp    : BitVec 2 := 0
  trained  : List Nat := []
  feats    : BitVec 5 := 0
  lock     : Bool := false
  dieMap   : Word := 0xBA980#64
  mapLog   : List Word := []
  alarmPow : Bool := false
  alarmHot : Bool := false
  hot      : Bool := false
  tmax     : Nat := 0
  limit    : Nat := 3100
  power    : Nat := 0
  samples  : List (Nat × Nat) := []
  lowSince : Option Nat := none
  flash    : Nat := 0
  flashBad : Bool := false
  ide      : Bool := false
  on       : Bool := false
  deriving DecidableEq, Repr

/-- What the next step is to do: run a stream, take an event, run the helper's next micro-instruction, perform an entry of a
core's store queue (R105), cache a context's translation or drop a cached one (R303), or let the host store bytes in its memory (R292). -/
inductive Act where
  | engine (id : EngId)
  | event (i : Instr)
  | helper (die core : Nat)
  | drain (die core n : Nat)
  | cache (ctx va : Nat)
  | uncache (n : Nat)
  | hostWrite (addr : Nat) (data : List Byte)
  deriving DecidableEq, Repr

/-- One turn of the tape: the clk that pass before it, and the act. -/
structure Turn where
  dt  : Nat
  act : Act
  deriving DecidableEq, Repr

/-- The module. The first four fields are the model's own: the tape says which of the parts that run at once acts next, `free`
numbers the free values, `cur` is the stream an instruction acts for, `now` counts clk. -/
structure State where
  tape   : List Turn := []
  free   : Nat := 0
  cur    : EngId := ⟨0, 0, .c⟩
  now    : Nat := 0
  cores  : Tab Core := []
  dies   : Tab Die := []
  parts  : Tab Part := []
  ctxs   : Tab Ctx := []
  nextCtx : Nat := 1
  nextImport : Nat := 1
  links  : Tab Link := []
  chains : Tab Chain := []
  hops   : List Hop := []
  queues : Tab Queue := []
  graphs : List Graph := []
  nextGraph : Nat := 0
  ckpts  : List Ckpt := []
  mem    : Mem := []
  tags   : Tab OwnTag := []
  tlb    : List TlbEnt := []
  keyVer : Tab Nat := []
  keyTag : Tab Nat := []
  allot  : Tab Nat := []
  dirs   : Tab Dir := []
  lines  : Tab Line := []
  filt   : List (Nat × Nat) := []
  reqs   : List CohReq := []
  fwds   : List Fwd := []
  xacts  : List Xact := []
  acks   : List Ack := []
  snoops : List Snoop := []
  posts  : List Posted := []
  puts   : List PutMsg := []
  units  : List UnitMsg := []
  updates : List Update := []
  flagMsgs : List FlagMsg := []
  sacks  : List StoreAck := []
  exports : List ExportEnt := []
  ports  : Tab Port := []
  halves : List (Nat × HalfMsg) := []
  replies : List (Nat × Bool × BitVec 32) := []
  mill   : Mill := {}
  deriving DecidableEq, Repr

/-- The module as power comes on (R375): stage 0, no die admitted, no context, every register at the value INVENTORY.md names. -/
def State.reset : State := {}

/-- Why a step stops. Both are safe: no stream word of the part and no engine it has leads to them. -/
inductive Fault where
  /-- Raised by `exec` for an instruction whose minor field no encoding lists (R83): the decoder never gives one. Safe. -/
  | illFormed
  /-- Raised by `exec` when `cur` names a die above 3 or a core above 159: the part has no such engine (R11). Safe. -/
  | noEngine
  deriving DecidableEq, Repr

/-- Why an instruction has no meaning in the model. -/
inductive Refusal where
  /-- Raised by `exec` for an instruction not modelled; no arm of `exec` raises it. Safe. -/
  | notModelled (mnemonic : String)
  deriving DecidableEq, Repr

end Sys2Proof.Machine
end

