-- ==== Sys2Proof/Machine/Ops.lean ====
section
/-! DEFINITION. The named operations every meaning is built from: reading and writing the parts of State, raising counters,
recording trace entries, taking an exception and returning from one (R122 to R132), and the issue of an instruction (R75 to
R95): what is checked before it has an effect and where the stream stands after it. -/

namespace Sys2Proof.Machine

/-! ### Parts of the state by name -/

def coreKey (die core : Nat) : Nat := die * 160 + core
def partKey (die part : Nat) : Nat := die * 8 + part

def State.coreAt (s : State) (die core : Nat) : Core := tGet {} s.cores (coreKey die core)
def State.setCoreAt (s : State) (die core : Nat) (c : Core) : State := { s with cores := tSet {} s.cores (coreKey die core) c }
def State.dieAt (s : State) (die : Nat) : Die := tGet {} s.dies die
def State.setDieAt (s : State) (die : Nat) (d : Die) : State := { s with dies := tSet {} s.dies die d }

/-- log2 of the number of partitions of a die (R299). -/
def State.partLog (s : State) (die : Nat) : Nat := (s.dieAt die).partLog

/-- The partition a logical core lies in (R299). -/
def State.partOf (s : State) (die core : Nat) : Nat := core * 2 ^ s.partLog die / Config.coresPerDie

/-- The logical cores of a partition (R299). -/
def State.coresOf (s : State) (die part : Nat) : List Nat :=
  let n := 2 ^ s.partLog die
  upto (Config.coresPerDie * part / n) (Config.coresPerDie / n)

def State.partAt (s : State) (die part : Nat) : Part := tGet {} s.parts (partKey die part)
def State.setPartAt (s : State) (die part : Nat) (p : Part) : State := { s with parts := tSet {} s.parts (partKey die part) p }

/-- The partition of a core, as a unit. -/
def State.partOfCore (s : State) (die core : Nat) : Part := s.partAt die (s.partOf die core)

def noCtx : Ctx := { id := 0, die := 0, part := 0, ptroot := 0, live := false }
def State.ctxAt (s : State) (id : Nat) : Ctx := tGet noCtx s.ctxs id
def State.setCtx (s : State) (c : Ctx) : State := { s with ctxs := tSet noCtx s.ctxs c.id c }

/-- The context that runs on a core's partition, or 0. -/
def State.ctxOf (s : State) (die core : Nat) : Nat := ((s.partOfCore die core).ctx).getD 0

def Core.eng (c : Core) : Eng → Engine
  | .c => c.c
  | .v => c.v
  | .m => c.m
  | .x => c.x
  | .h => c.h

def Core.setEng (c : Core) : Eng → Engine → Core
  | .c, e => { c with c := e }
  | .v, e => { c with v := e }
  | .m, e => { c with m := e }
  | .x, e => { c with x := e }
  | .h, e => { c with h := e }

def State.engAt (s : State) (id : EngId) : Engine := (s.coreAt id.die id.core).eng id.eng
def State.setEngAt (s : State) (id : EngId) (e : Engine) : State :=
  s.setCoreAt id.die id.core ((s.coreAt id.die id.core).setEng id.eng e)

/-- The core and the stream the current instruction acts for. -/
def State.myCore (s : State) : Core := s.coreAt s.cur.die s.cur.core
def State.setMyCore (s : State) (c : Core) : State := s.setCoreAt s.cur.die s.cur.core c
def State.me (s : State) : Engine := s.myCore.eng s.cur.eng
def State.setMe (s : State) (e : Engine) : State := s.setMyCore (s.myCore.setEng s.cur.eng e)

/-- The current partition and context. -/
def State.myPart (s : State) : Part := s.partOfCore s.cur.die s.cur.core
def State.myCtx (s : State) : Nat := s.ctxOf s.cur.die s.cur.core

/-- Whether a stream is the control stream: the C stream or the handler bank that runs C code (R130). -/
def isC : Eng → Bool
  | .c => true
  | .h => true
  | _ => false

/-- An engine's number in TCAUSE and trace entries (Table 6.3). -/
def engNum : Eng → Nat
  | .c => 0
  | .v => 1
  | .m => 2
  | .x => 3
  | .h => 0

/-- The task whose code the current stream runs: the handler's record in the handler bank. -/
def State.myTask (s : State) : Option RunTask := if s.cur.eng = .h then s.myCore.htask else s.myCore.task

/-- The physical core that serves a logical core (R11). -/
def State.physOf (s : State) (die core : Nat) : Nat := (tGet core (s.dieAt die).phys core)

/-- The key of a context's link slot of a logical core (R193, R214, R217). -/
def State.linkKey (s : State) (ctx die core slot : Nat) : Nat := ctx * 2 ^ 20 + (die * Config.physPerDie + s.physOf die core) * 16 + slot

/-- The physical core a link slot's key names, as die * 168 + core, and its context. -/
def slotPhys (key : Nat) : Nat := key / 16 % 2 ^ 16
def slotCtx (key : Nat) : Nat := key / 2 ^ 20
def State.linkAt (s : State) (k : Nat) : Link := tGet {} s.links k
def State.setLink (s : State) (k : Nat) (l : Link) : State := { s with links := tSet {} s.links k l }

def noChain : Chain := { ctx := 0, num := 0, home := 0, links := [] }
def State.chainAt (s : State) (ctx c : Nat) : Chain := tGet noChain s.chains (ctx * 256 + c)
def State.setChain (s : State) (c : Chain) : State := { s with chains := tSet noChain s.chains (c.ctx * 256 + c.num) c }
def State.delChain (s : State) (ctx c : Nat) : State := { s with chains := tDel s.chains (ctx * 256 + c) }

def State.queueAt (s : State) (die q : Nat) : Queue := tGet {} s.queues (die * 64 + q)
def State.setQueue (s : State) (die q : Nat) (x : Queue) : State := { s with queues := tSet {} s.queues (die * 64 + q) x }

/-- The physical die of a virtual die (Table 16.1), if mapped. -/
def State.pdie (s : State) (v : Nat) : Option Nat :=
  if v < 4 && bit s.mill.dieMap.toNat (7 + 4 * v) then some (bits s.mill.dieMap.toNat (4 + 4 * v) 3) else none

/-- The virtual die that names a physical die, or the physical number where none does. -/
def State.vdie (s : State) (p : Nat) : Nat := ((upto 0 4).find? (fun v => s.pdie v = some p)).getD p

/-- The virtual die of a core (R98): the number its context had as it was created, which no change of the map alters (R138). -/
def State.vdieOf (s : State) (die core : Nat) : Nat :=
  match tFind s.ctxs (s.ctxOf die core) with
  | some c => c.vdie
  | none => s.vdie die

/-- The power alarm (R384, R385), which is MPWR.NARROW of every core (R187). -/
def State.narrow (s : State) : Bool := s.mill.alarmPow || s.mill.alarmHot

/-! ### Event counters, terms and the trace buffer -/

/-- Whether a comparison holds: counter ≥ threshold. -/
def Core.cmpHolds (c : Core) : Option Cmp → Bool
  | none => true
  | some k => k.thr ≤ (tGet 0 c.cnt k.e).toNat

/-- An AND of a term; with no comparison it is false (R117). -/
def Core.andHolds (c : Core) (a b : Option Cmp) : Bool := (a.isSome || b.isSome) && c.cmpHolds a && c.cmpHolds b

/-- Whether term `t` is true (R21): t0 always is. -/
def Core.termHolds (c : Core) (t : Nat) : Bool :=
  if t = 0 then true
  else
    let d := tGet {} c.terms t
    c.andHolds d.s0 d.s1 || c.andHolds d.s2 d.s3

/-- Since when each listed term holds, after a change in clk `now` (R22): a term that has become true is true at the start of the next clk,
and releases a block from the clk after that; one that has become false releases none. -/
def Core.retime (c : Core) (now : Nat) : Core :=
  { c with tsince := c.terms.foldl (fun t p =>
      if c.termHolds p.1 then (if tGet 0 c.tsince p.1 = 0 then tSet 0 t p.1 (now + 2) else t) else tSet 0 t p.1 0) c.tsince }

/-- The core with counter `e` raised by `n` in clk `now`, saturating (R20). -/
def Core.raiseCnt (c : Core) (now e n : Nat) : Core :=
  let v := (tGet 0 c.cnt e).toNat + n
  (if 0xFFFF < v then { c with cnt := tSet 0 c.cnt e 0xFFFF, evsat := true }
    else { c with cnt := tSet 0 c.cnt e (BitVec.ofNat 16 v) } : Core).retime now

/-- The stores a stream has landed, as its raise leaves them: a release that follows it orders them too (R283). -/
def Core.raised (c : Core) (e : Eng) : Core := { c with storeq := c.storeq.map (fun q => if q.eng = e then { q with rel := true } else q) }

/-- Whether term `t` releases a block in clk `now` (R22): t0 always does. -/
def Core.termReady (c : Core) (now t : Nat) : Bool := t = 0 || (tGet 0 c.tsince t ≠ 0 && decide (tGet 0 c.tsince t ≤ now))

/-- CYCLE of a die (Table 5.2): clk since it was admitted. -/
def State.cycle (s : State) (die : Nat) : Nat := s.now - (s.dieAt die).admitAt

/-- Whether a trigger fires on an event (R140). -/
def trigFires (kind : Nat) (payload : Word) (t : Trigger) : Bool :=
  t.en && decide (t.kind = kind) && decide ((payload ^^^ t.val) &&& t.mask = 0)

/-- The core with a firing trigger's raise in clk `now`. -/
def trigRaise (now kind : Nat) (payload : Word) (t : Trigger) (c : Core) : Core :=
  if trigFires kind payload t && t.raiseEn then c.raiseCnt now t.e 1 else c

/-- A trace buffer with an event recorded, if it records such events (R139): the entry at HEAD, and the count that a trigger left. -/
def Trace.record (t : Trace) (cycle : Nat) (e : Eng) (kind aux : Nat) (payload : Word) : Trace :=
  if t.en && !t.frozen && t.left ≠ some 0 && t.kinds.getLsbD kind && t.engs.getLsbD (engNum e) then
    { t with
      ring := tSet 0 t.ring t.head (BitVec.ofNat 128
        (cycle % 2 ^ 48 * 2 ^ 80 + kind * 2 ^ 76 + engNum e * 2 ^ 74 + aux % 256 * 2 ^ 64 + payload.toNat)),
      head := (t.head + 1) % 1024, wrapped := t.wrapped || t.head = 1023, left := t.left.map (· - 1) }
  else t

/-- Whether any trigger fires on an event. -/
def Trace.fires (t : Trace) (kind : Nat) (payload : Word) : Bool :=
  trigFires kind payload t.t0 || trigFires kind payload t.t1 || trigFires kind payload t.t2 || trigFires kind payload t.t3

/-- The core with an event of clk `now` recorded and its triggers tried, which fire whether or not the buffer records (R139, R140). -/
def Core.traced (c : Core) (now cycle : Nat) (e : Eng) (kind aux : Nat) (payload : Word) : Core :=
  let t := c.trace.record cycle e kind aux payload
  let t1 := if t.fires kind payload && t.left.isNone then { t with left := some t.post } else t
  trigRaise now kind payload t.t3 (trigRaise now kind payload t.t2 (trigRaise now kind payload t.t1 (trigRaise now kind payload t.t0 { c with trace := t1 })))

/-- An event of the current stream recorded. -/
def State.trace (s : State) (kind aux : Nat) (payload : Word) : State :=
  s.setMyCore (s.myCore.traced s.now (s.cycle s.cur.die) s.cur.eng kind aux payload)

/-! ### The order of one clk (R23)

Commands of one clk are numbered in the order C, V, M, X, a helper's after those, and an access from another core or through the aperture
last (R223, R232, R272). -/

/-- A stream's place in that order. -/
def engRank : Eng → Nat
  | .c => 0
  | .v => 1
  | .m => 2
  | .x => 3
  | .h => 0

def helperRank : Nat := 4
def remoteRank : Nat := 5

/-- Whether a command of a rank may still issue on the core in clk `now`. -/
def Core.inTurn (c : Core) (now rank : Nat) : Bool := !(c.lastClk = now && decide (rank < c.lastRank))

/-- A command of a rank has issued on the core in clk `now`. -/
def Core.stamp (c : Core) (now rank : Nat) : Core := { c with lastClk := now, lastRank := rank }

/-- The current stream's command has issued. -/
def State.stamp (s : State) : State := s.setMyCore (s.myCore.stamp s.now (engRank s.cur.eng))

/-! ### Positions in a stream -/

/-- The ring-relative offset of halfword `pos` of the current block's body. -/
def Engine.offAt (e : Engine) (pos : Nat) : Nat := (e.blk + 8 + 2 * pos) % e.ringSize

/-- The position of the unit at hand: its first prefix, or the instruction (R82). -/
def Engine.unitPos (e : Engine) : Nat :=
  match e.pfx with
  | [] => e.pos
  | p :: _ => p.pos

/-- The ring offset of the stream's resume point. -/
def Engine.pc (e : Engine) : Nat :=
  match e.phase with
  | .ended => 0
  | .header => e.blk
  | .body => e.offAt e.unitPos

/-- Whether the block's body holds the last halfword of the image (R14). -/
def Engine.holdsLast (e : Engine) : Bool :=
  decide ((2 * e.imgLen + 2 * e.ringSize - 2 - (e.blk + 8) % e.ringSize) % e.ringSize < 2 * e.hdr.len)

/-- The stream at the end of a body pass: the next iteration, the next header, or its end (R14, R17); `raiseDue` is left for
BLOCK_RAISE. -/
def Engine.wrapBody (e : Engine) : Engine :=
  if e.hdr.len ≤ e.pos then
    if e.iter + 1 < e.hdr.rep then { e with pos := 0, iter := e.iter + 1 }
    else
      let due := if e.hdr.raiseEn then some e.hdr.raise else none
      if e.holdsLast then { e with phase := .ended, raiseDue := due }
      else { e with phase := .header, blk := e.offAt e.hdr.len, pos := 0, iter := 0, awaited := false, raiseDue := due }
  else e

/-- A taken branch (R19): the block ends, and raises only if this was its last iteration. -/
def Engine.branchTo (e : Engine) (off : Nat) : Engine :=
  { e with phase := .header, blk := off, pos := 0, iter := 0, awaited := false, pfx := [], req := none,
           raiseDue := if e.hdr.raiseEn && e.iter + 1 = e.hdr.rep then some e.hdr.raise else none }

/-! ### Taking an exception -/

/-- The subset of classes raised precisely (Table 6.1). -/
def preciseClass (cls : Nat) : Bool := (1 ≤ cls && cls ≤ 8) || cls = 0x0A

/-- A handler that traps, or runs off its image, has failed (R131): HFAIL is set and the primary trap goes to containment. The spec does not say
whether STOPx1.PC as the handler wrote it then still holds: ignore and retry use it as edited (DESIGN CHOICE, log 63). -/
def State.handlerFail (s : State) (die core : Nat) : State :=
  let c := s.coreAt die core
  let p := s.partOfCore die core
  let s := s.setCoreAt die core { c with hfail := true, inHandler := false, htask := none, h := { c.h with phase := .ended } }
  s.setPartAt die (s.partOf die core) { p with halt := p.halt.map (fun h => { h with handler := false, contain := true }) }

/-- The partition's halt line raised at this clk, unless it is up (R123). -/
def State.raiseHalt (s : State) (die part cls sub : Nat) : State :=
  let p := s.partAt die part
  match p.halt with
  | some _ => s
  | none => s.setPartAt die part { p with halt := some { clk := s.now, cls := cls, sub := sub } }

/-- TAKING AN EXCEPTION (R91, R122, R123): the stream carries the trap, its stop record still to be written by HALT_COMPLETE, and the
partition's halt line rises. A pending `evterm` definition is discarded by EVSEQ (R117). Inside a handler the handler fails. -/
def State.takeTrap (s : State) (id : EngId) (t : TrapRec) : State :=
  if id.eng = .h then s.handlerFail id.die id.core
  else
    let e := s.engAt id
    let s := match e.trap with
      | some _ => s
      | none => s.setEngAt id { e with trap := some { t with clk := s.now }, req := none }
    s.raiseHalt id.die (s.partOf id.die id.core) 0 0

/-- Word 0 of a stop record (Table 6.3). -/
def stopWord0 (halt : HaltSt) : Option TrapRec → Word
  | none => BitVec.ofNat 64 (2 ^ 63)
  | some t => BitVec.ofNat 64 (2 ^ 63 + b2n (preciseClass t.cls && !t.imprecise) * 2 ^ 62 + b2n (halt.clk < t.clk) * 2 ^ 61
      + t.cls % 256 * 2 ^ 40 + t.sub % 2 ^ 16 * 2 ^ 16)

/-- MROWPROG (Table 9.2). -/
def RowProg.word (p : RowProg) (valid : Bool) : Word :=
  BitVec.ofNat 64 (b2n valid * 2 ^ 63 + b2n p.half * 2 ^ 62 + p.i5 * 2 ^ 50 + p.i4 * 2 ^ 38 + p.i3 * 2 ^ 26 + p.g * 2 ^ 12)

/-- Whether a comparison slot of a pending definition is present, and its field (Table 6.4). -/
def cmpField : Option Cmp → Nat
  | none => 0
  | some c => c.e % 32 * 2 ^ 16 + c.thr % 2 ^ 16

/-- Whether a request is a load (LOADPEND) rather than an atomic or a unit's request (ATOMPEND). -/
def isLoadReq : Option Req → Bool
  | some { instr := .ld .., .. } => true
  | some { instr := .ldSp .., .. } => true
  | some { instr := .vld32 .., .. } => true
  | some { instr := .vldB .., .. } => true
  | some { instr := .vgath .., .. } => true
  | _ => false

/-- The engine-specific words 4 to 7 (Table 6.4). -/
def stopWords (c : Core) (e : Engine) : Eng → Word × Word × Word × Word
  | .c =>
    let pend := match c.pend with
      | none => (0, 0, 0)
      | some p => (2 ^ 63 + p.t * 2 ^ 56 + p.last * 2 ^ 52 + (b2n p.term.s0.isSome + 2 * b2n p.term.s1.isSome + 4 * b2n p.term.s2.isSome
          + 8 * b2n p.term.s3.isSome) * 2 ^ 48, cmpField p.term.s0 + cmpField p.term.s1 * 2 ^ 21, cmpField p.term.s2 + cmpField p.term.s3 * 2 ^ 21)
    (BitVec.ofNat 64 pend.1, BitVec.ofNat 64 pend.2.1, BitVec.ofNat 64 pend.2.2,
      BitVec.ofNat 64 (b2n (e.saved.isSome && !isLoadReq e.saved) + 2 * b2n (isLoadReq e.saved)))
  | .v => (BitVec.ofNat 64 c.vl, BitVec.ofNat 64 (b2n (isLoadReq e.saved)), 0, 0)
  | .m =>
    let op := c.ops.head?
    let prog : RowProg := match op with
      | some o => o.prog
      | none => {}
    let slot := match op with
      | some o => o.slot
      | none => c.mSlot
    (prog.word op.isSome, BitVec.ofNat 64 (b2n c.shadowPend * 2 ^ 5 + b2n op.isSome * 2 ^ 4 + slot % 16), 0, 0)
  | .x =>
    let cp := c.copyq.head?
    let done := match cp with
      | some k => k.done
      | none => 0
    let cpv := match cp with
      | some k => !k.helper
      | none => false
    let cppc := match cp with
      | some k => if k.helper then 0 else k.pc
      | none => 0
    (BitVec.ofNat 64 (done % 2 ^ 32), BitVec.ofNat 64 (b2n cpv * 2 ^ 63 + cppc % 2 ^ 21),
      BitVec.ofNat 64 (b2n (c.helper.run || (e.trap.bind (·.hpc)).isSome) * 2 ^ 63 + ((e.trap.bind (·.hpc)).getD c.helper.hpc) % 2 ^ 48), BitVec.ofNat 64 (c.helper.hloop % 2 ^ 16))
  | .h => (0, 0, 0, 0)

/-- An engine stopped by the halt: an abandoned request is dropped, one that must not be made twice counts as issued and its reply is
due into the saved context (R110, R124, R125). -/
def Engine.stopped (e : Engine) (after : Engine) : Engine :=
  match e.req with
  | some r => if r.once then { after with saved := some r, req := none, busy := [] } else { e with req := none, busy := [] }
  | none => { e with busy := [] }

/-- The engine past the unit it waits on: `len` halfwords after the instruction's position. -/
def Engine.past (e : Engine) (len : Nat) : Engine := { e with pos := e.pos + len, pfx := [] }.wrapBody

/-- The engine's stop record as the halt completes (R128). -/
def stopRec (halt : HaltSt) (c : Core) (which : Eng) (e : Engine) : StopRec :=
  let pc := match e.trap with
    | some { pos := some p, .. } => e.offAt p
    | _ => e.pc
  let w := stopWords c e which
  { w0 := stopWord0 halt e.trap
    w1 := BitVec.ofNat 64 (pc % 2 ^ 21)
    w2 := BitVec.ofNat 64 (e.iter % 256 * 2 ^ 22 + b2n e.awaited * 2 ^ 21 + e.blk % 2 ^ 21)
    w3 := match e.trap with
      | some t => t.addr
      | none => 0
    w4 := w.1
    w5 := w.2.1
    w6 := w.2.2.1
    w7 := w.2.2.2 }

/-- One engine of a halted core: stopped, with its record written. -/
def Core.stopEng (c : Core) (halt : HaltSt) (which : Eng) : Core :=
  let e0 := c.eng which
  let e := e0.stopped (e0.past 2)
  let r := stopRec halt c which e
  c.setEng which { e with stop := r, stop0 := r }

/-- Whether an engine's record carries SECONDARY. -/
def secondary (halt : HaltSt) (e : Engine) : Bool :=
  match e.trap with
  | some t => halt.clk < t.clk
  | none => false

/-- A core halted: all four records, TINFO.SECOND, no matrix command waiting at issue, and the groups that wait for data abandoned (R124). -/
def Core.halted (c : Core) (halt : HaltSt) : Core :=
  let c := (((c.stopEng halt .c).stopEng halt .v).stopEng halt .m).stopEng halt .x
  { c with second := secondary halt c.c || secondary halt c.v || secondary halt c.m || secondary halt c.x, mWaiting := false, mSkid := false, xSkid := false,
           ops := c.ops.map (fun o => { o with wait := none, held := none }), copyq := c.copyq.map (fun k => { k with wait := none }) }

/-- The earlier of two traps by R126, the first on ties: callers offer them in the order of die, core and engine. -/
def earlier : Option (EngId × TrapRec) → Option (EngId × TrapRec) → Option (EngId × TrapRec)
  | none, b => b
  | a, none => a
  | some a, some b => if b.2.clk < a.2.clk then some b else some a

/-- The earliest trap of a core. -/
def Core.firstTrap (c : Core) (die core : Nat) : Option (EngId × TrapRec) :=
  let f := fun (e : Eng) => (c.eng e).trap.map (fun t => (EngId.mk die core e, t))
  earlier (earlier (earlier (f .c) (f .v)) (f .m)) (f .x)

/-- The primary trap of a halted partition (R126). A halt that no engine's trap caused has no core and engine in the spec: its TCAUSE names the
partition's lowest core and engine C (DESIGN CHOICE, log 63). -/
def State.primaryTrap (s : State) (die part : Nat) (halt : HaltSt) : EngId × TrapRec :=
  let found := (s.coresOf die part).foldl (fun acc k => earlier acc ((s.coreAt die k).firstTrap die k)) none
  let own : EngId × TrapRec := (⟨die, (s.coresOf die part).headD 0, .c⟩, { cls := halt.cls, sub := halt.sub, clk := halt.clk, imprecise := true })
  match found with
  | none => own
  | some f => if halt.cls ≠ 0 && decide (halt.clk < f.2.clk) then own else f

/-- TCAUSE of a primary trap (Table 6.3). -/
def State.tcauseOf (s : State) (p : EngId × TrapRec) : Word :=
  BitVec.ofNat 64 (p.2.cls % 256 * 2 ^ 40 + engNum p.1.eng * 2 ^ 36 + p.2.sub % 2 ^ 16 * 2 ^ 16 + s.vdieOf p.1.die p.1.core * 2 ^ 8 + p.1.core)

/-- A core's trap events recorded (kind 7 of R139), in the order C, V, M, X, each with the cycle of its trap; `since` is the clk the die was
admitted. -/
def Core.tracedTraps (c : Core) (now since : Nat) (tcause : Word) : Core :=
  let f := fun (c : Core) (e : Eng) =>
    match (c.eng e).trap with
    | some t => c.traced now (t.clk - since) e 7 t.cls tcause
    | none => c
  f (f (f (f c .c) .v) .m) .x

/-- Every core of the partition stopped, its records written and TCAUSE set (R123 to R126). -/
def State.haltPart (s : State) (die part : Nat) : State :=
  match (s.partAt die part).halt with
  | none => s
  | some h =>
    if h.complete then s
    else
      let p := s.primaryTrap die part h
      let tc := s.tcauseOf p
      let s1 := (s.coresOf die part).foldl (fun s k =>
        let c := (s.coreAt die k).halted h
        s.setCoreAt die k (({ c with tcause := tc, taddr := p.2.addr } : Core).tracedTraps s.now (s.dieAt die).admitAt tc)) s
      s1.setPartAt die part { s1.partAt die part with halt := some { h with complete := true, who := p.1, trap := p.2, hfail := (s.coreAt p.1.die p.1.core).hfail } }

/-! ### Returning from an exception -/

/-- A stream restored in clk `now` from its stop record (R129, R132): it continues inside its block's body where the record's pc lies there, and
otherwise meets a header at that pc; its issue gap is counted from the resume (R95). For a pc that a handler has edited the spec gives no more:
the end of the body is taken as the block's end only where the stream stood there, any other place outside the body as a header, and a
stream that had ended stays ended (DESIGN CHOICE, log 63). -/
def Engine.resumed (e : Engine) (now : Nat) : Engine :=
  let pc := bits e.stop.w1.toNat 0 21 % e.ringSize
  let e := { e with trap := none, pfx := [], req := none, nextIssue := now + 1 + e.gap }
  match e.phase with
  | .ended => e
  | .header => if pc = e.blk then e else { e with blk := pc, pos := 0, iter := 0, awaited := false, released := none }
  | .body =>
    let d := (pc + 2 * e.ringSize - (e.blk + 8) % e.ringSize) % e.ringSize
    if d % 2 = 0 && (decide (d / 2 < e.hdr.len) || decide (d / 2 = e.hdr.len && e.pos = e.hdr.len)) then { e with pos := d / 2 }.wrapBody
    else { e with phase := .header, blk := pc, pos := 0, iter := 0, awaited := false }

/-- A core resumed. -/
def Core.resumed (c : Core) (now : Nat) : Core :=
  { c with c := c.c.resumed now, v := c.v.resumed now, m := c.m.resumed now, x := c.x.resumed now }

/-- Raise the faults that saved contexts carry, before any instruction issues (R110, R124). -/
def State.raiseSaved (s : State) (die core : Nat) : State :=
  let f := fun (s : State) (e : Eng) =>
    let g := s.engAt ⟨die, core, e⟩
    match g.savedTrap with
    | some t => (s.setEngAt ⟨die, core, e⟩ { g with savedTrap := none }).takeTrap ⟨die, core, e⟩ t
    | none => s
  f (f (f (f s .c) .v) .m) .x

/-- The partition resumes (R132): every engine from its record, the halt line released, and saved faults raised at once. -/
def State.resumePart (s : State) (die part : Nat) : State :=
  let ks := s.coresOf die part
  let s := ks.foldl (fun s k => s.setCoreAt die k ((s.coreAt die k).resumed s.now)) s
  let s := s.setPartAt die part { s.partAt die part with halt := none }
  ks.foldl (fun s k => s.raiseSaved die k) s

/-! ### The issue of an instruction -/

/-- How a meaning's body ends when it does not simply complete: a trap of the instruction, a wait at issue (with what it has sent),
or a completion that has set the stream's place itself. -/
inductive Stop where
  | trap (t : TrapRec)
  | wait (s : State)
  | jump (s : State)

/-- What a meaning's body answers. -/
abbrev Res (α : Type) := Except Stop α

/-- Raise a trap of the instruction. -/
def stopTrap {α : Type} (cls sub : Nat) (addr : Word := 0) : Res α := .error (.trap { cls := cls, sub := sub, addr := addr })

/-- Trap classes by name (Table 6.1). -/
def clsIllegal : Nat := 1
def clsUse : Nat := 2
def clsMem : Nat := 3
def clsModel : Nat := 4
def clsHandle : Nat := 5

/-- A check: trap unless it holds. -/
def need (ok : Bool) (cls sub : Nat) (addr : Word := 0) : Res Unit := if ok then .ok () else stopTrap cls sub addr

/-- A wait at issue unless a condition holds (R94). -/
def await (ok : Bool) (s : State) : Res Unit := if ok then .ok () else .error (.wait s)

/-- What the opcode map and the form say of an instruction (Table 4.4): the streams that own it, the prefixes it takes or needs, its
feature, whether its minors are listed, the subcodes its fields break, its length and issue gap, whether it is an `evterm`, and whether it
has an effect outside its core that a restart would repeat (R256). -/
structure Form where
  streams : List Eng
  ext     : Bool := false
  fmt     : Bool := false
  needExt : Bool := false
  feature : Option Nat := none
  wf      : Bool := true
  subs    : List Nat := []
  len     : Nat := 2
  g       : Nat := 0
  evterm  : Bool := false
  eff     : Bool := false

def allStreams : List Eng := [.c, .v, .m, .x]

/-- Whether a stream owns a form; the handler bank runs C code. -/
def owns (f : Form) (e : Eng) : Bool := if e = .h then f.streams.contains .c else f.streams.contains e

/-- The position of the first prefix whose kind already stands before the instruction (R80): the second of two in a row, or the third prefix of
one after each kind (DEDUCED, log 18). -/
def dupPos : List Pfx → Option Nat
  | a :: b :: t => if a.isFmt = b.isFmt then some b.pos else t.head?.map (·.pos)
  | _ => none

/-- The violations of a unit of prefixes and an instruction as (subcode, position) (R80, R91, R92). -/
def State.violations (s : State) (f : Form) : List (Nat × Nat) :=
  let e := s.me
  let st := e.unitPos
  let chk := fun (b : Bool) (sub pos : Nat) => if b then [(sub, pos)] else []
  let fm := e.pfx.find? (fun p => p.isFmt)
  let ex := e.pfx.find? (fun p => !p.isFmt)
  chk (f.len = 2 && e.hdr.len < e.pos + 2) 0x01 st
  ++ (match dupPos e.pfx with
      | some p => [(0x04, p)]
      | none => [])
  ++ chk ((fm.isSome && !f.fmt) || (ex.isSome && !f.ext)) 0x06 st
  ++ chk (f.needExt && ex.isNone) 0x07 e.pos
  ++ chk (!owns f s.cur.eng) 0x0A st
  ++ (match fm with
      | some p => chk (s.cur.eng = .x || isC s.cur.eng) 0x0A p.pos
      | none => [])
  ++ (match f.feature with
      | some n => chk (!s.mill.feats.getLsbD n) 0x0B st
      | none => [])
  ++ chk (e.pfx.any (·.bad)) 0x0D st
  ++ f.subs.map (fun x => (x, st))

/-- The violation of the lowest subcode, the first of equals (R92). -/
def lowest : List (Nat × Nat) → Option (Nat × Nat)
  | [] => none
  | v :: t => match lowest t with
    | none => some v
    | some w => if w.1 < v.1 then some w else some v

/-- Whether the part has the current engine. -/
def State.curOk (s : State) : Bool := s.cur.die < 4 && s.cur.core < 160

/-- Whether the current stream may issue: it stands in a body, its gap is over (R36), no later command of the core has issued in this clk (R23),
no reply is due into its saved context, an interlocked block waits for no counter read (R94), and its partition runs, or halted less than a clk
ago, or has given it the handler (R123, R130). -/
def State.mayIssue (s : State) : Bool :=
  s.me.phase = .body && decide (s.me.nextIssue ≤ s.now) && s.myCore.inTurn s.now (engRank s.cur.eng) && s.me.saved.isNone
    && (!s.me.hdr.ilk || s.me.cntReads.isEmpty) &&
  (match s.myPart.halt with
   | none => s.cur.eng ≠ .h
   | some h => if s.cur.eng = .h then h.handler && h.who.core = s.cur.core else !h.complete && s.me.trap.isNone && decide (s.now ≤ h.clk + 1))

/-- The state in which a body runs: the free values of the step are fresh. -/
def State.atIssue (s : State) : State := { s with free := s.free + 1 }

/-- The running task marked as one whose kill would leave effects behind (R256). -/
def Core.marked (c : Core) : Core := { c with task := c.task.map (fun t => { t with effects := true }) }
def State.markEffect (s : State) : State := s.setMyCore s.myCore.marked

/-- The state after an instruction: past it, its prefixes consumed, the issue gap counted (R36), the body's end taken (R14, R17). A
handler that reaches the end of its image has failed (R131). -/
def State.advance (s : State) (f : Form) : State :=
  let s := if f.eff then s.markEffect else s
  let e := s.me
  let gap := if e.hdr.ilk then 0 else f.g
  let e := { e with pos := e.pos + f.len, pfx := [], req := none, gap := gap, nextIssue := s.now + 1 + gap }.wrapBody
  let s := (s.setMe e).stamp
  if s.cur.eng = .h && e.phase = .ended then s.handlerFail s.cur.die s.cur.core else s

/-- The outcome of a body's answer, from the state `s` in which it ran. -/
def finish (s : State) (f : Form) : Res State → Host.Outcome State Fault Refusal
  | .ok t => .next (t.advance f)
  | .error (.jump t) => .next t.stamp
  | .error (.wait t) => .next t
  | .error (.trap t) => .next (s.takeTrap s.cur t)

/-- The current control stream's pending `evterm` definition (R117): the handler bank has its own (R130). -/
def State.pend (s : State) : Option PendTerm := if s.cur.eng = .h then s.myCore.hpend else s.myCore.pend
def State.setPend (s : State) (p : Option PendTerm) : State :=
  if s.cur.eng = .h then s.setMyCore { s.myCore with hpend := p } else s.setMyCore { s.myCore with pend := p }

/-- An EVSEQ trap discards the pending definition (R117). -/
def State.dropPend (s : State) : State := s.setPend none

/-- THE ISSUE OF AN INSTRUCTION: nothing happens while the stream may not issue; an ill-formed instruction and an engine the part
lacks are faults; an illegal unit traps with its lowest subcode; a pending `evterm` definition admits only `evterm`; then the body
runs at the issue clk. -/
def issue (s : State) (f : Form) (body : State → Res State) : Host.Outcome State Fault Refusal :=
  if s.curOk = false then .fault .noEngine
  else if f.wf = false then .fault .illFormed
  else if s.mayIssue = false then .next s
  else match lowest (s.violations f) with
    | some (sub, pos) => .next (s.atIssue.takeTrap s.cur { cls := clsIllegal, sub := sub, pos := some pos })
    | none =>
      if isC s.cur.eng && s.pend.isSome && !f.evterm then .next (s.atIssue.dropPend.takeTrap s.cur { cls := clsUse, sub := 0x02 })
      else finish s.atIssue f (body s.atIssue)

/-- A prefix (R80 to R82): kept for the instruction that follows in the body; at the end of the body the unit is illegal. -/
def issuePrefix (s : State) (isFmt : Bool) (val : Nat) (bad : Bool := false) : Host.Outcome State Fault Refusal :=
  if s.curOk = false then .fault .noEngine
  else if s.mayIssue = false then .next s
  else
    let e := s.me
    let e1 := { e with pfx := e.pfx ++ [{ isFmt := isFmt, val := val, pos := e.pos, bad := bad }], pos := e.pos + 1 }
    let s1 := s.setMe e1
    if e.pos + 1 < e.hdr.len then .next s1
    else
      let v := lowest ((0x05, e1.unitPos) :: s1.violations { streams := allStreams, ext := true, fmt := true, len := 1 })
      match v with
      | some (sub, pos) => .next (s1.atIssue.takeTrap s.cur { cls := clsIllegal, sub := sub, pos := some pos })
      | none => .next s1

/-- An illegal halfword or word at the stream's place (R91): the lowest of its own subcode and the unit's violations. -/
def State.illegal (s : State) (sub : Nat) (f : Form) : State :=
  match lowest ((sub, s.me.unitPos) :: s.violations f) with
  | some (sub, pos) => s.atIssue.takeTrap s.cur { cls := clsIllegal, sub := sub, pos := some pos }
  | none => s

end Sys2Proof.Machine
end

