-- ==== Sys2Proof/Machine/Real.lean ====
section
/-! DEFINITION. Number formats, rounding and the stochastic generator (R46 to R62, R386): exact values, decoding, and the one
rounding every unit uses. An exact value is (−1)^neg · m · 2^e; a quotient or root carries a sticky bit as its last bit, far
below any grid it is rounded to. -/

namespace Sys2Proof.Machine

/-- A decoded value: NaN, an infinity, or an exact dyadic number (zero keeps its sign). -/
inductive FVal where
  | nan
  | inf (neg : Bool)
  | fin (neg : Bool) (m : Nat) (e : Int)
  deriving DecidableEq, Repr

/-- FPFLAGS as a set of bits (Table 3.10). -/
abbrev Flags := BitVec 6
def fNX : Flags := 0x01
def fUF : Flags := 0x02
def fOF : Flags := 0x04
def fNV : Flags := 0x08
def fCL : Flags := 0x10
def fFZ : Flags := 0x20

/-- How a format lays its codes out: magnitude codes rise with the magnitude, `prec` significant bits, normals from 2^emin up. -/
structure Fmt where
  width   : Nat
  prec    : Nat
  emin    : Int
  maxCode : Nat
  inf     : Option Nat := none
  nan     : Option Nat := none
  signBit : Option Nat
  int     : Bool := false
  ieee    : Bool := false
  p1n     : Bool := false

/-- The formats of Table 3.1 by code (R47 to R53); ext40 is 0x07. -/
def fmtOf (c : Nat) : Fmt :=
  match c with
  | 0x00 => { width := 32, prec := 24, emin := -126, maxCode := 0x7F7FFFFF, inf := some 0x7F800000, nan := some 0x7FC00000, signBit := some 31, ieee := true }
  | 0x01 => { width := 16, prec := 8, emin := -126, maxCode := 0x7F7F, inf := some 0x7F80, nan := some 0x7FC0, signBit := some 15, ieee := true }
  | 0x02 => { width := 16, prec := 11, emin := -14, maxCode := 0x7BFF, inf := some 0x7C00, nan := some 0x7E00, signBit := some 15, ieee := true }
  | 0x03 => { width := 32, prec := 31, emin := 0, maxCode := 0x7FFFFFFF, signBit := some 31, int := true }
  | 0x04 => { width := 8, prec := 7, emin := 0, maxCode := 127, signBit := some 7, int := true }
  | 0x05 => { width := 4, prec := 3, emin := 0, maxCode := 7, signBit := some 3, int := true }
  | 0x06 => { width := 4, prec := 2, emin := 0, maxCode := 7, signBit := some 3 }
  | 0x07 => { width := 40, prec := 32, emin := -126, maxCode := 0x7F7FFFFFFF, inf := some 0x7F80000000, nan := some 0x7FC0000000, signBit := some 39, ieee := true }
  | 0x28 => { width := 8, prec := 4, emin := -6, maxCode := 0x7E, nan := some 0x7F, signBit := some 7 }
  | 0x29 => { width := 8, prec := 3, emin := -14, maxCode := 0x7B, inf := some 0x7C, nan := some 0x7E, signBit := some 7, ieee := true }
  | 0x18 => { width := 8, prec := 1, emin := -127, maxCode := 0xFE, nan := some 0xFF, signBit := none, p1n := true }
  | _ =>
    let p := c % 8 + 1
    if c < 0x10 then { width := 8, prec := p, emin := 1 - 2 ^ (7 - p), maxCode := 0x7F, nan := some 0x80, signBit := some 7 }
    else if c < 0x18 then { width := 8, prec := p, emin := 1 - 2 ^ (7 - p), maxCode := 0x7E, inf := some 0x7F, nan := some 0x80, signBit := some 7 }
    else { width := 8, prec := p, emin := 2 - 2 ^ (8 - p), maxCode := 0xFE, nan := some 0xFF, signBit := none }

/-- The grid G16 of R148, whose codes are f32's with trailing bits [7:0] zero dropped. -/
def g16 : Fmt :=
  { width := 24, prec := 16, emin := -126, maxCode := 255 * 2 ^ 15 - 1, inf := some (255 * 2 ^ 15), nan := some 0x7FC000, signBit := some 23, ieee := true }

/-- Codes that name one of the binary8 formats (Table 3.1). -/
def isBinary8 (c : Nat) : Bool := (8 ≤ c && c ≤ 0x0E) || (0x10 ≤ c && c ≤ 0x16) || (0x18 ≤ c && c ≤ 0x1E)

/-- The magnitude of a finite code. -/
def magOf (f : Fmt) (code : Nat) : Nat × Int :=
  if f.p1n then (1, (code : Int) - 127)
  else
    let t := 2 ^ (f.prec - 1)
    let ef := code / t
    if ef = 0 then (code, f.emin - (f.prec - 1 : Nat)) else (t + code % t, f.emin + ((ef : Int) - 1) - (f.prec - 1 : Nat))

/-- The magnitude of the largest finite value of a format (Tables 3.2 and 3.4, R49 to R52). -/
def largestOf (f : Fmt) : Nat × Int := if f.int then (f.maxCode, 0) else magOf f f.maxCode

/-- `decode(fmt, bits)` of Table 2.5 (R47, R49 to R53). -/
def decodeF (c bts : Nat) : FVal :=
  let f := fmtOf c
  if f.int then
    let i := sextI bts f.width
    .fin (i < 0) i.natAbs 0
  else
    let x := bts % 2 ^ f.width
    match f.signBit with
    | none => if f.nan = some x then .nan else .fin false (magOf f x).1 (magOf f x).2
    | some sb =>
      let neg := bit x sb
      let mag := x % 2 ^ sb
      if f.ieee && f.maxCode < mag then (if f.inf = some mag then .inf neg else .nan)
      else if (c = 0x28 && mag = 0x7F) || (isBinary8 c && x = 0x80) then .nan
      else if f.inf = some mag then .inf neg
      else .fin neg (magOf f mag).1 (magOf f mag).2

/-- The code of a magnitude m · 2^q on the format's grid (m may overshoot the largest finite). -/
def codeOf (f : Fmt) (m : Nat) (q : Int) : Nat :=
  if m = 0 then 0
  else if f.p1n then (q + (Nat.log2 m : Nat) + 127).toNat
  else
    let l := Nat.log2 m
    let e := q + (l : Nat)
    let t := 2 ^ (f.prec - 1)
    if e < f.emin then m * 2 ^ ((q - (f.emin - (f.prec - 1 : Nat))).toNat)
    else
      let mant := if l ≤ f.prec - 1 then m * 2 ^ (f.prec - 1 - l) else m / 2 ^ (l - (f.prec - 1))
      (e - f.emin + 1).toNat * t + (mant - t)

/-- Whether a fraction of `rem` in 2^k above `lo` rounds the magnitude up (R57, R59): modes 0 RNE, 1 RTZ, 2 RUP, 3 RDN, 4 SR. With
one significant bit the spec does not say which neighbour of a tie is even. -/
def roundsUp (prec : Nat) (mode : Nat) (neg : Bool) (lo rem k h24 : Nat) (q : Int) : Bool :=
  if rem = 0 then false
  else match mode with
    | 0 => decide (2 ^ k < 2 * rem) || (decide (2 * rem = 2 ^ k) && (if prec = 1 && lo = 1 then Config.tieUp q else lo % 2 = 1))
    | 1 => false
    | 2 => !neg
    | 3 => neg
    | _ => decide (h24 < rem * 2 ^ 24 / 2 ^ k)

/-- The magnitude m · 2^e rounded to a multiple of 2^q: the multiple, and whether it differs. -/
def roundAt (prec mode : Nat) (neg : Bool) (m : Nat) (e q : Int) (h24 : Nat) : Nat × Bool :=
  if q ≤ e then (m * 2 ^ (e - q).toNat, false)
  else
    let k := (q - e).toNat
    let lo := m / 2 ^ k
    let rem := m % 2 ^ k
    (lo + b2n (roundsUp prec mode neg lo rem k h24 q), decide (rem ≠ 0))

/-- Tininess after rounding with an unbounded exponent range (R386). -/
def isTiny (f : Fmt) (mode : Nat) (neg : Bool) (m : Nat) (e : Int) (h24 : Nat) : Bool :=
  let q := e + (Nat.log2 m : Nat) - (f.prec - 1 : Nat)
  let r := roundAt f.prec mode neg m e q h24
  !f.int && decide (q + (Nat.log2 r.1 : Nat) < f.emin)

/-- The sign bit's weight. -/
def signW (f : Fmt) (neg : Bool) : Nat :=
  match f.signBit with
  | some s => if neg then 2 ^ s else 0
  | none => 0

/-- The code of a zero: only the IEEE-style formats have a negative one (R47, R49, R51, R61). -/
def zeroCode (f : Fmt) (neg : Bool) : Nat := if f.ieee then signW f neg else 0

/-- An overflow by Table 3.6, with its flags (R386). -/
def overflowTo (f : Fmt) (mode : Nat) (sat neg : Bool) : Nat × Flags :=
  let big := f.maxCode + signW f neg
  match f.inf, f.nan with
  | some i, _ =>
    let toInf := match mode with
      | 1 => false
      | 2 => !neg
      | 3 => neg
      | _ => true
    (if toInf then i + signW f neg else big, fOF ||| fNX)
  | none, some n => if sat then (big, fOF ||| fNX) else (n, fOF ||| fNV)
  | none, none => (big, fOF ||| fNX)

/-- A value written to an integer format (R60, R61, R166): rounded to an integer, saturated at the format's bounds. -/
def roundInt (f : Fmt) (v : FVal) (mode h24 : Nat) : Nat × Flags :=
  match v with
  | .nan => (0, fNV)
  | .inf neg => (if neg then f.maxCode + 1 else f.maxCode, fOF ||| fNX)
  | .fin neg m e =>
    let r := roundAt 2 mode neg m e 0 h24
    let bound := if neg then f.maxCode + 1 else f.maxCode
    if bound < r.1 then (bound, fOF ||| fNX)
    else ((if neg then (2 ^ f.width - r.1) % 2 ^ f.width else r.1), if r.2 then fNX else 0)

/-- A nonzero magnitude below the smallest normal in a format whose subnormals are flushed (R57, R65): rounded on the grid of zero and the smallest
normal. FZ and UF are set where the zero written stands for what would have rounded to a subnormal (DEDUCED, log 69). -/
def roundFlush (f : Fmt) (neg : Bool) (m : Nat) (e : Int) (mode h24 : Nat) : Nat × Flags :=
  let r := roundAt f.prec mode neg m e f.emin h24
  let sub := roundAt f.prec mode neg m e (f.emin - (f.prec - 1 : Nat)) h24
  let tiny : Flags := if isTiny f mode neg m e h24 then fUF else 0
  if r.1 = 0 then (signW f neg, fNX ||| (if sub.1 = 0 then tiny else fFZ ||| fUF)) else (codeOf f 1 f.emin + signW f neg, fNX ||| tiny)

/-- `round_to` on a laid-out format (R57 to R61, R65, R386): the code written and the flags set. `flush` is an exposed block's mode;
`h24` the generator's bits for SR. -/
def roundFmt (f : Fmt) (v : FVal) (mode : Nat) (sat flush : Bool) (h24 : Nat) : Nat × Flags :=
  if f.int then roundInt f v mode h24
  else
    let nan := match f.nan with
      | some n => n
      | none => 0
    match v with
    | .nan => (nan, 0)
    | .inf neg =>
      if f.signBit = none && neg then (if sat then (0, fNX) else (nan, fNV))
      else match f.inf with
        | some i => (i + signW f neg, 0)
        | none => overflowTo f mode sat neg
    | .fin neg m e =>
      if m = 0 then
        if f.p1n then (if sat then (0, fNX) else (nan, fNV))
        else (zeroCode f neg, 0)
      else if f.signBit = none && neg then
        (if sat then (0, fNX ||| (if isTiny f mode neg m e h24 then fUF else 0)) else (nan, fNV))
      else
        let ex := e + (Nat.log2 m : Nat)
        if flush && f.ieee && decide (16 ≤ f.width) && decide (ex < f.emin) then roundFlush f neg m e mode h24 else
        let q := max ex f.emin - (f.prec - 1 : Nat)
        let r := roundAt f.prec mode neg m e q h24
        let code := codeOf f r.1 q
        let fl : Flags := if r.2 then fNX ||| (if isTiny f mode neg m e h24 then fUF else 0) else 0
        if f.p1n && r.1 = 0 then (if sat then (0, fl) else (nan, fNV))
        else if f.maxCode < code then
          let o := overflowTo f mode sat neg
          (o.1, if o.2 &&& fNV = 0 then fl ||| o.2 else o.2)
        else (if r.1 = 0 then zeroCode f neg else code + signW f neg, fl)

/-- `round_to(fmt, x, mode, …)` for a format code. -/
def roundTo (c : Nat) (v : FVal) (mode : Nat) (sat flush : Bool) (h24 : Nat) : Nat × Flags := roundFmt (fmtOf c) v mode sat flush h24

/-- Round to nearest even with subnormals honoured: the rounding of accumulators, hops and memory-side units. -/
def rne (c : Nat) (v : FVal) : Nat × Flags := roundTo c v 0 true false 0

/-- The R65 input flush of an operand of 16 bits or more: in an exposed block a subnormal is read as zero of its sign. -/
def flushIn (c : Nat) (flush : Bool) (v : FVal) : FVal × Flags :=
  match v with
  | .fin neg m e =>
    if flush && (fmtOf c).ieee && decide (c < 0x28) && m ≠ 0 && decide (e + (Nat.log2 m : Nat) < (fmtOf c).emin) then (.fin neg 0 0, fFZ) else (v, 0)
  | _ => (v, 0)

/-- The negated value. -/
def fNeg : FVal → FVal
  | .nan => .nan
  | .inf n => .inf (!n)
  | .fin n m e => .fin (!n) m e

/-- The magnitude. -/
def fAbs : FVal → FVal
  | .nan => .nan
  | .inf _ => .inf false
  | .fin _ m e => .fin false m e

/-- The exact sum (R58), NaN with NV for infinities of both signs. -/
def fAdd : FVal → FVal → FVal × Flags
  | .nan, _ => (.nan, 0)
  | _, .nan => (.nan, 0)
  | .inf a, .inf b => if a = b then (.inf a, 0) else (.nan, fNV)
  | .inf a, _ => (.inf a, 0)
  | _, .inf b => (.inf b, 0)
  | .fin a m e, .fin b n f =>
    let g := min e f
    let x : Int := (m * 2 ^ (e - g).toNat : Nat)
    let y : Int := (n * 2 ^ (f - g).toNat : Nat)
    let t := (if a then -x else x) + (if b then -y else y)
    if t = 0 then (.fin (a && b && m = 0 && n = 0) 0 0, 0) else (.fin (t < 0) t.natAbs g, 0)

/-- The exact product, NaN with NV for 0 × ∞. -/
def fMul : FVal → FVal → FVal × Flags
  | .inf a, .fin b m _ => if m = 0 then (.nan, fNV) else (.inf (a != b), 0)
  | .fin b m _, .inf a => if m = 0 then (.nan, fNV) else (.inf (a != b), 0)
  | .nan, _ => (.nan, 0)
  | _, .nan => (.nan, 0)
  | .inf a, .inf b => (.inf (a != b), 0)
  | .fin a m e, .fin b n f => (.fin (a != b) (m * n) (e + f), 0)

/-- Exact a·b + c (R147): NV for 0 × ∞ even when c is NaN. -/
def fFma (a b c : FVal) : FVal × Flags :=
  let p := fMul a b
  let r := fAdd p.1 c
  (r.1, p.2 ||| r.2)

/-- A value as an order key: −∞ and +∞ beyond every number. -/
def fLt : FVal → FVal → Bool
  | .nan, _ => false
  | _, .nan => false
  | .inf a, .inf b => a && !b
  | .inf a, _ => a
  | _, .inf b => !b
  | .fin a m e, .fin b n f =>
    let g := min e f
    let x : Int := (m * 2 ^ (e - g).toNat : Nat)
    let y : Int := (n * 2 ^ (f - g).toNat : Nat)
    (if a then -x else x) < (if b then -y else y)

/-- Whether two values are equal numbers (−0 equals +0). -/
def fEq (a b : FVal) : Bool := a ≠ .nan && b ≠ .nan && !fLt a b && !fLt b a

/-- Whether the sign is negative. -/
def fSign : FVal → Bool
  | .nan => false
  | .inf n => n
  | .fin n _ _ => n

/-- The smaller, NaN if either is NaN, −0 below +0 (Table 7.1). -/
def fMin (a b : FVal) : FVal :=
  if a = .nan || b = .nan then .nan else if fLt a b then a else if fLt b a then b else if fSign a then a else b

/-- The larger, as `fMin`. -/
def fMax (a b : FVal) : FVal :=
  if a = .nan || b = .nan then .nan else if fLt a b then b else if fLt b a then a else if fSign a then b else a

/-- Whether a value is infinite or NaN. -/
def fSpecial : FVal → Bool
  | .fin _ _ _ => false
  | _ => true

/-- The largest r with r² ≤ x, found bit by bit from bit `k`. -/
def isqrt (x : Nat) : Nat → Nat → Nat
  | 0, r => r
  | k + 1, r => if (r + 2 ^ k) * (r + 2 ^ k) ≤ x then isqrt x k (r + 2 ^ k) else isqrt x k r

/-- The square root of a number below 2^(2k). -/
def natSqrt (x : Nat) : Nat := isqrt x (Nat.log2 x / 2 + 1) 0

/-- x / y of finite values, y ≠ 0, to 70 bits beyond the divisor, the last bit sticky. -/
def divFin (a : Bool) (m : Nat) (e : Int) (b : Bool) (n : Nat) (f : Int) : FVal :=
  let k := Nat.log2 n + 70
  let q := m * 2 ^ k / n
  .fin (a != b) (2 * q + b2n (m * 2 ^ k % n ≠ 0)) (e - f - (k : Nat) - 1)

/-- Division: x ÷ 0 is an infinity, 0 ÷ 0 and ∞ ÷ ∞ are NaN with NV (R356). -/
def fDiv : FVal → FVal → FVal × Flags
  | .nan, _ => (.nan, 0)
  | _, .nan => (.nan, 0)
  | .inf _, .inf _ => (.nan, fNV)
  | .inf a, .fin b _ _ => (.inf (a != b), 0)
  | .fin a _ _, .inf b => (.fin (a != b) 0 0, 0)
  | .fin a m e, .fin b n f =>
    if n = 0 then (if m = 0 then (.nan, fNV) else (.inf (a != b), 0)) else (divFin a m e b n f, 0)

/-- √x of a positive m · 2^e, the last bit sticky. -/
def sqrtFin (m : Nat) (e : Int) : FVal :=
  let odd := e % 2 ≠ 0
  let m1 := if odd then 2 * m else m
  let e1 := if odd then e - 1 else e
  let x := m1 * 2 ^ 140
  let r := natSqrt x
  .fin false (2 * r + b2n (r * r ≠ x)) (e1 / 2 - 71)

/-- 1/√x of a positive m · 2^e, the last bit sticky. -/
def rsqrtFin (m : Nat) (e : Int) : FVal :=
  let odd := e % 2 ≠ 0
  let m1 := if odd then 2 * m else m
  let e1 := if odd then e - 1 else e
  let k := Nat.log2 m1 + 140
  let k2 := k + k % 2
  let y := 2 ^ k2 / m1
  let r := natSqrt y
  .fin false (2 * r + b2n (r * r * m1 ≠ 2 ^ k2)) (-(e1 / 2) - (k2 / 2 : Nat) - 1)

/-- √x; x < 0 is NaN with NV, √−0 is −0. -/
def fSqrt : FVal → FVal × Flags
  | .nan => (.nan, 0)
  | .inf n => if n then (.nan, fNV) else (.inf false, 0)
  | .fin n m e => if m = 0 then (.fin n 0 0, 0) else if n then (.nan, fNV) else (sqrtFin m e, 0)

/-- 1/√x with signed infinities at zero (Table 21.3) or as `vrsqrt` gives them (R148: +∞ / −∞). -/
def fRsqrt : FVal → FVal × Flags
  | .nan => (.nan, 0)
  | .inf n => if n then (.nan, fNV) else (.fin false 0 0, 0)
  | .fin n m e => if m = 0 then (.inf n, 0) else if n then (.nan, fNV) else (rsqrtFin m e, 0)

/-- 1/x (R148). -/
def fRcp : FVal → FVal × Flags
  | .nan => (.nan, 0)
  | .inf n => (.fin n 0 0, 0)
  | .fin n m e => if m = 0 then (.inf n, 0) else (divFin false 1 0 n m e, 0)

/-- The bits of precision of the interval evaluations. -/
def ivBits : Nat := 256

/-- 2^(f / 2^k) for the `k` low bits of `f`, as a lower bound times 2^ivBits: `r` is 2^(1/2^j) of the bit at hand. -/
def exp2Bits (f : Nat) : Nat → Nat → Nat → Nat
  | 0, _, acc => acc
  | k + 1, r, acc =>
    let r' := natSqrt (r * 2 ^ ivBits)
    exp2Bits f k r' (if bit f k then acc * r' / 2 ^ ivBits else acc)

/-- Bounds of 2^x for a number m · 2^e that is no integer: (lower, upper, exponent), the true value strictly between. -/
def exp2Bounds (neg : Bool) (m : Nat) (e : Int) : FVal × FVal :=
  let k := (-e).toNat
  let whole := m / 2 ^ k
  let frac := m % 2 ^ k
  let w : Int := if neg then -(whole : Int) - 1 else whole
  let f := if neg then 2 ^ k - frac else frac
  let lo := exp2Bits f k (2 ^ (ivBits + 1)) (2 ^ ivBits)
  (.fin false (2 * lo + 1) (w - ivBits - 1), .fin false (2 * (lo + 2 ^ 12) - 1) (w - ivBits - 1))

/-- `n` binary digits of log2 of y / 2^b for y in [2^b, 2^(b+1)). -/
def log2Digits (b : Nat) : Nat → Nat → Nat → Nat
  | 0, _, acc => acc
  | n + 1, y, acc =>
    let z := y * y / 2 ^ b
    if 2 ^ (b + 1) ≤ z then log2Digits b n (z / 2) (2 * acc + 1) else log2Digits b n z (2 * acc)

/-- Bounds of log2 of a positive number that is no power of two. -/
def log2Bounds (m : Nat) (e : Int) : FVal × FVal :=
  let l := Nat.log2 m
  let ex := e + (l : Nat)
  let b := 640
  let d := log2Digits b 240 (m * 2 ^ (b - l)) 0
  let mk := fun (t : Int) => FVal.fin (t < 0) t.natAbs (-242)
  let base : Int := ex * 2 ^ 242 + 4 * (d : Int)
  (mk (base + 1), mk (base + 11))

/-- Both bounds rounded: the result when they agree, else a free choice the spec's exact value makes. -/
def roundBounds (fn : Nat) (f : Fmt) (b : FVal × FVal) (mode : Nat) (flush : Bool) (h24 opnd : Nat) : Nat × Flags :=
  let l := roundFmt f b.1 mode true flush h24
  let u := roundFmt f b.2 mode true flush h24
  if l = u then l else if Config.openRounding fn opnd mode % 2 = 0 then l else u

/-- Whether m · 2^e is an integer, and which. -/
def asInteger (m : Nat) (e : Int) : Option Nat :=
  if 0 ≤ e then some (m * 2 ^ e.toNat) else if m % 2 ^ (-e).toNat = 0 then some (m / 2 ^ (-e).toNat) else none

/-- `vexp2` on G16 (R148). -/
def exp2G16 (v : FVal) (mode : Nat) (flush : Bool) (h24 opnd : Nat) : Nat × Flags :=
  let exact := fun (w : FVal) => roundFmt g16 w mode true flush h24
  match v with
  | .nan => exact .nan
  | .inf n => exact (if n then .fin false 0 0 else .inf false)
  | .fin n m e =>
    if m = 0 then exact (.fin false 1 0)
    else if 11 < e + (Nat.log2 m : Nat) then exact (.fin false 1 (if n then -4000 else 4000))
    else match asInteger m e with
      | some k => exact (.fin false 1 (if n then -(k : Int) else k))
      | none => roundBounds 0 g16 (exp2Bounds n m e) mode flush h24 opnd

/-- `vlog2` on G16 (R148). -/
def log2G16 (v : FVal) (mode : Nat) (flush : Bool) (h24 opnd : Nat) : Nat × Flags :=
  let exact := fun (w : FVal) => roundFmt g16 w mode true flush h24
  match v with
  | .nan => exact .nan
  | .inf n => if n then ((exact .nan).1, fNV) else exact (.inf false)
  | .fin n m e =>
    if m = 0 then exact (.inf true)
    else if n then ((exact .nan).1, fNV)
    else if m = 2 ^ Nat.log2 m then
      let k := e + (Nat.log2 m : Nat)
      exact (.fin (k < 0) k.natAbs 0)
    else roundBounds 1 g16 (log2Bounds m e) mode flush h24 opnd

/-- A magnitude interval [lo, hi] · 2^e cut to ivBits bits. -/
def ivCut (lo hi : Nat) (e : Int) : Nat × Nat × Int :=
  let k := Nat.log2 hi - ivBits
  if Nat.log2 hi ≤ ivBits then (lo, hi, e) else (lo / 2 ^ k, (hi + 2 ^ k - 1) / 2 ^ k, e + (k : Nat))

/-- m^n by squaring over `k` bits of n, from the top, as an interval. -/
def ivPow (m n : Nat) (e : Int) : Nat → Nat × Nat × Int → Nat × Nat × Int
  | 0, acc => acc
  | k + 1, (lo, hi, x) =>
    let s := ivCut (lo * lo) (hi * hi) (2 * x)
    let t := if bit n k then ivCut (s.1 * m) (s.2.1 * m) (s.2.2 + e) else s
    ivPow m n e k t

/-- POWS (Table 21.3): x to the integer power n, rounded to f32 by RNE. -/
def powF32 (v : FVal) (n : Nat) : Nat × Flags :=
  if v = .nan then rne 0 .nan
  else if n = 0 then rne 0 (.fin false 1 0)
  else match v with
    | .nan => rne 0 .nan
    | .inf s => rne 0 (.inf (s && n % 2 = 1))
    | .fin s m e =>
      let neg := s && n % 2 = 1
      if m = 0 then rne 0 (.fin neg 0 0)
      else
        let (lo, hi, x) := ivPow m n e (Nat.log2 n + 1) (1, 1, 0)
        if lo = hi then rne 0 (.fin neg lo x)
        else roundBounds 2 (fmtOf 0) (.fin neg (2 * lo + 1) (x - 1), .fin neg (2 * hi - 1) (x - 1)) 0 false 0 (m + n)

/-- The generator of R62. -/
def srBits (seed : Word) (key : BitVec 16) (seq : BitVec 32) (k : BitVec 16) : Word :=
  let w : Word := (key ++ seq ++ k : BitVec 64)
  let h := seed ^^^ (w * 0x9E3779B97F4A7C15#64)
  let h := h ^^^ (h >>> 30)
  let h := h * 0xBF58476D1CE4E5B9#64
  let h := h ^^^ (h >>> 27)
  let h := h * 0x94D049BB133111EB#64
  h ^^^ (h >>> 31)

/-- The 24 bits h[63:40] that SR compares (R59). -/
def sr24 (seed : Word) (key : BitVec 16) (seq : BitVec 32) (k : Nat) : Nat :=
  (srBits seed key seq (BitVec.ofNat 16 k)).toNat / 2 ^ 40

end Sys2Proof.Machine
end

