-- ==== Sys2Proof/Machine/Operands.lean ====
section
/-! DEFINITION. Operand forms: reading and landing the registers of each file (R79, R85, R96, R141), the R36 rule for a register read
before it has landed, the ranges of register fields, the values that prefixes supply (R81), and the format row of an instruction
(R18, R72). -/

namespace Sys2Proof.Machine

/-! ### When a register has landed (R36)

Registers of a stream by number: X a, P 64 + i, B 72 + i, v 128 + i, q 160 + i, vl 176. -/

def idX (a : Nat) : Nat := a
def idP (i : Nat) : Nat := 64 + i
def idB (i : Nat) : Nat := 72 + i
def idV (i : Nat) : Nat := 128 + i
def idQ (i : Nat) : Nat := 160 + i
def idVL : Nat := 176

/-- Whether an exposed block reads a register before its landing (R36): its value is then unpredictable. -/
def State.early (s : State) (r : Nat) : Bool := !s.me.hdr.ilk && decide (s.now < tGet 0 s.me.busy r)

/-- The stream's engine with a landing noted: valid from issue + lmax. -/
def Engine.landing (e : Engine) (now r lmax : Nat) : Engine :=
  if e.hdr.ilk then e else { e with busy := tSet 0 e.busy r (max (tGet 0 e.busy r) (now + lmax)) }

/-- The k-th free value of the step. -/
def State.freeNat (s : State) (k : Nat) : Nat := Config.freeBits s.free k

/-! ### Scalar files -/

/-- X[a]: s0 of the control stream reads as zero (R79, R96). `k` tells the free values of one step apart. -/
def State.rx (s : State) (a : Nat) (k : Nat := 0) : Word :=
  if isC s.cur.eng && a = 0 then 0
  else if s.early (idX a) then BitVec.ofNat 64 (s.freeNat k)
  else tGet 0 s.me.x a

/-- land(X[d], v): a write to s0 is discarded (R79). -/
def State.landX (s : State) (d : Nat) (v : Word) (lmax : Nat) : State :=
  if isC s.cur.eng && d = 0 then s
  else
    let e := s.me
    s.setMe ({ e with x := tSet 0 e.x d v, cntReads := e.cntReads.filter (fun r => r.d ≠ d) }.landing s.now (idX d) lmax)

/-- p[i]: p0 is true (R96). -/
def State.rp (s : State) (i : Nat) (k : Nat := 0) : Bool :=
  if i = 0 then true else if s.early (idP i) then s.freeNat k % 2 = 1 else s.me.p.getLsbD i

/-- land(p[d], v): a write to p0 is discarded (R100). -/
def State.landP (s : State) (d : Nat) (v : Bool) (lmax : Nat) : State :=
  if d = 0 then s
  else
    let e := s.me
    s.setMe ({ e with p := BitVec.ofNat 8 (e.p.toNat - b2n (e.p.getLsbD d) * 2 ^ d + b2n v * 2 ^ d) }.landing s.now (idP d) lmax)

/-- b[i]. -/
def State.rb (s : State) (i : Nat) (k : Nat := 0) : Word :=
  if s.early (idB i) then BitVec.ofNat 64 (s.freeNat k % 2 ^ 21) else tGet 0 s.me.b i

/-- land(b[i], v). -/
def State.landB (s : State) (i : Nat) (v : Word) (lmax : Nat) : State :=
  let e := s.me
  s.setMe ({ e with b := tSet 0 e.b i v }.landing s.now (idB i) lmax)

/-! ### Vector files (R141) -/

/-- Lane i of vector register v. -/
def State.rv (s : State) (v i : Nat) (k : Nat := 0) : Lane :=
  if s.early (idV v) then BitVec.ofNat 32 (s.freeNat (1000 * (k + 1) + i)) else tGet 0 s.myCore.vr (v * 64 + i)

/-- q[i]: q0 reads as all ones. -/
def State.rq (s : State) (i : Nat) (k : Nat := 0) : Word :=
  if i = 0 then BitVec.allOnes 64 else if s.early (idQ i) then BitVec.ofNat 64 (s.freeNat (500 + k)) else tGet 0 s.myCore.q i

/-- vl, 1 to 64. -/
def State.rvl (s : State) : Nat := if s.early idVL then s.freeNat 600 % 64 + 1 else s.myCore.vl

/-- The engine's landing noted, the registers themselves being the core's. -/
def State.noteLanding (s : State) (r lmax : Nat) : State := s.setMe (s.me.landing s.now r lmax)

/-- Set lanes of a vector table: those of 0 to 63 for which `f` gives a value. -/
def setLanes (t : Tab Lane) (v : Nat) (f : Nat → Option Lane) : List Nat → Tab Lane
  | [] => t
  | i :: is => setLanes (match f i with
      | some x => tSet 0 t (v * 64 + i) x
      | none => t) v f is

/-- land of the lanes of v that `f` gives. -/
def State.landV (s : State) (v : Nat) (f : Nat → Option Lane) (lmax : Nat) : State :=
  let c := s.myCore
  (s.setMyCore { c with vr := setLanes c.vr v f (upto 0 64) }).noteLanding (idV v) lmax

/-- land(q[d], x): a write to q0 is discarded. -/
def State.landQ (s : State) (d : Nat) (x : Word) (lmax : Nat) : State :=
  if d = 0 then s else (s.setMyCore { s.myCore with q := tSet 0 s.myCore.q d x }).noteLanding (idQ d) lmax

/-- land(vl, n). -/
def State.landVL (s : State) (n lmax : Nat) : State := (s.setMyCore { s.myCore with vl := n }).noteLanding idVL lmax

/-- Lane i of a form with write mask q[qm] is active (R142). -/
def State.active (s : State) (qm i : Nat) : Bool := decide (i < s.rvl) && (s.rq qm).getLsbD i

/-! ### Ranges of register fields (R77, R85) -/

def subREGRANGE : Nat := 0x0E
def subIMMRANGE : Nat := 0x0F
def subRSVFIELD : Nat := 0x0D

/-- Scalar fields: s0–s63 in C, a0–a15 elsewhere. -/
def State.regs (s : State) (rs : List Nat) : List Nat :=
  if isC s.cur.eng || rs.all (· < 16) then [] else [subREGRANGE]

/-- Predicate and branch fields: p0–p7 and b0–b7 in C, 0–3 elsewhere. -/
def State.preds (s : State) (ps : List Nat) : List Nat :=
  if isC s.cur.eng || ps.all (· < 4) then [] else [subREGRANGE]

/-- A subcode unless a condition holds. -/
def subUnless (ok : Bool) (sub : Nat) : List Nat := if ok then [] else [sub]

/-! ### Forms -/

/-- A stream-common form. -/
def fAll (g : BitVec 3) (subs : List Nat) : Form := { streams := allStreams, g := g.toNat, subs := subs }

/-- A form of the control stream. -/
def fC (g : BitVec 3) (subs : List Nat := []) : Form := { streams := [.c], g := g.toNat, subs := subs }

/-- A form of the vector stream. -/
def fV (g : BitVec 3) (subs : List Nat := []) : Form := { streams := [.v], g := g.toNat, subs := subs }

/-- A form of the matrix stream. -/
def fM (g : BitVec 3) (subs : List Nat := []) : Form := { streams := [.m], g := g.toNat, subs := subs }

/-- A form of the copy stream. -/
def fX (g : BitVec 3) (subs : List Nat := []) : Form := { streams := [.x], g := g.toNat, subs := subs }

/-! ### Prefix values (R81) -/

/-- The ten bits of an `ext` prefix at hand. -/
def State.extBits (s : State) : Option Nat := (s.me.pfx.find? (fun p => !p.isFmt)).map (·.val)

/-- A signed immediate of `w` bits with its prefix. -/
def State.simm (s : State) (imm w : Nat) : Word :=
  match s.extBits with
  | none => sext imm w
  | some n => sext (n * 2 ^ w + imm) (w + 10)

/-- An unsigned immediate of `w` bits with its prefix. -/
def State.uimm (s : State) (imm w : Nat) : Nat :=
  match s.extBits with
  | none => imm
  | some n => n * 2 ^ w + imm

/-! ### Format rows (R18, R71, R72) -/

/-- The reset row of the format table (Table 3.11): bf16 operands, f32 result, RNE, SAT 1, its own index as fallback. -/
def fmtReset (row : Nat) : Word :=
  BitVec.ofNat 64 (1 * 2 ^ 58 + 1 * 2 ^ 52 + 2 ^ 38 + row % 64 * 2 ^ 32 + 0xFFFF * 2 ^ 16)

/-- A row's configuration word. -/
def Core.cfgRow (c : Core) (row : Nat) : Word := tGet (fmtReset row) c.fmtCfg row

/-- The core with a configuration word written. -/
def Core.setCfg (c : Core) (row : Nat) (w : Word) : Core := { c with fmtCfg := tSet (fmtReset row) c.fmtCfg row w }

/-- Whether the format table of a core is about to change under its own matrix stream: an exposed block of M that reads a row then reads
an unpredictable one (R36). -/
def LateOp.onTable : LateOp → Bool
  | .csr .. => false
  | .table .. => true
  | .commit => true

/-- Whether landings of the current stream that concern the format table are on their way. -/
def State.tableLate (s : State) : Bool := s.myCore.late.any (fun l => l.eng = s.cur.eng && l.op.onTable)

/-- The word a selected row gives: FBROW's while the fallback is active, one level only (R72). -/
def Core.resolveRow (c : Core) (row : Nat) : Word :=
  if (tGet 0 c.fmtStat row).getLsbD 30 then c.cfgRow (bits (c.cfgRow row).toNat 32 6) else c.cfgRow row

/-- row_of(i) (Table 2.5): the `fmt` prefix, else (base + i) mod 64. -/
def State.rowOf (s : State) : Nat :=
  match s.me.pfx.find? (fun p => p.isFmt) with
  | some p => p.val
  | none => (s.me.hdr.fmtBase + s.me.iter) % 64

/-- What a vector instruction takes from its row (R71, R144). -/
structure RowView where
  rnd  : Nat
  slot : Nat
  sat  : Bool
  b16  : Bool
  deriving DecidableEq, Repr

def rowView (w : Word) : RowView :=
  { rnd := bits w.toNat 42 3, slot := bits w.toNat 39 3, sat := bit w.toNat 38, b16 := bit w.toNat 45 }

def State.row (s : State) : RowView := rowView (s.myCore.resolveRow s.rowOf)

/-- Whether subnormals are flushed: an exposed block (R65). -/
def State.flush (s : State) : Bool := !s.me.hdr.ilk

/-- The generator's 24 bits for the element k of the current vector instruction (Table 3.7). -/
def State.vsr (s : State) (slot k : Nat) : Nat :=
  let c := s.myCore
  sr24 (tGet 0 c.seeds slot) c.srkey c.srseq k

end Sys2Proof.Machine
end

