-- ==== Sys2Proof/Machine/Memory.lean ====
section
/-! DEFINITION. Memory: physical addresses and translation (R271 to R275, R301, R302), windows (R304, R306), footprints (R284), owner
tags (R287), the coherent value of a byte and what a die must obtain before it may read or write one (R307, R308), the store queue
(R105, R278), scratchpad and stash ranges (R23, R104, R239), and posted stores (R290). -/

namespace Sys2Proof.Machine

/-! ### Physical addresses (Table 16.2) -/

/-- First key of the memory that is not HBM: far tier, expanders, host. -/
def sharedBase : Nat := 4 * 2 ^ 52

/-- HBM bytes of a die. -/
def hbmBytes : Nat := 0x3000000000

/-- Where a 52-bit physical address lies. -/
inductive Region where
  | hbm | far | expander | host | hole
  deriving DecidableEq, Repr

def regionOf (pa : Nat) : Region :=
  if pa < hbmBytes then .hbm
  else if 0x10000000000 ≤ pa ∧ pa < 0x30000000000 then .far
  else if 0x100000000000 ≤ pa ∧ pa < 0x8000000000000 then .expander
  else if 0x8000000000000 ≤ pa ∧ pa < 0x10000000000000 then .host
  else .hole

/-- The key of a physical address as a die sees it. -/
def physKey (die pa : Nat) : Nat := if regionOf pa = .hbm then die * 2 ^ 52 + pa else sharedBase + pa

/-- The die and partition that a far-tier or expander page is allotted to. -/
def State.allotOf (s : State) (pa : Nat) : Option (Nat × Nat) :=
  let v := tGet 0 s.allot (pa / 4096)
  if v = 0 then none else some ((v - 1) % 4, (v - 1) / 4)

/-- Whether a context of a die and partition may reach a physical address (R301, R311). -/
def State.paOk (s : State) (die part pa : Nat) : Bool :=
  let priv := (s.dieAt die).priv
  match regionOf pa with
  | .hbm => !priv || decide (pa * 2 ^ s.partLog die / hbmBytes = part)
  | .host => true
  | .hole => false
  | _ => match s.allotOf pa with
    | some (d, p) => decide (d = die) && (!priv || decide (p = part))
    | none => false

/-- The home die of a byte: 4 is the host, whose memory CXL.cache keeps coherent (R292). -/
def State.homeOf (s : State) (key : Nat) : Nat :=
  if key < sharedBase then key / 2 ^ 52
  else if regionOf (key - sharedBase) = .host then 4
  else match s.allotOf (key - sharedBase) with
    | some (d, _) => d
    | none => 4

/-! ### The current value of a byte -/

def State.lineAt (s : State) (line die : Nat) : Line := tGet {} s.lines (line * 4 + die)
def State.setLine (s : State) (line die : Nat) (l : Line) : State := { s with lines := tSet {} s.lines (line * 4 + die) l }
def State.dirAt (s : State) (line : Nat) : Dir := tGet {} s.dirs line
def State.setDir (s : State) (line : Nat) (d : Dir) : State := { s with dirs := tSet {} s.dirs line d }

/-- Whether a die's copy of a line is dirty. -/
def Line.dirty (l : Line) : Bool := l.st = .m || l.st = .o

/-- The byte in the memory copy, or a free value where its unit was written under a key since changed (R379). -/
def State.memByte (s : State) (key : Nat) : Byte :=
  let t := tGet 0 s.keyTag (key / 32)
  if t ≠ 0 && decide (tGet 0 s.keyVer ((t - 1) % 256) ≠ (t - 1) / 256) then BitVec.ofNat 8 (Config.freeBits s.free key) else tGet 0 s.mem key

/-- Dirty data of a line that is on its way to its home or held there for a transaction (R308). -/
def State.flying (s : State) (line : Nat) : Option Mem :=
  match s.acks.find? (fun a => a.line = line && a.data.isSome), s.xacts.find? (fun x => x.req.line = line && x.data.isSome) with
  | some a, _ => a.data.map (·.1)
  | none, some x => x.data.map (·.1)
  | none, none => none

/-- The coherent value of a byte: dirty data in flight, a dirty owner's, else memory's (R307). -/
def State.cohByte (s : State) (key : Nat) : Byte :=
  let d := s.dirAt (key / 256)
  match s.flying (key / 256), d.st with
  | some m, _ => tGet 0 m key
  | none, .u => s.memByte key
  | none, .s => s.memByte key
  | none, _ => if (s.lineAt (key / 256) d.owner).dirty then tGet 0 (s.lineAt (key / 256) d.owner).data key else s.memByte key

def State.cohBytes (s : State) (key : Nat) : Nat → List Byte
  | 0 => []
  | n + 1 => s.cohByte key :: s.cohBytes (key + 1) n

/-- Little-endian coherent value of `n` bytes. -/
def State.cohNat (s : State) (key n : Nat) : Nat := bytesToNat (s.cohBytes key n)

/-- The bytes of stash sectors that stand for a key, over every core: the last dirty one. -/
def State.stashByte (s : State) (key : Nat) : Option Byte :=
  s.cores.foldl (fun acc p => p.2.sectors.foldl (fun acc q =>
    if q.2.st = .dirty && decide (q.2.key ≤ key) && decide (key < q.2.key + 32) then some (tGet 0 p.2.scratch (q.1 * 32 + (key - q.2.key))) else acc) acc) none

/-- A byte as a unit at the point of coherence reads it. -/
def State.devByte (s : State) (key : Nat) : Byte := (s.stashByte key).getD (s.cohByte key)

def State.devBytes (s : State) (key : Nat) : Nat → List Byte
  | 0 => []
  | n + 1 => s.devByte key :: s.devBytes (key + 1) n

def State.devNat (s : State) (key n : Nat) : Nat := bytesToNat (s.devBytes key n)

/-- The tag of a unit written under a key number (R379). -/
def State.tagFor (s : State) (keyNo : Nat) : Nat := 1 + keyNo % 256 + 256 * tGet 0 s.keyVer (keyNo % 256)

/-- Units of 32 bytes in [key, key + n) tagged. -/
def tagUnits (t : Tab Nat) (tag : Nat) : List Nat → Tab Nat
  | [] => t
  | u :: us => tagUnits (tSet 0 t u tag) tag us

/-- The 32-byte units that a range touches. -/
def unitsOf (key n : Nat) : List Nat := if n = 0 then [] else upto (key / 32) ((key + n - 1) / 32 - key / 32 + 1)

/-- The memory copy written under a key number. -/
def State.putMem (s : State) (key keyNo : Nat) (data : List Byte) : State :=
  { s with mem := mWrite s.mem key data, keyTag := tagUnits s.keyTag (s.tagFor keyNo) (unitsOf key data.length) }

/-! ### Translation (R302) -/

/-- Whether a table may stand at a physical address: the die's HBM or its allotted far tier (R302). -/
def State.tableOk (s : State) (die pa : Nat) : Bool := regionOf pa = .hbm || (regionOf pa = .far && (s.allotOf pa).map (·.1) = some die)

/-- A leaf entry taken apart. -/
def State.leafOf (s : State) (c : Ctx) (va entry pbits : Nat) : Option Leaf :=
  let e := s.devNat (physKey c.die entry) 8
  let base := bits e 12 40 * 4096
  let pa := base + va % 2 ^ pbits
  if s.tableOk c.die entry && bit e 0 && bits e 2 10 = 0 && base % 2 ^ pbits = 0 && s.paOk c.die c.part pa then
    some { pa := pa, w := bit e 1, keyNo := bits e 56 8, mtype := bits e 54 2, mclass := bits e 52 2, entry := entry, pbits := pbits }
  else none

/-- The walk from the table at `table` for a level (Table 16.3), which reads its entries at die scope: a dirty stash sector too (R240). -/
def State.walk (s : State) (c : Ctx) (va : Nat) : Nat → Nat → Option Leaf
  | 0, _ => none
  | l + 1, table =>
    let a := table + 8 * bits va (12 + 9 * (l + 1)) 9
    let e := s.devNat (physKey c.die a) 8
    let next := bits e 12 40 * 4096
    if !s.tableOk c.die a || !bit e 0 || bits e 52 12 ≠ 0 || bits e 3 9 ≠ 0 then none
    else match bits e 1 2 with
      | 0 => if l = 0 then none else s.walk c va l next
      | 1 => if l = 3 then none else s.leafOf c va (next + 8 * bits va (12 + 9 * l) 9) (12 + 9 * l)
      | 2 => if l = 0 then s.leafOf c va (next + 8 * bits va 16 5) 16 else none
      | _ => none

/-- The cached translation of a context's address, if any (R303). -/
def State.cached (s : State) (c : Ctx) (va : Nat) : Option Leaf :=
  (s.tlb.find? (fun t => t.ctx = c.id && decide (t.va ≤ va) && decide (va < t.va + 2 ^ t.leaf.pbits))).map (fun t => { t.leaf with pa := t.leaf.pa + (va - t.va) })

/-- A context's translation of a virtual address, the cached one where there is one; none is TRANSL. -/
def State.xlate (s : State) (c : Ctx) (va : Nat) : Option Leaf :=
  if va < 2 ^ 57 then
    match s.cached c va with
    | some l => some l
    | none => s.walk c va 4 c.ptroot
  else none

/-- A context's translation of an address cached, where its tables give one and none is cached (R303). -/
def State.cacheVa (s : State) (ctx va : Nat) : State :=
  let c := s.ctxAt ctx
  match s.cached c va, s.xlate c va with
  | none, some l => { s with tlb := s.tlb ++ [⟨c.id, va - va % 2 ^ l.pbits, { l with pa := l.pa - va % 2 ^ l.pbits }⟩] }
  | _, _ => s

/-- The cached translations of a context dropped: what INVALTR completes with (R303). -/
def State.dropTlb (s : State) (p : TlbEnt → Bool) : State := { s with tlb := s.tlb.filter (fun t => !p t) }

/-! ### Checks of a global access (R103, R306) -/

/-- A place in memory: byte key, home die, page attributes, and for a peer window the import slot and its number, export and exporter's address.
`ok` is false for a posted store that its home will drop (R306). -/
structure Phys where
  key    : Nat
  home   : Nat
  keyNo  : Nat
  mtype  : Nat
  mclass : Nat
  slot   : Option Nat := none
  imp    : Nat := 0
  exp    : Nat := 0
  va     : Nat := 0
  ok     : Bool := true
  deriving DecidableEq, Repr

/-- The scratchpad aperture (R272): first address and its end. -/
def apertureBase : Nat := 0x01FFFF0000000000
def apertureEnd : Nat := apertureBase + 160 * 2 ^ 21
def inAperture (va : Nat) : Bool := apertureBase ≤ va && va < apertureEnd

/-- The first byte of [lo, hi) outside the footprint, if any (R103 step 3): a range with the matching mark is followed to its end. -/
def uncovered (rs : List Range) (wr : Bool) (hi : Nat) : Nat → Nat → Option Nat
  | 0, lo => if hi ≤ lo then none else some lo
  | k + 1, lo =>
    if hi ≤ lo then none
    else match rs.find? (fun r => bit r.mark (b2n wr) && decide (r.lo ≤ lo) && decide (lo < r.lo + r.len)) with
      | some r => uncovered rs wr hi k (r.lo + r.len)
      | none => some lo

/-- The footprint check of an access, if it is subject to one. -/
def footCheck (foot : Option (List Range)) (va n : Nat) (wr : Bool) : Except TrapRec Unit :=
  match foot with
  | none => .ok ()
  | some rs => match uncovered rs wr (va + n) (rs.length + 1) va with
    | none => .ok ()
    | some a => .error { cls := clsModel, sub := 1, addr := BitVec.ofNat 64 a }

/-- The window of a context that holds an address, with its slot: a revoked one still takes the access, which then faults. -/
def windowOf (c : Ctx) (va : Nat) : Option (Nat × ImportEnt) :=
  c.imports.find? (fun p => p.2.kind = 1 && decide (p.2.wbase ≤ va) && decide (va < p.2.wbase + p.2.len))

/-- The export that an import names. -/
def State.exportOf (s : State) (exp : Nat) : Option ExportEnt := s.exports.find? (fun e => e.handle.toNat = exp)

/-- R103 steps 1 and 2 under one context's own page tables. -/
def State.pageCheck (s : State) (c : Ctx) (classes : List Nat) (va : Nat) (wr : Bool) (addr : Nat) : Except TrapRec Leaf :=
  match s.xlate c va with
  | none => .error { cls := clsMem, sub := 1, addr := BitVec.ofNat 64 addr }
  | some l =>
    if wr && !l.w then .error { cls := clsMem, sub := 1, addr := BitVec.ofNat 64 addr }
    else if classes.contains l.mclass then .ok l
    else .error { cls := clsMem, sub := 2, addr := BitVec.ofNat 64 addr }

/-- The checks of R103, or of R306 through a window, for n bytes of one page: the first that fails is the fault. A posted store meets only
the importer's checks; what fails at home drops it there. -/
def State.checkFor (s : State) (posted : Bool) (ctx : Nat) (foot : Option (List Range)) (classes : List Nat) (va n : Nat) (wr : Bool) : Except TrapRec Phys :=
  let c := s.ctxAt ctx
  let memErr := fun (cls sub : Nat) => (.error { cls := cls, sub := sub, addr := BitVec.ofNat 64 va } : Except TrapRec Phys)
  if inAperture va then memErr clsMem 2
  else match windowOf c va with
    | some (slot, w) =>
      if w.revoked then memErr clsHandle 2
      else if wr && !w.write then memErr clsMem 1
      else do
        footCheck foot va n wr
        match s.exportOf w.exp with
        | none => if w.foreign then memErr clsMem 2 else memErr clsHandle 2
        | some e =>
          if e.revoked then memErr clsHandle 2
          else do
            let eva := e.base + (va - w.wbase)
            match s.pageCheck (s.ctxAt e.ctx) classes eva wr va with
            | .error t =>
              (if posted then .ok { key := 0, home := e.die, keyNo := 0, mtype := 0, mclass := 0, slot := some slot, imp := w.uid, exp := w.exp, va := eva, ok := false }
               else .error t)
            | .ok l =>
              let key := physKey e.die l.pa
              pure { key := key, home := s.homeOf key, keyNo := l.keyNo, mtype := l.mtype, mclass := l.mclass, slot := some slot, imp := w.uid, exp := w.exp, va := eva }
    | none => do
      let l ← s.pageCheck c classes va wr va
      footCheck foot va n wr
      let key := physKey c.die l.pa
      pure { key := key, home := s.homeOf key, keyNo := l.keyNo, mtype := l.mtype, mclass := l.mclass, va := va }

/-- The checks of an access that is not posted. -/
def State.check (s : State) (ctx : Nat) (foot : Option (List Range)) (classes : List Nat) (va n : Nat) (wr : Bool) : Except TrapRec Phys :=
  s.checkFor false ctx foot classes va n wr

/-- The checks of a store, which is posted where it goes through a window. -/
def State.checkSt (s : State) (ctx : Nat) (foot : Option (List Range)) (classes : List Nat) (va n : Nat) : Except TrapRec Phys :=
  s.checkFor true ctx foot classes va n true

/-- Whether bytes at a virtual address of a context lie in a task record of a graph that the scheduler holds, which software must not change (R244):
no outcome is stated, so the instruction that stores there breaks an obligation (R7). -/
def State.inRecord (s : State) (ctx va n : Nat) : Bool :=
  s.graphs.any (fun g => g.ctx = ctx && decide (va < g.tasks.toNat + 128 * g.ntask) && decide (g.tasks.toNat < va + n))

/-- A check's fault as an instruction's answer. -/
def liftTrap {α : Type} : Except TrapRec α → Res α
  | .ok a => .ok a
  | .error t => .error (.trap t)

/-! ### Owner tags (R287, Table 15.11) -/

/-- The phase of an access by a tile: GBAR's PHASE for a gang, one phase otherwise. -/
def State.tagPhase (s : State) (die core : Nat) (t : RunTask) : Nat :=
  if t.gang then (tGet 0 (s.ctxAt (s.ctxOf die core)).flags (t.gbar + 1)).toNat / 2 ^ 16 else 0

/-- The tag after an access of core `x`; none is PHASEOWN. -/
def tagStep (tag : OwnTag) (inst phase x : Nat) (wr : Bool) : Option OwnTag :=
  let fresh : OwnTag := { inst := inst, phase := phase, write := wr, core := x }
  if tag.inst ≠ inst || tag.phase ≠ phase then some fresh
  else if tag.write then (if tag.core = x then some tag else none)
  else if tag.shared then (if wr then none else some tag)
  else if tag.core = x then some fresh
  else if wr then none
  else some { tag with shared := true }

/-- Whether an access of a tile is subject to phase ownership. -/
def tagged (t : Option RunTask) (p : Phys) : Option RunTask :=
  match t with
  | some t => if t.nest && p.mtype = 0 && p.mclass = 0 && p.ok then some t else none
  | none => none

/-- The sectors that n bytes at a key touch. -/
def sectorsOf (key n : Nat) : List Nat := unitsOf key n

/-- The key of a sector's tag of one record instance (R287). -/
def tagKey (inst sector : Nat) : Nat := inst * 2 ^ 50 + sector

/-- Every sector's tag stepped, or the first sector that meets PHASEOWN. -/
def tagAll (tags : Tab OwnTag) (inst phase x : Nat) (wr : Bool) : List Nat → Except Nat (Tab OwnTag)
  | [] => .ok tags
  | k :: ks => match tagStep (tGet {} tags (tagKey inst k)) inst phase x wr with
    | none => .error k
    | some t => match tagAll (tSet {} tags (tagKey inst k) t) inst phase x wr ks with
      | .ok r => .ok r
      | .error e => .error e

/-- The ownership check and update of an access (R287); the trap's address is the first failing byte. -/
def State.own (s : State) (die core : Nat) (t : Option RunTask) (p : Phys) (va n : Nat) (wr : Bool) : Except TrapRec State :=
  match tagged t p with
  | none => .ok s
  | some t => match tagAll s.tags t.inst (s.tagPhase die core t) core wr (sectorsOf p.key n) with
    | .ok tags => .ok { s with tags := tags }
    | .error k => .error { cls := clsModel, sub := 2, addr := BitVec.ofNat 64 (va + (k * 32 - p.key)) }

/-! ### What a die must hold before it reads or writes a line -/

/-- Stash sectors of a die's cores that a read (dirty ones) or a write (valid ones) of a line by another agent must meet first (R240). -/
def State.stashConf (s : State) (die : Nat) (but : Option Nat) (line : Nat) (wr : Bool) : List Snoop :=
  s.cores.foldr (fun p acc =>
    if p.1 / 160 = die && but ≠ some (p.1 % 160) then
      p.2.sectors.foldr (fun q acc =>
        if q.2.key / 256 = line && (q.2.st = .dirty || (wr && q.2.st = .clean)) then ⟨die, p.1 % 160, q.1 * 32, wr⟩ :: acc else acc) acc
    else acc) []

/-- Messages added, none twice. -/
def addNew {α : Type} [DecidableEq α] (l : List α) : List α → List α
  | [] => l
  | x :: xs => addNew (if l.contains x then l else l ++ [x]) xs

/-- A request placed on its way to a line's home, unless it is there or being served. -/
def State.request (s : State) (k : ReqKind) (die line : Nat) : State :=
  let r : CohReq := ⟨k, die, line⟩
  if s.reqs.contains r || s.xacts.any (fun x => x.req = r) then s else { s with reqs := s.reqs ++ [r] }

/-- Whether a transaction of a line is in progress at its home. -/
def State.xactOn (s : State) (line : Nat) : Bool := s.xacts.any (fun x => x.req.line = line)

/-- Whether a die may read a line now; where it may not, the state with the messages sent that it waits for. `but` is the core whose own
stash sectors do not count. -/
def State.lineRead (s : State) (die : Nat) (but : Option Nat) (line home : Nat) : Res Unit :=
  if 4 ≤ home then .ok ()
  else
    let sn := s.stashConf die but line false
    if sn ≠ [] then .error (.wait { s with snoops := addNew s.snoops sn })
    else if die = home then
      let d := s.dirAt line
      if s.xactOn line then .error (.wait s)
      else if d.st = .u || d.st = .s then .ok ()
      else .error (.wait (s.request .homeRead die line))
    else if (s.lineAt line die).st = .i then .error (.wait (s.request .readS die line))
    else .ok ()

/-- Whether a die may write a line now, as `lineRead`. -/
def State.lineWrite (s : State) (die : Nat) (but : Option Nat) (line home : Nat) : Res Unit :=
  if 4 ≤ home then .ok ()
  else
    let sn := s.stashConf die but line true
    if sn ≠ [] then .error (.wait { s with snoops := addNew s.snoops sn })
    else if die = home then
      if s.xactOn line then .error (.wait s)
      else if (s.dirAt line).st = .u then .ok ()
      else .error (.wait (s.request .homeWrite die line))
    else
      let l := s.lineAt line die
      if l.st = .e || l.st = .m then .ok () else .error (.wait (s.request .readX die line))

/-- The lines that n bytes at a key touch. -/
def linesOf (key n : Nat) : List Nat := if n = 0 then [] else upto (key / 256) ((key + n - 1) / 256 - key / 256 + 1)

/-- `lineRead` of several lines. -/
def State.linesRead (s : State) (die : Nat) (but : Option Nat) (home : Nat) : List Nat → Res Unit
  | [] => .ok ()
  | l :: ls => do
    s.lineRead die but l home
    s.linesRead die but home ls

/-- `lineWrite` of several lines. -/
def State.linesWrite (s : State) (die : Nat) (but : Option Nat) (home : Nat) : List Nat → Res Unit
  | [] => .ok ()
  | l :: ls => do
    s.lineWrite die but l home
    s.linesWrite die but home ls

/-- Whether an agent of a die may read n bytes: pages that are not normal are not cached (R274). -/
def State.canRead (s : State) (die : Nat) (but : Option Nat) (p : Phys) (n : Nat) : Res Unit :=
  if p.mtype = 0 then s.linesRead die but p.home (linesOf p.key n) else .ok ()

/-- Whether an agent of the home die may write n bytes. -/
def State.canWrite (s : State) (die : Nat) (but : Option Nat) (p : Phys) (n : Nat) : Res Unit :=
  if p.mtype = 0 then s.linesWrite die but p.home (linesOf p.key n) else .ok ()

/-- The byte as a die holds it: its own copy of a remote line, else the coherent value. -/
def State.dieByte (s : State) (die key home : Nat) : Byte :=
  if die ≠ home && decide (home < 4) && decide ((s.lineAt (key / 256) die).st ≠ .i) then tGet 0 (s.lineAt (key / 256) die).data key else s.cohByte key

/-! ### A core's memory port (R282) -/

/-- A byte of a store, if it covers the key. -/
def storeByte (key : Nat) (start : Nat) (data : List Byte) : Option Byte := if start ≤ key then data[key - start]? else none

/-- The latest of a core's posted stores not yet performed that covers a key, with its item number. -/
def State.postedByte (s : State) (die core key : Nat) : Option (Nat × Byte) :=
  s.posts.foldl (fun b p =>
    match p.key with
    | some k => if p.die = die && p.core = core then (match storeByte key k p.data with
        | some x => some (p.pid, x)
        | none => b) else b
    | none => b) none

/-- The latest store in a core's queue that covers a key, with its place among the posted items. -/
def Core.queuedByte (c : Core) (key : Nat) : Option (Nat × Byte) :=
  c.storeq.foldl (fun b q => match storeByte key q.key q.data with
    | some x => some (q.seq, x)
    | none => b) none

/-- The byte a core reads: the latest store in its queue or on its way to a window, else what its die holds (R278, R282). -/
def State.portByte (s : State) (die core key home : Nat) : Byte :=
  match (s.coreAt die core).queuedByte key, s.postedByte die core key with
  | some q, some p => if p.1 < q.1 then q.2 else p.2
  | some q, none => q.2
  | none, some p => p.2
  | none, none => s.dieByte die key home

def State.portBytes (s : State) (die core key home : Nat) : Nat → List Byte
  | 0 => []
  | n + 1 => s.portByte die core key home :: s.portBytes die core (key + 1) home n

/-- Whether two stores share a byte. -/
def QStore.meets (a b : QStore) : Bool := decide (a.key < b.key + b.data.length) && decide (b.key < a.key + a.data.length)

/-- Whether a later store waits for an earlier one: of the same bytes; of one stream, both to normal pages (R279), both to device or
strongly ordered pages, or either strongly ordered (R274). -/
def QStore.before (f e : QStore) : Bool :=
  f.meets e || (decide (f.eng = e.eng) && ((f.mtype = 0 && e.mtype = 0) || (decide (2 ≤ f.mtype) && decide (2 ≤ e.mtype)) || f.mtype = 3 || e.mtype = 3))

/-- Whether entry n of a store queue may be performed next. -/
def canDrain (q : List QStore) (n : Nat) : Bool :=
  match q[n]? with
  | none => false
  | some e => (q.take n).all (fun f => !f.before e)

/-- Whether an access of memory type `b` must not be performed before an earlier one of type `a` has been (R274): either is strongly ordered,
or both are of device type. -/
def typeOrder (a b : Nat) : Bool := a = 3 || b = 3 || (a = 2 && b = 2)

/-- Whether a stream may make an access of a memory type now (R274), where `dest` is the home die of a posted store and `queued` says that the
access is a store to be queued: queued stores of device type keep their order by themselves, as do posted ones to one die. -/
def Core.inOrder (c : Core) (e : Eng) (mtype : Nat) (queued : Bool := false) (dest : Option Nat := none) : Bool :=
  c.storeq.all (fun q => decide (q.eng ≠ e) || !typeOrder q.mtype mtype || (queued && q.mtype = 2 && mtype = 2))
    && c.posted.all (fun i => decide (i.eng ≠ e) || i.done || i.dropped || !typeOrder i.mtype mtype || (dest.isSome && i.home = dest && i.mtype = 2 && mtype = 2))

/-- One line's bytes of a write by a die: into its own copy of a remote line, which it holds in E or M, else into memory. -/
def State.putLine (s : State) (die key home keyNo : Nat) (data : List Byte) : State :=
  let l := s.lineAt (key / 256) die
  if die ≠ home && decide (home < 4) && (l.st = .e || l.st = .m) then s.setLine (key / 256) die ⟨.m, mWrite l.data key data, keyNo⟩ else s.putMem key keyNo data

/-- A write that a die performs at a place, whose lines it may write. -/
def State.put (s : State) (die : Nat) (p : Phys) (data : List Byte) : State :=
  (linesOf p.key data.length).foldl (fun s ln =>
    let lo := max p.key (ln * 256)
    let hi := min (p.key + data.length) (ln * 256 + 256)
    s.putLine die lo p.home p.keyNo ((data.drop (lo - p.key)).take (hi - lo))) s

/-- Perform entry n of a core's store queue (R105), or send the messages it waits for. -/
def State.drain (s : State) (die core n : Nat) : State :=
  let c := s.coreAt die core
  match c.storeq[n]? with
  | none => s
  | some e =>
    if !canDrain c.storeq n then s
    else
      let p : Phys := { key := e.key, home := e.home, keyNo := e.keyNo, mtype := e.mtype, mclass := 0 }
      match s.canWrite die none p e.data.length with
      | .error (.wait t) => t
      | .error _ => s
      | .ok () => (s.setCoreAt die core { c with storeq := dropNth c.storeq n }).put die p e.data

/-- Whether every store of a core that has landed has been performed: what retirement waits for (R285). -/
def Core.drained (c : Core) : Bool := c.storeq.isEmpty

/-- Whether every store that a release of a stream orders has been performed (R283): the stream's own, and those of another stream that has raised
a counter since, which the release is taken to follow (log 20). -/
def Core.released (c : Core) (e : Eng) : Bool := c.storeq.all (fun q => !(decide (q.eng = e) || (isC q.eng && isC e) || q.rel))

/-- What a release of the current stream waits for. -/
def State.released (s : State) : Bool := s.myCore.released s.cur.eng

/-! ### Scratchpad ranges -/

/-- Whether a range overlaps an entry in a way R23 orders. -/
def Core.conflict (c : Core) (lo n : Nat) (wr : Bool) : Bool :=
  let r := round64 lo (lo + n)
  n ≠ 0 && c.sb.any (fun e => (wr || e.write) && decide (e.lo < r.2) && decide (r.1 < e.hi))

/-- Whether a command of an earlier number has not completed its access to a range that a command numbered `num` is to touch (R23). -/
def Core.ahead (c : Core) (num lo n : Nat) (wr : Bool) : Bool :=
  let r := round64 lo (lo + n)
  n ≠ 0 && c.sb.any (fun e => decide (e.num < num) && (wr || e.write) && decide (e.lo < r.2) && decide (r.1 < e.hi))

/-- Whether the scoreboard has room for `n` more entries (R24). -/
def Core.sbRoom (c : Core) (n : Nat) : Bool := decide (c.sb.length + n ≤ Config.scoreboardSize)

/-- The mapping that holds a scratchpad offset. -/
def Core.mapAt (c : Core) (off : Nat) : Option StashMap := c.stash.find? (fun m => decide (m.sp ≤ off) && decide (off < m.sp + m.len))

/-- A tile task's footprint. -/
def Core.foot (c : Core) : List Range :=
  match c.task with
  | some t => t.ranges
  | none => []

/-- The sectors of a scratchpad range that lie in mappings, as sector numbers. -/
def Core.mapped (c : Core) (lo n : Nat) : List Nat := if c.stash.isEmpty then [] else (unitsOf lo n).filter (fun u => (c.mapAt (u * 32)).isSome)

/-- A mapped sector's global address. -/
def Core.sectorVa (c : Core) (u : Nat) : Nat :=
  match c.mapAt (u * 32) with
  | some m => m.va.toNat + (u * 32 - m.sp)
  | none => 0

/-- The checks of one mapped sector for a command (R239): its translation, footprint and ownership, a fill where the command reads it or
writes part of it, and the right to write its line. -/
def State.sectorReady (s : State) (die core lo n : Nat) (wr : Bool) (u : Nat) : Res Unit := do
  let c := s.coreAt die core
  let ctx := s.ctxOf die core
  let va := c.sectorVa u
  let e := tGet {} c.sectors u
  let whole := wr && decide (lo ≤ u * 32) && decide (u * 32 + 32 ≤ lo + n)
  if e.st = .invalid && !whole then
    let p ← liftTrap (s.check ctx (some c.foot) [0] va 32 false)
    let _ ← liftTrap (s.own die core c.task p va 32 false)
    .error (.wait (s.setCoreAt die core { c with fills := addNew c.fills [u] }))
  else if wr then
    let p ← liftTrap (s.check ctx (some c.foot) [0] va 32 true)
    let _ ← liftTrap (s.own die core c.task p va 32 true)
    s.canWrite die (some core) p 32
  else .ok ()

/-- `sectorReady` of several sectors. -/
def State.sectorsReady (s : State) (die core lo n : Nat) (wr : Bool) : List Nat → Res Unit
  | [] => .ok ()
  | u :: us => do
    s.sectorReady die core lo n wr u
    s.sectorsReady die core lo n wr us

/-- Whether a command of a core may touch a scratchpad range now: scoreboard (R23), room in it (R24), stash sectors (R239). -/
def State.spReady (s : State) (die core lo n : Nat) (wr : Bool) : Res Unit := do
  let c := s.coreAt die core
  await (!c.conflict lo n wr && decide (c.sb.length < Config.scoreboardSize)) s
  s.sectorsReady die core lo n wr (c.mapped lo n)

/-- Scratchpad bytes. -/
def State.spBytes (s : State) (die core lo n : Nat) : List Byte := mRead (s.coreAt die core).scratch lo n

/-- A mapped sector marked dirty, with its owner tag written. -/
def State.markSector (s : State) (die core u : Nat) : State :=
  let c := s.coreAt die core
  match s.check (s.ctxOf die core) none [0] (c.sectorVa u) 32 true with
  | .error _ => s
  | .ok p =>
    let s1 := s.setCoreAt die core { c with sectors := tSet {} c.sectors u { st := .dirty, key := p.key, keyNo := p.keyNo } }
    match s1.own die core c.task p (c.sectorVa u) 32 true with
    | .ok s2 => s2
    | .error _ => s1

/-- Scratchpad bytes written. -/
def State.spWrite (s : State) (die core lo : Nat) (data : List Byte) : State :=
  let c := s.coreAt die core
  let s1 := s.setCoreAt die core { c with scratch := mWrite c.scratch lo data }
  (c.mapped lo data.length).foldl (fun s u => s.markSector die core u) s1

/-- The range checks of a scratchpad access that cannot reach the overflow window (R104, R106): SPRANGE, then CODEWR for a write (R15). -/
def Core.spCheck (c : Core) (lo n : Nat) (wr : Bool) : Except TrapRec Unit :=
  if Config.spSize < lo + n then .error { cls := clsMem, sub := 4, addr := BitVec.ofNat 64 lo }
  else if wr && decide (lo < c.codeTop) && n ≠ 0 then .error { cls := clsUse, sub := 1, addr := BitVec.ofNat 64 lo }
  else .ok ()

/-! ### Accesses by the scheduler, the Milliner and memory-side units

They are made at once at the point of coherence: a read sees a dirty stash sector or a dirty line of any die; a write takes stash sectors of its
lines back first and reaches every copy (log 14). -/

/-- A byte written into every die's copy of its line. -/
def State.putCopies (s : State) (key : Nat) (b : Byte) : State :=
  (upto 0 4).foldl (fun s d =>
    let l := s.lineAt (key / 256) d
    if l.st = .i then s else s.setLine (key / 256) d { l with data := tSet 0 l.data key b }) s

/-- `putCopies` of several bytes. -/
def State.putAll (s : State) (key : Nat) : List Byte → State
  | [] => s
  | b :: bs => (s.putCopies key b).putAll (key + 1) bs

/-- Bytes written into memory and into every copy of their lines. -/
def State.putEvery (s : State) (key keyNo : Nat) (data : List Byte) : State := (s.putMem key keyNo data).putAll key data

/-- A stash sector met by another agent's write (R240): written back if dirty, then invalid. -/
def State.dropSector (s : State) (ck u : Nat) (e : StSector) : State :=
  let c := tGet {} s.cores ck
  let s1 := if e.st = .dirty then s.putEvery e.key e.keyNo (mRead c.scratch (u * 32) 32) else s
  { s1 with cores := tSet {} s1.cores ck { c with sectors := tSet {} c.sectors u {} } }

/-- Every stash sector of a line met by another agent's write. -/
def State.dropSectors (s : State) (line : Nat) : State :=
  s.cores.foldl (fun s p => p.2.sectors.foldl (fun s q =>
    if q.2.st ≠ .invalid && q.2.key / 256 = line then s.dropSector p.1 q.1 q.2 else s) s) s

/-- Bytes written at the point of coherence. -/
def State.devWrite (s : State) (p : Phys) (data : List Byte) : State :=
  ((linesOf p.key data.length).foldl State.dropSectors s).putEvery p.key p.keyNo data

/-- n bytes at a virtual address of a context as its units read them (R103 steps 1 and 2), for pieces that lie in one page. -/
def State.vread (s : State) (ctx : Nat) (classes : List Nat) (va n : Nat) : Option Nat :=
  match s.check ctx none classes va n false with
  | .ok p => some (s.devNat p.key n)
  | .error _ => none

/-- Bytes written at a virtual address of a context, where it is mapped for writing. -/
def State.vwrite (s : State) (ctx : Nat) (classes : List Nat) (va : Nat) (data : List Byte) : State :=
  match s.check ctx none classes va data.length true with
  | .ok p => s.devWrite p data
  | .error _ => s

/-- Consecutive 8-byte words at a virtual address. -/
def State.vwords (s : State) (ctx : Nat) (va : Nat) : Nat → Option (List Nat)
  | 0 => some []
  | n + 1 => match s.vread ctx [0] va 8, s.vwords ctx (va + 8) n with
    | some w, some ws => some (w :: ws)
    | _, _ => none

/-! ### Posted stores (R290, R309) -/

/-- A posted item of the core numbered, with its flush bookkeeping (R113). -/
def State.newItem (s : State) (die core : Nat) (it : OutItem) : Nat × State :=
  let c := s.coreAt die core
  (c.nextPid, s.setCoreAt die core { c with nextPid := c.nextPid + 1, posted := c.posted ++ [{ it with pid := c.nextPid }] })

/-- A posted item performed or dropped at its home: its answer is on its way to its core (R113). -/
def State.ackItem (s : State) (src die core pid : Nat) (dropped : Bool) : State :=
  let c := s.coreAt die core
  { s.setCoreAt die core { c with posted := c.posted.map (fun i => if i.pid = pid then { i with done := true } else i) } with
    sacks := s.sacks ++ [⟨src, die, core, pid, dropped⟩] }

/-- The stores a core has posted to a home die and not yet performed. -/
def State.postedTo (s : State) (die core home : Nat) : List Posted := s.posts.filter (fun p => p.die = die && p.core = core && p.home = home)

/-- A stream's store to be posted through a window; `p` is the importer's checked place. -/
def postOf (die core : Nat) (e : Eng) (p : Phys) (expDie : Nat) (data : List Byte) (copy : Bool) : OutItem × Posted :=
  ({ pid := 0, imp := p.imp, home := some expDie, eng := e, mtype := p.mtype, copy := copy },
   ⟨die, core, 0, expDie, p.exp, p.slot.getD 0, BitVec.ofNat 64 p.va, if p.ok then some p.key else none, data⟩)

/-- A store posted, under the next number of its core's items. -/
def State.send (s : State) (m : OutItem × Posted) : State :=
  let r := s.newItem m.2.die m.2.core m.1
  { r.2 with posts := r.2.posts ++ [{ m.2 with pid := r.1 }] }

/-- Post a stream's store through a window. -/
def State.post (s : State) (die core : Nat) (e : Eng) (p : Phys) (expDie : Nat) (data : List Byte) (copy : Bool := false) : State :=
  s.send (postOf die core e p expDie data copy)

/-- The exporter's die of a place in a window. -/
def State.expDie (s : State) (p : Phys) : Nat :=
  match s.exportOf p.exp with
  | some e => e.die
  | none => p.home

/-- The clk-stamped request of the current stream, kept while it waits for the same address. -/
def State.noteReq (s : State) (i : Instr) (addr : Nat) (once : Bool) : State :=
  let e := s.me
  let a := BitVec.ofNat 64 addr
  match e.req with
  | some r => if r.addr = a && r.instr = i then s.setMe { e with req := some { r with once := r.once || once } }
    else s.setMe { e with req := some { since := s.now, addr := a, instr := i, once := once, pc := e.pc, pfx := e.pfx } }
  | none => s.setMe { e with req := some { since := s.now, addr := a, instr := i, once := once, pc := e.pc, pfx := e.pfx } }

/-- A wait for memory noted as the stream's request. -/
def asReq {α : Type} (i : Instr) (addr : Nat) (once : Bool) : Res α → Res α
  | .error (.wait t) => .error (.wait (t.noteReq i addr once))
  | r => r

/-- Whether the stream's request for this instruction and address has left the core. -/
def State.reqOut (s : State) (i : Instr) (addr : Nat) : Bool :=
  match s.me.req with
  | some r => r.once && r.instr = i && r.addr = BitVec.ofNat 64 addr
  | none => false

end Sys2Proof.Machine
end

