-- ==== Sys2Proof/Machine/Flags.lean ====
section
/-! DEFINITION. Every condition and flag computation: the compares of R100, FPFLAGS (R70), the SR sequence (R64), and the lane
operations that round and set flags (R144). -/

namespace Sys2Proof.Machine

/-- The conditions of `cmp` and `cmpi` (R100): eq, ne, lt, ge, ltu, geu. -/
def cmpCond (cc : Nat) (x y : Word) : Bool :=
  match cc with
  | 0 => x = y
  | 1 => x ≠ y
  | 2 => x.slt y
  | 3 => !x.slt y
  | 4 => x.ult y
  | _ => !x.ult y

/-- The conditions of `vcmp.i32` (R151): eq, ne, lt, le, ltu, leu. -/
def vcmpICond (cc : Nat) (x y : Lane) : Bool :=
  match cc with
  | 0 => x = y
  | 1 => x ≠ y
  | 2 => x.slt y
  | 3 => x.sle y
  | 4 => x.ult y
  | _ => x.ule y

/-- The conditions of `vcmp.f32` (R151): an unordered pair is only `ne`. -/
def vcmpFCond (cc : Nat) (x y : FVal) : Bool :=
  match cc with
  | 0 => fEq x y
  | 1 => !fEq x y
  | 2 => fLt x y
  | _ => fLt x y || fEq x y

/-- Flags ORed into a core's FPFLAGS (R70). -/
def Core.orFlags (c : Core) (f : Flags) : Core := { c with fpflags := c.fpflags ||| f }

/-- Flags ORed into the current core's FPFLAGS. -/
def State.orFlags (s : State) (f : Flags) : State := s.setMyCore (s.myCore.orFlags f)

/-- SRSEQ advanced by an instruction that rounds with SR (R64). -/
def State.srStep (s : State) (sr : Bool) : State :=
  if sr then s.setMyCore { s.myCore with srseq := s.myCore.srseq + 1 } else s

/-- An f32 lane after the R65 input flush: `in(w)` of R144. -/
def laneIn (flush : Bool) (w : Lane) : FVal × Flags := flushIn 0 flush (decodeF 0 w.toNat)

/-- One lane's result and its flags. -/
abbrev LaneRes := Lane × Flags

/-- An exact value rounded to f32 in the row's mode, with the flags that formed it (R146). -/
def roundLane (r : RowView) (flush : Bool) (h24 : Nat) (v : FVal) (fl : Flags) : LaneRes :=
  let x := roundTo 0 v r.rnd r.sat flush h24
  (BitVec.ofNat 32 x.1, fl ||| x.2)

/-- The flags of the lanes for which `on` holds. -/
def lanesFlags (on : Nat → Bool) (f : Nat → LaneRes) : List Nat → Flags
  | [] => 0
  | i :: is => (if on i then (f i).2 else 0) ||| lanesFlags on f is

/-- A float lane operation landed (R144): active lanes written, their flags ORed, SRSEQ advanced under SR. -/
def State.landFloat (s : State) (vd : Nat) (on : Nat → Bool) (f : Nat → LaneRes) (lmax : Nat) (sr : Bool) : State :=
  ((s.landV vd (fun i => if on i then some (f i).1 else none) lmax).orFlags (lanesFlags on f (upto 0 64))).srStep sr

end Sys2Proof.Machine
end

