-- ==== Sys2Proof/Machine/Scalar.lean ====
section
/-! DEFINITION. The compact forms (R77 to R79), the prefixes (R80 to R82), and the integer, compare and predicate instructions (R99,
R100). None sets a flag or traps on overflow. -/

namespace Sys2Proof.Machine

abbrev Out := Host.Outcome State Fault Refusal

/-- The issue of a compact form that writes d. -/
def compact (d : BitVec 5) (others : List (BitVec 5)) (f : State → Word) (s : State) : Out :=
  issue s { streams := allStreams, len := 1, subs := s.regs (d.toNat :: others.map (·.toNat)) } fun s => .ok (s.landX d.toNat (f s) 1)

def execNop16 (s : State) : Out := issue s { streams := allStreams, len := 1 } fun s => .ok s
def execMv16 (a d : BitVec 5) : State → Out := compact d [a] fun s => s.rx a.toNat
def execAdd16 (a d : BitVec 5) : State → Out := compact d [a] fun s => s.rx d.toNat + s.rx a.toNat 1
def execSub16 (a d : BitVec 5) : State → Out := compact d [a] fun s => s.rx d.toNat - s.rx a.toNat 1
def execAddi16 (i d : BitVec 5) : State → Out := compact d [] fun s => s.rx d.toNat + sext i.toNat 5
def execLi16 (i d : BitVec 5) : State → Out := compact d [] fun _ => sext i.toNat 5

def execExt (n : BitVec 10) (s : State) : Out := issuePrefix s false n.toNat
def execFmt (n : BitVec 6) (s : State) : Out := issuePrefix s true n.toNat

/-- A register-and-register form (class RR of R99). -/
def aluRR (d a b : BitVec 6) (g : BitVec 3) (lmax : Nat) (f : Word → Word → Word) (s : State) : Out :=
  issue s (fAll g (s.regs [d.toNat, a.toNat, b.toNat])) fun s => .ok (s.landX d.toNat (f (s.rx a.toNat) (s.rx b.toNat 1)) lmax)

/-- A register-and-immediate form (class RI of R99). -/
def aluRI (d a : BitVec 6) (i : BitVec 9) (g : BitVec 3) (f : Word → Word → Word) (s : State) : Out :=
  issue s { fAll g (s.regs [d.toNat, a.toNat]) with ext := true } fun s => .ok (s.landX d.toNat (f (s.rx a.toNat) (s.simm i.toNat 9)) 1)

/-- A shift-immediate form (class RS of R99). -/
def aluRS (d a sh : BitVec 6) (g : BitVec 3) (f : Word → Nat → Word) (s : State) : Out :=
  issue s (fAll g (s.regs [d.toNat, a.toNat])) fun s => .ok (s.landX d.toNat (f (s.rx a.toNat) sh.toNat) 1)

/-- The shift amount y[5:0]. -/
def shAmt (y : Word) : Nat := y.toNat % 64

def wSll (x : Word) (n : Nat) : Word := x <<< n
def wSrl (x : Word) (n : Nat) : Word := x >>> n
def wSra (x : Word) (n : Nat) : Word := x.sshiftRight n
def wMulh (x y : Word) : Word := BitVec.ofInt 64 (x.toInt * y.toInt / 2 ^ 64)
def wMulhu (x y : Word) : Word := BitVec.ofNat 64 (x.toNat * y.toNat / 2 ^ 64)
def wMin (x y : Word) : Word := if x.slt y then x else y
def wMax (x y : Word) : Word := if x.slt y then y else x
def wMinu (x y : Word) : Word := if x.ult y then x else y
def wMaxu (x y : Word) : Word := if x.ult y then y else x

def execAdd (d a b : BitVec 6) (g : BitVec 3) : State → Out := aluRR d a b g 1 (· + ·)
def execSub (d a b : BitVec 6) (g : BitVec 3) : State → Out := aluRR d a b g 1 (· - ·)
def execAnd (d a b : BitVec 6) (g : BitVec 3) : State → Out := aluRR d a b g 1 (· &&& ·)
def execOr (d a b : BitVec 6) (g : BitVec 3) : State → Out := aluRR d a b g 1 (· ||| ·)
def execXor (d a b : BitVec 6) (g : BitVec 3) : State → Out := aluRR d a b g 1 (· ^^^ ·)
def execSll (d a b : BitVec 6) (g : BitVec 3) : State → Out := aluRR d a b g 1 fun x y => wSll x (shAmt y)
def execSrl (d a b : BitVec 6) (g : BitVec 3) : State → Out := aluRR d a b g 1 fun x y => wSrl x (shAmt y)
def execSra (d a b : BitVec 6) (g : BitVec 3) : State → Out := aluRR d a b g 1 fun x y => wSra x (shAmt y)
def execMul (d a b : BitVec 6) (g : BitVec 3) : State → Out := aluRR d a b g 4 (· * ·)
def execMulh (d a b : BitVec 6) (g : BitVec 3) : State → Out := aluRR d a b g 4 wMulh
def execMulhu (d a b : BitVec 6) (g : BitVec 3) : State → Out := aluRR d a b g 4 wMulhu
def execMin (d a b : BitVec 6) (g : BitVec 3) : State → Out := aluRR d a b g 1 wMin
def execMax (d a b : BitVec 6) (g : BitVec 3) : State → Out := aluRR d a b g 1 wMax
def execMinu (d a b : BitVec 6) (g : BitVec 3) : State → Out := aluRR d a b g 1 wMinu
def execMaxu (d a b : BitVec 6) (g : BitVec 3) : State → Out := aluRR d a b g 1 wMaxu
def execAddi (d a : BitVec 6) (i : BitVec 9) (g : BitVec 3) : State → Out := aluRI d a i g (· + ·)
def execAndi (d a : BitVec 6) (i : BitVec 9) (g : BitVec 3) : State → Out := aluRI d a i g (· &&& ·)
def execOri (d a : BitVec 6) (i : BitVec 9) (g : BitVec 3) : State → Out := aluRI d a i g (· ||| ·)
def execXori (d a : BitVec 6) (i : BitVec 9) (g : BitVec 3) : State → Out := aluRI d a i g (· ^^^ ·)
def execSlli (d a sh : BitVec 6) (g : BitVec 3) : State → Out := aluRS d a sh g wSll
def execSrli (d a sh : BitVec 6) (g : BitVec 3) : State → Out := aluRS d a sh g wSrl
def execSrai (d a sh : BitVec 6) (g : BitVec 3) : State → Out := aluRS d a sh g wSra

def execLui (d : BitVec 6) (i : BitVec 15) (g : BitVec 3) (s : State) : Out :=
  issue s { fAll g (s.regs [d.toNat]) with ext := true } fun s => .ok (s.landX d.toNat (s.simm i.toNat 15 <<< 16) 1)

def execCmp (p : BitVec 3) (a b : BitVec 6) (c g : BitVec 3) (s : State) : Out :=
  issue s { fAll g (s.preds [p.toNat] ++ s.regs [a.toNat, b.toNat]) with wf := c.toNat ≤ 5 } fun s =>
    .ok (s.landP p.toNat (cmpCond c.toNat (s.rx a.toNat) (s.rx b.toNat 1)) 1)

def execCmpi (p c : BitVec 3) (a : BitVec 6) (i : BitVec 9) (g : BitVec 3) (s : State) : Out :=
  issue s { fAll g (s.preds [p.toNat] ++ s.regs [a.toNat]) with wf := c.toNat ≤ 5, ext := true } fun s =>
    .ok (s.landP p.toNat (cmpCond c.toNat (s.rx a.toNat) (s.simm i.toNat 9)) 1)

/-- A predicate form (class PP of R100). -/
def predOp (d a b g : BitVec 3) (f : Bool → Bool → Bool) (s : State) : Out :=
  issue s (fAll g (s.preds [d.toNat, a.toNat, b.toNat])) fun s => .ok (s.landP d.toNat (f (s.rp a.toNat) (s.rp b.toNat 1)) 1)

def execPand (d a b g : BitVec 3) : State → Out := predOp d a b g (· && ·)
def execPor (d a b g : BitVec 3) : State → Out := predOp d a b g (· || ·)
def execPxor (d a b g : BitVec 3) : State → Out := predOp d a b g (· != ·)
def execPandn (d a b g : BitVec 3) : State → Out := predOp d a b g fun x y => x && !y
def execPnot (d a b g : BitVec 3) : State → Out := predOp d a b g fun x _ => !x

end Sys2Proof.Machine
end

