-- ==== Sys2Proof/Machine/Loads.lean ====
section
/-! DEFINITION. Scalar loads and stores (R102 to R107, R272), atomics (R108 to R111), fences, flush signals and tokens (R112 to R114). A
body is named for each form that can leave a request behind at a halt, so that the reply can be performed into the saved context. -/

namespace Sys2Proof.Machine

/-- The access size of a MEM minor (Table 4.4). -/
def memSize (m : Nat) : Nat :=
  match m with
  | 0 => 1
  | 1 => 1
  | 2 => 2
  | 3 => 2
  | 4 => 4
  | 5 => 4
  | 6 => 8
  | _ => 16

/-- Whether a load minor is a signed form. -/
def memSigned (m : Nat) : Bool := m = 1 || m = 3 || m = 5

/-- A trap with its address replaced by the instruction's. -/
def liftAt {α : Type} (addr : Nat) : Except TrapRec α → Res α
  | .ok a => .ok a
  | .error t => .error (.trap { t with addr := BitVec.ofNat 64 addr })

/-- The footprint the current stream's accesses are checked against. -/
def State.myFoot (s : State) : List Range :=
  match s.myTask with
  | some t => t.ranges
  | none => []

/-- The address of a MEM form: base plus the displacement in access sizes (R102). -/
def State.memAddr (s : State) (b i n : Nat) : Nat := (s.rx b + s.simm i 6 * BitVec.ofNat 64 n).toNat

/-- The loaded value landed (R102). -/
def State.landLoad (s : State) (d m : Nat) (bs : List Byte) (lmax : Nat) : State :=
  let n := memSize m
  if n = 16 then (s.landX d (BitVec.ofNat 64 (bytesToNat (bs.take 8))) lmax).landX (d + 1) (BitVec.ofNat 64 (bytesToNat (bs.drop 8))) lmax
  else s.landX d (if memSigned m then sext (bytesToNat bs) (8 * n) else BitVec.ofNat 64 (bytesToNat bs)) lmax

/-- The bytes a store writes. -/
def State.storeData (s : State) (d n : Nat) : List Byte :=
  if n = 16 then natToBytes 8 (s.rx d 2).toNat ++ natToBytes 8 (s.rx (d + 1) 3).toNat else natToBytes n (s.rx d 2).toNat

/-- The REGRANGE rule of 16-byte forms. -/
def pairOk (d m : Nat) : List Nat := subUnless (!(memSize m = 16 && d % 2 = 1)) subREGRANGE

/-- The logical core and scratchpad offset that an aperture address names. -/
def apertureAt (va : Nat) : Nat × Nat := ((va - apertureBase) / 2 ^ 21, va % 2 ^ 21)

/-- The checks of an aperture access (R272): a core of the running partition, and the footprint. -/
def State.apertureCheck (s : State) (ea n : Nat) (wr : Bool) (foot : Option (List Range)) : Res Unit := do
  need ((s.coresOf s.cur.die (s.partOf s.cur.die s.cur.core)).contains (apertureAt ea).1) clsMem 1 (BitVec.ofNat 64 ea)
  liftAt ea (footCheck foot ea n wr)

/-- The log2 of an access size, for trace entries. -/
def log2Size (n : Nat) : Nat := Nat.log2 n

/-- An access from another core, or through the aperture, has entered a core's scoreboard: numbered after the core's own commands of this clk
(R232, R272). -/
def State.stampRemote (s : State) (die core : Nat) : State := s.setCoreAt die core ((s.coreAt die core).stamp s.now remoteRank)

/-- A global load of n bytes by the current stream (R103, R105). Where the page is of device or strongly ordered type, the request leaves the core
first and the data comes back later (R124); `rq` is the address the request is known by. `foot` is none for an overflow access (R106). -/
def State.globalLoad (s : State) (i : Instr) (rq ea n : Nat) (foot : Option (List Range)) : Res (List Byte × State) := do
  if inAperture ea && isC s.cur.eng then
    s.apertureCheck ea n false foot
    let t := apertureAt ea
    asReq i rq false (s.spReady s.cur.die t.1 t.2 n false)
    pure (s.spBytes s.cur.die t.1 t.2 n, s.stampRemote s.cur.die t.1)
  else do
    let p ← liftAt ea (s.check s.myCtx foot [0] ea n false)
    let s1 ← liftTrap (s.own s.cur.die s.cur.core (if foot.isSome then s.myTask else none) p ea n false)
    await (s.myCore.inOrder s.cur.eng p.mtype) (s.noteReq i rq false)
    asReq i rq false (s.canRead s.cur.die none p n)
    await (!(decide (2 ≤ p.mtype) && !s.reqOut i rq)) (s.noteReq i rq true)
    pure (s.portBytes s.cur.die s.cur.core p.key p.home n, s1)

/-- Whether the current stream may make a store at a place now (R274). -/
def State.storeOrder (s : State) (p : Phys) : Bool :=
  match p.slot with
  | some _ => s.myCore.inOrder s.cur.eng p.mtype false (some (s.expDie p))
  | none => s.myCore.inOrder s.cur.eng p.mtype true

/-- A store put into a core's store queue. -/
def Core.queueStore (c : Core) (e : Eng) (p : Phys) (va : Nat) (data : List Byte) : Core :=
  { c with storeq := c.storeq ++ [{ eng := e, mtype := p.mtype, key := p.key, home := p.home, va := BitVec.ofNat 64 va, keyNo := p.keyNo, data := data,
                                    seq := c.nextPid }] }

/-- Illegal-use subcode of R7. -/
def subOBLIG : Nat := 0x07

/-- A global store of the current stream (R103, R105, R290): to the aperture, posted through a window, or into the store queue. -/
def State.globalStore (s : State) (ea : Nat) (data : List Byte) (foot : Option (List Range)) : Res State := do
  let n := data.length
  if inAperture ea && isC s.cur.eng then
    s.apertureCheck ea n true foot
    let t := apertureAt ea
    liftAt ea ((s.coreAt s.cur.die t.1).spCheck t.2 n true)
    s.spReady s.cur.die t.1 t.2 n true
    pure ((s.spWrite s.cur.die t.1 t.2 data).stampRemote s.cur.die t.1)
  else do
    let p ← liftAt ea (s.checkSt s.myCtx foot [0] ea n)
    need (!s.inRecord s.myCtx ea n) clsUse subOBLIG
    let s1 ← liftTrap (s.own s.cur.die s.cur.core (if foot.isSome then s.myTask else none) p ea n true)
    await (s.storeOrder p) s
    match p.slot with
    | some _ =>
      await (decide ((s.postedTo s.cur.die s.cur.core (s.expDie p)).length < Config.postedQueueSize)) s
      pure (s1.post s.cur.die s.cur.core s.cur.eng p (s.expDie p) data)
    | none =>
      await (decide (s.myCore.storeq.length < Config.storeQueueSize)) s
      pure (s1.setMyCore (s1.myCore.queueStore s.cur.eng p ea data))

/-- The global address of an overflow-window access, if [o, o + n) lies wholly in the window (R106). -/
def Core.overflow (c : Core) (o n : Nat) : Option Nat :=
  if Config.spSize ≤ o ∧ o + n ≤ Config.spSize + c.spillOvSz then some ((c.spillOv.toNat + (o - Config.spSize)) % 2 ^ 64) else none

/-- CORESTAT.SPOV set. -/
def State.setSpov (s : State) : State := s.setMyCore { s.myCore with spov := true }

def ldBody (i : Instr) (d b w disp : Nat) (s : State) : Res State := do
  let n := memSize w
  let ea := s.memAddr b disp n
  need (aligned ea n) clsMem 3 (BitVec.ofNat 64 ea)
  let r ← s.globalLoad i ea ea n (some s.myFoot)
  pure ((r.2.landLoad d w r.1 1).trace 2 (log2Size n) (BitVec.ofNat 64 ea))

def ldSpBody (i : Instr) (d b w disp : Nat) (s : State) : Res State := do
  let n := memSize w
  let ea := s.memAddr b disp n
  need (aligned ea n) clsMem 3 (BitVec.ofNat 64 ea)
  match s.myCore.overflow ea n with
  | some va =>
    let r ← s.globalLoad i va va n none
    pure ((r.2.setSpov.landLoad d w r.1 1).trace 2 (log2Size n) (BitVec.ofNat 64 va))
  | none => do
    liftTrap (s.myCore.spCheck ea n false)
    s.spReady s.cur.die s.cur.core ea n false
    pure (s.landLoad d w (s.spBytes s.cur.die s.cur.core ea n) 6)

def stBody (d b w disp : Nat) (s : State) : Res State := do
  let n := memSize w
  let ea := s.memAddr b disp n
  need (aligned ea n) clsMem 3 (BitVec.ofNat 64 ea)
  let s1 ← s.globalStore ea (s.storeData d n) (some s.myFoot)
  pure (s1.trace 3 (log2Size n) (BitVec.ofNat 64 ea))

def stSpBody (d b w disp : Nat) (s : State) : Res State := do
  let n := memSize w
  let ea := s.memAddr b disp n
  need (aligned ea n) clsMem 3 (BitVec.ofNat 64 ea)
  match s.myCore.overflow ea n with
  | some va =>
    let s1 ← s.globalStore va (s.storeData d n) none
    pure (s1.setSpov.markEffect.trace 3 (log2Size n) (BitVec.ofNat 64 va))
  | none => do
    liftTrap (s.myCore.spCheck ea n true)
    s.spReady s.cur.die s.cur.core ea n true
    pure (s.spWrite s.cur.die s.cur.core ea (s.storeData d n))

def execLd (d b : BitVec 6) (w : BitVec 3) (i : BitVec 6) (g : BitVec 3) (s : State) : Out :=
  issue s { fC g (pairOk d.toNat w.toNat) with ext := true } (ldBody (.ld d b w i g) d.toNat b.toNat w.toNat i.toNat)

def execLdSp (d b : BitVec 6) (w : BitVec 3) (i : BitVec 6) (g : BitVec 3) (s : State) : Out :=
  issue s { fAll g (s.regs [d.toNat, b.toNat] ++ pairOk d.toNat w.toNat) with ext := true } (ldSpBody (.ldSp d b w i g) d.toNat b.toNat w.toNat i.toNat)

def execSt (d b : BitVec 6) (w : BitVec 3) (i : BitVec 6) (g : BitVec 3) (s : State) : Out :=
  issue s { fC g (pairOk d.toNat w.toNat) with eff := true, ext := true, wf := storeWidthOk w } (stBody d.toNat b.toNat w.toNat i.toNat)

def execStSp (d b : BitVec 6) (w : BitVec 3) (i : BitVec 6) (g : BitVec 3) (s : State) : Out :=
  issue s { fAll g (s.regs [d.toNat, b.toNat] ++ pairOk d.toNat w.toNat) with ext := true, wf := storeWidthOk w }
    (stSpBody d.toNat b.toNat w.toNat i.toNat)

/-! ### Atomics (R108 to R111) -/

/-- A little-endian operand of n bytes in X[d] or the pair X[d], X[d+1]. -/
def State.wide (s : State) (d n k : Nat) : Nat :=
  if n = 16 then (s.rx d k).toNat + 2 ^ 64 * (s.rx (d + 1) (k + 1)).toNat else (s.rx d k).toNat % 2 ^ (8 * n)

/-- The old value landed, zero-extended, in X[d] or the pair. -/
def State.landOld (s : State) (d n old lmax : Nat) : State :=
  if n = 16 then (s.landX d (BitVec.ofNat 64 old) lmax).landX (d + 1) (BitVec.ofNat 64 (old / 2 ^ 64)) lmax else s.landX d (BitVec.ofNat 64 old) lmax

/-- The new value of `atom` (R108): OP, size, old value, operand. -/
def atomNew (op n old v : Nat) : Nat :=
  let m := 2 ^ (8 * n)
  match op with
  | 0 => (old + v) % m
  | 1 => Nat.land old v
  | 2 => Nat.lor old v
  | 3 => Nat.xor old v
  | 4 => v
  | 5 => if sextI old (8 * n) < sextI v (8 * n) then v else old
  | 6 => if sextI v (8 * n) < sextI old (8 * n) then v else old
  | _ => (rne 0 (fAdd (decodeF 0 old) (decodeF 0 v)).1).1

/-- Whether a core's queued or posted stores share a byte with a place. -/
def State.storesAt (s : State) (key n : Nat) : Bool :=
  let on := fun (k : Nat) (data : List Byte) => decide (k < key + n) && decide (key < k + data.length)
  s.myCore.storeq.any (fun q => on q.key q.data)
    || s.posts.any (fun q => q.die = s.cur.die && q.core = s.cur.core && (match q.key with
        | some k => on k q.data
        | none => false))

/-- An atomic's access (R108 to R111, R291): the checks, what it waits for as a release, the request that leaves the core, and, as its reply comes, the
old value and the state with the new one. It is not checked against the footprint. -/
def State.atomGlobal (s : State) (i : Instr) (ea n sc : Nat) (det : Bool) (f : Nat → Nat) : Res (Nat × State) := do
  need (aligned ea n) clsMem 3 (BitVec.ofNat 64 ea)
  if inAperture ea then do
    s.apertureCheck ea n true none
    let t := apertureAt ea
    liftAt ea ((s.coreAt s.cur.die t.1).spCheck t.2 n true)
    need (!det) 6 1 (BitVec.ofNat 64 ea)
    await (s.reqOut i ea || sc = 0 || s.released) s
    await (s.reqOut i ea) (s.noteReq i ea true)
    s.spReady s.cur.die t.1 t.2 n true
    let old := bytesToNat (s.spBytes s.cur.die t.1 t.2 n)
    pure (old, (s.spWrite s.cur.die t.1 t.2 (natToBytes n (f old))).stampRemote s.cur.die t.1)
  else do
    let p ← liftAt ea (s.check s.myCtx none [0] ea n true)
    need (p.mtype = 0) clsMem 6 (BitVec.ofNat 64 ea)
    need (!det) 6 1 (BitVec.ofNat 64 ea)
    need (!s.inRecord s.myCtx ea n) clsUse subOBLIG
    await (s.reqOut i ea || (((sc = 0 && p.slot.isNone) || s.released) && !s.storesAt p.key n && s.myCore.inOrder s.cur.eng p.mtype)) s
    await (s.reqOut i ea) (s.noteReq i ea true)
    asReq i ea true (s.canWrite p.home none p n)
    let old := s.cohNat p.key n
    pure (old, s.putMem p.key p.keyNo (natToBytes n (f old)))

/-- A scratchpad atomic's access. -/
def State.atomScratch (s : State) (ea n : Nat) (det : Bool) (f : Nat → Nat) : Res (Nat × State) := do
  need (aligned ea n) clsMem 3 (BitVec.ofNat 64 ea)
  liftTrap (s.myCore.spCheck ea n true)
  need (!det) 6 1 (BitVec.ofNat 64 ea)
  s.spReady s.cur.die s.cur.core ea n false
  s.spReady s.cur.die s.cur.core ea n true
  let old := bytesToNat (s.spBytes s.cur.die s.cur.core ea n)
  pure (old, s.spWrite s.cur.die s.cur.core ea (natToBytes n (f old)))

/-- Whether the running task is in a deterministic phase (R108). -/
def State.inDet (s : State) : Bool :=
  match s.myTask with
  | some t => t.det
  | none => false

def atomBody (i : Instr) (d b o z c : Nat) (s : State) : Res State := do
  let n := 4 * 2 ^ z
  let ea := (s.rx b).toNat
  let r ← s.atomGlobal i ea n c (o = 7 && s.inDet) (fun old => atomNew o n old (s.wide d n 1))
  pure ((r.2.landOld d n r.1 1).trace 4 (log2Size n) (BitVec.ofNat 64 ea))

def casBody (i : Instr) (d b z c : Nat) (s : State) : Res State := do
  let n := 4 * 2 ^ z
  let ea := (s.rx b).toNat
  let k := if n = 16 then 2 else 1
  let r ← s.atomGlobal i ea n c false (fun old => if old = s.wide d n 1 then s.wide (d + k) n 3 else old)
  pure ((r.2.landOld d n r.1 1).trace 4 (log2Size n) (BitVec.ofNat 64 ea))

def atomSpBody (d b o z : Nat) (s : State) : Res State := do
  let n := 4 * 2 ^ z
  let r ← s.atomScratch (s.rx b).toNat n (o = 7 && s.inDet) (fun old => atomNew o n old (s.wide d n 1))
  pure ((r.2.landOld d n r.1 8).trace 4 (log2Size n) (s.rx b))

def casSpBody (d b z : Nat) (s : State) : Res State := do
  let n := 4 * 2 ^ z
  let k := if n = 16 then 2 else 1
  let r ← s.atomScratch (s.rx b).toNat n false (fun old => if old = s.wide d n 1 then s.wide (d + k) n 3 else old)
  pure ((r.2.landOld d n r.1 8).trace 4 (log2Size n) (s.rx b))

/-- The register alignment of `atom` and of `cas` (R108). -/
def atomRegs (d z : Nat) : List Nat := subUnless (!(z = 2 && d % 2 = 1)) subREGRANGE
def casRegs (d z : Nat) : List Nat := subUnless (if z = 2 then d % 4 = 0 else d % 2 = 0) subREGRANGE

def execAtom (d b : BitVec 6) (o : BitVec 3) (z c : BitVec 2) (g : BitVec 3) (s : State) : Out :=
  issue s { fC g (atomRegs d.toNat z.toNat) with eff := true, wf := atomOk o z } (atomBody (.atom d b o z c g) d.toNat b.toNat o.toNat z.toNat c.toNat)

def execCas (d b : BitVec 6) (z c : BitVec 2) (g : BitVec 3) (s : State) : Out :=
  issue s { fC g (casRegs d.toNat z.toNat) with eff := true, wf := z.toNat ≠ 3 } (casBody (.cas d b z c g) d.toNat b.toNat z.toNat c.toNat)

def execAtomSp (d b : BitVec 6) (o : BitVec 3) (z c : BitVec 2) (g : BitVec 3) (s : State) : Out :=
  issue s { fC g (atomRegs d.toNat z.toNat ++ subUnless (c.toNat = 0) subIMMRANGE) with eff := true, wf := atomOk o z }
    (atomSpBody d.toNat b.toNat o.toNat z.toNat)

def execCasSp (d b : BitVec 6) (z c : BitVec 2) (g : BitVec 3) (s : State) : Out :=
  issue s { fC g (casRegs d.toNat z.toNat ++ subUnless (c.toNat = 0) subIMMRANGE) with eff := true, wf := z.toNat ≠ 3 } (casSpBody d.toNat b.toNat z.toNat)

/-! ### Fences, flush signals and tokens -/

/-- `fence` (R112, R274, R283): at core scope only the stream's write-combining stores remain to be performed; beyond it, what a release orders. -/
def execFence (sc : BitVec 3) (g : BitVec 3) (s : State) : Out :=
  issue s { fC g with wf := sc.toNat ≤ 3 } fun s => do
    await (if sc.toNat = 0 then s.myCore.storeq.all (fun q => !(q.eng = s.cur.eng && q.mtype = 1)) else s.released) s
    pure s

/-- The import a handle names in a context, of one of the kinds (Table 16.4); NOTIMP and REVOKED as R304 gives them. -/
def State.importOf (s : State) (ctx : Nat) (h : Word) (kinds : List Nat) : Except TrapRec (Nat × ImportEnt) :=
  let w := h.toNat
  let slot := bits w 32 16
  let bad : Except TrapRec (Nat × ImportEnt) := .error { cls := clsHandle, sub := 1 }
  if bits w 48 10 ≠ 0 || decide (1023 < slot) then bad
  else match (s.ctxAt ctx).imports.find? (fun p => p.1 = slot) with
    | none => bad
    | some (_, e) =>
      if e.tag ≠ bits w 0 32 || e.kind ≠ bits w 60 4 || !kinds.contains e.kind then bad
      else if e.revoked then .error { cls := clsHandle, sub := 2 }
      else .ok (slot, e)

/-- DIEMAP.GEN (Table 16.1). -/
def State.gen (s : State) : Nat := bits s.mill.dieMap.toNat 48 16

/-- Flushes at the front that wait for nothing more complete in order (R114): FLDONE counts them, one that covers a dropped item is kept
for `tkwait` to report. -/
def settleFlushes (c : Core) : List Flush → Core
  | [] => { c with flushes := [] }
  | f :: fs =>
    if f.items.isEmpty then
      settleFlushes { c with fldone := BitVec.ofNat 32 f.seq, revokedFlush := if f.dropped then c.revokedFlush ++ [f.seq] else c.revokedFlush } fs
    else { c with flushes := f :: fs }

/-- The die-mask bits of a list of virtual dies. -/
def dieMask (vs : List Nat) : Nat := (upto 0 4).foldl (fun m v => if vs.contains v then m + 2 ^ v else m) 0

/-- `flsig` on the items it covers (R113): FLSEQ rises, the token lands, and the flush completes at once when nothing is outstanding. -/
def State.flush_ (s : State) (d : Nat) (covered : List OutItem) (mask : Nat) : State :=
  let c := s.myCore
  let seq := c.flseq + 1
  let f : Flush := { seq := seq.toNat, items := (covered.filter (fun i => !i.dropped)).map (·.pid), dropped := covered.any (·.dropped) }
  let c1 := settleFlushes { c with flseq := seq, flushMap := tSet 0 c.flushMap seq.toNat s.mill.dieMap } (c.flushes ++ [f])
  (s.setMyCore c1).landX d (BitVec.ofNat 64 (mask * 2 ^ 56 + s.gen % 256 * 2 ^ 48 + seq.toNat)) 2

def execFlsig (d a : BitVec 6) (g : BitVec 3) (s : State) : Out :=
  issue s (fC g) fun s => do
    let items := s.myCore.posted
    if a.toNat = 0 then
      pure (s.flush_ d.toNat items (dieMask ((items.filter (fun i => !i.dropped && !i.done)).filterMap (fun i => i.home.map s.vdie))))
    else do
      let e ← liftTrap (s.importOf s.myCtx (s.rx a.toNat) [1, 3])
      pure (s.flush_ d.toNat (items.filter (fun i => i.imp = e.2.uid)) (if e.2.foreign then 0 else dieMask [e.2.vdie]))

/-- The die map a token names: the one of its flush, where its generation is the token's; else the newest of that generation (R114). -/
def State.tokenMap (s : State) (seq gen : Nat) : Word :=
  let m := tGet 0 s.myCore.flushMap seq
  if m ≠ 0 && bits m.toNat 48 8 = gen then m
  else ((s.mill.mapLog ++ [s.mill.dieMap]).reverse.find? (fun m => bits m.toNat 48 8 = gen)).getD s.mill.dieMap

/-- Whether a virtual die in a token's mask no longer names the die it named under the token's generation (R114). -/
def State.remapped (s : State) (mask seq gen : Nat) : Bool :=
  let old := s.tokenMap seq gen
  (upto 0 4).any (fun v => bit mask v && decide (bits old.toNat (4 + 4 * v) 4 ≠ bits s.mill.dieMap.toNat (4 + 4 * v) 4))

def execTkwait (d a : BitVec 6) (g : BitVec 3) (s : State) : Out :=
  issue s (fC g) fun s => do
    let t := (s.rx a.toNat).toNat
    let seq := BitVec.ofNat 32 t
    let c := s.myCore
    need (diff32 seq c.flseq ≤ 0) clsUse 3
    await (diff32 seq c.fldone ≤ 0) s
    pure (s.landX d.toNat (BitVec.ofNat 64 (b2n (s.remapped (bits t 56 8) seq.toNat (bits t 48 8)) + 2 * b2n (c.revokedFlush.contains seq.toNat))) 1)

end Sys2Proof.Machine
end

