-- ==== Sys2Proof/Machine/Chain.lean ====
section
/-! DEFINITION. Accumulator chains (R193 to R217): arming, hops, freezing, the close (R69, R73, R204), and every chain instruction (R209 to
R216). -/

namespace Sys2Proof.Machine

/-! ### Tiles of elements -/

/-- The table of the values of `f` at rising keys. -/
def tabOf {α : Type} [DecidableEq α] (d : α) (f : Nat → α) : List Nat → Tab α
  | [] => []
  | k :: ks => if f k = d then tabOf d f ks else (k, f k) :: tabOf d f ks

/-- Elements of a 64 × 64 tile by 64 · row + column. -/
def tileKeys : List Nat := upto 0 4096

/-- The format code of a HOPF field (Table 10.4). -/
def hopFmt (h : Nat) : Nat :=
  match h with
  | 0 => 0x00
  | 1 => 0x01
  | _ => 0x07

/-- A link as it is armed (R195). -/
def Link.armed (l : Link) : Link :=
  { l with state := .armed, pre := .idle, issued := 0, recv := 0, inrcv := false, partialAdd := false, needSplice := false, lost := false,
           formed := false, rearm := false, tasks := [], prog := {}, sum := [], inc := [] }

/-- A link after the close that ends its round: armed, or frozen with ARMED to return to (R204, R207). -/
def Link.rearmed (l : Link) : Link :=
  if l.state = .frozen then { l.armed with state := .frozen, pre := .armed, needSplice := l.needSplice, lost := l.lost } else l.armed

/-- The state a link holds apart from a freeze. -/
def Link.eff (l : Link) : LinkState := if l.state = .frozen then l.pre else l.state

/-- The slot keys of a chain, head first. -/
def Chain.keys (c : Chain) : List Nat := c.links.map (·.key)

/-- Whether a die is away from the fabric: in a warm reset or lost. -/
def State.dieAway (s : State) (die : Nat) : Bool := (s.dieAt die).warm || (s.dieAt die).lost

/-- Whether the core of a link runs for the link's context (R125, R217) and its die is there. -/
def State.linkLive (s : State) (r : LinkRef) : Bool :=
  (s.partOfCore r.die r.core).halt.isNone && (s.partOfCore r.die r.core).ctx = some (slotCtx r.key) && !s.dieAway r.die

/-! ### Forming a sum and sending it on (R201) -/

/-- One element's value and flags: the incoming value plus the local sum, rounded once to the hop format. -/
def hopElem (inFmt outFmt : Nat) (first : Bool) (inc : BitVec 40) (sum : BitVec 32) : Nat × Flags :=
  let x := decodeF 0 sum.toNat
  let a := if first then (x, 0) else fAdd (decodeF inFmt inc.toNat) x
  let r := rne outFmt a.1
  (r.1, a.2 ||| r.2)

/-- The flags of a list of elements. -/
def orFlagsOf (f : Nat → Flags) : List Nat → Flags
  | [] => 0
  | k :: ks => f k ||| orFlagsOf f ks

/-- Form the sum of the link at a position, if both its inputs are complete, nothing is frozen and the core runs: it is sent onward, or held
for the close at the tail. -/
def State.tryForm (s : State) (ctx chain i : Nat) : State :=
  let ch := s.chainAt ctx chain
  match ch.links[i]? with
  | none => s
  | some r =>
    let l := s.linkAt r.key
    if ch.frozen || l.formed || l.recv < l.decl || (i ≠ 0 && !l.inrcv) || !s.linkLive r then s
    else
      let inFmt := match ch.links[i - 1]? with
        | some q => hopFmt (s.linkAt q.key).hopf
        | none => 0
      let elem := fun k => hopElem inFmt (hopFmt l.hopf) (i = 0) (tGet 0 l.inc k) (tGet 0 l.sum k)
      let vals := tabOf 0 (fun k => BitVec.ofNat 40 (elem k).1) tileKeys
      let s1 := s.setCoreAt r.die r.core ((s.coreAt r.die r.core).orFlags (orFlagsOf (fun k => (elem k).2) tileKeys))
      if i + 1 < ch.links.length then
        { s1.setLink r.key { l with state := .sent, formed := true } with hops := s1.hops ++ [⟨ctx, chain, i + 1, vals⟩] }
      else s1.setLink r.key { l with state := .sent, formed := true, inc := vals }

/-- `tryForm` at every position of a chain. -/
def State.formChain (s : State) (ctx chain : Nat) : State :=
  (upto 0 (s.chainAt ctx chain).links.length).foldl (fun s i => s.tryForm ctx chain i) s

/-- `formChain` of every chain: what was held back by halted cores goes on (R125). -/
def State.formAll (s : State) : State := s.chains.foldl (fun s p => s.formChain p.2.ctx p.2.num) s

/-- A link counts a landed contribution (R198); the local sum that completes moves it on, or changes the state it returns to (R207). -/
def Link.landed (l : Link) : Link :=
  let l := { l with recv := l.recv + 1 }
  if l.recv < l.decl then l
  else
    let st : LinkState := if l.posn = 0 then .sent else .ready
    if l.state = .frozen then { l with pre := st } else { l with state := st }

/-! ### Freezing (R206) -/

/-- Freeze a chain: the first event sets CAUSE and FPOS, of events in one clk the one that names the lowest position; `marks` are the positions marked NEEDSPLICE, `named` the lowest position named. -/
def State.freeze (s : State) (ctx chain cause named : Nat) (marks : List Nat) (lost : Bool) : State :=
  let ch := s.chainAt ctx chain
  let s := if ch.frozen then (if ch.frozenAt = s.now && decide (named < ch.fpos) then s.setChain { ch with cause := cause, fpos := named } else s)
    else
      let s := ch.keys.foldl (fun s k => let l := s.linkAt k; s.setLink k { l with pre := l.state, state := .frozen }) s
      s.setChain { ch with frozen := true, cause := cause, fpos := named, frozenAt := s.now }
  marks.foldl (fun s i => match ch.links[i]? with
    | some r => let l := s.linkAt r.key; s.setLink r.key { l with needSplice := true, lost := l.lost || lost }
    | none => s) s

/-- The positions of a chain whose links satisfy a condition. -/
def State.positions (s : State) (ch : Chain) (ok : LinkRef → Link → Bool) : List Nat :=
  (upto 0 ch.links.length).filter (fun i => match ch.links[i]? with
    | some r => ok r (s.linkAt r.key)
    | none => false)

/-- Freeze every chain that has links the event names. -/
def State.freezeAll (s : State) (cause : Nat) (mark lost : Bool) (named : State → Chain → List Nat) : State :=
  s.chains.foldl (fun s p =>
    match named s p.2 with
    | [] => s
    | i :: is => s.freeze p.2.ctx p.2.num cause i (if mark then i :: is else []) lost) s

/-- KILL: the task issued a contribution of the round into a link not yet SENT. -/
def State.freezeTask (s : State) (task : Nat × Nat × Nat) : State :=
  s.freezeAll 1 false false (fun s ch => s.positions ch (fun _ l => l.eff ≠ .sent && l.tasks.contains task))

/-- Whether a core holds the planes of a link's context: until a switch-out has saved them (R135, R217). -/
def State.planesHere (s : State) (key : Nat) : Bool := !(s.ctxAt (slotCtx key)).outFull

/-- UNCORR: links on a physical core, one of which is not SENT. -/
def State.freezeUncorr (s : State) (die core : Nat) : State :=
  s.freezeAll 2 true false (fun s ch =>
    let on := s.positions ch (fun r _ => slotPhys r.key = die * Config.physPerDie + s.physOf die core && s.planesHere r.key)
    if on.any (fun i => match ch.links[i]? with
      | some r => (s.linkAt r.key).eff ≠ .sent
      | none => false) then on else [])

/-- LOST by the revocation of an export. -/
def State.freezeExport (s : State) (exp : Nat) : State := s.freezeAll 5 true true (fun s ch => s.positions ch (fun r _ => r.via = some exp))

/-- LOST by the loss of a die. -/
def State.freezeDie (s : State) (die : Nat) : State := s.freezeAll 5 true true (fun s ch => s.positions ch (fun r _ => r.die = die))

/-- LOST by a warm reset (R217): a link there is not SENT, or the tail is there. -/
def State.freezeWarm (s : State) (die : Nat) : State :=
  s.freezeAll 5 true true (fun s ch =>
    let on := s.positions ch (fun r _ => r.die = die)
    let tailThere := match ch.links.getLast? with
      | some r => r.die = die
      | none => false
    if tailThere || on.any (fun i => match ch.links[i]? with
      | some r => (s.linkAt r.key).eff ≠ .sent
      | none => false) then on else [])

/-- REMAP (R138): links whose virtual die names another die now. -/
def State.freezeRemap (s : State) (ctx : Nat) : State :=
  s.freezeAll 3 true false (fun s ch => if ch.ctx = ctx then s.positions ch (fun r _ => s.pdie r.vdie ≠ some r.die) else [])

/-! ### Scoreboard entries of asynchronous work -/

/-- The current core with entries of a command's ranges (R23): (low, length, write). -/
def Core.enter (c : Core) (owner : Owner) (rs : List (Nat × Nat × Bool)) : Core :=
  { c with sb := c.sb ++ (rs.filter (fun r => r.2.1 ≠ 0)).map (fun r =>
      let q := round64 r.1 (r.1 + r.2.1)
      { num := c.issueNo, lo := q.1, hi := q.2, write := r.2.2, owner := owner }), issueNo := c.issueNo + 1 }

/-- The entries of a command freed as it lands. -/
def Core.leave (c : Core) (owner : Owner) : Core := { c with sb := c.sb.filter (fun e => e.owner ≠ owner) }

/-! ### The close (R204) -/

/-- Owner number of a chain's close. -/
def closeOwner (ctx chain : Nat) : Owner := .close (ctx * 256 + chain)

/-- Whether a close finds no link of its chain on a halted core (R125); links of a die that is away do not hold it (R217). -/
def State.closeFree (s : State) (ch : Chain) : Bool := ch.links.all (fun r => s.linkLive r || s.dieAway r.die)

/-- Whether a chain's close may start. -/
def State.closeReady (s : State) (ch : Chain) : Bool :=
  match ch.close, ch.links.getLast? with
  | some q, some r => !q.started && !ch.frozen && (s.linkAt r.key).state = .sent && (s.linkAt r.key).formed && s.linkLive r && s.closeFree ch
  | _, _ => false

/-- Whether a checkpointed task's image is that of the core which issued a chain's close (R256). -/
def Ckpt.closes (k : Ckpt) (ch : Chain) (q : CloseReq) : Bool :=
  k.die = ch.home && k.core = q.core && k.image.sb.any (fun e => e.owner = closeOwner ch.ctx ch.num)

/-- The core a close acts on: the one that issued it, also where a splice has moved the tail since (DESIGN CHOICE, log 66), or its image while the
task is checkpointed. -/
def State.closeCore (s : State) (ch : Chain) (q : CloseReq) : Core :=
  match s.ckpts.find? (fun k => k.closes ch q) with
  | some k => k.image
  | none => s.coreAt ch.home q.core

def State.setCloseCore (s : State) (ch : Chain) (q : CloseReq) (c : Core) : State :=
  if s.ckpts.any (fun k => k.closes ch q) then { s with ckpts := s.ckpts.map (fun k => if k.closes ch q then { k with image := c } else k) }
  else s.setCoreAt ch.home q.core c

/-- CLOSE_START: the row is resolved on the tail core and the seed read (R72, R64). -/
def State.closeStart (s : State) (ch : Chain) : State :=
  match ch.close with
  | none => s
  | some q =>
    let c := s.closeCore ch q
    let cfg := c.resolveRow q.row
    s.setChain { ch with close := some { q with started := true, cfg := cfg, thresh := bits (c.cfgRow q.row).toNat 16 16, seed := tGet 0 c.seeds (bits cfg.toNat 39 3) } }

/-- One element of a close (R69): its code, its flags, and whether it counts as clipped. -/
def closeElem (q : CloseReq) (inFmt chain closes k : Nat) (v : BitVec 40) : Nat × Flags × Bool :=
  let ofmt := bits q.cfg.toNat 46 6
  let f := fmtOf ofmt
  let a := flushIn inFmt q.flush (decodeF inFmt v.toNat)
  let y := fMul a.1 (decodeF 0 q.scale.toNat)
  let m := largestOf f
  let big : FVal := .fin false m.1 m.2
  let cut := q.clip && y.1 ≠ .nan && fLt big (fAbs y.1)
  let y1 : FVal := if cut then .fin (fSign y.1) m.1 m.2 else y.1
  let h := sr24 q.seed (BitVec.ofNat 16 (0x8000 + chain)) (BitVec.ofNat 32 closes) k
  let r := roundTo ofmt y1 (bits q.cfg.toNat 42 3) (bit q.cfg.toNat 38) q.flush h
  (r.1, a.2 ||| y.2 ||| r.2 ||| (if cut then fCL else 0), cut || decide (r.2 &&& fOF ≠ 0))

/-- An element stored: bytes, or a nibble whose byte keeps its other half (R54). -/
def putElem (m : Mem) (w off c code : Nat) : Mem :=
  if w = 4 then
    let b := (tGet 0 m off).toNat
    tSet 0 m off (BitVec.ofNat 8 (if c % 2 = 1 then b % 16 + code % 16 * 16 else b / 16 * 16 + code % 16))
  else mWriteN m off (w / 8) code

/-- The positions a close writes, in its order. -/
def closeKeys (rows cols : Nat) : List Nat := (upto 0 rows).flatMap (fun r => (upto 0 cols).map (fun c => 64 * r + c))

/-- The tile written into a scratchpad. -/
def closeWrite (q : CloseReq) (w : Nat) (elem : Nat → Nat × Flags × Bool) (m : Mem) : List Nat → Mem
  | [] => m
  | k :: ks => closeWrite q w elem (putElem m w (q.dst + k / 64 * q.stride + k % 64 * w / 8) (k % 64) (elem k).1) ks

/-- CLOSE_LAND: the tile is written, the flags and clip count recorded (R73), the chain re-armed, the scoreboard entry freed. -/
def State.closeLand (s : State) (ch : Chain) (q : CloseReq) (tail : LinkRef) : State :=
  let l := s.linkAt tail.key
  let elem := fun k => closeElem q (hopFmt l.hopf) ch.num ch.closes.toNat k (tGet 0 l.inc k)
  let keys := closeKeys q.rows q.cols
  let w := (fmtOf (bits q.cfg.toNat 46 6)).width
  let count := (keys.filter (fun k => (elem k).2.2)).length
  let c := s.closeCore ch q
  let st := tGet 0 c.fmtStat q.row
  let pend := decide (q.thresh < count) && !st.getLsbD 30
  let st1 := if pend then st ||| 0x80000000#32 else st
  let fb := if pend && !st.getLsbD 31 then tSet 0 c.fbAt q.row (s.now + 1) else c.fbAt
  let c1 := ({ c with scratch := closeWrite q w elem c.scratch keys, fmtStat := tSet 0 c.fmtStat q.row st1, fbAt := fb } : Core).orFlags
    (orFlagsOf (fun k => (elem k).2.1) keys)
  let s1 := s.setCloseCore ch q (c1.leave (closeOwner ch.ctx ch.num))
  let s2 := (c.mapped q.dst (q.stride * (q.rows - 1) + 4 * q.cols)).foldl (fun s u => s.markSector ch.home q.core u) s1
  let s3 := ch.links.foldl (fun s r => s.setLink r.key (if s.dieAway r.die then { s.linkAt r.key with rearm := true } else (s.linkAt r.key).rearmed)) s2
  s3.setChain { ch with close := none, closes := ch.closes + 1, lastClip := BitVec.ofNat 16 (min count 0xFFFF) }

/-! ### The instructions -/

/-- Illegal-use subcodes of R208. -/
def subNOLINK : Nat := 0x17
def subCHNONE : Nat := 0x18
def subCHBUSY : Nat := 0x19
def subCHDESC : Nat := 0x1A
def subCHSLOT : Nat := 0x1B
def subCHWHERE : Nat := 0x1C
def subCHSTATE : Nat := 0x1D
def subCHPARAM : Nat := 0x1E
def subCHLOST : Nat := 0x1F

/-- The chain an instruction names: it exists (CHNONE), and this is a core of its home die (CHWHERE). -/
def State.needChain (s : State) (c : Nat) : Res Chain := do
  let ch := s.chainAt s.myCtx c
  need (ch.links ≠ []) clsUse subCHNONE
  need (ch.home = s.cur.die) clsUse subCHWHERE
  pure ch

/-- A link entry of Table 10.4 taken apart. -/
structure LinkEntry where
  handle : Nat
  decl   : Nat
  core   : Nat
  slot   : Nat
  hopf   : Nat
  spare  : Bool
  clear  : Bool
  rsv    : Nat
  posn   : Nat

def linkEntry (w0 w1 : Nat) : LinkEntry :=
  { handle := w0, decl := bits w1 48 16, core := bits w1 40 8, slot := bits w1 36 4, hopf := bits w1 34 2, spare := bit w1 33, clear := bit w1 32,
    rsv := bits w1 6 26, posn := bits w1 0 6 }

/-- The place a HANDLE names (R209, R304): its context, physical die, partition, virtual die and export. -/
structure LinkHome where
  ctx  : Nat
  die  : Nat
  part : Nat
  vdie : Nat
  via  : Option Nat

def State.linkHome (s : State) (h addr : Nat) : Res LinkHome := do
  if h = 0 then pure ⟨s.myCtx, s.cur.die, s.partOf s.cur.die s.cur.core, s.vdie s.cur.die, none⟩
  else
    let e ← liftAt addr (s.importOf s.myCtx (BitVec.ofNat 64 h) [2])
    match s.exportOf e.2.exp with
    | some x => pure ⟨x.ctx, x.die, (s.ctxAt x.ctx).part, e.2.vdie, some e.2.exp⟩
    | none => stopTrap clsHandle 2 (BitVec.ofNat 64 addr)

/-- The checks of `chbuild` entry by entry (R209), with the links so far. -/
def State.buildEntries (s : State) (base n : Nat) (words : Nat → Nat) : Nat → Nat → List LinkRef → List LinkEntry → Res (List (LinkRef × LinkEntry × Nat))
  | 0, _, _, _ => pure []
  | k + 1, i, refs, es => do
    let addr := base + 16 + 16 * i
    let a := BitVec.ofNat 64 addr
    let e := linkEntry (words (2 + 2 * i)) (words (3 + 2 * i))
    let h ← s.linkHome e.handle addr
    need (e.decl ≠ 0 && decide (e.core ≤ 159) && e.hopf ≠ 3 && !e.spare && !e.clear && e.posn = 0 && e.rsv = 0) clsUse subCHDESC a
    need ((s.coresOf h.die h.part).contains e.core) clsUse subCHDESC a
    let key := s.linkKey h.ctx h.die e.core e.slot
    need (!(e.hopf = 1 && i + 1 = n) && !refs.any (fun r => r.key = key)) clsUse subCHDESC a
    need ((s.linkAt key).state = .idle) clsUse subCHSLOT a
    let r : LinkRef := { via := h.via, handle := BitVec.ofNat 64 e.handle, vdie := h.vdie, die := h.die, core := e.core, slot := e.slot, key := key }
    let rest ← s.buildEntries base n words k (i + 1) (refs ++ [r]) (es ++ [e])
    pure ((r, e, h.ctx) :: rest)

/-- Consecutive global words read as one request of the instruction, known by the address `base`, and the state with their owner tags. -/
def State.globalWords (s : State) (i : Instr) (base : Nat) : Nat → Nat → Res (List Nat × State)
  | 0, _ => pure ([], s)
  | m + 1, va => do
    let r ← s.globalLoad i base va 8 (some s.myFoot)
    let rest ← r.2.globalWords i base m (va + 8)
    pure (bytesToNat r.1 :: rest.1, rest.2)

/-- The words of a descriptor: global words are checked by R103 steps 1 to 3 and waited for, scratchpad words by R104 and the scoreboard. -/
def State.descWords (s : State) (i : Instr) (scratch : Bool) (base n : Nat) : Res ((Nat → Nat) × State) := do
  if scratch then
    liftTrap (s.myCore.spCheck base n false)
    s.spReady s.cur.die s.cur.core base n false
    pure (fun k => bytesToNat (s.spBytes s.cur.die s.cur.core (base + 8 * k) 8), s)
  else
    let ws ← s.globalWords i base (n / 8) base
    pure (fun k => ws.1.getD k 0, ws.2)

/-- The chain built and every link armed (R209). -/
def State.build (s : State) (c : Nat) (ls : List (LinkRef × LinkEntry × Nat)) : State :=
  let ctx := s.myCtx
  let s1 := s.setChain { ctx := ctx, num := c, home := s.cur.die, links := ls.map (·.1) }
  (ls.zip (upto 0 ls.length)).foldl (fun s p =>
    s.setLink p.1.1.key ({ own := p.1.2.2, ctx := ctx, chain := c, posn := p.2, decl := p.1.2.1.decl, hopf := p.1.2.1.hopf } : Link).armed) s1

/-- Fields of class CH: a and b below 16 (R85), a marked-0 field zero. -/
def chForm (g : BitVec 3) (a b : BitVec 6) : Form := { fM g (subUnless (a.toNat < 16 && b.toNat < 16) subREGRANGE) with eff := true }

/-- `chbuild` (R209). CHBUSY comes before MISALIGN, and a header's CHDESC reports the descriptor's address: the spec orders and names neither (DESIGN
CHOICE, log 66). -/
def chbuildBody (i : Instr) (c : Nat) (a : Nat) (f : Bool) (s : State) : Res State := do
  let base := (s.rx a).toNat
  need ((s.chainAt s.myCtx c).links = []) clsUse subCHBUSY
  need (aligned base 16) clsMem 3 (BitVec.ofNat 64 base)
  let hd ← s.descWords i f base 16
  let n := hd.1 0
  need (1 ≤ n && n ≤ 64 && hd.1 1 = 0) clsUse subCHDESC (BitVec.ofNat 64 base)
  let ws ← s.descWords i f base (16 + 16 * n)
  let ls ← s.buildEntries base n ws.1 n 0 [] []
  pure (ws.2.build c ls)

def execChbuild (c : BitVec 8) (a : BitVec 6) (f : BitVec 1) (g : BitVec 3) (s : State) : Out :=
  issue s (chForm g a 0) (chbuildBody (.chbuild c a f g) c.toNat a.toNat (f = 1))

/-- The tail of a chain. -/
def Chain.tail (c : Chain) : Option LinkRef := c.links.getLast?

def chcloseBody (c a b : Nat) (clip : Bool) (s : State) : Res State := do
  let ch := s.chainAt s.myCtx c
  need (ch.links ≠ []) clsUse subCHNONE
  let w := (s.rx b 1).toNat
  let dst := (s.rx a).toNat
  let rows := bits w 49 6 + 1
  let cols := bits w 55 6 + 1
  let stride := bits w 32 16
  need (match ch.tail with
    | some r => slotPhys r.key = slotPhys (s.linkKey 0 s.cur.die s.cur.core 0)
    | none => false) clsUse subCHWHERE
  need ch.close.isNone clsUse subCHSTATE
  need (bits w 61 3 = 0 && !bit w 48 && aligned dst 4 && aligned stride 4 && decodeF 0 w ≠ .nan) clsUse subCHPARAM
  let len := stride * (rows - 1) + 4 * cols
  liftTrap (s.myCore.spCheck dst len true)
  s.spReady s.cur.die s.cur.core dst len true
  let q : CloseReq := { core := s.cur.core, dst := dst, rows := rows, cols := cols, stride := stride, scale := BitVec.ofNat 32 w, clip := clip,
                        row := s.rowOf, flush := s.flush }
  pure ((s.setMyCore (s.myCore.enter (closeOwner s.myCtx c) [(dst, len, true)])).setChain { ch with close := some q })

def execChclose (c : BitVec 8) (a b : BitVec 6) (f : BitVec 1) (g : BitVec 3) (s : State) : Out :=
  issue s { chForm g a b with fmt := true } (chcloseBody c.toNat a.toNat b.toNat (f = 1))

/-- A link state's code (Table 10.1). -/
def LinkState.code : LinkState → Nat
  | .idle => 0
  | .armed => 1
  | .filling => 2
  | .ready => 3
  | .sent => 4
  | .frozen => 5

/-- The report's words of one link (Table 10.6). -/
def State.linkReport (s : State) (r : LinkRef) : List Nat :=
  let l := s.linkAt r.key
  [l.decl % 2 ^ 16 * 2 ^ 48 + l.recv % 2 ^ 16 * 2 ^ 32 + l.issued % 2 ^ 16 * 2 ^ 16 + l.state.code * 2 ^ 13
      + (if l.state = .frozen then l.pre.code else 0) * 2 ^ 10 + b2n l.needSplice * 2 ^ 9 + b2n l.partialAdd * 2 ^ 8 + b2n l.inrcv * 2 ^ 7 + b2n l.lost * 2 ^ 6,
   r.core * 2 ^ 40 + r.vdie % 4 * 2 ^ 38 + r.slot * 2 ^ 34 + l.hopf * 2 ^ 32, (l.prog.word l.partialAdd).toNat, 0]

/-- The report of a chain. -/
def State.chainReport (s : State) (ch : Chain) : List Nat :=
  [ch.closes.toNat * 2 ^ 32 + (if ch.frozen then ch.fpos % 256 else 0xFF) * 2 ^ 24 + (if ch.frozen then ch.cause else 0) * 2 ^ 20 + b2n ch.frozen * 2 ^ 15
      + b2n ch.close.isSome * 2 ^ 14 + ch.links.length, ch.lastClip.toNat, 0, 0] ++ ch.links.flatMap s.linkReport

/-- Words as bytes. -/
def wordsBytes (ws : List Nat) : List Byte := ws.flatMap (natToBytes 8)

def chstatBody (c a : Nat) (s : State) : Res State := do
  let ch ← s.needChain c
  let dst := (s.rx a).toNat
  need (aligned dst 8) clsMem 3 (BitVec.ofNat 64 dst)
  let n := 32 + 32 * ch.links.length
  liftTrap (s.myCore.spCheck dst n true)
  s.spReady s.cur.die s.cur.core dst n true
  pure (s.spWrite s.cur.die s.cur.core dst (wordsBytes (s.chainReport ch)))

def execChstat (c : BitVec 8) (a : BitVec 6) (g : BitVec 3) (s : State) : Out := issue s (chForm g a 0) (chstatBody c.toNat a.toNat)

/-- Whether a physical core has failed (R214), a core retired since among them. -/
def State.physFailed (s : State) (die phys : Nat) : Bool := (s.dieAt die).failed.contains phys || (s.dieAt die).retired.contains phys

/-- A free spare of a die (R11): a physical core above the enabled 160 that serves no logical core, has not failed and is not retired. -/
def State.freeSpare (s : State) (die : Nat) : Option Nat :=
  (upto Config.coresPerDie (Config.physPerDie - Config.coresPerDie)).find? (fun p =>
    !(s.dieAt die).phys.any (fun q => q.2 = p) && !s.physFailed die p)

/-- A spare bound to a logical core. -/
def State.bindSpare (s : State) (die core p : Nat) : State := s.setDieAt die { s.dieAt die with phys := tSet core (s.dieAt die).phys core p }

/-- The state that a new link's counts imply (R213). -/
def impliedState (l : Link) : LinkState :=
  if l.recv < l.decl then (if l.recv = 0 then .armed else .filling)
  else if l.formed || l.posn = 0 then .sent else .ready

/-- The new link of a splice: the old one's counts and values, or empty. -/
def splicedLink (old : Link) (own : Nat) (clear : Bool) : Link :=
  let l : Link := if clear then { old with sum := [], inc := [], recv := 0, partialAdd := false, inrcv := false, formed := false, prog := {} } else old
  let l := { l with own := own, issued := l.recv, needSplice := false, lost := false, state := .frozen, tasks := [] }
  { l with pre := impliedState l }

/-- A failed core that holds no link any more is retired, and its logical core keeps its spare, if one is bound (R214). -/
def State.retireFailed (s : State) (die phys : Nat) : State :=
  if (s.dieAt die).failed.contains phys && !s.links.any (fun p => slotPhys p.1 = die * Config.physPerDie + phys && p.2.state ≠ .idle) then
    s.setDieAt die { s.dieAt die with failed := (s.dieAt die).failed.filter (· ≠ phys), retired := (s.dieAt die).retired ++ [phys] }
  else s

/-- Position POS of the chain now names a new link. -/
def State.splice (s : State) (ch : Chain) (pos : Nat) (oldRef newRef : LinkRef) (own : Nat) (clear : Bool) : State :=
  let old := s.linkAt oldRef.key
  let s1 := if s.dieAway oldRef.die then s else s.setLink oldRef.key {}
  let s2 := s1.setLink newRef.key (splicedLink old own clear)
  (s2.setChain { ch with links := setNth ch.links pos newRef }).retireFailed oldRef.die (slotPhys oldRef.key % Config.physPerDie)

def chspliceBody (c a b : Nat) (s : State) : Res State := do
  let ch ← s.needChain c
  let ea := (s.rx a).toNat
  need (aligned ea 16) clsMem 3 (BitVec.ofNat 64 ea)
  liftTrap (s.myCore.spCheck ea 16 false)
  s.spReady s.cur.die s.cur.core ea 16 false
  let w := fun k => bytesToNat (s.spBytes s.cur.die s.cur.core (ea + 8 * k) 8)
  let e := linkEntry (w 0) (w 1)
  need ch.frozen clsUse subCHSTATE
  need (e.rsv = 0) clsUse subCHPARAM
  match ch.links[e.posn]? with
  | none => stopTrap clsUse subCHPARAM
  | some oldRef => do
    let h ← s.linkHome e.handle 0
    need ((s.coresOf h.die h.part).contains e.core) clsUse subCHDESC
    let old := s.linkAt oldRef.key
    let oldPhys := slotPhys oldRef.key % Config.physPerDie
    need (!(e.spare && (e.core ≠ oldRef.core || !s.physFailed oldRef.die oldPhys))) clsUse subCHPARAM
    need (!old.lost || e.clear) clsUse subCHLOST
    let p := s.physOf h.die e.core
    need (e.spare || !s.physFailed h.die p) clsUse subCHSLOT
    let mk := fun (phys : Nat) =>
      LinkRef.mk h.via (BitVec.ofNat 64 e.handle) h.vdie h.die e.core e.slot (h.ctx * 2 ^ 20 + (h.die * Config.physPerDie + phys) * 16 + e.slot)
    if !e.spare || !s.physFailed h.die p then do
      need ((s.linkAt (mk p).key).state = .idle) clsUse subCHSLOT
      pure ((s.splice ch e.posn oldRef (mk p) h.ctx e.clear).landX b 0 2)
    else match s.freeSpare h.die with
      | none => pure (s.landX b 1 2)
      | some q => pure (((s.bindSpare h.die e.core q).splice ch e.posn oldRef (mk q) h.ctx e.clear).landX b 0 2)

def execChsplice (c : BitVec 8) (a b : BitVec 6) (g : BitVec 3) (s : State) : Out := issue s (chForm g a b) (chspliceBody c.toNat a.toNat b.toNat)

def chhaltBody (c : Nat) (s : State) : Res State := do
  let ch ← s.needChain c
  pure (s.freeze ch.ctx ch.num 4 0xFF [] false)

def execChhalt (c : BitVec 8) (g : BitVec 3) (s : State) : Out := issue s (chForm g 0 0) (chhaltBody c.toNat)

/-- Every link back in the state it held, and R201 applied at once (R215). -/
def State.thaw (s : State) (ch : Chain) : State :=
  let s1 := ch.keys.foldl (fun s k => let l := s.linkAt k; s.setLink k { l with state := l.pre, pre := .idle }) s
  (s1.setChain { ch with frozen := false, cause := 0, fpos := 0xFF }).formChain ch.ctx ch.num

def chthawBody (c : Nat) (s : State) : Res State := do
  let ch ← s.needChain c
  need (ch.frozen && !ch.keys.any (fun k => (s.linkAt k).needSplice)) clsUse subCHSTATE
  pure (s.thaw ch)

def execChthaw (c : BitVec 8) (g : BitVec 3) (s : State) : Out := issue s (chForm g 0 0) (chthawBody c.toNat)

/-- Whether a core has an operation into a link of the chain. -/
def Core.opsInto (c : Core) (ch : Chain) : Bool := c.ops.any (fun o => ch.keys.contains o.link)

/-- Whether a hop of the chain is in flight, or an operation into its links in progress: on a core, in a checkpointed task's image, or on a core that a
switched-out context saved (R216). -/
def State.chainBusy (s : State) (ch : Chain) : Bool :=
  s.hops.any (fun h => h.ctx = ch.ctx && h.chain = ch.num) || s.cores.any (fun p => p.2.opsInto ch) || s.ckpts.any (fun k => k.image.opsInto ch)
    || s.ctxs.any (fun p => p.2.saved.any (fun q => q.2.opsInto ch))

/-- Every reachable link IDLE and the name free (R216). -/
def State.release (s : State) (ch : Chain) : State :=
  let s1 := ch.links.foldl (fun s r => (if s.dieAway r.die then s else s.setLink r.key {}).retireFailed r.die (slotPhys r.key % Config.physPerDie)) s
  s1.delChain ch.ctx ch.num

def chrelBody (c : Nat) (s : State) : Res State := do
  let ch ← s.needChain c
  need ch.close.isNone clsUse subCHSTATE
  await (!s.chainBusy ch) s
  pure (s.release ch)

def execChrel (c : BitVec 8) (g : BitVec 3) (s : State) : Out := issue s (chForm g 0 0) (chrelBody c.toNat)

/-- The bytes `chread` writes (R212). -/
def readTile (l : Link) (incoming : Bool) : List Byte :=
  if incoming then tileKeys.flatMap (fun k => natToBytes 8 (if l.inrcv then (tGet 0 l.inc k).toNat else 0))
  else tileKeys.flatMap (fun k => natToBytes 4 (tGet 0 l.sum k).toNat)

def chreadBody (c a b : Nat) (f : Bool) (s : State) : Res State := do
  let ch ← s.needChain c
  let w := (s.rx b 1).toNat
  let dst := (s.rx a).toNat
  need ch.frozen clsUse subCHSTATE
  need (decide (w < ch.links.length) && !(f && w = 0)) clsUse subCHPARAM
  let l := s.linkAt (ch.keys.getD w 0)
  need (!l.lost) clsUse subCHLOST
  need (aligned dst 64) clsUse subOBLIG
  let n := if f then 32768 else 16384
  liftTrap (s.myCore.spCheck dst n true)
  s.spReady s.cur.die s.cur.core dst n true
  pure (s.spWrite s.cur.die s.cur.core dst (readTile l f))

def execChread (c : BitVec 8) (a b : BitVec 6) (f : BitVec 1) (g : BitVec 3) (s : State) : Out :=
  issue s (chForm g a b) (chreadBody c.toNat a.toNat b.toNat (f = 1))

/-! ### Events of chains -/

/-- An event of a unit: where it is not due, nothing happens. -/
def event (s : State) (due : Bool) (f : State → State) : Out := .next (if due then f { s with free := s.free + 1 } else s)

/-- HOP_ARRIVAL: the value is stored, and a READY link forms its sum (R201, R207). -/
def State.hopArrive (s : State) (n : Nat) (h : Hop) : State :=
  let s1 := { s with hops := dropNth s.hops n }
  match (s1.chainAt h.ctx h.chain).links[h.dest]? with
  | none => s1
  | some r =>
    let l := s1.linkAt r.key
    if l.inrcv then s1 else (s1.setLink r.key { l with inrcv := true, inc := h.vals }).tryForm h.ctx h.chain h.dest

/-- Whether a hop may be delivered: it waits for a link on a halted core (R125), on a die that is away (R217), or still to be armed there. -/
def State.hopDue (s : State) (h : Hop) : Bool :=
  match (s.chainAt h.ctx h.chain).links[h.dest]? with
  | some r => s.linkLive r && !(s.linkAt r.key).rearm
  | none => true

/-- The dies a hop goes from and to: hops of one pair arrive in the order sent (R314). -/
def State.hopRoute (s : State) (h : Hop) : Option Nat × Option Nat :=
  let d := fun (i : Nat) => ((s.chainAt h.ctx h.chain).links[i]?).map (·.die)
  (d (h.dest - 1), d h.dest)

def execHopArrival (n : Nat) (s : State) : Out :=
  match s.hops[n]? with
  | none => .next s
  | some h => event s (s.hopDue h && (s.hops.take n).all (fun f => !(s.hopRoute f = s.hopRoute h && s.hopDue f))) (fun s => s.hopArrive n h)

def execCloseStart (ctx chain : Nat) (s : State) : Out :=
  event s (s.closeReady (s.chainAt ctx chain)) (fun s => s.closeStart (s.chainAt ctx chain))

def execCloseLand (ctx chain : Nat) (s : State) : Out :=
  let ch := s.chainAt ctx chain
  match ch.close, ch.tail with
  | some q, some r => event s (q.started && s.linkLive r && s.closeFree ch) (fun s => s.closeLand (s.chainAt ctx chain) q r)
  | _, _ => .next s

end Sys2Proof.Machine
end

