-- ==== Sys2Proof/Machine/Control.lean ====
section
/-! DEFINITION. Branches (R115, R116), event instructions (R117, R118), CSR access (R97, R98, R119, R128, R139, R140, R191) and the
system instructions `trap` and `halt` (R120). -/

namespace Sys2Proof.Machine

/-! ### Branches -/

/-- A byte of a stream's ring (R14): the handler's lies in the handler buffer (R130). -/
def Core.ringByte (c : Core) (e : Eng) (off : Nat) : Nat :=
  let g := c.eng e
  (tGet 0 (if e = .h then c.hbuf else c.scratch) (g.ringBase + off % g.ringSize)).toNat

/-- A halfword of a ring, fetched across the wrap. -/
def Core.ringHalf (c : Core) (e : Eng) (off : Nat) : Nat := c.ringByte e off + 256 * c.ringByte e (off + 1)

/-- A word of a ring, fetched across the wrap. -/
def Core.ringWord (c : Core) (e : Eng) (off : Nat) : Nat := c.ringHalf e off + 2 ^ 16 * c.ringHalf e (off + 2)

def execPbr (b : BitVec 3) (o : BitVec 18) (g : BitVec 3) (s : State) : Out :=
  issue s { fAll g (s.preds [b.toNat]) with ext := true } fun s =>
    let e := s.me
    let t := ((e.offAt e.pos : Nat) + 2 * (s.simm o.toNat 18).toInt) % (e.ringSize : Int)
    .ok (s.landB b.toNat (BitVec.ofNat 64 (e.ringBase + t.toNat)) 2)

def execPbrR (b : BitVec 3) (a : BitVec 6) (g : BitVec 3) (s : State) : Out :=
  issue s (fAll g (s.preds [b.toNat] ++ s.regs [a.toNat])) fun s =>
    .ok (s.landB b.toNat (BitVec.ofNat 64 (bits (s.rx a.toNat).toNat 1 20 * 2)) 2)

/-- A branch (R19, R93, R116): taken when p is true, to a header marker in the stream's ring; `pre` is what a taken branch lands first. -/
def branch (b p g : BitVec 3) (pre : State → State) (s : State) : Res State := do
  if s.rp p.toNat then
    let e := s.me
    let t := (s.rb b.toNat 1).toNat
    need (decide (e.ringBase ≤ t) && decide (t < e.ringBase + e.ringSize)) clsIllegal 0x10
    need (s.myCore.ringByte s.cur.eng (t - e.ringBase) = 0xFF) clsIllegal 0x10
    let s1 := s.trace 0 p.toNat (BitVec.ofNat 64 ((e.ringBase + e.offAt e.pos) % 2 ^ 21 * 2 ^ 21 + t % 2 ^ 21))
    let s2 := pre s1
    let gap := if e.hdr.ilk then 0 else g.toNat
    .error (.jump (s2.setMe { s2.me.branchTo (t - e.ringBase) with gap := gap, nextIssue := s.now + 1 + gap }))
  else pure s

def execBr (b p g : BitVec 3) (s : State) : Out := issue s (fAll g (s.preds [b.toNat, p.toNat])) (branch b p g id)

/-- s63 := the offset of the header that follows the current block. -/
def State.linkReg (s : State) : State := s.landX 63 (BitVec.ofNat 64 (s.me.ringBase + s.me.offAt s.me.hdr.len)) 1

def execBrL (b p g : BitVec 3) (s : State) : Out := issue s (fC g) (branch b p g State.linkReg)

/-! ### Events -/

/-- A definition's slot replaced. -/
def Term.setSlot (t : Term) (n : Nat) (c : Cmp) : Term :=
  match n with
  | 0 => { t with s0 := some c }
  | 1 => { t with s1 := some c }
  | 2 => { t with s2 := some c }
  | _ => { t with s3 := some c }

/-- One `evterm` word on a pending definition (R117); none is EVSEQ, which leaves the definition pending (DEDUCED, log 18). -/
def evtermStep (pend : Option PendTerm) (t slot : Nat) (c : Cmp) : Option PendTerm :=
  match pend with
  | none => some ⟨t, slot, ({} : Term).setSlot slot c⟩
  | some p => if p.t ≠ t || slot ≤ p.last then none else some ⟨t, slot, p.term.setSlot slot c⟩

/-- A stream that stands at a header awaiting term `t` released from clk `r` on. -/
def Core.letGo (c : Core) (t r : Nat) (w : Eng) : Core :=
  let e := c.eng w
  if e.phase = .header && bits (c.ringWord w (e.blk + 4)) 0 4 = t then c.setEng w { e with released := some r } else c

/-- Term `t` replaced in clk `now` (R117). Where it held and no longer does, every block that waited on it while it held has been released (R22). -/
def Core.defineTerm (c : Core) (now t : Nat) (d : Term) : Core :=
  let r := tGet 0 c.tsince t
  let c1 := ({ c with terms := tSet {} c.terms t d } : Core).retime now
  if r ≠ 0 && decide (r ≤ now + 1) && tGet 0 c1.tsince t = 0 then (((c1.letGo t r .c).letGo t r .v).letGo t r .m).letGo t r .x else c1

def execEvterm (t : BitVec 4) (sl : BitVec 2) (l : BitVec 1) (e : BitVec 5) (h : BitVec 9) (g : BitVec 3) (s : State) : Out :=
  issue s { fC g (subUnless (t.toNat ≠ 0) subREGRANGE ++ subUnless (s.uimm h.toNat 9 ≤ 0xFFFF) subIMMRANGE) with ext := true, evterm := true } fun s =>
    match evtermStep s.pend t.toNat sl.toNat ⟨e.toNat, s.uimm h.toNat 9⟩ with
    | none => stopTrap clsUse 2
    | some p =>
      if l = 1 then .ok ((s.setMyCore (s.myCore.defineTerm s.now t.toNat p.term)).setPend none)
      else .ok (s.setPend (some p))

def execEvinc (x : BitVec 5) (i : BitVec 16) (g : BitVec 3) (s : State) : Out :=
  issue s (fC g) fun s => .ok (s.setMyCore ((s.myCore.raised s.cur.eng).raiseCnt s.now x.toNat i.toNat))

def execEvwait (x : BitVec 5) (g : BitVec 3) (s : State) : Out :=
  issue s (fC g (subUnless (x.toNat ≤ 15) subREGRANGE)) fun s => do
    await (s.myCore.termReady s.now x.toNat) s
    pure s

/-! ### CSRs -/

/-- CORESTAT (Table 5.2). -/
def State.corestat (s : State) : Nat :=
  let c := s.myCore
  let t := s.myTask
  let f := fun (g : RunTask → Nat) => match t with
    | some t => g t
    | none => 0
  s.partOf s.cur.die s.cur.core % 256 * 2 ^ 32 + f (·.phase) % 2 ^ 16 * 2 ^ 16 + b2n c.evsat * 2 ^ 7 + b2n c.spov * 2 ^ 6
    + f (fun t => b2n t.gang) * 2 ^ 5 + f (fun t => b2n t.det) * 2 ^ 4

/-- MSTAT (Table 9.3). -/
def Core.mstat (c : Core) : Nat :=
  let narrowed := match c.ops.getLast? with
    | some o => o.narrowed
    | none => c.mNarrowed
  c.poolFree.toNat * 2 ^ 48 + c.poolSize.toNat * 2 ^ 32 + c.mLanded.toNat * 2 ^ 16 + c.mSlot % 16 * 2 ^ 6 + b2n c.mSparse * 2 ^ 5
    + b2n narrowed * 2 ^ 4 + b2n c.shadowPend * 2 ^ 3 + b2n c.mActive * 2 ^ 2 + b2n c.mWaiting * 2 + b2n (!c.ops.isEmpty)

/-- TINFO (Table 6.3). -/
def Core.tinfo (c : Core) : Nat :=
  let r := match c.task with
    | some t => t.retries
    | none => 0
  r % 256 * 2 ^ 8 + b2n c.hfail * 4 + b2n c.inHandler * 2 + b2n c.second

/-- A word of a stop record. -/
def StopRec.word (r : StopRec) (n : Nat) : Word :=
  match n with
  | 0 => r.w0
  | 1 => r.w1
  | 2 => r.w2
  | 3 => r.w3
  | 4 => r.w4
  | 5 => r.w5
  | 6 => r.w6
  | _ => r.w7

/-- The engine of a group of stop-record CSRs. -/
def stopEngine (n : Nat) : Eng :=
  match n with
  | 0 => .c
  | 1 => .v
  | 2 => .m
  | _ => .x

/-- A trace trigger by number. -/
def Trace.trig (t : Trace) (n : Nat) : Trigger :=
  match n with
  | 0 => t.t0
  | 1 => t.t1
  | 2 => t.t2
  | _ => t.t3

def Trace.setTrig (t : Trace) (n : Nat) (x : Trigger) : Trace :=
  match n with
  | 0 => { t with t0 := x }
  | 1 => { t with t1 := x }
  | 2 => { t with t2 := x }
  | _ => { t with t3 := x }

/-- Whether a CSR number is assigned (Tables 5.1, 6.3, 6.7). -/
def csrKnown (n : Nat) : Bool :=
  n ≤ 4 || (0x10 ≤ n && n ≤ 0x19) || (0x20 ≤ n && n ≤ 0x41) || (0x50 ≤ n && n ≤ 0x52) || n = 0x70 || n = 0x71
    || (0x80 ≤ n && n ≤ 0x83) || (0x90 ≤ n && n ≤ 0xAF) || (0x100 ≤ n && n ≤ 0x104) || (0x108 ≤ n && n ≤ 0x113)

/-- The value of a trace CSR (Table 6.7). -/
def Trace.csr (t : Trace) (n : Nat) : Nat :=
  if n = 0x100 then t.post % 1024 * 2 ^ 16 + t.kinds.toNat * 2 ^ 8 + t.engs.toNat * 2 ^ 4 + b2n t.en
  else if n = 0x101 then b2n t.frozen * 2 ^ 11 + b2n t.wrapped * 2 ^ 10 + t.head % 1024
  else if n = 0x102 then t.idx % 1024
  else if n = 0x103 then (tGet 0 t.ring t.idx).toNat % 2 ^ 64
  else if n = 0x104 then (tGet 0 t.ring t.idx).toNat / 2 ^ 64
  else if n < 0x10C then
    let g := t.trig (n - 0x108)
    b2n g.raiseEn * 2 ^ 9 + g.e % 32 * 2 ^ 4 + b2n g.en * 2 ^ 3 + g.kind % 8
  else if n < 0x110 then (t.trig (n - 0x10C)).val.toNat
  else (t.trig (n - 0x110)).mask.toNat

/-- The value a `csrr` lands (R119). -/
def State.csr (s : State) (n : Nat) : Word :=
  let c := s.myCore
  BitVec.ofNat 64 (
    if n = 0 then s.corestat
    else if n = 1 then c.fpflags.toNat
    else if n = 2 then s.cycle s.cur.die
    else if n = 3 then s.vdieOf s.cur.die s.cur.core % 256 * 256 + s.cur.core % 256
    else if n = 4 then s.myCtx
    else if n < 0x18 then (tGet 0 c.seeds (n - 0x10)).toNat
    else if n = 0x18 then c.srkey.toNat
    else if n = 0x19 then c.srseq.toNat
    else if n < 0x40 then (tGet 0 c.cnt (n - 0x20)).toNat
    else if n = 0x40 then c.mstat
    else if n = 0x41 then c.nops.toNat * 2 ^ 16 + b2n s.narrow
    else if n = 0x50 then c.spill
    else if n = 0x51 then c.spillOv.toNat
    else if n = 0x52 then c.spillOvSz
    else if n = 0x70 then c.flseq.toNat
    else if n = 0x71 then c.fldone.toNat
    else if n = 0x80 then c.tcause.toNat
    else if n = 0x81 then (s.ctxAt s.myCtx).tvec.toNat / 128 * 128
    else if n = 0x82 then c.tinfo
    else if n = 0x83 then c.taddr.toNat
    else if n < 0x100 then ((c.eng (stopEngine ((n - 0x90) / 8))).stop.word (n % 8)).toNat
    else c.trace.csr n)

/-- Whether a landing on its way changes what CSR `n` reads: the CSR itself, or TRCIDX for the trace data. -/
def LateOp.touches (o : LateOp) (n : Nat) : Bool :=
  match o with
  | .csr m _ => m = n || (m = 0x102 && (n = 0x103 || n = 0x104))
  | .table .. => false
  | .commit => false

/-- Whether the current stream's own `csrw` to what CSR `n` reads has not landed. -/
def State.csrLate (s : State) (n : Nat) : Bool := s.myCore.late.any (fun l => l.eng = s.cur.eng && l.op.touches n)

/-- A read of an event counter, which takes its value in the clk it lands (R98). -/
def State.readCnt (s : State) (d n : Nat) : State :=
  if d = 0 then s
  else
    let e := s.me
    (s.setMe { e with cntReads := e.cntReads.filter (fun r => r.d ≠ d) ++ [⟨d, s.now + 2, n⟩] }).noteLanding (idX d) 2

/-- `csrr` (R119): in an interlocked block it waits for the stream's own write of the CSR; in an exposed one that reads too early the value is
unpredictable (R36). -/
def csrrBody (d n : Nat) (s : State) : Res State := do
  await (!(s.me.hdr.ilk && s.csrLate n)) s
  if 0x20 ≤ n ∧ n < 0x40 then pure (s.readCnt d (n - 0x20))
  else pure (s.landX d (if s.csrLate n then BitVec.ofNat 64 (s.freeNat 0) else s.csr n) 2)

def execCsrr (d : BitVec 6) (c : BitVec 12) (g : BitVec 3) (s : State) : Out :=
  issue s (fC g (subUnless (csrKnown c.toNat) subIMMRANGE)) (csrrBody d.toNat c.toNat)

/-- Whether a CSR is a stop-record word. -/
def csrStop (n : Nat) : Bool := 0x90 ≤ n && n ≤ 0xAF

/-- Whether a CSR has a field software may write; a stop record's only one is PC of word 1. -/
def csrWritable (n : Nat) : Bool :=
  n ≤ 1 || (0x10 ≤ n && n ≤ 0x19) || n = 0x100 || n = 0x101 || n = 0x102 || 0x108 ≤ n || (csrStop n && n % 8 = 1)

/-- A trace CSR written. -/
def Trace.csrSet (t : Trace) (n : Nat) (v : Word) : Trace :=
  let x := v.toNat
  if n = 0x100 then { t with post := bits x 16 10, kinds := BitVec.ofNat 8 (bits x 8 8), engs := BitVec.ofNat 4 (bits x 4 4), en := bit x 0 }
  else if n = 0x101 then
    { t with frozen := t.frozen && !bit x 11, wrapped := t.wrapped && !bit x 10, left := if t.frozen && bit x 11 then none else t.left }
  else if n = 0x102 then { t with idx := bits x 0 10 }
  else if n < 0x10C then
    t.setTrig (n - 0x108) { t.trig (n - 0x108) with raiseEn := bit x 9, e := bits x 4 5, en := bit x 3, kind := bits x 0 3 }
  else if n < 0x110 then t.setTrig (n - 0x10C) { t.trig (n - 0x10C) with val := v }
  else t.setTrig (n - 0x110) { t.trig (n - 0x110) with mask := v }

/-- A core with a CSR written (R119): RW fields take the bits, a W1C bit written as 1 is cleared. -/
def Core.csrSet (c : Core) (n : Nat) (v : Word) : Core :=
  if n = 0 then { c with evsat := c.evsat && !bit v.toNat 7 }
  else if n = 1 then { c with fpflags := c.fpflags &&& ~~~(BitVec.ofNat 6 v.toNat) }
  else if n < 0x18 then { c with seeds := tSet 0 c.seeds (n - 0x10) v }
  else if n = 0x18 then { c with srkey := BitVec.ofNat 16 v.toNat }
  else if n = 0x19 then { c with srseq := BitVec.ofNat 32 v.toNat }
  else if n < 0x100 then
    let e := c.eng (stopEngine ((n - 0x90) / 8))
    c.setEng (stopEngine ((n - 0x90) / 8)) { e with stop := { e.stop with w1 := BitVec.ofNat 64 (v.toNat % 2 ^ 21 / 2 * 2) } }
  else { c with trace := c.trace.csrSet n v }

/-- A landing put on its way. -/
def Core.addLate (c : Core) (l : Late) : Core := { c with late := c.late ++ [l] }

/-- `csrw` (R119): the write lands two clk later, before anything else of that clk, so that a set in the same clk stands (R70) and a read in the
same clk sees it (R64). -/
def execCsrw (d : BitVec 6) (c : BitVec 12) (g : BitVec 3) (s : State) : Out :=
  issue s (fC g (subUnless (csrKnown c.toNat) subIMMRANGE)) fun s => do
    need (!(csrStop c.toNat && s.cur.eng ≠ .h)) clsUse 6
    need (csrWritable c.toNat) clsUse 4
    pure (s.setMyCore (s.myCore.addLate ⟨s.now + 2, s.cur.eng, .csr c.toNat (s.rx d.toNat)⟩))

/-! ### trap, halt, eret -/

/-- The stream past its 32-bit instruction, left in the same block: the place `trap` and `halt` record (R120). -/
def State.after (s : State) (g : Nat) : State :=
  s.setMe { s.me with pos := s.me.pos + 2, pfx := [], gap := if s.me.hdr.ilk then 0 else g, nextIssue := s.now + 1 }

def execTrap (a : BitVec 6) (g : BitVec 3) (s : State) : Out :=
  issue s (fC g) fun s => .error (.jump ((s.after g.toNat).takeTrap s.cur { cls := 8, sub := (s.rx a.toNat).toNat % 2 ^ 16, skip := false }))

def execHalt (g : BitVec 3) (s : State) : Out :=
  issue s (fC g) fun s => .error (.jump ((s.after g.toNat).takeTrap s.cur { cls := 0x0A, sub := 0, skip := false }))

/-- The end of a handler by `eret`: the bank is free, the last handler did not fail. -/
def Core.leaveHandler (c : Core) : Core :=
  { c with inHandler := false, hfail := false, htask := none, hpend := none, h := { c.h with phase := .ended, pfx := [], req := none } }

end Sys2Proof.Machine
end

