-- ==== Sys2Proof/Machine/Matrix.lean ====
section
/-! DEFINITION. The matrix engine: nests and descriptors (R173 to R176), addresses and layout (R177, R178), the issue of an operation (R179,
R197), the groups it adds (R66 to R68, R175, R180, R181), narrowing (R187), and the format table (R74, R188 to R190). -/

namespace Sys2Proof.Machine

/-- Illegal-use subcodes of R184. -/
def subNESTRANGE : Nat := 0x10
def subOPDESC : Nat := 0x11
def subFMTCHK : Nat := 0x12
def subOPALIGN : Nat := 0x13
def subNOACTIVE : Nat := 0x14
def subFMTROW : Nat := 0x15
def subPOOLRANGE : Nat := 0x16

/-! ### The shadow set -/

def NestSet.level (n : NestSet) (l : Nat) : Level :=
  match l with
  | 0 => n.l0
  | 1 => n.l1
  | 2 => n.l2
  | 3 => n.l3
  | 4 => n.l4
  | _ => n.l5

def NestSet.setLevel (n : NestSet) (l : Nat) (x : Level) : NestSet :=
  match l with
  | 0 => { n with l0 := x }
  | 1 => { n with l1 := x }
  | 2 => { n with l2 := x }
  | 3 => { n with l3 := x }
  | 4 => { n with l4 := x }
  | _ => { n with l5 := x }

/-- The largest extent of a level (R173). -/
def extMax (l : Nat) : Nat := if l < 2 then 64 else if l = 2 then 65536 else 4096

/-- Whether a stride fits a signed 40-bit value (R174). -/
def strideOk (v : Word) : Bool := decide (-(2 ^ 39) ≤ v.toInt) && decide (v.toInt < 2 ^ 39)

/-- Whether `mnest` may write a value into a field (R174). -/
def nestOk (l f : Nat) (v : Word) : Bool := if f = 0 then decide (1 ≤ v.toNat) && decide (v.toNat ≤ extMax l) else strideOk v

/-- A level with a field written (R174): 0 `ext`, 1 `astr`, 2 `bstr`, 3 `mstr`. -/
def Level.setField (x : Level) (f : Nat) (v : Word) : Level :=
  match f with
  | 0 => { x with ext := v.toNat }
  | 1 => { x with astr := v.toInt }
  | 2 => { x with bstr := v.toInt }
  | _ => { x with mstr := v.toInt }

/-- The core with its shadow set written and MSTAT.SHADOWPEND set. -/
def Core.setShadow (c : Core) (n : NestSet) : Core := { c with shadow := n, shadowPend := true }

def execMnest (l f : BitVec 3) (a : BitVec 6) (g : BitVec 3) (s : State) : Out :=
  issue s (fM g (subUnless (a.toNat < 16) subREGRANGE ++ subUnless (l.toNat < 6 && f.toNat < 4 && (f.toNat = 0 || 3 ≤ l.toNat)) subIMMRANGE)) fun s => do
    let v := s.rx a.toNat
    need (nestOk l.toNat f.toNat v) clsUse subNESTRANGE
    let c := s.myCore
    pure (s.setMyCore (c.setShadow (c.shadow.setLevel l.toNat ((c.shadow.level l.toNat).setField f.toNat v))))

/-- A descriptor from its registers (R176). -/
def mkOperand (base str : Word) (sp t : Bool) : Operand :=
  { base := base, str := str.toNat % 2 ^ 32, soff := sextI (str.toNat / 2 ^ 32) 32, sp := sp, t := t }

/-- The form of class MO. -/
def moForm (b str : BitVec 6) (g : BitVec 3) : Form := fM g (subUnless (b.toNat < 16 && str.toNat < 16) subREGRANGE)

/-- A descriptor written into the shadow set by `put`. -/
def mopBody (b str : Nat) (sp t meta_ : Bool) (put : NestSet → Operand → NestSet) (s : State) : Res State := do
  let o := mkOperand (s.rx b) (s.rx str 1) sp t
  need (!(t && !sp) && !(meta_ && (t || o.soff ≠ 0))) clsUse subOPDESC
  pure (s.setMyCore (s.myCore.setShadow (put s.myCore.shadow o)))

def execMopa (b str : BitVec 6) (p t : BitVec 1) (g : BitVec 3) (s : State) : Out :=
  issue s (moForm b str g) (mopBody b.toNat str.toNat (p = 1) (t = 1) false (fun n o => { n with a := o }))

def execMopb (b str : BitVec 6) (p t : BitVec 1) (g : BitVec 3) (s : State) : Out :=
  issue s (moForm b str g) (mopBody b.toNat str.toNat (p = 1) (t = 1) false (fun n o => { n with b := o }))

def execMopm (b str : BitVec 6) (p t : BitVec 1) (g : BitVec 3) (s : State) : Out :=
  issue s (moForm b str g) (mopBody b.toNat str.toNat (p = 1) (t = 1) true (fun n o => { n with m := o }))

/-! ### Operand formats -/

/-- Whether a code is an MX operand format. -/
def isMx (c : Nat) : Bool := 0x20 ≤ c && c ≤ 0x24

/-- The element format of an operand format and the exponent of its unit (R49, R50, R55). -/
def mxElem (c : Nat) : Nat × Int :=
  match c with
  | 0x20 => (0x06, 0)
  | 0x21 => (0x05, -2)
  | 0x22 => (0x04, -6)
  | 0x23 => (0x0A, 0)
  | 0x24 => (0x0B, 0)
  | _ => (c, 0)

/-- The element width in bits. -/
def elemW (c : Nat) : Nat := (fmtOf (mxElem c).1).width

/-- The group size of Table 9.1. -/
def groupSize (c : Nat) (b16 : Bool) : Nat := if isMx c then (if b16 then 16 else 32) else if c = 1 || c = 2 then 4 else 32

/-- Bytes of one block of stored elements (R177). -/
def blockBytes (c : Nat) (b16 sparse : Bool) : Nat := (if b16 then 16 else 32) / (if sparse then 2 else 1) * elemW c / 8

/-- AFMT codes that R71 admits for operand A. -/
def operandCode (c : Nat) : Bool := c = 1 || c = 2 || c = 4 || c = 0x0A || c = 0x0B || c = 0x12 || c = 0x13 || isMx c

/-- Formats that permit a transposed operand (R178). -/
def transOk (c : Nat) : Bool := operandCode c && !isMx c

/-- Formats whose groups are formed in the 48-bit window of R67. -/
def windowed (c : Nat) : Bool := c = 0x0A || c = 0x0B || c = 0x12 || c = 0x13 || c = 0x23 || c = 0x24

/-- The pairs of operand formats a row may name (R71). -/
def pairOkFmt (a b : Nat) : Bool :=
  (a = b && (a = 0x20 || a = 0x21 || a = 0x22 || a = 4 || a = 1 || a = 2))
  || ((a = 0x23 || a = 0x24) && (b = 0x23 || b = 0x24))
  || ((a = 0x0A || a = 0x0B || a = 0x12 || a = 0x13) && (b = 0x0A || b = 0x0B || b = 0x12 || b = 0x13))

/-- Codes permitted as a close result (Table 3.1). -/
def closeCode (c : Nat) : Bool := c ≤ 5 || isBinary8 c

/-- Whether `mfmt` accepts a row (R188). -/
def rowOk (w : Nat) : Bool := pairOkFmt (bits w 58 6) (bits w 52 6) && closeCode (bits w 46 6) && decide (bits w 42 3 ≤ 4)

/-! ### Addresses (R177) -/

/-- Which operand: A, B or the metadata. -/
inductive Which where
  | a | b | m
  deriving DecidableEq, Repr

def NestSet.operand (n : NestSet) : Which → Operand
  | .a => n.a
  | .b => n.b
  | .m => n.m

/-- A level's stride for an operand. -/
def Level.stride (l : Level) : Which → Int
  | .a => l.astr
  | .b => l.bstr
  | .m => l.mstr

/-- The outer offset of a pass. -/
def NestSet.outer (n : NestSet) (w : Which) (p : RowProg) : Int :=
  p.i3 * n.l3.stride w + p.i4 * n.l4.stride w + p.i5 * n.l5.stride w

/-- The offset of the element at position `k` of row (or column) `i`, `w` bits wide. -/
def elemOff (o : Operand) (outer : Int) (w i k : Nat) : Int :=
  if o.t then outer + k * o.str + (i * w / 8 : Nat) else outer + i * o.str + (k * w / 8 : Nat)

/-- The address at an offset of a descriptor, modulo 2^64. -/
def opAddr (o : Operand) (off : Int) : Nat := (o.base + BitVec.ofInt 64 off).toNat

/-- The range of offsets of one term of a sum: n steps of a stride. -/
def spanOf (n : Nat) (stride : Int) : Int × Int := let e := ((n : Int) - 1) * stride; (min 0 e, max 0 e)

/-- The lowest and highest byte offset of an operand's elements in extent: `n` rows, `k` positions, `w` bits each. -/
def NestSet.span (x : NestSet) (wh : Which) (n k w : Nat) : Int × Int :=
  let o := x.operand wh
  let r3 := spanOf x.l3.ext (x.l3.stride wh)
  let r4 := spanOf x.l4.ext (x.l4.stride wh)
  let r5 := spanOf x.l5.ext (x.l5.stride wh)
  let hi : Int := elemOff { o with base := 0 } 0 w (n - 1) (k - 1)
  (r3.1 + r4.1 + r5.1, r3.2 + r4.2 + r5.2 + hi + ((max 1 (w / 8) : Nat) - 1 : Int))

/-- Stored elements per row of a sparse A. -/
def sparseLen (k : Nat) : Nat := 2 * ((k + 3) / 4)

/-- An operation's element ranges: operand, first and last offset. -/
def NestSet.spans (x : NestSet) (af bf : Nat) (sparse : Bool) : List (Which × Int × Int) :=
  let a := x.span .a x.l0.ext (if sparse then sparseLen x.l2.ext else x.l2.ext) (elemW af)
  let b := x.span .b x.l1.ext x.l2.ext (elemW bf)
  [(.a, a.1, a.2), (.b, b.1, b.2)] ++ (if sparse then let m := x.span .m x.l0.ext ((x.l2.ext + 3) / 4) 4; [(.m, m.1, m.2)] else [])

/-- The ranges of the scale arrays of MX operands (R177). -/
def NestSet.scaleSpans (x : NestSet) (af bf : Nat) (b16 sparse : Bool) : List (Which × Int × Int) :=
  let f := fun (wh : Which) (c : Nat) (sp : Bool) (q : Int × Int) =>
    if isMx c then let bb : Int := blockBytes c b16 sp; [(wh, (x.operand wh).soff + q.1 / bb, (x.operand wh).soff + q.2 / bb)] else []
  f .a af sparse (x.span .a x.l0.ext (if sparse then sparseLen x.l2.ext else x.l2.ext) (elemW af)) ++ f .b bf false (x.span .b x.l1.ext x.l2.ext (elemW bf))

/-- The scratchpad range of a span, as first offset and length; a descriptor's base is read as signed, so that offsets wrap modulo 2^64. -/
def NestSet.spRange (x : NestSet) (q : Which × Int × Int) : Option (Int × Int) :=
  let o := x.operand q.1
  if o.sp then some (o.base.toInt + q.2.1, o.base.toInt + q.2.2) else none

/-- The layout rules of R178. -/
def NestSet.layoutOk (x : NestSet) (af bf : Nat) (b16 sparse : Bool) : Bool :=
  let f := fun (wh : Which) (c : Nat) (sp : Bool) =>
    let o := x.operand wh
    let u := if isMx c then blockBytes c b16 sp else 4
    let ok := fun (z : Int) => decide (z % (u : Int) = 0)
    ok o.base.toNat && ok o.str && ok (x.l3.stride wh) && ok (x.l4.stride wh) && ok (x.l5.stride wh) && (!o.t || (transOk c && !sp))
  f .a af sparse && f .b bf false

/-! ### The groups of an operation (R175) -/

/-- Groups along level 2. -/
def MOp.groups (o : MOp) : Nat :=
  let gs := groupSize (bits o.row.toNat 58 6) (bit o.row.toNat 45)
  (o.nest.l2.ext + gs - 1) / gs

/-- A place of the nest carried into its extents; the fifth level's extent marks the end. -/
def MOp.carry (o : MOp) (p : RowProg) : RowProg :=
  let p := if o.groups ≤ p.g then { p with g := 0, half := false, i3 := p.i3 + 1 } else p
  let p := if o.nest.l3.ext ≤ p.i3 then { p with i3 := 0, g := 0, half := false, i4 := p.i4 + 1 } else p
  if o.nest.l4.ext ≤ p.i4 then { p with i4 := 0, i3 := 0, g := 0, half := false, i5 := p.i5 + 1 } else p

/-- The place of the next group. -/
def MOp.next (o : MOp) (p : RowProg) : RowProg := o.carry { p with g := p.g + 1, half := false }

/-- Whether no group is left. -/
def MOp.over (o : MOp) : Bool := decide (o.nest.l5.ext ≤ o.prog.i5)

/-- Whether an operation has come to its last group, or past it (R179). -/
def MOp.lastGo (o : MOp) : Bool := decide (o.nest.l5.ext ≤ (o.next o.prog).i5)

/-! ### Issue (R179, R197) -/

/-- The wait of an interlocked block for its own stream's landings on the format table (R94). -/
def State.tableWait (s : State) : Res Unit := await (!(s.me.hdr.ilk && s.tableLate)) s

/-- A row as the current stream reads it: unpredictable, but one that a table may hold, where its own `mfmt` or `mfmtcommit` has not landed (R36). -/
def State.rowWord (s : State) (row k : Nat) : Word :=
  if s.tableLate then (let w := s.freeNat k % 2 ^ 64; if rowOk w then BitVec.ofNat 64 w else fmtReset row) else s.myCore.resolveRow row

/-- MSTAT.WAITING while a command waits at issue. -/
def State.mWait (s : State) : State := s.setMyCore { s.myCore with mWaiting := true }

/-- The task of the current stream as a chain's link remembers it. -/
def State.taskId (s : State) : Nat × Nat × Nat :=
  match s.myTask with
  | some t => (t.graph, t.record, t.tile)
  | none => (0, 0, 0)

/-- A link takes an issued contribution (R197). -/
def Link.issueInto (l : Link) (task : Nat × Nat × Nat) : Link :=
  { l with issued := l.issued + 1, state := if l.state = .armed then .filling else l.state, partialAdd := false, tasks := addNew l.tasks [task] }

/-- The wait of several ranges for their stash sectors, which a command makes at issue (R239). -/
def State.rangesReady (s : State) : List (Nat × Nat) → Res Unit
  | [] => .ok ()
  | r :: rs => do
    s.sectorsReady s.cur.die s.cur.core r.1 r.2 false (s.myCore.mapped r.1 r.2)
    s.rangesReady rs

/-- The operation entered (R179): link, scoreboard and MSTAT. -/
def State.startOp (s : State) (slot key : Nat) (sparse flush : Bool) (cfg : Word) (active : NestSet) (fromShadow : Bool) (rs : List (Nat × Nat)) : State :=
  let l := s.linkAt key
  let c := s.myCore
  let op : MOp := { num := c.issueNo, slot := slot, link := key, sparse := sparse, row := cfg, flush := flush, nest := active, ranges := rs }
  let op := { op with prog := op.carry (if l.partialAdd then l.prog else {}) }
  let c1 := c.enter (.matrix c.issueNo) (rs.map (fun r => (r.1, r.2, false)))
  let c2 := { c1 with active := active, shadowPend := c.shadowPend && !fromShadow, mActive := true, mSparse := sparse, mSlot := slot, mWaiting := false,
                      ops := c.ops ++ [op] }
  (s.setLink key (l.issueInto s.taskId)).setMyCore c2

/-- Whether a range of offsets lies in the scratchpad. -/
def rangeIn (r : Int × Int) : Bool := decide (0 ≤ r.1) && decide (r.2 < Config.spSize)

/-- The first offset of the first range that does not lie in the scratchpad: what SPRANGE reports at issue, where the spec names no offset
(DESIGN CHOICE, log 65). -/
def rangeOut (rs : List (Int × Int)) : Word := BitVec.ofInt 64 (((rs.find? (fun r => !rangeIn r)).map (·.1)).getD 0)

/-- A range by its first offset and length. -/
def rangeLen (r : Int × Int) : Nat × Nat := (r.1.toNat, (r.2 + 1 - r.1).toNat)

/-- `mma`, `mmas` and `mgo` at issue (R179): `mgo` takes the active set, the others copy the shadow set. The operation enters the scoreboard with a range
per scratchpad operand, and one per scratchpad scale array, which it reads as well (DEDUCED from R23, log 64); what it waits for there, it
waits for at its groups. -/
def matBody (slot fchk : Nat) (go sp : Bool) (s : State) : Res State := do
  let c := s.myCore
  s.tableWait
  await (decide (c.ops.length < 2) && c.ops.all MOp.lastGo) s.mWait
  let row := s.rowOf
  let cfg := s.rowWord row 0
  need (fchk = 0x3F || fchk = bits (if s.tableLate then cfg else c.cfgRow row).toNat 58 6) clsUse subFMTCHK
  need (!go || c.mActive) clsUse subNOACTIVE
  let x := if go then c.active else c.shadow
  let sparse := if go then c.mSparse else sp
  let af := bits cfg.toNat 58 6
  let bf := bits cfg.toNat 52 6
  let b16 := bit cfg.toNat 45
  need (x.layoutOk af bf b16 sparse) clsUse subOPALIGN
  let rs := (x.spans af bf sparse ++ x.scaleSpans af bf b16 sparse).filterMap x.spRange
  need (rs.all rangeIn) clsMem 4 (rangeOut rs)
  let key := s.linkKey s.myCtx s.cur.die s.cur.core slot
  let l := s.linkAt key
  need (l.state ≠ .idle && l.own = s.myCtx) clsUse subNOLINK
  await (l.state ≠ .ready && l.state ≠ .sent && l.state ≠ .frozen && l.issued ≠ l.decl) s.mWait
  await (c.sbRoom rs.length) s.mWait
  s.rangesReady (rs.map rangeLen)
  pure (s.startOp slot key sparse s.flush cfg x (!go) (rs.map rangeLen))

/-- The form of class MM: FCHK is none or a code of an operand A. -/
def mmForm (f : BitVec 6) (g : BitVec 3) : Form := { fM g (subUnless (f.toNat = 0x3F || operandCode f.toNat) subIMMRANGE) with fmt := true, eff := true }

def execMma (k : BitVec 4) (f : BitVec 6) (g : BitVec 3) (s : State) : Out := issue s (mmForm f g) (matBody k.toNat f.toNat false false)

def execMmas (k : BitVec 4) (f : BitVec 6) (g : BitVec 3) (s : State) : Out :=
  issue s { mmForm f g with feature := some 3 } (matBody k.toNat f.toNat false true)

def execMgo (k : BitVec 4) (f : BitVec 6) (g : BitVec 3) (s : State) : Out := issue s (mmForm f g) (matBody k.toNat f.toNat true false)

/-! ### Fetching a group (R181, R182, R295) -/

/-- One element, scale or metadata byte of an operand: scratchpad bytes, or a checked global read of the core's port. -/
def State.fetch (s : State) (die core : Nat) (sp : Bool) (addr n : Nat) : Res (Nat × State) :=
  if sp then .ok (bytesToNat (s.spBytes die core addr n), s)
  else do
    let c := s.coreAt die core
    let a := BitVec.ofNat 64 addr
    let p ← liftAt addr (s.check (s.ctxOf die core) (some c.foot) [0] addr n false)
    need (p.mtype = 0) clsMem 6 a
    let s1 ← liftAt addr (s.own die core c.task p addr n false)
    match s.canRead die none p n with
    | .error (.wait t) => .error (.wait (t.setCoreAt die core { t.coreAt die core with ops := (t.coreAt die core).ops.modifyHead (fun o =>
        match o.wait with
        | some (_, b) => if b = a then o else { o with wait := some (t.now, a) }
        | none => { o with wait := some (t.now, a) }) }))
    | .error e => .error e
    | .ok () => pure (bytesToNat (s1.portBytes die core p.key p.home n), s1)

/-- `fetch` over a list of places, keeping the order. -/
def State.fetchAll (s : State) (die core : Nat) (sp : Bool) (n : Nat) : List Nat → Res (List Nat × State)
  | [] => .ok ([], s)
  | a :: as => do
    let r ← s.fetch die core sp a n
    let rest ← r.2.fetchAll die core sp n as
    pure (r.1 :: rest.1, rest.2)

/-- The code of the element at position `k`, from the bytes at its place (R54). -/
def elemCode (w k x : Nat) : Nat := if w = 4 then x / 2 ^ (4 * (k % 2)) % 16 else x % 2 ^ w

/-- The positions of a group within the extent. -/
def MOp.ks (o : MOp) : List Nat :=
  let gs := groupSize (bits o.row.toNat 58 6) (bit o.row.toNat 45)
  upto (o.prog.g * gs) (min gs (o.nest.l2.ext - o.prog.g * gs))

/-- The codes of row (column) `i` of a dense operand for the positions of the group. -/
def State.fetchRow (s : State) (die core : Nat) (o : MOp) (wh : Which) (c : Nat) (i : Nat) : Res (List Nat × State) := do
  let d := o.nest.operand wh
  let w := elemW c
  let out := o.nest.outer wh o.prog
  let r ← s.fetchAll die core d.sp (max 1 (w / 8)) (o.ks.map (fun k => opAddr d (elemOff d out w i k)))
  pure ((o.ks.zip r.1).map (fun q => elemCode w q.1 q.2), r.2)

/-- A group's metadata nibbles of row i (R180), by quadruple. -/
def State.fetchMeta (s : State) (die core : Nat) (o : MOp) (i : Nat) (q : Nat) : Res (Nat × State) := do
  let d := o.nest.m
  let a := opAddr d (elemOff d (o.nest.outer .m o.prog) 4 i q)
  let r ← s.fetch die core d.sp a 1
  let n := elemCode 4 q r.1
  need (decide (n % 4 < n / 4)) 7 1 (BitVec.ofNat 64 a)
  pure (n, r.2)

/-- Every metadata nibble of row i for the quadruples given. -/
def State.fetchMetas (s : State) (die core : Nat) (o : MOp) (i : Nat) : List Nat → Res (List (Nat × Nat) × State)
  | [] => .ok ([], s)
  | q :: qs => do
    let r ← s.fetchMeta die core o i q
    let rest ← r.2.fetchMetas die core o i qs
    pure ((q, r.1) :: rest.1, rest.2)

/-- The quadruples of the group that hold a position below EXT2. -/
def MOp.quads (o : MOp) : List Nat :=
  match o.ks.head? with
  | some k => upto (k / 4) ((o.ks.length + 3) / 4)
  | none => []

/-- The stored element of a row that stands at position k, if any. -/
def storedAt (ms : List (Nat × Nat)) (k : Nat) : Option Nat :=
  match ms.find? (fun m => m.1 = k / 4) with
  | some (q, n) => if n % 4 = k % 4 then some (2 * q) else if n / 4 = k % 4 then some (2 * q + 1) else none
  | none => none

/-- The codes of row i of a sparse A: +0 where nothing is stored. -/
def State.fetchSparse (s : State) (die core : Nat) (o : MOp) (c i : Nat) (ms : List (Nat × Nat)) : List Nat → Res (List Nat × State)
  | [] => .ok ([], s)
  | k :: ks =>
    match storedAt ms k with
    | none => do
      let rest ← s.fetchSparse die core o c i ms ks
      pure (0 :: rest.1, rest.2)
    | some p => do
      let d := o.nest.a
      let w := elemW c
      let r ← s.fetch die core d.sp (opAddr d (elemOff d (o.nest.outer .a o.prog) w i p)) (max 1 (w / 8))
      let rest ← r.2.fetchSparse die core o c i ms ks
      pure (elemCode w p r.1 :: rest.1, rest.2)

/-- The scale code of row (column) i for the group, 127 (a factor of 1) where the format has none. The spec does not say how o / BB rounds
for a negative offset: the model divides the signed offset (DESIGN CHOICE, log 65). -/
def State.fetchScale (s : State) (die core : Nat) (o : MOp) (wh : Which) (c : Nat) (sparse : Bool) (i : Nat) : Res (Nat × State) :=
  if isMx c then
    let d := o.nest.operand wh
    let k := (o.ks.headD 0) / (if sparse then 2 else 1)
    let off := elemOff d (o.nest.outer wh o.prog) (elemW c) i k
    s.fetch die core d.sp (opAddr d (d.soff + off / (blockBytes c (bit o.row.toNat 45) sparse : Int))) 1
  else .ok (127, s)

/-- One row of A or column of B: metadata, elements, scale, in that order. -/
def State.fetchVec (s : State) (die core : Nat) (o : MOp) (wh : Which) (c : Nat) (sparse : Bool) (i : Nat) : Res (Vec × State) := do
  let r ← (if sparse then do
      let m ← s.fetchMetas die core o i o.quads
      m.2.fetchSparse die core o c i m.1 o.ks
    else s.fetchRow die core o wh c i)
  let z ← r.2.fetchScale die core o wh c sparse i
  pure (⟨z.1, r.1⟩, z.2)

/-- Several rows or columns. -/
def State.fetchVecs (s : State) (die core : Nat) (o : MOp) (wh : Which) (c : Nat) (sparse : Bool) : List Nat → Res (List Vec × State)
  | [] => .ok ([], s)
  | i :: is => do
    let r ← s.fetchVec die core o wh c sparse i
    let rest ← r.2.fetchVecs die core o wh c sparse is
    pure (r.1 :: rest.1, rest.2)

/-! ### The value of a group (R66 to R68) -/

/-- The value scaled by 2^k. -/
def fShift (v : FVal) (k : Int) : FVal :=
  match v with
  | .fin n m e => .fin n m (e + k)
  | w => w

/-- A decoded operand element, with FZ where a subnormal of 16 bits is flushed. -/
def matElem (c : Nat) (flush : Bool) (code : Nat) : FVal × Flags :=
  let e := mxElem c
  let v := flushIn c (flush && (c = 1 || c = 2)) (decodeF e.1 code)
  (fShift v.1 e.2, v.2)

/-- ⌊log2 |p|⌋ of a nonzero finite value. -/
def binade : FVal → Option Int
  | .fin _ m e => if m = 0 then none else some (e + (Nat.log2 m : Nat))
  | _ => none

/-- The largest binade of a list. -/
def maxBinade : List FVal → Option Int
  | [] => none
  | v :: vs => match binade v, maxBinade vs with
    | some a, some b => some (max a b)
    | some a, none => some a
    | none, r => r

/-- A finite value truncated toward zero to a multiple of 2^q. -/
def truncAt (q : Int) : FVal → FVal
  | .fin n m e => if q ≤ e then .fin n m e else .fin n (m / 2 ^ (q - e).toNat) q
  | v => v

/-- The exact sum of a list, from a first value. -/
def sumFrom (acc : FVal) : List FVal → FVal
  | [] => acc
  | v :: vs => sumFrom (fAdd acc v).1 vs

/-- G of one element (Table 3.9, R67, R68): the products' sum, times both scales. -/
def groupValue (af bf : Nat) (flush full : Bool) (a b : Vec) : FVal × Flags :=
  let xs := (a.codes.zip b.codes).map (fun q => (matElem af flush q.1, matElem bf flush q.2))
  let fl := xs.foldl (fun f q => f ||| q.1.2 ||| q.2.2) (0 : Flags)
  let ps := xs.map (fun q => (fMul q.1.1 q.2.1).1)
  let bad := a.scale = 0xFF || b.scale = 0xFF || ps.contains .nan || xs.any (fun q => q.1.1 = .nan || q.2.1 = .nan)
    || (ps.contains (.inf true) && ps.contains (.inf false))
  if bad then (.nan, fl ||| fNV)
  else if ps.contains (.inf true) then (.inf true, fl)
  else if ps.contains (.inf false) then (.inf false, fl)
  else
    let cut := match windowed af, maxBinade ps with
      | true, some e => ps.map (truncAt (e - 41))
      | _, _ => ps
    let zero : FVal := .fin false 0 0
    let sum := if (af = 1 || af = 2) && full then (match cut with
        | v :: vs => sumFrom v vs
        | [] => zero)
      else sumFrom zero cut
    (fShift sum ((a.scale : Int) + b.scale - 254), fl)

/-- One accumulator after a group: acc = round_to(f32, acc + G, RNE), under R65. -/
def accStep (flush : Bool) (acc : BitVec 32) (g : FVal × Flags) : Nat × Flags :=
  let a := flushIn 0 flush (decodeF 0 acc.toNat)
  let t := fAdd a.1 g.1
  let r := roundTo 0 t.1 0 false flush 0
  (r.1, g.2 ||| a.2 ||| t.2 ||| r.2)

/-- The elements a group or half-group adds to: the columns from `lo`, `n` of them at most, within the extents. -/
def MOp.inPart (o : MOp) (lo n k : Nat) : Bool :=
  decide (k / 64 < o.nest.l0.ext) && decide (k % 64 < o.nest.l1.ext) && decide (lo ≤ k % 64) && decide (k % 64 < lo + n)

/-- The group (or half) added to its link's sums, with its flags. -/
def MOp.add (o : MOp) (lo n : Nat) (rows cols : List Vec) (sum : Tab (BitVec 32)) : Tab (BitVec 32) × Flags :=
  let af := bits o.row.toNat 58 6
  let bf := bits o.row.toNat 52 6
  let none_ : Vec := ⟨127, []⟩
  let full := decide (o.ks.length = groupSize af (bit o.row.toNat 45))
  let f := fun k => accStep o.flush (tGet 0 sum k) (groupValue af bf o.flush full (rows.getD (k / 64) none_) (cols.getD (k % 64) none_))
  (tabOf 0 (fun k => if o.inPart lo n k then BitVec.ofNat 32 (f k).1 else tGet 0 sum k) tileKeys,
   orFlagsOf (fun k => if o.inPart lo n k then (f k).2 else 0) tileKeys)

/-- A link counts a contribution that has landed; a slot that is IDLE belongs to no chain any more, and nothing changes there (R196). -/
def State.landInto (s : State) (key : Nat) : State :=
  let l := s.linkAt key
  if l.state = .idle then s else (s.setLink key l.landed).tryForm l.ctx l.chain l.posn

/-- An operation lands (R179, R198): the contribution counts, MSTAT and MPWR are kept, its ranges leave the scoreboard. -/
def State.landOp (s : State) (die core : Nat) (o : MOp) : State :=
  let c := s.coreAt die core
  let nops := if o.narrowed && c.nops ≠ 0xFFFF then c.nops + 1 else c.nops
  let c1 := ({ c with ops := c.ops.drop 1, mLanded := c.mLanded + 1, mNarrowed := o.narrowed, nops := nops } : Core).leave (.matrix o.num)
  (s.setCoreAt die core c1).landInto o.link

/-- The operands of a group, fetched once as the group starts (R182): every row of A and every column of B; where only the second half is still
to be added, as after a halt between the halves (R186), its columns. -/
def State.fetchGroup (s : State) (die core : Nat) (o : MOp) : Res ((List Vec × List Vec) × State) :=
  match o.held with
  | some v => .ok (v, s)
  | none => do
    let lo := if o.prog.half then 32 else 0
    let a ← s.fetchVecs die core o .a (bits o.row.toNat 58 6) o.sparse (upto 0 o.nest.l0.ext)
    let b ← a.2.fetchVecs die core o .b (bits o.row.toNat 52 6) false (upto lo (o.nest.l1.ext - lo))
    pure ((a.1, List.replicate lo ⟨127, []⟩ ++ b.1), b.2)

/-- A group, or half of one, added to the link from its operands: a narrowed group keeps them for its second half (R187). -/
def State.addGroup (s : State) (die core : Nat) (o : MOp) (v : List Vec × List Vec) : State :=
  let first := o.held.isNone && !o.prog.half
  let more := first && s.narrow
  let lo := if o.prog.half then 32 else 0
  let l := s.linkAt o.link
  let z := o.add lo (if more then 32 else 64) v.1 v.2 l.sum
  let o1 := { o with prog := if more then { o.prog with half := true } else o.next o.prog, held := if more then some v else none,
                     narrowed := o.narrowed || s.narrow || o.held.isSome, wait := none }
  let s1 := if l.state = .idle then s else s.setLink o.link { l with sum := z.1 }
  let c := (s1.coreAt die core).orFlags z.2
  let s2 := s1.setCoreAt die core { c with ops := c.ops.modifyHead (fun _ => o1), mSkid := c.mSkid || (s.partOfCore die core).halt.isSome }
  if o1.over then s2.landOp die core o1 else s2

/-- The next group or half-group of the operation in progress (R175, R186, R187): fetched whole, then added; a fault is precise at the
group (R185). -/
def State.runGroup (s : State) (die core : Nat) (o : MOp) : State :=
  if o.over then s.landOp die core o
  else match s.fetchGroup die core o with
    | .error (.wait t) => t
    | .error (.jump t) => t
    | .error (.trap t) => s.takeTrap ⟨die, core, .m⟩ { t with async := true, skip := false }
    | .ok (v, s1) => s1.addGroup die core o v

/-- Whether an uncorrectable error stands on a core: its operations are abandoned (R199). -/
def Core.errored (c : Core) : Bool := [Eng.c, .v, .m, .x].any (fun e => match (c.eng e).trap with
  | some t => t.cls = 9
  | none => false)

/-- Whether an operation's next group may run (R186): its ranges are free of earlier commands (R23), its engine has no trap, and its core runs, or has
halted with no group run since and none waiting for its data. -/
def State.groupDue (s : State) (die core : Nat) (o : MOp) : Bool :=
  let c := s.coreAt die core
  c.m.trap.isNone && !c.errored && o.ranges.all (fun r => !c.ahead o.num r.1 r.2 false) &&
  (match (s.partOfCore die core).halt with
   | none => true
   | some h => !h.complete && !c.mSkid && o.wait.isNone)

def execMatrixGroup (die core : Nat) (s : State) : Out :=
  match (s.coreAt die core).ops.head? with
  | none => .next s
  | some o => event s (s.groupDue die core o) (fun s => s.runGroup die core o)

/-! ### The format table -/

/-- The first row of a list that is not acceptable. -/
def badRow : List Nat → Nat → Option Nat
  | [], _ => none
  | w :: ws, r => if rowOk w then badRow ws (r + 1) else some r

/-- The table loaded with rows from 0, the others reset (R188). -/
def loadRows (ws : List Nat) : Tab Word := tabFmt 0 ws
where
  tabFmt (r : Nat) : List Nat → Tab Word
    | [] => []
    | w :: t => if BitVec.ofNat 64 w = fmtReset r then tabFmt (r + 1) t else (r, BitVec.ofNat 64 w) :: tabFmt (r + 1) t

/-- The status words with FBDENIED and DENYCNT cleared. -/
def clearDenied (t : Tab (BitVec 32)) : Tab (BitVec 32) := tabOf 0 (fun r => tGet 0 t r &&& 0xDFFF0000#32) (upto 0 64)

/-- The status words written out by `mfmt` as they stand at its issue (R188). -/
def State.dumpStat (s : State) (dst : Nat) : State :=
  s.spWrite s.cur.die s.cur.core dst ((upto 0 64).flatMap (fun r => natToBytes 4 (tGet 0 s.myCore.fmtStat r).toNat))

/-- The n words that `mfmt` reads from a scratchpad place. -/
def State.tableWords (s : State) (src n : Nat) : List Nat := (upto 0 n).map (fun r => bytesToNat (s.spBytes s.cur.die s.cur.core (src + 8 * r) 8))

/-- What lands of an `mfmt` (R188): FBDENIED and DENYCNT cleared, and the rows loaded, if any. -/
def Core.loadTable (c : Core) (clear : Bool) (ws : List Nat) : Core :=
  let c1 := if clear then { c with fmtStat := clearDenied c.fmtStat } else c
  let size := BitVec.ofNat 16 c.poolUnits
  if ws = [] then c1 else { c1 with fmtCfg := loadRows ws, fmtStat := [], fbAt := [], poolSize := size, poolFree := size }

/-- `spReady`, where a condition holds. -/
def State.spReadyIf (s : State) (on : Bool) (off n : Nat) (wr : Bool) : Res Unit := if on then s.spReady s.cur.die s.cur.core off n wr else .ok ()

def mfmtBody (d a b : Nat) (s : State) : Res State := do
  s.tableWait
  let ctl := (s.rx b 2).toNat
  let src := (s.rx a 1).toNat
  let dst := (s.rx d).toNat
  let n := bits ctl 0 7
  let dump := bit ctl 7
  need (n ≤ 64 && ctl / 2 ^ 9 = 0) clsUse subFMTROW
  need (n = 0 || aligned src 8) clsMem 3 (BitVec.ofNat 64 src)
  need (!dump || aligned dst 4) clsMem 3 (BitVec.ofNat 64 dst)
  liftTrap (if n = 0 then .ok () else s.myCore.spCheck src (8 * n) false)
  liftTrap (if dump then s.myCore.spCheck dst 256 true else .ok ())
  s.spReadyIf (n ≠ 0) src (8 * n) false
  s.spReadyIf dump dst 256 true
  match badRow (s.tableWords src n) 0 with
  | some r => stopTrap clsUse subFMTROW (BitVec.ofNat 64 (src + 8 * r))
  | none =>
    let s1 := if dump then s.dumpStat dst else s
    pure (s1.setMyCore (s1.myCore.addLate ⟨s1.now + 80, s.cur.eng, .table (bit ctl 8) (s1.tableWords src n)⟩))

/-- The register fields of class RR in the matrix stream. -/
def rrForm (g : BitVec 3) (ds : List (BitVec 6)) : Form := fM g (subUnless (ds.all (fun d => decide (d.toNat < 16))) subREGRANGE)

def execMfmt (d a b : BitVec 6) (g : BitVec 3) (s : State) : Out := issue s (rrForm g [d, a, b]) (mfmtBody d.toNat a.toNat b.toNat)

/-- Whether a fallback pool may stand at an offset (R189). -/
def Core.poolOk (c : Core) (base units : Nat) : Bool :=
  base % 64 = 0 && (units = 0 || (decide (c.codeTop ≤ base) && decide (base + 64 * units ≤ Config.spSize - c.spill)))
    && decide (base + 64 * units ≤ Config.spSize)

def execMfmtPool (a b : BitVec 6) (g : BitVec 3) (s : State) : Out :=
  issue s (rrForm g [a, b]) fun s => do
    let base := (s.rx a.toNat).toNat
    let units := (s.rx b.toNat 1).toNat
    need (s.myCore.poolOk base units) clsUse subPOOLRANGE
    pure (s.setMyCore { s.myCore with poolBase := base, poolUnits := units })

/-- The commit of R74, row by row: pool space left, whether a denial has stopped the grants, status words. -/
def commitRows (c : Core) (now : Nat) : List Nat → BitVec 16 → Bool → Tab (BitVec 32) → BitVec 16 × Tab (BitVec 32)
  | [], left, _, st => (left, st)
  | r :: rs, left, stop, st =>
    let w := tGet 0 st r
    if w.getLsbD 31 && decide (tGet 0 c.fbAt r ≤ now) then
      let need_ := bits (c.cfgRow r).toNat 0 16
      let w0 := w &&& 0x7FFFFFFF#32
      if !stop && decide (need_ ≤ left.toNat) then commitRows c now rs (left - BitVec.ofNat 16 need_) stop (tSet 0 st r (w0 ||| 0x40000000#32))
      else
        let deny := min (w0.toNat % 2 ^ 16 + 1) 0xFFFF
        commitRows c now rs left true (tSet 0 st r ((w0 &&& 0xFFFF0000#32) ||| 0x20000000#32 ||| BitVec.ofNat 32 deny))
    else commitRows c now rs left stop st

/-- A core's pending fallbacks committed (R74). -/
def Core.commit (c : Core) (now : Nat) : Core :=
  let r := commitRows c now (upto 0 64) c.poolFree false c.fmtStat
  { c with poolFree := r.1, fmtStat := r.2 }

/-- The rows of a core's table that a commit would visit. -/
def Core.pendRows (c : Core) (now : Nat) : List Nat := (upto 0 64).filter (fun r => (tGet 0 c.fmtStat r).getLsbD 31 && decide (tGet 0 c.fbAt r ≤ now))

/-- FBPEND of a list of rows ORed into a core's table (R74). -/
def Core.markRows (c : Core) (rows : List Nat) : Core :=
  { c with fmtStat := rows.foldl (fun t r => tSet 0 t r (tGet 0 t r ||| BitVec.ofNat 32 (2 ^ 31))) c.fmtStat, fbAt := rows.foldl tDel c.fbAt }

/-- `mfmtcommit` (R190): the commit is made in the clk it lands, on the bits set before. -/
def mfmtcommitBody (s : State) : Res State := do
  s.tableWait
  pure (s.setMyCore (s.myCore.addLate ⟨s.now + 2, s.cur.eng, .commit⟩))

def execMfmtcommit (g : BitVec 3) (s : State) : Out := issue s (fM g) mfmtcommitBody

end Sys2Proof.Machine
end

