-- ==== Sys2Proof/Machine/Sha.lean ====
section
/-! DEFINITION. SHA-256, which R380 names and the spec does not define (PRESUMED, log 40): FIPS 180-4. -/

namespace Sys2Proof.Machine

/-- The round constants. -/
def shaK : List (BitVec 32) :=
  [0x428a2f98, 0x71374491, 0xb5c0fbcf, 0xe9b5dba5, 0x3956c25b, 0x59f111f1, 0x923f82a4, 0xab1c5ed5,
   0xd807aa98, 0x12835b01, 0x243185be, 0x550c7dc3, 0x72be5d74, 0x80deb1fe, 0x9bdc06a7, 0xc19bf174]
  ++ [0xe49b69c1, 0xefbe4786, 0x0fc19dc6, 0x240ca1cc, 0x2de92c6f, 0x4a7484aa, 0x5cb0a9dc, 0x76f988da,
   0x983e5152, 0xa831c66d, 0xb00327c8, 0xbf597fc7, 0xc6e00bf3, 0xd5a79147, 0x06ca6351, 0x14292967]
  ++ [0x27b70a85, 0x2e1b2138, 0x4d2c6dfc, 0x53380d13, 0x650a7354, 0x766a0abb, 0x81c2c92e, 0x92722c85,
   0xa2bfe8a1, 0xa81a664b, 0xc24b8b70, 0xc76c51a3, 0xd192e819, 0xd6990624, 0xf40e3585, 0x106aa070]
  ++ [0x19a4c116, 0x1e376c08, 0x2748774c, 0x34b0bcb5, 0x391c0cb3, 0x4ed8aa4a, 0x5b9cca4f, 0x682e6ff3,
   0x748f82ee, 0x78a5636f, 0x84c87814, 0x8cc70208, 0x90befffa, 0xa4506ceb, 0xbef9a3f7, 0xc67178f2]

/-- The eight words of a hash. -/
structure Sha where
  a : BitVec 32
  b : BitVec 32
  c : BitVec 32
  d : BitVec 32
  e : BitVec 32
  f : BitVec 32
  g : BitVec 32
  h : BitVec 32
  deriving DecidableEq, Repr

def shaInit : Sha := ⟨0x6a09e667, 0xbb67ae85, 0x3c6ef372, 0xa54ff53a, 0x510e527f, 0x9b05688c, 0x1f83d9ab, 0x5be0cd19⟩

/-- One round on a message word plus its constant. -/
def Sha.round (x : Sha) (kw : BitVec 32) : Sha :=
  let s1 := x.e.rotateRight 6 ^^^ x.e.rotateRight 11 ^^^ x.e.rotateRight 25
  let ch := (x.e &&& x.f) ^^^ (~~~x.e &&& x.g)
  let t1 := x.h + s1 + ch + kw
  let s0 := x.a.rotateRight 2 ^^^ x.a.rotateRight 13 ^^^ x.a.rotateRight 22
  let maj := (x.a &&& x.b) ^^^ (x.a &&& x.c) ^^^ (x.b &&& x.c)
  ⟨t1 + s0 + maj, x.a, x.b, x.c, x.d + t1, x.e, x.f, x.g⟩

/-- The next word of the message schedule from the last sixteen. -/
def shaNext (w : List (BitVec 32)) : BitVec 32 :=
  let at_ := fun (i : Nat) => w.getD i 0
  let s0 := (at_ 1).rotateRight 7 ^^^ (at_ 1).rotateRight 18 ^^^ (at_ 1) >>> 3
  let s1 := (at_ 14).rotateRight 17 ^^^ (at_ 14).rotateRight 19 ^^^ (at_ 14) >>> 10
  s1 + at_ 9 + s0 + at_ 0

/-- The rounds of a block, with the last sixteen words of its schedule. -/
def shaRounds : List (BitVec 32) → List (BitVec 32) → Sha → Sha
  | [], _, x => x
  | k :: ks, w, x => shaRounds ks (w.tail ++ [shaNext w]) (x.round (k + w.headD 0))

/-- Big-endian words of a block. -/
def shaWords (b : List Byte) : List (BitVec 32) :=
  (upto 0 16).map (fun i => b.getD (4 * i) 0 ++ b.getD (4 * i + 1) 0 ++ b.getD (4 * i + 2) 0 ++ b.getD (4 * i + 3) 0)

def Sha.block (x : Sha) (b : List Byte) : Sha :=
  let y := shaRounds shaK (shaWords b) x
  ⟨x.a + y.a, x.b + y.b, x.c + y.c, x.d + y.d, x.e + y.e, x.f + y.f, x.g + y.g, x.h + y.h⟩

/-- The blocks of a padded message. -/
def shaBlocks : Nat → List Byte → Sha → Sha
  | 0, _, x => x
  | n + 1, m, x => shaBlocks n (m.drop 64) (x.block (m.take 64))

/-- The padding of a message of n bytes. -/
def shaPad (n : Nat) : List Byte := 0x80#8 :: List.replicate ((119 - n % 64) % 64) 0#8 ++ (natToBytes 8 (8 * n)).reverse

/-- SHA-256 of a list of bytes: 32 bytes in the order of the standard. -/
def sha256 (m : List Byte) : List Byte :=
  let x := shaBlocks ((m.length + 72) / 64) (m ++ shaPad m.length) shaInit
  [x.a, x.b, x.c, x.d, x.e, x.f, x.g, x.h].flatMap (fun w => (natToBytes 4 w.toNat).reverse)

end Sys2Proof.Machine
end

