-- ==== Sys2Proof/Machine/Sync.lean ====
section
/-! DEFINITION. The flag file, barriers and `chunk` (R258 to R263), deferred arrivals (R262), and posted flag adds (R259). -/

namespace Sys2Proof.Machine

/-- Illegal-use subcodes of R257. -/
def subBARBAD : Nat := 0x26
def subFLAGIDX : Nat := 0x27
def subCHUNKBAD : Nat := 0x28
def subLAUNCH : Nat := 0x29
def subTASKOP : Nat := 0x2A

/-! ### Barriers on a flag file -/

/-- A flag. -/
def flagAt (fs : Tab (BitVec 32)) (i : Nat) : Nat := (tGet 0 fs i).toNat

/-- A flag written. -/
def setFlag (fs : Tab (BitVec 32)) (i v : Nat) : Tab (BitVec 32) := tSet 0 fs i (BitVec.ofNat 32 v)

/-- Whether a control word is that of a four-phase barrier. -/
def barFour (c : Nat) : Bool := bit c 31

/-- The BARBAD rule of R261. -/
def barBad (fs : Tab (BitVec 32)) (f : Nat) : Bool :=
  let c := flagAt fs f
  decide (4091 < f) || (!barFour c && f % 2 ≠ 0) || (barFour c && f % 8 ≠ 0) || bits c 16 15 ≠ 0 || bits c 0 16 = 0 || (barFour c && bit c 15)

/-- A native arrival: the flag file and the token. -/
def arriveNative (fs : Tab (BitVec 32)) (f : Nat) : Tab (BitVec 32) × Nat :=
  let w := flagAt fs (f + 1)
  let ph := bits w 16 16
  let tok := (ph + 1) % 2 ^ 16
  let n := (bits w 0 16 + 1) % 2 ^ 16
  (setFlag fs (f + 1) (if n = bits (flagAt fs f) 0 16 then tok * 2 ^ 16 else ph * 2 ^ 16 + n), tok)

/-- A four-phase arrival at slot j: the flag file and the phase. -/
def arriveFour (fs : Tab (BitVec 32)) (f j : Nat) : Tab (BitVec 32) × Nat :=
  let w := flagAt fs (f + 1 + j)
  let ph := if bit w 15 then bits w 16 16 else (bits w 16 16 + 4) % 2 ^ 16
  let n := ((if bit w 15 then bits w 0 15 else 0) + 1) % 2 ^ 15
  (setFlag fs (f + 1 + j) (if n = bits (flagAt fs f) 0 15 then ph * 2 ^ 16 else ph * 2 ^ 16 + 2 ^ 15 + n), ph)

/-- An arrival by the barrier's kind. -/
def arrive (fs : Tab (BitVec 32)) (f j : Nat) : Tab (BitVec 32) × Nat := if barFour (flagAt fs f) then arriveFour fs f j else arriveNative fs f

/-- The current context's flag file. -/
def State.flags (s : State) : Tab (BitVec 32) := (s.ctxAt s.myCtx).flags
def State.setFlags (s : State) (ctx : Nat) (fs : Tab (BitVec 32)) : State := s.setCtx { s.ctxAt ctx with flags := fs }

/-- When a gang barrier's PHASE passes from 0xFFFF to 0, the gang's owner tags are cleared (R289). -/
def State.wrapTags (s : State) (ctx f : Nat) (old : Tab (BitVec 32)) (new : Tab (BitVec 32)) : State :=
  if bits (flagAt old (f + 1)) 16 16 = 0xFFFF && bits (flagAt new (f + 1)) 16 16 = 0 then
    let insts := s.cores.filterMap (fun p => match p.2.task with
      | some t => if t.gang && t.gbar = f && s.ctxOf (p.1 / 160) (p.1 % 160) = ctx then some t.inst else none
      | none => none)
    { s with tags := s.tags.filter (fun q => !insts.contains q.2.inst) }
  else s

/-- An arrival at barrier F of a context, whose rules BARBAD has passed: the state, and the token or phase. -/
def State.arriveAt (s : State) (ctx f j : Nat) : State × Nat :=
  let fs := (s.ctxAt ctx).flags
  let r := arrive fs f j
  ((s.setFlags ctx r.1).wrapTags ctx f fs r.1, r.2)

/-- A form of the flag unit. -/
def flagForm (g : BitVec 3) : Form := { fC g with eff := true }

def barArriveBody (d a b : Nat) (s : State) : Res State := do
  let f := (s.rx a).toNat
  await s.myCore.drained s
  need (!barBad s.flags f) clsUse subBARBAD (BitVec.ofNat 64 f)
  let r := s.arriveAt s.myCtx f ((s.rx b 1).toNat % 4)
  pure (r.1.landX d (BitVec.ofNat 64 r.2) 1)

def execBarArrive (d a b : BitVec 6) (g : BitVec 3) (s : State) : Out := issue s (flagForm g) (barArriveBody d.toNat a.toNat b.toNat)

def barWaitBody (d a b : Nat) (s : State) : Res State := do
  let f := (s.rx a).toNat
  await s.myCore.drained s
  need (!barBad s.flags f && !barFour (flagAt s.flags f)) clsUse subBARBAD (BitVec.ofNat 64 f)
  let ph := bits (flagAt s.flags (f + 1)) 16 16
  await (decide (0 ≤ (BitVec.ofNat 16 ph - BitVec.ofNat 16 (s.rx b 1).toNat).toInt)) s
  pure (s.landX d (BitVec.ofNat 64 ph) 1)

def execBarWait (d a b : BitVec 6) (g : BitVec 3) (s : State) : Out := issue s (flagForm g) (barWaitBody d.toNat a.toNat b.toNat)

def barWait4Body (d a b : Nat) (s : State) : Res State := do
  let f := (s.rx a).toNat
  await s.myCore.drained s
  need (!barBad s.flags f && barFour (flagAt s.flags f)) clsUse subBARBAD (BitVec.ofNat 64 f)
  let w := flagAt s.flags (f + 1 + (s.rx b 1).toNat % 4)
  await (!bit w 15) s
  pure (s.landX d (BitVec.ofNat 64 (bits w 16 16)) 1)

def execBarWait4 (d a b : BitVec 6) (g : BitVec 3) (s : State) : Out :=
  issue s { flagForm g with feature := some 4 } (barWait4Body d.toNat a.toNat b.toNat)

/-! ### Flags -/

/-- A value added to a flag, modulo 2^32. -/
def addFlag (fs : Tab (BitVec 32)) (i : Nat) (v : BitVec 32) : Tab (BitVec 32) := tSet 0 fs i (tGet 0 fs i + v)

def flagAddBody (d a b : Nat) (s : State) : Res State := do
  let f := (s.rx a 1).toNat
  let v := BitVec.ofNat 32 (s.rx b 2).toNat
  await s.myCore.drained s
  need (decide (f ≤ 4095)) clsUse subFLAGIDX
  if d = 0 then pure (s.setFlags s.myCtx (addFlag s.flags f v))
  else
    let e ← liftTrap (s.importOf s.myCtx (s.rx d) [3])
    let r := s.newItem s.cur.die s.cur.core { pid := 0, imp := e.2.uid, home := if e.2.foreign then none else some e.2.die, eng := s.cur.eng }
    pure { r.2 with flagMsgs := r.2.flagMsgs ++ [⟨s.cur.die, s.cur.core, r.1, e.2.exp, e.2.die, f, v⟩] }

def execFlagAdd (d a b : BitVec 6) (g : BitVec 3) (s : State) : Out := issue s (flagForm g) (flagAddBody d.toNat a.toNat b.toNat)

def flagWaitBody (d a b : Nat) (s : State) : Res State := do
  let f := (s.rx a).toNat
  await s.myCore.drained s
  need (decide (f ≤ 4095)) clsUse subFLAGIDX
  let v := tGet 0 s.flags f
  await (decide (0 ≤ (v - BitVec.ofNat 32 (s.rx b 1).toNat).toInt)) s
  pure (s.landX d (BitVec.ofNat 64 v.toNat) 1)

def execFlagWait (d a b : BitVec 6) (g : BitVec 3) (s : State) : Out := issue s (flagForm g) (flagWaitBody d.toNat a.toNat b.toNat)

/-- A flag added to: in the live flag file, or on its word of the save area while the file is switched out (R136). -/
def State.flagAdd (s : State) (ctx idx : Nat) (v : BitVec 32) : State :=
  let c := s.ctxAt ctx
  let va := c.save + 4 * idx
  match c.out, s.vread ctx [0] va 4 with
  | true, some w => s.vwrite ctx [0] va (natToBytes 4 ((w + v.toNat) % 2 ^ 32))
  | _, _ => s.setFlags ctx (addFlag c.flags idx v)

/-- Whether a flag add may be performed (R259): every store the core posted to that home before it has been. -/
def State.flagAddFree (s : State) (m : FlagMsg) : Bool :=
  !s.dieAway m.home && (s.postedTo m.die m.core m.home).all (fun p => decide (m.pid < p.pid))

/-- FLAG_ADD_ARRIVAL is due: adds from one die to another arrive in the order sent (R314). -/
def State.flagAddDue (s : State) (m : FlagMsg) (n : Nat) : Bool :=
  s.flagAddFree m && (s.flagMsgs.take n).all (fun x => !(x.die = m.die && x.home = m.home && s.flagAddFree x))

/-- The add performed at its flag file, or dropped where the export is revoked; its acknowledgement starts back. -/
def State.flagAddArrive (s : State) (n : Nat) (m : FlagMsg) : State :=
  let s1 := { s with flagMsgs := dropNth s.flagMsgs n }
  let ok := match s1.exportOf m.exp with
    | some e => !e.revoked
    | none => false
  let s2 := match s1.exportOf m.exp with
    | some e => if ok then s1.flagAdd e.ctx m.idx m.val else s1
    | none => s1
  s2.ackItem m.home m.die m.core m.pid (!ok)

def execFlagAddArrival (n : Nat) (s : State) : Out :=
  match s.flagMsgs[n]? with
  | none => .next s
  | some m => event s (s.flagAddDue m n) (fun s => s.flagAddArrive n m)

/-! ### chunk (R263) -/

/-- The size a `chunk` call takes: MIN read as 1 when 0, C as the gang's tiles when 0. -/
def chunkSize (next end_ min_ c : Nat) : Nat :=
  let left := end_ - next
  min left (max (if min_ = 0 then 1 else min_) ((left + 2 * c - 1) / (2 * c)))

/-- The gang's tile count, 1 outside a gang. -/
def State.gangTiles (s : State) : Nat :=
  match s.myTask with
  | some t => if t.gang then t.tiles else 1
  | none => 1

def chunkBody (i : Instr) (d a b : Nat) (s : State) : Res State := do
  let ea := (s.rx a).toNat
  let w := (s.rx b 1).toNat
  need (aligned ea 16) clsMem 3 (BitVec.ofNat 64 ea)
  need (bits w 48 16 = 0) clsUse subCHUNKBAD
  let p ← liftAt ea (s.check s.myCtx none [0] ea 16 true)
  need (p.mtype = 0) clsMem 6 (BitVec.ofNat 64 ea)
  await (s.reqOut i ea || (s.myCore.drained && !s.storesAt p.key 16)) s
  await (s.reqOut i ea) (s.noteReq i ea true)
  asReq i ea true (s.canWrite p.home none p 16)
  let next := s.cohNat p.key 8
  let c := if bits w 32 16 = 0 then s.gangTiles else bits w 32 16
  let size := chunkSize next (s.cohNat (p.key + 8) 8) (bits w 0 32) c
  pure (((s.putMem p.key p.keyNo (natToBytes 8 (next + size))).landX d (BitVec.ofNat 64 next) 1).landX (d + 1) (BitVec.ofNat 64 size) 1)

def execChunk (d a b : BitVec 6) (g : BitVec 3) (s : State) : Out :=
  issue s { fC g (subUnless (d.toNat % 2 = 0 && d.toNat ≠ 0) subREGRANGE) with eff := true } (chunkBody (.chunk d a b g) d.toNat a.toNat b.toNat)

/-! ### Deferred arrivals (R262) -/

/-- Whether a deferred arrival's entries have landed, their posted writes and puts have been performed, and so have the stores that it orders as a
release (R262, R283, R294); not before the clk after its issue. -/
def Core.deferReady (c : Core) (now : Nat) (d : Deferred) : Bool :=
  decide (d.at_ ≤ now) && d.nums.isEmpty && c.posted.all (fun i => i.dropped || i.done || !d.pids.contains i.pid) && c.released .x

/-- One deferred arrival performed; BARBAD is an imprecise trap of the X engine. -/
def State.arriveDeferred (s : State) (die core : Nat) (d : Deferred) : State :=
  let ctx := s.ctxOf die core
  let fs := (s.ctxAt ctx).flags
  if barBad fs d.f.toNat then s.takeTrap ⟨die, core, .x⟩ { cls := clsUse, sub := subBARBAD, addr := d.f, imprecise := true, async := true, skip := false }
  else (s.arriveAt ctx d.f.toNat d.j).1

/-- Every deferred arrival of a running core that is ready, in order. -/
def State.settleDefer (s : State) (die core : Nat) : State :=
  if (s.partOfCore die core).halt.isSome then s
  else
    let c := s.coreAt die core
    let s1 := s.setCoreAt die core { c with defer := c.defer.filter (fun d => !c.deferReady s.now d) }
    (c.defer.filter (c.deferReady s.now)).foldl (fun s d => s.arriveDeferred die core d) s1

/-- Every deferred arrival that is ready: the flag unit performs them on its own. -/
def State.settleAll (s : State) : State :=
  s.cores.foldl (fun s p => if p.2.defer.isEmpty then s else s.settleDefer (p.1 / Config.coresPerDie) (p.1 % Config.coresPerDie)) s

/-- The partition resumes by R132, and the sums of chains that the halt held back are formed (R125). -/
def State.resumeWhole (s : State) (die part : Nat) : State := (s.resumePart die part).formAll

/-- Whether nothing of the handler's stream is still to land. -/
def Core.handlerLanded (c : Core) : Bool := c.h.cntReads.isEmpty && c.late.all (fun l => decide (l.eng ≠ .h))

/-- `eret` (R132): the illegal use comes first, then the wait for every earlier instruction of the handler to land. -/
def execEret (g : BitVec 3) (s : State) : Out :=
  issue s (fC g) fun s => do
    need s.myCore.inHandler clsUse 5
    await s.myCore.handlerLanded s
    .error (.jump ((s.setMyCore s.myCore.leaveHandler).resumeWhole s.cur.die (s.partOf s.cur.die s.cur.core)))

def barArriveDBody (a b : Nat) (s : State) : Res State :=
  let c := s.myCore
  let d : Deferred := { at_ := s.now + 1, f := s.rx a, j := (s.rx b 1).toNat % 4, nums := (c.copyq.filter (fun k => !k.helper)).map (·.num),
                        pids := (c.posted.filter (fun i => i.copy && !i.dropped)).map (·.pid) }
  .ok (s.setMyCore { c with defer := c.defer ++ [d] })

def execBarArriveD (a b : BitVec 6) (g : BitVec 3) (s : State) : Out :=
  issue s { fX g (s.regs [a.toNat, b.toNat]) with eff := true } (barArriveDBody a.toNat b.toNat)

/-- A copy-queue entry gone from the deferred arrivals it was bound to; the items it posted stay to be performed. -/
def Core.landFor (c : Core) (k : Copy) : Core :=
  { c with defer := c.defer.map (fun d => if d.nums.contains k.num then { d with nums := d.nums.filter (· ≠ k.num), pids := d.pids ++ k.pids } else d) }

end Sys2Proof.Machine
end

