-- ==== Sys2Proof/Machine/Coherence.lean ====
section
/-! DEFINITION. Coherence across dies: snoop filters (R310, R320), stash snoops (R240), transactions at the home (R308, Table 16.7), posted
stores (R309), and die loss (R318). -/

namespace Sys2Proof.Machine

/-! ### Snoop filters (R310, R320) -/

/-- The physical address of a key. -/
def paOf (key : Nat) : Nat := if key < sharedBase then key % 2 ^ 52 else key - sharedBase

/-- The partition that a line's physical address belongs to in private mode (R311). -/
def State.linePart (s : State) (line : Nat) : Nat :=
  let key := line * 256
  let pa := paOf key
  if regionOf pa = .hbm then pa * 2 ^ s.partLog (key / 2 ^ 52) / hbmBytes
  else match s.allotOf pa with
    | some (_, p) => p
    | none => 0

/-- The slice and set of a line's snoop-filter entries. -/
def State.filterSet (s : State) (line : Nat) : Nat × Nat :=
  let n := paOf (line * 256) / 256
  let home := s.homeOf (line * 256)
  if (s.dieAt home).priv then
    let m := Config.coresPerDie / 2 ^ s.partLog home
    (m * s.linePart line + n % m, n / m % 256)
  else (n % 160, n / 160 % 256)

/-- The entries of a die that share a line's set, in the order they were allocated. -/
def State.filterWays (s : State) (die line : Nat) : List (Nat × Nat) := s.filt.filter (fun e => e.1 = die && s.filterSet e.2 = s.filterSet line)

/-- Whether a die's filter has or can take an entry for a line: 16 ways. -/
def State.filterRoom (s : State) (die line : Nat) : Bool := s.filt.contains (die, line) || decide ((s.filterWays die line).length < 16)

/-- An entry allocated. -/
def State.filterAdd (s : State) (die line : Nat) : State := { s with filt := addNew s.filt [(die, line)] }

/-- Whether a core of a die holds a valid stash sector of a line. -/
def State.stashHolds (s : State) (die line : Nat) : Bool :=
  s.cores.any (fun p => p.1 / 160 = die && p.2.sectors.any (fun q => q.2.key / 256 = line && q.2.st ≠ .invalid))

/-- Whether a die's entry for a line has a reason to stand. -/
def State.entryLive (s : State) (e : Nat × Nat) : Bool :=
  s.stashHolds e.1 e.2 || s.xactOn e.2 || (if s.homeOf (e.2 * 256) = e.1 then (s.dirAt e.2).st ≠ .u else (s.lineAt e.2 e.1).st ≠ .i)

/-- Entries without a holder dropped. -/
def State.filterPrune (s : State) : State := { s with filt := s.filt.filter s.entryLive }

/-! ### Stash sectors as holders (R240) -/

/-- A sector's scratchpad bytes written back under the key it was filled from; the sector is clean. -/
def State.sectorBack (s : State) (die core u : Nat) : State :=
  let c := s.coreAt die core
  let e := tGet {} c.sectors u
  if e.st = .dirty then
    let p : Phys := { key := e.key, home := s.homeOf e.key, keyNo := e.keyNo, mtype := 0, mclass := 0 }
    (s.setCoreAt die core { c with sectors := tSet {} c.sectors u { e with st := .clean } }).put die p (mRead c.scratch (u * 32) 32)
  else s

/-- A sector invalid. -/
def State.sectorDrop (s : State) (die core u : Nat) : State :=
  let c := s.coreAt die core
  s.setCoreAt die core { c with sectors := tSet {} c.sectors u {} }

/-- A snoop's effect: written back, and for a write by another agent invalidated. -/
def State.snoopSector (s : State) (die core u : Nat) (write : Bool) : State :=
  let s1 := s.sectorBack die core u
  if write then s1.sectorDrop die core u else s1

/-- Every stash sector of a line on a die, as for a write by another agent. -/
def State.stashClear (s : State) (die line : Nat) : State :=
  (s.stashConf die none line true).foldl (fun s n => s.snoopSector n.die n.core (n.off / 32) true) s

/-! ### Posted stores (R309) -/

/-- An import of a core's context marked revoked. -/
def State.revokeImport (s : State) (ctx slot : Nat) : State :=
  let c := s.ctxAt ctx
  s.setCtx { c with imports := c.imports.map (fun p => if p.1 = slot then (p.1, { p.2 with revoked := true }) else p) }

/-- The place a posted store is performed at, by the exporter's translation as it stands; none where the home drops it. -/
def State.postPlace (s : State) (m : Posted) : Option Phys :=
  match m.key, s.exportOf m.exp with
  | some _, some e =>
    if e.revoked then none
    else match s.pageCheck (s.ctxAt e.ctx) [0] m.va.toNat true m.va.toNat with
      | .ok l => let key := physKey e.die l.pa; some { key := key, home := s.homeOf key, keyNo := l.keyNo, mtype := l.mtype, mclass := l.mclass }
      | .error _ => none
  | _, _ => none

/-- POSTED_STORE_PERFORMED: the oldest of a core's posted queue for a home die. -/
def State.performPost (s : State) (m : Posted) : State :=
  let s1 := { s with posts := s.posts.filter (fun p => !(p.die = m.die && p.core = m.core && p.pid = m.pid)) }
  match s.postPlace m with
  | none => (s1.revokeImport (s.ctxOf m.die m.core) m.slot).ackItem m.home m.die m.core m.pid true
  | some p => match s.canWrite m.die none p m.data.length with
    | .error (.wait t) => t
    | .error _ => s
    | .ok () => (s1.put m.die p m.data).ackItem m.home m.die m.core m.pid false

/-- Whether a posted store is the oldest of its queue, lies in a line, and may be merged into its die's copy now. -/
def State.postReady (s : State) (m : Posted) (line : Nat) : Bool :=
  (s.postedTo m.die m.core m.home).head? = some m &&
  (match s.postPlace m with
   | some p => p.key / 256 = line && decide (s.homeOf p.key ≠ m.die) && (match s.canWrite m.die none p m.data.length with
     | .ok () => true
     | .error _ => false)
   | none => false)

/-- The stores that have waited for a line merged into a die's copy of it, each core's in queue order (R309). -/
def State.mergePosts (s : State) (die line : Nat) : State :=
  s.posts.foldl (fun s m => if m.die = die && s.postReady m line then s.performPost m else s) s

/-! ### A line's home -/

/-- The 256 bytes of a line as a memory. -/
def State.lineBytes (s : State) (line : Nat) : Mem := tabOf 0 s.cohByte (upto (line * 256) 256)

/-- Bytes given as a memory put back at the home. -/
def State.lineHome (s : State) (line : Nat) (data : Mem × Nat) : State :=
  s.putMem (line * 256) data.2 ((upto (line * 256) 256).map (fun k => tGet 0 data.1 k))

/-- The directory without one holder. -/
def Dir.without (d : Dir) (die : Nat) : Dir :=
  let sh := d.sharers.filter (· ≠ die)
  match d.st with
  | .u => d
  | .s => if sh = [] then {} else { d with sharers := sh }
  | _ => if d.owner = die then (if sh = [] then {} else { st := .s, sharers := sh }) else { d with sharers := sh }

/-- The holders of a line. -/
def Dir.holders (d : Dir) : List Nat :=
  match d.st with
  | .u => []
  | .s => d.sharers
  | _ => addNew [d.owner] d.sharers

/-- Whether the directory names an owner. -/
def Dir.owned (d : Dir) : Bool := d.st = .e || d.st = .m || d.st = .o

/-- A die takes a copy of a line. -/
def State.takeLine (s : State) (die line : Nat) (st : LineSt) : State :=
  (s.setLine line die ⟨st, s.lineBytes line, 0⟩).filterAdd die line

/-- A ReadS completed by a directory without an owner (R308). -/
def State.grantS (s : State) (die line : Nat) : State :=
  let d := s.dirAt line
  if d.st = .u then (s.takeLine die line .e).setDir line { st := .e, owner := die }
  else (s.takeLine die line .s).setDir line { d with sharers := addNew d.sharers [die] }

/-- A completed transaction's effect (Table 16.7). -/
def State.complete (s : State) (x : Xact) : State :=
  let d := s.dirAt x.req.line
  let ln := x.req.line
  match x.req.kind with
  | .readS =>
    if !d.owned then s.grantS x.req.die ln
    else
      let s1 := s.takeLine x.req.die ln .s
      s1.setDir ln (if x.dirty then { d with st := .o, sharers := addNew d.sharers [x.req.die] } else { st := .s, sharers := addNew d.sharers [d.owner, x.req.die] })
  | .readX =>
    let own := s.lineAt ln x.req.die
    (((s.setLine ln x.req.die ⟨.m, s.lineBytes ln, (x.data.map (·.2)).getD own.keyNo⟩).filterAdd x.req.die ln).setDir ln
      { st := .m, owner := x.req.die }).mergePosts x.req.die ln
  | .homeRead =>
    let s1 := match x.data with
      | some m => s.lineHome ln m
      | none => s
    s1.setDir ln (if !d.owned then d else if x.dirty then { d with st := .o } else { st := .s, sharers := addNew d.sharers [d.owner] })
  | .homeWrite =>
    let s1 := match x.data with
      | some m => s.lineHome ln m
      | none => s
    s1.setDir ln {}

/-- A transaction taken off the home's list. -/
def State.finishXact (s : State) (x : Xact) : State :=
  let s1 := s.complete x
  ({ s1 with xacts := s1.xacts.filter (fun y => y.req.line ≠ x.req.line) } : State).filterPrune

/-- A transaction begun: completed at once where nothing is to be awaited. -/
def State.beginXact (s : State) (r : CohReq) (kind : FwdKind) (to_ : List Nat) : State :=
  if to_ = [] then s.finishXact { req := r, due := [] }
  else { s with xacts := s.xacts ++ [{ req := r, due := to_ }], fwds := s.fwds ++ to_.map (fun d => ⟨kind, d, r.line, r.die⟩) }

/-- Whether a request's line and the filters are free for it: no transaction of the line is in progress, and both sets have room. -/
def State.reqFree (s : State) (r : CohReq) : Bool :=
  let h := s.homeOf (r.line * 256)
  !s.xactOn r.line && s.filterRoom h r.line && (r.die = h || s.filterRoom r.die r.line) && !s.dieAway h && !(s.dieAt r.die).lost

/-- Whether a request may start: it is free, the line's earliest, and none that could start was sent before it from the same die to the same home
(R308, R314). -/
def State.reqDue (s : State) (n : Nat) (r : CohReq) : Bool :=
  s.reqFree r && (s.reqs.take n).all (fun q => q.line ≠ r.line && !(q.die = r.die && s.homeOf (q.line * 256) = s.homeOf (r.line * 256) && s.reqFree q))

/-- The home's stash sectors in a request's way. -/
def State.reqSnoops (s : State) (r : CohReq) : List Snoop :=
  let h := s.homeOf (r.line * 256)
  if r.die = h then [] else s.stashConf h none r.line (r.kind = .readX)

/-- The start of a request at its home (Table 16.7), with an entry in the filters of both dies (R310). A requester that the directory still lists has
dropped its copy silently. -/
def State.startReq (s : State) (n : Nat) (r : CohReq) : State :=
  match s.reqSnoops r with
  | x :: xs => { s with snoops := addNew s.snoops (x :: xs) }
  | [] =>
    let h := s.homeOf (r.line * 256)
    let s1 := ({ s with reqs := dropNth s.reqs n } : State)
    let gone := r.kind = .readS && (s1.lineAt r.line r.die).st = .i
    let s2 := if gone then s1.setDir r.line ((s1.dirAt r.line).without r.die) else s1
    let d := s2.dirAt r.line
    let s3 := if r.die = h then s2 else (s2.filterAdd h r.line).filterAdd r.die r.line
    match r.kind with
    | .readS => if d.owned then s3.beginXact r .fwdS [d.owner] else s3.beginXact r .fwdS []
    | .readX => s3.beginXact r .inv (d.holders.filter (· ≠ r.die))
    | .homeRead => if d.owned then s3.beginXact r .fwdH [d.owner] else s3.beginXact r .fwdH []
    | .homeWrite => s3.beginXact r .inv d.holders

/-- A request event of one kind. -/
def reqEvent (k : ReqKind) (n : Nat) (s : State) : Out :=
  match s.reqs[n]? with
  | none => .next s
  | some r => event s (decide (r.kind = k) && s.reqDue n r) (fun s => s.startReq n r)

def execReads (n : Nat) : State → Out := reqEvent .readS n
def execReadx (n : Nat) : State → Out := reqEvent .readX n
def execHomeDieRead (n : Nat) : State → Out := reqEvent .homeRead n
def execHomeDieWrite (n : Nat) : State → Out := reqEvent .homeWrite n

/-! ### At a holder -/

/-- The dirty data of a line with its key number. -/
def Line.dirtyData (l : Line) : Option (Mem × Nat) := if l.dirty then some (l.data, l.keyNo) else none

/-- A message's effect at a holder, and its answer. -/
def State.answer (s : State) (f : Fwd) : State :=
  let l := s.lineAt f.line f.dest
  let ack : Ack := match f.kind with
    | .fwdS => { line := f.line, die := f.dest, nodata := l.st = .i, dirty := l.dirty }
    | .fwdH => { line := f.line, die := f.dest, nodata := l.st = .i, dirty := false, data := l.dirtyData }
    | .inv => { line := f.line, die := f.dest, nodata := l.st = .i, dirty := false, data := l.dirtyData }
  let l1 : Line := match f.kind with
    | .fwdS => if l.st = .i then l else if l.dirty then { l with st := .o } else { l with st := .s }
    | .fwdH => if l.st = .i then l else { l with st := .s }
    | .inv => {}
  ({ s with acks := s.acks ++ [ack] } : State).setLine f.line f.dest l1

/-- A forward or invalidation arrives: stash sectors of the die are met first (R240). -/
def State.arriveFwd (s : State) (n : Nat) (f : Fwd) : State :=
  match s.stashConf f.dest none f.line (f.kind = .inv) with
  | x :: xs => { s with snoops := addNew s.snoops (x :: xs) }
  | [] => (({ s with fwds := dropNth s.fwds n } : State).answer f).filterPrune

/-- Whether two forwards go from the same home to the same die: they arrive in the order sent (R314). -/
def State.sameRoute (s : State) (f g : Fwd) : Bool := f.dest = g.dest && s.homeOf (f.line * 256) = s.homeOf (g.line * 256)

def fwdEvent (k : FwdKind) (n : Nat) (s : State) : Out :=
  match s.fwds[n]? with
  | none => .next s
  | some f => event s (decide (f.kind = k) && !s.dieAway f.dest && (s.fwds.take n).all (fun g => !s.sameRoute f g)) (fun s => s.arriveFwd n f)

def execFwds (n : Nat) : State → Out := fwdEvent .fwdS n
def execFwdh (n : Nat) : State → Out := fwdEvent .fwdH n
def execInv (n : Nat) : State → Out := fwdEvent .inv n

/-- An acknowledgement reaches the home (R308); the last completes the transaction. -/
def State.ackArrive (s : State) (n : Nat) (a : Ack) : State :=
  let s1 := { s with acks := dropNth s.acks n }
  match s1.xacts.find? (fun x => x.req.line = a.line) with
  | none => s1
  | some x =>
    let x1 : Xact := { x with due := x.due.filter (· ≠ a.die), dirty := x.dirty || a.dirty, data := if a.data.isSome then a.data else x.data }
    let s2 := ({ s1 with xacts := s1.xacts.map (fun y => if y.req.line = a.line then x1 else y) } : State)
    let s3 := if a.nodata then s2.setDir a.line ((s2.dirAt a.line).without a.die) else s2
    if x1.due = [] then s3.finishXact x1 else s3

def execAcknowledgement (n : Nat) (s : State) : Out :=
  match s.acks[n]? with
  | none => .next s
  | some a => event s ((s.acks.take n).all (fun b => !(b.die = a.die && s.homeOf (b.line * 256) = s.homeOf (a.line * 256)))) (fun s => s.ackArrive n a)

/-! ### Write-backs and evictions -/

/-- WRITEBACK from an owner: data to memory, and the directory without it; a forward it crosses is answered by it. -/
def State.writeBack (s : State) (die line : Nat) : State :=
  let l := s.lineAt line die
  let s1 := ((s.lineHome line (l.data, l.keyNo)).setLine line die {}).setDir line ((s.dirAt line).without die)
  match s1.xacts.find? (fun x => x.req.line = line && x.due.contains die) with
  | none => s1.filterPrune
  | some x =>
    let x1 : Xact := { x with due := x.due.filter (· ≠ die) }
    let s2 := ({ s1 with fwds := s1.fwds.filter (fun f => !(f.line = line && f.dest = die)), xacts := s1.xacts.map (fun y => if y.req.line = line then x1 else y) } : State)
    if x1.due = [] then s2.finishXact x1 else s2

/-- A die gives up a line it caches, stash sectors first; a dirty copy goes home. -/
def State.giveUp (s : State) (die line : Nat) : State :=
  let s1 := s.stashClear die line
  if (s1.lineAt line die).dirty then s1.writeBack die line else s1.setLine line die {}

/-- Dirty data of a line that is in flight or held for a transaction put home, and the line's transaction and messages gone: requests that name a
revoked window are answered with an error, the home's own are made again (R316). -/
def State.abortXact (s : State) (line : Nat) : State :=
  let data := match s.acks.find? (fun a => a.line = line && a.data.isSome) with
    | some a => a.data
    | none => (s.xacts.find? (fun x => x.req.line = line && x.data.isSome)).bind (·.data)
  let s1 := match data with
    | some m => s.lineHome line m
    | none => s
  { s1 with xacts := s1.xacts.filter (fun x => x.req.line ≠ line), fwds := s1.fwds.filter (fun f => f.line ≠ line), acks := s1.acks.filter (fun a => a.line ≠ line) }

/-- The back-invalidation of a line at its home (R310): every remote holder, then the home's own stash sectors. -/
def State.backInval (s : State) (line : Nat) : State :=
  let h := s.homeOf (line * 256)
  let s0 := s.abortXact line
  let s1 := ((s0.dirAt line).holders).foldl (fun s d => s.giveUp d line) s0
  ((s1.stashClear h line).setDir line {}).filterPrune

/-- A line that some agent is about to take a new entry for, on a die. -/
def State.needsEntry (s : State) (die : Nat) : List Nat :=
  s.reqs.filterMap (fun r => if (s.homeOf (r.line * 256) = die || r.die = die) && !s.filt.contains (die, r.line) then some r.line else none)
    ++ s.cores.foldr (fun p acc =>
      if p.1 / 160 = die then (p.2.fills.filterMap (fun u =>
        match s.check (s.ctxOf die (p.1 % 160)) none [0] (p.2.sectorVa u) 32 false with
        | .ok q => if s.filt.contains (die, q.key / 256) then none else some (q.key / 256)
        | .error _ => none)) ++ acc
      else acc) []

/-- Whether the die has a request outstanding for a line, or the home a transaction. -/
def State.entryBusy (s : State) (die line : Nat) : Bool := s.xactOn line || s.reqs.any (fun r => r.die = die && r.line = line)

/-- Whether a command in progress on a core accesses a scratchpad range: the matrix operation that runs, the copy under way, a close that has started, or
a copy from another core (R240). -/
def State.spInUse (s : State) (die core lo n : Nat) : Bool :=
  let c := s.coreAt die core
  let by_ := fun (o : Owner) => match o with
    | .matrix k => (c.ops.head?).any (fun op => op.num = k && decide (op.prog ≠ {}))
    | .copy k => (c.copyq.head?).any (fun q => q.num = k && q.done ≠ 0)
    | .close k => (s.chainAt (k / 256) (k % 256)).close.any (·.started)
    | .remote d k m => ((s.coreAt d k).copyq.find? (fun q => q.num = m)).any (fun q => q.done ≠ 0)
  c.sb.any (fun e => decide (e.lo < lo + n) && decide (lo < e.hi) && by_ e.owner)

/-- Whether a stash sector of a line on a die is being accessed. -/
def State.lineInUse (s : State) (die line : Nat) : Bool := (s.stashConf die none line true).any (fun n => s.spInUse n.die n.core n.off 32)

/-- ENTRY_EVICTION: due when a new entry finds its set full and this is the way allocated earliest of those that may go. -/
def State.evictDue (s : State) (die line : Nat) : Bool :=
  s.filt.contains (die, line) && !s.entryBusy die line
    && decide (16 ≤ (s.filterWays die line).length) && (s.needsEntry die).any (fun l => s.filterSet l = s.filterSet line)
    && ((s.filterWays die line).find? (fun e => !s.entryBusy die e.2)) = some (die, line) && !s.lineInUse die line

/-- Whether a write-back may leave now: the copy is dirty, no answer of the die for the line is in flight, and there is cause: a message that takes the
data home is on its way, or the die's entry for the line is to be evicted (Table 16.7, R310). -/
def State.writeBackDue (s : State) (die line : Nat) : Bool :=
  (s.lineAt line die).dirty && !s.acks.any (fun a => a.line = line && a.die = die) && !s.stashHolds die line
    && (s.fwds.any (fun f => f.dest = die && f.line = line && f.kind ≠ .fwdS) || s.evictDue die line)

def execWriteback (die line : Nat) (s : State) : Out := event s (s.writeBackDue die line) (fun s => s.writeBack die line)

def State.evict (s : State) (die line : Nat) : State :=
  let s1 := if s.homeOf (line * 256) = die then s.backInval line else s.giveUp die line
  { s1 with filt := s1.filt.filter (· ≠ (die, line)) }

def execEntryEviction (die line : Nat) (s : State) : Out := event s (s.evictDue die line) (fun s => s.evict die line)

/-! ### Posted stores and their acknowledgements (R309) -/

def execPostedStorePerformed (die core home : Nat) (s : State) : Out :=
  match (s.postedTo die core home).head? with
  | none => .next s
  | some m => event s (!s.dieAway home) (fun s => s.performPost m)

/-- An item answered: gone, or kept as dropped for later flushes to report, and out of every flush that waits for it (R113, R114). -/
def Core.itemDone (c : Core) (pid : Nat) (dropped : Bool) : Core :=
  let covered := c.flushes.map (fun f => if f.items.contains pid then { f with items := f.items.filter (· ≠ pid), dropped := f.dropped || dropped } else f)
  let posted := if dropped then c.posted.map (fun i => if i.pid = pid then { i with dropped := true } else i) else c.posted.filter (fun i => i.pid ≠ pid)
  settleFlushes { c with posted := posted } covered

/-- STORE_ACK: an acknowledgement reaches its core. -/
def State.ackStore (s : State) (n : Nat) (a : StoreAck) : State :=
  let s1 := { s with sacks := dropNth s.sacks n }
  (s1.setCoreAt a.die a.core ((s1.coreAt a.die a.core).itemDone a.pid a.dropped)).settleDefer a.die a.core

def execStoreAck (n : Nat) (s : State) : Out :=
  match s.sacks[n]? with
  | none => .next s
  | some a => event s ((s.sacks.take n).all (fun b => !(b.src = a.src && b.die = a.die))) (fun s => s.ackStore n a)

/-! ### Revocation and die loss (R316, R318) -/

/-- Posted work that goes through an export dropped: stores, flag adds, puts and units. -/
def State.dropExport (s : State) (exp : Nat) : State :=
  let s1 := (s.posts.filter (fun p => p.exp = exp)).foldl (fun s p => s.ackItem p.home p.die p.core p.pid true) s
  let s2 := (s.flagMsgs.filter (fun p => p.exp = exp)).foldl (fun s p => s.ackItem p.home p.die p.core p.pid true) s1
  let s3 := (s.puts.filter (fun p => p.exp = exp)).foldl (fun s p => s.ackItem (p.home.getD 4) p.die p.core p.pid true) s2
  let s4 := (s.units.filter (fun p => p.exp = exp)).foldl (fun s p => s.ackItem (p.home.getD 4) p.die p.core p.pid true) s3
  { s4 with posts := s4.posts.filter (fun p => p.exp ≠ exp), flagMsgs := s4.flagMsgs.filter (fun p => p.exp ≠ exp),
            puts := s4.puts.filter (fun p => p.exp ≠ exp), units := s4.units.filter (fun p => p.exp ≠ exp) }

/-- The lines of an export's window that other dies hold: pages of the exporter's range. -/
def State.windowLines (s : State) (e : ExportEnt) : List Nat :=
  (s.dirs.map (·.1)).filter (fun ln => (upto 0 (e.len / 4096)).any (fun k =>
    match s.xlate (s.ctxAt e.ctx) (e.base + 4096 * k) with
    | some l => physKey e.die l.pa / 4096 = ln * 256 / 4096
    | none => false))

/-- Every import of an export marked revoked, in every context. -/
def State.revokeImports (s : State) (exp : Nat) : State :=
  { s with ctxs := s.ctxs.map (fun p => (p.1, { p.2 with imports := p.2.imports.map (fun q => if q.2.exp = exp then (q.1, { q.2 with revoked := true }) else q) })) }

/-- An export revoked (R316): its window's lines called home, posted work dropped, imports marked, chains through it frozen. -/
def State.revokeExport (s : State) (exp : Nat) : State :=
  match s.exportOf exp with
  | none => s
  | some e =>
    if e.revoked then s
    else
      let s1 := if e.kind = 1 then (s.windowLines e).foldl (fun s ln => s.backInval ln) s else s
      let s2 := s1.dropExport exp
      let s3 := s2.revokeImports exp
      let s4 := { s3 with exports := s3.exports.map (fun (x : ExportEnt) => if x.handle.toNat = exp then { x with revoked := true } else x) }
      s4.freezeExport exp

/-- The exports that a lost die's copies belong to. -/
def State.lostExports (s : State) (die : Nat) : List Nat :=
  (s.exports.filter (fun e => e.die = die || (e.kind = 1 && (s.windowLines e).any (fun ln => (s.dirAt ln).holders.contains die)))).map (fun e => e.handle.toNat)

/-- Every copy of a lost die dropped: a line it held dirty keeps its last written-back value. What the home still does on its behalf ends
as a transaction of the home's own. -/
def State.dropCopies (s : State) (die : Nat) : State :=
  let s1 := (s.dirs.map (·.1)).foldl (fun s ln => (s.setLine ln die {}).setDir ln ((s.dirAt ln).without die)) s
  let s2 := ({ s1 with reqs := s1.reqs.filter (fun r => r.die ≠ die && s.homeOf (r.line * 256) ≠ die) } : State)
  let lost := s2.fwds.filter (fun f => f.dest = die)
  let s3 := ({ s2 with fwds := s2.fwds.filter (fun f => f.dest ≠ die), acks := s2.acks ++ lost.map (fun f => { line := f.line, die := die, nodata := true, dirty := false }) } : State)
  let here := s3.xacts.filter (fun x => s.homeOf (x.req.line * 256) ≠ die)
  { s3 with xacts := here.map (fun x => if x.req.die = die then { x with req := ⟨if x.req.kind = .readX then .homeWrite else .homeRead, s.homeOf (x.req.line * 256), x.req.line⟩ } else x)
            snoops := s3.snoops.filter (fun n => n.die ≠ die) }

/-- Dirty data that live dies have given up for lines of a die, put into its memory: it survives a warm reset (R317). -/
def State.settleHome (s : State) (die : Nat) : State :=
  (s.dirs.map (·.1)).foldl (fun s ln => if s.homeOf (ln * 256) = die && (s.flying ln).isSome then s.abortXact ln else s) s

/-- A lost die stopped: its cores do nothing more, and what they had posted is gone. -/
def State.stopDie (s : State) (die : Nat) : State :=
  { s with cores := s.cores.filter (fun p => p.1 / Config.coresPerDie ≠ die), posts := s.posts.filter (fun p => p.die ≠ die),
           puts := s.puts.filter (fun p => p.die ≠ die), units := s.units.filter (fun p => p.die ≠ die),
           flagMsgs := s.flagMsgs.filter (fun p => p.die ≠ die), sacks := s.sacks.filter (fun a => a.die ≠ die),
           graphs := s.graphs.filter (fun g => g.die ≠ die), ckpts := s.ckpts.filter (fun k => k.die ≠ die) }

/-- DIE_LOST (R318): the die is away for good. -/
def State.loseDie (s : State) (die : Nat) : State :=
  let ex := s.lostExports die
  let s1 := s.setDieAt die { s.dieAt die with lost := true }
  let s2 := (s1.stopDie die).dropCopies die
  let s3 := ex.foldl (fun s e => s.revokeExport e) s2
  s3.freezeDie die

def execDieLost (die : Nat) (s : State) : Out := event s (decide (die < 4) && !(s.dieAt die).lost) (fun s => s.loseDie die)

end Sys2Proof.Machine
end

