-- ==== Sys2Proof/Machine/Copy.lean ====
section
/-! DEFINITION. The copy engine: geometry of copies (R224, R227 to R232), the checks and entries at issue (R222, R223, R225), beat groups
and landing, and the X-stream copy instructions. -/

namespace Sys2Proof.Machine

/-- Illegal-use subcodes of R233. -/
def subCPDESC : Nat := 0x20
def subCPLEN : Nat := 0x21
def subSTMAP : Nat := 0x22
def subSTNONE : Nat := 0x23
def subHPROG : Nat := 0x24
def subHCTL : Nat := 0x25

/-! ### Geometry -/

/-- The width in bytes of a copy format. -/
def cpWidth (c : Nat) : Nat := (fmtOf c).width / 8

/-- Destination bytes of a copy. -/
def Copy.total (k : Copy) : Nat := match k.kind with
  | .cvt => k.n0 * cpWidth k.dfmt
  | _ => k.n0 * k.n1 * k.n2

/-- Row and plane strides' contribution to a row's offset: row q of plane p. -/
def rowOff (s1 s2 : Word) (p q : Nat) : Word := BitVec.ofNat 64 p * s2 + BitVec.ofNat 64 q * s1

/-- The destination address of row q of plane p. -/
def Copy.dstRow (k : Copy) (p q : Nat) : Word :=
  match k.kind with
  | .scat => k.dst + BitVec.ofNat 64 (k.idx.getD q 0) * k.dstr1
  | _ => k.dst + rowOff k.dstr1 k.dstr2 p q

/-- The source address of row q of plane p. -/
def Copy.srcRow (k : Copy) (p q : Nat) : Word :=
  match k.kind with
  | .gath => k.src + BitVec.ofNat 64 (k.idx.getD q 0) * k.sstr1
  | _ => k.src + rowOff k.sstr1 k.sstr2 p q

/-- The row and plane of destination byte m. -/
def Copy.place (k : Copy) (m : Nat) : Nat × Nat := (m / (k.n0 * k.n1), m / k.n0 % k.n1)

/-- The address of destination byte m of the linear order (R224). -/
def Copy.dstAt (k : Copy) (m : Nat) : Nat :=
  match k.kind with
  | .cvt => (k.dst + BitVec.ofNat 64 m).toNat
  | _ => (k.dstRow (k.place m).1 (k.place m).2 + BitVec.ofNat 64 (m % k.n0)).toNat

/-- The address of the source byte that destination byte m takes. -/
def Copy.srcAt (k : Copy) (m : Nat) : Nat := (k.srcRow (k.place m).1 (k.place m).2 + BitVec.ofNat 64 (m % k.n0)).toNat

/-- Whether a later row of a `scat` writes the same byte, so that no agent sees this one's (R230). -/
def Copy.hidden (k : Copy) (m : Nat) : Bool :=
  match k.kind with
  | .scat => (upto ((k.place m).2 + 1) (k.n1 - 1 - (k.place m).2)).any (fun q => decide ((BitVec.ofNat 64 (k.dstAt m) - k.dstRow 0 q).toNat < k.n0))
  | _ => false

/-- The destination bytes of beat group g. -/
def Copy.group (k : Copy) (g : Nat) : List Nat := upto (256 * g) (min 256 (k.total - 256 * g))

/-- The source addresses of group g: byte by byte, or the elements of a conversion. -/
def Copy.groupSrc (k : Copy) (g : Nat) : List Nat :=
  match k.kind with
  | .fill => []
  | .cvt =>
    let sw := cpWidth k.sfmt
    let dw := cpWidth k.dfmt
    (upto (256 * g / dw) ((k.group g).length / dw)).flatMap (fun j => (upto 0 sw).map (fun b => (k.src + BitVec.ofNat 64 (j * sw + b)).toNat))
  | _ => (k.group g).map k.srcAt

/-- A span of offsets relative to a signed base: n steps of a stride. -/
def stepSpan (n : Nat) (stride : Word) : Int × Int := let e := ((n : Int) - 1) * stride.toInt; (min 0 e, max 0 e)

/-- The lowest and highest offset of a list of indexed rows. -/
def idxSpan (stride : Word) : List Nat → Int × Int
  | [] => (0, 0)
  | [i] => ((i : Int) * stride.toInt, (i : Int) * stride.toInt)
  | i :: is => let r := idxSpan stride is; (min ((i : Int) * stride.toInt) r.1, max ((i : Int) * stride.toInt) r.2)

/-- The lowest byte and the length of one side of a copy in its space (R223), as signed offsets. -/
def Copy.side (k : Copy) (dst : Bool) : Int × Nat :=
  let base : Int := (if dst then k.dst else k.src).toInt
  let indexed := if dst then k.kind = .scat else k.kind = .gath
  let st1 := if dst then k.dstr1 else k.sstr1
  let st2 := if dst then k.dstr2 else k.sstr2
  let n := if k.kind = .cvt then k.n0 * cpWidth (if dst then k.dfmt else k.sfmt) else k.n0
  let r := if indexed then idxSpan st1 k.idx else stepSpan k.n1 st1
  let p := stepSpan k.n2 st2
  (base + r.1 + p.1, (r.2 + p.2 - r.1 - p.1).toNat + n)

/-- The rows of one side: start and length, for stash sectors. -/
def Copy.rows (k : Copy) (dst : Bool) : List (Nat × Nat) :=
  if k.kind = .cvt then [((if dst then k.dst else k.src).toNat, k.n0 * cpWidth (if dst then k.dfmt else k.sfmt))]
  else (upto 0 k.n2).flatMap (fun p => (upto 0 k.n1).map (fun q => ((if dst then k.dstRow p q else k.srcRow p q).toNat, k.n0)))

/-! ### Issue (R222, R223, R225) -/

/-- Whether a side lies in this core's scratchpad. -/
def Copy.local_ (k : Copy) (dst : Bool) : Bool :=
  if dst then k.dsp && !(k.kind = .remote && k.toRemote) else k.ssp && k.kind ≠ .fill && !(k.kind = .remote && !k.toRemote)

/-- R225's range check of a side in scratchpad. -/
def Core.sideCheck (c : Core) (k : Copy) (dst : Bool) : Except TrapRec Unit :=
  if k.local_ dst then
    let r := k.side dst
    if r.1 < 0 then .error { cls := clsMem, sub := 4, addr := BitVec.ofInt 64 r.1 } else c.spCheck r.1.toNat r.2 dst
  else .ok ()

/-- Whether rows hold every byte of a sector between them: such a sector is written in whole (R239). -/
def rowsFill (rs : List (Nat × Nat)) (u : Nat) : Bool := (upto (u * 32) 32).all (fun a => rs.any (fun r => decide (r.1 ≤ a) && decide (a < r.1 + r.2)))

/-- Whether mapped sectors that a side of a copy touches are ready (R239). -/
def State.rowsReady (s : State) (die core : Nat) (wr : Bool) (rs : List (Nat × Nat)) : List Nat → Res Unit
  | [] => .ok ()
  | u :: us => do
    s.sectorReady die core (u * 32) (if rowsFill rs u then 32 else 0) wr u
    s.rowsReady die core wr rs us

/-- The wait of a side for its sectors: at issue all of them, in a beat group those that hold a byte of it. -/
def State.sideReady (s : State) (die core : Nat) (k : Copy) (dst : Bool) (of : Option (List Nat)) : Res Unit :=
  let c := s.coreAt die core
  if c.stash.isEmpty || !k.local_ dst then .ok ()
  else
    let us := match of with
      | none => (k.rows dst).foldl (fun us r => addNew us (c.mapped r.1 r.2)) []
      | some as => addNew [] (as.flatMap (fun a => c.mapped a 1))
    s.rowsReady die core dst (k.rows dst) us

/-- The scoreboard ranges of a copy-queue entry: those of a copy's sides, or a class form's scratchpad side (R345, R365). -/
def Copy.ranges (k : Copy) : List (Nat × Nat × Bool) :=
  let f := fun (dst : Bool) => if k.local_ dst then [((k.side dst).1.toNat, (k.side dst).2, dst)] else []
  match k.kind with
  | .put => [(k.src.toNat, k.n0, false)]
  | .grad => [(k.src.toNat, k.n0 * k.n1, false)]
  | .dep => [(k.src.toNat, k.n0 * k.n1, false)]
  | .prRead => [(k.src.toNat, k.n0 * k.n1, true)]
  | .gRead => [(k.src.toNat, k.n0 * k.n1, true)]
  | _ => f false ++ f true

/-- Whether a copy writes outside its core (R256). -/
def Copy.outside (k : Copy) : Bool := !k.local_ true

/-- The global-side address that a trace entry names. -/
def Copy.traceAddr (k : Copy) : Word := if !k.dsp then k.dst else if !k.ssp && k.kind ≠ .fill then k.src else 0

/-- A copy issued: nothing for zero bytes, else checked and entered in the queue and in the scoreboard, where it takes one entry for each of
its ranges (R223; whether one entry could hold both is not said: DESIGN CHOICE, log 64). `tkind` is the trace entry's KIND. -/
def State.copyIssue (s : State) (die core : Nat) (k : Copy) (tkind : Nat) : Res State :=
  if k.total = 0 then .ok s
  else do
    let c := s.coreAt die core
    liftTrap (c.sideCheck k false)
    liftTrap (c.sideCheck k true)
    await (decide (c.copyq.length < Config.copyQueueSize) && c.sbRoom k.ranges.length) s
    s.sideReady die core k false none
    s.sideReady die core k true none
    let n := c.issueNo
    let c1 := (c.enter (.copy n) k.ranges)
    let c2 : Core := { c1 with copyq := c1.copyq ++ [{ k with num := n }] }
    let c3 := if k.outside then c2.marked else c2
    pure (s.setCoreAt die core (c3.traced s.now (s.cycle die) .x 5 tkind k.traceAddr))

/-! ### Instructions -/

/-- A one-row copy. -/
def plainCopy (dst src : Word) (n : Nat) (dsp ssp : Bool) (pc : Nat) : Copy :=
  { num := 0, kind := .plain, pc := pc, dst := dst, src := src, n0 := n, dsp := dsp, ssp := ssp }

/-- `cp` and `cp.r` (R227). -/
def cpBody (d x : Nat) (dsp ssp : Bool) (n : Nat) (s : State) : Res State :=
  s.copyIssue s.cur.die s.cur.core (plainCopy (s.rx d) (s.rx x 1) n dsp ssp s.me.pc) 0

def execCp (d x : BitVec 6) (p q : BitVec 1) (n : BitVec 7) (g : BitVec 3) (s : State) : Out :=
  issue s { fX g (s.regs [d.toNat, x.toNat]) with ext := true } fun s => cpBody d.toNat x.toNat (p = 1) (q = 1) (s.uimm n.toNat 7) s

def cpRBody (d x l : Nat) (dsp ssp : Bool) (s : State) : Res State := do
  let n := (s.rx l 2).toNat
  need (decide (n ≤ 0xFFFFFFFF)) clsUse subCPLEN
  cpBody d x dsp ssp n s

def execCpR (d x : BitVec 6) (p q : BitVec 1) (l : BitVec 6) (g : BitVec 3) (s : State) : Out :=
  issue s (fX g (s.regs [d.toNat, x.toNat, l.toNat])) (cpRBody d.toNat x.toNat l.toNat (p = 1) (q = 1))

/-- The copy that a descriptor of Table 12.1 describes, with the helper's offsets added. -/
def descCopy (kind : CopyKind) (w : Nat → Nat) (od os : Word) : Copy :=
  let b := BitVec.ofNat 64
  let c7 := w 7
  let is2 := kind = .plain
  { num := 0, kind := kind, dst := b (w 0) + od, src := b (w 1) + os, n0 := bits (w 2) 0 32, n1 := bits (w 2) 32 16, n2 := bits (w 2) 48 16,
    dstr1 := b (w 3), sstr1 := if kind = .fill then 0 else b (w 4), dstr2 := if is2 then b (w 5) else 0, sstr2 := if is2 then b (w 6) else 0,
    dsp := bit c7 0, ssp := bit c7 1, sfmt := bits c7 3 6, dfmt := bits c7 9 6, pattern := b (w 4), toRemote := !bit c7 2 }

/-- The rules of Table 12.2: KIND 0 to 6. -/
def descOk (kind : Nat) (w : Nat → Nat) : Bool :=
  let n0 := bits (w 2) 0 32
  let n1 := bits (w 2) 32 16
  let n2 := bits (w 2) 48 16
  let c7 := w 7
  let core := bits c7 15 8
  let dfmt := bits c7 9 6
  let sfmt := bits c7 3 6
  let dir := bit c7 2
  let noFmt := dfmt = 0 && sfmt = 0
  let noRem := core = 0 && !dir
  n0 ≠ 0 && n1 ≠ 0 && n2 ≠ 0 && bits c7 23 41 = 0 &&
  (match kind with
   | 0 => n2 = 1 && w 5 = 0 && w 6 = 0 && noFmt && noRem
   | 1 => noFmt && noRem
   | 2 => n1 = 1 && n2 = 1 && w 3 = 0 && w 4 = 0 && w 5 = 0 && w 6 = 0 && noRem
   | 3 => n2 = 1 && w 5 = 0 && noFmt && noRem
   | 4 => n2 = 1 && w 5 = 0 && noFmt && noRem
   | 5 => n2 = 1 && w 5 = 0 && w 6 = 0 && noFmt && noRem && !bit c7 1
   | _ => n1 = 1 && n2 = 1 && w 3 = 0 && w 4 = 0 && w 6 = 0 && noFmt && decide (core ≤ 159) && (if dir then bit c7 1 else bit c7 0))

/-- The kinds of `cp.d`. -/
def kindOf (kind : Nat) : CopyKind :=
  match kind with
  | 0 => .plain
  | 1 => .plain
  | 2 => .cvt
  | 3 => .gath
  | 4 => .scat
  | 5 => .fill
  | _ => .remote

/-- Formats a converting copy may read and write (R229). -/
def cvtSrcOk (c : Nat) : Bool := c = 0 || c = 1 || c = 2 || c = 4 || isBinary8 c || c = 0x28 || c = 0x29
def cvtDstOk (c : Nat) : Bool := c = 0 || c = 1 || c = 2 || c = 4 || isBinary8 c

/-- The copy of a descriptor read at `addr`, with the checks of R228 to R232, the indices read and the remote core found. -/
def State.copyPlan (s : State) (die core kind : Nat) (w : Nat → Nat) (addr od os : Word) : Res Copy := do
  let k := descCopy (kindOf kind) w od os
  need (descOk kind w) clsUse subCPDESC addr
  match kind with
  | 2 => do
    need (cvtSrcOk k.sfmt && cvtDstOk k.dfmt) clsUse subCPDESC addr
    need (aligned k.src.toNat (cpWidth k.sfmt)) clsMem 3 k.src
    need (aligned k.dst.toNat (cpWidth k.dfmt)) clsMem 3 k.dst
    pure k
  | 6 =>
    let ctx := s.ctxOf die core
    if w 5 = 0 then
      let t := bits (w 7) 15 8
      pure { k with target := some (die, t), tctx := s.ctxOf die t }
    else do
      let e ← liftTrap (s.importOf ctx (BitVec.ofNat 64 (w 5)) [1, 2, 3])
      let xc := match s.exportOf e.2.exp with
        | some x => x.ctx
        | none => 0
      pure { k with target := some (e.2.die, bits (w 7) 15 8), tctx := xc }
  | _ =>
    if kind = 3 || kind = 4 then do
      let at_ := w 6
      need (aligned at_ 4) clsMem 3 (BitVec.ofNat 64 at_)
      liftTrap ((s.coreAt die core).spCheck at_ (4 * k.n1) false)
      s.spReady die core at_ (4 * k.n1) false
      pure { k with idx := (upto 0 k.n1).map (fun q => bytesToNat (s.spBytes die core (at_ + 4 * q) 4)) }
    else pure k

/-- CPPC of the current instruction: where its unit began, also once a halt has let its request outlive it. -/
def Engine.issuePc (e : Engine) : Nat :=
  match e.req with
  | some r => r.pc
  | none => e.pc

/-- `cp.d` (R228). -/
def cpDBody (i : Instr) (kind d : Nat) (sp : Bool) (s : State) : Res State := do
  let base := (s.rx d).toNat
  need (aligned base 64) clsMem 3 (BitVec.ofNat 64 base)
  let w ← s.descWords i sp base 64
  let k ← s.copyPlan s.cur.die s.cur.core kind w.1 (BitVec.ofNat 64 base) 0 0
  w.2.copyIssue s.cur.die s.cur.core { k with pc := s.me.issuePc } kind

/-- The form of class CD. -/
def cdForm (d : BitVec 6) (g : BitVec 3) (s : State) : Form := fX g (s.regs [d.toNat])

def execCpD2d (d : BitVec 6) (p : BitVec 1) (g : BitVec 3) (s : State) : Out := issue s (cdForm d g s) (cpDBody (.cpD2d d p g) 0 d.toNat (p = 1))
def execCpD3d (d : BitVec 6) (p : BitVec 1) (g : BitVec 3) (s : State) : Out := issue s (cdForm d g s) (cpDBody (.cpD3d d p g) 1 d.toNat (p = 1))
def execCpDCvt (d : BitVec 6) (p : BitVec 1) (g : BitVec 3) (s : State) : Out := issue s (cdForm d g s) (cpDBody (.cpDCvt d p g) 2 d.toNat (p = 1))
def execCpDGath (d : BitVec 6) (p : BitVec 1) (g : BitVec 3) (s : State) : Out := issue s (cdForm d g s) (cpDBody (.cpDGath d p g) 3 d.toNat (p = 1))
def execCpDScat (d : BitVec 6) (p : BitVec 1) (g : BitVec 3) (s : State) : Out := issue s (cdForm d g s) (cpDBody (.cpDScat d p g) 4 d.toNat (p = 1))
def execCpDFill (d : BitVec 6) (p : BitVec 1) (g : BitVec 3) (s : State) : Out := issue s (cdForm d g s) (cpDBody (.cpDFill d p g) 5 d.toNat (p = 1))
def execCpDRemote (d : BitVec 6) (p : BitVec 1) (g : BitVec 3) (s : State) : Out :=
  issue s (cdForm d g s) (cpDBody (.cpDRemote d p g) 6 d.toNat (p = 1))

/-! ### Beat groups (R224, R225) -/

/-- A byte's place in global memory, checked (R103 steps 1 to 3, R306), with the state's owner tags: a source may be of class combine-slot
(R275). A byte of a submitted task record must not be written (R244). -/
def State.copyByte (s : State) (die core a : Nat) (wr : Bool) : Res (Phys × State) := do
  let c := s.coreAt die core
  let p ← liftAt a (if wr then s.checkSt (s.ctxOf die core) (some c.foot) [0] a 1 else s.check (s.ctxOf die core) (some c.foot) [0, 3] a 1 false)
  need (!wr || !s.inRecord (s.ctxOf die core) a 1) clsUse subOBLIG (BitVec.ofNat 64 a)
  let s1 ← liftAt a (s.own die core c.task p a 1 wr)
  pure (p, s1)

/-- `copyByte` over a list of addresses. -/
def State.copyBytes (s : State) (die core : Nat) (wr : Bool) : List Nat → Res (List Phys × State)
  | [] => .ok ([], s)
  | a :: as => do
    let r ← s.copyByte die core a wr
    let rest ← r.2.copyBytes die core wr as
    pure (r.1 :: rest.1, rest.2)

/-- Whether every byte may be read: the stream's own earlier stores of it have been performed, since a copy reads at die scope (R278, R294), its
page's type lets it (R274), and the die holds its line. -/
def State.bytesReadable (s : State) (die core : Nat) : List Phys → Res Unit
  | [] => .ok ()
  | p :: ps => do
    let c := s.coreAt die core
    await (!c.storeq.any (fun q => q.eng = .x && (storeByte p.key q.key q.data).isSome) && (s.postedByte die core p.key).isNone && c.inOrder .x p.mtype) s
    s.canRead die none p 1
    s.bytesReadable die core ps

/-- Whether every byte may be written: its page's type lets it, its line may be written, and no older store of the core's queue covers it. -/
def State.bytesWritable (s : State) (die core : Nat) : List Phys → Res Unit
  | [] => .ok ()
  | p :: ps => do
    let c := s.coreAt die core
    match p.slot with
    | some _ => await (c.inOrder .x p.mtype false (some (s.expDie p))) s
    | none => do
      await (!c.storeq.any (fun q => (storeByte p.key q.key q.data).isSome) && c.inOrder .x p.mtype) s
      s.canWrite die none p 1
    s.bytesWritable die core ps

/-- The core and scratchpad that stand for a remote side: the live core, or its saved image while the context is out (R127). -/
def State.remoteCore (s : State) (k : Copy) : Core :=
  match k.target with
  | none => {}
  | some (d, c) => if (s.ctxAt k.tctx).outFull then tGet {} (s.ctxAt k.tctx).saved c else s.coreAt d c

/-- A change of that core. -/
def State.onRemote (s : State) (k : Copy) (f : Core → Core) : State :=
  match k.target with
  | none => s
  | some (d, c) =>
    let x := s.ctxAt k.tctx
    if x.outFull then s.setCtx { x with saved := tSet {} x.saved c (f (tGet {} x.saved c)) } else s.setCoreAt d c (f (s.coreAt d c))

/-- Write a remote scratchpad byte list. -/
def State.remoteWrite (s : State) (k : Copy) (ws : List (Nat × Byte)) : State :=
  match k.target with
  | none => s
  | some (d, c) =>
    if (s.ctxAt k.tctx).outFull then s.onRemote k (fun img => { img with scratch := ws.foldl (fun m q => tSet 0 m q.1 q.2) img.scratch })
    else ws.foldl (fun s q => s.spWrite d c q.1 [q.2]) s

/-- The owner of a copy's entry at its remote core. -/
def Copy.owner (k : Copy) (die core : Nat) : Owner := .remote die core k.num

/-- The head of a copy queue changed. -/
def State.setHead (s : State) (die core : Nat) (f : Copy → Copy) : State :=
  let c := s.coreAt die core
  s.setCoreAt die core { c with copyq := c.copyq.modifyHead f }

/-- Whether commands of the core that entered before an owner's keep it from a range (R23). -/
def Core.aheadOf (c : Core) (o : Owner) (lo n : Nat) (wr : Bool) : Bool :=
  match c.sb.find? (fun e => e.owner = o) with
  | some e => c.ahead e.num lo n wr
  | none => c.conflict lo n wr

/-- The remote core's checks at a beat group: its bytes (R232), its halt (R127), and on the first group its scoreboard, which the copy
enters after every command of that clk. The answer is the state in which the group runs. -/
def State.remoteReady (s : State) (die core : Nat) (k : Copy) (bytes : List Nat) (wr : Bool) : Res State :=
  match k.target with
  | none => .ok s
  | some (d, c) => do
    let t := s.remoteCore k
    liftTrap (bytes.foldl (fun acc a => match acc with
      | .ok () => t.spCheck a 1 wr
      | e => e) (.ok ()))
    await (!s.dieAway d) s
    if (s.ctxAt k.tctx).outFull then pure s
    else do
      await (s.partOfCore d c).halt.isNone s
      await (k.entered || t.sbRoom 1) s
      let lo := (if wr then k.dst else k.src).toNat
      let s1 := if k.entered then s
        else ((s.setCoreAt d c (t.enter (k.owner die core) [(lo, k.n0, wr)])).stampRemote d c).setHead die core (fun k => { k with entered := true })
      await (!(s1.coreAt d c).aheadOf (k.owner die core) lo k.n0 wr) s1
      s1.rowsReady d c wr [(lo, k.n0)] (addNew [] (bytes.flatMap (fun a => t.mapped a 1)))
      pure s1

/-- An element converted by a copy (R229, R53). -/
def cvtCopy (sfmt dfmt code : Nat) : Nat × Flags :=
  let x := decodeF sfmt code
  let r := roundTo dfmt x 0 true false 0
  let f := fmtOf dfmt
  if (sfmt = 0x28 || sfmt = 0x29) && !f.int && !fSpecial x && r.2 &&& fOF ≠ 0 then (f.maxCode + signW f (fSign x), r.2) else r

/-- The bytes of a group from its source bytes, with flags. -/
def Copy.convert (k : Copy) (src : List Byte) : Nat → List Byte × Flags
  | 0 => ([], 0)
  | n + 1 =>
    let sw := cpWidth k.sfmt
    let e := cvtCopy k.sfmt k.dfmt (bytesToNat (src.take sw))
    let rest := k.convert (src.drop sw) n
    (natToBytes (cpWidth k.dfmt) e.1 ++ rest.1, e.2 ||| rest.2)

/-- The bytes group g writes: filled, converted or moved. -/
def Copy.newBytes (k : Copy) (g : Nat) (src : List Byte) : List Byte × Flags :=
  match k.kind with
  | .fill => ((k.group g).map (fun m => BitVec.ofNat 8 (k.pattern.toNat / 2 ^ (8 * (m % k.n0 % 8)))), 0)
  | .cvt => k.convert src ((k.group g).length / cpWidth k.dfmt)
  | _ => (src, 0)

/-- Runs of bytes through one window, to be posted together: place and data, in order. -/
def postRuns : List (Phys × Byte) → List (Phys × List Byte)
  | [] => []
  | (p, b) :: t => match postRuns t with
    | (q, bs) :: rs => if q.slot = p.slot && q.va = p.va + 1 && q.ok = p.ok && (!p.ok || q.key = p.key + 1) then (p, b :: bs) :: rs else (p, [b]) :: (q, bs) :: rs
    | [] => [(p, [b])]

/-- Posted writes of a group sent while their queues have room, in order: the first that finds none, and what follows it, stays unsent (R309). -/
def State.sendAll (s : State) : List (OutItem × Posted) → State × List (OutItem × Posted)
  | [] => (s, [])
  | m :: ms => if (s.postedTo m.2.die m.2.core m.2.home).length < Config.postedQueueSize then (s.send m).sendAll ms else (s, m :: ms)

/-- Global bytes written: local ones at once, those of windows as posted writes still to be sent. -/
def State.copyStore (s : State) (die core : Nat) (copy : Bool) (ws : List (Phys × Byte)) : State :=
  let s1 := (ws.filter (fun w => w.1.slot.isNone)).foldl (fun s w => s.put die w.1 [w.2]) s
  let out := (postRuns (ws.filter (fun w => w.1.slot.isSome))).map (fun r => postOf die core .x r.1 (s.expDie r.1) r.2 copy)
  s1.setHead die core (fun k => { k with unsent := out })

/-- A beat group's wait noted for TIMEOUT. -/
def State.groupWaits (s : State) (die core a : Nat) : State :=
  s.setHead die core (fun k => match k.wait with
    | some _ => k
    | none => { k with wait := some (s.now, BitVec.ofNat 64 a) })

/-- A wait noted with the address that is awaited. -/
def groupAwaits {α : Type} (die core a : Nat) : Res α → Res α
  | .error (.wait t) => .error (.wait (t.groupWaits die core a))
  | r => r

/-- A copy-queue entry's fault: the X engine's trap, precise at the beat group. -/
def State.copyFault (s : State) (die core : Nat) (k : Copy) (t : TrapRec) : State :=
  s.takeTrap ⟨die, core, .x⟩ { t with async := true, skip := false, hpc := if k.helper then some k.pc else none }

/-- The head of the queue lands: its entries leave the scoreboards. -/
def State.landCopy (s : State) (die core : Nat) (k : Copy) : State :=
  let c := s.coreAt die core
  let c1 := (({ c with copyq := c.copyq.drop 1 } : Core).landFor k).leave (.copy k.num)
  ((s.setCoreAt die core c1).onRemote k (fun t => t.leave (k.owner die core))).settleDefer die core

/-- The posted writes of the group under way sent, as far as there is room; the group is done once all are. -/
def State.sendGroup (s : State) (die core : Nat) : State :=
  let k := (s.coreAt die core).copyq.headD { num := 0, kind := .plain }
  let r := s.sendAll k.unsent
  let first := (s.coreAt die core).nextPid
  let pids := if k.helper then [] else upto first ((r.1.coreAt die core).nextPid - first)
  r.1.setHead die core (fun k => { k with done := k.done + b2n r.2.isEmpty, pids := k.pids ++ pids, wait := none, unsent := r.2 })

/-- The source of a beat group and its destination, checked and ready (R103, R224, R225, R274, R294, R309), with the state in which it runs. -/
def State.groupReady (s : State) (die core : Nat) (k : Copy) : Res ((List Phys × List Phys) × State) := do
  let src := k.groupSrc k.done
  let dst := (k.group k.done).map k.dstAt
  let a ← (if k.ssp then pure ([], s) else s.copyBytes die core false src)
  let b ← (if k.dsp then pure ([], a.2) else a.2.copyBytes die core true dst)
  let sa := src.headD (dst.headD 0)
  let s0 ← (if k.kind = .remote then groupAwaits die core sa (b.2.remoteReady die core k (if k.toRemote then dst else src) k.toRemote) else pure b.2)
  groupAwaits die core sa (s.bytesReadable die core a.1)
  groupAwaits die core sa (s.sideReady die core k false (some src))
  groupAwaits die core (dst.headD 0) (s.bytesWritable die core b.1)
  groupAwaits die core (dst.headD 0) (s.sideReady die core k true (some dst))
  pure ((a.1, b.1), s0)

/-- Beat group k.done of a copy: every check, then every wait, then reads, then writes, of which a byte that a later row of a `scat` writes is
left out. -/
def State.beat (s : State) (die core : Nat) (k : Copy) : Res State := do
  let r ← s.groupReady die core k
  let s0 := r.2
  let src := k.groupSrc k.done
  let got : List Byte := if k.kind = .remote && !k.toRemote then mRead1 (s0.remoteCore k).scratch src
    else if k.ssp then mRead1 (s0.coreAt die core).scratch src
    else r.1.1.map (fun p => s0.dieByte die p.key p.home)
  let out := k.newBytes k.done got
  let ms := k.group k.done
  let s1 := s0.setCoreAt die core ((s0.coreAt die core).orFlags out.2)
  let ws := (ms.zip out.1).filter (fun q => !k.hidden q.1)
  pure ((if k.kind = .remote && k.toRemote then s1.remoteWrite k (ws.map (fun q => (k.dstAt q.1, q.2)))
    else if k.dsp then ws.foldl (fun s q => s.spWrite die core (k.dstAt q.1) [q.2]) s1
    else s1.copyStore die core (!k.helper) (((ms.zip (r.1.2.zip out.1)).filter (fun q => !k.hidden q.1)).map (·.2))).sendGroup die core)
where
  mRead1 (m : Mem) (as : List Nat) : List Byte := as.map (fun a => tGet 0 m a)

/-- A group has run since the halt line rose, if it is up (Table 6.2). -/
def State.copySkid (s : State) (die core : Nat) : State :=
  let c := s.coreAt die core
  s.setCoreAt die core { c with xSkid := c.xSkid || (s.partOfCore die core).halt.isSome }

/-- The head of the queue lands once its last group is done. -/
def State.landIfDone (s : State) (die core : Nat) : State :=
  match (s.coreAt die core).copyq.head? with
  | some k => if k.unsent.isEmpty && decide (k.total ≤ 256 * k.done) then s.landCopy die core k else s
  | none => s

/-- COPY_BEAT_GROUP for a copy: the group, or the rest of its posted writes, and the landing after the last. -/
def State.runBeat (s : State) (die core : Nat) (k : Copy) : State :=
  if !k.unsent.isEmpty then (s.sendGroup die core).landIfDone die core
  else match s.beat die core k with
    | .ok t => (t.copySkid die core).landIfDone die core
    | .error (.wait t) => t
    | .error (.jump t) => t
    | .error (.trap t) => s.copyFault die core k t

/-- Whether the copy engine of a core may perform its next group: no earlier command holds its ranges (R23), its engine has no trap, and its core runs, or
has halted with no group run since and none waiting (R124, R225). -/
def State.copyDue (s : State) (die core : Nat) (k : Copy) : Bool :=
  let c := s.coreAt die core
  c.x.trap.isNone && k.ranges.all (fun r => !c.ahead k.num r.1 r.2.1 r.2.2) &&
  (match (s.partOfCore die core).halt with
   | none => true
   | some h => !h.complete && !c.xSkid && k.wait.isNone)

end Sys2Proof.Machine
end

