-- ==== Sys2Proof/Machine/Stash.lean ====
section
/-! DEFINITION. The stash: mapping, flushing, invalidating and unmapping (R238, R241), and the events of its sectors (R239, R240). -/

namespace Sys2Proof.Machine

/-! ### Mapping -/

/-- Whether [a, a + n) and [b, b + m) share a byte. -/
def overlap (a n b m : Nat) : Bool := decide (a < b + m) && decide (b < a + n)

/-- The STMAP rules of R238. -/
def Core.stmapOk (c : Core) (sp va len : Nat) : Bool :=
  sp % 256 = 0 && va % 256 = 0 && len % 256 = 0 && decide (256 ≤ len) && decide (len ≤ 0x80000)
    && decide (c.codeTop ≤ sp) && decide (sp + len ≤ Config.spSize - c.spill)
    && c.stash.all (fun m => !overlap sp len m.sp m.len && !overlap va len m.va.toNat m.len) && decide (c.stash.length < 8)

/-- A range cut at 4 KiB page boundaries. -/
def pagePieces (va : Nat) : Nat → Nat → List (Nat × Nat)
  | 0, _ => []
  | k + 1, n => if n = 0 then [] else
    let m := min n (4096 - va % 4096)
    (va, m) :: pagePieces (va + m) k (n - m)

/-- The checks of the mapped global range, page by page: R103 steps 1 to 3 with the read mark, and a normal memory type. -/
def State.stmapPages (s : State) : List (Nat × Nat) → Res Unit
  | [] => .ok ()
  | q :: qs => do
    let p ← liftTrap (s.check s.myCtx (some s.myCore.foot) [0] q.1 q.2 false)
    need (p.mtype = 0) clsUse subSTMAP
    s.stmapPages qs

/-- Sectors of a scratchpad range dropped from a table. -/
def clearSectors (t : Tab StSector) (sp len : Nat) : Tab StSector := t.filter (fun q => !(decide (sp ≤ q.1 * 32) && decide (q.1 * 32 < sp + len)))

/-- Whether the scoreboard lets a stash command write its range. -/
def State.stashRange (s : State) (lo n : Nat) : Res Unit := await (!s.myCore.conflict lo n true && decide (s.myCore.sb.length < Config.scoreboardSize)) s

def stmapBody (d a b : Nat) (s : State) : Res State := do
  let sp := (s.rx d).toNat
  let va := (s.rx a 1).toNat
  let len := (s.rx b 2).toNat
  let c := s.myCore
  need (c.stmapOk sp va len) clsUse subSTMAP
  s.stmapPages (pagePieces va 130 len)
  s.stashRange sp len
  pure (s.setMyCore { c with stash := c.stash ++ [⟨sp, BitVec.ofNat 64 va, len⟩], sectors := clearSectors c.sectors sp len })

def execStmap (d a b : BitVec 6) (g : BitVec 3) (s : State) : Out :=
  issue s (fX g (s.regs [d.toNat, a.toNat, b.toNat])) (stmapBody d.toNat a.toNat b.toNat)

/-! ### Flushing, invalidating, unmapping -/

/-- The dirty sectors of a scratchpad range. -/
def Core.dirtyIn (c : Core) (lo n : Nat) : List Nat := (c.sectors.filter (fun q => q.2.st = .dirty && decide (q.1 * 32 < lo + n) && decide (lo < q.1 * 32 + 32))).map (·.1)

/-- Every dirty sector of a range written back and performed at its home; a die that cannot yet write a line waits for it, what has been
written back stays so. -/
def State.flushRange (s : State) (die core : Nat) : List Nat → Res State
  | [] => .ok s
  | u :: us =>
    let e := tGet {} (s.coreAt die core).sectors u
    let p : Phys := { key := e.key, home := s.homeOf e.key, keyNo := e.keyNo, mtype := 0, mclass := 0 }
    match s.canWrite die (some core) p 32 with
    | .ok () => (s.sectorBack die core u).flushRange die core us
    | .error x => .error x

/-- Whether one mapping covers a range in full. -/
def Core.stashCovers (c : Core) (lo n : Nat) : Bool := n ≠ 0 && c.stash.any (fun m => decide (m.sp ≤ lo) && decide (lo + n ≤ m.sp + m.len))

def stflushBody (d a : Nat) (s : State) : Res State := do
  let lo := (s.rx d).toNat
  let n := (s.rx a 1).toNat
  need (s.myCore.stashCovers lo n) clsUse subSTNONE
  s.stashRange lo n
  s.flushRange s.cur.die s.cur.core (s.myCore.dirtyIn lo n)

def execStflush (d a : BitVec 6) (g : BitVec 3) (s : State) : Out :=
  issue s (fX g (s.regs [d.toNat, a.toNat])) (stflushBody d.toNat a.toNat)

def stinvBody (d a : Nat) (s : State) : Res State := do
  let lo := (s.rx d).toNat
  let n := (s.rx a 1).toNat
  need (s.myCore.stashCovers lo n) clsUse subSTNONE
  s.stashRange lo n
  let c := s.myCore
  pure (s.setMyCore { c with sectors := c.sectors.filter (fun q => !(decide (q.1 * 32 < lo + n) && decide (lo < q.1 * 32 + 32))) }).filterPrune

def execStinv (d a : BitVec 6) (g : BitVec 3) (s : State) : Out := issue s (fX g (s.regs [d.toNat, a.toNat])) (stinvBody d.toNat a.toNat)

/-- A mapping removed once its dirty sectors have been written back. -/
def State.unmap (s : State) (die core : Nat) (m : StashMap) : Res State := do
  let s1 ← s.flushRange die core ((s.coreAt die core).dirtyIn m.sp m.len)
  let c := s1.coreAt die core
  pure (s1.setCoreAt die core { c with stash := c.stash.filter (fun x => x.sp ≠ m.sp), sectors := clearSectors c.sectors m.sp m.len, fills := [] }).filterPrune

def stunmapBody (d : Nat) (s : State) : Res State :=
  match s.myCore.stash.find? (fun m => m.sp = (s.rx d).toNat) with
  | none => stopTrap clsUse subSTNONE
  | some m => do
    s.stashRange m.sp m.len
    s.unmap s.cur.die s.cur.core m

def execStunmap (d : BitVec 6) (g : BitVec 3) (s : State) : Out := issue s (fX g (s.regs [d.toNat])) (stunmapBody d.toNat)

/-! ### Sector events -/

/-- STASH_FILL: an invalid sector that a command waits for is filled by a coherent read at its home (R239), a plain read for phase ownership;
a check that fails is left for the command to raise. It brings what the core's own port would read, its queued stores included (R278); a sector that
has become valid needs no fill any more. -/
def State.fillSector (s : State) (die core u : Nat) : State :=
  let c := s.coreAt die core
  let va := c.sectorVa u
  let done := fun (t : State) => t.setCoreAt die core { t.coreAt die core with fills := (t.coreAt die core).fills.filter (· ≠ u) }
  if (tGet {} c.sectors u).st ≠ .invalid then done s
  else match s.check (s.ctxOf die core) (some c.foot) [0] va 32 false with
  | .error _ => done s
  | .ok p => match s.own die core c.task p va 32 false with
    | .error _ => done s
    | .ok s1 => match s.canRead die (some core) p 32 with
      | .error (.wait t) => t
      | .error _ => s
      | .ok () =>
        if s.filterRoom die (p.key / 256) then
          let bs := s1.portBytes die core p.key p.home 32
          let c1 : Core := { c with scratch := mWrite c.scratch (u * 32) bs, sectors := tSet {} c.sectors u { st := .clean, key := p.key, keyNo := p.keyNo } }
          (done (s1.setCoreAt die core c1)).filterAdd die (p.key / 256)
        else s

def execStashFill (die core off : Nat) (s : State) : Out :=
  event s ((s.coreAt die core).fills.contains (off / 32)) (fun s => s.fillSector die core (off / 32))

/-- STASH_SNOOP (R240): a sector that a command in progress accesses is met after that access has ended. -/
def execStashSnoop (die core off : Nat) (write : Bool) (s : State) : Out :=
  event s (s.snoops.contains ⟨die, core, off, write⟩ && !s.spInUse die core off 32) (fun s =>
    (({ s with snoops := s.snoops.filter (· ≠ ⟨die, core, off, write⟩) } : State).snoopSector die core (off / 32) write).filterPrune)

/-- STASH_WRITEBACK (R240): a dirty sector written back lazily, once its die may write the line. -/
def State.lazyBack (s : State) (die core u : Nat) : State :=
  match s.flushRange die core [u] with
  | .ok t => t
  | .error (.wait t) => t
  | .error _ => s

def execStashWriteback (die core off : Nat) (s : State) : Out :=
  event s (decide ((tGet {} (s.coreAt die core).sectors (off / 32)).st = .dirty)) (fun s => s.lazyBack die core (off / 32))

end Sys2Proof.Machine
end

