-- ==== Sys2Proof/Machine/Helper.lean ====
section
/-! DEFINITION. The helper sequencer (R234 to R237): `hlaunch`, `hstop`, `hstat`, and the six micro-instructions. -/

namespace Sys2Proof.Machine

/-- A scratchpad word of the current core. -/
def State.spNat (s : State) (off n : Nat) : Nat := bytesToNat (s.spBytes s.cur.die s.cur.core off n)

/-- The HCTL rules of a control block and options (R234). -/
def hctlOk (blk opts : Nat) (w : Nat → Nat) : Bool :=
  blk % 64 = 0 && opts / 64 = 0 && w 0 / 2 ^ 21 = 0 && w 0 % 8 = 0 && w 1 / 2 ^ 21 = 0 && w 1 % 4 = 0 && w 4 = 0 && w 5 = 0 && w 6 = 0 && w 7 = 0

def hlaunchBody (a b : Nat) (s : State) : Res State := do
  let c := s.myCore
  await (!c.helper.run) s
  let blk := (s.rx a).toNat
  let opts := (s.rx b 1).toNat
  need (blk % 64 = 0 && opts / 64 = 0) clsUse subHCTL
  liftTrap (c.spCheck blk 64 false)
  s.spReady s.cur.die s.cur.core blk 64 false
  let w := fun k => s.spNat (blk + 8 * k) 8
  need (hctlOk blk opts w) clsUse subHCTL
  pure (s.setMyCore { c with helper := { run := true, hpc := w 0, hloop := 0, ctl := blk, flag := w 1, raiseEn := bit opts 5, e := bits opts 0 5, next := s.now + 2 } })

def execHlaunch (a b : BitVec 6) (g : BitVec 3) (s : State) : Out := issue s (fX g (s.regs [a.toNat, b.toNat])) (hlaunchBody a.toNat b.toNat)

/-- Whether no helper copy is outstanding. -/
def Core.helperLanded (c : Core) : Bool := c.copyq.all (fun k => !k.helper)

def hstopBody (s : State) : Res State := do
  let c := s.myCore
  await (!c.helper.run && c.helperLanded) (if c.helper.run then s.setMyCore { c with helper := { c.helper with stopReq := true } } else s)
  pure s

def execHstop (g : BitVec 3) (s : State) : Out := issue s (fX g) hstopBody

/-- The status of Table 12.5. -/
def Helper.status (h : Helper) : Nat := b2n h.run * 2 ^ 63 + b2n h.stopped * 2 ^ 62 + h.hloop % 2 ^ 16 * 2 ^ 21 + h.hpc % 2 ^ 21

def execHstat (d : BitVec 6) (g : BitVec 3) (s : State) : Out :=
  issue s (fX g (s.regs [d.toNat])) fun s => .ok (s.landX d.toNat (BitVec.ofNat 64 s.myCore.helper.status) 2)

/-! ### Micro-instructions -/

/-- The current core's helper changed. -/
def State.setHelper (s : State) (h : Helper) : State := s.setMyCore { s.myCore with helper := h }

/-- The helper past its micro-instruction. -/
def State.hNext (s : State) : State := s.setHelper { s.myCore.helper with hpc := s.myCore.helper.hpc + 8 }

/-- The X engine's trap of a helper fault, precise at the micro-instruction. -/
def State.helperFault (s : State) (t : TrapRec) : State := s.takeTrap ⟨s.cur.die, s.cur.core, .x⟩ { t with async := true, skip := false }

/-- Whether the current core's helper may run its next micro-instruction: it runs, not before the clk after its launch landed (R234), its partition is not
halted, and the X engine has no trap. Its commands come after those of the four streams of the clk (R223). -/
def State.mayHelp (s : State) : Bool :=
  let c := s.myCore
  c.helper.run && decide (c.helper.next ≤ s.now) && c.inTurn s.now helperRank && s.myPart.halt.isNone && c.x.trap.isNone

/-- The helper's command has issued. -/
def State.stampHelper (s : State) : State := s.setMyCore (s.myCore.stamp s.now helperRank)

/-- A micro-instruction runs while its helper may; `hstop` takes effect at its boundary (R236). -/
def helperOp (s : State) (body : State → Res State) : Out :=
  let c := s.myCore
  if s.curOk = false then .fault .noEngine
  else if s.mayHelp = false then .next s
  else if c.helper.stopReq then .next (s.setHelper { c.helper with run := false, stopReq := false, stopped := true })
  else
    let s0 := { s with free := s.free + 1 }
    match body s0 with
    | .ok t => .next t.stampHelper
    | .error (.wait t) => .next t
    | .error (.jump t) => .next t
    | .error (.trap t) => .next (s0.helperFault t)

/-- A word of the control block. -/
def State.ctlWord (s : State) (k : Nat) : Word := BitVec.ofNat 64 (s.spNat (s.myCore.helper.ctl + 8 * k) 8)

def hcpBody (kind doff : Nat) (s : State) : Res State := do
  let c := s.myCore
  let d := s.cur.die
  let k := s.cur.core
  need (decide (kind ≤ 6)) clsIllegal 0x0C
  s.spReady d k (c.helper.ctl + 16) 16 false
  need (aligned doff 64) clsMem 3 (BitVec.ofNat 64 doff)
  liftTrap (c.spCheck doff 64 false)
  s.spReady d k doff 64 false
  let w := fun j => s.spNat (doff + 8 * j) 8
  let cp ← s.copyPlan d k kind w (BitVec.ofNat 64 doff) (s.ctlWord 3) (s.ctlWord 2)
  let s1 ← s.copyIssue d k { cp with helper := true, pc := c.helper.hpc } kind
  pure s1.hNext

def execHcp (kind : BitVec 3) (doff : BitVec 32) (s : State) : Out := helperOp s (hcpBody kind.toNat doff.toNat)

def execHwait (land : BitVec 1) (t : BitVec 4) (s : State) : Out :=
  helperOp s fun s => do
    await ((land = 0 || s.myCore.helperLanded) && s.myCore.termReady s.now t.toNat) s
    pure s.hNext

def hloopBody (back cnt sadv dadv : Nat) (s : State) : Res State := do
  let h := s.myCore.helper
  need (back ≠ 0) clsUse subHPROG (BitVec.ofNat 64 h.hpc)
  liftTrap (s.myCore.spCheck (h.ctl + 16) 16 true)
  s.spReady s.cur.die s.cur.core (h.ctl + 16) 16 true
  let n := ((if h.hloop = 0 then cnt else h.hloop) + 2 ^ 16 - 1) % 2 ^ 16
  let os := s.ctlWord 2 + BitVec.ofInt 64 (64 * sextI sadv 16)
  let od := s.ctlWord 3 + BitVec.ofInt 64 (64 * sextI dadv 16)
  let s1 := s.spWrite s.cur.die s.cur.core (h.ctl + 16) (natToBytes 8 os.toNat ++ natToBytes 8 od.toNat)
  pure (s1.setHelper { h with hloop := n, hpc := if n ≠ 0 then (h.hpc + 2 ^ 48 - 8 * back) % 2 ^ 48 else h.hpc + 8 })

def execHloop (back : BitVec 12) (cnt sadv dadv : BitVec 16) (s : State) : Out := helperOp s (hloopBody back.toNat cnt.toNat sadv.toNat dadv.toNat)

/-- The flag word written, and a counter raised. -/
def hflagBody (land raiseEn : Bool) (e value : Nat) (s : State) : Res State := do
  await (!land || s.myCore.helperLanded) s
  let f := s.myCore.helper.flag
  liftTrap (s.myCore.spCheck f 4 true)
  s.spReady s.cur.die s.cur.core f 4 true
  let s1 := s.spWrite s.cur.die s.cur.core f (natToBytes 4 value)
  pure (if raiseEn then s1.setMyCore (s1.myCore.raiseCnt s.now e 1) else s1)

def execHflag (land raiseEn : BitVec 1) (e : BitVec 5) (value : BitVec 32) (s : State) : Out :=
  helperOp s fun s => do
    let s1 ← hflagBody (land = 1) (raiseEn = 1) e.toNat value.toNat s
    pure s1.hNext

def execHjmp (off : BitVec 20) (s : State) : Out :=
  helperOp s fun s =>
    let h := s.myCore.helper
    .ok (s.setHelper { h with hpc := (((h.hpc : Int) + 8 * sextI off.toNat 20) % 2 ^ 48).toNat })

def execHend (value : BitVec 32) (s : State) : Out :=
  helperOp s fun s => do
    let h := s.myCore.helper
    let s1 ← hflagBody true h.raiseEn h.e value.toNat s
    pure (s1.setHelper { s1.myCore.helper with run := false, stopped := false })

/-- The micro-instruction word at the helper's place; none where no word stands (R235). -/
def State.helperWord (s : State) : Option Nat := if s.myCore.helper.hpc + 8 ≤ Config.spSize then some (s.spNat s.myCore.helper.hpc 8) else none

/-- A word that is no micro-instruction: HPROG. -/
def helperBad (s : State) : Out := helperOp s fun s => stopTrap clsUse subHPROG (BitVec.ofNat 64 s.myCore.helper.hpc)

end Sys2Proof.Machine
end

