-- ==== Sys2Proof/Machine/Hatbox.lean ====
section
/-! DEFINITION. Hatbox (R330 to R346): slot frames, arrivals, the combine and its substitutions, release, and the Hatbox instructions. -/

namespace Sys2Proof.Machine

/-- Illegal-use subcodes of R338. -/
def subHBCFG : Nat := 0x2B
def subHBARG : Nat := 0x2C
def subHBSTATE : Nat := 0x2D
def subHBGATE : Nat := 0x2E
def subHBPUT : Nat := 0x2F

/-! ### What a class instruction reads of memory -/

/-- A request of the current stream to a memory-side unit (R110, R339, R367), known by an address: where it releases, what the release orders has been
performed; then it leaves the core, and its reply comes at a later turn. -/
def State.unitAsk (s : State) (i : Instr) (rq : Nat) (rel : Bool := true) : Res Unit := do
  await (s.reqOut i rq || !rel || s.released) s
  await (s.reqOut i rq) (s.noteReq i rq true)

/-- A read of a class instruction's request, checked by R103 steps 1 to 3: it reads no owner tag (R288). -/
def State.unitRead (s : State) (i : Instr) (rq va n : Nat) : Res Nat := do
  let p ← liftTrap (s.check s.myCtx (some s.myFoot) [0] va n false)
  asReq i rq true (s.canRead s.cur.die none p n)
  pure (bytesToNat (s.portBytes s.cur.die s.cur.core p.key p.home n))

/-- Consecutive 8-byte words read so. -/
def State.unitWords (s : State) (i : Instr) (rq va : Nat) : Nat → Res (List Nat)
  | 0 => .ok []
  | n + 1 => do
    let w ← s.unitRead i rq va 8
    let ws ← s.unitWords i rq (va + 8) n
    pure (w :: ws)

/-- Bytes written by a memory-side unit from a 256-byte boundary of a context's pages of a class. -/
def State.unitWrite (s : State) (ctx : Nat) (classes : List Nat) (va : Nat) (data : List Byte) : State :=
  (upto 0 ((data.length + 255) / 256)).foldl (fun s k => s.vwrite ctx classes (va + 256 * k) ((data.drop (256 * k)).take 256)) s

/-- Lanes as bytes. -/
def laneBytes (ls : List Lane) : List Byte := ls.flatMap (fun l => natToBytes 4 l.toNat)

/-- Bytes as lanes. -/
def toLanes (bs : List Byte) : List Lane := (upto 0 (bs.length / 4)).map (fun k => BitVec.ofNat 32 (bytesToNat ((bs.drop (4 * k)).take 4)))

/-- The pages that a range touches, by first address. -/
def pagesOf (va n : Nat) : List Nat := if n = 0 then [] else (upto (va / 4096) ((va + n - 1) / 4096 - va / 4096 + 1)).map (· * 4096)

/-- R103 steps 1 and 2 for every page of a region, to be written: the first failure, with TADDR at the page. -/
def State.pagesCheck (s : State) (ctx cls : Nat) : List Nat → Except TrapRec Unit
  | [] => .ok ()
  | a :: as => match s.pageCheck (s.ctxAt ctx) [cls] a true a with
    | .error t => .error t
    | .ok _ => s.pagesCheck ctx cls as

/-! ### Slots and frames (R330, R331) -/

/-- Frame size. -/
def Hatbox.frame (h : Hatbox) : Nat := 256 + 2560 * h.dlen
def Hatbox.slot (h : Hatbox) (n : Nat) : HbSlot := tGet {} h.slots n
def Hatbox.setSlot (h : Hatbox) (n : Nat) (x : HbSlot) : Hatbox := { h with slots := tSet {} h.slots n x }
/-- The base of a slot's frame. -/
def Hatbox.base (h : Hatbox) (n : Nat) : Nat := h.region.toNat + n * h.frame
def Hatbox.group (h : Hatbox) (g : Nat) : HbGroup := h.groups.getD g ⟨1, false, 0⟩

/-- Slots not FREE. -/
def Hatbox.used (h : Hatbox) : Nat := (h.slots.filter (fun p => p.2.state ≠ .free)).length

/-- FLAGS bits (Table 19.5). -/
def hbTMO : BitVec 16 := 0x001
def hbSUBST : BitVec 16 := 0x002
def hbRENORM : BitVec 16 := 0x004
def hbRESMISS : BitVec 16 := 0x008
def hbRNFAIL : BitVec 16 := 0x010
def hbEMPTY : BitVec 16 := 0x020
def hbNV : BitVec 16 := 0x040
def hbOF : BitVec 16 := 0x080
def hbNX : BitVec 16 := 0x100

/-- Header words 0 and 1 (Table 19.2). -/
def HbSlot.head (x : HbSlot) : List Nat :=
  [x.aseq.toNat * 2 ^ 32 + x.flags.toNat * 2 ^ 16 + x.arr.toNat * 2 ^ 8 + x.sub.toNat, x.tag.toNat * 2 ^ 32 + x.group % 16 * 2 ^ 28 + x.exps.length]

/-- Header words 4 to 7. -/
def HbSlot.weights (x : HbSlot) : List Nat := (upto 0 4).map (fun j => (x.wgts.getD (2 * j) 0).toNat + (x.wgts.getD (2 * j + 1) 0).toNat * 2 ^ 32)

/-- Header words 2 to 7. -/
def HbSlot.tail (x : HbSlot) : List Nat :=
  (upto 0 2).map (fun j => (upto 0 4).foldl (fun a i => a + x.exps.getD (4 * j + i) 0 % 2 ^ 16 * 2 ^ (16 * i)) 0) ++ x.weights

/-- A context's Hatbox configuration written back. -/
def State.setHatbox (s : State) (ctx : Nat) (h : Hatbox) : State := s.setCtx { s.ctxAt ctx with hatbox := some h }

/-- Header words of a slot from word k written in its frame. -/
def State.hbHeader (s : State) (ctx : Nat) (h : Hatbox) (n k : Nat) (ws : List Nat) : State := s.unitWrite ctx [3] (h.base n + 8 * k) (wordsBytes ws)

/-- The lowest FREE slot. -/
def Hatbox.lowest (h : Hatbox) : Option Nat := (upto 0 h.quota).find? (fun n => (h.slot n).state = .free)

/-! ### Release (R337) -/

/-- The slots of an allocation order that become RELEASED: the leading ones, or every one in an unordered group. -/
def Hatbox.ripe (h : Hatbox) (unord : Bool) : List Nat → List Nat
  | [] => []
  | n :: ns =>
    if (h.slot n).state = .done && (h.slot n).combined then n :: h.ripe unord ns
    else if unord then h.ripe unord ns
    else []

/-- Every DONE slot of a group whose turn has come RELEASED. -/
def Hatbox.releaseGroup (h : Hatbox) (g : Nat) : Hatbox :=
  let out := h.ripe (h.group g).unord (tGet [] h.order g)
  let h1 : Hatbox := { h with order := tSet [] h.order g ((tGet [] h.order g).filter (fun n => !out.contains n)), queue := tSet [] h.queue g (tGet [] h.queue g ++ out) }
  out.foldl (fun h n => h.setSlot n { h.slot n with state := .released }) h1

/-! ### Arrivals (R333) -/

/-- What the unit does with a put. -/
inductive PutKind where
  | residual | expert (j : Nat) | late | stray
  deriving DecidableEq, Repr

/-- The judgement of R333 for a put to slot n at the base of its frame (`atBase`). -/
def Hatbox.judge (h : Hatbox) (n : Nat) (atBase : Bool) (word : Nat) : PutKind :=
  let x := h.slot n
  let exp := bits word 0 16
  if !atBase then .stray
  else if x.aseq.toNat ≠ bits word 32 32 || (x.state ≠ .alloc && x.state ≠ .gated) then .late
  else if bits word 16 7 ≠ h.dlen then .stray
  else if exp = 0xFFFF then (if x.resid then .stray else .residual)
  else match (upto 0 x.exps.length).find? (fun j => x.exps.getD j 0 = exp) with
    | some j => if x.state = .gated && !x.arr.getLsbD j then .expert j else .stray
    | none => .stray

/-- A saturating count of 32 bits. -/
def satInc (n : Nat) : Nat := min (n + 1) 0xFFFFFFFF

/-- Whether every position of a slot has arrived. -/
def HbSlot.full (x : HbSlot) : Bool := (upto 0 x.exps.length).all (fun j => x.arr.getLsbD j)

/-- A slot in which a put from a source has filled a position in clk `now`; the residual is position 8. -/
def HbSlot.tookAt (x : HbSlot) (now j src : Nat) : HbSlot := { x with took := (if x.takenAt = now then x.took else []) ++ [(j, src)], takenAt := now }

/-- A put reaches the unit of a context: accepted, late, stray, or for no slot. -/
def State.hbArrive (s : State) (ctx src target word : Nat) (data : List Lane) : State :=
  match (s.ctxAt ctx).hatbox with
  | none => s
  | some h =>
    if target < h.region.toNat || h.region.toNat + h.quota * h.frame ≤ target then s
    else
      let off := target - h.region.toNat
      let n := off / h.frame
      let x := h.slot n
      match h.judge n (off % h.frame = 0) word with
      | .residual => (s.unitWrite ctx [3] (h.base n + 256 + 2048 * h.dlen) (laneBytes data)).setHatbox ctx (h.setSlot n ({ x with resid := true }.tookAt s.now 8 src))
      | .expert j =>
        let x1 := { x.tookAt s.now j src with arr := x.arr ||| BitVec.ofNat 8 (2 ^ j) }
        let x2 := if x1.full then { x1 with state := .done } else x1
        let s1 := s.unitWrite ctx [3] (h.base n + 256 + 256 * h.dlen * j) (laneBytes data)
        (s1.hbHeader ctx h n 0 (x1.head.take 1)).setHatbox ctx (h.setSlot n x2)
      | .late => s.setHatbox ctx { h with late := satInc h.late }
      | .stray => s.setHatbox ctx { h with stray := satInc h.stray }

/-- The place of a core of this package in the order of senders: package, virtual die, logical core (R333). -/
def State.sender (s : State) (die core : Nat) : Nat := (Config.packageNo * 4 + s.vdieOf die core) * 160 + core

/-- The position that a put's word names in a slot: 8 is the residual. -/
def HbSlot.posOf (x : HbSlot) (word : Nat) : Nat :=
  let exp := bits word 0 16
  if exp = 0xFFFF then 8 else ((upto 0 x.exps.length).find? (fun j => x.exps.getD j 0 = exp)).getD 9

/-- Whether a put comes in a later clk: the slot it names timed out in this one, and arrivals of a clk come before its time-outs (R332); or a put of the
same position from a later sender has been taken in this clk (R333). -/
def State.hbTooLate (s : State) (ctx src target word : Nat) : Bool :=
  match (s.ctxAt ctx).hatbox with
  | none => false
  | some h =>
    let x := h.slot ((target - h.region.toNat) / h.frame)
    decide (h.region.toNat ≤ target) && ((x.flags.getLsbD 0 && x.due = s.now)
      || (x.takenAt = s.now && x.took.any (fun q => q.1 = x.posOf word && decide (src < q.2))))

/-! ### The combine (R334, R335) -/

/-- What a slot's policy selects: each position's weight as used, the positions included and whether each takes the residual, and the
flags (Table 19.4). -/
structure Combine where
  wgts  : List (BitVec 32)
  parts : List (Nat × Bool)
  flags : BitVec 16
  deriving DecidableEq, Repr

/-- The weights' sum over a list of positions, each addition rounded. -/
def sumWeights (ws : List (BitVec 32)) (acc : Nat) : List Nat → Nat
  | [] => acc
  | j :: js => sumWeights ws (rne 0 (fAdd (decodeF 0 acc) (decodeF 0 (ws.getD j 0).toNat)).1).1 js

/-- The selection of a DONE slot. -/
def HbSlot.select (x : HbSlot) (policy : Nat) : Combine :=
  let js := upto 0 x.exps.length
  let here := js.filter (fun j => x.arr.getLsbD j)
  let plain : List (Nat × Bool) := here.map (fun j => (j, false))
  if !x.flags.getLsbD 0 then ⟨x.wgts, plain, x.flags⟩
  else match policy with
    | 1 =>
      let sum := decodeF 0 (sumWeights x.wgts 0 here)
      if here = [] then ⟨x.wgts, [], x.flags ||| hbEMPTY⟩
      else if fSpecial sum || fEq sum (.fin false 0 0) then ⟨x.wgts, plain, x.flags ||| hbRNFAIL⟩
      else
        let w := js.map (fun j => if x.arr.getLsbD j then BitVec.ofNat 32 (rne 0 (fDiv (decodeF 0 (x.wgts.getD j 0).toNat) sum).1).1 else x.wgts.getD j 0)
        ⟨w, plain, x.flags ||| hbRENORM⟩
    | 2 =>
      if x.resid then ⟨x.wgts, js.map (fun j => (j, !x.arr.getLsbD j)), x.flags⟩ else ⟨x.wgts, plain, x.flags ||| hbRESMISS⟩
    | _ => ⟨x.wgts, plain, x.flags⟩

/-- One element: weights and vectors' elements in ascending position. -/
def combineElem (acc : Nat) (f : Flags) : List (Nat × Nat) → Nat × Flags
  | [] => (acc, f)
  | (w, r) :: t =>
    let p := fMul (decodeF 0 w) (decodeF 0 r)
    let y := fAdd (decodeF 0 acc) p.1
    let z := rne 0 y.1
    combineElem z.1 (f ||| p.2 ||| y.2 ||| z.2) t

/-- An f32 of a frame at an offset; unreadable frames give a free value. -/
def State.hbElem (s : State) (ctx va : Nat) : Nat := (s.vread ctx [3] va 4).getD (s.freeNat (va % 2 ^ 20) % 2 ^ 32)

/-- The vectors' elements e of the selected positions, with their weights. -/
def State.hbParts (s : State) (ctx : Nat) (h : Hatbox) (n : Nat) (c : Combine) (e : Nat) : List (Nat × Nat) :=
  c.parts.map (fun q => ((c.wgts.getD q.1 0).toNat, s.hbElem ctx (h.base n + 256 + 256 * h.dlen * (if q.2 then 8 else q.1) + 4 * e)))

/-- The combined vector with its flags. -/
def State.hbCombine (s : State) (ctx : Nat) (h : Hatbox) (n : Nat) (c : Combine) : List (Nat × Flags) :=
  (upto 0 (64 * h.dlen)).map (fun e => combineElem 0 0 (s.hbParts ctx h n c e))

/-- The header's flags from the combine's. -/
def hbFlags (f : Flags) : BitVec 16 := (if f &&& fNX ≠ 0 then hbNX else 0) ||| (if f &&& fOF ≠ 0 then hbOF else 0) ||| (if f &&& fNV ≠ 0 then hbNV else 0)

/-- COMBINE_WRITE: the combined vector and the header, then the releases that it allows. -/
def State.combineWrite (s : State) (ctx : Nat) (h : Hatbox) (n : Nat) : State :=
  let x := h.slot n
  let c := x.select (h.group x.group).policy
  let out := s.hbCombine ctx h n c
  let x1 := { x with wgts := c.wgts, flags := c.flags ||| hbFlags (out.foldl (fun f q => f ||| q.2) 0), combined := true }
  let s1 := s.unitWrite ctx [3] (h.base n + 256 + 2304 * h.dlen) (out.flatMap (fun q => natToBytes 4 q.1))
  let s2 := (s1.hbHeader ctx h n 0 (x1.head.take 1)).hbHeader ctx h n 4 x1.weights
  s2.setHatbox ctx ((h.setSlot n x1).releaseGroup x1.group)

def execCombineWrite (die ctx slot : Nat) (s : State) : Out :=
  match (s.ctxAt ctx).hatbox with
  | none => .next s
  | some h => event s ((s.ctxAt ctx).die = die && (h.slot slot).state = .done && !(h.slot slot).combined && !s.dieAway die) (fun s => s.combineWrite ctx h slot)

/-- HB_TIMEOUT: a GATED slot whose time is over becomes DONE, its missing positions marked. -/
def HbSlot.expire (x : HbSlot) (now : Nat) : HbSlot :=
  { x with state := .done, due := now, flags := x.flags ||| hbTMO ||| hbSUBST, sub := BitVec.ofNat 8 (2 ^ x.exps.length - 1) &&& ~~~x.arr }

def execHbTimeout (die ctx slot : Nat) (s : State) : Out :=
  match (s.ctxAt ctx).hatbox with
  | none => .next s
  | some h => event s ((s.ctxAt ctx).die = die && (h.slot slot).state = .gated && decide ((h.slot slot).due ≤ s.now) && !s.dieAway die)
      (fun s => s.setHatbox ctx { h.setSlot slot ((h.slot slot).expire s.now) with tmos := satInc h.tmos })

/-! ### The C-stream forms (R339 to R344) -/

/-- A form of the unit. -/
def hbForm (g : BitVec 3) : Form := { fC g with feature := some 0 }

/-- The context's configuration; without one, HBARG (R338). -/
def State.needHatbox (s : State) : Res Hatbox :=
  match (s.ctxAt s.myCtx).hatbox with
  | some h => .ok h
  | none => stopTrap clsUse subHBARG

/-- The result word of Table 19.7. -/
def hbResult (aseq : BitVec 32) (n : Nat) : Word := BitVec.ofNat 64 (aseq.toNat * 2 ^ 16 + n)
def hbFail : Word := 0x8000000000000000#64

/-- A slot as `hballoc` starts it. -/
def freshSlot (q tag : BitVec 32) (g : Nat) : HbSlot := { state := .alloc, aseq := q, tag := tag, group := g }

def hballocBody (i : Instr) (d a b : Nat) (s : State) : Res State := do
  let h ← s.needHatbox
  let g := (s.rx a).toNat
  let t := (s.rx b 1).toNat
  need (decide (g ≤ 15) && t / 2 ^ 32 = 0) clsUse subHBARG
  s.unitAsk i 0
  match h.lowest with
  | none => pure (s.landX d hbFail 1)
  | some n =>
    let q := h.aseq + 1
    let x := freshSlot q (BitVec.ofNat 32 t) g
    let h1 := { h.setSlot n x with aseq := q, order := tSet [] h.order g (tGet [] h.order g ++ [n]) }
    pure (((s.hbHeader s.myCtx h n 0 x.head).setHatbox s.myCtx h1).landX d (hbResult q n) 1)

def execHballoc (d a b : BitVec 6) (g : BitVec 3) (s : State) : Out := issue s (hbForm g) (hballocBody (.hballoc d a b g) d.toNat a.toNat b.toNat)

/-- The rules of a gate record (R341). -/
def gateOk (w : Nat → Nat) : Bool :=
  let n := bits (w 6) 0 4
  let idx := fun i => bits (w (i / 4)) (16 * (i % 4)) 16
  1 ≤ n && decide (n ≤ 8) && bits (w 6) 32 32 = 0 && bits (w 6) 4 12 = 0 && w 7 = 0 && (upto 0 n).all (fun i => decide (idx i < 2 ^ 12))
    && (upto 0 n).all (fun i => (upto 0 i).all (fun j => idx i ≠ idx j))

/-- A pair put into a list by ascending index. -/
def insPair (p : Nat × BitVec 32) : List (Nat × BitVec 32) → List (Nat × BitVec 32)
  | [] => [p]
  | q :: t => if p.1 < q.1 then p :: q :: t else q :: insPair p t

/-- The gate record's pairs in ascending index. -/
def gatePairs (w : Nat → Nat) : List (Nat × BitVec 32) :=
  (upto 0 (bits (w 6) 0 4)).foldl (fun l i => insPair (bits (w (i / 4)) (16 * (i % 4)) 16, BitVec.ofNat 32 (bits (w (2 + i / 2)) (32 * (i % 2)) 32)) l) []

/-- The slot gated at a clk: its timer runs from the landing. -/
def HbSlot.gate (x : HbSlot) (w : Nat → Nat) (tmodef now : Nat) : HbSlot :=
  let t := bits (w 6) 16 16
  { x with state := .gated, exps := (gatePairs w).map (·.1), wgts := (gatePairs w).map (·.2), due := now + 1 + (if t = 0 then tmodef else t) * Config.clkPerUs }

def hbgateBody (i : Instr) (a b : Nat) (s : State) : Res State := do
  let rec_ := (s.rx b 1).toNat
  need (aligned rec_ 64) clsMem 3 (BitVec.ofNat 64 rec_)
  let h ← s.needHatbox
  let n := (s.rx a).toNat
  need (decide (n < h.quota)) clsUse subHBARG
  s.unitAsk i rec_
  let ws ← s.unitWords i rec_ rec_ 8
  let w := fun k => ws.getD k 0
  need ((h.slot n).state = .alloc) clsUse subHBSTATE
  need (gateOk w) clsUse subHBGATE
  let x := (h.slot n).gate w (h.group (h.slot n).group).tmo s.now
  pure ((s.hbHeader s.myCtx h n 1 (x.head.drop 1 ++ x.tail)).setHatbox s.myCtx (h.setSlot n x))

def execHbgate (a b : BitVec 6) (g : BitVec 3) (s : State) : Out := issue s (hbForm g) (hbgateBody (.hbgate a b g) a.toNat b.toNat)

def hbpollBody (i : Instr) (d a : Nat) (s : State) : Res State := do
  let h ← s.needHatbox
  let g := (s.rx a).toNat
  need (decide (g ≤ 15)) clsUse subHBARG
  s.unitAsk i 0
  match tGet [] h.queue g with
  | [] => pure (s.landX d hbFail 1)
  | n :: rest =>
    let h1 := { h.setSlot n { h.slot n with state := .taken } with queue := tSet [] h.queue g rest }
    pure ((s.setHatbox s.myCtx h1).landX d (hbResult (h.slot n).aseq n) 1)

def execHbpoll (d a : BitVec 6) (g : BitVec 3) (s : State) : Out := issue s (hbForm g) (hbpollBody (.hbpoll d a g) d.toNat a.toNat)

/-- A slot freed, its header fields as they were: out of its queue and its allocation order, which may release the tokens behind it (R337, R342). -/
def Hatbox.free (h : Hatbox) (n : Nat) : Hatbox :=
  let g := (h.slot n).group
  let h1 := h.setSlot n { h.slot n with state := .free }
  let h2 := { h1 with queue := tSet [] h.queue g ((tGet [] h.queue g).filter (· ≠ n)), order := tSet [] h.order g ((tGet [] h.order g).filter (· ≠ n)) }
  h2.releaseGroup g

def hbrelBody (i : Instr) (a : Nat) (s : State) : Res State := do
  let h ← s.needHatbox
  let n := (s.rx a).toNat
  need (decide (n < h.quota)) clsUse subHBARG
  s.unitAsk i 0
  let st := (h.slot n).state
  need (st = .alloc || st = .released || st = .taken) clsUse subHBSTATE
  pure (s.setHatbox s.myCtx (h.free n))

def execHbrel (a : BitVec 6) (g : BitVec 3) (s : State) : Out := issue s (hbForm g) (hbrelBody (.hbrel a g) a.toNat)

/-- A slot state's code (Table 19.3). -/
def SlotState.code : SlotState → Nat
  | .free => 0
  | .alloc => 1
  | .gated => 2
  | .done => 3
  | .released => 4
  | .taken => 5

/-- The slot word of Table 19.8. -/
def HbSlot.word (x : HbSlot) (now : Nat) : Nat :=
  x.state.code * 2 ^ 61 + x.arr.toNat * 2 ^ 48 + x.aseq.toNat * 2 ^ 16 + (if x.state = .gated then min ((x.due - now) / Config.clkPerUs) 0xFFFF else 0)

def hbstatBody (i : Instr) (d a : Nat) (s : State) : Res State := do
  let q := (s.rx a).toNat
  if bit q 63 then do
    need (d % 2 = 0 && d ≠ 0) clsIllegal subREGRANGE
    let h ← s.needHatbox
    need (q % 2 ^ 63 = 0) clsUse subHBARG
    s.unitAsk i 0
    pure ((s.landX d (BitVec.ofNat 64 (h.late * 2 ^ 32 + h.stray)) 1).landX (d + 1) (BitVec.ofNat 64 (h.tmos * 2 ^ 32 + (h.quota - h.used))) 1)
  else do
    let h ← s.needHatbox
    need (q / 2 ^ 16 = 0 && decide (q < h.quota)) clsUse subHBARG
    s.unitAsk i 0
    pure (s.landX d (BitVec.ofNat 64 ((h.slot q).word s.now)) 1)

def execHbstat (d a : BitVec 6) (g : BitVec 3) (s : State) : Out := issue s (hbForm g) (hbstatBody (.hbstat d a g) d.toNat a.toNat)

/-- The rules of a configuration block (R344). -/
def hbBlockOk (w : Nat → Nat) : Bool :=
  let quota := bits (w 1) 32 16
  let dl := bits (w 1) 0 7
  w 0 % 256 = 0 && bits (w 1) 48 16 = 0 && bits (w 1) 7 25 = 0 && (quota = 0 || (dl ≠ 0 && decide (dl ≤ 64)))
    && (upto 2 16).all (fun k => bits (w k) 48 16 ≠ 0 && bits (w k) 3 45 = 0 && bits (w k) 0 2 ≠ 3)

/-- The configuration a block describes. -/
def hbOf (w : Nat → Nat) : Hatbox :=
  { region := BitVec.ofNat 64 (w 0), quota := bits (w 1) 32 16, dlen := bits (w 1) 0 7,
    groups := (upto 2 16).map (fun k => ⟨bits (w k) 48 16, bit (w k) 2, bits (w k) 0 2⟩) }

/-- Slots that the other contexts of a die hold. -/
def State.otherQuota (s : State) (die ctx : Nat) : Nat :=
  s.ctxs.foldl (fun n p => match p.2.hatbox with
    | some h => if p.2.die = die && p.2.id ≠ ctx then n + h.quota else n
    | none => n) 0

/-- Every header of a configuration's frames zeroed. -/
def State.hbZero (s : State) (ctx : Nat) (h : Hatbox) : State :=
  (upto 0 h.quota).foldl (fun s n => s.unitWrite ctx [3] (h.base n) (List.replicate 256 0)) s

def hbcfgBody (i : Instr) (d a : Nat) (s : State) : Res State := do
  let blk := (s.rx a).toNat
  need (aligned blk 8) clsMem 3 (BitVec.ofNat 64 blk)
  s.unitAsk i blk
  let ws ← s.unitWords i blk blk 18
  let w := fun k => ws.getD k 0
  need (hbBlockOk w) clsUse subHBCFG
  let h := hbOf w
  let busy := match (s.ctxAt s.myCtx).hatbox with
    | some o => decide (o.used ≠ 0)
    | none => false
  if busy then pure (s.landX d 2 1)
  else if 65536 < s.otherQuota s.cur.die s.myCtx + h.quota then pure (s.landX d 1 1)
  else do
    liftTrap (s.pagesCheck s.myCtx 3 (pagesOf h.region.toNat (h.quota * h.frame)))
    pure (((s.hbZero s.myCtx h).setHatbox s.myCtx h).landX d 0 1)

def execHbcfg (d a : BitVec 6) (g : BitVec 3) (s : State) : Out := issue s (hbForm g) (hbcfgBody (.hbcfg d a g) d.toNat a.toNat)

/-! ### hbput (R345) -/

/-- The place of a class instruction's unit in a page of a class (R103 steps 1 and 2, R306): no footprint, no owner tag. -/
def State.unitPlace (s : State) (posted : Bool) (ctx cls va n : Nat) (wr : Bool) : Except TrapRec Phys := s.checkFor posted ctx none [cls] va n wr

/-- A class form entered in the copy queue with its scratchpad range. -/
def State.queueEntry (s : State) (k : Copy) (lo n : Nat) (wr : Bool) : Res State := do
  let c := s.myCore
  await (decide (c.copyq.length < Config.copyQueueSize) && c.sbRoom 1) s
  s.sectorsReady s.cur.die s.cur.core lo n wr (c.mapped lo n)
  let c1 := c.enter (.copy c.issueNo) [(lo, n, wr)]
  pure (s.setMyCore { c1 with copyq := c1.copyq ++ [{ k with num := c.issueNo, pc := s.me.pc }] })

/-- The foreign window of a context that holds an address. -/
def State.foreignWin (s : State) (ctx va : Nat) : Option (Nat × ImportEnt) :=
  match windowOf (s.ctxAt ctx) va with
  | some (slot, w) => if w.foreign then some (slot, w) else none
  | none => none

/-- The importer's checks of a write into a window of another package (R306). -/
def ImportEnt.foreignCheck (w : ImportEnt) (va : Nat) : Except TrapRec Unit :=
  if w.revoked then .error { cls := clsHandle, sub := 2, addr := BitVec.ofNat 64 va }
  else if !w.write then .error { cls := clsMem, sub := 1, addr := BitVec.ofNat 64 va }
  else .ok ()

/-- The target's checks at issue. -/
def State.putTarget (s : State) (ctx va : Nat) : Except TrapRec Unit :=
  match s.foreignWin ctx va with
  | some (_, w) => w.foreignCheck va
  | none => match s.unitPlace true ctx 3 va 1 true with
    | .ok _ => .ok ()
    | .error t => .error t

def hbputBody (d a b : Nat) (s : State) : Res State := do
  let w := (s.rx d).toNat
  let src := (s.rx a 1).toNat
  let dst := (s.rx b 2).toNat
  need (aligned src 4) clsMem 3 (BitVec.ofNat 64 src)
  need (aligned dst 256) clsMem 3 (BitVec.ofNat 64 dst)
  let dl := bits w 16 7
  need (bits w 23 9 = 0 && dl ≠ 0 && decide (dl ≤ 64)) clsUse subHBPUT
  let _ ← s.needHatbox
  liftTrap (s.myCore.spCheck src (256 * dl) false)
  liftTrap (s.putTarget s.myCtx dst)
  s.queueEntry { num := 0, kind := .put, dst := BitVec.ofNat 64 dst, src := BitVec.ofNat 64 src, n0 := 256 * dl, ssp := true, word := BitVec.ofNat 64 w } src (256 * dl) false

def execHbput (d a b : BitVec 6) (g : BitVec 3) (s : State) : Out :=
  issue s { fX g (s.regs [d.toNat, a.toNat, b.toNat]) with feature := some 0, eff := true } (hbputBody d.toNat a.toNat b.toNat)

/-- The items that a class form has posted noted in its entry, for deferred arrivals (R262). -/
def State.notePid (s : State) (die core pid : Nat) : State := s.setHead die core (fun k => { k with pids := k.pids ++ [pid] })

/-- The head of the queue lands, if there is one. -/
def State.landHead (s : State) (die core : Nat) : State :=
  match (s.coreAt die core).copyq.head? with
  | some k => s.landCopy die core k
  | none => s

/-- A put posted through an import, and landed: its data has entered the fabric. -/
def State.postPut (s : State) (die core : Nat) (k : Copy) (slot : Nat) (w : ImportEnt) (target : Nat) (home : Option Nat) : State :=
  let r := s.newItem die core { pid := 0, imp := w.uid, home := home, copy := true }
  let m : PutMsg := ⟨die, core, r.1, slot, home, w.exp, target, k.word, toLanes (s.spBytes die core k.src.toNat k.n0)⟩
  (({ r.2 with puts := r.2.puts ++ [m] } : State).notePid die core r.1).landHead die core

/-- The put at the head of a copy queue, a release of its stream (R296), sent whole: to the unit of its own die, or posted to the home die of a
window. -/
def State.sendPut (s : State) (die core : Nat) (k : Copy) : Res State := do
  await ((s.coreAt die core).released .x) s
  let ctx := s.ctxOf die core
  let va := k.dst.toNat
  match windowOf (s.ctxAt ctx) va with
  | none => do
    await (!s.hbTooLate ctx (s.sender die core) va k.word.toNat) s
    pure ((s.hbArrive ctx (s.sender die core) va k.word.toNat (toLanes (s.spBytes die core k.src.toNat k.n0))).landHead die core)
  | some (slot, w) => match s.exportOf w.exp with
    | some e => pure (s.postPut die core k slot w (e.base + (va - w.wbase)) (some e.die))
    | none => pure (s.postPut die core k slot w va none)

/-- The context at whose unit a put through an export arrives, by the exporter's translation; none where the home drops it (R306). -/
def State.putPlace (s : State) (exp target : Nat) : Option Nat :=
  match s.exportOf exp with
  | none => none
  | some e => if e.revoked || decide (target < e.base) || decide (e.base + e.len ≤ target) then none else match s.pageCheck (s.ctxAt e.ctx) [3] target true target with
    | .ok _ => some e.ctx
    | .error _ => none

/-- HB_PUT_ARRIVAL of a posted put; what another package answers is not known. -/
def State.putArrive (s : State) (n : Nat) (m : PutMsg) : State :=
  let s1 := { s with puts := dropNth s.puts n }
  match m.home with
  | none =>
    let bad := s.freeNat 0 % 2 = 1
    (if bad then s1.revokeImport (s1.ctxOf m.die m.core) m.slot else s1).ackItem 4 m.die m.core m.pid bad
  | some h => match s1.putPlace m.exp m.target with
    | none => (s1.revokeImport (s1.ctxOf m.die m.core) m.slot).ackItem h m.die m.core m.pid true
    | some ctx => (s1.hbArrive ctx (s.sender m.die m.core) m.target m.word.toNat m.data).ackItem h m.die m.core m.pid false

/-- Whether nothing but its place in the order of messages keeps a posted put from arriving. -/
def State.putFree (s : State) (m : PutMsg) : Bool :=
  match m.home with
  | none => true
  | some h => !s.dieAway h && (match s.putPlace m.exp m.target with
    | some ctx => !s.hbTooLate ctx (s.sender m.die m.core) m.target m.word.toNat
    | none => true)

/-- Whether a posted put may arrive: puts from one die to another arrive in the order sent (R314). -/
def State.putDue (s : State) (n : Nat) (m : PutMsg) : Bool := s.putFree m && (s.puts.take n).all (fun x => !(x.die = m.die && x.home = m.home && s.putFree x))

/-- A put of another package: the home checks it, and drops it as it does a posted one (R306). -/
def State.foreignPut (s : State) (exp target word src : Nat) (data : List Lane) : State :=
  match s.putPlace exp target with
  | some ctx => s.hbArrive ctx src target word data
  | none => s

/-- Whether a put of another package may arrive now. -/
def State.foreignDue (s : State) (exp target word src : Nat) : Bool :=
  match s.exportOf exp with
  | none => false
  | some e => !s.dieAway e.die && (match s.putPlace exp target with
    | some ctx => !s.hbTooLate ctx src target word
    | none => true)

def execHbPutArrival (src : PutSrc) (s : State) : Out :=
  match src with
  | .queued n => match s.puts[n]? with
    | none => .next s
    | some m => event s (s.putDue n m) (fun s => s.putArrive n m)
  | .foreign exp target word from_ data =>
    event s (s.foreignDue exp.toNat target.toNat word.toNat from_) (fun s => s.foreignPut exp.toNat target.toNat word.toNat from_ data)

end Sys2Proof.Machine
end

