-- ==== Sys2Proof/Machine/Param.lean ====
section
/-! DEFINITION. Parameter records (R351 to R357): arrivals, updates by a rule, and `prgrad`, `prread`, `prsync`, `prrule`. -/

namespace Sys2Proof.Machine

/-- Illegal-use subcodes of R364. -/
def subPRARG : Nat := 0x30
def subPRRULE : Nat := 0x31
def subGARG : Nat := 0x32
def subGCFG : Nat := 0x33
def subGDEP : Nat := 0x34

/-! ### A 256-byte unit as 64 lanes -/

/-- The unit's lanes at its place, coherent at once. -/
def State.unitLanes (s : State) (key : Nat) : List Lane := toLanes (s.devBytes key 256)

/-- The unit's lanes written back. -/
def State.putUnit (s : State) (p : Phys) (ls : List Lane) : State := s.devWrite p (laneBytes ls)

/-- A lane of a unit as a number. -/
def laneAt (ls : List Lane) (k : Nat) : Nat := (ls.getD k 0).toNat

/-- A 64-bit word of a unit. -/
def word64 (ls : List Lane) (k : Nat) : Nat := laneAt ls (2 * k) + laneAt ls (2 * k + 1) * 2 ^ 32

/-- A lane replaced. -/
def setLane (ls : List Lane) (k v : Nat) : List Lane := setNth ls k (BitVec.ofNat 32 v)

/-! ### Rules (R356) -/

/-- An operand's code: its value. STEP is an exact integer. -/
def operandVal (env : List Lane) (step c : Nat) : FVal := if c = 15 then .fin false step 0 else decodeF 0 (laneAt env c)

/-- CLIP: min(max(a, −|b|), |b|). -/
def fClip (a b : FVal) : FVal := if a = .nan || b = .nan then .nan else fMin (fMax a (fNeg (fAbs b))) (fAbs b)

/-- One operation's result and flags (Table 21.3). -/
def ruleOp (env : List Lane) (step : Nat) (w : Nat) : Nat × Flags :=
  let sa := bits w 19 4
  let a := operandVal env step sa
  let b := operandVal env step (bits w 15 4)
  let c := operandVal env step (bits w 11 4)
  let out := fun (r : FVal × Flags) => let z := rne 0 r.1; (z.1, r.2 ||| z.2)
  match bits w 27 5 with
  | 1 => out (fAdd a b)
  | 2 => out (fAdd a (fNeg b))
  | 3 => out (fMul a b)
  | 4 => out (fFma a b c)
  | 5 => out (fDiv a b)
  | 6 => out (fSqrt a)
  | 7 => out (fRsqrt a)
  | 8 => out (fMax a b, 0)
  | 9 => out (fMin a b, 0)
  | 10 => powF32 a step
  | 11 => out (fClip a b, 0)
  | _ => if sa = 15 then rne 0 a else (laneAt env sa, 0)

/-- A rule's run over one parameter's operands: words in order until END or the last. -/
def ruleRun (step : Nat) (f : Flags) (env : List Lane) : List (BitVec 32) → List Lane × Flags
  | [] => (env, f)
  | w :: ws =>
    if bits w.toNat 27 5 = 0 then (env, f)
    else
      let r := ruleOp env step w.toNat
      ruleRun step (f ||| r.2) (setLane env (bits w.toNat 23 4) r.1) ws

/-- The operands at the start of a parameter's run (Table 21.2). -/
def ruleEnv (r : Rule) (w m v g lr : Lane) : List Lane := [w, m, v, g, 0, 0, 0, 0] ++ (upto 0 6).map (fun j => r.k.getD j 0) ++ [lr, 0]

/-- The lane of parameter p's W in a record. -/
def paramLane (p : Nat) : Nat := 8 + 4 * p

/-- Every parameter's run, in ascending order, with the flags: W, M and V written, G cleared. -/
def ruleAll (r : Rule) (step : Nat) (lr : Lane) : List Nat → List Lane → Flags → List Lane × Flags
  | [], ls, f => (ls, f)
  | p :: ps, ls, f =>
    let o := paramLane p
    let e := ruleRun step f (ruleEnv r (ls.getD o 0) (ls.getD (o + 1) 0) (ls.getD (o + 2) 0) (ls.getD (o + 3) 0) lr) (r.words.take r.nops)
    ruleAll r step lr ps (setLane (setLane (setLane (setLane ls o (laneAt e.1 0)) (o + 1) (laneAt e.1 1)) (o + 2) (laneAt e.1 2)) (o + 3) 0) e.2

/-- Every G cleared: the update of an empty rule slot. -/
def clearG (ls : List Lane) : List Lane := (upto 0 14).foldl (fun l p => setLane l (paramLane p + 3) 0) ls

/-- A record after an update (R354). -/
def recUpdate (rule : Option Rule) (ls : List Lane) : List Lane :=
  let step := laneAt ls 2
  let r := match rule with
    | some r => ruleAll r step (ls.getD 4 0) (upto 0 14) ls 0
    | none => (clearG ls, 0)
  let l1 := setLane r.1 1 (laneAt r.1 1 % 2 ^ 16)
  let l2 := setLane (setLane l1 2 (step + 1)) 3 (laneAt l1 3 + 1)
  setLane l2 6 (Nat.lor (laneAt l2 6) (r.2.toNat % 16 + (if rule.isNone then 16 else 0)))

/-! ### Arrivals (R353) -/

/-- The additions of one contribution: the record's lanes and the flags. -/
def addGrads (g : List Lane) : List Nat → List Lane → Flags → List Lane × Flags
  | [], ls, f => (ls, f)
  | p :: ps, ls, f =>
    let o := paramLane p + 3
    let y := fAdd (decodeF 0 (laneAt ls o)) (decodeF 0 (laneAt g p))
    let z := rne 0 y.1
    addGrads g ps (setLane ls o z.1) (f ||| y.2 ||| z.2)

/-- A record after an arrival. -/
def recArrive (g ls : List Lane) : List Lane :=
  let r := addGrads g (upto 0 14) ls 0
  let n := min (laneAt r.1 1 / 2 ^ 16 + 1) 0xFFFF
  let l1 := setLane r.1 1 (n * 2 ^ 16 + laneAt r.1 1 % 2 ^ 16)
  setLane l1 6 (Nat.lor (laneAt l1 6) (r.2.toNat % 16))

/-- Whether an arrival has completed a step. -/
def recFull (ls : List Lane) : Bool := let n := laneAt ls 1; n % 2 ^ 16 ≠ 0 && n / 2 ^ 16 = n % 2 ^ 16

/-- Whether a reserved header field is nonzero (R352). -/
def recBad (ls : List Lane) : Bool := laneAt ls 0 % 2 ^ 28 ≠ 0 || laneAt ls 5 ≠ 0 || laneAt ls 6 / 32 ≠ 0 || laneAt ls 7 ≠ 0

/-- A rule slot of a context's table. -/
def Ctx.rule (c : Ctx) (n : Nat) : Option Rule :=
  match c.rules with
  | none => none
  | some t => (t.find? (fun p => p.1 = n)).map (·.2)

/-- Whether an update of a record is in progress. -/
def State.updating (s : State) (key : Nat) : Bool := s.updates.any (fun u => u.key = key)

/-- A record that has become full awaits its update. -/
def State.awaitUpdate (s : State) (ctx : Nat) (p : Phys) (ls : List Lane) : State :=
  if recFull ls then { s with updates := s.updates ++ [⟨p.key, if recBad ls then none else (s.ctxAt ctx).rule (laneAt ls 0 / 2 ^ 28), p.keyNo⟩] } else s

/-- An arrival at the home slice of a record: `ctx` is the context whose tables map it. -/
def State.prArrive (s : State) (ctx : Nat) (p : Phys) (g : List Lane) : State :=
  let ls := recArrive g (s.unitLanes p.key)
  (s.putUnit p ls).awaitUpdate ctx p ls

/-- PR_UPDATE (R354). -/
def State.prUpdate (s : State) (u : Update) : State :=
  let p : Phys := { key := u.key, home := s.homeOf u.key, keyNo := u.keyNo, mtype := 0, mclass := 1 }
  ({ s with updates := s.updates.filter (fun x => x.key ≠ u.key) } : State).putUnit p (recUpdate u.rule (s.unitLanes u.key))

def execPrUpdate (record : Nat) (s : State) : Out :=
  match s.updates.find? (fun u => u.key = record) with
  | none => .next s
  | some u => event s true (fun s => s.prUpdate u)

/-- The place of a unit at the home of an export, by the exporter's translation, with the exporter; none where the home drops it (R306). -/
def State.unitHome (s : State) (grad : Bool) (exp va : Nat) : Option (Nat × Phys) :=
  match s.exportOf exp with
  | none => none
  | some e => if e.revoked || decide (va < e.base) || decide (e.base + e.len < va + 256) then none
    else match s.pageCheck (s.ctxAt e.ctx) [if grad then 1 else 2] va true va with
      | .ok l => let key := physKey e.die l.pa; some (e.ctx, { key := key, home := s.homeOf key, keyNo := l.keyNo, mtype := l.mtype, mclass := l.mclass, va := va })
      | .error _ => none

/-- A posted unit answered by its home. -/
def State.ackUnit (s : State) (m : UnitMsg) (dropped : Bool) : State := s.ackItem (m.home.getD 4) m.die m.core m.pid dropped

/-- A posted unit dropped by its home: the import is revoked (R306). -/
def State.dropUnit (s : State) (m : UnitMsg) : State := (s.revokeImport (s.ctxOf m.die m.core) m.slot).ackUnit m true

/-- Whether nothing but its place in the order of messages keeps a posted unit from being performed: an arrival waits for its record's update (R354). -/
def State.unitFree (s : State) (m : UnitMsg) : Bool :=
  match m.home with
  | none => true
  | some h => !s.dieAway h && (!m.grad || (match s.unitHome true m.exp m.va with
    | some (_, p) => !s.updating p.key
    | none => true))

/-- Units of one die reach another in the order they were sent (R279, R314). -/
def State.unitDue (s : State) (n : Nat) (m : UnitMsg) : Bool := s.unitFree m && (s.units.take n).all (fun x => !(x.die = m.die && x.home = m.home && s.unitFree x))

/-- What another package answers to a posted unit is not known. -/
def State.foreignAnswer (s : State) (m : UnitMsg) : State := if s.freeNat 0 % 2 = 1 then s.dropUnit m else s.ackUnit m false

/-- PR_ARRIVAL of a posted contribution. -/
def State.prPosted (s : State) (n : Nat) (m : UnitMsg) : State :=
  let s1 := { s with units := dropNth s.units n }
  if m.home.isNone then s1.foreignAnswer m
  else match s1.unitHome true m.exp m.va with
    | none => s1.dropUnit m
    | some (ctx, p) => (s1.prArrive ctx p m.data).ackUnit m false

/-- A contribution of another package, which its home performs or drops (R306, R365). -/
def State.foreignGrad (s : State) (exp va : Nat) (g : List Lane) : State :=
  match s.unitHome true exp va with
  | none => s
  | some (ctx, p) => s.prArrive ctx p g

/-- Whether a unit of another package may be performed now. -/
def State.foreignUnitDue (s : State) (grad : Bool) (exp va : Nat) : Bool :=
  match s.exportOf exp with
  | none => false
  | some e => !s.dieAway e.die && (match s.unitHome grad exp va with
    | some (_, p) => !grad || !s.updating p.key
    | none => true)

def execPrArrival (src : UnitSrc) (s : State) : Out :=
  match src with
  | .queued n => match s.units[n]? with
    | none => .next s
    | some m => event s (m.grad && s.unitDue n m) (fun s => s.prPosted n m)
  | .foreign exp va data => event s (s.foreignUnitDue true exp.toNat va.toNat) (fun s => s.foreignGrad exp.toNat va.toNat data)

/-! ### X-stream forms (R365) -/

/-- The checks at issue of a class form, and its entry: `bytes` per unit on the scratchpad side, `wr` says it writes there. -/
def State.classForm (s : State) (kind : CopyKind) (arg bytes : Nat) (wr : Bool) (d a b : Nat) : Res State := do
  let n := (s.rx b 2).toNat
  let at_ := (s.rx a 1).toNat
  let sp := (s.rx d).toNat
  need (1 ≤ n && decide (n ≤ 4096)) clsUse arg
  need (aligned at_ 256) clsMem 3 (BitVec.ofNat 64 at_)
  need (aligned sp 4) clsMem 3 (BitVec.ofNat 64 sp)
  liftTrap (s.myCore.spCheck sp (bytes * n) wr)
  s.queueEntry { num := 0, kind := kind, dst := BitVec.ofNat 64 at_, src := BitVec.ofNat 64 sp, n0 := bytes, n1 := n, ssp := true } sp (bytes * n) wr

/-- The form of a class instruction of the X stream. -/
def classX (feature : Nat) (eff : Bool) (d a b : BitVec 6) (g : BitVec 3) (s : State) : Form :=
  { fX g (s.regs [d.toNat, a.toNat, b.toNat]) with feature := some feature, eff := eff }

def execPrgrad (d a b : BitVec 6) (g : BitVec 3) (s : State) : Out :=
  issue s (classX 1 true d a b g s) fun s => s.classForm .grad subPRARG 64 false d.toNat a.toNat b.toNat

def execPrread (d a b : BitVec 6) (g : BitVec 3) (s : State) : Out :=
  issue s (classX 1 false d a b g s) fun s => s.classForm .prRead subPRARG 256 true d.toNat a.toNat b.toNat

/-- The context whose page tables map a place: the exporter's behind a window. -/
def State.ctxOfPlace (s : State) (ctx : Nat) (p : Phys) : Nat :=
  match p.slot, s.exportOf p.exp with
  | some _, some e => e.ctx
  | _, _ => ctx

/-- A unit posted through an import. -/
def State.postUnit (s : State) (die core : Nat) (grad : Bool) (m : UnitMsg) (imp : Nat) : State :=
  let r := s.newItem die core { pid := 0, imp := imp, home := m.home, copy := true }
  ({ r.2 with units := r.2.units ++ [{ m with pid := r.1, grad := grad, die := die, core := core }] } : State).notePid die core r.1

/-- A unit of `prgrad` or `gdep` on its way (R365), a release of its stream: through a window it is posted, else `here` performs it at its place. -/
def State.sendUnit (s : State) (die core : Nat) (grad : Bool) (k : Copy) (data : List Lane) (here : Nat → Phys → Res State) : Res State := do
  await ((s.coreAt die core).released .x) s
  let ctx := s.ctxOf die core
  let va := (k.dst + BitVec.ofNat 64 (256 * k.done)).toNat
  let msg := fun (slot exp va : Nat) (home : Option Nat) => (⟨grad, die, core, 0, slot, home, exp, va, data⟩ : UnitMsg)
  match s.foreignWin ctx va with
  | some (slot, w) => do
    liftTrap (w.foreignCheck va)
    pure (s.postUnit die core grad (msg slot w.exp va none) w.uid)
  | none => do
    let p ← liftTrap (s.unitPlace true ctx (if grad then 1 else 2) va 256 true)
    match p.slot with
    | some slot => pure (s.postUnit die core grad (msg slot p.exp p.va (some (s.expDie p))) p.imp)
    | none => here ctx p

/-- A class form's unit done, and the landing after the last. -/
def State.unitDone (s : State) (die core : Nat) (k : Copy) : State :=
  let s1 := (s.setHead die core (fun k => { k with done := k.done + 1, wait := none })).copySkid die core
  if k.n1 ≤ k.done + 1 then s1.landHead die core else s1

/-- One unit of `prgrad`. -/
def State.gradUnit (s : State) (die core : Nat) (k : Copy) : Res State :=
  let g := toLanes (s.spBytes die core (k.src.toNat + 64 * k.done) 64)
  s.sendUnit die core true k g (fun ctx p => do
    await (!s.updating p.key) s
    pure (s.prArrive ctx p g))

/-- One unit of `prread`. -/
def State.readUnit (s : State) (die core : Nat) (k : Copy) : Res State := do
  let va := (k.dst + BitVec.ofNat 64 (256 * k.done)).toNat
  let p ← liftTrap (s.unitPlace false (s.ctxOf die core) 1 va 256 false)
  pure (s.spWrite die core (k.src.toNat + 256 * k.done) (laneBytes (s.unitLanes p.key)))

/-! ### C-stream forms (R367) -/

/-- A C-stream form of a class feature. -/
def classC (feature : Nat) (g : BitVec 3) : Form := { fC g with feature := some feature }

def prsyncBody (d a b : Nat) (s : State) : Res State := do
  let va := (s.rx a).toNat
  need (aligned va 256) clsMem 3 (BitVec.ofNat 64 va)
  let p ← liftTrap (s.unitPlace false s.myCtx 1 va 256 false)
  let upd := BitVec.ofNat 32 (laneAt (s.unitLanes p.key) 3)
  await (decide (0 ≤ (upd - BitVec.ofNat 32 (s.rx b 1).toNat).toInt)) s
  pure (s.landX d (BitVec.ofNat 64 upd.toNat) 1)

def execPrsync (d a b : BitVec 6) (g : BitVec 3) (s : State) : Out := issue s (classC 1 g) (prsyncBody d.toNat a.toNat b.toNat)

/-- Whether an operation word breaks Table 21.3: an unlisted OP, a read-only DST, or a field that must be zero. -/
def opBad (w : Nat) : Bool :=
  let op := bits w 27 5
  let dst := bits w 23 4
  let sa := bits w 19 4
  let sb := bits w 15 4
  let sc := bits w 11 4
  decide (12 < op) || decide (8 ≤ dst) || bits w 0 11 ≠ 0
    || (op = 0 && (dst ≠ 0 || sa ≠ 0 || sb ≠ 0 || sc ≠ 0)) || ((op = 6 || op = 7 || op = 10 || op = 12) && sb ≠ 0) || (op ≠ 4 && sc ≠ 0)

/-- The byte offset of the first offending word of a rule descriptor, operation words numbered by `w`. -/
def ruleBad (head : Nat) (w : Nat → Nat) : Option Nat :=
  if head = 0 || 32 < head then some 0 else ((upto 0 head).find? (fun k => opBad (w k))).map (fun k => 32 + 4 * k)

/-- The rule a descriptor's words describe. -/
def ruleOf (ws : List Nat) : Rule :=
  let half := fun (o : Nat) => BitVec.ofNat 32 (bits (ws.getD (o / 8) 0) (8 * (o % 8)) 32)
  { nops := ws.getD 0 0, k := (upto 0 6).map (fun j => half (8 + 4 * j)), words := (upto 0 32).map (fun j => half (32 + 4 * j)) }

/-- Whether the die's unit can hold one more context's table. -/
def State.ruleRoom (s : State) (die ctx : Nat) : Bool :=
  (s.ctxAt ctx).rules.isSome || decide ((s.ctxs.filter (fun p => p.2.die = die && p.2.rules.isSome)).length < 64)

/-- A rule put in a slot of a context's table. -/
def Ctx.setRule (c : Ctx) (n : Nat) (r : Rule) : Ctx := { c with rules := some (tIns (tDel (c.rules.getD []) n) n r) }

def prruleBody (i : Instr) (d a b : Nat) (s : State) : Res State := do
  let at_ := (s.rx a).toNat
  let n := (s.rx b 1).toNat
  need (aligned at_ 32) clsMem 3 (BitVec.ofNat 64 at_)
  need (decide (n ≤ 15)) clsUse subPRARG
  s.unitAsk i at_
  let ws ← s.unitWords i at_ at_ 20
  let r := ruleOf ws
  match ruleBad r.nops (fun k => (r.words.getD k 0).toNat) with
  | some o => stopTrap clsUse subPRRULE (BitVec.ofNat 64 (at_ + o))
  | none =>
    if s.ruleRoom s.cur.die s.myCtx then pure ((s.setCtx ((s.ctxAt s.myCtx).setRule n r)).landX d 0 1)
    else pure (s.landX d 1 1)

def execPrrule (d a b : BitVec 6) (g : BitVec 3) (s : State) : Out := issue s (classC 1 g) (prruleBody (.prrule d a b g) d.toNat a.toNat b.toNat)

end Sys2Proof.Machine
end

