-- ==== Sys2Proof/Machine/Gossip.lean ====
section
/-! DEFINITION. Gossip-averaged regions (R358 to R363): halvings, merges, restores and resolution, `gdep`, `gread`, `gspread`, `gmass`,
`gcfg`; and the dispatch of the copy queue's beat groups. -/

namespace Sys2Proof.Machine

/-! ### Weights and regions -/

/-- The largest k. -/
def kMax : Nat := 2 ^ 24 - 1

/-- k of a weight w = k · 2^−WQ; none where w breaks the quantum rule (R358). -/
def kOf (wq w : Nat) : Option Nat :=
  match decodeF 0 w with
  | .fin neg m e =>
    let q := e + (wq : Int)
    let k := if 0 ≤ q then m * 2 ^ q.toNat else m / 2 ^ (-q).toNat
    if (neg && m ≠ 0) || (q < 0 && m % 2 ^ (-q).toNat ≠ 0) || kMax < k then none else some k
  | _ => none

/-- The weight of k. -/
def wOf (wq k : Nat) : Nat := (rne 0 (.fin false k (-(wq : Int)))).1

/-- The region's line at an address. -/
def Gossip.lineAt (g : Gossip) (va : Nat) : Option Nat :=
  if g.region.toNat ≤ va ∧ va < g.region.toNat + 256 * g.nlines then some ((va - g.region.toNat) / 256) else none

def Gossip.line (g : Gossip) (n : Nat) : GLine := tGet {} g.lines n
def Gossip.setLine (g : Gossip) (n : Nat) (l : GLine) : Gossip := { g with lines := tSet {} g.lines n l }

/-- DELTA of a line and port: +∞ until written. -/
def Gossip.deltaAt (g : Gossip) (line port : Nat) : BitVec 32 := tGet 0x7F800000#32 g.delta (line * 12 + port)

/-- A context's region written back. -/
def State.setGossip (s : State) (ctx : Nat) (g : Gossip) : State := s.setCtx { s.ctxAt ctx with gossip := some g }

/-- The place of line n of a context's region. -/
def State.linePlace (s : State) (ctx : Nat) (g : Gossip) (n : Nat) : Option Phys :=
  match s.unitPlace false ctx 2 (g.region.toNat + 256 * n) 256 true with
  | .ok p => if p.slot.isSome then none else some p
  | .error _ => none

/-- The weight's k of a line's lanes. -/
def lineK (g : Gossip) (ls : List Lane) : Option Nat := kOf g.wq (laneAt ls 63)

def State.portAt (s : State) (n : Nat) : Port := tGet {} s.ports n
def State.setPort (s : State) (n : Nat) (p : Port) : State := { s with ports := tSet {} s.ports n p }

/-! ### Halving (R360) -/

/-- v/2 truncated toward zero onto the f32 grid; infinities and NaN as themselves. -/
def halfOf (v : Nat) : Nat :=
  match decodeF 0 v with
  | .fin n m e => (roundTo 0 (.fin n m (e - 1)) 1 true false 0).1
  | _ => v

/-- What stays of a value: v − s, exact. -/
def keepOf (v s : Nat) : Nat :=
  match decodeF 0 v with
  | .fin n m e => (rne 0 (fAdd (.fin n m e) (fNeg (decodeF 0 s))).1).1
  | _ => v

/-- The value after a merge or restore: one rounding. -/
def addOf (v s : Nat) : Nat := (rne 0 (fAdd (decodeF 0 v) (decodeF 0 s)).1).1

/-- The next port of PORTS after the last used for a line that is up, ascending and wrapping. -/
def State.nextPort (s : State) (g : Gossip) (last : Option Nat) : Option Nat :=
  let start := match last with
    | some p => p + 1
    | none => 0
  ((upto 0 12).map (fun i => (start + i) % 12)).find? (fun p => g.ports.getLsbD p && (s.portAt p).up)

/-- Halves outstanding on a far die (R360). -/
def State.farOut (s : State) (far : Nat) : Nat :=
  s.ctxs.foldl (fun n p => match p.2.gossip with
    | some g => n + (g.lines.filter (fun l => match l.2.out with
        | some o => o.port / 6 = far
        | none => false)).length
    | none => n) 0

/-- Whether a line may be halved now: at least PERIOD since its last. -/
def State.periodOver (s : State) (g : Gossip) (l : GLine) : Bool :=
  match l.lastAt with
  | none => true
  | some t => decide (g.period * Config.clkPerUs ≤ (s.now - t) * 1000)

/-- A half sent to a port: it is numbered, kept until it is answered, and put on the link. -/
def State.sendHalf (s : State) (ctx : Nat) (g : Gossip) (n port : Nat) (half : List Lane) (ks : Nat) : State :=
  let q := s.portAt port
  let s1 := (s.setPort port { q with seq := q.seq + 1 }).setGossip ctx
    (g.setLine n { out := some { port := port, seq := q.seq, s := half, ks := ks, sent := s.now }, lastPort := some port, lastAt := some s.now })
  { s1 with halves := s1.halves ++ [(port, ⟨g.regId, n, q.seq, half, ks⟩)] }

/-- What the engine needs to halve a line that it visits: its place, a port and its k; none where it skips it. -/
def State.halvable (s : State) (ctx : Nat) (g : Gossip) (n : Nat) : Option (Phys × Nat × Nat) :=
  let l := g.line n
  if l.out.isSome || !s.periodOver g l then none
  else match s.linePlace ctx g n, s.nextPort g l.lastPort with
    | some p, some port => match lineK g (s.unitLanes p.key) with
      | some k => if k < 2 then none else some (p, port, k)
      | none => none
    | _, _ => none

/-- A line split: what stays, and what goes out on a port. -/
def State.split (s : State) (ctx : Nat) (g : Gossip) (n : Nat) (p : Phys) (port k : Nat) : State :=
  let ls := s.unitLanes p.key
  let ks := k / 2
  let half := (upto 0 63).map (fun e => BitVec.ofNat 32 (halfOf (laneAt ls e)))
  let kept := (upto 0 63).map (fun e => BitVec.ofNat 32 (keepOf (laneAt ls e) (laneAt half e)))
  (s.putUnit p (kept ++ [BitVec.ofNat 32 (wOf g.wq (k - ks))])).sendHalf ctx g n port half ks

/-- HALVING: the engine visits its next line, halves or skips it, and goes on to the one after it. -/
def State.halve (s : State) (ctx : Nat) (g : Gossip) (n : Nat) : State :=
  let g1 := { g with next := (n + 1) % g.nlines }
  match s.halvable ctx g n with
  | some (p, port, k) => s.split ctx g1 n p port k
  | none => s.setGossip ctx g1

def execHalving (ctx line : Nat) (s : State) : Out :=
  match (s.ctxAt ctx).gossip with
  | none => .next s
  | some g => event s (decide (line < g.nlines) && line = g.next && !s.dieAway (s.ctxAt ctx).die
      && (match s.halvable ctx g line with
        | some (_, p, _) => decide (s.farOut (p / 6) < 4096)
        | none => true)) (fun s => s.halve ctx g line)

/-! ### Merges and replies (R361) -/

/-- |s/ks − v/k| · 2^WQ of one element as an exact value over k·ks, then its quotient. -/
def deltaOf (wq k ks v s : Nat) : FVal :=
  let m := fun (x : FVal) (n : Nat) => (fMul x (.fin false n 0)).1
  let d := fAbs (fAdd (m (decodeF 0 s) k) (fNeg (m (decodeF 0 v) ks))).1
  (fDiv d (.fin false (k * ks) (-(wq : Int)))).1

/-- The largest of a list, NaN if any is. -/
def maxVal : List FVal → FVal
  | [] => .fin false 0 0
  | v :: vs => fMax v (maxVal vs)

/-- DELTA of a merge: rounded up; +∞ where either weight is 0. -/
def mergeDelta (wq k ks : Nat) (ls : List Lane) (half : List Lane) : Nat :=
  let ds := (upto 0 63).map (fun e => deltaOf wq (max k 1) (max ks 1) (laneAt ls e) (laneAt half e))
  let anyNan := (upto 0 63).any (fun e => decodeF 0 (laneAt ls e) = .nan || decodeF 0 (laneAt half e) = .nan)
  if anyNan then 0x7FC00000 else if k = 0 || ks = 0 then 0x7F800000 else (roundTo 0 (maxVal ds) 2 false false 0).1

/-- The live context whose region a half names. -/
def State.regionOf (s : State) (regId : BitVec 32) (port : Nat) : Option (Nat × Gossip) :=
  s.ctxs.findSome? (fun p => match p.2.gossip with
    | some g => if g.regId = regId && g.ports.getLsbD port then some (p.2.id, g) else none
    | none => none)

/-- Whether a sequence number was already applied on a port. -/
def Port.has (p : Port) (seq : BitVec 32) : Bool := p.applied.contains seq

/-- Whether a resolution has made a port refuse a sequence number (R362): not after the floor, and not applied. -/
def Port.stale (p : Port) (seq : BitVec 32) : Bool :=
  match p.floor with
  | none => false
  | some f => decide (diff32 seq f ≤ 0)

/-- A reply sent on a port: APPLIED (true) or REFUSED. -/
def State.reply (s : State) (port : Nat) (ok : Bool) (seq : BitVec 32) : State := { s with replies := s.replies ++ [(port, ok, seq)] }

/-- The lanes after a half is added to a line. -/
def mergeLanes (g : Gossip) (ls half : List Lane) (k : Nat) : List Lane :=
  (upto 0 63).map (fun e => BitVec.ofNat 32 (addOf (laneAt ls e) (laneAt half e))) ++ [BitVec.ofNat 32 (wOf g.wq k)]

/-- HALF_MERGE: a half that arrives on a port. -/
def State.mergeHalf (s : State) (port : Nat) (h : HalfMsg) : State :=
  let q := s.portAt port
  if q.has h.seq then s.reply port true h.seq
  else if q.stale h.seq then s.reply port false h.seq
  else match s.regionOf h.regId port with
    | none => s.reply port false h.seq
    | some (ctx, g) =>
      if g.nlines ≤ h.line then s.reply port false h.seq
      else match s.linePlace ctx g h.line with
        | none => s.reply port false h.seq
        | some p =>
          let ls := s.unitLanes p.key
          match lineK g ls with
          | none => s.reply port false h.seq
          | some k =>
            if kMax < k + h.ks then s.reply port false h.seq
            else
              let g1 := { g with delta := tSet 0x7F800000#32 g.delta (h.line * 12 + port) (BitVec.ofNat 32 (mergeDelta g.wq k h.ks ls h.s)) }
              let s1 := (s.putUnit p (mergeLanes g ls h.s (k + h.ks))).setGossip ctx g1
              (s1.setPort port { q with applied := q.applied ++ [h.seq] }).reply port true h.seq

def execHalfMerge (port : Nat) (half : HalfMsg) (s : State) : Out := event s (decide (port < 12) && (s.portAt port).up) (fun s => s.mergeHalf port half)

/-- The lines with a half outstanding that a reply or a resolution names. -/
def State.outOn (s : State) (ok : OutHalf → Bool) : List (Nat × Nat) :=
  s.ctxs.flatMap (fun p => match p.2.gossip with
    | some g => g.lines.filterMap (fun l => match l.2.out with
        | some o => if ok o then some (p.2.id, l.1) else none
        | none => none)
    | none => [])

/-- A retained half discarded. -/
def State.dropHalf (s : State) (ctx n : Nat) : State :=
  match (s.ctxAt ctx).gossip with
  | none => s
  | some g => s.setGossip ctx (g.setLine n { g.line n with out := none })

/-- A retained half restored: one rounding per value, and its weight. Where the line does not translate, breaks the quantum rule or would hold more than
2^24 − 1, the spec says nothing: the half stays as it is, so that Σk is conserved (R363; DESIGN CHOICE, log 70). -/
def State.restoreHalf (s : State) (ctx n : Nat) : State :=
  match (s.ctxAt ctx).gossip with
  | none => s
  | some g => match (g.line n).out, s.linePlace ctx g n with
    | some o, some p =>
      let ls := s.unitLanes p.key
      match lineK g ls with
      | some k => if kMax < k + o.ks then s else (s.putUnit p (mergeLanes g ls o.s (k + o.ks))).dropHalf ctx n
      | none => s
    | _, _ => s

def execHalfApplied (port : Nat) (seq : BitVec 32) (s : State) : Out :=
  event s (s.portAt port).up (fun s => (s.outOn (fun o => o.port = port && o.seq = seq && !o.doubt)).foldl (fun s q => s.dropHalf q.1 q.2) s)

def execHalfRefused (port : Nat) (seq : BitVec 32) (s : State) : Out :=
  event s (s.portAt port).up (fun s => (s.outOn (fun o => o.port = port && o.seq = seq && !o.doubt)).foldl (fun s q => s.restoreHalf q.1 q.2) s)

/-- A half sent again with its number. -/
def State.resend (s : State) (ctx : Nat) (g : Gossip) (n : Nat) (o : OutHalf) : State :=
  let s1 := s.setGossip ctx (g.setLine n { g.line n with out := some { o with sent := s.now } })
  { s1 with halves := s1.halves ++ [(o.port, ⟨g.regId, n, o.seq, o.s, o.ks⟩)] }

def execHalfRetransmit (ctx line : Nat) (s : State) : Out :=
  match (s.ctxAt ctx).gossip with
  | none => .next s
  | some g => match (g.line line).out with
    | none => .next s
    | some o => event s (!o.doubt && (s.portAt o.port).up && decide (g.tack * Config.clkPerUs ≤ s.now - o.sent)) (fun s => s.resend ctx g line o)

/-! ### Failing ports and resolution (R362) -/

/-- Every outstanding half of a port in doubt. -/
def Gossip.doubt (g : Gossip) (port : Nat) : Gossip :=
  { g with lines := g.lines.map (fun l => (l.1, { l.2 with out := l.2.out.map (fun o => if o.port = port then { o with doubt := true } else o) })) }

def State.portFail (s : State) (port : Nat) : State :=
  let s1 := s.setPort port { s.portAt port with up := false, failed := true }
  { s1 with ctxs := s1.ctxs.map (fun p => (p.1, { p.2 with gossip := p.2.gossip.map (·.doubt port) })) }

def execZynothPortFail (port : Nat) (s : State) : Out := event s (decide (port < 12) && (s.portAt port).up) (fun s => s.portFail port)

/-- The highest of a list of sequence numbers. -/
def maxSeq : List (BitVec 32) → Option (BitVec 32)
  | [] => none
  | q :: qs => match maxSeq qs with
    | none => some q
    | some r => if diff32 q r ≤ 0 then some r else some q

/-- The halves in doubt on a port resolved by the highest number the far end has applied: those applied are discarded, the rest restored. -/
def State.resolve (s : State) (port : Nat) (applied : BitVec 32) : State :=
  let done := s.outOn (fun o => o.port = port && o.doubt && decide (diff32 o.seq applied ≤ 0))
  let rest := s.outOn (fun o => o.port = port && o.doubt && !decide (diff32 o.seq applied ≤ 0))
  rest.foldl (fun s q => s.restoreHalf q.1 q.2) (done.foldl (fun s q => s.dropHalf q.1 q.2) s)

/-- A port retrained: up, and refusing the older numbers that it has not applied. -/
def State.portRetrain (s : State) (port : Nat) (applied : BitVec 32) : State :=
  let q := s.portAt port
  (s.setPort port { q with up := true, failed := false, floor := maxSeq q.applied }).resolve port applied

def execZynothPortRetrain (port : Nat) (applied : BitVec 32) (s : State) : Out :=
  event s (decide (port < 12) && (s.portAt port).failed) (fun s => s.portRetrain port applied)

/-! ### X-stream forms (R365, R366) -/

def execGdep (d a b : BitVec 6) (g : BitVec 3) (s : State) : Out :=
  issue s (classX 2 true d a b g s) fun s => s.classForm .dep subGARG 256 false d.toNat a.toNat b.toNat

def execGread (d a b : BitVec 6) (g : BitVec 3) (s : State) : Out :=
  issue s (classX 2 false d a b g s) fun s => s.classForm .gRead subGARG 256 true d.toNat a.toNat b.toNat

/-- A line's lanes after a deposit at an address of a context; none where the check of dw fails (R366). -/
def State.depositLanes (s : State) (ctx va : Nat) (ls dep : List Lane) : Option (List Lane) :=
  match (s.ctxAt ctx).gossip with
  | none => none
  | some g => match g.lineAt va, lineK g ls, kOf g.wq (laneAt dep 63) with
    | some _, some k, some dk =>
      if kMax < k + dk || (dk = 0 && laneAt dep 63 ≠ 0) then none else some (mergeLanes g ls dep (k + dk))
    | _, _, _ => none

/-- One unit of `gdep`. -/
def State.depUnit (s : State) (die core : Nat) (k : Copy) : Res State :=
  let dep := toLanes (s.spBytes die core (k.src.toNat + 256 * k.done) 256)
  s.sendUnit die core false k dep (fun ctx p => match s.depositLanes ctx p.va (s.unitLanes p.key) dep with
    | none => stopTrap clsUse subGDEP (BitVec.ofNat 64 p.va)
    | some ls => pure (s.putUnit p ls))

/-- The estimates of a line (R366). -/
def estimates (ls : List Lane) : List Lane :=
  let w := decodeF 0 (laneAt ls 63)
  (upto 0 63).map (fun e => BitVec.ofNat 32 (if fEq w (.fin false 0 0) then 0x7FC00000 else (rne 0 (fDiv (decodeF 0 (laneAt ls e)) w).1).1)) ++ [ls.getD 63 0]

/-- One unit of `gread`. -/
def State.greadUnit (s : State) (die core : Nat) (k : Copy) : Res State := do
  let va := (k.dst + BitVec.ofNat 64 (256 * k.done)).toNat
  let p ← liftTrap (s.unitPlace false (s.ctxOf die core) 2 va 256 false)
  pure (s.spWrite die core (k.src.toNat + 256 * k.done) (laneBytes (estimates (s.unitLanes p.key))))

/-- DEPOSIT of a posted unit: one that fails its check is dropped at home (R306). -/
def State.depPosted (s : State) (n : Nat) (m : UnitMsg) : State :=
  let s1 := { s with units := dropNth s.units n }
  if m.home.isNone then s1.foreignAnswer m
  else match s1.unitHome false m.exp m.va with
    | none => s1.dropUnit m
    | some (ctx, p) => match s1.depositLanes ctx m.va (s1.unitLanes p.key) m.data with
      | none => s1.dropUnit m
      | some ls => (s1.putUnit p ls).ackUnit m false

/-- A deposit of another package, which its home performs or drops (R306, R365). -/
def State.foreignDep (s : State) (exp va : Nat) (dep : List Lane) : State :=
  match s.unitHome false exp va with
  | none => s
  | some (ctx, p) => match s.depositLanes ctx va (s.unitLanes p.key) dep with
    | none => s
    | some ls => s.putUnit p ls

def execDeposit (src : UnitSrc) (s : State) : Out :=
  match src with
  | .queued n => match s.units[n]? with
    | none => .next s
    | some m => event s (!m.grad && s.unitDue n m) (fun s => s.depPosted n m)
  | .foreign exp va data => event s (s.foreignUnitDue false exp.toNat va.toNat) (fun s => s.foreignDep exp.toNat va.toNat data)

/-! ### Beat groups of the copy queue (R224) -/

/-- One unit of a class form. -/
def State.classUnit (s : State) (die core : Nat) (k : Copy) : Res State :=
  match k.kind with
  | .grad => s.gradUnit die core k
  | .dep => s.depUnit die core k
  | .prRead => s.readUnit die core k
  | _ => s.greadUnit die core k

/-- COPY_BEAT_GROUP for a class form: a unit, its fault or its wait. -/
def State.runUnit (s : State) (die core : Nat) (k : Copy) : State :=
  match s.classUnit die core k with
  | .ok t => t.unitDone die core k
  | .error (.wait t) => t.groupWaits die core (k.dst + BitVec.ofNat 64 (256 * k.done)).toNat
  | .error (.jump t) => t
  | .error (.trap t) => s.copyFault die core k t

/-- COPY_BEAT_GROUP for a put, which is sent whole. -/
def State.runPut (s : State) (die core : Nat) (k : Copy) : State :=
  match s.sendPut die core k with
  | .ok t => t.copySkid die core
  | .error (.trap t) => s.copyFault die core k t
  | .error _ => s

/-- The next beat group of a copy queue's head. -/
def State.copyStep (s : State) (die core : Nat) (k : Copy) : State :=
  match k.kind with
  | .put => s.runPut die core k
  | .grad => s.runUnit die core k
  | .dep => s.runUnit die core k
  | .prRead => s.runUnit die core k
  | .gRead => s.runUnit die core k
  | _ => s.runBeat die core k

def execCopyBeatGroup (die core : Nat) (s : State) : Out :=
  match (s.coreAt die core).copyq.head? with
  | none => .next s
  | some k => event s (s.copyDue die core k) (fun s => s.copyStep die core k)

/-! ### C-stream forms (R367) -/

/-- The region, line and place behind an address: the context's own, or the exporter's behind a window. -/
def State.gossipAt (s : State) (va : Nat) : Res (Option (Gossip × Nat) × Phys) := do
  let p ← liftTrap (s.unitPlace false s.myCtx 2 va 256 false)
  let c := s.ctxAt (s.ctxOfPlace s.myCtx p)
  let at_ := if p.slot.isSome then p.va else va
  pure (c.gossip.bind (fun g => (g.lineAt at_).map (fun n => (g, n))), p)

/-- Whether DELTA of a line is at most the bound on every port of PORTS. -/
def Gossip.within (g : Gossip) (bound line : Nat) : Bool :=
  (upto 0 12).all (fun p => !g.ports.getLsbD p ||
    (let d := decodeF 0 (g.deltaAt line p).toNat
     d ≠ .nan && !fLt (decodeF 0 bound) d))

/-- Whether a bound is a non-negative f32 and no NaN. -/
def boundOk (b : Nat) : Bool :=
  match decodeF 0 b with
  | .nan => false
  | .inf n => !n
  | .fin n m _ => !n || m = 0

/-- The region and line at an address of a context: its own, or the exporter's behind a window; none where no region has the line. -/
def State.ownedLine (s : State) (ctx va : Nat) : Option (Gossip × Nat) :=
  let at_ := fun (c : Ctx) (va : Nat) => c.gossip.bind (fun g => (g.lineAt va).map (fun n => (g, n)))
  match windowOf (s.ctxAt ctx) va with
  | none => at_ (s.ctxAt ctx) va
  | some (_, w) => match s.exportOf w.exp with
    | some e => if w.revoked || e.revoked then none else at_ (s.ctxAt e.ctx) (e.base + (va - w.wbase))
    | none => none

/-- Whether DELTA is within the bound on every line of [va, va + 256n): a line of no region counts as never written. -/
def State.spread (s : State) (ctx va n bound : Nat) : Bool :=
  (upto 0 n).all (fun j => match s.ownedLine ctx (va + 256 * j) with
    | some (g, l) => g.within bound l
    | none => decodeF 0 bound = .inf false)

def gspreadBody (i : Instr) (p a b : Nat) (s : State) : Res State := do
  let w := (s.rx b 1).toNat
  let va := (s.rx a).toNat
  let n := bits w 32 16
  let bound := bits w 0 32
  need (w / 2 ^ 48 = 0 && n ≠ 0 && boundOk bound && aligned va 256) clsUse subGARG
  s.unitAsk i va false
  pure (s.landP p (s.spread s.myCtx va n bound) 1)

def execGspread (p : BitVec 3) (a b : BitVec 6) (g : BitVec 3) (s : State) : Out := issue s (classC 2 g) (gspreadBody (.gspread p a b g) p.toNat a.toNat b.toNat)

def gmassBody (i : Instr) (d a : Nat) (s : State) : Res State := do
  let va := (s.rx a).toNat
  need (aligned va 256) clsMem 3 (BitVec.ofNat 64 va)
  s.unitAsk i va false
  let r ← s.gossipAt va
  match r.1 with
  | none => stopTrap clsUse subGARG (BitVec.ofNat 64 va)
  | some (g, n) =>
    let k := (lineK g (s.unitLanes r.2.key)).getD (s.freeNat 0)
    let out := match (g.line n).out with
      | some o => o.ks
      | none => 0
    pure ((s.landX d (BitVec.ofNat 64 k) 1).landX (d + 1) (BitVec.ofNat 64 out) 1)

def execGmass (d a : BitVec 6) (g : BitVec 3) (s : State) : Out :=
  issue s { classC 2 g with subs := subUnless (d.toNat % 2 = 0 && d.toNat ≠ 0) subREGRANGE } (gmassBody (.gmass d a g) d.toNat a.toNat)

/-- The rules of a configuration block (R367), but for the ports. -/
def gcfgOk (w : Nat → Nat) : Bool :=
  w 0 % 256 = 0 && bits (w 1) 32 32 / 2 ^ 24 = 0 && bits (w 1) 0 15 = 0 && decide (bits (w 1) 15 5 ≤ 24) && decide (100 ≤ bits (w 2) 32 32) && bits (w 2) 0 32 ≠ 0
    && bits (w 3) 32 32 = 0 && bits (w 3) 0 32 ≠ 0 && w 4 = 0 && w 5 = 0 && w 6 = 0 && w 7 = 0

/-- The region a block describes. -/
def gossipOf (w : Nat → Nat) : Gossip :=
  { region := BitVec.ofNat 64 (w 0), nlines := bits (w 1) 32 32, ports := BitVec.ofNat 12 (bits (w 1) 20 12), wq := bits (w 1) 15 5,
    period := bits (w 2) 32 32, tack := bits (w 2) 0 32, regId := BitVec.ofNat 32 (bits (w 3) 0 32) }

/-- Whether a region has a half outstanding or in doubt. -/
def Gossip.busy (g : Gossip) : Bool := g.lines.any (fun l => l.2.out.isSome)

def gcfgBody (i : Instr) (d a : Nat) (s : State) : Res State := do
  let blk := (s.rx a).toNat
  need (aligned blk 64) clsMem 3 (BitVec.ofNat 64 blk)
  s.unitAsk i blk
  let ws ← s.unitWords i blk blk 8
  let w := fun k => ws.getD k 0
  let g := gossipOf w
  need (gcfgOk w && (upto 0 12).all (fun p => !g.ports.getLsbD p || (s.portAt p).up)) clsUse subGCFG
  let busy := match (s.ctxAt s.myCtx).gossip with
    | some o => o.busy
    | none => false
  if busy then pure (s.landX d 1 1)
  else do
    liftTrap (s.pagesCheck s.myCtx 2 (pagesOf g.region.toNat (256 * g.nlines)))
    pure ((s.setCtx { s.ctxAt s.myCtx with gossip := if g.nlines = 0 then none else some g }).landX d 0 1)

def execGcfg (d a : BitVec 6) (g : BitVec 3) (s : State) : Out := issue s (classC 2 g) (gcfgBody (.gcfg d a g) d.toNat a.toNat)

end Sys2Proof.Machine
end

