-- ==== Sys2Proof/Machine/Landing.lean ====
section
/-! DEFINITION. Landings on their way (R36, R94, R119, R188, R190): what takes effect at the start of the clk in which it lands, before anything
else of that clk. -/

namespace Sys2Proof.Machine

/-- A landing's effect on its core (R70, R74, R119, R188). -/
def Core.doLate (c : Core) (l : Late) : Core :=
  match l.op with
  | .csr n v => c.csrSet n v
  | .table clear ws => c.loadTable clear ws
  | .commit => c.commit l.at_

/-- The counter reads of a stream that land by a clk. -/
def Engine.landCnts (e : Engine) (cnt : Tab (BitVec 16)) (now : Nat) : Engine :=
  { e with x := (e.cntReads.filter (fun r => decide (r.at_ ≤ now))).foldl (fun x r => tSet 0 x r.d (BitVec.ofNat 64 (tGet 0 cnt r.n).toNat)) e.x,
           cntReads := e.cntReads.filter (fun r => !decide (r.at_ ≤ now)) }

/-- Everything of a core that lands by a clk. -/
def Core.landBy (c : Core) (now : Nat) : Core :=
  let c1 := (c.late.filter (fun l => decide (l.at_ ≤ now))).foldl Core.doLate { c with late := c.late.filter (fun l => !decide (l.at_ ≤ now)) }
  { c1 with c := c1.c.landCnts c1.cnt now, h := c1.h.landCnts c1.cnt now }

/-- Whether a core has a landing on its way. -/
def Core.landing (c : Core) : Bool := !c.late.isEmpty || !c.c.cntReads.isEmpty || !c.h.cntReads.isEmpty

/-- Every landing that has fallen due. -/
def State.landDue (s : State) : State :=
  s.cores.foldl (fun s p => if p.2.landing then { s with cores := tSet {} s.cores p.1 (p.2.landBy s.now) } else s) s

/-- The last clk of a core's landings. -/
def Core.lastLanding (c : Core) : Nat := max (c.late.foldl (fun m l => max m l.at_) 0) ((c.c.cntReads ++ c.h.cntReads).foldl (fun m r => max m r.at_) 0)

/-- Everything a core still has to land, landed: what its streams issued has landed when a halt completes (R95, Table 6.2). -/
def State.landNow (s : State) (die core : Nat) : State :=
  let c := s.coreAt die core
  if c.landing then s.setCoreAt die core (c.landBy (max s.now c.lastLanding)) else s

end Sys2Proof.Machine
end

