-- ==== Sys2Proof/Machine/Sched.lean ====
section
/-! DEFINITION. The scheduler (R244 to R256, R264, R265): queues, graphs, admission and dependences, placement, gangs, pre-emption,
retirement, and `tlaunch`, `tdone`, `tsignal`. -/

namespace Sys2Proof.Machine

/-! ### Records (Table 13.1) -/

/-- Word k of a record. -/
def Rec.w (r : Rec) (k : Nat) : Nat := (tGet 0 r.words k).toNat
def Rec.nsucc (r : Rec) : Nat := bits (r.w 0) 40 8
def Rec.prio (r : Rec) : Nat := bits (r.w 0) 37 3
def Rec.cpol (r : Rec) : Nat := bits (r.w 0) 35 2
def Rec.restart (r : Rec) : Bool := bit (r.w 0) 34
def Rec.pinned (r : Rec) : Bool := bit (r.w 0) 33
def Rec.core (r : Rec) : Nat := bits (r.w 0) 25 8
def Rec.phase (r : Rec) : Nat := bits (r.w 0) 9 16

/-- Image lengths in halfwords: C, V, M, X. -/
def Rec.lens (r : Rec) : Nat × Nat × Nat × Nat := (bits (r.w 3) 48 16, bits (r.w 3) 32 16, bits (r.w 3) 16 16, bits (r.w 3) 0 16)

/-- The ring size of an image (R244). -/
def ringSizeOf (len : Nat) : Nat := (2 * len + 255) / 256 * 256

/-- The bytes of the four rings. -/
def Rec.ringBytes (r : Rec) : Nat := ringSizeOf r.lens.1 + ringSizeOf r.lens.2.1 + ringSizeOf r.lens.2.2.1 + ringSizeOf r.lens.2.2.2

/-- Footprint range j. -/
def Rec.range (r : Rec) (j : Nat) : Range :=
  let len := bits (r.w (10 + j / 3)) (21 * (j % 3)) 21
  { mark := bits (r.w (4 + j)) 62 2, lo := bits (r.w (4 + j)) 0 57, len := len % 2 ^ 20 * (if bit len 20 then 65536 else 64) }

/-- The ranges with a mark. -/
def Rec.ranges (r : Rec) : List Range := ((upto 0 6).map r.range).filter (fun x => x.mark ≠ 0)

/-- Whether a reserved bit of words 0 to 14 is set. -/
def Rec.reserved (r : Rec) : Bool :=
  r.w 0 % 2 ^ 9 ≠ 0 || (upto 4 6).any (fun k => bits (r.w k) 57 5 ≠ 0) || bit (r.w 10) 63 || bit (r.w 11) 63 || bits (r.w 13) 17 15 ≠ 0

/-- The checks of R245 on one record, apart from its successors. -/
def State.recOk (s : State) (die part : Nat) (r : Rec) : Bool :=
  !r.reserved && r.w 2 % 2 = 0 && r.w 1 % 8 = 0 && r.w 12 % 64 = 0 && decide (r.core ≤ 159) && decide (bits (r.w 13) 0 8 ≤ 128) && decide (bits (r.w 13) 8 9 ≤ 256)
    && decide (r.ringBytes + 4096 * bits (r.w 13) 0 8 ≤ Config.spSize) && (!r.pinned || (s.coresOf die part).contains r.core)

/-- A loop nest from its words (Table 13.4). -/
def nestOf (w : Nat → Nat) : Nest :=
  { e0 := bits (w 0) 0 16, e1 := bits (w 0) 16 16, e2 := bits (w 0) 32 16, e3 := bits (w 0) 48 16, order := bits (w 1) 0 2, gang := bit (w 1) 2, gbar := bits (w 1) 16 12 }

/-- Whether a loop nest's reserved fields are zero. -/
def nestFieldsOk (w : Nat → Nat) : Bool := bits (w 1) 28 36 = 0 && bits (w 1) 3 13 = 0 && (upto 2 6).all (fun k => w k = 0)

/-- The tiles of a nest; a record without one is a single tile. -/
def Nest.tiles (n : Nest) : Nat := n.e0 * n.e1 * n.e2 * n.e3

/-- The record read at an address of a context, with its checks, successors and nest; none where the graph is to abort with RECORD. -/
def State.loadRec (s : State) (g : Graph) (part i : Nat) : Option Rec := do
  let a := g.tasks.toNat + 128 * i
  let ws ← s.vwords g.ctx a 16
  let r : Rec := { addr := BitVec.ofNat 64 a, words := tabOf 0 (fun k => BitVec.ofNat 64 (ws.getD k 0)) (upto 0 15) }
  if !s.recOk g.die part r then none
  else
    let ss ← s.vwords g.ctx (r.w 1) r.nsucc
    if ss.any (fun x => decide (x < g.tasks.toNat) || (x - g.tasks.toNat) % 128 ≠ 0 || decide (g.ntask ≤ (x - g.tasks.toNat) / 128)) then none
    else
      let r := { r with succs := ss.map (fun x => (x - g.tasks.toNat) / 128), dep := (bits (r.w 0) 48 16 : Nat) }
      if r.w 12 = 0 then some r
      else
        let ns ← s.vwords g.ctx (r.w 12) 8
        let n := nestOf (fun k => ns.getD k 0)
        if nestFieldsOk (fun k => ns.getD k 0) then some { r with nest := some n, tiles := n.tiles } else none

/-- Every record of a graph, in array order. -/
def State.loadRecs (s : State) (g : Graph) (part : Nat) : List Nat → Option (List Rec)
  | [] => some []
  | i :: is => do
    let r ← s.loadRec g part i
    let rs ← s.loadRecs g part is
    some (r :: rs)

/-! ### The loop-nest walker (R254) -/

/-- The coordinate at a place r of an extent, descending where `back`. -/
def coord (ext r : Nat) (back : Bool) : Nat := if back then ext - 1 - r else r

/-- How many i below an extent lie in [base, base + 2^n). -/
def inBlock (ext base n : Nat) : Nat := min (2 ^ n) (ext - base)

/-- The Morton walk: bit `b` of Z downward, with the prefix found so far of each dimension. -/
def mortonAt (n : Nest) : Nat → Nat → Nat × Nat × Nat × Nat → Nat × Nat × Nat × Nat
  | 0, _, t => t
  | b + 1, r, t =>
    let d := b % 4
    let q := b / 4
    let free := fun (k : Nat) => if k < d then q + 1 else q
    let low := inBlock n.e0 t.1 (free 0) * inBlock n.e1 t.2.1 (free 1) * inBlock n.e2 t.2.2.1 (free 2) * inBlock n.e3 t.2.2.2 (free 3)
    if r < low then mortonAt n b r t
    else
      let x := 2 ^ q
      let t1 := match d with
        | 0 => (t.1 + x, t.2)
        | 1 => (t.1, t.2.1 + x, t.2.2)
        | 2 => (t.1, t.2.1, t.2.2.1 + x, t.2.2.2)
        | _ => (t.1, t.2.1, t.2.2.1, t.2.2.2 + x)
      mortonAt n b (r - low) t1

/-- The indices of the tile of linear index L. -/
def Nest.tileAt (n : Nest) (l : Nat) : Nat × Nat × Nat × Nat :=
  match n.order with
  | 1 => (l % n.e0, l / n.e0 % n.e1, l / (n.e0 * n.e1) % n.e2, l / (n.e0 * n.e1 * n.e2))
  | 3 => mortonAt n 64 l (0, 0, 0, 0)
  | o =>
    let i0 := l / (n.e1 * n.e2 * n.e3)
    let serp := o = 2
    let i1 := coord n.e1 (l / (n.e2 * n.e3) % n.e1) (serp && i0 % 2 = 1)
    let i2 := coord n.e2 (l / n.e3 % n.e2) (serp && (i0 + i1) % 2 = 1)
    let i3 := coord n.e3 (l % n.e3) (serp && (i0 + i1 + i2) % 2 = 1)
    (i0, i1, i2, i3)

/-- A record's tile indices. -/
def Rec.tileAt (r : Rec) (l : Nat) : Nat × Nat × Nat × Nat :=
  match r.nest with
  | none => (0, 0, 0, 0)
  | some n => n.tileAt l

/-- Whether a record is a gang. -/
def Rec.gang (r : Rec) : Bool :=
  match r.nest with
  | none => false
  | some n => n.gang

/-! ### Queues (R248, R249, R370) -/

/-- The live context a queue is bound to. -/
def State.queueCtx (s : State) (die q : Nat) : Option Ctx := (s.ctxs.find? (fun p => p.2.live && p.2.die = die && p.2.qmask.getLsbD q)).map (·.2)

/-- Entries of a queue's ring. -/
def Queue.entries (x : Queue) : Nat := 2 ^ (x.size + 4)

/-- Completed entries counted in order. -/
def Queue.count (x : Queue) : Nat → Queue
  | 0 => x
  | n + 1 => if x.doneSet.contains x.prog then ({ x with prog := (x.prog + 1) % 2 ^ 32, doneSet := x.doneSet.filter (· ≠ x.prog) } : Queue).count n else x

/-- An entry's graph complete, or the entry skipped. -/
def State.entryDone (s : State) (die q idx : Nat) : State :=
  let x := s.queueAt die q
  s.setQueue die q (({ x with doneSet := x.doneSet ++ [idx] } : Queue).count (x.doneSet.length + 1))

/-- QPROG as the host reads it. -/
def State.qprog (s : State) (die q : Nat) : Nat :=
  let x := s.queueAt die q
  match s.queueCtx die q with
  | none => 0
  | some c => if c.out then (x.frozen.getD 0) % 2 ^ 63 + 2 ^ 63 else b2n x.badent * 2 ^ 62 + x.prog

def execQtailWrite (die q : Nat) (v : BitVec 64) (s : State) : Out :=
  match s.queueCtx die q with
  | none => .next s
  | some c => event s (decide (die < 4) && decide (q < 64)) (fun s =>
      let x := s.queueAt die q
      let t := BitVec.ofNat 32 v.toNat
      s.setQueue die q (if c.out then { x with shadow := some t } else { x with tail := t }))

/-- Whether every visible entry of a queue has completed. -/
def Queue.idle (x : Queue) : Bool := x.prog = x.tail.toNat

def execQbaseWrite (die q : Nat) (v : BitVec 64) (s : State) : Out :=
  event s (decide (die < 4) && decide (q < 64) && (s.queueAt die q).idle) (fun s =>
    s.setQueue die q { s.queueAt die q with base := BitVec.ofNat 64 (v.toNat / 4096 * 4096), badent := false })

def execQsizeWrite (die q : Nat) (v : BitVec 64) (s : State) : Out :=
  event s (decide (die < 4) && decide (q < 64) && (s.queueAt die q).idle) (fun s =>
    s.setQueue die q { s.queueAt die q with size := min (v.toNat % 16) 12, badent := false })

/-- The next entry of a queue: the descriptor's address and its word 1, none where the entry is to be skipped. -/
def State.nextEntry (s : State) (c : Ctx) (x : Queue) : Option (Nat × Nat) := do
  let a ← s.vread c.id [0] (x.base.toNat + 16 * (x.taken % x.entries)) 8
  if a % 64 ≠ 0 then none
  else
    let w ← s.vread c.id [0] (a + 8) 8
    let _ ← s.vread c.id [0] a 8
    some (a, w)

/-- A queue with visible entries whose context is not switched out. -/
def State.queueLive (s : State) (die q : Nat) : Option (Ctx × Queue) :=
  let x := s.queueAt die q
  match s.queueCtx die q with
  | none => none
  | some c => if c.out || x.taken = x.tail.toNat then none else some (c, x)

/-- The queues of a die after the one it took last, in turn. -/
def State.queueOrder (s : State) (die : Nat) : List Nat := (upto 0 64).map (fun k => ((s.dieAt die).lastQ + 1 + k) % 64)

/-- The first queue whose next entry is to be skipped. -/
def State.badQueue (s : State) (die : Nat) : Option Nat :=
  (s.queueOrder die).find? (fun q => match s.queueLive die q with
    | some (c, x) => (s.nextEntry c x).isNone
    | none => false)

/-- The queue to take from: the highest GPRIO, the first of equals. -/
def State.bestQueue (s : State) (die : Nat) : Option (Nat × Nat × Nat) :=
  (s.queueOrder die).foldl (fun best q => match s.queueLive die q with
    | none => best
    | some (c, x) => match s.nextEntry c x, best with
      | none, _ => best
      | some e, none => some (q, e)
      | some e, some b => if bits b.2.2 45 3 < bits e.2 45 3 then some (q, e) else best) none

/-- Entry `taken` of a queue taken. -/
def State.pass (s : State) (die q : Nat) : State :=
  let x := s.queueAt die q
  s.setQueue die q { x with taken := (x.taken + 1) % 2 ^ 32, counts := x.counts.filter (fun c => c.1 ≠ x.taken) }

/-- An entry skipped (R248). -/
def State.skipEntry (s : State) (die q : Nat) : State :=
  let i := (s.queueAt die q).taken
  let s1 := s.pass die q
  (s1.setQueue die q { s1.queueAt die q with badent := true }).entryDone die q i

/-- The checks of R246. -/
def descriptorOk (w : Nat → Nat) : Bool :=
  w 0 % 128 = 0 && bits (w 1) 48 16 ≠ 0 && bits (w 1) 0 36 = 0 && w 4 = 0 && w 5 = 0 && w 6 = 0 && w 7 = 0

/-- The graph that a descriptor describes. -/
def graphOf (id ctx die q entry a : Nat) (count : Option Nat) (w : Nat → Nat) : Graph :=
  { id := id, ctx := ctx, die := die, queue := q, entry := entry, desc := BitVec.ofNat 64 a, tasks := BitVec.ofNat 64 (w 0), ntask := bits (w 1) 48 16, prio := bits (w 1) 45 3,
    pol := bits (w 1) 43 2, det := bit (w 1) 42, compl := BitVec.ofNat 64 (w 2), count := count }

/-! ### Results and completion (R247) -/

def State.graphAt (s : State) (id : Nat) : Option Graph := s.graphs.find? (fun g => g.id = id)
def State.setGraph (s : State) (g : Graph) : State := { s with graphs := s.graphs.map (fun x => if x.id = g.id then g else x) }
def Graph.setRec (g : Graph) (i : Nat) (r : Rec) : Graph := { g with recs := setNth g.recs i r }

/-- Records with a result. -/
def Graph.countOf (g : Graph) (res : Nat) : Nat := min (g.recs.filter (fun r => r.result = res)).length 0xFFFF

/-- Word 3 of the descriptor at completion. -/
def Graph.word3 (g : Graph) (state cause : Nat) : Nat :=
  state * 2 ^ 56 + cause * 2 ^ 48 + g.countOf 2 * 2 ^ 32 + g.countOf 3 * 2 ^ 16 + g.countOf 1

/-- The graph complete: its words written, its entry counted. -/
def State.complete_ (s : State) (g : Graph) (state cause : Nat) : State :=
  let bs := natToBytes 8 (g.word3 state cause)
  let s1 := s.vwrite g.ctx [0] (g.desc.toNat + 24) bs
  let s2 := if g.compl = 0 then s1 else s1.vwrite g.ctx [0] g.compl.toNat bs
  ({ s2 with graphs := s2.graphs.filter (fun x => x.id ≠ g.id) } : State).entryDone g.die g.queue g.entry

/-- Word 15 of a record written. -/
def State.writeResult (s : State) (g : Graph) (r : Rec) (res : Nat) : State :=
  s.vwrite g.ctx [0] (r.addr.toNat + 120) (natToBytes 8 (r.user.toNat * 2 ^ 48 + res))

/-- A record's owner tags, gone with its instance (R289). -/
def State.dropTags (s : State) (inst : Nat) : State := if inst = 0 then s else { s with tags := s.tags.filter (fun p => p.2.inst ≠ inst) }

/-! ### Stopping a task (R133) -/

/-- The stores of a core that have landed or been posted performed at once. -/
def State.performStores (s : State) (die core : Nat) : State :=
  let c := s.coreAt die core
  let s1 := c.storeq.foldl (fun s q => s.devWrite { key := q.key, home := q.home, keyNo := q.keyNo, mtype := q.mtype, mclass := 0 } q.data) (s.setCoreAt die core { c with storeq := [] })
  let mine := s1.posts.filter (fun p => p.die = die && p.core = core)
  mine.foldl (fun s m => match s.postPlace m with
    | none => (s.revokeImport (s.ctxOf die core) m.slot).ackItem m.home die core m.pid true
    | some p => (s.devWrite p m.data).ackItem m.home die core m.pid false) { s1 with posts := s1.posts.filter (fun p => !(p.die = die && p.core = core)) }

/-- A list of messages handled one after another, each found where it now stands. -/
def eachMsg {α : Type} [DecidableEq α] (of : State → List α) (f : Nat → α → State → State) (s : State) (ms : List α) : State :=
  ms.foldl (fun s m => match (of s).findIdx? (fun x => x = m) with
    | some n => f n m s
    | none => s) s

/-- What a core has posted performed at once: its stores, then its flag adds, puts and class units. -/
def State.performAll (s : State) (die core : Nat) : State :=
  let s1 := s.performStores die core
  let s2 := eachMsg (·.flagMsgs) (fun n m s => s.flagAddArrive n m) s1 (s1.flagMsgs.filter (fun m => m.die = die && m.core = core))
  let s3 := eachMsg (·.puts) (fun n m s => s.putArrive n m) s2 (s2.puts.filter (fun m => m.die = die && m.core = core))
  eachMsg (·.units) (fun n m s => if m.grad then s.prPosted n m else s.depPosted n m) s3 (s3.units.filter (fun m => m.die = die && m.core = core))

/-- Every dirty stash sector of a core written back, and every sector invalid; the mappings stay (R135, R241). -/
def State.dropStash (s : State) (die core : Nat) : State :=
  let c := s.coreAt die core
  let s1 := (c.sectors.filter (fun q => q.2.st = .dirty)).foldl (fun s q =>
    s.devWrite { key := q.2.key, home := s.homeOf q.2.key, keyNo := q.2.keyNo, mtype := 0, mclass := 0 } (mRead c.scratch (q.1 * 32) 32)) s
  let c1 := s1.coreAt die core
  (s1.setCoreAt die core { c1 with sectors := [], fills := [] }).filterPrune

/-- The links of abandoned operations, which record where each stopped (R199): the first is in progress, or one that has added a group. -/
def State.abandonInto (s : State) (os : List (MOp × Nat)) : State :=
  os.foldl (fun s o =>
    let l := s.linkAt o.1.link
    s.setLink o.1.link (if o.2 = 0 || o.1.prog ≠ {} then { l with issued := l.recv, partialAdd := true, prog := o.1.prog } else { l with issued := l.recv })) s

/-- A core's operations, numbered. -/
def Core.opsInOrder (c : Core) : List (MOp × Nat) := c.ops.zip (upto 0 c.ops.length)

/-- Operations of a core abandoned without resume (R199). -/
def State.abandonOps (s : State) (die core : Nat) : State :=
  let c := s.coreAt die core
  (s.setCoreAt die core { c with ops := [], mWaiting := false }).abandonInto c.opsInOrder

/-- The halt's completion: what the streams have issued lands (R95), every record is written, and the operations of a core with an uncorrectable
error are abandoned (R199). -/
def State.haltNow (s : State) (die part : Nat) : State :=
  match (s.partAt die part).halt with
  | none => s
  | some h =>
    if h.complete then s
    else
      let s1 := ((s.coresOf die part).foldl (fun s k => s.landNow die k) s).haltPart die part
      ((s.coresOf die part).filter (fun k => (s1.coreAt die k).errored)).foldl (fun s k => s.abandonOps die k) s1

/-- Whether a scoreboard entry is another core's copy's. -/
def SbEntry.fromRemote (e : SbEntry) : Bool :=
  match e.owner with
  | .remote .. => true
  | _ => false

/-- A stream at its end. -/
def Engine.end_ (e : Engine) : Engine := { e with phase := .ended, pfx := [], raiseDue := none, req := none, saved := none, savedTrap := none, trap := none }

/-- A core without a task: its streams ended, its own asynchronous work gone. Entries of other cores' copies and of closes stay. -/
def Core.vacant (c : Core) : Core :=
  { c with c := c.c.end_, v := c.v.end_, m := c.m.end_, x := c.x.end_, pend := none, copyq := [], helper := {}, defer := [], task := none, codeTop := 0,
           stash := [], sectors := [], fills := [],
           sb := c.sb.filter (fun e => match e.owner with
             | .remote .. => true
             | .close _ => true
             | _ => false) }

/-- The remote entries of a core's copies freed. -/
def State.leaveRemote (s : State) (die core : Nat) (ks : List Copy) : State := ks.foldl (fun s k => s.onRemote k (fun t => t.leave (k.owner die core))) s

/-- The clk from which a core has run no task (R383). -/
def State.noteIdle (s : State) (die core : Nat) : State := s.setDieAt die { s.dieAt die with idleFrom := tSet 0 (s.dieAt die).idleFrom core s.now }

/-- The stop records of a core whose task a kill stops, as at a halt of class 0x0B (R133): an engine that has trapped keeps its record. -/
def Core.killed (c : Core) (now sub : Nat) : Core :=
  let kill : TrapRec := { cls := 0x0B, sub := sub, clk := now, imprecise := true }
  [Eng.c, .v, .m, .x].foldl (fun c e =>
    let g := c.eng e
    if g.trap.isSome then c
    else
      let r := stopRec { clk := now } c e { g.stopped (g.past 2) with trap := some kill }
      c.setEng e { g with stop := r, stop0 := r }) c

/-- TCAUSE of a core stopped so while its partition runs: class 0x0B, engine C. -/
def State.killCause (s : State) (die core sub : Nat) (c : Core) : Core :=
  if (s.partOfCore die core).halt.isSome then c
  else { c with tcause := s.tcauseOf (⟨die, core, .c⟩, { cls := 0x0B, sub := sub }), taddr := 0 }

/-- A task stops for good: its asynchronous work ends, what it has stored stands (R133, R199, R206). `sub` is the subcode of class 0x0B where a kill
stops it: 1 TASK, 2 GRAPH, 3 CONTEXT. -/
def State.stopTask (s : State) (die core : Nat) (sub : Option Nat) : State :=
  match (s.coreAt die core).task with
  | none => s
  | some t =>
    let s0 := s.landNow die core
    let s1 := match sub with
      | some n => s0.setCoreAt die core (s0.killCause die core n ((s0.coreAt die core).killed s0.now n))
      | none => s0
    let s2 := s1.freezeTask (t.graph, t.record, t.tile)
    let s3 := (((s2.abandonOps die core).performAll die core).dropStash die core).leaveRemote die core (s2.coreAt die core).copyq
    (s3.setCoreAt die core (s3.coreAt die core).vacant).noteIdle die core

/-- A checkpointed task killed: its contributions freeze chains, its operation in progress is abandoned, what its core has stored is performed. -/
def State.stopSaved (s : State) (k : Ckpt) : State :=
  match k.image.task with
  | none => s
  | some t => (((s.freezeTask (t.graph, t.record, t.tile)).abandonInto k.image.opsInOrder).performAll k.die k.core).leaveRemote k.die k.core k.image.copyq

/-- The checkpointed tasks that satisfy a condition killed. -/
def State.stopSavedAll (s : State) (ok : RunTask → Bool) : State :=
  let on := fun (k : Ckpt) => match k.image.task with
    | some t => ok t
    | none => false
  let s1 := (s.ckpts.filter on).foldl State.stopSaved s
  { s1 with ckpts := s1.ckpts.filter (fun k => !on k) }

/-- The cores of a die on which tasks that satisfy a condition run. -/
def State.runners (s : State) (die : Nat) (ok : RunTask → Bool) : List Nat :=
  s.cores.filterMap (fun p => match p.2.task with
    | some t => if p.1 / 160 = die && ok t then some (p.1 % 160) else none
    | none => none)

/-- A graph aborted (R247): its tasks stopped, with subcode GRAPH or CONTEXT, every record without a result ABORTED, the graph complete. -/
def State.abort_ (s : State) (gid cause : Nat) (sub : Nat := 2) : State :=
  match s.graphAt gid with
  | none => s
  | some g =>
    let s1 := (s.runners g.die (fun t => t.graph = gid)).foldl (fun s k => s.stopTask g.die k (some sub)) s
    let s2 := s1.stopSavedAll (fun t => t.graph = gid)
    let s3 := (g.recs.filter (fun r => r.result = 0)).foldl (fun s r => s.writeResult g r 4) s2
    let s4 := g.recs.foldl (fun s r => s.dropTags r.inst) s3
    s4.complete_ { g with recs := g.recs.map (fun r => if r.result = 0 then { r with result := 4 } else r) } 3 cause

/-! ### Dependences (R250, R251) -/

/-- Whether two ranges share a byte and one is written. -/
def Range.meets (a b : Range) : Bool := a.len ≠ 0 && b.len ≠ 0 && decide (a.lo < b.lo + b.len) && decide (b.lo < a.lo + a.len) && (bit a.mark 1 || bit b.mark 1)

/-- Whether two records' footprints conflict. -/
def Rec.conflicts (a b : Rec) : Bool := a.ranges.any (fun x => b.ranges.any (fun y => x.meets y))

/-- Whether a record has started. -/
def Rec.started (r : Rec) : Bool := r.next ≠ 0 || r.running ≠ 0 || r.ended ≠ 0

/-- Successor counters decremented; one that comes to zero after admission makes its record ready. -/
def Graph.decrement (g : Graph) (now : Nat) (is : List Nat) : Graph :=
  is.foldl (fun g i => match g.recs[i]? with
    | none => g
    | some r =>
      if r.result ≠ 0 then g
      else
        let d := r.dep - 1
        g.setRec i { r with dep := d, readyAt := if r.admitted && r.readyAt.isNone && decide (d ≤ 0) then some now else r.readyAt }) g

/-- Records that have not started end SKIPPED, and their successors follow: the graph, and the records that ended. A record not yet admitted
is marked to end so when it is. -/
def Graph.skipAll (g : Graph) : Nat → List Nat → Graph × List Nat
  | 0, _ => (g, [])
  | n + 1, is => is.foldl (fun acc i => match acc.1.recs[i]? with
    | none => acc
    | some r =>
      if r.result ≠ 0 || r.started then acc
      else if !r.admitted then (acc.1.setRec i { r with skip := true }, acc.2)
      else
        let t := (acc.1.setRec i { r with result := 3 }).skipAll n (r.succs ++ r.derived)
        (t.1, acc.2 ++ i :: t.2)) (g, [])

/-- Whether a checkpointed task's state belongs to a core of a graph's partition. -/
def State.ckptOf (s : State) (g : Graph) (k : Ckpt) : Bool := k.die = g.die && (s.coresOf g.die (s.ctxAt g.ctx).part).contains k.core

/-- The commit of R74 on every format table of a context, checkpointed ones too: first the FBPEND bits of all of them ORed into each. -/
def State.commitAll (s : State) (g : Graph) : State :=
  let ks := s.coresOf g.die (s.ctxAt g.ctx).part
  let rows := ks.flatMap (fun k => (s.coreAt g.die k).pendRows s.now) ++ (s.ckpts.filter (s.ckptOf g)).flatMap (fun k => k.image.pendRows s.now)
  let s1 := ks.foldl (fun s k => s.setCoreAt g.die k (((s.coreAt g.die k).markRows rows).commit s.now)) s
  { s1 with ckpts := s1.ckpts.map (fun k => if s1.ckptOf g k then { k with image := (k.image.markRows rows).commit s.now } else k) }

/-- Whether the phase boundary of a phase has fallen: every record up to it has a result (R252). -/
def Graph.phaseOver (g : Graph) (p : Nat) : Bool := g.recs.all (fun r => decide (p < r.phase) || r.result ≠ 0)

/-- What follows the results of a list of records: phase boundaries, and completion once every record has one. -/
def State.settle (s : State) (g : Graph) (is : List Nat) : State :=
  let s1 := is.foldl (fun s i => match g.recs[i]? with
    | some r => if g.det && g.phaseOver r.phase then s.commitAll g else s
    | none => s) s
  if g.recs.all (fun r => r.result ≠ 0) then s1.complete_ g 2 0 else s1

/-- A record ends with a result (R251). -/
def State.finishRec (s : State) (gid i res : Nat) : State :=
  match s.graphAt gid with
  | none => s
  | some g => match g.recs[i]? with
    | none => s
    | some r =>
      let s1 := (s.writeResult g r res).dropTags r.inst
      let g1 := g.setRec i { r with result := res, signalled := true }
      let t : Graph × List Nat := if res = 1 then (g1.decrement s.now ((if r.signalled then [] else r.succs) ++ r.derived), [])
        else g1.skipAll g.recs.length (r.succs ++ r.derived)
      let s2 := t.2.foldl (fun s j => match t.1.recs[j]? with
        | some q => s.writeResult g q 3
        | none => s) s1
      (s2.setGraph t.1).settle t.1 (i :: t.2)

/-! ### Admission -/

/-- GRAPH_ADMIT: an entry skipped, or the best queue's next graph taken. -/
def State.takeGraph (s : State) (die : Nat) : State :=
  match s.badQueue die with
  | some q => s.skipEntry die q
  | none => match s.bestQueue die with
    | none => s
    | some (q, a, _) => match s.queueLive die q with
      | none => s
      | some (c, x) =>
        let w := fun (k : Nat) => (s.vread c.id [0] (a + 8 * k) 8).getD 0
        let g := graphOf s.nextGraph c.id die q x.taken a ((x.counts.find? (fun p => p.1 = x.taken)).map (·.2)) w
        let s1 := (s.pass die q).setDieAt die { s.dieAt die with lastQ := q }
        let s2 := { s1 with graphs := s1.graphs ++ [g], nextGraph := s1.nextGraph + 1 }
        if descriptorOk w then s2 else s2.complete_ g 3 6

def execGraphAdmit (die : Nat) (s : State) : Out := event s (decide (die < 4) && !s.dieAway die) (fun s => s.takeGraph die)

/-- EXT0 of the first record replaced by a launch's count (R264). -/
def withCount (count : Option Nat) : List Rec → Option (List Rec)
  | [] => some []
  | r :: rs => match count, r.nest with
    | none, _ => some (r :: rs)
    | some _, none => none
    | some c, some n => let n1 := { n with e0 := c }; some ({ r with nest := some n1, tiles := n1.tiles } :: rs)

/-- The checks of every record (R245): the graph admitted, or aborted. -/
def State.checkGraph (s : State) (g : Graph) : State :=
  match s.loadRecs g (s.ctxAt g.ctx).part (upto 0 g.ntask) with
  | none => s.complete_ g 3 1
  | some rs => match withCount g.count rs with
    | none => (s.setGraph { g with recs := rs }).abort_ g.id 5
    | some rs => (s.vwrite g.ctx [0] (g.desc.toNat + 24) (natToBytes 8 (2 ^ 56))).setGraph { g with recs := rs, admitted := true }

/-- Records admitted and not retired. -/
def Graph.live (g : Graph) : Nat := (g.recs.filter (fun r => r.admitted && r.result = 0)).length

/-- The instance numbers of records that are admitted and not retired. -/
def State.instances (s : State) : List Nat := s.graphs.flatMap (fun g => (g.recs.filter (fun r => r.inst ≠ 0 && r.result = 0)).map (·.inst))

/-- The 16-bit instance number that the next loop-nest record gets: one that no record holds and no tag names (R289). -/
def State.freeInst (s : State) : Nat :=
  let held := s.instances
  ((upto 1 (min (held.length + s.tags.length + 1) 65535)).find? (fun n => !held.contains n && s.tags.all (fun q => q.2.inst ≠ n))).getD 0

/-- The next record admitted (R250): derived edges, the gang check, readiness; an empty nest is DONE (R254). -/
def State.admitRec (s : State) (g : Graph) : State :=
  let i := g.admitNext
  match g.recs[i]? with
  | none => s
  | some r =>
    let before := (upto 0 i).filter (fun j => match g.recs[j]? with
      | some q => q.result = 0 && q.conflicts r
      | none => false)
    let g1 := before.foldl (fun g j => match g.recs[j]? with
      | some q => g.setRec j { q with derived := q.derived ++ [i] }
      | none => g) g
    let dep := r.dep + before.length
    let inst := if r.nest.isSome then s.freeInst else 0
    let r1 := { r with admitted := true, dep := dep, inst := inst, readyAt := if dep ≤ 0 then some s.now else none }
    let s1 := s.setGraph { g1.setRec i r1 with admitNext := i + 1 }
    if r.skip then s1.finishRec g.id i 3
    else if r.gang && decide ((s.coresOf g.die (s.ctxAt g.ctx).part).length < r.tiles) then s1.abort_ g.id 3
    else if r.tiles = 0 then s1.finishRec g.id i 1
    else s1

def execRecordAdmit (graph : Nat) (s : State) : Out :=
  match s.graphAt graph with
  | none => .next s
  | some g =>
    if g.admitted then event s (decide (g.admitNext < g.recs.length) && decide (g.live < 256) && !s.dieAway g.die) (fun s => s.admitRec g)
    else event s (!s.dieAway g.die) (fun s => s.checkGraph g)

/-! ### Placement (R251 to R255) -/

/-- Whether a logical core of a running partition may start a task: it runs none, and no retired physical core stands for it (R214). -/
def State.coreFree (s : State) (die core : Nat) : Bool := (s.coreAt die core).task.isNone && !(s.dieAt die).retired.contains (s.physOf die core)

/-- The free cores of a partition, lowest first; a task with PLACE may use one only. -/
def State.freeCores (s : State) (die part : Nat) (only : Option Nat) : List Nat :=
  (s.coresOf die part).filter (fun k => s.coreFree die k && (match only with
    | some c => c = k
    | none => true))

/-- A ready entry: a record of a graph, or a checkpointed task. -/
inductive ReadyKind where
  | record | gang | saved (n : Nat)
  deriving DecidableEq, Repr

structure Ready where
  prio  : Nat
  since : Nat
  graph : Nat
  idx   : Nat
  kind  : ReadyKind
  deriving DecidableEq, Repr

/-- The order of the ready queue (R251). -/
def Ready.before (a b : Ready) : Bool :=
  decide (b.prio < a.prio) || (a.prio = b.prio && (decide (a.since < b.since) || (a.since = b.since && (decide (a.graph < b.graph) || (a.graph = b.graph && decide (a.idx < b.idx))))))

/-- Whether a record waits in the ready queue. -/
def Rec.waiting (r : Rec) : Bool := r.readyAt.isSome && r.result = 0 && !r.cut && (decide (r.next < r.tiles) || r.again ≠ [])

/-- The ready queue of a partition, unordered. -/
def State.readyOf (s : State) (die part : Nat) : List Ready :=
  s.graphs.flatMap (fun g =>
    if g.die = die && (s.partAt die part).ctx = some g.ctx then
      (g.recs.zip (upto 0 g.recs.length)).filterMap (fun p =>
        if p.1.waiting then some ⟨p.1.prio, p.1.readyAt.getD 0, g.id, p.2, if p.1.gang then .gang else .record⟩ else none)
    else [])
  ++ (s.ckpts.zip (upto 0 s.ckpts.length)).filterMap (fun p => match p.1.image.task with
    | some t => if p.1.die = die && (s.coresOf die part).contains p.1.core && (s.graphAt t.graph).map (·.ctx) = (s.partAt die part).ctx then some ⟨p.1.prio, p.1.since, t.graph, t.record, .saved p.2⟩ else none
    | none => none)

/-- A list of ready entries put in order. -/
def insReady (r : Ready) : List Ready → List Ready
  | [] => [r]
  | q :: t => if r.before q then r :: q :: t else q :: insReady r t
def sortReady (l : List Ready) : List Ready := l.foldr insReady []

/-- The record a ready entry names. -/
def State.readyRec (s : State) (r : Ready) : Option (Graph × Rec) :=
  match s.graphAt r.graph with
  | none => none
  | some g => (g.recs[r.idx]?).map (fun q => (g, q))

/-- The one core that a record's next tile may run on, if it is placed, or waits for a victim's core (R256). -/
def Rec.only (r : Rec) : Option Nat := if r.pinned then some r.core else r.drain

/-- Whether every task of a lower phase has retired (R252). -/
def Graph.phaseReached (g : Graph) (r : Rec) : Bool := !g.det || g.recs.all (fun q => decide (r.phase ≤ q.phase) || q.result ≠ 0)

/-- Whether a ready entry can start now. -/
def State.startable (s : State) (die part : Nat) (r : Ready) : Bool :=
  match r.kind with
  | .saved n => match s.ckpts[n]? with
    | some k => s.coreFree die k.core
    | none => false
  | _ => match s.readyRec r with
    | none => false
    | some (g, q) => g.phaseReached q && decide ((if q.gang then q.tiles else 1) ≤ (s.freeCores die part q.only).length)

/-- The first ready entry that can start (R251, R255). -/
def State.nextStart (s : State) (die part : Nat) : Option Ready :=
  if (s.partAt die part).halt.isSome || s.dieAway die then none else (sortReady (s.readyOf die part)).find? (s.startable die part)

/-- Whether two records of a phase conflict. -/
def Graph.phaseConf (g : Graph) (p : Nat) : Bool :=
  let rs := (g.recs.zip (upto 0 g.recs.length)).filter (fun q => q.1.phase = p)
  rs.any (fun a => rs.any (fun b => decide (a.2 < b.2) && a.1.conflicts b.1))

/-- n bytes of a context's memory. -/
def State.vbytes (s : State) (ctx va : Nat) : Nat → Option (List Byte)
  | 0 => some []
  | n + 1 => match s.vread ctx [0] va 1, s.vbytes ctx (va + 1) n with
    | some b, some bs => some (BitVec.ofNat 8 b :: bs)
    | _, _ => none

/-- A stream at its start: its ring, and registers as R96 gives them. -/
def Engine.start (e : Engine) (base len : Nat) (t : Nat × Nat × Nat × Nat) : Engine :=
  { ringBase := base, ringSize := ringSizeOf len, imgLen := len, phase := if len = 0 then .ended else .header, stop := e.stop, stop0 := e.stop0,
    x := tabOf 0 (fun k => BitVec.ofNat 64 (match k with
      | 1 => t.1
      | 2 => t.2.1
      | 3 => t.2.2.1
      | _ => t.2.2.2)) (upto 1 4) }

/-- A core at a task's start (R20, R21, R64, R70, R96, R98, R141, R173, R244). -/
def Core.begin_ (c : Core) (t : RunTask) (r : Rec) (idx : Nat × Nat × Nat × Nat) (img : List Byte) : Core :=
  let n := r.lens
  let bv := ringSizeOf n.1
  let bm := bv + ringSizeOf n.2.1
  let bx := bm + ringSizeOf n.2.2.1
  let part := fun (o len : Nat) => (img.drop (2 * o)).take (2 * len)
  let sc := mWrite (mWrite (mWrite (mWrite c.scratch 0 (part 0 n.1)) bv (part n.1 n.2.1)) bm (part (n.1 + n.2.1) n.2.2.1)) bx (part (n.1 + n.2.1 + n.2.2.1) n.2.2.2)
  { c with
    c := c.c.start 0 n.1 idx, v := c.v.start bv n.2.1 idx, m := c.m.start bm n.2.2.1 idx, x := c.x.start bx n.2.2.2 idx,
    vr := [], q := [], vl := 64, cnt := [], terms := [], tsince := [], late := [], mSkid := false, xSkid := false, pend := none, evsat := false, spov := false, fpflags := 0,
    srkey := if t.nest then BitVec.ofNat 16 t.tile else 0, srseq := 0,
    spill := 4096 * bits (r.w 13) 0 8, spillOv := BitVec.ofNat 64 (r.w 14), spillOvSz := 4096 * bits (r.w 13) 8 9,
    active := {}, shadow := {}, shadowPend := false, mActive := false, mSparse := false, mSlot := 0, mNarrowed := false, mWaiting := false, mLanded := 0,
    scratch := sc, codeTop := r.ringBytes, task := some t }

/-- The running task of a tile. -/
def runOf (g : Graph) (r : Rec) (i tile now : Nat) : RunTask :=
  { addr := r.addr, graph := g.id, record := i, tile := tile, started := now, ranges := r.ranges, cpol := r.cpol, prio := r.prio, est := bits (r.w 13) 32 32,
    restart := r.restart, det := g.det, phase := r.phase, gang := r.gang, nest := r.nest.isSome, inst := r.inst, tiles := r.tiles,
    gbar := match r.nest with
      | some n => n.gbar
      | none => 0 }

/-- The tile that a record hands out next: one to be rerun, else the walker's next. -/
def Rec.nextTile (r : Rec) : Nat × Rec :=
  match r.again with
  | t :: ts => (t, { r with again := ts, running := r.running + 1, chosen := false, drain := none })
  | [] => (r.next, { r with next := r.next + 1, running := r.running + 1, chosen := false, drain := none })

/-- The next tile of a record starts on a core; `img` holds its images. -/
def State.startTile (s : State) (gid i core : Nat) (img : List Byte) : State :=
  match s.graphAt gid with
  | none => s
  | some g => match g.recs[i]? with
    | none => s
    | some r =>
      let t := r.nextTile
      let s1 := s.setGraph (g.setRec i t.2)
      s1.setCoreAt g.die core ((s1.coreAt g.die core).begin_ (runOf g r i t.1 s.now) r (r.tileAt t.1) img)

/-- The images of a record. -/
def State.images (s : State) (g : Graph) (r : Rec) : Option (List Byte) := s.vbytes g.ctx (r.w 2) (2 * (r.lens.1 + r.lens.2.1 + r.lens.2.2.1 + r.lens.2.2.2))

/-- The tiles of a record that run stopped, and no further one started; the record ends FAILED once none runs (R133). -/
def State.failRec (s : State) (gid i : Nat) : State :=
  match s.graphAt gid with
  | none => s
  | some g =>
    let s1 := (s.runners g.die (fun t => t.graph = gid && t.record = i)).foldl (fun s k => s.stopTask g.die k (some 1)) s
    let s2 := s1.stopSavedAll (fun t => t.graph = gid && t.record = i)
    match g.recs[i]? with
    | none => s2
    | some r => (s2.setGraph (g.setRec i { r with failed := true, cut := true, running := 0, again := [] })).finishRec gid i 2

/-- A record's tiles started on a list of cores: the phase's conflict check first (R252), and the gang's barrier (R255). -/
def State.startOn (s : State) (g : Graph) (r : Rec) (i : Nat) (ks : List Nat) : State :=
  if g.det && g.phaseOk ≠ some r.phase && g.phaseConf r.phase then s.abort_ g.id 2
  else match s.images g r with
    | none => s.failRec g.id i
    | some img =>
      let s1 := s.setGraph { g with phaseOk := some r.phase }
      let s2 := match r.nest with
        | some n => if n.gang then s1.setFlags g.ctx (setFlag (setFlag (s1.ctxAt g.ctx).flags n.gbar r.tiles) (n.gbar + 1) 0) else s1
        | none => s1
      ks.foldl (fun s k => s.startTile g.id i k img) s2

/-- A checkpointed task resumes: its core's state comes back, but for the stores and posted traffic of the core, which ran on. -/
def Core.restoreFrom (live image : Core) (now : Nat) : Core :=
  ({ image with storeq := live.storeq, posted := live.posted, nextPid := live.nextPid, flushes := live.flushes, flseq := live.flseq, fldone := live.fldone,
                revokedFlush := live.revokedFlush, issueNo := max live.issueNo image.issueNo,
                sb := image.sb.filter (fun e => match e.owner with
                  | .remote .. => false
                  | _ => true) ++ live.sb, lastClk := live.lastClk, lastRank := live.lastRank } : Core).resumed now

/-- TASK_START of the entry at the front. -/
def State.startReady (s : State) (die part : Nat) (r : Ready) : State :=
  match r.kind with
  | .saved n => match s.ckpts[n]? with
    | none => s
    | some k => ({ s with ckpts := dropNth s.ckpts n } : State).setCoreAt die k.core ((s.coreAt die k.core).restoreFrom k.image s.now)
  | _ => match s.readyRec r with
    | none => s
    | some (g, q) => s.startOn g q r.idx ((s.freeCores die part q.only).take (if q.gang then q.tiles else 1))

def execTaskStart (die part : Nat) (s : State) : Out :=
  match s.nextStart die part with
  | none => .next s
  | some r => event s (r.kind ≠ .gang) (fun s => s.startReady die part r)

def execGangStart (die part : Nat) (s : State) : Out :=
  match s.nextStart die part with
  | none => .next s
  | some r => event s (r.kind = .gang) (fun s => s.startReady die part r)

/-! ### Pre-emption (R256) -/

/-- The victim for a priority among the running tasks of a list of cores: the lowest priority, the latest started of equals. -/
def State.victim (s : State) (die prio : Nat) (ks : List Nat) : Option (Nat × RunTask) :=
  ks.foldl (fun best k => match (s.coreAt die k).task, best with
    | none, _ => best
    | some t, none => if t.prio < prio then some (k, t) else none
    | some t, some b => if t.prio < prio && (decide (t.prio < b.2.prio) || (t.prio = b.2.prio && decide (b.2.started < t.started))) then some (k, t) else best) none

/-- The rows of R256. -/
inductive PreemptAct where
  | drain | kill | checkpoint
  deriving DecidableEq, Repr

def preemptAct (now prio : Nat) (v : RunTask) : PreemptAct :=
  let t := (now - v.started) * 10 / 27
  if v.gang || (v.est ≠ 0 && decide (t ≤ v.est) && decide (v.est - t ≤ 4000 * 2 ^ (prio - v.prio))) then .drain
  else if v.restart && decide (now - v.started < 30 * Config.clkPerUs) && !v.effects then .kill
  else .checkpoint

/-- The victim's tile handed back to be rerun from its start. -/
def State.handBack (s : State) (t : RunTask) : State :=
  match s.graphAt t.graph with
  | none => s
  | some g => match g.recs[t.record]? with
    | none => s
    | some r => s.setGraph (g.setRec t.record { r with again := r.again ++ [t.tile], running := r.running - 1, readyAt := some s.now })

/-- The checkpoint of a core: a halt with class 0x0C, its state saved with its stash mappings, the rest of the partition resumed. Its link planes are
saved too, which changes no link: State.links holds a plane wherever it stands. -/
def State.checkpoint (s : State) (die part core : Nat) (t : RunTask) : State :=
  let s1 := ((s.raiseHalt die part 0x0C 1).haltNow die part).dropStash die core
  let c := s1.coreAt die core
  let s2 := { s1 with ckpts := s1.ckpts ++ [({ die := die, core := core, prio := t.prio, since := s.now, image := c } : Ckpt)] }
  let gone : Core := { c.vacant with sb := c.sb.filter SbEntry.fromRemote, ops := [] }
  ((s2.setCoreAt die core gone).noteIdle die core).resumeWhole die part

/-- A ready task that finds no free core and has not looked for a victim: its entry, its priority, and the one core it may run on. -/
def State.starves (s : State) (die part : Nat) (r : Ready) : Option (Ready × Nat × Option Nat) :=
  match r.kind with
  | .saved n => match s.ckpts[n]? with
    | some k => if k.chosen || s.coreFree die k.core then none else some (r, k.prio, some k.core)
    | none => none
  | _ => match s.readyRec r with
    | none => none
    | some (g, q) => if q.chosen || !g.phaseReached q || s.freeCores die part q.only ≠ [] then none else some (r, q.prio, q.only)

/-- The first such task in the order of the ready queue. -/
def State.starved (s : State) (die part : Nat) : Option (Ready × Nat × Option Nat) := (sortReady (s.readyOf die part)).findSome? (s.starves die part)

/-- A task has looked for its victim; `drain` is the core it waits for, if any. -/
def State.markChosen (s : State) (r : Ready) (drain : Option Nat) : State :=
  match r.kind with
  | .saved n => { s with ckpts := (s.ckpts.zip (upto 0 s.ckpts.length)).map (fun p => if p.2 = n then { p.1 with chosen := true } else p.1) }
  | _ => match s.readyRec r with
    | none => s
    | some (g, q) => s.setGraph (g.setRec r.idx { q with chosen := true, drain := if q.gang then none else drain })

def State.preemptFor (s : State) (die part : Nat) (r : Ready) (prio : Nat) (only : Option Nat) : State :=
  let ks := (s.coresOf die part).filter (fun k => match only with
    | some c => c = k
    | none => true)
  match s.victim die prio ks with
  | none => s.markChosen r none
  | some (k, t) => match preemptAct s.now prio t with
    | .drain => s.markChosen r (some k)
    | .kill => ((s.markChosen r none).stopTask die k none).handBack t
    | .checkpoint => (s.markChosen r none).checkpoint die part k t

def execPreempt (die part : Nat) (s : State) : Out :=
  match s.starved die part with
  | none => .next s
  | some (r, prio, only) => event s ((s.partAt die part).halt.isNone && !s.dieAway die) (fun s => s.preemptFor die part r prio only)

/-! ### Retirement (R27, R285) -/

/-- Whether a core's task has ended its streams and landed its commands, and its stores have been performed. -/
def Core.over (c : Core) : Bool :=
  c.c.phase = .ended && c.v.phase = .ended && c.m.phase = .ended && c.x.phase = .ended && c.c.raiseDue.isNone && c.v.raiseDue.isNone && c.m.raiseDue.isNone
    && c.x.raiseDue.isNone && c.copyq.isEmpty && c.ops.isEmpty && !c.helper.run && c.defer.isEmpty && c.storeq.isEmpty && c.posted.all (fun i => i.dropped || i.done) && !c.landing
    && c.sb.all (fun e => match e.owner with
      | .remote .. => true
      | _ => false)

/-- Whether no pending fallback was set in this clk: a commit of a phase boundary that this retirement brings would not act on it (R74, R252). -/
def Core.fbSettled (c : Core) (now : Nat) : Bool := c.fbAt.all (fun p => decide (p.2 ≤ now))

/-- A tile counted towards its record's decrements (R265); the last makes them. -/
def State.countSignal (s : State) (gid i tile : Nat) : State :=
  match s.graphAt gid with
  | none => s
  | some g => match g.recs[i]? with
    | none => s
    | some r =>
      let ts := addNew r.signals [tile]
      if !r.signalled && decide (r.tiles ≤ ts.length) then s.setGraph ((g.setRec i { r with signals := ts, signalled := true }).decrement s.now r.succs)
      else s.setGraph (g.setRec i { r with signals := ts })

/-- A tile retired: its record ends with its last. -/
def State.tileOver (s : State) (t : RunTask) : State :=
  match s.graphAt t.graph with
  | none => s
  | some g => match g.recs[t.record]? with
    | none => s
    | some r =>
      let r1 := { r with running := r.running - 1, ended := r.ended + 1 }
      let s1 := s.setGraph (g.setRec t.record r1)
      if r1.running = 0 && decide (r1.tiles ≤ r1.next) && r1.again = [] then s1.finishRec t.graph t.record (if r1.failed then 2 else 1) else s1

/-- Every mapping of a core removed, once its dirty sectors may be written back (R241). -/
def State.unmapAll (s : State) (die core : Nat) : List StashMap → Res State
  | [] => .ok s
  | m :: ms => do
    let s1 ← s.unmap die core m
    s1.unmapAll die core ms

def State.retire (s : State) (die core : Nat) (t : RunTask) : State :=
  match s.unmapAll die core (s.coreAt die core).stash with
  | .error (.wait x) => x
  | .error _ => s
  | .ok s1 =>
    let s2 := (s1.setCoreAt die core (s1.coreAt die core).vacant).noteIdle die core
    (s2.countSignal t.graph t.record t.tile).tileOver t

def execTaskRetire (die core : Nat) (s : State) : Out :=
  match (s.coreAt die core).task with
  | none => .next s
  | some t => event s ((s.coreAt die core).over && (s.coreAt die core).fbSettled s.now && (s.partOfCore die core).halt.isNone && !s.dieAway die) (fun s => s.retire die core t)

/-! ### Instructions (R264, R265) -/

/-- A form of class task. -/
def taskForm (g : BitVec 3) : Form := fC g

/-- A graph submitted to a queue by the current core: the entry written, the tail moved. -/
def State.submit (s : State) (q desc : Nat) (count : Option Nat) : State :=
  let die := s.cur.die
  let x := s.queueAt die q
  let t := x.tail.toNat
  let s1 := s.vwrite s.myCtx [0] (x.base.toNat + 16 * (t % x.entries)) (natToBytes 8 desc ++ natToBytes 8 0)
  s1.setQueue die q { x with tail := x.tail + 1, counts := match count with
    | some c => x.counts ++ [(t, c)]
    | none => x.counts }

def tlaunchBody (i : Instr) (d a b : Nat) (s : State) : Res State := do
  let desc := (s.rx a).toNat
  let cnt := (s.rx b 1).toNat
  need (aligned desc 64) clsMem 3 (BitVec.ofNat 64 desc)
  need (aligned cnt 4) clsMem 3 (BitVec.ofNat 64 cnt)
  await s.myCore.drained s
  let r ← (if cnt = 0 then (pure (none, s) : Res (Option Nat × State)) else do
    let v ← s.globalLoad i desc cnt 4 (some s.myFoot)
    pure (some (bytesToNat v.1), v.2))
  need (decide (r.1.getD 0 ≤ 65535)) clsUse subLAUNCH
  let w ← r.2.globalLoad i desc (desc + 8) 8 none
  let q := bits (bytesToNat w.1) 36 6
  need (match s.queueCtx s.cur.die q with
    | some c => c.id = s.myCtx
    | none => false) clsUse subLAUNCH
  let x := s.queueAt s.cur.die q
  pure ((r.2.submit q desc r.1).landX d (BitVec.ofNat 64 (q * 2 ^ 48 + x.tail.toNat % x.entries)) 1)

def execTlaunch (d a b : BitVec 6) (g : BitVec 3) (s : State) : Out := issue s (taskForm g) (tlaunchBody (.tlaunch d a b g) d.toNat a.toNat b.toNat)

/-- USER of the current task: the highest tile's value stands (R265). -/
def State.noteUser (s : State) (v : Nat) : State :=
  match s.myTask with
  | none => s
  | some t => match s.graphAt t.graph with
    | none => s
    | some g => match g.recs[t.record]? with
      | none => s
      | some r =>
        if (r.userTile.map (fun u => decide (u ≤ t.tile))).getD true
        then (s.setGraph (g.setRec t.record { r with user := BitVec.ofNat 16 v, userTile := some t.tile })).vwrite g.ctx [0] (t.addr.toNat + 126) (natToBytes 2 v)
        else s

/-- The current stream ended as though its image had (R14); in the handler bank the handler has failed (R131). -/
def State.endStream (s : State) : State :=
  let e := s.me
  let due := if e.hdr.raiseEn && e.iter + 1 = e.hdr.rep then some e.hdr.raise else none
  let s1 := s.setMe { e with phase := .ended, pfx := [], req := none, raiseDue := due, nextIssue := s.now + 1 }
  if s.cur.eng = .h then s1.handlerFail s.cur.die s.cur.core else s1

def tdoneBody (a : Nat) (s : State) : Res State := .error (.jump ((s.noteUser ((s.rx a).toNat % 2 ^ 16)).endStream))

def execTdone (a : BitVec 6) (g : BitVec 3) (s : State) : Out := issue s (fC g) (tdoneBody a.toNat)

/-- The current task marked as having signalled. -/
def State.markSignal (s : State) : State :=
  let f := fun (t : RunTask) => { t with signalled := true }
  if s.cur.eng = .h then s.setMyCore { s.myCore with htask := s.myCore.htask.map f } else s.setMyCore { s.myCore with task := s.myCore.task.map f }

/-- Whether the current task has signalled. -/
def State.hasSignalled (s : State) : Bool :=
  match s.myTask with
  | some t => t.signalled
  | none => false

def tsignalBody (s : State) : Res State := do
  need (!s.hasSignalled) clsUse subTASKOP
  await (s.myCore.drained && s.myCore.posted.all (fun i => i.dropped || i.done) && s.myCore.copyq.isEmpty) s
  let s1 := s.markSignal
  pure (match s.myTask with
    | some t => s1.countSignal t.graph t.record t.tile
    | none => s1)

def execTsignal (g : BitVec 3) (s : State) : Out := issue s (taskForm g) tsignalBody

end Sys2Proof.Machine
end

