-- ==== Sys2Proof/Machine/VecMem.lean ====
section
/-! DEFINITION. Vector loads and stores, gathers and scatters (R160 to R163). Every element is checked before any effect; the first that
fails in lane order is the trap, with its own address. Bodies are named, so that a reply to a request that left the core can be
performed into a saved context (R124). -/

namespace Sys2Proof.Machine

/-- An element of a vector access: its lane and address. -/
abbrev Elem := Nat × Nat

/-- The active lanes with their addresses. -/
def State.elems (s : State) (q : Nat) (addr : Nat → Nat) : List Elem := ((upto 0 64).filter (s.active q)).map (fun i => (i, addr i))

/-- The address of a VM form (R160): X[base] plus the prefix's displacement in units of 64 bytes. -/
def State.vmAddr (s : State) (b : Nat) : Nat :=
  let d : Word := match s.extBits with
    | none => 0
    | some n => BitVec.ofInt 64 (sextI n 10 * 64)
  (s.rx b + d).toNat

/-- The address of an element of a VG form (R162), modulo 2^64. -/
def State.vgAddr (s : State) (b v i : Nat) : Nat := (s.rx b + BitVec.ofNat 64 (s.rv v i).toNat).toNat

/-- The checks of scratchpad elements (R161, R162), in lane order. -/
def Core.spElems (c : Core) (wr : Bool) : List Elem → Res Unit
  | [] => .ok ()
  | e :: es => do
    need (aligned e.2 4) clsMem 3 (BitVec.ofNat 64 e.2)
    liftTrap (c.spCheck e.2 4 wr)
    c.spElems wr es

/-- Whether the stash sectors that elements touch are ready (R239). -/
def State.spElemsReady (s : State) (wr : Bool) : List Elem → Res Unit
  | [] => .ok ()
  | e :: es => do
    s.sectorsReady s.cur.die s.cur.core e.2 4 wr (s.myCore.mapped e.2 4)
    s.spElemsReady wr es

/-- The checks of global elements (R161), in lane order: their places, and the state with their owner tags. -/
def State.glElems (s : State) (wr : Bool) : List Elem → Res (List Phys × State)
  | [] => .ok ([], s)
  | e :: es => do
    need (aligned e.2 4) clsMem 3 (BitVec.ofNat 64 e.2)
    let p ← liftAt e.2 (if wr then s.checkSt s.myCtx (some s.myFoot) [0] e.2 4 else s.check s.myCtx (some s.myFoot) [0] e.2 4 false)
    need (!(wr && s.inRecord s.myCtx e.2 4)) clsUse subOBLIG
    let s1 ← liftAt e.2 (s.own s.cur.die s.cur.core s.myTask p e.2 4 wr)
    let rest ← s1.glElems wr es
    pure (p :: rest.1, rest.2)

/-- Whether any place lies on a device or strongly ordered page, whose request must not be made twice. -/
def onceOnly (ps : List Phys) : Bool := ps.any (fun p => decide (2 ≤ p.mtype))

/-- The elements of the current stream's request that have returned, by lane (R161). -/
def State.gotten (s : State) (i : Instr) (ea : Nat) : List (Nat × Lane) :=
  match s.me.req with
  | some r => if r.instr = i && r.addr = BitVec.ofNat 64 ea then r.got else []
  | none => []

/-- The elements of a load that return in this step: of those the die may read, a free choice, since the access as a whole is not atomic (R161); the
others wait, with their messages sent. -/
def State.takeElems (s : State) : List (Elem × Phys) → List (Nat × Lane) → List (Nat × Lane) × State
  | [], got => (got, s)
  | q :: qs, got =>
    if (tFind got q.1.1).isSome then s.takeElems qs got
    else match s.canRead s.cur.die none q.2 4 with
      | .error (.wait t) => t.takeElems qs got
      | .error _ => s.takeElems qs got
      | .ok () =>
        if s.freeNat (700 + q.1.1) % 2 = 1 then s.takeElems qs got
        else s.takeElems qs (tIns got q.1.1 (BitVec.ofNat 32 (bytesToNat (s.portBytes s.cur.die s.cur.core q.2.key q.2.home 4))))

/-- A vector load still waiting, with the elements it has got. -/
def State.keepGot (s : State) (i : Instr) (ea : Nat) (got : List (Nat × Lane)) : State :=
  let t := s.noteReq i ea false
  t.setMe { t.me with req := t.me.req.map (fun r => { r with got := got }) }

/-- The words of global elements by lane, once every one has returned (R161, R274); a trace entry names the first. -/
def State.loadElems (s : State) (i : Instr) (ea : Nat) (es : List Elem) : Res (List (Nat × Lane) × State) := do
  let r ← s.glElems false es
  await (r.1.all (fun p => s.myCore.inOrder s.cur.eng p.mtype)) (s.noteReq i ea false)
  await (!(onceOnly r.1 && !s.reqOut i ea)) (s.noteReq i ea true)
  let t := s.takeElems (es.zip r.1) (s.gotten i ea)
  await (es.all (fun e => (tFind t.1 e.1).isSome)) (t.2.keepGot i ea t.1)
  pure (t.1, match es with
    | [] => r.2
    | e :: _ => r.2.trace 2 2 (BitVec.ofNat 64 e.2))

/-- One element of a store entered: into the store queue, or posted through its window. -/
def State.storeElem (s : State) (e : Elem) (p : Phys) (w : Lane) : State :=
  let data := natToBytes 4 w.toNat
  match p.slot with
  | some _ => s.post s.cur.die s.cur.core s.cur.eng p (s.expDie p) data
  | none => s.setMyCore (s.myCore.queueStore s.cur.eng p e.2 data)

/-- Every element entered in lane order. -/
def State.storeAll (s : State) (w : Nat → Lane) : List (Elem × Phys) → State
  | [] => s
  | q :: qs => (s.storeElem q.1 q.2 (w q.1.1)).storeAll w qs

/-- Whether every element finds room: in the store queue, and in the posted queue of its home die. -/
def State.storeRoom (s : State) (ps : List Phys) : Bool :=
  let local_ := (ps.filter (fun p => p.slot.isNone)).length
  decide (local_ = 0 ∨ s.myCore.storeq.length + local_ ≤ Config.storeQueueSize)
    && (upto 0 4).all (fun h =>
      let n := (ps.filter (fun p => p.slot.isSome && s.expDie p = h)).length
      decide (n = 0 ∨ (s.postedTo s.cur.die s.cur.core h).length + n ≤ Config.postedQueueSize))

/-- Elements whose word a higher lane does not also name: no other agent sees the others (R163). -/
def lastOf : List (Elem × Phys) → List (Elem × Phys)
  | [] => []
  | e :: es => if es.any (fun x => x.1.2 = e.1.2) then lastOf es else e :: lastOf es

/-- A global store of elements: all enter at once. -/
def State.storeElems (s : State) (w : Nat → Lane) (es : List Elem) : Res State := do
  let r ← s.glElems true es
  let qs := lastOf (es.zip r.1)
  await (r.1.all s.storeOrder) s
  await (s.storeRoom (qs.map (·.2))) s
  let s1 := r.2.storeAll w qs
  pure (match es with
    | [] => s1
    | e :: _ => s1.trace 3 2 (BitVec.ofNat 64 e.2))

/-- The scratchpad words of elements, by lane. -/
def State.spLoad (s : State) (es : List Elem) : List (Nat × Lane) :=
  es.map (fun e => (e.1, BitVec.ofNat 32 (bytesToNat (s.spBytes s.cur.die s.cur.core e.2 4))))

/-- Scratchpad words of elements stored in lane order (R163). -/
def State.spStore (s : State) (w : Nat → Lane) : List Elem → State
  | [] => s
  | e :: es => (s.spWrite s.cur.die s.cur.core e.2 (natToBytes 4 (w e.1).toNat)).spStore w es

/-- Loaded words landed in their lanes. -/
def State.landElems (s : State) (v : Nat) (ws : List (Nat × Lane)) (lmax : Nat) : State := s.landV v (tFind ws) lmax

/-- The range of a gather or scatter: lowest active address to highest plus 4 (R162). -/
def elemRange (es : List Elem) : Nat × Nat :=
  match es with
  | [] => (0, 0)
  | e :: t =>
    let lo := t.foldl (fun m x => min m x.2) e.2
    let hi := t.foldl (fun m x => max m x.2) e.2
    (lo, hi + 4 - lo)

/-- A load of elements: scratchpad with a scoreboard range, or global. -/
def vecLoad (i : Instr) (sp : Bool) (ea v : Nat) (es : List Elem) (range : Nat × Nat) (lmax : Nat) (s : State) : Res State := do
  if sp then
    s.myCore.spElems false es
    await (range.2 = 0 || (!s.myCore.conflict range.1 range.2 false && decide (s.myCore.sb.length < Config.scoreboardSize))) s
    s.spElemsReady false es
    pure (s.landElems v (s.spLoad es) lmax)
  else
    let r ← s.loadElems i ea es
    pure (r.2.landElems v r.1 lmax)

/-- A store of elements. -/
def vecStore (sp : Bool) (v : Nat) (es : List Elem) (range : Nat × Nat) (s : State) : Res State := do
  if sp then
    s.myCore.spElems true es
    await (range.2 = 0 || (!s.myCore.conflict range.1 range.2 true && decide (s.myCore.sb.length < Config.scoreboardSize))) s
    s.spElemsReady true es
    pure (s.spStore (fun l => s.rv v l) es)
  else s.storeElems (fun l => s.rv v l) es

/-- The form of class VM and class VG: the base register's range. -/
def vmForm (b : BitVec 6) (g : BitVec 3) (s : State) : Form := fV g (s.regs [b.toNat])

/-- `vld.32`: element addresses wrap modulo 2^64, as those of scalar forms do (R102); R160 does not say (DESIGN CHOICE, log 65). -/
def vld32Body (i : Instr) (v b : Nat) (sp : Bool) (q : Nat) (s : State) : Res State := do
  let ea := s.vmAddr b
  need (aligned ea 4) clsMem 3 (BitVec.ofNat 64 ea)
  vecLoad i sp ea v (s.elems q (fun l => (ea + 4 * l) % 2 ^ 64)) (ea, 4 * s.rvl) 8 s

def vldBBody (i : Instr) (v b : Nat) (sp : Bool) (q : Nat) (s : State) : Res State := do
  let ea := s.vmAddr b
  need (aligned ea 4) clsMem 3 (BitVec.ofNat 64 ea)
  vecLoad i sp ea v (s.elems q (fun _ => ea)) (ea, 4) 8 s

/-- `vgath`: a TIMEOUT reports the lowest active element's address, where R161 says only that the load traps at its own (DESIGN CHOICE, log 65). -/
def vgathBody (i : Instr) (v ix b : Nat) (sp : Bool) (q : Nat) (s : State) : Res State :=
  let es := s.elems q (s.vgAddr b ix)
  vecLoad i sp ((es.map (·.2)).headD 0) v es (elemRange es) 16 s

def vst32Body (v b : Nat) (sp : Bool) (q : Nat) (s : State) : Res State := do
  let ea := s.vmAddr b
  need (aligned ea 4) clsMem 3 (BitVec.ofNat 64 ea)
  vecStore sp v (s.elems q (fun l => (ea + 4 * l) % 2 ^ 64)) (ea, 4 * s.rvl) s

def vscatBody (v ix b : Nat) (sp : Bool) (q : Nat) (s : State) : Res State :=
  let es := s.elems q (s.vgAddr b ix)
  vecStore sp v es (elemRange es) s

def execVld32 (v : BitVec 5) (b : BitVec 6) (p : BitVec 1) (q g : BitVec 3) (s : State) : Out :=
  issue s { vmForm b g s with ext := true } (vld32Body (.vld32 v b p q g) v.toNat b.toNat (p = 1) q.toNat)

def execVldB (v : BitVec 5) (b : BitVec 6) (p : BitVec 1) (q g : BitVec 3) (s : State) : Out :=
  issue s { vmForm b g s with ext := true } (vldBBody (.vldB v b p q g) v.toNat b.toNat (p = 1) q.toNat)

def execVst32 (v : BitVec 5) (b : BitVec 6) (p : BitVec 1) (q g : BitVec 3) (s : State) : Out :=
  issue s { vmForm b g s with ext := true, eff := p ≠ 1 } (vst32Body v.toNat b.toNat (p = 1) q.toNat)

def execVgath (v ix : BitVec 5) (b : BitVec 6) (p : BitVec 1) (q g : BitVec 3) (s : State) : Out :=
  issue s (vmForm b g s) (vgathBody (.vgath v ix b p q g) v.toNat ix.toNat b.toNat (p = 1) q.toNat)

def execVscat (v ix : BitVec 5) (b : BitVec 6) (p : BitVec 1) (q g : BitVec 3) (s : State) : Out :=
  issue s { vmForm b g s with eff := p ≠ 1 } (vscatBody v.toNat ix.toNat b.toNat (p = 1) q.toNat)

end Sys2Proof.Machine
end

