-- ==== Sys2Proof/Machine/Traps.lean ====
section
/-! DEFINITION. Blocks (R17, R37, R87), and what follows a trap: the halt's completion, handlers (R130, R131), containment (R133, R134), errors and
time-outs, replies into a saved context (R110, R124), and the context switch (R135 to R138). -/

namespace Sys2Proof.Machine

/-! ### Blocks -/

/-- The four fields of a header's two words (Tables 4.3a and 4.3b). -/
def headerOf (w0 w1 : Nat) : Header :=
  { rep := bits w0 21 8 + 1, len := bits w0 11 10, fmtBase := bits w1 11 6, ilk := bit w1 10, raiseEn := bit w1 9, raise := bits w1 4 5, await := bits w1 0 4 }

/-- Whether a header's words pass R87; the low byte is the marker. -/
def headerOk (w0 w1 : Nat) : Bool :=
  bits w0 0 8 = 0xFF && bits w0 29 3 = 0 && bits w0 8 3 = 0 && bits w0 11 10 ≠ 0 && bits w1 17 15 = 0 && (bit w1 9 || bits w1 4 5 = 0)

/-- Whether the asynchronous work of a stream has landed (R37): copies of X, operations and closes of M. -/
def State.landedEng (s : State) (id : EngId) : Bool :=
  let c := s.coreAt id.die id.core
  match id.eng with
  | .x => c.copyq.all (·.helper)
  | .m => c.ops.isEmpty && !s.chains.any (fun p => p.2.home = id.die && (match p.2.close with
      | some q => q.core = id.core
      | none => false))
  | _ => true

/-- The clk at which the last result of a stream lands. -/
def Engine.landAt (e : Engine) : Nat := e.busy.foldl (fun m p => max m p.2) 0

/-- Whether everything a stream has issued has landed (R17, R37): results, counter reads, CSR and format-table writes, asynchronous work. -/
def State.landedAll (s : State) (id : EngId) : Bool :=
  let e := s.engAt id
  decide (e.landAt ≤ s.now) && e.cntReads.isEmpty && (s.coreAt id.die id.core).late.all (·.eng ≠ id.eng) && s.landedEng id

/-- Whether a stream runs: it carries no trap and owes no reply, and its partition runs, or halted less than a clk ago, or runs it as its handler. -/
def State.streamRuns (s : State) (id : EngId) : Bool :=
  let e := s.engAt id
  e.trap.isNone && e.saved.isNone && (match (s.partOfCore id.die id.core).halt with
    | none => id.eng ≠ .h
    | some h => if id.eng = .h then h.handler && h.who.core = id.core else !h.complete && decide (s.now ≤ h.clk + 1))

/-- The raise of a block that has ended, in the clk after which its term may release another (R17, R19, R22). -/
def State.doRaise (s : State) (id : EngId) : State :=
  let e := s.engAt id
  match e.raiseDue with
  | none => s
  | some n =>
    let c := (s.coreAt id.die id.core).setEng id.eng { e with raiseDue := none }
    s.setCoreAt id.die id.core ((c.raised id.eng).raiseCnt s.now n 1)

/-- The header checked (R87), its term awaited (R17, R22), and the body entered. -/
def State.enterBlock (s : State) (id : EngId) : State :=
  let c := s.coreAt id.die id.core
  let e := s.engAt id
  let w0 := c.ringWord id.eng e.blk
  let w1 := c.ringWord id.eng (e.blk + 4)
  let h := headerOf w0 w1
  if !headerOk w0 w1 then s.takeTrap id { cls := clsIllegal, sub := 3 }
  else if !(c.termReady s.now h.await || e.released.any (fun r => decide (r ≤ s.now))) then s
  else
    let e1 := { e with phase := .body, pos := 0, iter := 0, hdr := h, awaited := true, released := none, nextIssue := max s.now e.nextIssue, busy := [] }
    s.setCoreAt id.die id.core (((c.setEng id.eng e1).stamp s.now (engRank id.eng)).traced s.now (s.cycle id.die) id.eng 6 0 (BitVec.ofNat 64 (e.ringBase + e.blk)))

def State.blockDue (s : State) (id : EngId) : Bool :=
  decide (id.die < 4) && decide (id.core < 160) && (s.engAt id).phase = .header && s.streamRuns id && s.landedAll id
    && (s.coreAt id.die id.core).inTurn s.now (engRank id.eng)

def execBlockStart (die core : Nat) (e : Eng) (s : State) : Out :=
  event s (s.blockDue ⟨die, core, e⟩) (fun s => (s.doRaise ⟨die, core, e⟩).enterBlock ⟨die, core, e⟩)

/-- Whether a partition has not halted in full, or the stream is its handler: a handler's raises, its `evinc` and its `evterm` act at once on the
counters and terms of its core, which its task finds so changed; the spec names no others for it (DESIGN CHOICE, log 63). -/
def State.raises (s : State) (id : EngId) : Bool :=
  match (s.partOfCore id.die id.core).halt with
  | none => true
  | some h => !h.complete || (id.eng = .h && h.handler)

def execBlockRaise (die core : Nat) (e : Eng) (s : State) : Out :=
  let id : EngId := ⟨die, core, e⟩
  event s (decide (die < 4) && decide (core < 160) && (s.engAt id).raiseDue.isSome && s.landedAll id && s.raises id) (fun s => s.doRaise id)

def execTraceFreeze (die core : Nat) (s : State) : Out :=
  let t := (s.coreAt die core).trace
  event s (t.left = some 0 && !t.frozen) (fun s => s.setCoreAt die core { s.coreAt die core with trace := { (s.coreAt die core).trace with frozen := true } })

/-! ### The halt -/

def execHaltComplete (die part : Nat) (s : State) : Out :=
  event s (match (s.partAt die part).halt with
    | some h => !h.complete
    | none => false) (fun s => s.haltNow die part)

/-- Whether no load's reply is still due into the partition: the halt lasts until it is (R124). -/
def State.loadsBack (s : State) (die part : Nat) : Bool :=
  (s.coresOf die part).all (fun k => !isLoadReq (s.coreAt die k).c.saved && !isLoadReq (s.coreAt die k).v.saved)

/-- Whether no reply at all is due into the partition. -/
def State.repliesBack (s : State) (die part : Nat) : Bool := (s.coresOf die part).all (fun k => (s.coreAt die k).c.saved.isNone && (s.coreAt die k).v.saved.isNone && (s.coreAt die k).m.saved.isNone && (s.coreAt die k).x.saved.isNone)

/-- The halt of a partition that has completed and waits to be acted on. -/
def State.standing (s : State) (die part : Nat) : Option HaltSt :=
  match (s.partAt die part).halt with
  | some h => if h.complete && !h.handler && s.loadsBack die part && !s.dieAway die && !(s.ctxAt ((s.partAt die part).ctx.getD 0)).out then some h else none
  | none => none

/-- The vector table's address of a partition's context. -/
def State.tvecOf (s : State) (die part : Nat) : Nat := (s.ctxAt ((s.partAt die part).ctx.getD 0)).tvec.toNat / 128 * 128

/-- Whether a class is vectored (Table 6.1). -/
def vectored (cls : Nat) : Bool := 1 ≤ cls && cls ≤ 8

/-- Whether a standing halt is offered to a handler. -/
def State.offered (s : State) (die part : Nat) (h : HaltSt) : Bool := !h.contain && vectored h.trap.cls && s.tvecOf die part ≠ 0

/-! ### Handlers (R130) -/

/-- The handler's record with its image, none where it cannot be read or is bad. -/
def State.handlerRec (s : State) (ctx die part a : Nat) : Option (Rec × List Byte) := do
  let ws ← s.vwords ctx a 16
  let r : Rec := { addr := BitVec.ofNat 64 a, words := tabOf 0 (fun k => BitVec.ofNat 64 (ws.getD k 0)) (upto 0 15) }
  if !s.recOk die part r || decide (4096 < 2 * r.lens.1) then none
  else
    let img ← s.vbytes ctx (r.w 2) (2 * r.lens.1)
    some (r, img)

/-- The handler bank at its start; a handler with an empty image has reached its end. -/
def Core.beginHandler (c : Core) (r : Rec) (img : List Byte) : Core :=
  { c with inHandler := true, hpend := none, hbuf := mWrite [] 0 img, h := c.h.start 0 r.lens.1 (0, 0, 0, 0),
           htask := some { addr := r.addr, graph := 2 ^ 64, record := 0, tile := 0, started := 0, ranges := r.ranges } }

/-- The trap of a partition goes to containment. -/
def State.toContain (s : State) (die part : Nat) : State :=
  let p := s.partAt die part
  s.setPartAt die part { p with halt := p.halt.map (fun h => { h with contain := true }) }

/-- A word of a vector table: its page must be normal too, since a failure of memory type counts as one that cannot be read (R130; which types fail is
DEDUCED, log 63). -/
def State.vectorAt (s : State) (ctx a : Nat) : Option Nat :=
  match s.check ctx none [0] a 8 false with
  | .ok p => if p.mtype = 0 then some (s.devNat p.key 8) else none
  | .error _ => none

/-- Delivery to a handler (R130): an entry of 0 is no handler, an entry or record that cannot be used is a handler failure. -/
def State.deliver (s : State) (die part : Nat) (h : HaltSt) : State :=
  let ctx := (s.partAt die part).ctx.getD 0
  let k := h.who.core
  let fail := s.handlerFail die k
  match s.vectorAt ctx (s.tvecOf die part + 8 * h.trap.cls) with
  | none => fail
  | some 0 => s.toContain die part
  | some a =>
    if a % 128 ≠ 0 then fail
    else match s.handlerRec ctx die part a with
      | none => fail
      | some (r, img) =>
        let p := s.partAt die part
        let s1 := (s.setCoreAt die k ((s.coreAt die k).beginHandler r img)).setPartAt die part { p with halt := some { h with handler := true } }
        if r.lens.1 = 0 then s1.handlerFail die k else s1

def execHandlerStart (die part : Nat) (s : State) : Out :=
  match s.standing die part with
  | none => .next s
  | some h => event s (s.offered die part h) (fun s => s.deliver die part h)

/-! ### The end of a context (R247, R248, R316) -/

/-- A graph ended with a cause, its records ABORTED whether or not they have been read. -/
def State.endGraph (s : State) (g : Graph) (cause : Nat) : State :=
  if g.recs = [] then
    ((upto 0 g.ntask).foldl (fun s i => s.vwrite g.ctx [0] (g.tasks.toNat + 128 * i + 120) (natToBytes 8 4)) s).complete_ g 3 cause
  else s.abort_ g.id cause 3

/-- Every visible entry of a queue taken and its graph ended. -/
def State.endQueue (s : State) (die q cause : Nat) (c : Ctx) : Nat → State
  | 0 => s
  | n + 1 =>
    let x := s.queueAt die q
    if x.taken = x.tail.toNat then s
    else match s.nextEntry c x with
      | none => (s.skipEntry die q).endQueue die q cause c n
      | some (a, _) =>
        let w := fun (k : Nat) => (s.vread c.id [0] (a + 8 * k) 8).getD 0
        let g := graphOf s.nextGraph c.id die q x.taken a none w
        let s1 := s.pass die q
        let s2 := { s1 with graphs := s1.graphs ++ [g], nextGraph := s1.nextGraph + 1 }
        (if descriptorOk w then s2.endGraph g cause else s2.complete_ g 3 6).endQueue die q cause c n

/-- A core freed of its context: no task, no handler, no asynchronous work. -/
def Core.freed (c : Core) : Core :=
  { c.vacant with inHandler := false, htask := none, hpend := none, h := c.h.end_, ops := [], late := [] }

/-- The graphs and queue entries of a context end with a cause. -/
def State.endWork (s : State) (id cause : Nat) : State :=
  let c := s.ctxAt id
  let s1 := (s.graphs.filter (fun g => g.ctx = id)).foldl (fun s g => s.endGraph g cause) s
  ((upto 0 64).filter (fun q => c.qmask.getLsbD q)).foldl (fun s q =>
    s.endQueue c.die q cause c (((s.queueAt c.die q).tail.toNat + 2 ^ 32 - (s.queueAt c.die q).taken) % 2 ^ 32)) s1

/-- The exports of a context are revoked and its chains released. -/
def State.endShares (s : State) (id : Nat) : State :=
  let s1 := (s.exports.filter (fun e => e.ctx = id)).foldl (fun s e => s.revokeExport e.handle.toNat) s
  (s1.chains.filter (fun p => p.2.ctx = id)).foldl (fun s p => s.release p.2) s1

/-- The partition of a context is free. -/
def State.freePart (s : State) (id : Nat) : State :=
  let c := s.ctxAt id
  if (s.partAt c.die c.part).ctx = some id then ((s.coresOf c.die c.part).foldl (fun s k => s.setCoreAt c.die k (s.coreAt c.die k).freed) s).setPartAt c.die c.part {}
  else s

/-- A context is no more: of its exports only the revoked ones are remembered. -/
def State.endCtx (s : State) (id : Nat) : State :=
  let c := s.ctxAt id
  let s1 := s.dropTlb (fun t => t.ctx = id)
  let c1 := { c with live := false, out := false, outFull := false, hostHalt := false, saved := [], savedHalt := none, imports := [], hatbox := none }
  let s2 := s1.setCtx { c1 with rules := none, gossip := none, qmask := 0, man := [] }
  { s2 with exports := s.exports.filter (fun e => e.ctx ≠ id || e.revoked) }

/-- A context destroyed: its graphs completed, its exports revoked, its chains, units' shares and cores released. -/
def State.destroy (s : State) (id cause : Nat) : State := (((s.endWork id cause).endShares id).freePart id).endCtx id

/-! ### Containment (R133, R134) -/

/-- The level that decides and its policy: 0 the tile task, 1 the graph, 2 the context, at which kill parent is kill self. -/
def State.policy (s : State) (t : RunTask) (ctx : Nat) : Nat × Nat :=
  if t.cpol ≠ 3 then (0, t.cpol)
  else
    let gp := match s.graphAt t.graph with
      | some g => g.pol
      | none => 2
    if gp ≠ 3 then (1, gp) else (2, if (s.ctxAt ctx).cpol = 3 then 2 else (s.ctxAt ctx).cpol)

/-- Kill self at a level: a context is destroyed and the host told its primary trap. -/
def State.killAt (s : State) (t : RunTask) (ctx level : Nat) (h : HaltSt) : State :=
  match level with
  | 0 => s.failRec t.graph t.record
  | 1 => s.abort_ t.graph 4
  | _ => (s.setCtx { s.ctxAt ctx with told := some (s.tcauseOf (h.who, h.trap), h.trap.addr) }).destroy ctx 4

/-- A stream's record moved past its faulting unit (R133). -/
def Core.skipUnit (c : Core) (w : Eng) : Core :=
  let e := c.eng w
  let e1 := match e.phase with
    | .body => e.past (if c.ringHalf w (e.offAt e.pos) % 2 = 0 then 1 else 2)
    | .header => { e with blk := e.offAt 0 }
    | .ended => e
  c.setEng w { e1 with stop := { e1.stop with w1 := BitVec.ofNat 64 (e1.pc % 2 ^ 21) } }

/-- A retry counted. -/
def Core.retried (c : Core) : Core := { c with task := c.task.map (fun t => { t with retries := t.retries + 1 }) }

/-- What a policy does to a standing trap of a task. -/
def State.contain (s : State) (die part : Nat) (h : HaltSt) (t : RunTask) : State :=
  let ctx := (s.partAt die part).ctx.getD 0
  let p := s.policy t ctx
  let hard := (9 ≤ h.trap.cls && h.trap.cls ≤ 0x0C) || h.trap.imprecise
  let k := h.who.core
  if p.2 = 2 then s.killAt t ctx p.1 h
  else if p.2 = 1 then (if hard || decide (3 ≤ t.retries) then s.killAt t ctx 0 h else s.setCoreAt die k (s.coreAt die k).retried)
  else if hard || h.trap.async then s.killAt t ctx 0 h
  else if h.trap.skip then s.setCoreAt die k ((s.coreAt die k).skipUnit h.who.eng) else s

/-- The partition resumes unless its context is gone. -/
def State.resumeIf (s : State) (die part : Nat) : State := if (s.partAt die part).halt.isSome then s.resumeWhole die part else s

/-- CONTAINMENT acts: a halt of the context is reported to the host and stands; a trap of no task resumes the partition. -/
def State.containStep (s : State) (die part : Nat) (h : HaltSt) : State :=
  let ctx := (s.partAt die part).ctx.getD 0
  if h.trap.cls = 0x0A then s.setCtx { s.ctxAt ctx with hostHalt := true }
  else match (s.coreAt die h.who.core).task with
    | none => s.resumeIf die part
    | some t => (s.contain die part h t).resumeIf die part

def execContainment (die part : Nat) (s : State) : Out :=
  match s.standing die part with
  | none => .next s
  | some h => event s (!s.offered die part h && h.trap.cls ≠ 0x0C) (fun s => s.containStep die part h)

def execContextResume (ctx : Nat) (s : State) : Out :=
  let c := s.ctxAt ctx
  match s.standing c.die c.part with
  | none => .next s
  | some h => event s (c.live && (s.partAt c.die c.part).ctx = some ctx && h.trap.cls = 0x0A && c.hostHalt) (fun s =>
      (s.setCtx { s.ctxAt ctx with hostHalt := false }).resumeWhole c.die c.part)

/-! ### Errors, time-outs and late replies -/

/-- The link of a slot of a core lost: its plane has an uncorrectable error (R207). -/
def State.loseSlot (s : State) (die core slot : Nat) : State :=
  { s with links := s.links.map (fun p =>
      if slotPhys p.1 = die * Config.physPerDie + s.physOf die core && p.1 % 16 = slot && s.planesHere p.1 && p.2.state ≠ .idle then (p.1, { p.2 with lost := true }) else p) }

/-- UNCORRECTABLE_ERROR (R126, R206): the engine carries it, chains on the core freeze, the links of its operations record where these
stopped (R199), and a core whose links froze has failed (R214). `kind` holds the subcode in bits 7:0 and, for LINK, the slot in bits 15:8. The operations themselves stand until the halt completes, for the stop record. -/
def State.uncorrectable (s : State) (die core : Nat) (e : Eng) (kind : Nat) : State :=
  let phys := die * Config.physPerDie + s.physOf die core
  let hurt := s.chains.any (fun p => p.2.links.any (fun r => slotPhys r.key = phys && (s.linkAt r.key).eff ≠ .sent))
  let s0 := s.freezeUncorr die core
  let s1 := if kind % 256 = 4 then s0.loseSlot die core (kind / 256) else s0
  let d := s1.dieAt die
  let s2 := if hurt then s1.setDieAt die { d with failed := addNew d.failed [s.physOf die core] } else s1
  (s2.abandonInto (s2.coreAt die core).opsInOrder).takeTrap ⟨die, core, e⟩ { cls := 9, sub := kind % 256, imprecise := true, skip := false }

def execUncorrectableError (die core : Nat) (e : Eng) (kind : BitVec 16) (s : State) : Out :=
  event s (decide (die < 4) && decide (core < 160) && e ≠ .h && 1 ≤ kind.toNat % 256 && kind.toNat % 256 ≤ 4 && (if kind.toNat % 256 = 4 then e = .m && kind.toNat / 256 ≤ 15 else kind.toNat / 256 = 0) && !s.dieAway die
    && (match (s.partOfCore die core).halt with
      | none => true
      | some h => !h.complete)) (fun s => s.uncorrectable die core e kind.toNat)

/-- TIMEOUT at an address. -/
def timeoutAt (addr : Word) : TrapRec := { cls := clsMem, sub := 5, addr := addr }

/-- Whether a request is a vector load of which an element has returned: such a load does not time out (R161). -/
def Req.begun (r : Req) : Bool := !r.got.isEmpty

/-- Whether a request has waited 200 µs. -/
def State.overdue (s : State) (since : Nat) : Bool := decide (since + Config.timeoutClk ≤ s.now)

/-- The time-out that has fallen due on an engine: of its own request at issue, or of its copy's or operation's group. -/
def State.timeoutOf (s : State) (die core : Nat) (e : Eng) : Option TrapRec :=
  let c := s.coreAt die core
  let own := match (c.eng e).req with
    | some r => if s.overdue r.since && !r.begun then some (timeoutAt r.addr) else none
    | none => none
  let wait := match e with
    | .x => c.copyq.head?.bind (·.wait)
    | .m => c.ops.head?.bind (·.wait)
    | _ => none
  match own, wait with
  | some t, _ => some t
  | none, some w => if s.overdue w.1 then some { timeoutAt w.2 with async := true, skip := false, hpc := (c.copyq.head?.bind (fun k => if e = .x && k.helper then some k.pc else none)) } else none
  | none, none => none

/-- MEMORY_TIMEOUT (R105, R110, R124, R183, R225): a trap of a running engine, or a fault for the saved context. -/
def State.timeout (s : State) (die core : Nat) (e : Eng) : State :=
  let g := s.engAt ⟨die, core, e⟩
  match g.saved with
  | some r => if s.overdue r.since && !r.begun then s.setEngAt ⟨die, core, e⟩ { g with saved := none, savedTrap := some { timeoutAt r.addr with skip := false } } else s
  | none => match s.timeoutOf die core e with
    | some t => if s.streamRuns ⟨die, core, e⟩ then s.takeTrap ⟨die, core, e⟩ t else s
    | none => s

def execMemoryTimeout (die core : Nat) (e : Eng) (s : State) : Out := event s (decide (die < 4) && decide (core < 160)) (fun s => s.timeout die core e)

/-- The meanings whose requests must not be made twice. -/
def replyBody : Instr → Option (State → Res State)
  | .ld d b w i g => some (ldBody (.ld d b w i g) d.toNat b.toNat w.toNat i.toNat)
  | .ldSp d b w i g => some (ldSpBody (.ldSp d b w i g) d.toNat b.toNat w.toNat i.toNat)
  | .atom d b o z c g => some (atomBody (.atom d b o z c g) d.toNat b.toNat o.toNat z.toNat c.toNat)
  | .cas d b z c g => some (casBody (.cas d b z c g) d.toNat b.toNat z.toNat c.toNat)
  | .chunk d a b g => some (chunkBody (.chunk d a b g) d.toNat a.toNat b.toNat)
  | .vld32 v b p q g => some (vld32Body (.vld32 v b p q g) v.toNat b.toNat (p = 1) q.toNat)
  | .vldB v b p q g => some (vldBBody (.vldB v b p q g) v.toNat b.toNat (p = 1) q.toNat)
  | .vgath v ix b p q g => some (vgathBody (.vgath v ix b p q g) v.toNat ix.toNat b.toNat (p = 1) q.toNat)
  | .chbuild c a f g => some (chbuildBody (.chbuild c a f g) c.toNat a.toNat (f = 1))
  | .cpD2d d p g => some (cpDBody (.cpD2d d p g) 0 d.toNat (p = 1))
  | .cpD3d d p g => some (cpDBody (.cpD3d d p g) 1 d.toNat (p = 1))
  | .cpDCvt d p g => some (cpDBody (.cpDCvt d p g) 2 d.toNat (p = 1))
  | .cpDGath d p g => some (cpDBody (.cpDGath d p g) 3 d.toNat (p = 1))
  | .cpDScat d p g => some (cpDBody (.cpDScat d p g) 4 d.toNat (p = 1))
  | .cpDFill d p g => some (cpDBody (.cpDFill d p g) 5 d.toNat (p = 1))
  | .cpDRemote d p g => some (cpDBody (.cpDRemote d p g) 6 d.toNat (p = 1))
  | .tlaunch d a b g => some (tlaunchBody (.tlaunch d a b g) d.toNat a.toNat b.toNat)
  | .hballoc d a b g => some (hballocBody (.hballoc d a b g) d.toNat a.toNat b.toNat)
  | .hbgate a b g => some (hbgateBody (.hbgate a b g) a.toNat b.toNat)
  | .hbpoll d a g => some (hbpollBody (.hbpoll d a g) d.toNat a.toNat)
  | .hbrel a g => some (hbrelBody (.hbrel a g) a.toNat)
  | .hbstat d a g => some (hbstatBody (.hbstat d a g) d.toNat a.toNat)
  | .hbcfg d a g => some (hbcfgBody (.hbcfg d a g) d.toNat a.toNat)
  | .prrule d a b g => some (prruleBody (.prrule d a b g) d.toNat a.toNat b.toNat)
  | .gspread p a b g => some (gspreadBody (.gspread p a b g) p.toNat a.toNat b.toNat)
  | .gmass d a g => some (gmassBody (.gmass d a g) d.toNat a.toNat)
  | .gcfg d a g => some (gcfgBody (.gcfg d a g) d.toNat a.toNat)
  | _ => none

/-- Which of them have an effect that a restart would repeat (R256). -/
def replyEffect : Instr → Bool
  | .atom .. => true
  | .cas .. => true
  | .chunk .. => true
  | .chbuild .. => true
  | _ => false

/-- The current stream after its reply has been tried: nothing outstanding but what is still saved. -/
def State.replied (s : State) (cur : EngId) (saved : Option Req) : State := { s.setMe { s.me with req := none, saved := saved, pfx := [], busy := [] } with cur := cur }

/-- The reply to a saved request (R110, R124): it writes the saved registers, waits still, or leaves a fault to be raised at resume. -/
def State.savedReply (s : State) (id : EngId) (r : Req) : State :=
  let e := s.engAt id
  let s0 := ({ s with cur := id } : State).setMe { e with req := some r, saved := none, pfx := r.pfx }
  match replyBody r.instr with
  | none => s.setEngAt id { e with saved := none }
  | some body => match body s0 with
    | .ok t => (if replyEffect r.instr then t.markEffect else t).replied s.cur none
    | .error (.jump t) => t.replied s.cur none
    | .error (.wait t) => t.replied s.cur (some (t.me.req.getD r))
    | .error (.trap x) =>
      let f := { x with skip := false }
      let s1 := s0.replied s.cur none
      if (s.partOfCore id.die id.core).halt.isSome then s1.setEngAt id { s1.engAt id with savedTrap := some f } else s1.takeTrap id f

def execSavedContextReply (die core : Nat) (e : Eng) (s : State) : Out :=
  match (s.engAt ⟨die, core, e⟩).saved with
  | none => .next s
  | some r => event s (match (s.partOfCore die core).halt with
      | some h => h.complete
      | none => true) (fun s => s.savedReply ⟨die, core, e⟩ r)

/-! ### The context switch (R135 to R138) -/

/-- A handler that runs, or has failed while containment has not acted, is abandoned with its edits: records and TINFO are as the halt wrote them (R135). -/
def Core.dropHandler (c : Core) (hfail : Bool) : Core :=
  let f := fun (e : Engine) => { e with stop := e.stop0 }
  { c with inHandler := false, hfail := hfail, htask := none, hpend := none, h := c.h.end_, c := f c.c, v := f c.v, m := f c.m, x := f c.x }

/-- Step 1: the halt raised and completed, unless a trap has halted the partition already; a handler abandoned. -/
def State.quiet (s : State) (die part sub : Nat) : State :=
  let s1 := (s.raiseHalt die part 0x0C sub).haltNow die part
  match (s1.partAt die part).halt with
  | none => s1
  | some h =>
    if !(h.handler || h.contain) then s1
    else
      let s2 := s1.landNow die h.who.core
      let s3 := s2.setCoreAt die h.who.core ((s2.coreAt die h.who.core).dropHandler h.hfail)
      s3.setPartAt die part { s3.partAt die part with halt := some { h with handler := false } }

/-- Step 2: the partition's flag adds in flight performed, and the stores that must come before them. -/
def State.flagsHome (s : State) (die part : Nat) : State :=
  ((s.coresOf die part).filter (fun k => s.flagMsgs.any (fun m => m.die = die && m.core = k))).foldl (fun s k => s.performAll die k) s

/-- Step 4: the flag file written to the save area. -/
def State.saveFlags (s : State) (ctx : Nat) : State :=
  let c := s.ctxAt ctx
  (upto 0 64).foldl (fun s j => s.vwrite ctx [0] (c.save + 256 * j) ((upto (64 * j) 64).flatMap (fun k => natToBytes 4 (tGet 0 c.flags k).toNat))) s

/-- Whether nothing that names the partition's cores is on the fabric but stores, and no reply is due into them. -/
def State.trafficHome (s : State) (die part : Nat) : Bool :=
  let ks := s.coresOf die part
  !s.puts.any (fun p => p.die = die && ks.contains p.core) && !s.units.any (fun p => p.die = die && ks.contains p.core)
    && !s.flagMsgs.any (fun p => p.die = die && ks.contains p.core) && s.repliesBack die part

/-- A core's stores performed and acknowledged. -/
def State.storesHome (s : State) (die core : Nat) : State :=
  let s1 := s.performAll die core
  eachMsg (·.sacks) (fun n a s => s.ackStore n a) s1 (s1.sacks.filter (fun a => a.die = die && a.core = core))

/-- Step 5: the cores handed back, their state with the context (R135, R137, R241). -/
def State.saveFull (s : State) (ctx : Nat) : State :=
  let c := s.ctxAt ctx
  let ks := s.coresOf c.die c.part
  let s1 := ks.foldl (fun s k => (s.storesHome c.die k).dropStash c.die k) s
  let img := ks.foldl (fun t k => tSet {} t k (s1.coreAt c.die k)) ([] : Tab Core)
  let s2 := ks.foldl (fun s k => s.setCoreAt c.die k { (s.coreAt c.die k).freed with sb := [], spill := 0, spillOv := 0, spillOvSz := 0 }) s1
  let h := (s2.partAt c.die c.part).halt
  (s2.setPartAt c.die c.part {}).setCtx { s2.ctxAt ctx with outFull := true, saved := img, savedHalt := h }

/-- Steps 1 to 4. -/
def State.switchOut4 (s : State) (ctx : Nat) : State :=
  let c := s.ctxAt ctx
  let s1 := ((s.quiet c.die c.part 2).flagsHome c.die c.part).saveFlags ctx
  let s2 := ((upto 0 64).filter (fun q => c.qmask.getLsbD q)).foldl (fun s q => s.setQueue c.die q { s.queueAt c.die q with frozen := some (s.qprog c.die q), shadow := none }) s1
  s2.setCtx { s2.ctxAt ctx with out := true, gen := BitVec.ofNat 16 s.gen }

def State.switchOut (s : State) (ctx : Nat) (full : Bool) : State :=
  let c := s.ctxAt ctx
  let s1 := if c.out then s else s.switchOut4 ctx
  if full && !c.outFull && s1.trafficHome c.die c.part then s1.saveFull ctx else s1

def execSwitchOut (die part : Nat) (full : Bool) (s : State) : Out :=
  match (s.partAt die part).ctx with
  | none => .next s
  | some ctx => event s (!s.dieAway die) (fun s => s.switchOut ctx full)

/-- The flag file loaded from the save area (R136). -/
def State.loadFlags (s : State) (ctx : Nat) : State :=
  let c := s.ctxAt ctx
  s.setFlags ctx (tabOf 0 (fun k => match s.vread ctx [0] (c.save + 4 * k) 4 with
    | some w => BitVec.ofNat 32 w
    | none => tGet 0 c.flags k) (upto 0 4096))

/-- Imports of a remapped context whose virtual die names another die revoked, and links there frozen (R138, R319). -/
def State.remap (s : State) (ctx : Nat) : State :=
  let c := s.ctxAt ctx
  if c.gen.toNat = s.gen then s
  else (s.setCtx { c with imports := c.imports.map (fun p => (p.1, if p.2.foreign || s.pdie p.2.vdie = some p.2.die then p.2 else { p.2 with revoked := true })) }).freezeRemap ctx

/-- The cores given back to their context. -/
def State.loadFull (s : State) (ctx : Nat) : State :=
  let c := s.ctxAt ctx
  if !c.outFull then s
  else
    let s1 := c.saved.foldl (fun s p =>
      let live := s.coreAt c.die p.1
      s.setCoreAt c.die p.1 { p.2 with nextPid := max live.nextPid p.2.nextPid, issueNo := max live.issueNo p.2.issueNo,
                                         lastClk := live.lastClk, lastRank := live.lastRank }) s
    (s1.setPartAt c.die c.part { halt := c.savedHalt, ctx := some ctx }).setCtx { s1.ctxAt ctx with outFull := false, saved := [], savedHalt := none }

/-- SWITCH_IN: the steps in reverse; the halt line is released, or the trap that was kept delivered again. -/
def State.switchIn (s : State) (ctx : Nat) : State :=
  let c := s.ctxAt ctx
  let s1 := ((s.loadFull ctx).loadFlags ctx).remap ctx
  let s2 := s1.setCtx { s1.ctxAt ctx with out := false, hostHalt := false }
  let s3 := ((upto 0 64).filter (fun q => c.qmask.getLsbD q)).foldl (fun s q =>
    let x := s.queueAt c.die q
    s.setQueue c.die q { x with tail := x.shadow.getD x.tail, shadow := none, frozen := none }) s2
  match (s3.partAt c.die c.part).halt with
  | none => s3
  | some h => if h.trap.cls = 0x0C then s3.resumeWhole c.die c.part
    else s3.setPartAt c.die c.part { s3.partAt c.die c.part with halt := some { h with contain := false } }

def execSwitchIn (ctx : Nat) (s : State) : Out :=
  let c := s.ctxAt ctx
  event s (c.live && c.out && !s.dieAway c.die && ((s.partAt c.die c.part).ctx = some ctx || (c.outFull && (s.partAt c.die c.part).ctx.isNone))) (fun s => s.switchIn ctx)

end Sys2Proof.Machine
end

