-- ==== Sys2Proof/Machine/Milliner.lean ====
section
/-! DEFINITION. The host's registers and mailbox (R370 to R374), exports and imports (R304, R305), warm reset, migration and resolution (R313, R317, R362),
staged start and features (R375 to R377), keys (R379), the manifest (R380 to R382), ageing (R383), power and heat (R384, R385), and the fabric's map
and modes (R300, R311). -/

namespace Sys2Proof.Machine

/-! ### Power and start (R375, R376) -/

/-- The module without power: only the flash keeps its content; the die map's earlier values do not matter any more. -/
def State.powerOff (s : State) (flashBad : Bool) : State :=
  { State.reset with tape := s.tape, free := s.free, cur := s.cur, now := s.now, mill := { ({} : Mill) with flash := s.mill.flash, flashBad := s.mill.flashBad || flashBad } }

/-- A start from stage 0: every key fresh, the flash image verified, MINIMAL or RECOVERY entered, and IDE on the link as the host has it. -/
def State.start (s : State) : State :=
  let s1 := s.powerOff false
  let ok := !s1.mill.flashBad && Config.imageVerifies s1.mill.flash
  { s1 with mill := { s1.mill with on := true, stage := if ok then 1 else 2, ide := decide (Config.freeBits s.free 9 % 2 = 1) } }

def execPowerGood (s : State) : Out := event s (!s.mill.on) State.start

/-- Whether a flash write may be going on: an IMGPUSH runs. -/
def State.flashing (s : State) : Bool := (upto 0 4).any (fun f => (s.dieAt f).mbox.busy && (s.dieAt f).mbox.cmd.toNat % 2 ^ 16 = 0x30)

def execPowerLoss (flash : Bool) (s : State) : Out := event s (s.mill.on && (!flash || s.flashing)) (fun s => s.powerOff flash)

/-- The die map with new PDIE and VALID fields: GEN moves with any change (R300). -/
def State.setMap (s : State) (m : Nat) : State :=
  let old := s.mill.dieMap.toNat
  let new := bits m 4 16 * 16
  if new = bits old 4 16 * 16 then s
  else { s with mill := { s.mill with dieMap := BitVec.ofNat 64 ((bits old 48 16 + 1) % 2 ^ 16 * 2 ^ 48 + new), mapLog := s.mill.mapLog ++ [s.mill.dieMap] } }

/-- The virtual dies mapped to a physical die marked not VALID. -/
def State.unmapDie (s : State) (die : Nat) : State :=
  s.setMap ((upto 0 4).foldl (fun m v => if s.pdie v = some die then m - 2 ^ (7 + 4 * v) else m) s.mill.dieMap.toNat)

/-- A function's mailbox changed. -/
def State.setMbox (s : State) (fn : Nat) (m : Mbox) : State := s.setDieAt fn { s.dieAt fn with mbox := m }

/-- A command ends: its code and results; result words it does not list read 0 (R373). -/
def State.mbEnd (s : State) (fn code : Nat) (res : List Nat) : State :=
  let m := (s.dieAt fn).mbox
  s.setMbox fn { m with busy := false, code := code, args := tabOf 0 (fun k => BitVec.ofNat 64 (res.getD k 0)) (upto 0 8) }

/-- The links that closes left for re-admission armed, slots of the die that no chain names any more free, and what waited goes on (R217). -/
def State.rearmDie (s : State) (die : Nat) : State :=
  let here := (s.links.filter (fun p => slotPhys p.1 / Config.physPerDie = die)).map (·.1)
  let named := fun (k : Nat) => s.chains.any (fun p => p.2.keys.contains k)
  (here.foldl (fun s k => if !named k then s.setLink k {} else if (s.linkAt k).rearm then s.setLink k (s.linkAt k).rearmed else s) s).formAll

/-- A die under warm reset re-admitted (Table 16.10, step 5): the command that asked for it ends. -/
def State.readmit (s : State) (die : Nat) : State :=
  let d := s.dieAt die
  let s1 := s.setDieAt die { d with warm := false, admitAt := s.now }
  let s2 := ({ s1 with mill := { s1.mill with dieUp := s1.mill.dieUp ||| BitVec.ofNat 4 (2 ^ die) }, filt := s1.filt.filter (fun e => e.1 ≠ die) } : State).rearmDie die
  match (upto 0 4).find? (fun f => (s2.dieAt f).mbox.busy && (s2.dieAt f).mbox.progress && s2.pdie (((tGet 0 (s2.dieAt f).mbox.cargs 0).toNat) % 4) = some die) with
  | some f => s2.mbEnd f 0 []
  | none => s2

/-- The six Zynoth ports of a far die up: they are as the die is admitted (R359; DEDUCED, log 71). -/
def State.portsUp (s : State) (die : Nat) : State := (upto (6 * (die - 4)) 6).foldl (fun s n => s.setPort n { s.portAt n with up := true }) s

/-- A die's first training: admitted and divided by firmware, or left down; the last die brings FULL (R375). -/
def State.train (s : State) (die : Nat) (ok : Bool) : State :=
  let m := { s.mill with trained := s.mill.trained ++ [die] }
  let s1 : State := { s with mill := m }
  let s2 : State :=
    if !ok then (if die < 4 then s1.unmapDie die else s1)
    else if die < 4 then
      ({ s1 with mill := { m with dieUp := m.dieUp ||| BitVec.ofNat 4 (2 ^ die) } } : State).setDieAt die { s1.dieAt die with admitAt := s.now, partLog := Config.partLogOf die % 4 }
    else ({ s1 with mill := { m with farUp := m.farUp ||| BitVec.ofNat 2 (2 ^ (die - 4)) }, allot := if s1.allot = [] then Config.allotment else s1.allot } : State).portsUp die
  if (upto 0 6).all (fun d => s2.mill.trained.contains d) then { s2 with mill := { s2.mill with stage := 3 } } else s2

def execDieAdmit (die : Nat) (trained : Bool) (s : State) : Out :=
  if (s.dieAt die).warm then event s (trained && decide (die < 4)) (fun s => s.readmit die)
  else event s (s.mill.on && s.mill.stage = 1 && decide (die < 6) && !s.mill.trained.contains die) (fun s => s.train die trained)

/-! ### Registers of BAR0 (R370) -/

/-- FEATACCEPT written (R377): nothing once it is locked. -/
def State.writeFeats (s : State) (v : Word) : State :=
  if s.mill.lock then s else { s with mill := { s.mill with feats := BitVec.ofNat 5 v.toNat, lock := bit v.toNat 63 } }

/-- Whether BAR0 and the mailbox answer: from MINIMAL on, and in RECOVERY. -/
def State.barOpen (s : State) : Bool := s.mill.on && s.mill.stage ≠ 0

def execFeatacceptWrite (v : BitVec 64) (s : State) : Out := event s s.barOpen (fun s => s.writeFeats v)

/-- The listed opcodes (Table 22.4). -/
def opcListed (o : Nat) : Bool := (1 ≤ o && o ≤ 10) || o = 0x10 || o = 0x11 || o = 0x20 || o = 0x21 || o = 0x30 || o = 0x40

/-- MBCMD written (R371, R372): OVR while a command runs; an unlisted OPC ends at once with UNKNOWN. -/
def State.writeCmd (s : State) (fn : Nat) (v : Nat) : State :=
  let m := (s.dieAt fn).mbox
  if m.busy then s.setMbox fn { m with ovr := true }
  else
    let s1 := s.setMbox fn { m with cmd := BitVec.ofNat 64 (v % 2 ^ 24), busy := true, progress := false, cargs := m.args }
    if opcListed (v % 2 ^ 16) then s1 else s1.mbEnd fn 1 []

/-- A state after a host write that another meaning describes. -/
def nextOf (s : State) : Out → State
  | .next t => t
  | _ => s

/-- A write to BAR0. -/
def State.writeBar (s : State) (fn off : Nat) (v : Word) : State :=
  let m := (s.dieAt fn).mbox
  if off % 8 ≠ 0 then s
  else if off = 0x28 then s.writeFeats v
  else if off = 0x100 then s.writeCmd fn v.toNat
  else if off = 0x108 then s.setMbox fn { m with ovr := m.ovr && !bit v.toNat 61 }
  else if 0x110 ≤ off ∧ off ≤ 0x148 then s.setMbox fn { m with args := tSet 0 m.args ((off - 0x110) / 8) v }
  else if 0x1000 ≤ off ∧ off < 0x1800 then
    let q := (off - 0x1000) / 32
    match off % 32 / 8 with
    | 0 => nextOf s (execQbaseWrite fn q v s)
    | 1 => nextOf s (execQsizeWrite fn q v s)
    | 2 => nextOf s (execQtailWrite fn q v s)
    | _ => s
  else s

def execRegisterWrite (fn off : Nat) (v : BitVec 64) (s : State) : Out := event s (s.barOpen && decide (fn < 4)) (fun s => s.writeBar fn off v)

/-- DEVSTATE (Table 22.5). -/
def State.devstate (s : State) : Nat := s.mill.farUp.toNat * 2 ^ 14 + s.mill.dieUp.toNat * 2 ^ 10 + s.mill.stage % 16

/-- PWRSTAT (Table 22.8). -/
def State.pwrstat (s : State) : Nat :=
  b2n s.narrow * 2 ^ 63 + b2n s.mill.hot * 2 ^ 62 + s.mill.tmax % 256 * 2 ^ 40 + s.mill.limit % 4096 * 2 ^ 28 + s.mill.power % 2 ^ 16

/-- A read of BAR0. -/
def State.readBar (s : State) (fn off : Nat) : Nat :=
  let m := (s.dieAt fn).mbox
  if off % 8 ≠ 0 || !s.barOpen then 0
  else if off = 0 then s.devstate
  else if off = 8 then s.mill.dieMap.toNat
  else if off = 0x20 then 0x1F
  else if off = 0x28 then b2n s.mill.lock * 2 ^ 63 + s.mill.feats.toNat
  else if off = 0x30 then s.pwrstat
  else if off = 0x100 then m.cmd.toNat
  else if off = 0x108 then b2n m.busy * 2 ^ 63 + b2n m.progress * 2 ^ 62 + b2n m.ovr * 2 ^ 61 + m.code % 2 ^ 16
  else if 0x110 ≤ off ∧ off ≤ 0x148 then (tGet 0 m.args ((off - 0x110) / 8)).toNat
  else if 0x1000 ≤ off ∧ off < 0x1800 then
    let q := (off - 0x1000) / 32
    match off % 32 / 8 with
    | 0 => (s.queueAt fn q).base.toNat
    | 1 => (s.queueAt fn q).size
    | 2 => (s.queueAt fn q).tail.toNat
    | _ => s.qprog fn q
  else 0

/-! ### Commands (R371 to R373) -/

/-- What a command answers: an error code, which changes nothing, or a state with results. -/
abbrev MbRes := Except Nat (State × List Nat)

/-- An argument word of the running command. -/
def State.arg (s : State) (fn k : Nat) : Nat := (tGet 0 (s.dieAt fn).mbox.cargs k).toNat

/-- A full 64-bit argument word. -/
def w64 : Nat := 2 ^ 64 - 1

/-- Whether the arguments keep to the bits of Table 22.4b. -/
def State.argsOk (s : State) (fn : Nat) (masks : List Nat) : Bool := (upto 0 8).all (fun k => s.arg fn k &&& (masks.getD k 0) = s.arg fn k)

/-- QUAL of the running command. -/
def State.qual (s : State) (fn : Nat) : Nat := bits (s.dieAt fn).mbox.cmd.toNat 16 8

/-- The running command performed by its function: RECOVERY admits IMGPUSH only, reserved bits are BADARG. -/
def State.mbRun (s : State) (fn opc : Nat) (masks : List Nat) (keyed : Bool) (f : State → MbRes) : State :=
  if s.mill.stage = 2 && opc ≠ 0x30 then s.mbEnd fn 4 []
  else if !s.argsOk fn masks || (decide (s.qual fn ≠ 0) != keyed) then s.mbEnd fn 2 []
  else match f s with
    | .error code => s.mbEnd fn code []
    | .ok t => t.1.mbEnd fn 0 t.2

/-- Whether a function runs a command. -/
def State.mbDue (s : State) (fn opc : Nat) : Bool := decide (fn < 4) && s.barOpen && (s.dieAt fn).mbox.busy && (s.dieAt fn).mbox.cmd.toNat % 2 ^ 16 = opc

/-- A mailbox command's event. -/
def mbCommand (fn opc : Nat) (masks : List Nat) (keyed : Bool) (f : State → MbRes) (s : State) : Out :=
  event s (s.mbDue fn opc) (fun s => s.mbRun fn opc masks keyed f)

/-- A check of a command. -/
def mbNeed (ok : Bool) (code : Nat) : Except Nat Unit := if ok then .ok () else .error code

/-- The live context that an argument names; else BADARG. -/
def State.mbCtx (s : State) (id : Nat) : Except Nat Ctx := if (s.ctxAt id).live then .ok (s.ctxAt id) else .error 2

/-! ### Exports, imports, translations -/

/-- Whether every page of a range translates. -/
def State.allMapped (s : State) (c : Ctx) (va n : Nat) : Bool := (upto (va / 4096) ((va + n + 4095) / 4096 - va / 4096)).all (fun p => (s.xlate c (4096 * p)).isSome)

/-- A handle that no export or import holds: its low half is the event's number. -/
def State.freshBits (s : State) (i : Nat) : Nat := Config.freeBits s.free i % 2 ^ 32

def exportCmd (fn : Nat) (s : State) : MbRes := do
  let c ← s.mbCtx (s.arg fn 0)
  let kind := bits (s.arg fn 1) 60 4
  mbNeed (1 ≤ kind && kind ≤ 3) 2
  let base := s.arg fn 2
  let len := s.arg fn 3
  mbNeed (kind ≠ 1 || (base % 2 ^ 21 = 0 && len % 2 ^ 21 = 0 && len ≠ 0)) 0x10
  mbNeed (kind ≠ 1 || s.allMapped c base len) 0x11
  mbNeed (decide ((s.exports.filter (fun e => e.ctx = c.id && !e.revoked)).length < 256)) 0x12
  let h := s.freshBits 1 * 2 ^ 32 + s.free % 2 ^ 32
  let e : ExportEnt := { handle := BitVec.ofNat 64 h, ctx := c.id, die := c.die, kind := kind, base := if kind = 1 then base else 0, len := if kind = 1 then len else 0,
                         write := kind = 1 && bit (s.arg fn 1) 0 }
  pure ({ s with exports := s.exports ++ [e] }, [h])

def execMbExport (fn : Nat) (s : State) : Out := mbCommand fn 1 [w64, 0xF000000000000001, w64, w64] false (exportCmd fn) s

/-- The first empty entry of an import table. -/
def Ctx.freeSlot (c : Ctx) : Option Nat := (upto 0 1024).find? (fun k => !c.imports.any (fun p => p.1 = k))

/-- Whether a window would meet a mapped page or another window. -/
def State.windowMeets (s : State) (c : Ctx) (base len : Nat) : Bool :=
  c.imports.any (fun p => p.2.kind = 1 && decide (base < p.2.wbase + p.2.len) && decide (p.2.wbase < base + len))
    || (upto (base / 4096) (len / 4096)).any (fun p => (s.xlate c (4096 * p)).isSome)

/-- The handle of an import (Table 16.4). -/
def handleOf (kind vdie slot tag : Nat) : Nat := kind * 2 ^ 60 + vdie % 4 * 2 ^ 58 + slot * 2 ^ 32 + tag

/-- The export that a handle names as the importer sees it: one of this package, or another package's, of which nothing is known but that it is a window. -/
def State.importedExport (s : State) (fn : Nat) : Except Nat ImportEnt :=
  let h := s.arg fn 1
  if s.arg fn 3 ≠ 0 then .ok { kind := 1, vdie := 0, die := 0, tag := 0, exp := h, len := 2 ^ 21 * (1 + s.freshBits 3), write := true, foreign := true }
  else match s.exportOf h with
    | none => .error 0x10
    | some e => if e.revoked then .error 0x11 else .ok { kind := e.kind, vdie := s.vdie e.die, die := e.die, tag := 0, exp := h, len := e.len, write := e.write }

def importCmd (fn : Nat) (s : State) : MbRes := do
  let c ← s.mbCtx (s.arg fn 0)
  let i ← s.importedExport fn
  mbNeed (i.kind = 1 || i.die ≠ c.die) 2
  let wbase := if i.kind = 1 then s.arg fn 2 else 0
  mbNeed (wbase % 2 ^ 21 = 0) 2
  mbNeed (i.kind ≠ 1 || !s.windowMeets c wbase i.len) 0x12
  match c.freeSlot with
  | none => .error 0x13
  | some k =>
    let tag := s.freshBits 2
    let s1 := { s with nextImport := s.nextImport + 1 }
    pure (s1.setCtx { c with imports := tIns c.imports k { i with tag := tag, wbase := wbase, uid := s.nextImport } }, [handleOf i.kind i.vdie k tag])

def execMbImport (fn : Nat) (s : State) : Out := mbCommand fn 2 [w64, w64, w64, 0xFFF] false (importCmd fn) s

def unimportCmd (fn : Nat) (s : State) : MbRes := do
  let c ← s.mbCtx (s.arg fn 0)
  let h := s.arg fn 1
  let k := bits h 32 16
  match c.imports.find? (fun p => p.1 = k) with
  | none => .error 0x10
  | some p =>
    mbNeed (h = handleOf p.2.kind p.2.vdie k p.2.tag) 0x10
    pure (s.setCtx { c with imports := tDel c.imports k }, [])

def execUnimport (fn : Nat) (s : State) : Out := mbCommand fn 3 [w64, w64] false (unimportCmd fn) s

def revokeCmd (fn : Nat) (s : State) : MbRes := do
  mbNeed (s.exportOf (s.arg fn 0)).isSome 0x10
  pure (s.revokeExport (s.arg fn 0), [])

def execRevoke (fn : Nat) (s : State) : Out := mbCommand fn 4 [w64] false (revokeCmd fn) s

/-- INVALTR (R303): it completes with no cached translation of the range left. -/
def invaltrCmd (fn : Nat) (s : State) : MbRes := do
  let c ← s.mbCtx (s.arg fn 0)
  let va := s.arg fn 1
  pure (s.dropTlb (fun t => t.ctx = c.id && decide (t.va < va + s.arg fn 2) && decide (va < t.va + 2 ^ t.leaf.pbits)), [])

def execInvaltr (fn : Nat) (s : State) : Out := mbCommand fn 5 [w64, w64, w64] false (invaltrCmd fn) s

/-! ### Migration (R313) -/

/-- The page that a MIGRATE names, where it may move. -/
def State.migrant (s : State) (fn : Nat) : Except Nat (Ctx × Leaf) := do
  let c ← s.mbCtx (s.arg fn 0)
  match s.xlate c (s.arg fn 1) with
  | none => .error 2
  | some l =>
    mbNeed (decide (l.pbits < 30)) 0x10
    mbNeed (l.mclass = 0) 0x11
    pure (c, l)

/-- Whether the page stands in the tier asked for. -/
def inTier (pa tier : Nat) : Bool := if tier = 0 then regionOf pa = .hbm else regionOf pa = .far

/-- The lines of n bytes at a key. -/
def pageLines (key n : Nat) : List Nat := upto (key / 256) (n / 256)

/-- Whether nothing keeps the page: no live owner tag, no transaction on its lines. -/
def State.pageQuiet (s : State) (key n : Nat) : Bool :=
  !s.tags.any (fun p => decide (key ≤ p.1 % 2 ^ 50 * 32) && decide (p.1 % 2 ^ 50 * 32 < key + n))
    && (pageLines key n).all (fun ln => !s.xactOn ln && !s.reqs.any (fun r => r.line = ln))

/-- The frame that firmware gives fits: aligned, in the tier, and the context's to use. -/
def State.frameOk (s : State) (c : Ctx) (l : Leaf) (frame tier : Nat) : Bool := frame % 2 ^ l.pbits = 0 && inTier frame tier && s.paOk c.die c.part frame

/-- The move: stores on their way performed, every line recalled, the page copied under its key, the entry rewritten, and the cached translation of the page,
which the engine keeps coherent, gone (R303). -/
def State.move (s : State) (c : Ctx) (va : Nat) (l : Leaf) (frame : Nat) : State :=
  let n := 2 ^ l.pbits
  let old := physKey c.die (l.pa / n * n)
  let s1 := (s.cores.map (·.1)).foldl (fun s k => s.performAll (k / 160) (k % 160)) s
  let s2 := (pageLines old n).foldl (fun s ln => s.backInval ln) s1
  let s3 := s2.putMem (physKey c.die frame) l.keyNo (s2.cohBytes old n)
  let ek := physKey c.die l.entry
  let e := s3.devNat ek 8
  let s4 := s3.dropTlb (fun t => t.ctx = c.id && decide (t.va ≤ va) && decide (va < t.va + 2 ^ t.leaf.pbits))
  s4.devWrite { key := ek, home := c.die, keyNo := 0, mtype := 0, mclass := 0 } (natToBytes 8 (e - bits e 12 40 * 4096 + frame))

def migrateCmd (fn frame : Nat) (s : State) : MbRes := do
  let p ← s.migrant fn
  pure (if inTier p.2.pa (s.arg fn 2) then s else s.move p.1 (s.arg fn 1) p.2 frame, [])

/-- Whether a MIGRATE can end now: it fails, or there is nothing to move, or the page and the frame are ready. -/
def State.migrateDue (s : State) (fn frame : Nat) : Bool :=
  match s.migrant fn with
  | .error _ => true
  | .ok p => inTier p.2.pa (s.arg fn 2) || (s.frameOk p.1 p.2 frame (s.arg fn 2) && s.pageQuiet (physKey p.1.die (p.2.pa / 2 ^ p.2.pbits * 2 ^ p.2.pbits)) (2 ^ p.2.pbits))

def execMigrate (fn frame : Nat) (s : State) : Out :=
  if s.migrateDue fn frame then mbCommand fn 6 [w64, w64, 1] false (migrateCmd fn frame) s else .next s

/-! ### Warm reset (R317) -/

/-- Every context of a die switched out, its stores performed. -/
def State.quiesce (s : State) (die : Nat) : State :=
  (s.ctxs.filter (fun p => p.2.live && p.2.die = die)).foldl (fun s p => s.switchOut p.1 true) s

/-- Whether every context of a die has been saved in full. -/
def State.quiesced (s : State) (die : Nat) : Bool := s.ctxs.all (fun p => !(p.2.live && p.2.die = die) || p.2.outFull)

/-- Steps 1 to 3 once the die is quiet: chains frozen, updates done, remote lines given up, exports revoked. -/
def State.warmReset (s : State) (die : Nat) : State :=
  let s1 := s.freezeWarm die
  let s2 := (s1.updates.filter (fun u => s1.homeOf u.key = die)).foldl (fun s u => s.prUpdate u) s1
  let s3 := ((s2.lines.filter (fun p => p.1 % 4 = die && p.2.dirty)).map (fun p => p.1 / 4)).foldl (fun s ln => s.giveUp die ln) s2
  let s4 := (s3.settleHome die).dropCopies die
  let s5 := (s4.exports.filter (fun e => e.die = die)).foldl (fun s e => s.revokeExport e.handle.toNat) s4
  let s6 := s5.setDieAt die { s5.dieAt die with warm := true }
  { s6 with mill := { s6.mill with dieUp := s6.mill.dieUp &&& ~~~(BitVec.ofNat 4 (2 ^ die)) } }

/-- WARMRESET: BADARG and BUSY at once; else the steps, PROGRESS after step 3, and BUSY until the die is re-admitted. -/
def State.warmCmd (s : State) (fn : Nat) : State :=
  match s.pdie (s.arg fn 0 % 4) with
  | none => s.mbEnd fn 2 []
  | some die =>
    if (s.dieAt die).warm then (if (s.dieAt fn).mbox.progress then s else s.mbEnd fn 4 [])
    else if !s.mill.dieUp.getLsbD die || (s.dieAt die).lost then s.mbEnd fn 2 []
    else
      let s1 := s.quiesce die
      if !s1.quiesced die then s1
      else
        let s2 := s1.warmReset die
        s2.setMbox fn { (s2.dieAt fn).mbox with progress := true }

def execWarmreset (fn : Nat) (s : State) : Out :=
  event s (s.mbDue fn 7) (fun s =>
    if s.mill.stage = 2 then s.mbEnd fn 4 [] else if !s.argsOk fn [3] || s.qual fn ≠ 0 then s.mbEnd fn 2 [] else s.warmCmd fn)

/-! ### GRESOLVE, contexts, keys -/

/-- The halves in doubt on a port in a range of a region's lines resolved (R362). -/
def State.resolveLines (s : State) (ctx first count port : Nat) (applied : BitVec 32) : State :=
  let mine := (s.outOn (fun o => o.port = port && o.doubt)).filter (fun q => q.1 = ctx && decide (first ≤ q.2) && decide (q.2 < first + count))
  mine.foldl (fun s q =>
    match (s.ctxAt ctx).gossip with
    | none => s
    | some g => match (g.line q.2).out with
      | none => s
      | some o => if diff32 o.seq applied ≤ 0 then s.dropHalf ctx q.2 else s.restoreHalf ctx q.2) s

def gresolveCmd (fn : Nat) (s : State) : MbRes := do
  let c ← s.mbCtx (s.arg fn 0)
  mbNeed (decide (s.arg fn 3 < 12)) 2
  mbNeed c.gossip.isSome 0x10
  pure (s.resolveLines c.id (s.arg fn 1) (s.arg fn 2) (s.arg fn 3) (BitVec.ofNat 32 (s.arg fn 4)), [])

def execGresolve (fn : Nat) (s : State) : Out := mbCommand fn 8 [w64, w64, w64, 0xF, 0xFFFFFFFF] false (gresolveCmd fn) s

/-- The checks of a context descriptor (R372, R374). -/
def State.ctxDescOk (s : State) (die : Nat) (w : Nat → Nat) : Bool :=
  bits (w 0) 52 12 = 0 && bits (w 0) 0 12 = 0 && w 1 % 128 = 0 && w 2 % 4096 = 0 && w 3 < 4 && w 5 = 0 && w 6 = 0 && w 7 = 0
    && !s.ctxs.any (fun p => p.2.live && p.2.die = die && p.2.qmask.toNat &&& w 4 ≠ 0)

/-- A core as a new context finds it: its format table at the reset rows (R218), its flush counters at 0 (R98). -/
def Core.fresh (c : Core) : Core :=
  { c with fmtCfg := [], fmtStat := [], fbAt := [], flseq := 0, fldone := 0, flushes := [], revokedFlush := [], flushMap := [], posted := [] }

def ctxcreateCmd (fn : Nat) (s : State) : MbRes := do
  mbNeed s.mill.lock 3
  let part := s.arg fn 0
  let pa := s.arg fn 1
  mbNeed (pa % 64 = 0 && decide (pa + 64 ≤ hbmBytes) && decide (part < 2 ^ s.partLog fn) && s.mill.dieUp.getLsbD fn) 2
  let w := fun (k : Nat) => s.cohNat (physKey fn (pa + 8 * k)) 8
  mbNeed (s.ctxDescOk fn w) 2
  mbNeed (s.partAt fn part).ctx.isNone 0x10
  let c : Ctx := { id := s.nextCtx, die := fn, vdie := s.vdie fn, part := part, ptroot := w 0, tvec := BitVec.ofNat 64 (w 1), save := w 2, cpol := w 3, qmask := BitVec.ofNat 64 (w 4) }
  let s1 := (s.coresOf fn part).foldl (fun s k => s.setCoreAt fn k (s.coreAt fn k).fresh) { s with nextCtx := s.nextCtx + 1 }
  pure ((s1.setCtx c).setPartAt fn part { ctx := some c.id }, [c.id])

def execCtxcreate (fn : Nat) (s : State) : Out := mbCommand fn 9 [7, w64] false (ctxcreateCmd fn) s

def ctxdestroyCmd (fn : Nat) (s : State) : MbRes := do
  let c ← s.mbCtx (s.arg fn 0)
  pure (s.destroy c.id 7, [])

def execCtxdestroy (fn : Nat) (s : State) : Out := mbCommand fn 10 [w64] false (ctxdestroyCmd fn) s

/-- A key slot given another key (R379): what was written under the old one is lost. -/
def keyCmd (fn : Nat) (s : State) : MbRes := do
  mbNeed s.mill.ide 0x10
  let q := s.qual fn
  pure ({ s with keyVer := tSet 0 s.keyVer q (tGet 0 s.keyVer q + 1) }, [])

def execKeyload (fn : Nat) (s : State) : Out := mbCommand fn 0x10 [w64, w64, w64, w64, w64, w64, w64, w64] true (keyCmd fn) s
def execKeyclr (fn : Nat) (s : State) : Out := mbCommand fn 0x11 [] true (keyCmd fn) s

/-! ### The manifest (R380 to R382) -/

/-- n bytes of a context through its translation, none where a page does not translate. -/
def State.ctxBytes (s : State) (c : Ctx) (va : Nat) : Nat → Option (List Byte)
  | 0 => some []
  | n + 1 => match s.xlate c va, s.ctxBytes c (va + 1) n with
    | some l, some bs => some (s.devByte (physKey c.die l.pa) :: bs)
    | _, _ => none

def manaddCmd (fn : Nat) (s : State) : MbRes := do
  let c ← s.mbCtx (s.arg fn 0)
  mbNeed (decide (s.arg fn 3 ≤ 2 ^ 26)) 2
  match s.ctxBytes c (s.arg fn 2) (s.arg fn 3) with
  | none => .error 2
  | some bs =>
    let h := sha256 bs
    pure (s.setCtx { c with man := tSet 0 c.man (s.arg fn 1) (1 + bytesToNat h) }, (upto 0 4).map (fun k => bytesToNat ((h.drop (8 * k)).take 8)))

def execManadd (fn : Nat) (s : State) : Out := mbCommand fn 0x20 [w64, 0xF, w64, w64] false (manaddCmd fn) s

/-- The cores of a context in logical order, from the save area where it is switched out in full. -/
def State.ctxCores (s : State) (c : Ctx) : List Core :=
  (s.coresOf c.die c.part).map (fun k => if c.outFull then tGet {} c.saved k else s.coreAt c.die k)

/-- The spares left on a die (R11). -/
def State.sparesLeft (s : State) (die : Nat) : Nat :=
  ((upto Config.coresPerDie (Config.physPerDie - Config.coresPerDie)).filter (fun p =>
    !(s.dieAt die).phys.any (fun q => q.2 = p) && !s.physFailed die p)).length

/-- MODE of a manifest (Table 22.7). -/
def State.manMode (s : State) : Nat :=
  b2n s.mill.lock * 2 ^ 63 + (upto 0 4).foldl (fun n i => n + s.partLog i % 4 * 2 ^ (24 + 2 * i) + b2n (s.dieAt i).priv * 2 ^ (20 + i)) 0
    + s.mill.dieUp.toNat * 2 ^ 16 + s.mill.feats.toNat

/-- A rule slot's 160 bytes. -/
def Rule.bytes (r : Rule) : List Byte := natToBytes 8 r.nops ++ r.k.flatMap (fun x => natToBytes 4 x.toNat) ++ r.words.flatMap (fun x => natToBytes 4 x.toNat)

/-- A chain's bytes in CHAINHASH. -/
def State.chainBytes (s : State) (ch : Chain) : List Byte :=
  natToBytes 1 ch.num ++ natToBytes 1 ch.links.length ++ ch.links.flatMap (fun r =>
    let l := s.linkAt r.key
    natToBytes 1 r.vdie ++ natToBytes 1 r.core ++ natToBytes 1 r.slot ++ natToBytes 2 l.decl ++ natToBytes 1 l.hopf)

/-- The 696 bytes of a manifest (Table 22.7). -/
def State.manifest (s : State) (c : Ctx) : List Byte :=
  let cs := s.ctxCores c
  natToBytes 32 (Config.imageHash s.mill.flash) ++ (upto 0 16).flatMap (fun k => natToBytes 32 (tGet 0 c.man k - 1)) ++ natToBytes 8 s.manMode
    ++ natToBytes 8 (cs.length + s.sparesLeft c.die * 2 ^ 32)
    ++ sha256 (cs.flatMap (fun k => (upto 0 64).flatMap (fun r => natToBytes 8 (k.cfgRow r).toNat)))
    ++ sha256 ((upto 0 16).flatMap (fun n => match c.rule n with
      | some r => r.bytes
      | none => List.replicate 160 0))
    ++ sha256 (cs.flatMap (fun k => (upto 0 8).flatMap (fun i => natToBytes 8 (tGet 0 k.seeds i).toNat)))
    ++ sha256 ((s.chains.filter (fun p => p.2.ctx = c.id)).flatMap (fun p => s.chainBytes p.2)) ++ natToBytes 8 1

/-- The key of a host physical address. -/
def hostKey (a : Nat) : Nat := physKey 0 (0x8000000000000 + a % 2 ^ 51)

/-- The signed report of 17,016 bytes (R382). -/
def State.report (s : State) (c : Ctx) (nonce : List Nat) : List Byte :=
  let m := s.manifest c ++ nonce.flatMap (natToBytes 8) ++ natToBytes 8 s.devstate ++ natToBytes 8 s.mill.dieMap.toNat ++ natToBytes 16 Config.deviceId
    ++ natToBytes 32 Config.identityHash
  m ++ natToBytes 16224 (Config.signature (m.map (·.toNat)))

def mansignCmd (fn : Nat) (s : State) : MbRes := do
  let c ← s.mbCtx (s.arg fn 0)
  let bs := s.report c ((upto 2 4).map (fun k => s.arg fn k))
  pure (s.devWrite { key := hostKey (s.arg fn 1), home := 4, keyNo := 0, mtype := 0, mclass := 0 } bs, [bs.length])

def execMansign (fn : Nat) (s : State) : Out := mbCommand fn 0x21 [w64, w64, w64, w64, w64, w64] false (mansignCmd fn) s

/-! ### IMGPUSH (R376) and PWRLIMIT (R384) -/

/-- An image as a number, its length with it. -/
def imageOf (bs : List Byte) : Nat := bytesToNat bs + 2 ^ (8 * bs.length)

/-- IMGPUSH: BUSY while a context exists; a bad signature writes nothing; a good image restarts the module from stage 0. -/
def State.push (s : State) (fn : Nat) : State :=
  if !s.argsOk fn [w64, w64] || s.qual fn ≠ 0 then s.mbEnd fn 2 []
  else if s.ctxs.any (fun p => p.2.live) then s.mbEnd fn 4 []
  else
    let img := imageOf (s.devBytes (hostKey (s.arg fn 0)) (s.arg fn 1))
    if Config.imageVerifies img then ({ s with mill := { s.mill with flash := img, flashBad := false } } : State).start else s.mbEnd fn 0x10 []

def execImgpush (fn : Nat) (s : State) : Out := event s (s.mbDue fn 0x30) (fun s => s.push fn)

def pwrlimitCmd (fn : Nat) (s : State) : MbRes := do
  mbNeed (1500 ≤ s.arg fn 0 && decide (s.arg fn 0 ≤ 3100)) 2
  pure ({ s with mill := { s.mill with limit := s.arg fn 0 } }, [])

def execPwrlimit (fn : Nat) (s : State) : Out := mbCommand fn 0x40 [0xFFF] false (pwrlimitCmd fn) s

/-! ### Power, heat and ageing (R383 to R385) -/

/-- Clk in a millisecond. -/
def clkPerMs : Nat := 1000 * Config.clkPerUs

/-- The average of the samples of the last millisecond. -/
def avgOf (l : List (Nat × Nat)) : Nat := (l.foldl (fun n p => n + p.2) 0) / l.length

/-- A power sample: the alarm rises above the limit, and falls once the average has stayed below 95 % of it for 1 ms. -/
def State.powerSample (s : State) (watts : Nat) : State :=
  let m := s.mill
  let l := m.samples.filter (fun p => decide (s.now < p.1 + clkPerMs)) ++ [(s.now, watts)]
  let a := avgOf l
  let low := if a * 100 < 95 * m.limit then some (m.lowSince.getD s.now) else none
  let calm := (low.map (fun t => decide (t + clkPerMs ≤ s.now))).getD false
  { s with mill := { m with samples := l, power := a, lowSince := low, alarmPow := decide (m.limit < a) || (m.alarmPow && !calm) } }

def execPowerSample (watts : Nat) (s : State) : Out := event s s.mill.on (fun s => s.powerSample watts)

/-- A reading of every die's temperature: 110 °C takes the power away, 100 °C raises the alarm, which stays until every die is below 95 °C. -/
def State.thermal (s : State) (temps : List Nat) : State :=
  let t := temps.foldl max 0
  if 110 ≤ t then s.powerOff false
  else { s with mill := { s.mill with tmax := t, hot := decide (100 ≤ t), alarmHot := decide (100 ≤ t) || (s.mill.alarmHot && decide (95 ≤ t)) } }

def execThermalSample (temps : List Nat) (s : State) : Out := event s (s.mill.on && temps.length = 6) (fun s => s.thermal temps)

/-- Whether a core may be retired: no link of a chain on it, no context's scratchpad resident on it. -/
def State.mayRetire (s : State) (die core : Nat) : Bool :=
  (s.partOfCore die core).ctx.isNone && !s.links.any (fun p => slotPhys p.1 = die * Config.physPerDie + s.physOf die core && p.2.state ≠ .idle)

/-- A core that ages: retired into a spare, or reported for service where none is left. -/
def State.age (s : State) (die core : Nat) : State :=
  let old := s.physOf die core
  match s.freeSpare die with
  | none => s.setDieAt die { s.dieAt die with evlog := (s.dieAt die).evlog ++ [core] }
  | some p =>
    let s1 := s.bindSpare die core p
    s1.setDieAt die { s1.dieAt die with retired := (s1.dieAt die).retired ++ [old] }

def execCoreAgeingCheck (die core : Nat) (low : Bool) (s : State) : Out :=
  event s (decide (die < 4) && decide (core < 160) && low && (s.coreAt die core).task.isNone
    && decide (tGet 0 (s.dieAt die).idleFrom core + 10 * clkPerMs ≤ s.now) && s.mayRetire die core) (fun s => s.age die core)

/-! ### The host's accesses and firmware's changes (R292, R300, R311) -/

/-- A host access through a function's CXL.mem window (R292, Table 22.1), which back-invalidates every copy; a read changes nothing. -/
def execCxlMemAccess (fn addr : Nat) (write : Bool) (data : List Byte) (s : State) : Out :=
  event s (write && decide (fn < 4) && s.mill.dieUp.getLsbD fn && decide (addr + data.length ≤ min (Config.cxlWindow fn) (2 ^ 36))) (fun s =>
    s.devWrite { key := physKey fn addr, home := fn, keyNo := 0, mtype := 0, mclass := 0 } data)

/-- A store of the host to its own memory (R292): any copy that the device holds is invalid first. -/
def hostWriteTurn (addr : Nat) (data : List Byte) (s : State) : Out :=
  event s (s.mill.on && decide (addr + data.length ≤ 2 ^ 51)) (fun s => s.devWrite { key := hostKey addr, home := 4, keyNo := 0, mtype := 0, mclass := 0 } data)

/-- Whether a map's valid fields name compute dies. -/
def mapOk (m : Nat) : Bool := (upto 0 4).all (fun v => !bit m (7 + 4 * v) || decide (bits m (4 + 4 * v) 3 < 4))

/-- Whether every context that uses a virtual die whose field changes is switched out: those that run on it or import from it. -/
def State.mapQuiet (s : State) (m : Nat) : Bool :=
  (upto 0 4).all (fun v => bits m (4 + 4 * v) 4 = bits s.mill.dieMap.toNat (4 + 4 * v) 4
    || s.ctxs.all (fun p => !p.2.live || p.2.out || !(s.pdie v = some p.2.die || p.2.imports.any (fun q => q.2.vdie = v))))

def execDieMapChange (map : BitVec 64) (s : State) : Out := event s (s.mill.on && mapOk map.toNat && s.mapQuiet map.toNat) (fun s => s.setMap map.toNat)

/-- The lines of the valid stash sectors of a die's cores. -/
def State.stashLines (s : State) (die : Nat) : List Nat :=
  (s.cores.filter (fun p => p.1 / 160 = die)).flatMap (fun p => (p.2.sectors.filter (fun q => q.2.st ≠ .invalid)).map (fun q => q.2.key / 256))

/-- The lines that a die caches, holds in stash sectors, or homes with holders. -/
def State.dieLines (s : State) (die : Nat) : List Nat :=
  (s.lines.filter (fun p => p.1 % 4 = die)).map (fun p => p.1 / 4) ++ (s.dirs.map (·.1)).filter (fun ln => s.homeOf (ln * 256) = die) ++ s.stashLines die

/-- L2_MODE_CHANGE: every line written back and invalidated first. -/
def State.changeMode (s : State) (die : Nat) (priv : Bool) : State :=
  let s1 := (s.dieLines die).foldl (fun s ln => if s.homeOf (ln * 256) = die then s.backInval ln else s.giveUp die ln) s
  ({ s1 with filt := s1.filt.filter (fun e => e.1 ≠ die) } : State).setDieAt die { s1.dieAt die with priv := priv }

def execL2ModeChange (die : Nat) (priv : Bool) (s : State) : Out :=
  event s (decide (die < 4) && s.mill.on && !s.ctxs.any (fun p => p.2.live && p.2.die = die && !p.2.out)
    && !(s.dieLines die).any (fun ln => s.entryBusy die ln)) (fun s => s.changeMode die priv)

end Sys2Proof.Machine
end

