-- ==== Sys2Proof/Machine/VecFloat.lean ====
section
/-! DEFINITION. Vector float arithmetic (R146 to R148), the float compare (R151), and reductions and scans (R164, R165). -/

namespace Sys2Proof.Machine

/-- A form of the vector stream that uses a format row. -/
def fVF (g : BitVec 3) (subs : List Nat := []) : Form := { fV g subs with fmt := true }

/-- The `n` low bits of a mask from lane predicates. -/
def maskBits (f : Nat → Bool) : Nat → Nat
  | 0 => 0
  | n + 1 => b2n (f 0) + 2 * maskBits (fun i => f (i + 1)) n

/-- The 64-lane mask of a lane predicate. -/
def laneMask (f : Nat → Bool) : Word := BitVec.ofNat 64 (maskBits f 64)

/-- q[d] written, with its trace event (R139); a write to q0 is discarded. -/
def State.writeQ (s : State) (d : Nat) (x : Word) (lmax : Nat) : State := if d = 0 then s else (s.landQ d x lmax).trace 1 d x

/-- Whether the row in force rounds with SR. -/
def State.sr (s : State) : Bool := s.row.rnd = 4

/-- One lane of a two-operand float operation (R146). -/
def State.lane2 (s : State) (op : FVal → FVal → FVal × Flags) (x y : Lane) (i : Nat) : LaneRes :=
  let a := laneIn s.flush x
  let b := laneIn s.flush y
  let r := op a.1 b.1
  roundLane s.row s.flush (s.vsr s.row.slot i) r.1 (a.2 ||| b.2 ||| r.2)

/-- One lane of a one-operand float operation. -/
def State.lane1 (s : State) (op : FVal → FVal × Flags) (x : Lane) (i : Nat) : LaneRes :=
  let a := laneIn s.flush x
  let r := op a.1
  roundLane s.row s.flush (s.vsr s.row.slot i) r.1 (a.2 ||| r.2)

/-- A binary form of Table 7.1. -/
def vf2 (d a b : BitVec 5) (q g : BitVec 3) (op : FVal → FVal → FVal × Flags) (s : State) : Out :=
  issue s (fVF g) fun s =>
    .ok (s.landFloat d.toNat (s.active q.toNat) (fun i => s.lane2 op (s.rv a.toNat i) (s.rv b.toNat i 1) i) 4 s.sr)

/-- A unary form of Table 7.1. -/
def vf1 (d a : BitVec 5) (q g : BitVec 3) (op : FVal → FVal × Flags) (s : State) : Out :=
  issue s (fVF g) fun s => .ok (s.landFloat d.toNat (s.active q.toNat) (fun i => s.lane1 op (s.rv a.toNat i) i) 4 s.sr)

def execVaddF32 (d a b : BitVec 5) (q g : BitVec 3) : State → Out := vf2 d a b q g fAdd
def execVsubF32 (d a b : BitVec 5) (q g : BitVec 3) : State → Out := vf2 d a b q g fun x y => fAdd x (fNeg y)
def execVmulF32 (d a b : BitVec 5) (q g : BitVec 3) : State → Out := vf2 d a b q g fMul
def execVminF32 (d a b : BitVec 5) (q g : BitVec 3) : State → Out := vf2 d a b q g fun x y => (fMin x y, 0)
def execVmaxF32 (d a b : BitVec 5) (q g : BitVec 3) : State → Out := vf2 d a b q g fun x y => (fMax x y, 0)
def execVabsF32 (d a : BitVec 5) (q g : BitVec 3) : State → Out := vf1 d a q g fun x => (fAbs x, 0)
def execVnegF32 (d a : BitVec 5) (q g : BitVec 3) : State → Out := vf1 d a q g fun x => (fNeg x, 0)

/-- One lane of a fused form (R147): `np` negates the product, `nc` the addend. -/
def State.lane3 (s : State) (np nc : Bool) (x y z : Lane) (i : Nat) : LaneRes :=
  let a := laneIn s.flush x
  let b := laneIn s.flush y
  let c := laneIn s.flush z
  let r := fFma (if np then fNeg a.1 else a.1) b.1 (if nc then fNeg c.1 else c.1)
  roundLane s.row s.flush (s.vsr s.row.slot i) r.1 (a.2 ||| b.2 ||| c.2 ||| r.2)

/-- A form of R147; lane i is active when i < vl. -/
def vf3 (d a b c : BitVec 5) (g : BitVec 3) (np nc : Bool) (s : State) : Out :=
  issue s (fVF g) fun s =>
    .ok (s.landFloat d.toNat (s.active 0) (fun i => s.lane3 np nc (s.rv a.toNat i) (s.rv b.toNat i 1) (s.rv c.toNat i 2) i) 6 s.sr)

def execVfmaF32 (d a b c : BitVec 5) (g : BitVec 3) : State → Out := vf3 d a b c g false false
def execVfmsF32 (d a b c : BitVec 5) (g : BitVec 3) : State → Out := vf3 d a b c g false true
def execVfnmaF32 (d a b c : BitVec 5) (g : BitVec 3) : State → Out := vf3 d a b c g true true
def execVfnmsF32 (d a b c : BitVec 5) (g : BitVec 3) : State → Out := vf3 d a b c g true false

/-- A code of G16 placed in f32 with bits [7:0] zero (R148). -/
def g16Lane (r : Nat × Flags) (fl : Flags) : LaneRes := (BitVec.ofNat 32 (r.1 * 256), fl ||| r.2)

/-- A value with its flags rounded onto G16 in the row's mode. -/
def State.toG16 (s : State) (i : Nat) (v : FVal × Flags) : Nat × Flags :=
  let r := roundFmt g16 v.1 s.row.rnd true s.flush (s.vsr s.row.slot i)
  (r.1, v.2 ||| r.2)

/-- An approximation of R148: `f` gives the G16 code of lane i for the flushed input x, whose code is w. -/
def vApprox (d a : BitVec 5) (q g : BitVec 3) (f : State → Nat → FVal → Lane → Nat × Flags) (s : State) : Out :=
  issue s (fVF g) fun s =>
    .ok (s.landFloat d.toNat (s.active q.toNat) (fun i =>
      let x := laneIn s.flush (s.rv a.toNat i)
      g16Lane (f s i x.1 (s.rv a.toNat i)) x.2) 12 s.sr)

def execVrcp (d a : BitVec 5) (q g : BitVec 3) : State → Out := vApprox d a q g fun s i x _ => s.toG16 i (fRcp x)
def execVrsqrt (d a : BitVec 5) (q g : BitVec 3) : State → Out := vApprox d a q g fun s i x _ => s.toG16 i (fRsqrt x)
def execVexp2 (d a : BitVec 5) (q g : BitVec 3) : State → Out :=
  vApprox d a q g fun s i x w => exp2G16 x s.row.rnd s.flush (s.vsr s.row.slot i) w.toNat
def execVlog2 (d a : BitVec 5) (q g : BitVec 3) : State → Out :=
  vApprox d a q g fun s i x w => log2G16 x s.row.rnd s.flush (s.vsr s.row.slot i) w.toNat

def execVcmpF32 (d : BitVec 4) (a b : BitVec 5) (c q g : BitVec 3) (s : State) : Out :=
  issue s { fV g with wf := c.toNat ≤ 3 } fun s =>
    .ok (s.writeQ d.toNat (laneMask (fun i => s.active q.toNat i
      && vcmpFCond c.toNat (laneIn s.flush (s.rv a.toNat i)).1 (laneIn s.flush (s.rv b.toNat i 1)).1)) 3)

/-! ### Reductions and scans (Table 7.2) -/

/-- A present or ABSENT value of a reduction, with flags. -/
abbrev Red := Option Lane × Flags

/-- The value a lane enters a reduction with: float lanes through in(), a NaN canonical. -/
def State.redSrc (s : State) (m : Nat) (w : Lane) : LaneRes :=
  if m = 1 || 4 ≤ m then (w, 0) else let x := laneIn s.flush w; (BitVec.ofNat 32 (rne 0 x.1).1, x.2)

/-- comb of two present values (Table 7.2), with the SR element index. -/
def State.comb (s : State) (m : Nat) (x y : Lane) (k : Nat) : LaneRes :=
  let fx := decodeF 0 x.toNat
  let fy := decodeF 0 y.toNat
  match m with
  | 0 => let r := fAdd fx fy; roundLane s.row s.flush (s.vsr s.row.slot k) r.1 r.2
  | 1 => (x + y, 0)
  | 2 => (BitVec.ofNat 32 (rne 0 (fMax fx fy)).1, 0)
  | 3 => (BitVec.ofNat 32 (rne 0 (fMin fx fy)).1, 0)
  | 4 => (if x.slt y then y else x, 0)
  | _ => (if x.slt y then x else y, 0)

/-- The identity of an operation. -/
def redIdentity (m : Nat) : Lane :=
  match m with
  | 2 => 0xFF800000
  | 3 => 0x7F800000
  | 4 => 0x80000000
  | 5 => 0x7FFFFFFF
  | _ => 0

/-- comb with ABSENT. -/
def State.comb? (s : State) (m : Nat) (x y : Option Lane) (k : Nat) : Red :=
  match x, y with
  | some x, some y => let r := s.comb m x y k; (some r.1, r.2)
  | some x, none => (some x, 0)
  | none, y => (y, 0)

/-- One level of the tree: neighbours at distance d combined, the first of a pair at lane i. -/
def State.redLevel (s : State) (m d : Nat) : Nat → List (Option Lane) → List (Option Lane) × Flags
  | i, x :: y :: t =>
    let r := s.comb? m x y (i + d - 1)
    let rest := s.redLevel m d (i + 2 * d) t
    (r.1 :: rest.1, r.2 ||| rest.2)
  | _, t => (t, 0)

/-- The levels of the tree from distance d on. -/
def State.redTree (s : State) (m : Nat) : Nat → Nat → List (Option Lane) → Red
  | 0, _, t => (t.headD none, 0)
  | n + 1, d, t =>
    let l := s.redLevel m d 0 t
    let r := s.redTree m n (2 * d) l.1
    (r.1, l.2 ||| r.2)

/-- The flags that active lanes enter a reduction with. -/
def State.redInFlags (s : State) (m a q : Nat) : Flags := lanesFlags (s.active q) (fun i => s.redSrc m (s.rv a i)) (upto 0 64)

/-- Whether a reduction advances SRSEQ: only add.f32 rounds. -/
def State.redSr (s : State) (m : Nat) : Bool := m = 0 && s.sr

/-- `vred` landed. -/
def State.reduce (s : State) (m d a q : Nat) : State :=
  let t := (upto 0 64).map (fun i => if s.active q i then some (s.redSrc m (s.rv a i)).1 else none)
  let r := s.redTree m 6 1 t
  let v := r.1.getD (redIdentity m)
  ((s.landV d (fun i => if i = 0 then some v else none) 16).orFlags (s.redInFlags m a q ||| r.2)).srStep (s.redSr m)

def execVred (d a : BitVec 5) (m q g : BitVec 3) (s : State) : Out :=
  issue s { fVF g with wf := m.toNat ≤ 5 } fun s => .ok (s.reduce m.toNat d.toNat a.toNat q.toNat)

/-- The running values of `vscan`, as a lane table, with their flags. -/
def State.scanLanes (s : State) (m a q : Nat) : List Nat → Option Lane → List (Option Lane) × Flags
  | [], _ => ([], 0)
  | i :: is, run =>
    if s.active q i then
      let r := s.comb? m run (some (s.redSrc m (s.rv a i)).1) i
      let rest := s.scanLanes m a q is r.1
      (r.1 :: rest.1, r.2 ||| rest.2)
    else
      let rest := s.scanLanes m a q is run
      (none :: rest.1, rest.2)

/-- `vscan` landed. -/
def State.scan (s : State) (m d a q : Nat) : State :=
  let r := s.scanLanes m a q (upto 0 64) none
  ((s.landV d (fun i => r.1.getD i none) 20).orFlags (s.redInFlags m a q ||| r.2)).srStep (s.redSr m)

def execVscan (d a : BitVec 5) (m q g : BitVec 3) (s : State) : Out :=
  issue s { fVF g with wf := m.toNat ≤ 5 } fun s => .ok (s.scan m.toNat d.toNat a.toNat q.toNat)

end Sys2Proof.Machine
end

