-- ==== Sys2Proof/Machine/VecInt.lean ====
section
/-! DEFINITION. Vector integer and bitwise operations (R149, R150), the integer compare (R151), mask operations (R152), `vlut3` (R153),
funnel shifts and rotates (R154). None sets a flag. -/

namespace Sys2Proof.Machine

/-- Lane results landed: `f` on the active lanes. -/
def State.landInt (s : State) (d : Nat) (on : Nat → Bool) (f : Nat → Lane) (lmax : Nat) : State :=
  s.landV d (fun i => if on i then some (f i) else none) lmax

/-- A binary integer form. -/
def vi2 (d a b : BitVec 5) (q g : BitVec 3) (lmax : Nat) (f : Lane → Lane → Lane) (s : State) : Out :=
  issue s (fV g) fun s => .ok (s.landInt d.toNat (s.active q.toNat) (fun i => f (s.rv a.toNat i) (s.rv b.toNat i 1)) lmax)

/-- A unary integer form. -/
def vi1 (d a : BitVec 5) (q g : BitVec 3) (f : Lane → Lane) (s : State) : Out :=
  issue s (fV g) fun s => .ok (s.landInt d.toNat (s.active q.toNat) (fun i => f (s.rv a.toNat i)) 2)

def lMulh (x y : Lane) : Lane := BitVec.ofInt 32 (x.toInt * y.toInt / 2 ^ 32)
def lMin (x y : Lane) : Lane := if x.slt y then x else y
def lMax (x y : Lane) : Lane := if x.slt y then y else x
def lMinu (x y : Lane) : Lane := if x.ult y then x else y
def lMaxu (x y : Lane) : Lane := if x.ult y then y else x
def lSll (x y : Lane) : Lane := x <<< (y.toNat % 32)
def lSrl (x y : Lane) : Lane := x >>> (y.toNat % 32)
def lSra (x y : Lane) : Lane := x.sshiftRight (y.toNat % 32)

def execVaddI32 (d a b : BitVec 5) (q g : BitVec 3) : State → Out := vi2 d a b q g 2 (· + ·)
def execVsubI32 (d a b : BitVec 5) (q g : BitVec 3) : State → Out := vi2 d a b q g 2 (· - ·)
def execVmulI32 (d a b : BitVec 5) (q g : BitVec 3) : State → Out := vi2 d a b q g 4 (· * ·)
def execVmulhI32 (d a b : BitVec 5) (q g : BitVec 3) : State → Out := vi2 d a b q g 4 lMulh
def execVminI32 (d a b : BitVec 5) (q g : BitVec 3) : State → Out := vi2 d a b q g 2 lMin
def execVmaxI32 (d a b : BitVec 5) (q g : BitVec 3) : State → Out := vi2 d a b q g 2 lMax
def execVminuI32 (d a b : BitVec 5) (q g : BitVec 3) : State → Out := vi2 d a b q g 2 lMinu
def execVmaxuI32 (d a b : BitVec 5) (q g : BitVec 3) : State → Out := vi2 d a b q g 2 lMaxu
def execVand (d a b : BitVec 5) (q g : BitVec 3) : State → Out := vi2 d a b q g 2 (· &&& ·)
def execVor (d a b : BitVec 5) (q g : BitVec 3) : State → Out := vi2 d a b q g 2 (· ||| ·)
def execVxor (d a b : BitVec 5) (q g : BitVec 3) : State → Out := vi2 d a b q g 2 (· ^^^ ·)
def execVandn (d a b : BitVec 5) (q g : BitVec 3) : State → Out := vi2 d a b q g 2 fun x y => x &&& ~~~y
def execVsll (d a b : BitVec 5) (q g : BitVec 3) : State → Out := vi2 d a b q g 2 lSll
def execVsrl (d a b : BitVec 5) (q g : BitVec 3) : State → Out := vi2 d a b q g 2 lSrl
def execVsra (d a b : BitVec 5) (q g : BitVec 3) : State → Out := vi2 d a b q g 2 lSra

/-- The 1 bits of a lane (R150). -/
def lPopc (x : Lane) : Lane := BitVec.ofNat 32 ((upto 0 32).foldl (fun n j => n + b2n (x.getLsbD j)) 0)
/-- Leading zeros, 32 for a zero lane. -/
def lClz (x : Lane) : Lane := if x = 0 then 32 else BitVec.ofNat 32 (31 - Nat.log2 x.toNat)
/-- The bits in reverse order. -/
def lBrev (x : Lane) : Lane := BitVec.ofNat 32 (maskBits (fun j => x.getLsbD (31 - j)) 32)

def execVpopc (d a : BitVec 5) (q g : BitVec 3) : State → Out := vi1 d a q g lPopc
def execVclz (d a : BitVec 5) (q g : BitVec 3) : State → Out := vi1 d a q g lClz
def execVbrev (d a : BitVec 5) (q g : BitVec 3) : State → Out := vi1 d a q g lBrev

def execVcmpI32 (d : BitVec 4) (a b : BitVec 5) (c q g : BitVec 3) (s : State) : Out :=
  issue s { fV g with wf := c.toNat ≤ 5 } fun s =>
    .ok (s.writeQ d.toNat (laneMask (fun i => s.active q.toNat i && vcmpICond c.toNat (s.rv a.toNat i) (s.rv b.toNat i 1))) 3)

/-- A mask form (R152): all 64 bits, whatever vl is. -/
def maskOp (d a b : BitVec 4) (g : BitVec 3) (f : Word → Word → Word) (s : State) : Out :=
  issue s (fV g) fun s => .ok (s.writeQ d.toNat (f (s.rq a.toNat) (s.rq b.toNat 1)) 1)

def execQand (d a b : BitVec 4) (g : BitVec 3) : State → Out := maskOp d a b g (· &&& ·)
def execQor (d a b : BitVec 4) (g : BitVec 3) : State → Out := maskOp d a b g (· ||| ·)
def execQxor (d a b : BitVec 4) (g : BitVec 3) : State → Out := maskOp d a b g (· ^^^ ·)
def execQandn (d a b : BitVec 4) (g : BitVec 3) : State → Out := maskOp d a b g fun x y => x &&& ~~~y
def execQnot (d a b : BitVec 4) (g : BitVec 3) : State → Out := maskOp d a b g fun x _ => ~~~x
def execQmov (d a b : BitVec 4) (g : BitVec 3) : State → Out := maskOp d a b g fun x _ => x

/-- Three lanes combined bit by bit through a truth table (R153), va's bit most significant. -/
def lut3 (tbl : Nat) (x y z : Lane) : Lane :=
  BitVec.ofNat 32 (maskBits (fun j => bit tbl (4 * b2n (x.getLsbD j) + 2 * b2n (y.getLsbD j) + b2n (z.getLsbD j))) 32)

def execVlut3 (d a b c : BitVec 5) (g : BitVec 3) (s : State) : Out :=
  issue s { fV g (subUnless ((s.extBits.getD 0) < 256) subRSVFIELD) with ext := true, needExt := true } fun s =>
    .ok (s.landInt d.toNat (s.active 0) (fun i => lut3 ((s.extBits.getD 0) % 256) (s.rv a.toNat i) (s.rv b.toNat i 1) (s.rv c.toNat i 2)) 2)

/-- concat(x, y). -/
def pair64 (x y : Lane) : Nat := x.toNat * 2 ^ 32 + y.toNat

/-- Bits [63:32] of concat(x, y) shifted left by n (R154). -/
def funnelL (x y : Lane) (n : Nat) : Lane := BitVec.ofNat 32 (pair64 x y * 2 ^ n / 2 ^ 32)
/-- Bits [31:0] of concat(x, y) shifted right by n. -/
def funnelR (x y : Lane) (n : Nat) : Lane := BitVec.ofNat 32 (pair64 x y / 2 ^ n)

/-- A form of class VI that acts lane by lane. -/
def viImm (d a b : BitVec 5) (i : BitVec 6) (g : BitVec 3) (lim : Nat) (f : Lane → Lane → Nat → Lane) (s : State) : Out :=
  issue s (fV g (subUnless (i.toNat ≤ lim) subIMMRANGE)) fun s =>
    .ok (s.landInt d.toNat (s.active 0) (fun l => f (s.rv a.toNat l) (s.rv b.toNat l 1) i.toNat) 2)

def execVfsl (d a b : BitVec 5) (i : BitVec 6) (g : BitVec 3) : State → Out := viImm d a b i g 32 funnelL
def execVfsr (d a b : BitVec 5) (i : BitVec 6) (g : BitVec 3) : State → Out := viImm d a b i g 32 funnelR
def execVrotl (d a : BitVec 5) (i : BitVec 6) (g : BitVec 3) : State → Out := viImm d a a i g 31 fun x _ n => funnelL x x n

end Sys2Proof.Machine
end

