-- ==== Sys2Proof/Machine/VecMove.lean ====
section
/-! DEFINITION. Lane movement (R155 to R158), `vsetvl` (R159), and the conversions (R166 to R168, R56). -/

namespace Sys2Proof.Machine

/-! ### Lane movement -/

/-- Lane k of the sequence first[0..vl-1], second[0..vl-1] (R155). -/
def State.twoRegs (s : State) (first second k : Nat) : Lane := if k < s.rvl then s.rv first k else s.rv second (k - s.rvl) 1

/-- The lanes of `vslideup`. -/
def State.slideUp (s : State) (a b n i : Nat) : Lane := if s.rvl + i < n then 0 else s.twoRegs b a (s.rvl + i - n)

/-- The lanes of `vslidedn`. -/
def State.slideDn (s : State) (a b n i : Nat) : Lane := if i + n < 2 * s.rvl then s.twoRegs a b (i + n) else 0

/-- A form of class VI that moves whole lanes. -/
def viMove (d : BitVec 5) (g : BitVec 3) (f : State → Nat → Lane) (s : State) : Out :=
  issue s (fV g) fun s => .ok (s.landInt d.toNat (s.active 0) (f s) 4)

def execVslideup (d a b : BitVec 5) (i : BitVec 6) (g : BitVec 3) : State → Out := viMove d g fun s => s.slideUp a.toNat b.toNat i.toNat
def execVslidedn (d a b : BitVec 5) (i : BitVec 6) (g : BitVec 3) : State → Out := viMove d g fun s => s.slideDn a.toNat b.toNat i.toNat

def execVperm (d a b : BitVec 5) (q g : BitVec 3) (s : State) : Out :=
  issue s (fV g) fun s => .ok (s.landInt d.toNat (s.active q.toNat) (fun i => s.rv a.toNat ((s.rv b.toNat i 1).toNat % 64)) 4)

def execVsel (d a b : BitVec 5) (q g : BitVec 3) (s : State) : Out :=
  issue s (fV g) fun s =>
    .ok (s.landInt d.toNat (s.active 0) (fun i => if (s.rq q.toNat).getLsbD i then s.rv a.toNat i else s.rv b.toNat i 1) 2)

/-- The lanes `vpart` writes in order (R157): those below vl whose bit is 1, then the others. -/
def partOrder (vl : Nat) (q : Word) : List Nat := (upto 0 vl).filter (fun i => q.getLsbD i) ++ (upto 0 vl).filter (fun i => !q.getLsbD i)

def execVpart (d a : BitVec 5) (q g : BitVec 3) (s : State) : Out :=
  issue s (fV g) fun s =>
    .ok (s.landInt d.toNat (s.active 0) (fun i => s.rv a.toNat ((partOrder s.rvl (s.rq q.toNat)).getD i 0)) 6)

def execVmv (d a : BitVec 5) (x : BitVec 6) (g : BitVec 3) (s : State) : Out :=
  issue s (fV g (s.regs [x.toNat])) fun s =>
    let w := s.rx x.toNat
    .ok (s.landInt d.toNat (s.active 0) (fun i => if i = bits w.toNat 32 6 then BitVec.ofNat 32 w.toNat else s.rv a.toNat i) 2)

def execVbcast (d : BitVec 5) (x : BitVec 6) (g : BitVec 3) (s : State) : Out :=
  issue s (fV g (s.regs [x.toNat])) fun s => .ok (s.landInt d.toNat (s.active 0) (fun _ => BitVec.ofNat 32 (s.rx x.toNat).toNat) 2)

def execVsetvlImm (i : BitVec 7) (g : BitVec 3) (s : State) : Out :=
  issue s (fV g (subUnless (1 ≤ i.toNat && i.toNat ≤ 64) subIMMRANGE)) fun s => .ok (s.landVL i.toNat 1)

def execVsetvlReg (a : BitVec 6) (g : BitVec 3) (s : State) : Out :=
  issue s (fV g (s.regs [a.toNat])) fun s => .ok (s.landVL (min (max (s.rx a.toNat).toNat 1) 64) 1)

/-! ### Conversions -/

/-- Formats a vector conversion may name (R166). -/
def cvtCode (c : Nat) : Bool := c = 1 || c = 2 || c = 3 || c = 4 || c = 5 || isBinary8 c

/-- Element j of a packed register (R54): `lane` gives the register's lanes. -/
def elemAt (w : Nat) (lane : Nat → Lane) (j : Nat) : Nat :=
  let n := 32 / w
  (lane (j / n)).toNat / 2 ^ (w * (j % n)) % 2 ^ w

/-- A lane with the elements that `f` gives put in place of its old bits, from element `e` of the lane on. -/
def packLane (w n : Nat) (f : Nat → Option Nat) (l : Nat) (old : Nat) : Nat → Nat
  | 0 => 0
  | k + 1 =>
    let e := n - (k + 1)
    let x := match f (l * n + e) with
      | some v => v % 2 ^ w
      | none => old / 2 ^ (w * e) % 2 ^ w
    x * 2 ^ (w * e) + packLane w n f l old k

/-- Whether a lane holds any element that `f` gives. -/
def packTouched (n : Nat) (f : Nat → Option Nat) (l : Nat) : Bool := (upto (l * n) n).any (fun j => (f j).isSome)

/-- Packed elements landed in vd, the other bits of the lanes they touch taken from the read at issue (R143). -/
def State.landPacked (s : State) (d w : Nat) (f : Nat → Option Nat) (lmax k : Nat) : State :=
  let n := 32 / w
  s.landV d (fun l => if packTouched n f l then some (BitVec.ofNat 32 (packLane w n f l (s.rv d l k).toNat n)) else none) lmax

/-- One element of a conversion from f32 (R166), in a rounding mode. -/
def State.cvtElem (s : State) (fc rnd : Nat) (w : Lane) (j : Nat) : Nat × Flags :=
  let x := laneIn s.flush w
  let r := roundTo fc x.1 rnd s.row.sat s.flush (s.vsr s.row.slot j)
  (r.1, x.2 ||| r.2)

/-- `vcvt.to` and `vsrc` landed. -/
def State.cvtTo (s : State) (d a fc q rnd : Nat) : State :=
  let on := s.active q
  let f := fun j => s.cvtElem fc rnd (s.rv a j) j
  let s1 := s.landPacked d (fmtOf fc).width (fun j => if on j then some (f j).1 else none) 6 1
  (s1.orFlags (lanesFlags on (fun j => (0, (f j).2)) (upto 0 64))).srStep (rnd = 4)

/-- The form of the conversions: an inadmissible format code is IMMRANGE. -/
def cvtForm (f : BitVec 6) (g : BitVec 3) : Form := fVF g (subUnless (cvtCode f.toNat) subIMMRANGE)

def execVcvtTo (d a : BitVec 5) (f : BitVec 6) (q g : BitVec 3) (s : State) : Out :=
  issue s (cvtForm f g) fun s => .ok (s.cvtTo d.toNat a.toNat f.toNat q.toNat s.row.rnd)

def execVsrc (d a : BitVec 5) (f : BitVec 6) (q g : BitVec 3) (s : State) : Out :=
  issue s (cvtForm f g) fun s => .ok (s.cvtTo d.toNat a.toNat f.toNat q.toNat 4)

/-- One element converted to f32. -/
def State.fromElem (s : State) (fc a j : Nat) : LaneRes :=
  let x := flushIn fc s.flush (decodeF fc (elemAt (fmtOf fc).width (fun l => s.rv a l) j))
  roundLane s.row s.flush (s.vsr s.row.slot j) x.1 x.2

def execVcvtFrom (d a : BitVec 5) (f : BitVec 6) (q g : BitVec 3) (s : State) : Out :=
  issue s (cvtForm f g) fun s => .ok (s.landFloat d.toNat (s.active q.toNat) (s.fromElem f.toNat a.toNat) 6 s.sr)

/-! ### `vmxq` (R56, R168) -/

/-- The element format of an MX format, the exponent of its unit and emax (R49, R50, Table 3.4). -/
def mxBlock (c : Nat) : Nat × Int × Int :=
  match c with
  | 0x20 => (0x06, 0, 2)
  | 0x21 => (0x05, -2, 0)
  | 0x22 => (0x04, -6, 0)
  | 0x23 => (0x0A, 0, 15)
  | _ => (0x0B, 0, 7)

/-- A block element of an integer format: rounded, saturated at the same bound for both signs, zero as +0. -/
def mxInt (width : Nat) (neg : Bool) (m : Nat) (e : Int) (mode h24 : Nat) : Nat × Flags :=
  let top := 2 ^ (width - 1) - 1
  let r := roundAt 2 mode neg m e 0 h24
  let v := min r.1 top
  (if neg then (2 ^ width - v) % 2 ^ width else v, if top < r.1 then fOF ||| fNX else if r.2 then fNX else 0)

/-- A block element x / 2^s (R56): its code and flags. -/
def mxElement (c : Nat) (v : FVal) (scale : Int) (mode : Nat) (flush : Bool) (h24 : Nat) : Nat × Flags :=
  let b := mxBlock c
  match v with
  | .fin neg m e =>
    if (fmtOf b.1).int then mxInt (fmtOf b.1).width neg m (e - scale - b.2.1) mode h24
    else roundTo b.1 (.fin neg m (e - scale)) mode true flush h24
  | _ => (0, 0)

/-- The largest binade of a block's inputs; none when all are zero. -/
def blockMax : List FVal → Option Int
  | [] => none
  | v :: t =>
    let here := match v with
      | .fin _ m e => if m = 0 then none else some (e + (Nat.log2 m : Nat))
      | _ => none
    match here, blockMax t with
    | some x, some y => some (max x y)
    | some x, none => some x
    | none, r => r

/-- The exponent clamp(⌊log2 M⌋ − emax, −127, 127). -/
def mxScale (c : Nat) (top : Int) : Int := max (-127) (min 127 (top - (mxBlock c).2.2))

/-- The flags of a block that holds an infinity or a NaN (R386): every element is written as NaN, which is invalid where no input was NaN, and an
infinite input to a format without infinities is an overflow. -/
def mxSpecial (vs : List FVal) : Flags := (if vs.contains .nan then 0 else fNV) ||| (if vs.any (fun v => fSpecial v && v ≠ .nan) then fOF else 0)

/-- A block quantised: its scale code, and each element's code and flags; `j0` is the index of its first element. -/
def mxQuant (c : Nat) (vs : List FVal) (mode : Nat) (flush : Bool) (h24 : Nat → Nat) (j0 : Nat) : Nat × List (Nat × Flags) :=
  if vs.any fSpecial then (0xFF, vs.map (fun _ => (0, mxSpecial vs)))
  else match blockMax vs with
    | none => (0, vs.map (fun _ => (0, 0)))
    | some top =>
      let sc := mxScale c top
      ((sc + 127).toNat, (vs.zip (upto j0 vs.length)).map (fun q => mxElement c q.1 sc mode flush (h24 q.2)))

/-- One block of `vmxq`. -/
def State.mxqBlock (s : State) (c a bs b : Nat) : Nat × List (Nat × Flags) :=
  let v := fun j => if j < s.rvl then (laneIn s.flush (s.rv a j)).1 else .fin false 0 0
  mxQuant c ((upto (b * bs) bs).map v) s.row.rnd s.flush (fun j => s.vsr s.row.slot j) (b * bs)

/-- `vmxq` landed: elements into vd, then scale bytes into lane 0 of vs. -/
def State.mxq (s : State) (d a vs c : Nat) : State :=
  let bs := if s.row.b16 then 16 else 32
  let nb := (s.rvl + bs - 1) / bs
  let blocks := (upto 0 nb).map (s.mxqBlock c a bs)
  let w := (fmtOf (mxBlock c).1).width
  let elem := fun j => ((blocks.getD (j / bs) (0, [])).2.getD (j % bs) (0, 0))
  let s1 := s.landPacked d w (fun j => if j < nb * bs then some (elem j).1 else none) 12 1
  let old := if vs = d then (if packTouched (32 / w) (fun j => if j < nb * bs then some 0 else none) 0
      then packLane w (32 / w) (fun j => if j < nb * bs then some (elem j).1 else none) 0 (s.rv d 0 1).toNat (32 / w) else (s.rv d 0 1).toNat)
    else (s.rv vs 0 2).toNat
  let scales := packLane 8 4 (fun b => if b < nb then some (blocks.getD b (0, [])).1 else none) 0 old 4
  let s2 := s1.landV vs (fun l => if l = 0 then some (BitVec.ofNat 32 scales) else none) 12
  let inFl := lanesFlags (fun j => decide (j < s.rvl)) (fun j => laneIn2 s.flush (s.rv a j)) (upto 0 64)
  let fl := (upto 0 64).foldl (fun f j => if j < nb * bs then f ||| (elem j).2 else f) inFl
  (s2.orFlags fl).srStep s.sr
where
  laneIn2 (flush : Bool) (w : Lane) : LaneRes := (w, (laneIn flush w).2)

def execVmxq (d a vs : BitVec 5) (f : BitVec 6) (g : BitVec 3) (s : State) : Out :=
  issue s (fVF g (subUnless (0x20 ≤ f.toNat && f.toNat ≤ 0x24) subIMMRANGE)) fun s => .ok (s.mxq d.toNat a.toNat vs.toNat f.toNat)

end Sys2Proof.Machine
end

