-- ==== Sys2Proof/Machine/Dispatch.lean ====
section
/-! DEFINITION. exec: one arm per constructor of Instr, each a direct call of that instruction's meaning. -/

namespace Sys2Proof.Machine

def exec (i : Instr) (s : State) : Host.Outcome State Fault Refusal :=
  match i with
  | .nop16 => Sys2Proof.Machine.execNop16 s
  | .mv16 a d => Sys2Proof.Machine.execMv16 a d s
  | .add16 a d => Sys2Proof.Machine.execAdd16 a d s
  | .sub16 a d => Sys2Proof.Machine.execSub16 a d s
  | .addi16 imm d => Sys2Proof.Machine.execAddi16 imm d s
  | .li16 imm d => Sys2Proof.Machine.execLi16 imm d s
  | .ext n => Sys2Proof.Machine.execExt n s
  | .fmt n => Sys2Proof.Machine.execFmt n s
  | .add d a b g => Sys2Proof.Machine.execAdd d a b g s
  | .sub d a b g => Sys2Proof.Machine.execSub d a b g s
  | .and d a b g => Sys2Proof.Machine.execAnd d a b g s
  | .or d a b g => Sys2Proof.Machine.execOr d a b g s
  | .xor d a b g => Sys2Proof.Machine.execXor d a b g s
  | .sll d a b g => Sys2Proof.Machine.execSll d a b g s
  | .srl d a b g => Sys2Proof.Machine.execSrl d a b g s
  | .sra d a b g => Sys2Proof.Machine.execSra d a b g s
  | .mul d a b g => Sys2Proof.Machine.execMul d a b g s
  | .mulh d a b g => Sys2Proof.Machine.execMulh d a b g s
  | .mulhu d a b g => Sys2Proof.Machine.execMulhu d a b g s
  | .min d a b g => Sys2Proof.Machine.execMin d a b g s
  | .max d a b g => Sys2Proof.Machine.execMax d a b g s
  | .minu d a b g => Sys2Proof.Machine.execMinu d a b g s
  | .maxu d a b g => Sys2Proof.Machine.execMaxu d a b g s
  | .addi d a imm g => Sys2Proof.Machine.execAddi d a imm g s
  | .andi d a imm g => Sys2Proof.Machine.execAndi d a imm g s
  | .ori d a imm g => Sys2Proof.Machine.execOri d a imm g s
  | .xori d a imm g => Sys2Proof.Machine.execXori d a imm g s
  | .slli d a x g => Sys2Proof.Machine.execSlli d a x g s
  | .srli d a x g => Sys2Proof.Machine.execSrli d a x g s
  | .srai d a x g => Sys2Proof.Machine.execSrai d a x g s
  | .lui d imm g => Sys2Proof.Machine.execLui d imm g s
  | .cmp p a b c g => Sys2Proof.Machine.execCmp p a b c g s
  | .cmpi p c a imm g => Sys2Proof.Machine.execCmpi p c a imm g s
  | .pand d a b g => Sys2Proof.Machine.execPand d a b g s
  | .por d a b g => Sys2Proof.Machine.execPor d a b g s
  | .pxor d a b g => Sys2Proof.Machine.execPxor d a b g s
  | .pandn d a b g => Sys2Proof.Machine.execPandn d a b g s
  | .pnot d a b g => Sys2Proof.Machine.execPnot d a b g s
  | .ld d b w imm g => Sys2Proof.Machine.execLd d b w imm g s
  | .ldSp d b w imm g => Sys2Proof.Machine.execLdSp d b w imm g s
  | .st d b w imm g => Sys2Proof.Machine.execSt d b w imm g s
  | .stSp d b w imm g => Sys2Proof.Machine.execStSp d b w imm g s
  | .atom d b o z c g => Sys2Proof.Machine.execAtom d b o z c g s
  | .cas d b z c g => Sys2Proof.Machine.execCas d b z c g s
  | .atomSp d b o z c g => Sys2Proof.Machine.execAtomSp d b o z c g s
  | .casSp d b z c g => Sys2Proof.Machine.execCasSp d b z c g s
  | .fence x g => Sys2Proof.Machine.execFence x g s
  | .flsig d a g => Sys2Proof.Machine.execFlsig d a g s
  | .tkwait d a g => Sys2Proof.Machine.execTkwait d a g s
  | .pbr b o g => Sys2Proof.Machine.execPbr b o g s
  | .br b p g => Sys2Proof.Machine.execBr b p g s
  | .brL b p g => Sys2Proof.Machine.execBrL b p g s
  | .pbrR b a g => Sys2Proof.Machine.execPbrR b a g s
  | .evterm t x l e h g => Sys2Proof.Machine.execEvterm t x l e h g s
  | .evinc x imm g => Sys2Proof.Machine.execEvinc x imm g s
  | .evwait x g => Sys2Proof.Machine.execEvwait x g s
  | .barArrive d a b g => Sys2Proof.Machine.execBarArrive d a b g s
  | .barWait d a b g => Sys2Proof.Machine.execBarWait d a b g s
  | .barWait4 d a b g => Sys2Proof.Machine.execBarWait4 d a b g s
  | .flagAdd d a b g => Sys2Proof.Machine.execFlagAdd d a b g s
  | .flagWait d a b g => Sys2Proof.Machine.execFlagWait d a b g s
  | .chunk d a b g => Sys2Proof.Machine.execChunk d a b g s
  | .tlaunch d a b g => Sys2Proof.Machine.execTlaunch d a b g s
  | .tdone a g => Sys2Proof.Machine.execTdone a g s
  | .tsignal g => Sys2Proof.Machine.execTsignal g s
  | .vaddF32 d a b q g => Sys2Proof.Machine.execVaddF32 d a b q g s
  | .vsubF32 d a b q g => Sys2Proof.Machine.execVsubF32 d a b q g s
  | .vmulF32 d a b q g => Sys2Proof.Machine.execVmulF32 d a b q g s
  | .vminF32 d a b q g => Sys2Proof.Machine.execVminF32 d a b q g s
  | .vmaxF32 d a b q g => Sys2Proof.Machine.execVmaxF32 d a b q g s
  | .vabsF32 d a q g => Sys2Proof.Machine.execVabsF32 d a q g s
  | .vnegF32 d a q g => Sys2Proof.Machine.execVnegF32 d a q g s
  | .vaddI32 d a b q g => Sys2Proof.Machine.execVaddI32 d a b q g s
  | .vsubI32 d a b q g => Sys2Proof.Machine.execVsubI32 d a b q g s
  | .vmulI32 d a b q g => Sys2Proof.Machine.execVmulI32 d a b q g s
  | .vmulhI32 d a b q g => Sys2Proof.Machine.execVmulhI32 d a b q g s
  | .vminI32 d a b q g => Sys2Proof.Machine.execVminI32 d a b q g s
  | .vmaxI32 d a b q g => Sys2Proof.Machine.execVmaxI32 d a b q g s
  | .vminuI32 d a b q g => Sys2Proof.Machine.execVminuI32 d a b q g s
  | .vmaxuI32 d a b q g => Sys2Proof.Machine.execVmaxuI32 d a b q g s
  | .vand d a b q g => Sys2Proof.Machine.execVand d a b q g s
  | .vor d a b q g => Sys2Proof.Machine.execVor d a b q g s
  | .vxor d a b q g => Sys2Proof.Machine.execVxor d a b q g s
  | .vandn d a b q g => Sys2Proof.Machine.execVandn d a b q g s
  | .vsll d a b q g => Sys2Proof.Machine.execVsll d a b q g s
  | .vsrl d a b q g => Sys2Proof.Machine.execVsrl d a b q g s
  | .vsra d a b q g => Sys2Proof.Machine.execVsra d a b q g s
  | .vfmaF32 d a b c g => Sys2Proof.Machine.execVfmaF32 d a b c g s
  | .vfmsF32 d a b c g => Sys2Proof.Machine.execVfmsF32 d a b c g s
  | .vfnmaF32 d a b c g => Sys2Proof.Machine.execVfnmaF32 d a b c g s
  | .vfnmsF32 d a b c g => Sys2Proof.Machine.execVfnmsF32 d a b c g s
  | .vrcp d a q g => Sys2Proof.Machine.execVrcp d a q g s
  | .vrsqrt d a q g => Sys2Proof.Machine.execVrsqrt d a q g s
  | .vexp2 d a q g => Sys2Proof.Machine.execVexp2 d a q g s
  | .vlog2 d a q g => Sys2Proof.Machine.execVlog2 d a q g s
  | .vcmpF32 d a b c q g => Sys2Proof.Machine.execVcmpF32 d a b c q g s
  | .vcmpI32 d a b c q g => Sys2Proof.Machine.execVcmpI32 d a b c q g s
  | .vlut3 d a b c g => Sys2Proof.Machine.execVlut3 d a b c g s
  | .vfsl d a b imm g => Sys2Proof.Machine.execVfsl d a b imm g s
  | .vfsr d a b imm g => Sys2Proof.Machine.execVfsr d a b imm g s
  | .vrotl d a imm g => Sys2Proof.Machine.execVrotl d a imm g s
  | .vpopc d a q g => Sys2Proof.Machine.execVpopc d a q g s
  | .vclz d a q g => Sys2Proof.Machine.execVclz d a q g s
  | .vbrev d a q g => Sys2Proof.Machine.execVbrev d a q g s
  | .vpart d a q g => Sys2Proof.Machine.execVpart d a q g s
  | .vgath v imm b x q g => Sys2Proof.Machine.execVgath v imm b x q g s
  | .vscat v imm b x q g => Sys2Proof.Machine.execVscat v imm b x q g s
  | .vld32 v b x q g => Sys2Proof.Machine.execVld32 v b x q g s
  | .vldB v b x q g => Sys2Proof.Machine.execVldB v b x q g s
  | .vst32 v b x q g => Sys2Proof.Machine.execVst32 v b x q g s
  | .vslideup d a b imm g => Sys2Proof.Machine.execVslideup d a b imm g s
  | .vslidedn d a b imm g => Sys2Proof.Machine.execVslidedn d a b imm g s
  | .vperm d a b q g => Sys2Proof.Machine.execVperm d a b q g s
  | .vred d a m q g => Sys2Proof.Machine.execVred d a m q g s
  | .vscan d a m q g => Sys2Proof.Machine.execVscan d a m q g s
  | .vcvtTo d a f q g => Sys2Proof.Machine.execVcvtTo d a f q g s
  | .vcvtFrom d a f q g => Sys2Proof.Machine.execVcvtFrom d a f q g s
  | .vmxq d a x f g => Sys2Proof.Machine.execVmxq d a x f g s
  | .vsrc d a f q g => Sys2Proof.Machine.execVsrc d a f q g s
  | .qand d a b g => Sys2Proof.Machine.execQand d a b g s
  | .qor d a b g => Sys2Proof.Machine.execQor d a b g s
  | .qxor d a b g => Sys2Proof.Machine.execQxor d a b g s
  | .qandn d a b g => Sys2Proof.Machine.execQandn d a b g s
  | .qnot d a b g => Sys2Proof.Machine.execQnot d a b g s
  | .qmov d a b g => Sys2Proof.Machine.execQmov d a b g s
  | .vsetvlImm imm g => Sys2Proof.Machine.execVsetvlImm imm g s
  | .vsetvlReg a g => Sys2Proof.Machine.execVsetvlReg a g s
  | .vmv d a x g => Sys2Proof.Machine.execVmv d a x g s
  | .vbcast d x g => Sys2Proof.Machine.execVbcast d x g s
  | .vsel d a b q g => Sys2Proof.Machine.execVsel d a b q g s
  | .mnest l f a g => Sys2Proof.Machine.execMnest l f a g s
  | .mopa b x p t g => Sys2Proof.Machine.execMopa b x p t g s
  | .mopb b x p t g => Sys2Proof.Machine.execMopb b x p t g s
  | .mopm b x p t g => Sys2Proof.Machine.execMopm b x p t g s
  | .mma k f g => Sys2Proof.Machine.execMma k f g s
  | .mmas k f g => Sys2Proof.Machine.execMmas k f g s
  | .mgo k f g => Sys2Proof.Machine.execMgo k f g s
  | .mfmt d a b g => Sys2Proof.Machine.execMfmt d a b g s
  | .mfmtPool a b g => Sys2Proof.Machine.execMfmtPool a b g s
  | .mfmtcommit g => Sys2Proof.Machine.execMfmtcommit g s
  | .chbuild c a f g => Sys2Proof.Machine.execChbuild c a f g s
  | .chclose c a b f g => Sys2Proof.Machine.execChclose c a b f g s
  | .chstat c a g => Sys2Proof.Machine.execChstat c a g s
  | .chsplice c a b g => Sys2Proof.Machine.execChsplice c a b g s
  | .chhalt c g => Sys2Proof.Machine.execChhalt c g s
  | .chthaw c g => Sys2Proof.Machine.execChthaw c g s
  | .chrel c g => Sys2Proof.Machine.execChrel c g s
  | .chread c a b f g => Sys2Proof.Machine.execChread c a b f g s
  | .cp d x p q n g => Sys2Proof.Machine.execCp d x p q n g s
  | .cpR d x p q l g => Sys2Proof.Machine.execCpR d x p q l g s
  | .cpD2d d x g => Sys2Proof.Machine.execCpD2d d x g s
  | .cpD3d d x g => Sys2Proof.Machine.execCpD3d d x g s
  | .cpDCvt d x g => Sys2Proof.Machine.execCpDCvt d x g s
  | .cpDGath d x g => Sys2Proof.Machine.execCpDGath d x g s
  | .cpDScat d x g => Sys2Proof.Machine.execCpDScat d x g s
  | .cpDFill d x g => Sys2Proof.Machine.execCpDFill d x g s
  | .cpDRemote d x g => Sys2Proof.Machine.execCpDRemote d x g s
  | .stmap d a b g => Sys2Proof.Machine.execStmap d a b g s
  | .stunmap d g => Sys2Proof.Machine.execStunmap d g s
  | .stflush d a g => Sys2Proof.Machine.execStflush d a g s
  | .stinv d a g => Sys2Proof.Machine.execStinv d a g s
  | .barArriveD a b g => Sys2Proof.Machine.execBarArriveD a b g s
  | .hlaunch a b g => Sys2Proof.Machine.execHlaunch a b g s
  | .hstop g => Sys2Proof.Machine.execHstop g s
  | .hstat d g => Sys2Proof.Machine.execHstat d g s
  | .hcp kind doff => Sys2Proof.Machine.execHcp kind doff s
  | .hwait land t => Sys2Proof.Machine.execHwait land t s
  | .hloop back cnt sadv dadv => Sys2Proof.Machine.execHloop back cnt sadv dadv s
  | .hflag land raiseEn e value => Sys2Proof.Machine.execHflag land raiseEn e value s
  | .hjmp off => Sys2Proof.Machine.execHjmp off s
  | .hend value => Sys2Proof.Machine.execHend value s
  | .hballoc d a b g => Sys2Proof.Machine.execHballoc d a b g s
  | .hbgate a b g => Sys2Proof.Machine.execHbgate a b g s
  | .hbpoll d a g => Sys2Proof.Machine.execHbpoll d a g s
  | .hbrel a g => Sys2Proof.Machine.execHbrel a g s
  | .hbstat d a g => Sys2Proof.Machine.execHbstat d a g s
  | .hbcfg d a g => Sys2Proof.Machine.execHbcfg d a g s
  | .hbput d a b g => Sys2Proof.Machine.execHbput d a b g s
  | .prgrad d a b g => Sys2Proof.Machine.execPrgrad d a b g s
  | .gdep d a b g => Sys2Proof.Machine.execGdep d a b g s
  | .prread d a b g => Sys2Proof.Machine.execPrread d a b g s
  | .gread d a b g => Sys2Proof.Machine.execGread d a b g s
  | .prsync d a b g => Sys2Proof.Machine.execPrsync d a b g s
  | .prrule d a b g => Sys2Proof.Machine.execPrrule d a b g s
  | .gspread p a b g => Sys2Proof.Machine.execGspread p a b g s
  | .gmass d a g => Sys2Proof.Machine.execGmass d a g s
  | .gcfg d a g => Sys2Proof.Machine.execGcfg d a g s
  | .csrr d c g => Sys2Proof.Machine.execCsrr d c g s
  | .csrw d c g => Sys2Proof.Machine.execCsrw d c g s
  | .trap a g => Sys2Proof.Machine.execTrap a g s
  | .eret g => Sys2Proof.Machine.execEret g s
  | .halt g => Sys2Proof.Machine.execHalt g s
  | .blockStart die core e => Sys2Proof.Machine.execBlockStart die core e s
  | .blockRaise die core e => Sys2Proof.Machine.execBlockRaise die core e s
  | .traceFreeze die core => Sys2Proof.Machine.execTraceFreeze die core s
  | .haltComplete die part => Sys2Proof.Machine.execHaltComplete die part s
  | .handlerStart die part => Sys2Proof.Machine.execHandlerStart die part s
  | .containment die part => Sys2Proof.Machine.execContainment die part s
  | .uncorrectableError die core e kind => Sys2Proof.Machine.execUncorrectableError die core e kind s
  | .memoryTimeout die core e => Sys2Proof.Machine.execMemoryTimeout die core e s
  | .switchOut die part full => Sys2Proof.Machine.execSwitchOut die part full s
  | .switchIn ctx => Sys2Proof.Machine.execSwitchIn ctx s
  | .matrixGroup die core => Sys2Proof.Machine.execMatrixGroup die core s
  | .hopArrival n => Sys2Proof.Machine.execHopArrival n s
  | .closeStart ctx chain => Sys2Proof.Machine.execCloseStart ctx chain s
  | .closeLand ctx chain => Sys2Proof.Machine.execCloseLand ctx chain s
  | .copyBeatGroup die core => Sys2Proof.Machine.execCopyBeatGroup die core s
  | .stashFill die core off => Sys2Proof.Machine.execStashFill die core off s
  | .stashSnoop die core off write => Sys2Proof.Machine.execStashSnoop die core off write s
  | .stashWriteback die core off => Sys2Proof.Machine.execStashWriteback die core off s
  | .qtailWrite die q v => Sys2Proof.Machine.execQtailWrite die q v s
  | .qbaseWrite die q v => Sys2Proof.Machine.execQbaseWrite die q v s
  | .qsizeWrite die q v => Sys2Proof.Machine.execQsizeWrite die q v s
  | .graphAdmit die => Sys2Proof.Machine.execGraphAdmit die s
  | .recordAdmit graph => Sys2Proof.Machine.execRecordAdmit graph s
  | .taskStart die part => Sys2Proof.Machine.execTaskStart die part s
  | .gangStart die part => Sys2Proof.Machine.execGangStart die part s
  | .preempt die part => Sys2Proof.Machine.execPreempt die part s
  | .taskRetire die core => Sys2Proof.Machine.execTaskRetire die core s
  | .reads n => Sys2Proof.Machine.execReads n s
  | .readx n => Sys2Proof.Machine.execReadx n s
  | .writeback die line => Sys2Proof.Machine.execWriteback die line s
  | .homeDieRead n => Sys2Proof.Machine.execHomeDieRead n s
  | .homeDieWrite n => Sys2Proof.Machine.execHomeDieWrite n s
  | .fwds n => Sys2Proof.Machine.execFwds n s
  | .fwdh n => Sys2Proof.Machine.execFwdh n s
  | .inv n => Sys2Proof.Machine.execInv n s
  | .entryEviction die line => Sys2Proof.Machine.execEntryEviction die line s
  | .postedStorePerformed die core home => Sys2Proof.Machine.execPostedStorePerformed die core home s
  | .storeAck n => Sys2Proof.Machine.execStoreAck n s
  | .dieLost die => Sys2Proof.Machine.execDieLost die s
  | .hbPutArrival src => Sys2Proof.Machine.execHbPutArrival src s
  | .hbTimeout die ctx slot => Sys2Proof.Machine.execHbTimeout die ctx slot s
  | .combineWrite die ctx slot => Sys2Proof.Machine.execCombineWrite die ctx slot s
  | .prArrival src => Sys2Proof.Machine.execPrArrival src s
  | .prUpdate record => Sys2Proof.Machine.execPrUpdate record s
  | .halving ctx line => Sys2Proof.Machine.execHalving ctx line s
  | .halfMerge port half => Sys2Proof.Machine.execHalfMerge port half s
  | .halfApplied port seq => Sys2Proof.Machine.execHalfApplied port seq s
  | .halfRefused port seq => Sys2Proof.Machine.execHalfRefused port seq s
  | .halfRetransmit ctx line => Sys2Proof.Machine.execHalfRetransmit ctx line s
  | .zynothPortFail port => Sys2Proof.Machine.execZynothPortFail port s
  | .zynothPortRetrain port applied => Sys2Proof.Machine.execZynothPortRetrain port applied s
  | .mbExport fn => Sys2Proof.Machine.execMbExport fn s
  | .mbImport fn => Sys2Proof.Machine.execMbImport fn s
  | .unimport fn => Sys2Proof.Machine.execUnimport fn s
  | .revoke fn => Sys2Proof.Machine.execRevoke fn s
  | .invaltr fn => Sys2Proof.Machine.execInvaltr fn s
  | .migrate fn frame => Sys2Proof.Machine.execMigrate fn frame s
  | .warmreset fn => Sys2Proof.Machine.execWarmreset fn s
  | .gresolve fn => Sys2Proof.Machine.execGresolve fn s
  | .ctxcreate fn => Sys2Proof.Machine.execCtxcreate fn s
  | .ctxdestroy fn => Sys2Proof.Machine.execCtxdestroy fn s
  | .keyload fn => Sys2Proof.Machine.execKeyload fn s
  | .keyclr fn => Sys2Proof.Machine.execKeyclr fn s
  | .manadd fn => Sys2Proof.Machine.execManadd fn s
  | .mansign fn => Sys2Proof.Machine.execMansign fn s
  | .imgpush fn => Sys2Proof.Machine.execImgpush fn s
  | .pwrlimit fn => Sys2Proof.Machine.execPwrlimit fn s
  | .featacceptWrite v => Sys2Proof.Machine.execFeatacceptWrite v s
  | .registerWrite fn off v => Sys2Proof.Machine.execRegisterWrite fn off v s
  | .powerGood => Sys2Proof.Machine.execPowerGood s
  | .dieAdmit die trained => Sys2Proof.Machine.execDieAdmit die trained s
  | .powerSample watts => Sys2Proof.Machine.execPowerSample watts s
  | .thermalSample temps => Sys2Proof.Machine.execThermalSample temps s
  | .coreAgeingCheck die core low => Sys2Proof.Machine.execCoreAgeingCheck die core low s
  | .savedContextReply die core e => Sys2Proof.Machine.execSavedContextReply die core e s
  | .flagAddArrival n => Sys2Proof.Machine.execFlagAddArrival n s
  | .deposit src => Sys2Proof.Machine.execDeposit src s
  | .acknowledgement n => Sys2Proof.Machine.execAcknowledgement n s
  | .cxlMemAccess fn addr write data => Sys2Proof.Machine.execCxlMemAccess fn addr write data s
  | .dieMapChange map => Sys2Proof.Machine.execDieMapChange map s
  | .l2ModeChange die priv => Sys2Proof.Machine.execL2ModeChange die priv s
  | .contextResume ctx => Sys2Proof.Machine.execContextResume ctx s
  | .powerLoss flash => Sys2Proof.Machine.execPowerLoss flash s

end Sys2Proof.Machine
end

