-- ==== Sys2Proof/Machine/Fetch.lean ====
section
/-! DEFINITION. The fetch of an instruction from its ring (R14, R75), illegal units (R88 to R92), and what each act of the tape does. -/

namespace Sys2Proof.Machine

/-- The streams that own a major opcode (Table 4.4); an unassigned one is refused by a lower subcode than its owner's. -/
def majorStreams (m : Nat) : List Eng :=
  if (0x30 ≤ m ∧ m ≤ 0x4D) then [.v]
  else if (0x60 ≤ m ∧ m ≤ 0x6C) then [.m]
  else if (0x70 ≤ m ∧ m ≤ 0x76) ∨ m = 0x79 then [.x]
  else if m = 0x0C ∨ m = 0x0E ∨ (0x10 ≤ m ∧ m ≤ 0x16) ∨ (0x1B ≤ m ∧ m ≤ 0x1D) ∨ (0x20 ≤ m ∧ m ≤ 0x23) ∨ m = 0x78 ∨ m = 0x7A ∨ m = 0x7C ∨ m = 0x7D then [.c]
  else allStreams

/-- Whether a major opcode accepts `ext`, and `fmt` (Table 4.4). -/
def majorExt (m : Nat) : Bool := (3 ≤ m && m ≤ 6) || m = 8 || m = 0x0A || (0x0C ≤ m && m ≤ 0x0F) || m = 0x18 || m = 0x1B || m = 0x38 || m = 0x40 || m = 0x41 || m = 0x70
def majorFmt (m : Nat) : Bool :=
  m = 0x30 || (0x33 ≤ m && m ≤ 0x35) || (0x45 ≤ m && m ≤ 0x49) || (0x62 ≤ m && m ≤ 0x64) || m = 0x68

/-- The feature that a major opcode and minor belong to (R90). -/
def majorFeature (m min_ : Nat) : Option Nat :=
  if m = 0x78 || (m = 0x79 && min_ = 0) then some 0
  else if (m = 0x79 && (min_ = 1 || min_ = 3)) || (m = 0x7A && min_ ≤ 1) then some 1
  else if (m = 0x79 && (min_ = 2 || min_ = 4)) || (m = 0x7A && 2 ≤ min_ && min_ ≤ 4) then some 2
  else if m = 0x63 then some 3
  else if m = 0x20 && min_ = 2 then some 4
  else none

/-- What the opcode map says of a word that is no instruction; `br.l` is C's alone (R116). -/
def wordForm (w : Nat) : Form :=
  if w % 2 = 0 then { streams := allStreams, len := 1 }
  else
    let m := bits w 1 7
    { streams := if m = 0x19 && bit w 25 then [.c] else majorStreams m, ext := majorExt m, fmt := majorFmt m, feature := majorFeature m (bits w 11 3), needExt := m = 0x38 }

/-- The word at the current stream's place. -/
def State.unitWord (s : State) : Nat := s.myCore.ringWord s.cur.eng (s.me.offAt s.me.pos)

/-- An illegal halfword or word at the stream's place. A `fmt` whose reserved bits are not zero is still a prefix: its unit traps, with
the lowest subcode of the whole (R92). -/
def badWord (e : DecodeErr) (w : Nat) (s : State) : Out :=
  if w % 64 = 0x3E then issuePrefix s true (bits w 6 6) true
  else if s.curOk = false then .fault .noEngine else .next (if s.mayIssue then s.illegal e.subcode (wordForm w) else s)

/-- The current stream's turn: nothing at its end, the header's check at a header, an instruction in a body. -/
def streamTurn (s : State) : Out :=
  match s.me.phase with
  | .ended => .next s
  | .header => exec (.blockStart s.cur.die s.cur.core s.cur.eng) s
  | .body => match decode s.unitWord with
    | .ok i => exec i s
    | .error e => badWord e s.unitWord s

/-- The helper's turn. -/
def helperTurn (die core : Nat) (s : State) : Out :=
  let s1 := { s with cur := ⟨die, core, .x⟩ }
  match s1.helperWord with
  | none => helperBad s1
  | some w => match decodeHelper w with
    | some i => exec i s1
    | none => helperBad s1

/-- Whether an instruction is one of the events of the opcode table, which no stream encodes. -/
def isEvent : Instr → Bool
  | .blockStart _ _ _ => true
  | .blockRaise _ _ _ => true
  | .traceFreeze _ _ => true
  | .haltComplete _ _ => true
  | .handlerStart _ _ => true
  | .containment _ _ => true
  | .uncorrectableError _ _ _ _ => true
  | .memoryTimeout _ _ _ => true
  | .switchOut _ _ _ => true
  | .switchIn _ => true
  | .matrixGroup _ _ => true
  | .hopArrival _ => true
  | .closeStart _ _ => true
  | .closeLand _ _ => true
  | .copyBeatGroup _ _ => true
  | .stashFill _ _ _ => true
  | .stashSnoop _ _ _ _ => true
  | .stashWriteback _ _ _ => true
  | .qtailWrite _ _ _ => true
  | .qbaseWrite _ _ _ => true
  | .qsizeWrite _ _ _ => true
  | .graphAdmit _ => true
  | .recordAdmit _ => true
  | .taskStart _ _ => true
  | .gangStart _ _ => true
  | .preempt _ _ => true
  | .taskRetire _ _ => true
  | .reads _ => true
  | .readx _ => true
  | .writeback _ _ => true
  | .homeDieRead _ => true
  | .homeDieWrite _ => true
  | .fwds _ => true
  | .fwdh _ => true
  | .inv _ => true
  | .entryEviction _ _ => true
  | .postedStorePerformed _ _ _ => true
  | .storeAck _ => true
  | .dieLost _ => true
  | .hbPutArrival _ => true
  | .hbTimeout _ _ _ => true
  | .combineWrite _ _ _ => true
  | .prArrival _ => true
  | .prUpdate _ => true
  | .halving _ _ => true
  | .halfMerge _ _ => true
  | .halfApplied _ _ => true
  | .halfRefused _ _ => true
  | .halfRetransmit _ _ => true
  | .zynothPortFail _ => true
  | .zynothPortRetrain _ _ => true
  | .mbExport _ => true
  | .mbImport _ => true
  | .unimport _ => true
  | .revoke _ => true
  | .invaltr _ => true
  | .migrate _ _ => true
  | .warmreset _ => true
  | .gresolve _ => true
  | .ctxcreate _ => true
  | .ctxdestroy _ => true
  | .keyload _ => true
  | .keyclr _ => true
  | .manadd _ => true
  | .mansign _ => true
  | .imgpush _ => true
  | .pwrlimit _ => true
  | .featacceptWrite _ => true
  | .registerWrite _ _ _ => true
  | .powerGood => true
  | .dieAdmit _ _ => true
  | .powerSample _ => true
  | .thermalSample _ => true
  | .coreAgeingCheck _ _ _ => true
  | .savedContextReply _ _ _ => true
  | .flagAddArrival _ => true
  | .deposit _ => true
  | .acknowledgement _ => true
  | .cxlMemAccess _ _ _ _ => true
  | .dieMapChange _ => true
  | .l2ModeChange _ _ => true
  | .contextResume _ => true
  | .powerLoss _ => true
  | _ => false

/-- An entry of a store queue performed, when its turn may come (R105, R278). -/
def drainTurn (die core n : Nat) (s : State) : Out :=
  event s (canDrain (s.coreAt die core).storeq n && !s.dieAway die) (fun s => s.drain die core n)

/-- One act of the tape. -/
def act (a : Act) (s : State) : Out :=
  match a with
  | .engine id => streamTurn { s with cur := id }
  | .event i => if isEvent i then exec i s else .next s
  | .helper die core => helperTurn die core s
  | .drain die core n => drainTurn die core n s
  | .cache ctx va => event s (s.ctxAt ctx).live (fun s => s.cacheVa ctx va)
  | .uncache n => event s true (fun s => { s with tlb := dropNth s.tlb n })
  | .hostWrite addr data => hostWriteTurn addr data s

/-- The next act and the state at its clk: the tape's first turn, else the current stream's as soon as its gap is over. -/
def State.nextAct (s : State) : Act × State :=
  match s.tape with
  | [] => (.engine s.cur, { s with now := max (s.now + 1) s.me.nextIssue })
  | t :: ts => (t.act, { s with tape := ts, now := s.now + t.dt })

/-- What has fallen due by a clk, before anything acts in it: landings (R36, R98, R119), then deferred arrivals (R262). -/
def State.clkStart (s : State) : State := s.landDue.settleAll

/-- The stream that owns a word: compact forms run in C, but `fmt` in V. -/
def ownerOf (w : Nat) : Eng := if w % 2 = 0 then (if bits w 1 5 = 0x1F then .v else .c) else (majorStreams (bits w 1 7)).headD .c

/-- A stream in the interlocked body of a block at the start of its ring, two halfwords long. -/
def fetchEngine (e : Engine) : Engine :=
  { e with ringBase := 0, ringSize := 256, imgLen := 6, phase := .body, blk := 0, pos := 0, iter := 0, hdr := { len := 2, ilk := true }, awaited := true, pfx := [],
            raiseDue := none, nextIssue := 0, gap := 0, cntReads := [], busy := [], req := none, saved := none, trap := none }

/-- The core of `cur` with a stream word as its next instruction. -/
def Core.placeWord (c : Core) (e : Eng) (w : Nat) : Core :=
  let c1 := c.setEng e (fetchEngine (c.eng e))
  { c1 with codeTop := 256, scratch := mWrite c.scratch 8 (natToBytes 4 w), lastClk := 0, lastRank := 0, late := [], defer := [] }

/-- The core with a helper word as its next micro-instruction. -/
def Core.placeHelper (c : Core) (w : Nat) : Core :=
  { c with lastClk := 0, lastRank := 0, late := [], defer := [], helper := { c.helper with run := true, stopReq := false, hpc := 256, next := 0 }, x := { c.x with trap := none }, scratch := mWrite c.scratch 256 (natToBytes 8 w) }

/-- The halt line of `cur`'s partition released. -/
def State.clearHalt (s : State) : State := s.setPartAt s.cur.die (s.partOf s.cur.die s.cur.core) { s.myPart with halt := none }

end Sys2Proof.Machine
end

