-- ==== Sys2Proof/Machine/Step.lean ====
section
/-! DEFINITION. One step of the module, and the placing of an instruction where the next step fetches it. -/

namespace Sys2Proof.Machine

/-- One step: the tape's next act at its clk, or the current stream's turn where the tape has run out, after what falls due by then. -/
def step (s : State) : Host.Outcome State Fault Refusal := act s.nextAct.1 s.nextAct.2.clkStart

/-- The state with a word as the next instruction that step runs: in the ring of the stream of `cur`'s core that owns it, or, for a
64-bit word, at the helper's place. -/
def State.withFetchWord (s : State) (nbits w : Nat) : State :=
  let w := w % 2 ^ nbits
  if nbits = 64 then
    let s1 := (s.setMyCore (s.myCore.placeHelper w)).clearHalt
    { s1 with tape := [⟨0, .helper s.cur.die s.cur.core⟩] }
  else
    let s1 := (s.setMyCore (s.myCore.placeWord (ownerOf w) w)).clearHalt
    { s1 with tape := [], cur := ⟨s.cur.die, s.cur.core, ownerOf w⟩ }

end Sys2Proof.Machine
end

