-- ==== Sys2Proof/Safety.lean ====
section
/-! DEFINITION. What counts as a safe run, and the terms in which claims are made: when an instruction issues normally, and what a step leaves
as it was. -/

namespace Sys2Proof.Machine

/-! ### Safe runs -/

/-- A safe outcome: the machine goes on. -/
def SafeOutcome (o : Host.Outcome State Fault Refusal) : Prop := ∃ t, o = .next t

/-- Every run of k steps from a state is safe. -/
def Safe (s : State) : Prop := ∀ k, SafeOutcome (Sys2Proof.core.run k s)

/-- The invariant of every step: memory stands in its canonical form. -/
def State.Inv (s : State) : Prop := Memory.wf s.mem = true

/-! ### When an instruction issues normally -/

/-- The stream may issue, the unit of prefixes and instruction is legal (R80, R91, R92), and no definition is pending in the way (R117). -/
def State.canIssue (s : State) (f : Form) : Bool :=
  s.curOk && f.wf && s.mayIssue && (lowest (s.violations f)).isNone && !(isC s.cur.eng && s.pend.isSome && !f.evterm)

/-- The instruction is not the last of a handler's image (R131). -/
def State.goesOn (s : State) (f : Form) : Bool :=
  !(decide (s.cur.eng = .h) && decide ((({ s.me with pos := s.me.pos + f.len } : Engine).wrapBody).phase = .ended))

/-- The instruction issues, and its stream goes on. -/
def State.issues (s : State) (f : Form) : Bool := s.canIssue f && s.goesOn f

/-- A form of the compact encoding (R77): the registers it names. -/
def compactForm (s : State) (rs : List (BitVec 5)) : Form := { streams := allStreams, len := 1, subs := s.regs (rs.map (·.toNat)) }

/-- A core with a pending `evterm` definition of a control stream: the handler bank has its own (R117, R130). -/
def Core.withPend (c : Core) (w : Eng) (p : Option PendTerm) : Core := if w = .h then { c with hpend := p } else { c with pend := p }

/-- A core past an `flsig` that covers the items (R113, R114): FLSEQ has risen, the die map of the flush is kept, the flush stands last, and what waits
for nothing has completed. -/
def Core.signalled (c : Core) (items : List OutItem) (map : Word) : Core :=
  settleFlushes { c with flseq := c.flseq + 1, flushMap := tSet 0 c.flushMap (c.flseq + 1).toNat map }
    (c.flushes ++ [{ seq := (c.flseq + 1).toNat, items := (items.filter (fun i => !i.dropped)).map (·.pid), dropped := items.any (·.dropped) }])

/-- The token of the current core's next `flsig` (Table 5.7). -/
def State.token (s : State) (mask : Nat) : Word := BitVec.ofNat 64 (mask * 2 ^ 56 + s.gen % 256 * 2 ^ 48 + (s.myCore.flseq + 1).toNat)

/-- The state an event starts from: its free values are fresh. -/
def State.fresh (s : State) : State := { s with free := s.free + 1 }

/-! ### What is left as it was -/

/-- An engine with the place, prefixes, waits, issue gap and landing times of another. -/
def Engine.placedAs (e e0 : Engine) : Engine :=
  { e with phase := e0.phase, blk := e0.blk, pos := e0.pos, iter := e0.iter, awaited := e0.awaited, pfx := e0.pfx, raiseDue := e0.raiseDue,
           nextIssue := e0.nextIssue, gap := e0.gap, busy := e0.busy, req := e0.req }

/-- A core whose current stream stands as `e`, past a command of its rank in this clk (R23). -/
def State.mineAs (s : State) (c : Core) (e : Engine) : Core := (c.setEng s.cur.eng e).stamp s.now (engRank s.cur.eng)

/-- Nothing has changed but the current core and the numbering of free values: memory, every other core and every unit are as they were. -/
structure State.CoreOnly (s t : State) : Prop where
  rest  : { t with free := s.free, cores := s.cores } = s
  other : ∀ k, k ≠ coreKey s.cur.die s.cur.core → tGet {} t.cores k = tGet {} s.cores k

/-- Of the current core nothing has changed but the current stream, whose command is the clk's last. -/
structure State.StreamOnly (s t : State) : Prop extends State.CoreOnly s t where
  core : t.myCore = s.mineAs s.myCore t.me

/-- Nothing has changed but the stream's place. -/
structure State.PlaceOnly (s t : State) : Prop extends State.StreamOnly s t where
  held : t.me.placedAs s.me = s.me

/-- The stream has moved on and its scalar register d holds v; a write to s0 of the control stream is discarded (R79). -/
structure State.WritesX (s t : State) (d : Nat) (v : Word) : Prop extends State.StreamOnly s t where
  held : { t.me.placedAs s.me with x := s.me.x, cntReads := s.me.cntReads } = s.me
  regs : ∀ r, tGet 0 t.me.x r = if r = d ∧ ¬(isC s.cur.eng = true ∧ d = 0) then v else tGet 0 s.me.x r

/-- The stream has moved on and its predicate d holds v; a write to p0 is discarded (R100). -/
structure State.WritesP (s t : State) (d : Nat) (v : Bool) : Prop extends State.StreamOnly s t where
  held : { t.me.placedAs s.me with p := s.me.p } = s.me
  preds : ∀ r, r < 8 → t.me.p.getLsbD r = if r = d ∧ d ≠ 0 then v else s.me.p.getLsbD r

/-- The stream has moved on and its branch register d holds v. -/
structure State.WritesB (s t : State) (d : Nat) (v : Word) : Prop extends State.StreamOnly s t where
  held : { t.me.placedAs s.me with b := s.me.b } = s.me
  regs : ∀ r, tGet 0 t.me.b r = if r = d then v else tGet 0 s.me.b r

/-- Nothing has changed but the current core, which is now `c` but for its current stream; of that stream only the place has moved and scalar
registers have landed. -/
structure State.CoreTo (s t : State) (c : Core) : Prop extends State.CoreOnly s t where
  core : t.myCore = s.mineAs c t.me
  held : { t.me.placedAs s.me with x := s.me.x, cntReads := s.me.cntReads } = s.me

/-- An instruction has left the machine as v, with its stream past it: beyond v only the stream's place has moved, scalar registers have
landed, and, with `eff`, the running task is marked as one whose kill would leave effects behind (R256). -/
structure State.EndsAs (v t : State) (eff : Bool) : Prop where
  rest  : { t with cores := v.cores } = v
  other : ∀ k, k ≠ coreKey v.cur.die v.cur.core → tGet {} t.cores k = tGet {} v.cores k
  core  : t.myCore = v.mineAs (if eff = true then v.myCore.marked else v.myCore) t.me
  held  : { t.me.placedAs v.me with x := v.me.x, cntReads := v.me.cntReads } = v.me

/-- A core with a trace entry made, and what its triggers raise, of another. -/
def Core.tracedAs (c c0 : Core) : Core := { c with cnt := c0.cnt, evsat := c0.evsat, tsince := c0.tsince, trace := c0.trace }

/-- A scalar load has moved the stream on, landed registers, and changed of everything else only owner tags, the trace buffer with what its
triggers raise, CORESTAT.SPOV, and, through the aperture, the order of the other core's clk (R272). -/
structure State.LoadOnly (s t : State) : Prop where
  rest  : { t with free := s.free, cores := s.cores, tags := s.tags } = s
  other : ∀ k, k ≠ coreKey s.cur.die s.cur.core → ∃ l r, tGet {} t.cores k = { tGet {} s.cores k with lastClk := l, lastRank := r }
  core  : { t.myCore.tracedAs s.myCore with spov := s.myCore.spov } = s.mineAs s.myCore t.me
  held  : { t.me.placedAs s.me with x := s.me.x, cntReads := s.me.cntReads } = s.me

/-- A scalar store or atomic has moved the stream on, landed registers, and changed of everything else only memory, posted stores, owner
tags, scratchpads with their stash sectors, the store queue, the task's mark of effects, the trace buffer with what its triggers raise, and
CORESTAT.SPOV. -/
structure State.AccessOnly (s t : State) : Prop where
  rest  : { t with free := s.free, cores := s.cores, tags := s.tags, mem := s.mem, keyTag := s.keyTag, posts := s.posts } = s
  core  : { t.myCore.tracedAs s.myCore with
            spov := s.myCore.spov, storeq := s.myCore.storeq, task := s.myCore.task,
            scratch := s.myCore.scratch, sectors := s.myCore.sectors, posted := s.myCore.posted, nextPid := s.myCore.nextPid } = s.mineAs s.myCore t.me
  held  : { t.me.placedAs s.me with x := s.me.x, cntReads := s.me.cntReads } = s.me

/-- No stream has moved, and the step still belongs to the same engine. -/
structure State.Still (s u : State) : Prop where
  cur  : u.cur = s.cur
  engs : ∀ die core w, (u.coreAt die core).eng w = (s.coreAt die core).eng w

/-- The scalar registers that `f` names hold what it gives, and the others what they held; s0 of the control stream takes nothing (R79). -/
def State.Regs (s t : State) (f : Nat → Option Word) : Prop :=
  ∀ r, tGet 0 t.me.x r = if isC s.cur.eng = true ∧ r = 0 then tGet 0 s.me.x r else (f r).getD (tGet 0 s.me.x r)

/-- What a load of the MEM minor w lands in register r, from the bytes it read (R102). -/
def loaded (d w : Nat) (bs : List Byte) (r : Nat) : Option Word :=
  if memSize w = 16 then
    if r = d then some (BitVec.ofNat 64 (bytesToNat (bs.take 8))) else if r = d + 1 then some (BitVec.ofNat 64 (bytesToNat (bs.drop 8))) else none
  else if r = d then some (if memSigned w then sext (bytesToNat bs) (8 * memSize w) else BitVec.ofNat 64 (bytesToNat bs)) else none

/-- What an atomic of n bytes lands of the old value (R108). -/
def landedOld (d n old r : Nat) : Option Word :=
  if r = d then some (BitVec.ofNat 64 old) else if n = 16 ∧ r = d + 1 then some (BitVec.ofNat 64 (old / 2 ^ 64)) else none

/-- What `cas` leaves: the new value where the old one is the compare value, else the old one (R108). -/
def casNew (s : State) (d n old : Nat) : Nat := if old = s.wide d n 1 then s.wide (d + if n = 16 then 2 else 1) n 3 else old

/-- A global load passes its checks at p (R103, R287), leaving the owner tags of u, and its stream and die may make it now (R274, R307). -/
structure State.LoadsAt (s : State) (ea n : Nat) (foot : Option (List Range)) (p : Phys) (u : State) : Prop where
  check  : s.check s.myCtx foot [0] ea n false = .ok p
  own    : s.own s.cur.die s.cur.core (if foot.isSome then s.myTask else none) p ea n false = .ok u
  order  : s.myCore.inOrder s.cur.eng p.mtype = true
  ready  : s.canRead s.cur.die none p n = .ok ()

/-- A global store passes its checks at p (R103, R244, R287), leaving the owner tags of u, its stream may make it now (R274), and its queue has room. -/
structure State.StoresAt (s : State) (ea n : Nat) (foot : Option (List Range)) (p : Phys) (u : State) : Prop where
  check  : s.checkSt s.myCtx foot [0] ea n = .ok p
  own    : s.own s.cur.die s.cur.core (if foot.isSome then s.myTask else none) p ea n true = .ok u
  record : s.inRecord s.myCtx ea n = false
  order  : s.storeOrder p = true
  room   : match p.slot with
    | none => s.myCore.storeq.length < Config.storeQueueSize
    | some _ => (s.postedTo s.cur.die s.cur.core (s.expDie p)).length < Config.postedQueueSize

/-- The range of an atomic is at p, normal and writable, and no task record (R103, R109, R244). -/
structure State.AtomicAt (s : State) (ea n : Nat) (p : Phys) : Prop where
  check  : s.check s.myCtx none [0] ea n true = .ok p
  normal : p.mtype = 0
  record : s.inRecord s.myCtx ea n = false

/-- Nothing that an atomic of a scope must come after is outstanding (R110, R111, R291): its request may leave the core. -/
structure State.AtomicMay (s : State) (n sc : Nat) (p : Phys) : Prop where
  scope : (sc = 0 ∧ p.slot = none) ∨ s.released = true
  own   : s.storesAt p.key n = false
  order : s.myCore.inOrder s.cur.eng p.mtype = true

/-- A core with lanes of register d written where `f` gives a value, flags ORed into FPFLAGS (R70), and SRSEQ past an instruction that rounds
with SR (R64). -/
def Core.lanes (c : Core) (d : Nat) (f : Nat → Option Lane) (fl : Flags) (sr : Bool) : Core :=
  { c with vr := setLanes c.vr d f (upto 0 64), fpflags := c.fpflags ||| fl, srseq := if sr = true then c.srseq + 1 else c.srseq }

/-- Register d holds what `f` gives; every other lane of it, and every other register, is as it was (R142). -/
def State.LanesGiven (s t : State) (d : Nat) (f : Nat → Option Lane) : Prop :=
  ∀ v i, i < 64 → tGet 0 t.myCore.vr (v * 64 + i) = if v = d then (f i).getD (tGet 0 s.myCore.vr (v * 64 + i)) else tGet 0 s.myCore.vr (v * 64 + i)

/-- A vector instruction has landed lanes in register d, with their flags, and moved its stream on; nothing else has changed. -/
structure State.LanesLand (s t : State) (d : Nat) (f : Nat → Option Lane) (fl : Flags) (sr : Bool) : Prop
    extends State.CoreTo s t (s.myCore.lanes d f fl sr) where
  scalars : t.me.x = s.me.x
  given   : s.LanesGiven t d f

/-- A mask instruction has landed q[d], with its trace event (R139), and moved its stream on; nothing else has changed. A write to q0 does
nothing (R141). -/
structure State.MaskLands (s t : State) (d : Nat) (w : Word) : Prop
    extends State.CoreTo s t (if d = 0 then s.myCore else
      ({ s.myCore with q := tSet 0 s.myCore.q d w } : Core).traced s.now (s.cycle s.cur.die) s.cur.eng 1 d w) where
  scalars : t.me.x = s.me.x

/-- Values for the lanes that are on. -/
def onLanes (on : Nat → Bool) (f : Nat → Lane) (i : Nat) : Option Lane := if on i = true then some (f i) else none

end Sys2Proof.Machine
end

