-- ==== Sys2Proof/Certificates/Slice0/Obligations.lean ====
section
/-! DEFINITION. The obligations: what is claimed of the machine, rule by rule of the spec. Each docstring names the rules its statement follows. -/

section

open Sys2Proof Sys2Proof.Machine

/-- R78: the compact forms and what each lands in its destination, registers read at issue; nothing else changes but the stream's place. R80 to R82:
a prefix that does not end the body is kept, with its place, for the instruction that follows; nothing else changes. Its conclusion says that
exec answers a next state for: nop16, mv16, add16, sub16, addi16, li16, ext, fmt. -/
def Obligations.CompactFormsAndPrefixes : Prop :=
  (∀ (s : State) (i a d : BitVec 5),
  (s.issues (compactForm s []) = true → ∃ t, exec .nop16 s = .next t ∧ s.PlaceOnly t) ∧
  (s.issues (compactForm s [d, a]) = true →
    (∃ t, exec (.mv16 a d) s = .next t ∧ s.WritesX t d.toNat (s.atIssue.rx a.toNat)) ∧
    (∃ t, exec (.add16 a d) s = .next t ∧ s.WritesX t d.toNat (s.atIssue.rx d.toNat + s.atIssue.rx a.toNat 1)) ∧
    (∃ t, exec (.sub16 a d) s = .next t ∧ s.WritesX t d.toNat (s.atIssue.rx d.toNat - s.atIssue.rx a.toNat 1))) ∧
  (s.issues (compactForm s [d]) = true →
    (∃ t, exec (.addi16 i d) s = .next t ∧ s.WritesX t d.toNat (s.atIssue.rx d.toNat + i.signExtend 64)) ∧
    (∃ t, exec (.li16 i d) s = .next t ∧ s.WritesX t d.toNat (i.signExtend 64)))) ∧
  (∀ (s : State) (n : BitVec 10) (k : BitVec 6),
  s.curOk = true → s.mayIssue = true → s.me.pos + 1 < s.me.hdr.len →
  exec (.ext n) s = .next (s.setMe { s.me with pos := s.me.pos + 1, pfx := s.me.pfx ++ [{ isFmt := false, val := n.toNat, pos := s.me.pos }] }) ∧
  exec (.fmt k) s = .next (s.setMe { s.me with pos := s.me.pos + 1, pfx := s.me.pfx ++ [{ isFmt := true, val := k.toNat, pos := s.me.pos }] }))

/-- R99, R79: every register-and-register form lands its result, computed from the registers read at issue, and changes nothing else. Its conclusion
says that exec answers a next state for: add, sub, and, or, xor, sll, srl, sra, mul, mulh, mulhu, min, max, minu, maxu. -/
def Obligations.RegisterFormsLand : Prop := ∀ (s : State) (d a b : BitVec 6) (g : BitVec 3),
  s.issues (fAll g (s.regs [d.toNat, a.toNat, b.toNat])) = true →
  let x := s.atIssue.rx a.toNat
  let y := s.atIssue.rx b.toNat 1
  (∃ t, exec (.add d a b g) s = .next t ∧ s.WritesX t d.toNat (x + y)) ∧
  (∃ t, exec (.sub d a b g) s = .next t ∧ s.WritesX t d.toNat (x - y)) ∧
  (∃ t, exec (.and d a b g) s = .next t ∧ s.WritesX t d.toNat (x &&& y)) ∧
  (∃ t, exec (.or d a b g) s = .next t ∧ s.WritesX t d.toNat (x ||| y)) ∧
  (∃ t, exec (.xor d a b g) s = .next t ∧ s.WritesX t d.toNat (x ^^^ y)) ∧
  (∃ t, exec (.sll d a b g) s = .next t ∧ s.WritesX t d.toNat (x <<< (y.toNat % 64))) ∧
  (∃ t, exec (.srl d a b g) s = .next t ∧ s.WritesX t d.toNat (x >>> (y.toNat % 64))) ∧
  (∃ t, exec (.sra d a b g) s = .next t ∧ s.WritesX t d.toNat (x.sshiftRight (y.toNat % 64))) ∧
  (∃ t, exec (.mul d a b g) s = .next t ∧ s.WritesX t d.toNat (x * y)) ∧
  (∃ t, exec (.mulh d a b g) s = .next t ∧ s.WritesX t d.toNat (BitVec.ofInt 64 (x.toInt * y.toInt / 2 ^ 64))) ∧
  (∃ t, exec (.mulhu d a b g) s = .next t ∧ s.WritesX t d.toNat (BitVec.ofNat 64 (x.toNat * y.toNat / 2 ^ 64))) ∧
  (∃ t, exec (.min d a b g) s = .next t ∧ s.WritesX t d.toNat (if x.toInt < y.toInt then x else y)) ∧
  (∃ t, exec (.max d a b g) s = .next t ∧ s.WritesX t d.toNat (if x.toInt < y.toInt then y else x)) ∧
  (∃ t, exec (.minu d a b g) s = .next t ∧ s.WritesX t d.toNat (if x.toNat < y.toNat then x else y)) ∧
  (∃ t, exec (.maxu d a b g) s = .next t ∧ s.WritesX t d.toNat (if x.toNat < y.toNat then y else x))

/-- R99, R81: every register-and-immediate form lands its result from the immediate, which an `ext` prefix widens to 19 bits (25 of `lui`), and
changes nothing else. Its conclusion says that exec answers a next state for: addi, andi, ori, xori, slli, srli, srai, lui. -/
def Obligations.ImmediateFormsLand : Prop := ∀ (s : State) (d a sh : BitVec 6) (i : BitVec 9) (j : BitVec 15) (g : BitVec 3),
  let x := s.atIssue.rx a.toNat
  let y := s.atIssue.simm i.toNat 9
  (s.issues { fAll g (s.regs [d.toNat, a.toNat]) with ext := true } = true →
    (∃ t, exec (.addi d a i g) s = .next t ∧ s.WritesX t d.toNat (x + y)) ∧
    (∃ t, exec (.andi d a i g) s = .next t ∧ s.WritesX t d.toNat (x &&& y)) ∧
    (∃ t, exec (.ori d a i g) s = .next t ∧ s.WritesX t d.toNat (x ||| y)) ∧
    (∃ t, exec (.xori d a i g) s = .next t ∧ s.WritesX t d.toNat (x ^^^ y))) ∧
  (s.issues (fAll g (s.regs [d.toNat, a.toNat])) = true →
    (∃ t, exec (.slli d a sh g) s = .next t ∧ s.WritesX t d.toNat (x <<< sh.toNat)) ∧
    (∃ t, exec (.srli d a sh g) s = .next t ∧ s.WritesX t d.toNat (x >>> sh.toNat)) ∧
    (∃ t, exec (.srai d a sh g) s = .next t ∧ s.WritesX t d.toNat (x.sshiftRight sh.toNat))) ∧
  (s.issues { fAll g (s.regs [d.toNat]) with ext := true } = true →
    ∃ t, exec (.lui d j g) s = .next t ∧ s.WritesX t d.toNat (s.atIssue.simm j.toNat 15 <<< 16))

/-- R100: the compares and predicate forms land their predicate, and change nothing else. Its conclusion says that exec answers a next state for:
cmp, cmpi, pand, por, pxor, pandn, pnot. -/
def Obligations.PredicateFormsLand : Prop := ∀ (s : State) (p q r : BitVec 3) (a b : BitVec 6) (c : BitVec 3) (i : BitVec 9) (g : BitVec 3),
  c.toNat ≤ 5 →
  let x := s.atIssue.rx a.toNat
  (s.issues (fAll g (s.preds [p.toNat] ++ s.regs [a.toNat, b.toNat])) = true →
    ∃ t, exec (.cmp p a b c g) s = .next t ∧ s.WritesP t p.toNat (cmpCond c.toNat x (s.atIssue.rx b.toNat 1))) ∧
  (s.issues { fAll g (s.preds [p.toNat] ++ s.regs [a.toNat]) with ext := true } = true →
    ∃ t, exec (.cmpi p c a i g) s = .next t ∧ s.WritesP t p.toNat (cmpCond c.toNat x (s.atIssue.simm i.toNat 9))) ∧
  (s.issues (fAll g (s.preds [p.toNat, q.toNat, r.toNat])) = true →
    let u := s.atIssue.rp q.toNat
    let w := s.atIssue.rp r.toNat 1
    (∃ t, exec (.pand p q r g) s = .next t ∧ s.WritesP t p.toNat (u && w)) ∧
    (∃ t, exec (.por p q r g) s = .next t ∧ s.WritesP t p.toNat (u || w)) ∧
    (∃ t, exec (.pxor p q r g) s = .next t ∧ s.WritesP t p.toNat (u != w)) ∧
    (∃ t, exec (.pandn p q r g) s = .next t ∧ s.WritesP t p.toNat (u && !w)) ∧
    (∃ t, exec (.pnot p q r g) s = .next t ∧ s.WritesP t p.toNat (!u)))

/-- R102, R103, R272, R274: `ld` lands the bytes its core's port reads at the address, sign-extended by its form, or, in the aperture, another core's
scratchpad bytes; of a device or strongly ordered page the request leaves the core first (R124), and nothing lands yet. Memory is as it was. Its
conclusion says that exec answers a next state for: ld. -/
def Obligations.LoadsLand : Prop := ∀ (s : State) (d b i : BitVec 6) (w g : BitVec 3) (p : Phys) (u : State),
  let a := s.atIssue
  let n := memSize w.toNat
  let ea := a.memAddr b.toNat i.toNat n
  s.issues { fC g (pairOk d.toNat w.toNat) with ext := true } = true → aligned ea n = true →
  (a.LoadsAt ea n (some a.myFoot) p u →
    ((2 ≤ p.mtype → a.reqOut (.ld d b w i g) ea = true) →
      ∃ t, exec (.ld d b w i g) s = .next t ∧ s.LoadOnly t ∧ t.tags = u.tags ∧ t.myCore.spov = s.myCore.spov ∧
        s.Regs t (loaded d.toNat w.toNat (a.portBytes s.cur.die s.cur.core p.key p.home n))) ∧
    (2 ≤ p.mtype → a.reqOut (.ld d b w i g) ea = false → exec (.ld d b w i g) s = .next (a.noteReq (.ld d b w i g) ea true))) ∧
  (inAperture ea = true → isC s.cur.eng = true → a.apertureCheck ea n false (some a.myFoot) = .ok () →
    a.spReady s.cur.die (apertureAt ea).1 (apertureAt ea).2 n false = .ok () →
    ∃ t, exec (.ld d b w i g) s = .next t ∧ s.LoadOnly t ∧ t.tags = s.tags ∧ t.myCore.spov = s.myCore.spov ∧
      s.Regs t (loaded d.toNat w.toNat (a.spBytes s.cur.die (apertureAt ea).1 (apertureAt ea).2 n)))

/-- R104, R106: `ld.sp` lands scratchpad bytes, or, in the overflow window, the bytes that a global load of the region reads, setting CORESTAT.SPOV;
of a device or strongly ordered page the request leaves the core first (R124). Memory is as it was. Its conclusion says that exec answers a next
state for: ldSp. -/
def Obligations.ScratchpadLoadsLand : Prop := ∀ (s : State) (d b i : BitVec 6) (w g : BitVec 3) (p : Phys) (u : State),
  let a := s.atIssue
  let n := memSize w.toNat
  let ea := a.memAddr b.toNat i.toNat n
  s.issues { fAll g (s.regs [d.toNat, b.toNat] ++ pairOk d.toNat w.toNat) with ext := true } = true → aligned ea n = true →
  (s.myCore.overflow ea n = none → s.myCore.spCheck ea n false = .ok () → a.spReady s.cur.die s.cur.core ea n false = .ok () →
    ∃ t, exec (.ldSp d b w i g) s = .next t ∧ s.LoadOnly t ∧ t.tags = s.tags ∧ t.myCore.spov = s.myCore.spov ∧
      s.Regs t (loaded d.toNat w.toNat (mRead s.myCore.scratch ea n))) ∧
  (∀ va, s.myCore.overflow ea n = some va → a.LoadsAt va n none p u →
    ((2 ≤ p.mtype → a.reqOut (.ldSp d b w i g) va = true) →
      ∃ t, exec (.ldSp d b w i g) s = .next t ∧ s.LoadOnly t ∧ t.tags = s.tags ∧ t.myCore.spov = true ∧
        s.Regs t (loaded d.toNat w.toNat (a.portBytes s.cur.die s.cur.core p.key p.home n))) ∧
    (2 ≤ p.mtype → a.reqOut (.ldSp d b w i g) va = false → exec (.ldSp d b w i g) s = .next (a.noteReq (.ldSp d b w i g) va true)))

/-- R103, R105, R272, R290: `st` leaves its bytes last in the store queue, posts them through a window, or writes them to another core's scratchpad
through the aperture; no byte of memory changes by the instruction itself. Its conclusion says that exec answers a next state for: st. -/
def Obligations.StoresLand : Prop := ∀ (s : State) (d b i : BitVec 6) (w g : BitVec 3) (p : Phys) (u : State),
  let a := s.atIssue
  let n := memSize w.toNat
  let ea := a.memAddr b.toNat i.toNat n
  let data := a.storeData d.toNat n
  storeWidthOk w = true → s.issues { fC g (pairOk d.toNat w.toNat) with eff := true, ext := true, wf := storeWidthOk w } = true → aligned ea n = true →
  (a.StoresAt ea n (some a.myFoot) p u → p.slot = none →
    ∃ t, exec (.st d b w i g) s = .next t ∧ s.AccessOnly t ∧ t.me.x = s.me.x ∧ t.mem = s.mem ∧ t.tags = u.tags ∧ t.posts = s.posts ∧
      t.myCore.scratch = s.myCore.scratch ∧ t.myCore.storeq = s.myCore.storeq ++ [⟨s.cur.eng, p.mtype, p.key, p.home, BitVec.ofNat 64 ea, p.keyNo, data, s.myCore.nextPid, false⟩]) ∧
  (∀ k, a.StoresAt ea n (some a.myFoot) p u → p.slot = some k →
    ∃ t, exec (.st d b w i g) s = .next t ∧ s.AccessOnly t ∧ t.me.x = s.me.x ∧ t.mem = s.mem ∧ t.tags = u.tags ∧
      t.myCore.scratch = s.myCore.scratch ∧ t.myCore.storeq = s.myCore.storeq ∧
      t.posts = s.posts ++ [⟨s.cur.die, s.cur.core, s.myCore.nextPid, a.expDie p, p.exp, k, BitVec.ofNat 64 p.va, if p.ok then some p.key else none, data⟩]) ∧
  (inAperture ea = true → isC s.cur.eng = true → a.apertureCheck ea n true (some a.myFoot) = .ok () →
    (s.coreAt s.cur.die (apertureAt ea).1).spCheck (apertureAt ea).2 n true = .ok () → a.spReady s.cur.die (apertureAt ea).1 (apertureAt ea).2 n true = .ok () →
    ∃ t, exec (.st d b w i g) s = .next t ∧ s.AccessOnly t ∧ t.me.x = s.me.x ∧ t.mem = s.mem ∧ t.posts = s.posts ∧ t.myCore.storeq = s.myCore.storeq ∧
      (t.coreAt s.cur.die (apertureAt ea).1).scratch = mWrite (s.coreAt s.cur.die (apertureAt ea).1).scratch (apertureAt ea).2 data ∧
      ∀ k, k ≠ coreKey s.cur.die (apertureAt ea).1 → (tGet {} t.cores k).scratch = (tGet {} s.cores k).scratch)

/-- R104, R106: `st.sp` writes exactly its bytes of the scratchpad, or, in the overflow window, leaves them last in the store queue, setting
CORESTAT.SPOV. Its conclusion says that exec answers a next state for: stSp. -/
def Obligations.ScratchpadStoresLand : Prop := ∀ (s : State) (d b i : BitVec 6) (w g : BitVec 3) (p : Phys) (u : State),
  let a := s.atIssue
  let n := memSize w.toNat
  let ea := a.memAddr b.toNat i.toNat n
  let data := a.storeData d.toNat n
  storeWidthOk w = true → s.issues { fAll g (s.regs [d.toNat, b.toNat] ++ pairOk d.toNat w.toNat) with ext := true, wf := storeWidthOk w } = true → aligned ea n = true →
  (s.myCore.overflow ea n = none → s.myCore.spCheck ea n true = .ok () → a.spReady s.cur.die s.cur.core ea n true = .ok () →
    ∃ t, exec (.stSp d b w i g) s = .next t ∧ s.AccessOnly t ∧ t.me.x = s.me.x ∧ t.mem = s.mem ∧ t.posts = s.posts ∧ t.myCore.storeq = s.myCore.storeq ∧
      t.myCore.spov = s.myCore.spov ∧ t.myCore.scratch = mWrite s.myCore.scratch ea data ∧ (s.myCore.stash = [] → t.tags = s.tags) ∧
      ∀ k, k ≠ coreKey s.cur.die s.cur.core → tGet {} t.cores k = tGet {} s.cores k) ∧
  (∀ va, s.myCore.overflow ea n = some va → a.StoresAt va n none p u → p.slot = none →
    ∃ t, exec (.stSp d b w i g) s = .next t ∧ s.AccessOnly t ∧ t.me.x = s.me.x ∧ t.mem = s.mem ∧ t.tags = s.tags ∧ t.posts = s.posts ∧
      t.myCore.scratch = s.myCore.scratch ∧ t.myCore.spov = true ∧
      t.myCore.storeq = s.myCore.storeq ++ [⟨s.cur.eng, p.mtype, p.key, p.home, BitVec.ofNat 64 va, p.keyNo, data, s.myCore.nextPid, false⟩])

/-- R105, R279: once what falls due has happened, a store performed from its queue writes its bytes at its place and no other byte of memory, and
leaves the queue. -/
def Obligations.StoreQueueDrains : Prop := ∀ (s : State) (die core n : Nat) (e : QStore) (rest : List Turn),
  let u : State := ({ s with tape := rest } : State).clkStart.fresh
  s.tape = ⟨0, .drain die core n⟩ :: rest → (u.coreAt die core).storeq[n]? = some e → canDrain (u.coreAt die core).storeq n = true →
  u.dieAway die = false → (die = e.home ∨ 4 ≤ e.home) → e.data ≠ [] →
  u.canWrite die none { key := e.key, home := e.home, keyNo := e.keyNo, mtype := e.mtype, mclass := 0 } e.data.length = .ok () →
  ∃ t, step s = .next t ∧ t.tape = rest ∧ (t.coreAt die core).storeq = dropNth (u.coreAt die core).storeq n ∧
    ∀ k, tGet 0 t.mem k = if e.key ≤ k ∧ k < e.key + e.data.length then e.data.getD (k - e.key) 0 else tGet 0 s.mem k

/-- R108 to R111, R291: `atom` and `cas`, once nothing they must come after is outstanding, send their request; with its reply they land the old
value and leave the new one in memory, in exactly their bytes. R108, R111, R272: in the aperture, `atom` and `cas` do the same to another core's
scratchpad. Its conclusion says that exec answers a next state for: atom, cas. -/
def Obligations.MemoryAtomicsLand : Prop :=
  (∀ (s : State) (d b : BitVec 6) (o : BitVec 3) (z c : BitVec 2) (g : BitVec 3) (p : Phys),
  let a := s.atIssue
  let n := 4 * 2 ^ z.toNat
  let ea := (a.rx b.toNat).toNat
  let old := a.cohNat p.key n
  let acts := fun (i : Instr) (new : Nat) =>
    (a.reqOut i ea = false → a.AtomicMay n c.toNat p → exec i s = .next (a.noteReq i ea true)) ∧
    (a.reqOut i ea = true → a.canWrite p.home none p n = .ok () →
      ∃ t, exec i s = .next t ∧ s.AccessOnly t ∧ s.Regs t (landedOld d.toNat n old) ∧ t.tags = s.tags ∧
        t.posts = s.posts ∧ t.myCore.storeq = s.myCore.storeq ∧ t.myCore.scratch = s.myCore.scratch ∧
        (∀ k, k ≠ coreKey s.cur.die s.cur.core → tGet {} t.cores k = tGet {} s.cores k) ∧
        ∀ k, tGet 0 t.mem k = if p.key ≤ k ∧ k < p.key + n then (natToBytes n new).getD (k - p.key) 0 else tGet 0 s.mem k)
  aligned ea n = true → a.AtomicAt ea n p →
  (s.issues { fC g (atomRegs d.toNat z.toNat) with eff := true, wf := atomOk o z } = true → ¬(o.toNat = 7 ∧ a.inDet = true) →
    acts (.atom d b o z c g) (atomNew o.toNat n old (a.wide d.toNat n 1))) ∧
  (s.issues { fC g (casRegs d.toNat z.toNat) with eff := true, wf := z.toNat ≠ 3 } = true →
    acts (.cas d b z c g) (casNew a d.toNat n old))) ∧
  (∀ (s : State) (d b : BitVec 6) (o : BitVec 3) (z c : BitVec 2) (g : BitVec 3),
  let a := s.atIssue
  let n := 4 * 2 ^ z.toNat
  let ea := (a.rx b.toNat).toNat
  let k := (apertureAt ea).1
  let off := (apertureAt ea).2
  let old := bytesToNat (a.spBytes s.cur.die k off n)
  let acts := fun (i : Instr) (new : Nat) =>
    (a.reqOut i ea = false → c.toNat = 0 ∨ a.released = true → exec i s = .next (a.noteReq i ea true)) ∧
    (a.reqOut i ea = true → a.spReady s.cur.die k off n true = .ok () →
      ∃ t, exec i s = .next t ∧ s.AccessOnly t ∧ s.Regs t (landedOld d.toNat n old) ∧ t.mem = s.mem ∧ t.posts = s.posts ∧ t.myCore.storeq = s.myCore.storeq ∧
        (t.coreAt s.cur.die k).scratch = mWrite (s.coreAt s.cur.die k).scratch off (natToBytes n new) ∧
        ∀ j, j ≠ coreKey s.cur.die k → (tGet {} t.cores j).scratch = (tGet {} s.cores j).scratch)
  aligned ea n = true → inAperture ea = true → a.apertureCheck ea n true none = .ok () → (s.coreAt s.cur.die k).spCheck off n true = .ok () →
  (s.issues { fC g (atomRegs d.toNat z.toNat) with eff := true, wf := atomOk o z } = true → ¬(o.toNat = 7 ∧ a.inDet = true) →
    acts (.atom d b o z c g) (atomNew o.toNat n old (a.wide d.toNat n 1))) ∧
  (s.issues { fC g (casRegs d.toNat z.toNat) with eff := true, wf := z.toNat ≠ 3 } = true → acts (.cas d b z c g) (casNew a d.toNat n old)))

/-- R108, R111: `atom.sp` and `cas.sp` land the old value of scratchpad bytes and leave the new one there. Its conclusion says that exec answers a
next state for: atomSp, casSp. -/
def Obligations.ScratchpadAtomicsLand : Prop := ∀ (s : State) (d b : BitVec 6) (o : BitVec 3) (z c : BitVec 2) (g : BitVec 3),
  let a := s.atIssue
  let n := 4 * 2 ^ z.toNat
  let ea := (a.rx b.toNat).toNat
  let old := bytesToNat (mRead s.myCore.scratch ea n)
  let done := fun (i : Instr) (new : Nat) => ∃ t, exec i s = .next t ∧ s.AccessOnly t ∧ s.Regs t (landedOld d.toNat n old) ∧ t.mem = s.mem ∧ t.posts = s.posts ∧
    t.myCore.storeq = s.myCore.storeq ∧ t.myCore.scratch = mWrite s.myCore.scratch ea (natToBytes n new) ∧
    ∀ k, k ≠ coreKey s.cur.die s.cur.core → tGet {} t.cores k = tGet {} s.cores k
  aligned ea n = true → s.myCore.spCheck ea n true = .ok () → a.spReady s.cur.die s.cur.core ea n false = .ok () →
  a.spReady s.cur.die s.cur.core ea n true = .ok () →
  (s.issues { fC g (atomRegs d.toNat z.toNat ++ subUnless (c.toNat = 0) subIMMRANGE) with eff := true, wf := atomOk o z } = true →
    ¬(o.toNat = 7 ∧ a.inDet = true) → done (.atomSp d b o z c g) (atomNew o.toNat n old (a.wide d.toNat n 1))) ∧
  (s.issues { fC g (casRegs d.toNat z.toNat ++ subUnless (c.toNat = 0) subIMMRANGE) with eff := true, wf := z.toNat ≠ 3 } = true →
    done (.casSp d b z c g) (casNew a d.toNat n old))

/-- R112 to R114: `fence` passes once the stores it covers have been performed; `flsig` raises FLSEQ and lands its token; `tkwait` lands a flush's
status once FLDONE has reached it. Memory and all else are as they were. Its conclusion says that exec answers a next state for: fence, flsig,
tkwait. -/
def Obligations.FencesAndTokens : Prop := ∀ (s : State) (d x : BitVec 6) (sc g : BitVec 3),
  let a := s.atIssue
  (s.issues { fC g with wf := sc.toNat ≤ 3 } = true → (sc.toNat ≠ 0 → s.released = true) →
    (sc.toNat = 0 → ∀ q ∈ s.myCore.storeq, ¬(q.eng = s.cur.eng ∧ q.mtype = 1)) → ∃ t, exec (.fence sc g) s = .next t ∧ s.PlaceOnly t) ∧
  (s.issues (fC g) = true →
    let signals := fun (items : List OutItem) (mask : Nat) => ∃ t, exec (.flsig d x g) s = .next t ∧ s.CoreTo t (s.myCore.signalled items s.mill.dieMap) ∧
      s.Regs t (fun r => if r = d.toNat then some (s.token mask) else none)
    (x.toNat = 0 → signals s.myCore.posted (dieMask ((s.myCore.posted.filter (fun i => !i.dropped && !i.done)).filterMap (fun i => i.home.map s.vdie)))) ∧
    (∀ e, x.toNat ≠ 0 → s.importOf s.myCtx (a.rx x.toNat) [1, 3] = .ok e →
      signals (s.myCore.posted.filter (fun i => i.imp = e.2.uid)) (if e.2.foreign then 0 else dieMask [e.2.vdie])) ∧
    (∀ r, x.toNat ≠ 0 → s.importOf s.myCtx (a.rx x.toNat) [1, 3] = .error r → exec (.flsig d x g) s = .next (a.takeTrap s.cur r))) ∧
  (s.issues (fC g) = true →
    let t0 := (a.rx x.toNat).toNat
    diff32 (BitVec.ofNat 32 t0) s.myCore.flseq ≤ 0 → diff32 (BitVec.ofNat 32 t0) s.myCore.fldone ≤ 0 →
    ∃ t, exec (.tkwait d x g) s = .next t ∧ s.WritesX t d.toNat (BitVec.ofNat 64 (b2n (s.remapped (bits t0 56 8) (BitVec.ofNat 32 t0).toNat (bits t0 48 8)) +
      2 * b2n (s.myCore.revokedFlush.contains (BitVec.ofNat 32 t0).toNat))))

/-- R115, R116: `pbr` lands its PC-relative target, taken through the ring, and `pbr.r` the low 21 bits of a register. Its conclusion says that exec
answers a next state for: pbr, pbrR. -/
def Obligations.BranchTargetsLand : Prop := ∀ (s : State) (b : BitVec 3) (o : BitVec 18) (x : BitVec 6) (g : BitVec 3),
  let e := s.me
  (s.issues { fAll g (s.preds [b.toNat]) with ext := true } = true →
    ∃ t, exec (.pbr b o g) s = .next t ∧
      s.WritesB t b.toNat (BitVec.ofNat 64 (e.ringBase + (((e.offAt e.pos : Nat) + 2 * (s.simm o.toNat 18).toInt) % (e.ringSize : Int)).toNat))) ∧
  (s.issues (fAll g (s.preds [b.toNat] ++ s.regs [x.toNat])) = true →
    ∃ t, exec (.pbrR b x g) s = .next t ∧ s.WritesB t b.toNat (BitVec.ofNat 64 (bits (s.atIssue.rx x.toNat).toNat 1 20 * 2)))

/-- R19, R93, R116: a branch whose predicate is true goes to the header marker at its target, `br.l` leaving the offset of the next header in s63,
and its issue gap counts (R36); with the predicate false it falls through; a target that is no marker in the ring is an illegal-instruction trap.
Its conclusion says that exec answers a next state for: br, brL. -/
def Obligations.BranchesGo : Prop := ∀ (s : State) (b p g : BitVec 3),
  let a := s.atIssue
  let t0 := (a.rb b.toNat 1).toNat
  let off := t0 - s.me.ringBase
  let good := s.me.ringBase ≤ t0 ∧ t0 < s.me.ringBase + s.me.ringSize ∧ s.myCore.ringByte s.cur.eng off = 0xFF
  let goes := fun (t : State) => s.LoadOnly t ∧ t.tags = s.tags ∧ t.me.phase = .header ∧ t.me.blk = off ∧ t.me.iter = 0 ∧
    t.me.nextIssue = s.now + 1 + (if s.me.hdr.ilk then 0 else g.toNat)
  let trap := .next (a.takeTrap s.cur { cls := 1, sub := 0x10 })
  (s.issues (fAll g (s.preds [b.toNat, p.toNat])) = true →
    (a.rp p.toNat = true → good → ∃ t, exec (.br b p g) s = .next t ∧ goes t ∧ t.me.x = s.me.x) ∧
    (a.rp p.toNat = true → ¬good → exec (.br b p g) s = trap) ∧
    (a.rp p.toNat = false → ∃ t, exec (.br b p g) s = .next t ∧ s.PlaceOnly t)) ∧
  (s.issues (fC g) = true → isC s.cur.eng = true →
    (a.rp p.toNat = true → good → ∃ t, exec (.brL b p g) s = .next t ∧ goes t ∧
      s.Regs t (fun r => if r = 63 then some (BitVec.ofNat 64 (s.me.ringBase + s.me.offAt s.me.hdr.len)) else none)) ∧
    (a.rp p.toNat = true → ¬good → exec (.brL b p g) s = trap) ∧
    (a.rp p.toNat = false → ∃ t, exec (.brL b p g) s = .next t ∧ s.PlaceOnly t))

/-- R20, R22, R117, R118: `evterm` builds its term's definition word by word and puts it in force with the last, letting go the blocks that had
waited on it while it held; `evinc` raises its counter; `evwait` goes on when its term has been true for a clk and waits, changing nothing, until
then. Its conclusion says that exec answers a next state for: evterm, evinc, evwait. -/
def Obligations.EventInstructions : Prop := ∀ (s : State) (t : BitVec 4) (sl : BitVec 2) (l : BitVec 1) (e : BitVec 5) (h : BitVec 9) (i : BitVec 16) (g : BitVec 3),
  let thr := s.atIssue.uimm h.toNat 9
  (s.issues { fC g (subUnless (t.toNat ≠ 0) subREGRANGE ++ subUnless (s.uimm h.toNat 9 ≤ 0xFFFF) subIMMRANGE) with ext := true, evterm := true } = true →
    (∀ p, evtermStep s.pend t.toNat sl.toNat ⟨e.toNat, thr⟩ = some p → l ≠ 1 → ∃ u, exec (.evterm t sl l e h g) s = .next u ∧ s.CoreTo u (s.myCore.withPend s.cur.eng (some p))) ∧
    (∀ p, evtermStep s.pend t.toNat sl.toNat ⟨e.toNat, thr⟩ = some p → l = 1 → ∃ u, exec (.evterm t sl l e h g) s = .next u ∧
      s.CoreTo u ((s.myCore.defineTerm s.now t.toNat p.term).withPend s.cur.eng none))) ∧
  (s.issues (fC g) = true → ∃ u, exec (.evinc e i g) s = .next u ∧ s.CoreTo u ((s.myCore.raised s.cur.eng).raiseCnt s.now e.toNat i.toNat) ∧ u.me.x = s.me.x) ∧
  (s.issues (fC g (subUnless (e.toNat ≤ 15) subREGRANGE)) = true →
    (s.myCore.termReady s.now e.toNat = true → ∃ u, exec (.evwait e g) s = .next u ∧ s.PlaceOnly u) ∧
    (s.myCore.termReady s.now e.toNat = false → exec (.evwait e g) s = .next s.atIssue))

/-- R36, R98, R119, R128: `csrr` lands the value of its CSR, of an event counter the value it has two clk later, and of a CSR that an earlier write
is still on its way to it waits in an interlocked block; `csrw` gives its CSR's writable fields the register's bits two clk later; a read-only
CSR, and a stop record outside a handler, trap. Its conclusion says that exec answers a next state for: csrr, csrw. -/
def Obligations.CsrAccess : Prop := ∀ (s : State) (d : BitVec 6) (c : BitVec 12) (g : BitVec 3),
  let cnt := 0x20 ≤ c.toNat ∧ c.toNat < 0x40
  s.issues (fC g (subUnless (csrKnown c.toNat) subIMMRANGE)) = true →
  (s.csrLate c.toNat = false → ¬cnt → ∃ t, exec (.csrr d c g) s = .next t ∧ s.WritesX t d.toNat (s.atIssue.csr c.toNat)) ∧
  (s.csrLate c.toNat = true → s.me.hdr.ilk = true → exec (.csrr d c g) s = .next s.atIssue) ∧
  (s.csrLate c.toNat = true → s.me.hdr.ilk = false → ¬cnt → ∃ t, exec (.csrr d c g) s = .next t ∧ s.WritesX t d.toNat (BitVec.ofNat 64 (s.atIssue.freeNat 0))) ∧
  (s.csrLate c.toNat = false → cnt → ∃ t, exec (.csrr d c g) s = .next t ∧ s.StreamOnly t ∧ { t.me.placedAs s.me with cntReads := s.me.cntReads } = s.me ∧
    t.me.cntReads = if d = 0 then s.me.cntReads else s.me.cntReads.filter (fun r => r.d ≠ d.toNat) ++ [⟨d.toNat, s.now + 2, c.toNat - 0x20⟩]) ∧
  (∀ (e : Engine) (r : CntRead) (counts : Tab (BitVec 16)) (now : Nat), e.cntReads = [r] → r.at_ ≤ now →
    (e.landCnts counts now).x = tSet 0 e.x r.d (BitVec.ofNat 64 (tGet 0 counts r.n).toNat)) ∧
  (csrWritable c.toNat = true → (csrStop c.toNat = true → s.cur.eng = .h) →
    (∃ t, exec (.csrw d c g) s = .next t ∧ s.CoreTo t (s.myCore.addLate ⟨s.now + 2, s.cur.eng, .csr c.toNat (s.atIssue.rx d.toNat)⟩) ∧ t.me.x = s.me.x) ∧
    ∀ k : Core, k.late = [] → k.c.cntReads = [] → k.h.cntReads = [] → ∀ w v, (k.addLate ⟨s.now + 2, w, .csr c.toNat v⟩).landBy (s.now + 2) = k.csrSet c.toNat v) ∧
  (csrStop c.toNat = true → s.cur.eng ≠ .h → exec (.csrw d c g) s = .next (s.atIssue.takeTrap s.cur { cls := 2, sub := 6 })) ∧
  (csrWritable c.toNat = false → csrStop c.toNat = false → exec (.csrw d c g) s = .next (s.atIssue.takeTrap s.cur { cls := 2, sub := 4 }))

/-- R91, R92: a unit of prefixes and instruction with violations does not take effect: it traps as an illegal instruction with the lowest subcode, at
the place of the violation. -/
def Obligations.IllegalUnitsTrap : Prop := ∀ (s : State) (f : Form) (body : State → Res State) (sub pos : Nat),
  s.curOk = true → f.wf = true → s.mayIssue = true → lowest (s.violations f) = some (sub, pos) →
  issue s f body = .next (s.atIssue.takeTrap s.cur { cls := 1, sub := sub, pos := some pos })

/-- R122, R123: a trap stays with its engine, stamped with its clk, and raises its partition's halt line unless it is up; no register, no other
engine, core or partition, and no byte of memory changes. -/
def Obligations.TrapsAreTaken : Prop := ∀ (s : State) (id : EngId) (t : TrapRec), id.eng ≠ .h → (s.engAt id).trap = none →
  let u := s.takeTrap id t
  let part := s.partOf id.die id.core
  (u.engAt id).trap = some { t with clk := s.now } ∧
  { u.engAt id with trap := none, req := (s.engAt id).req } = s.engAt id ∧
  (∀ e, e ≠ id.eng → (u.coreAt id.die id.core).eng e = (s.coreAt id.die id.core).eng e) ∧
  (u.partAt id.die part).halt = some ((s.partAt id.die part).halt.getD { clk := s.now, cls := 0, sub := 0 }) ∧
  (∀ k, k ≠ coreKey id.die id.core → tGet {} u.cores k = tGet {} s.cores k) ∧
  (∀ k, k ≠ partKey id.die part → tGet {} u.parts k = tGet {} s.parts k) ∧
  { u with cores := s.cores, parts := s.parts } = s

/-- R120: `trap` raises the software trap with the low 16 bits of its register as subcode, and `halt` raises HALT; each stops its stream past itself.
Its conclusion says that exec answers a next state for: trap, halt. -/
def Obligations.TrapAndHalt : Prop := ∀ (s : State) (x : BitVec 6) (g : BitVec 3), s.canIssue (fC g) = true → s.cur.eng ≠ .h → s.me.trap = none →
  let stops := fun (i : Instr) (cls sub : Nat) => ∃ t, exec i s = .next t ∧ t.me.trap = some { cls := cls, sub := sub, skip := false, clk := s.now } ∧
    t.me.pos = s.me.pos + 2 ∧ t.me.pfx = [] ∧ t.me.x = s.me.x ∧ t.mem = s.mem ∧
    t.myPart.halt = some (s.myPart.halt.getD { clk := s.now, cls := 0, sub := 0 })
  stops (.trap x g) 8 ((s.atIssue.rx x.toNat).toNat % 2 ^ 16) ∧ stops (.halt g) 0x0A 0

/-- R131: a handler whose last instruction is not `eret` has failed: HFAIL is set, the bank is free, and the primary trap goes to containment. R132:
`eret` outside a handler is an illegal use; in one, once the handler's instructions have landed, it frees the bank and resumes the partition,
every stream of which continues from its record with its trap gone; with no fault saved up the halt line is released. Its conclusion says that
exec answers a next state for: eret. -/
def Obligations.HandlersEnd : Prop :=
  (∀ (s : State) (h : HaltSt), s.canIssue (compactForm s []) = true → s.goesOn (compactForm s []) = false →
  s.myPart.halt = some h →
  ∃ t, exec .nop16 s = .next t ∧ t.myCore.hfail = true ∧ t.myCore.inHandler = false ∧ t.myCore.htask = none ∧ t.me.phase = .ended ∧
    t.myPart.halt = some { h with handler := false, contain := true } ∧ t.mem = s.mem) ∧
  (∀ (s : State) (g : BitVec 3), s.canIssue (fC g) = true →
  (s.myCore.inHandler = false → exec (.eret g) s = .next (s.atIssue.takeTrap s.cur { cls := 2, sub := 5 })) ∧
  (s.myCore.inHandler = true → s.myCore.handlerLanded = true →
    exec (.eret g) s = .next ((s.atIssue.setMyCore s.myCore.leaveHandler).resumeWhole s.cur.die (s.partOf s.cur.die s.cur.core)).stamp) ∧
  ∀ (u : State) (die part : Nat), (∀ k ∈ u.coresOf die part, (u.coreAt die k).c.savedTrap = none ∧ (u.coreAt die k).v.savedTrap = none ∧
      (u.coreAt die k).m.savedTrap = none ∧ (u.coreAt die k).x.savedTrap = none) →
    ((u.resumePart die part).partAt die part).halt = none ∧
    (∀ k ∈ u.coresOf die part, (u.resumePart die part).coreAt die k = (u.coreAt die k).resumed u.now) ∧
    (∀ k, (∀ j ∈ u.coresOf die part, k ≠ coreKey die j) → tGet {} (u.resumePart die part).cores k = tGet {} u.cores k) ∧
    (∀ (e : Engine) (n : Nat), (e.resumed n).trap = none ∧ (e.resumed n).x = e.x ∧ (e.resumed n).p = e.p ∧ (e.resumed n).b = e.b))

/-- R17, R22, R37, R87: a stream at a header, once its ended block's raise is made, enters the body that the header's two words describe, if they
pass R87 and their term has been true for a clk, or was when it was redefined; a bad header is an illegal-instruction trap; a term that is false
leaves the stream waiting. Its conclusion says that exec answers a next state for: blockStart. -/
def Obligations.BlocksStart : Prop := ∀ (s : State) (die core : Nat) (e : Eng),
  let id : EngId := ⟨die, core, e⟩
  let u := s.fresh.doRaise id
  let g := u.engAt id
  let c := u.coreAt die core
  let w0 := c.ringWord e g.blk
  let w1 := c.ringWord e (g.blk + 4)
  let goes := c.termReady s.now (headerOf w0 w1).await = true ∨ ∃ r, g.released = some r ∧ r ≤ s.now
  s.blockDue id = true →
  (headerOk w0 w1 = true → goes →
    ∃ t, exec (.blockStart die core e) s = .next t ∧
      t.engAt id = { g with phase := .body, pos := 0, iter := 0, hdr := headerOf w0 w1, awaited := true, released := none, nextIssue := max s.now g.nextIssue, busy := [] } ∧
      { t with cores := s.cores, free := s.free } = s ∧ ∀ k, k ≠ coreKey die core → tGet {} t.cores k = tGet {} s.cores k) ∧
  (headerOk w0 w1 = true → ¬goes → exec (.blockStart die core e) s = .next u) ∧
  (headerOk w0 w1 = false → exec (.blockStart die core e) s = .next (u.takeTrap id { cls := 1, sub := 3 }))

/-- R17, R20, R140: BLOCK_RAISE raises the counter of a block that has ended, once its last result has landed, and TRACE_FREEZE freezes a trace
buffer whose count has run out. Its conclusion says that exec answers a next state for: blockRaise, traceFreeze. -/
def Obligations.RaisesAndFreezes : Prop := ∀ (s : State) (die core : Nat) (e : Eng) (n : Nat),
  (die < 4 → core < 160 → (s.engAt ⟨die, core, e⟩).raiseDue = some n → s.landedAll ⟨die, core, e⟩ = true → s.raises ⟨die, core, e⟩ = true →
    ∃ t, exec (.blockRaise die core e) s = .next t ∧ { t with cores := s.cores, free := s.free } = s ∧
      t.coreAt die core = (((s.coreAt die core).setEng e { s.engAt ⟨die, core, e⟩ with raiseDue := none }).raised e).raiseCnt s.now n 1 ∧
      ∀ k, k ≠ coreKey die core → tGet {} t.cores k = tGet {} s.cores k) ∧
  ((s.coreAt die core).trace.left = some 0 → (s.coreAt die core).trace.frozen = false →
    ∃ t, exec (.traceFreeze die core) s = .next t ∧ t.coreAt die core = { s.coreAt die core with trace := { (s.coreAt die core).trace with frozen := true } } ∧
      { t with cores := s.cores, free := s.free } = s ∧ ∀ k, k ≠ coreKey die core → tGet {} t.cores k = tGet {} s.cores k)

/-- R95, R123, R126, R128: as a halt completes, what the streams have issued lands, each engine's stop record is written from where it stood, every
core's TCAUSE and TADDR hold the primary trap's, and the halt keeps that trap; registers, memory and other partitions are as they were. Its
conclusion says that exec answers a next state for: haltComplete. -/
def Obligations.HaltsComplete : Prop := ∀ (s : State) (die part : Nat) (h : HaltSt), (s.partAt die part).halt = some h → h.complete = false →
  let v := (s.coresOf die part).foldl (fun u k => u.landNow die k) s.fresh
  let p := v.primaryTrap die part h
  (∀ k ∈ s.coresOf die part, let c := s.coreAt die k
    v.coreAt die k = if c.landing = true then c.landBy (max s.now c.lastLanding) else c) ∧
  ∃ t, exec (.haltComplete die part) s = .next t ∧ t.mem = s.mem ∧
    (t.partAt die part).halt = some { h with complete := true, who := p.1, trap := p.2, hfail := (v.coreAt p.1.die p.1.core).hfail } ∧
    (∀ k ∈ s.coresOf die part, (t.coreAt die k).tcause = s.tcauseOf p ∧ (t.coreAt die k).taddr = p.2.addr ∧
      ∀ w, w ≠ .h → let e := (v.coreAt die k).eng w
        let e1 := e.stopped (e.past 2)
        (t.coreAt die k).eng w = { e1 with stop := stopRec h (v.coreAt die k) w e1, stop0 := stopRec h (v.coreAt die k) w e1 } ∧
        ((t.coreAt die k).eng w).x = e.x) ∧
    (∀ j, (∀ k ∈ s.coresOf die part, j ≠ coreKey die k) → tGet {} t.cores j = tGet {} s.cores j) ∧
    ∀ j, j ≠ partKey die part → tGet {} t.parts j = tGet {} s.parts j

/-- R130: a standing vectored trap is delivered to the handler that its vector entry names: the bank starts in the primary core's handler buffer; an
entry of 0 sends the trap to containment, and an entry or record that cannot be used is a handler failure. Its conclusion says that exec answers
a next state for: handlerStart. -/
def Obligations.HandlersStart : Prop := ∀ (s : State) (die part : Nat) (h : HaltSt), s.standing die part = some h → s.offered die part h = true →
  let u := s.fresh
  let ctx := (s.partAt die part).ctx.getD 0
  let entry := u.vectorAt ctx (s.tvecOf die part + 8 * h.trap.cls)
  (∀ a r img, entry = some a → a ≠ 0 → a % 128 = 0 → u.handlerRec ctx die part a = some (r, img) → r.lens.1 ≠ 0 →
    ∃ t, exec (.handlerStart die part) s = .next t ∧ t.coreAt die h.who.core = (s.coreAt die h.who.core).beginHandler r img ∧
      (t.partAt die part).halt = some { h with handler := true } ∧ t.mem = s.mem ∧
      ∀ k, k ≠ coreKey die h.who.core → tGet {} t.cores k = tGet {} s.cores k) ∧
  (entry = some 0 → ∃ t, exec (.handlerStart die part) s = .next t ∧ { t with parts := s.parts, free := s.free } = s ∧
    (t.partAt die part).halt = (s.partAt die part).halt.map (fun h => { h with contain := true })) ∧
  (entry = none ∨ (∃ a, entry = some a ∧ a ≠ 0 ∧ (a % 128 ≠ 0 ∨ u.handlerRec ctx die part a = none)) →
    exec (.handlerStart die part) s = .next (u.handlerFail die h.who.core))

/-- R133, R134: containment reports a halt to the host and lets it stand until the host asks, at which the partition resumes; a switch's halt (class
0x0C) is the scheduler's; for another trap it does what the deciding level's policy says, and the partition resumes: retry counts a retry, ignore
moves the stream past the faulting unit, and a hard class, or a fourth retry, kills the task. R105, R110, R122, R124, R161: an uncorrectable
error leaves its engine with an imprecise trap of class 9 and the partition halting; a request 200 µs old of which nothing has returned times out
at its address; a reply due into a halted stream's saved context runs what is left of its instruction there, waits on, or leaves its fault to be
raised at resume. Its conclusion says that exec answers a next state for: containment, uncorrectableError, memoryTimeout, savedContextReply,
contextResume. -/
def Obligations.ContainmentAndErrors : Prop :=
  (∀ (s : State) (die part : Nat) (h : HaltSt), s.standing die part = some h → s.offered die part h = false →
  let u := s.fresh
  let ctx := (s.partAt die part).ctx.getD 0
  let k := h.who.core
  let hard := (9 ≤ h.trap.cls && h.trap.cls ≤ 0x0C) || h.trap.imprecise
  (h.trap.cls = 0x0A → exec (.containment die part) s = .next (u.setCtx { s.ctxAt ctx with hostHalt := true })) ∧
  (h.trap.cls = 0x0A → ∀ cid, (s.ctxAt cid).die = die → (s.ctxAt cid).part = part → (s.ctxAt cid).live = true → (s.partAt die part).ctx = some cid →
    (s.ctxAt cid).hostHalt = true → exec (.contextResume cid) s = .next ((u.setCtx { s.ctxAt cid with hostHalt := false }).resumeWhole die part)) ∧
  (h.trap.cls = 0x0C → exec (.containment die part) s = .next s) ∧
  (h.trap.cls ≠ 0x0A → h.trap.cls ≠ 0x0C → (s.coreAt die k).task = none → exec (.containment die part) s = .next (u.resumeIf die part)) ∧
  (∀ t, h.trap.cls ≠ 0x0A → h.trap.cls ≠ 0x0C → (s.coreAt die k).task = some t →
    let does := fun (v : State) => exec (.containment die part) s = .next (v.resumeIf die part)
    ((u.policy t ctx).2 = 2 → does (u.killAt t ctx (u.policy t ctx).1 h)) ∧
    ((u.policy t ctx).2 = 1 → hard = false → t.retries < 3 → does (u.setCoreAt die k (s.coreAt die k).retried)) ∧
    ((u.policy t ctx).2 = 1 → (hard = true ∨ 3 ≤ t.retries) → does (u.killAt t ctx 0 h)) ∧
    ((u.policy t ctx).2 = 0 → hard = false → h.trap.async = false → h.trap.skip = true → does (u.setCoreAt die k ((s.coreAt die k).skipUnit h.who.eng))) ∧
    ((u.policy t ctx).2 = 0 → hard = false → h.trap.async = false → h.trap.skip = false → does u) ∧
    ((u.policy t ctx).2 = 0 → (hard = true ∨ h.trap.async = true) → does (u.killAt t ctx 0 h)))) ∧
  (∀ (s : State) (die core : Nat) (e : Eng) (kind : BitVec 16),
  let id : EngId := ⟨die, core, e⟩
  let sub := kind.toNat % 256
  let slot := kind.toNat / 256
  (die < 4 → core < 160 → e ≠ .h → 1 ≤ sub → sub ≤ 4 → (sub = 4 → e = .m ∧ slot ≤ 15) → (sub ≠ 4 → slot = 0) → s.dieAway die = false →
    (s.partOfCore die core).halt = none → (s.engAt id).trap = none →
    exec (.uncorrectableError die core e kind) s = .next (s.fresh.uncorrectable die core e kind.toNat)) ∧
  (∀ r, die < 4 → core < 160 → (s.engAt id).saved = none → (s.engAt id).req = some r → s.overdue r.since = true → r.begun = false → s.streamRuns id = true →
    exec (.memoryTimeout die core e) s = .next (s.fresh.takeTrap id { cls := 3, sub := 5, addr := r.addr })) ∧
  (∀ r h body, (s.engAt id).saved = some r → (s.partOfCore die core).halt = some h → h.complete = true → replyBody r.instr = some body →
    let s0 := ({ s.fresh with cur := id } : State).setMe { s.engAt id with req := some r, saved := none, pfx := r.pfx }
    exec (.savedContextReply die core e) s = .next (match body s0 with
      | .ok t => (if replyEffect r.instr then t.markEffect else t).replied s.cur none
      | .error (.jump t) => t.replied s.cur none
      | .error (.wait t) => t.replied s.cur (some (t.me.req.getD r))
      | .error (.trap x) => (s0.replied s.cur none).setEngAt id { (s0.replied s.cur none).engAt id with savedTrap := some { x with skip := false } })))

/-- R135, R136: SWITCH_OUT of a partition whose context is in runs the first four steps of Table 6.5, and, where it is full and the traffic is home,
the fifth; SWITCH_IN of a context that is out runs them in reverse. Its conclusion says that exec answers a next state for: switchOut, switchIn. -/
def Obligations.ContextsSwitch : Prop := ∀ (s : State) (die part ctx : Nat),
  ((s.partAt die part).ctx = some ctx → s.dieAway die = false → (s.ctxAt ctx).out = false →
    exec (.switchOut die part false) s = .next (s.fresh.switchOut4 ctx)) ∧
  ((s.partAt die part).ctx = some ctx → s.dieAway die = false → ∀ full, exec (.switchOut die part full) s = .next (s.fresh.switchOut ctx full)) ∧
  ((s.ctxAt ctx).live = true → (s.ctxAt ctx).out = true → (s.ctxAt ctx).outFull = false → s.dieAway (s.ctxAt ctx).die = false →
    (s.partAt (s.ctxAt ctx).die (s.ctxAt ctx).part).ctx = some ctx → exec (.switchIn ctx) s = .next (s.fresh.switchIn ctx))

/-- R258 to R263: with the core's stores drained, a barrier arrival gives the flag file of `arrive` and lands its token; the waits land the phase
they waited for; a local `flag.add` adds to its flag, and one with a handle sends its add after the core's posted stores; `flag.wait` lands the
flag; nothing else changes. Its conclusion says that exec answers a next state for: barArrive, barWait, barWait4, flagAdd, flagWait. -/
def Obligations.BarriersAndFlags : Prop := ∀ (s : State) (d x y : BitVec 6) (g : BitVec 3),
  let a := s.atIssue
  let f := (a.rx x.toNat).toNat
  let w := a.rx y.toNat 1
  let fs := s.flags
  let r := arrive fs f (w.toNat % 4)
  let v := (a.setFlags s.myCtx r.1).wrapTags s.myCtx f fs r.1
  let ph := bits (flagAt fs (f + 1)) 16 16
  let ph4 := flagAt fs (f + 1 + w.toNat % 4)
  let lands := fun (i : Instr) (u : State) (n : Nat) => ∃ t, exec i s = .next t ∧ u.EndsAs t true ∧ u.Regs t (fun r => if r = d.toNat then some (BitVec.ofNat 64 n) else none)
  (s.issues (flagForm g) = true → s.myCore.drained = true →
    (barBad fs f = false → lands (.barArrive d x y g) v r.2) ∧
    (barBad fs f = false → barFour (flagAt fs f) = false → 0 ≤ (BitVec.ofNat 16 ph - BitVec.ofNat 16 w.toNat).toInt → lands (.barWait d x y g) a ph) ∧
    (f ≤ 4095 → 0 ≤ (tGet 0 fs f - BitVec.ofNat 32 w.toNat).toInt → lands (.flagWait d x y g) a (tGet 0 fs f).toNat) ∧
    (barBad fs f = true → exec (.barArrive d x y g) s = .next (a.takeTrap s.cur { cls := 2, sub := 0x26, addr := BitVec.ofNat 64 f }))) ∧
  (s.issues { flagForm g with feature := some 4 } = true → s.myCore.drained = true → barBad fs f = false → barFour (flagAt fs f) = true → bit ph4 15 = false →
    lands (.barWait4 d x y g) a (bits ph4 16 16)) ∧
  (s.issues (flagForm g) = true → s.myCore.drained = true →
    let i := (a.rx x.toNat 1).toNat
    let n := BitVec.ofNat 32 (a.rx y.toNat 2).toNat
    i ≤ 4095 →
    (d.toNat = 0 → ∃ t, exec (.flagAdd d x y g) s = .next t ∧ (a.setFlags s.myCtx (addFlag fs i n)).EndsAs t true ∧ t.me.x = s.me.x) ∧
    (∀ e, d.toNat ≠ 0 → s.importOf s.myCtx (a.rx d.toNat) [3] = .ok e →
      let q := a.newItem s.cur.die s.cur.core { pid := 0, imp := e.2.uid, home := if e.2.foreign then none else some e.2.die, eng := s.cur.eng }
      ∃ t, exec (.flagAdd d x y g) s = .next t ∧
        ({ q.2 with flagMsgs := s.flagMsgs ++ [⟨s.cur.die, s.cur.core, s.myCore.nextPid, e.2.exp, e.2.die, i, n⟩] } : State).EndsAs t true ∧ t.me.x = s.me.x))

/-- R110, R263: `chunk`, once the core's stores have been performed, sends its request; with its reply it lands the next index and the size it takes,
and leaves the advanced index in memory, in exactly its eight bytes. Its conclusion says that exec answers a next state for: chunk. -/
def Obligations.ChunksLand : Prop := ∀ (s : State) (d x y : BitVec 6) (g : BitVec 3) (p : Phys),
  let a := s.atIssue
  let ea := (a.rx x.toNat).toNat
  let w := (a.rx y.toNat 1).toNat
  let next := a.cohNat p.key 8
  let size := chunkSize next (a.cohNat (p.key + 8) 8) (bits w 0 32) (if bits w 32 16 = 0 then a.gangTiles else bits w 32 16)
  s.issues { fC g (subUnless (d.toNat % 2 = 0 && d.toNat ≠ 0) subREGRANGE) with eff := true } = true → aligned ea 16 = true → bits w 48 16 = 0 →
  a.check s.myCtx none [0] ea 16 true = .ok p → p.mtype = 0 →
  (a.reqOut (.chunk d x y g) ea = false → s.myCore.drained = true → a.storesAt p.key 16 = false →
    exec (.chunk d x y g) s = .next (a.noteReq (.chunk d x y g) ea true)) ∧
  (a.reqOut (.chunk d x y g) ea = true → a.canWrite p.home none p 16 = .ok () →
    ∃ t, exec (.chunk d x y g) s = .next t ∧ (a.putMem p.key p.keyNo (natToBytes 8 (next + size))).EndsAs t true ∧
      s.Regs t (fun r => if r = d.toNat then some (BitVec.ofNat 64 next) else if r = d.toNat + 1 then some (BitVec.ofNat 64 size) else none) ∧
      ∀ k, tGet 0 t.mem k = if p.key ≤ k ∧ k < p.key + 8 then (natToBytes 8 (next + size)).getD (k - p.key) 0 else tGet 0 s.mem k)

/-- R262, R259: a deferred arrival joins the core's list, bound to the entries of its queue; once it is ready it is performed on the flag file, or
traps; FLAG_ADD_ARRIVAL performs a posted add at its flag file, or drops it where the export is revoked, and sends its acknowledgement. Its
conclusion says that exec answers a next state for: barArriveD, flagAddArrival. -/
def Obligations.ArrivalsFromAfar : Prop := ∀ (s : State) (x y : BitVec 6) (g : BitVec 3),
  let a := s.atIssue
  let c := s.myCore
  let q : Deferred := { at_ := s.now + 1, f := a.rx x.toNat, j := (a.rx y.toNat 1).toNat % 4, nums := (c.copyq.filter (fun k => !k.helper)).map (·.num),
                        pids := (c.posted.filter (fun i => i.copy && !i.dropped)).map (·.pid) }
  (s.issues { fX g (s.regs [x.toNat, y.toNat]) with eff := true } = true →
    ∃ t, exec (.barArriveD x y g) s = .next t ∧ (a.setMyCore { c with defer := c.defer ++ [q] }).EndsAs t true ∧ t.me.x = s.me.x) ∧
  (∀ (die core : Nat) (d : Deferred), (s.partOfCore die core).halt = none → (s.coreAt die core).defer = [d] → (s.coreAt die core).deferReady s.now d = true →
    let u := s.setCoreAt die core { s.coreAt die core with defer := [] }
    let cx := s.ctxOf die core
    let fs := (s.ctxAt cx).flags
    s.settleDefer die core = if barBad fs d.f.toNat = true
      then u.takeTrap ⟨die, core, .x⟩ { cls := 2, sub := 0x26, addr := d.f, imprecise := true, async := true, skip := false }
      else (u.setFlags cx (arrive fs d.f.toNat d.j).1).wrapTags cx d.f.toNat fs (arrive fs d.f.toNat d.j).1) ∧
  (∀ n m e, s.flagMsgs[n]? = some m → s.flagAddDue m n = true → s.exportOf m.exp = some e →
    let u : State := { s.fresh with flagMsgs := dropNth s.flagMsgs n }
    (e.revoked = false → exec (.flagAddArrival n) s = .next ((u.flagAdd e.ctx m.idx m.val).ackItem m.home m.die m.core m.pid false)) ∧
    (e.revoked = true → exec (.flagAddArrival n) s = .next (u.ackItem m.home m.die m.core m.pid true)))

/-- R144 to R148: a float instruction of the vector stream writes each active lane with the exact result of its input lanes rounded to f32 in the
row's mode, ORs every active lane's flags into FPFLAGS, and advances SRSEQ where the row rounds with SR; vmin, vmax, vabs and vneg choose or
change a sign and round the same way; the approximations round onto G16. Inactive lanes, every other register and all else are as they were. Its
conclusion says that exec answers a next state for: vaddF32, vsubF32, vmulF32, vminF32, vmaxF32, vabsF32, vnegF32, vfmaF32, vfmsF32, vfnmaF32,
vfnmsF32, vrcp, vrsqrt, vexp2, vlog2. -/
def Obligations.FloatLanesLand : Prop := ∀ (s : State) (d x y z : BitVec 5) (q g : BitVec 3), s.issues (fVF g) = true →
  let a := s.atIssue
  let on := a.active q.toNat
  let r := fun k => laneIn a.flush (a.rv x.toNat k)
  let u := fun k => laneIn a.flush (a.rv y.toNat k 1)
  let w := fun k => laneIn a.flush (a.rv z.toNat k 2)
  let rnd := fun k => roundLane a.row a.flush (a.vsr a.row.slot k)
  let grid := fun (fl : Flags) (c : Nat × Flags) => ((BitVec.ofNat 32 (c.1 * 256), fl ||| c.2) : LaneRes)
  let to16 := fun k (v : FVal × Flags) => let c := roundFmt g16 v.1 a.row.rnd true a.flush (a.vsr a.row.slot k); (c.1, v.2 ||| c.2)
  let lands := fun (i : Instr) (on : Nat → Bool) (f : Nat → LaneRes) =>
    ∃ t, exec i s = .next t ∧ s.LanesLand t d.toNat (onLanes on fun k => (f k).1) (lanesFlags on f (upto 0 64)) (decide (a.row.rnd = 4))
  let two := fun (op : FVal → FVal → FVal × Flags) k => let v := op (r k).1 (u k).1; rnd k v.1 ((r k).2 ||| (u k).2 ||| v.2)
  let one := fun (op : FVal → FVal) k => rnd k (op (r k).1) ((r k).2 ||| 0)
  let fused := fun (p c : FVal → FVal) k => let v := fFma (p (r k).1) (u k).1 (c (w k).1); rnd k v.1 ((r k).2 ||| (u k).2 ||| (w k).2 ||| v.2)
  lands (.vaddF32 d x y q g) on (two fAdd) ∧
  lands (.vsubF32 d x y q g) on (two fun m n => fAdd m (fNeg n)) ∧
  lands (.vmulF32 d x y q g) on (two fMul) ∧
  lands (.vminF32 d x y q g) on (two fun m n => (fMin m n, 0)) ∧
  lands (.vmaxF32 d x y q g) on (two fun m n => (fMax m n, 0)) ∧
  lands (.vabsF32 d x q g) on (one fAbs) ∧
  lands (.vnegF32 d x q g) on (one fNeg) ∧
  lands (.vfmaF32 d x y z g) (a.active 0) (fused id id) ∧
  lands (.vfmsF32 d x y z g) (a.active 0) (fused id fNeg) ∧
  lands (.vfnmaF32 d x y z g) (a.active 0) (fused fNeg fNeg) ∧
  lands (.vfnmsF32 d x y z g) (a.active 0) (fused fNeg id) ∧
  lands (.vrcp d x q g) on (fun k => grid (r k).2 (to16 k (fRcp (r k).1))) ∧
  lands (.vrsqrt d x q g) on (fun k => grid (r k).2 (to16 k (fRsqrt (r k).1))) ∧
  lands (.vexp2 d x q g) on (fun k => grid (r k).2 (exp2G16 (r k).1 a.row.rnd a.flush (a.vsr a.row.slot k) (a.rv x.toNat k).toNat)) ∧
  lands (.vlog2 d x q g) on (fun k => grid (r k).2 (log2G16 (r k).1 a.row.rnd a.flush (a.vsr a.row.slot k) (a.rv x.toNat k).toNat))

/-- R149, R150: an integer or bitwise instruction of the vector stream writes each active lane with the result of its input lanes and sets no flag,
and every other lane, every other register and all else are as they were; the funnel shifts, the rotates and `vlut3` do the same with a legal
amount or table. Its conclusion says that exec answers a next state for: vaddI32, vsubI32, vmulI32, vmulhI32, vminI32, vmaxI32, vminuI32,
vmaxuI32, vand, vor, vxor, vandn, vsll, vsrl, vsra, vlut3, vfsl, vfsr, vrotl, vpopc, vclz, vbrev. -/
def Obligations.IntegerLanesLand : Prop := ∀ (s : State) (d x y z : BitVec 5) (q g : BitVec 3) (i : BitVec 6),
  let a := s.atIssue
  let on := a.active q.toNat
  let r := a.rv x.toNat
  let u := fun k => a.rv y.toNat k 1
  let w := fun k => a.rv z.toNat k 2
  let lands := fun (i : Instr) (on : Nat → Bool) (f : Nat → Lane) => ∃ t, exec i s = .next t ∧ s.LanesLand t d.toNat (onLanes on f) 0 false
  (s.issues (fV g) = true →
    lands (.vaddI32 d x y q g) on (fun k => r k + u k) ∧
    lands (.vsubI32 d x y q g) on (fun k => r k - u k) ∧
    lands (.vmulI32 d x y q g) on (fun k => r k * u k) ∧
    lands (.vmulhI32 d x y q g) on (fun k => BitVec.ofInt 32 ((r k).toInt * (u k).toInt / 2 ^ 32)) ∧
    lands (.vminI32 d x y q g) on (fun k => if (r k).slt (u k) then r k else u k) ∧
    lands (.vmaxI32 d x y q g) on (fun k => if (r k).slt (u k) then u k else r k) ∧
    lands (.vminuI32 d x y q g) on (fun k => if (r k).ult (u k) then r k else u k) ∧
    lands (.vmaxuI32 d x y q g) on (fun k => if (r k).ult (u k) then u k else r k) ∧
    lands (.vand d x y q g) on (fun k => r k &&& u k) ∧
    lands (.vor d x y q g) on (fun k => r k ||| u k) ∧
    lands (.vxor d x y q g) on (fun k => r k ^^^ u k) ∧
    lands (.vandn d x y q g) on (fun k => r k &&& ~~~u k) ∧
    lands (.vsll d x y q g) on (fun k => r k <<< ((u k).toNat % 32)) ∧
    lands (.vsrl d x y q g) on (fun k => r k >>> ((u k).toNat % 32)) ∧
    lands (.vsra d x y q g) on (fun k => (r k).sshiftRight ((u k).toNat % 32)) ∧
    lands (.vpopc d x q g) on (fun k => lPopc (r k)) ∧
    lands (.vclz d x q g) on (fun k => lClz (r k)) ∧
    lands (.vbrev d x q g) on (fun k => lBrev (r k))) ∧
  (s.issues (fV g (subUnless (i.toNat ≤ 32) subIMMRANGE)) = true →
    lands (.vfsl d x y i g) (a.active 0) (fun k => BitVec.ofNat 32 (((r k).toNat * 2 ^ 32 + (u k).toNat) * 2 ^ i.toNat / 2 ^ 32)) ∧
    lands (.vfsr d x y i g) (a.active 0) (fun k => BitVec.ofNat 32 (((r k).toNat * 2 ^ 32 + (u k).toNat) / 2 ^ i.toNat))) ∧
  (s.issues (fV g (subUnless (i.toNat ≤ 31) subIMMRANGE)) = true →
    lands (.vrotl d x i g) (a.active 0) (fun k => BitVec.ofNat 32 (((r k).toNat * 2 ^ 32 + (r k).toNat) * 2 ^ i.toNat / 2 ^ 32))) ∧
  (s.issues { fV g (subUnless ((s.extBits.getD 0) < 256) subRSVFIELD) with ext := true, needExt := true } = true →
    lands (.vlut3 d x y z g) (a.active 0) (fun k => lut3 (s.extBits.getD 0 % 256) (r k) (u k) (w k)))

/-- R155 to R158: the slides, `vperm`, `vsel`, `vpart`, `vmv` and `vbcast` write the lanes their rules name with what the rules give, set no flag,
and leave every other lane, register and all else as they were; and `vsetvl` with a legal length sets vl alone. Its conclusion says that exec
answers a next state for: vpart, vslideup, vslidedn, vperm, vsetvlImm, vsetvlReg, vmv, vbcast, vsel. -/
def Obligations.LanesMove : Prop := ∀ (s : State) (d x y : BitVec 5) (q g : BitVec 3) (i n : BitVec 6) (m : BitVec 7),
  let a := s.atIssue
  let r := a.rv x.toNat
  let u := fun k => a.rv y.toNat k 1
  let lands := fun (i : Instr) (on : Nat → Bool) (f : Nat → Lane) => ∃ t, exec i s = .next t ∧ s.LanesLand t d.toNat (onLanes on f) 0 false
  let long := fun (i : Instr) (k : Nat) => ∃ t, exec i s = .next t ∧ s.CoreTo t { s.myCore with vl := k } ∧ t.me.x = s.me.x
  (s.issues (fV g) = true →
    lands (.vslideup d x y i g) (a.active 0) (fun k => if a.rvl + k < i.toNat then 0 else
      let j := a.rvl + k - i.toNat
      if j < a.rvl then a.rv y.toNat j else a.rv x.toNat (j - a.rvl) 1) ∧
    lands (.vslidedn d x y i g) (a.active 0) (fun k => if k + i.toNat < 2 * a.rvl then
      (if k + i.toNat < a.rvl then a.rv x.toNat (k + i.toNat) else a.rv y.toNat (k + i.toNat - a.rvl) 1) else 0) ∧
    lands (.vperm d x y q g) (a.active q.toNat) (fun k => r ((u k).toNat % 64)) ∧
    lands (.vsel d x y q g) (a.active 0) (fun k => if (a.rq q.toNat).getLsbD k then r k else u k) ∧
    lands (.vpart d x q g) (a.active 0) (fun k =>
      r (((upto 0 a.rvl).filter (fun j => (a.rq q.toNat).getLsbD j) ++ (upto 0 a.rvl).filter (fun j => !(a.rq q.toNat).getLsbD j)).getD k 0))) ∧
  (s.issues (fV g (s.regs [n.toNat])) = true →
    lands (.vmv d x n g) (a.active 0) (fun k => if k = bits (a.rx n.toNat).toNat 32 6 then BitVec.ofNat 32 (a.rx n.toNat).toNat else r k) ∧
    lands (.vbcast d n g) (a.active 0) (fun _ => BitVec.ofNat 32 (a.rx n.toNat).toNat) ∧
    long (.vsetvlReg n g) (min (max (a.rx n.toNat).toNat 1) 64)) ∧
  (s.issues (fV g (subUnless (1 ≤ m.toNat && m.toNat ≤ 64) subIMMRANGE)) = true → long (.vsetvlImm m g) m.toNat)

/-- R151, R152: the compares and mask operations write q[d] and nothing else but its trace event (R139); a write to q0 is discarded. Its conclusion
says that exec answers a next state for: vcmpF32, vcmpI32, qand, qor, qxor, qandn, qnot, qmov. -/
def Obligations.MasksLand : Prop := ∀ (s : State) (d m n : BitVec 4) (x y : BitVec 5) (c q g : BitVec 3),
  let a := s.atIssue
  let f := fun k => (laneIn a.flush (a.rv x.toNat k)).1
  let h := fun k => (laneIn a.flush (a.rv y.toNat k 1)).1
  let lands := fun (i : Instr) (w : Word) => ∃ t, exec i s = .next t ∧ s.MaskLands t d.toNat w
  (s.issues { fV g with wf := c.toNat ≤ 3 } = true →
    lands (.vcmpF32 d x y c q g) (laneMask fun k => a.active q.toNat k && vcmpFCond c.toNat (f k) (h k))) ∧
  (s.issues { fV g with wf := c.toNat ≤ 5 } = true →
    lands (.vcmpI32 d x y c q g) (laneMask fun k => a.active q.toNat k && vcmpICond c.toNat (a.rv x.toNat k) (a.rv y.toNat k 1))) ∧
  (s.issues (fV g) = true →
    lands (.qand d m n g) (a.rq m.toNat &&& a.rq n.toNat 1) ∧
    lands (.qor d m n g) (a.rq m.toNat ||| a.rq n.toNat 1) ∧
    lands (.qxor d m n g) (a.rq m.toNat ^^^ a.rq n.toNat 1) ∧
    lands (.qandn d m n g) (a.rq m.toNat &&& ~~~a.rq n.toNat 1) ∧
    lands (.qnot d m n g) (~~~a.rq m.toNat) ∧
    lands (.qmov d m n g) (a.rq m.toNat))

/-- R164 to R168: a reduction leaves its tree's value in lane 0, a scan every active lane's running value, a conversion its elements packed or
unpacked, and `vmxq` its elements and then its scale bytes; each ORs its flags into FPFLAGS and advances SRSEQ where it rounds with SR. All else
is as it was. Its conclusion says that exec answers a next state for: vred, vscan, vcvtTo, vcvtFrom, vmxq, vsrc. -/
def Obligations.ReductionsAndConversionsLand : Prop := ∀ (s : State) (d x e : BitVec 5) (m q g : BitVec 3) (f : BitVec 6),
  let a := s.atIssue
  let on := a.active q.toNat
  let lands := fun (i : Instr) (h : Nat → Option Lane) (fl : Flags) (sr : Bool) => ∃ t, exec i s = .next t ∧ s.LanesLand t d.toNat h fl sr
  let tree := a.redTree m.toNat 6 1 ((upto 0 64).map fun k => if on k then some (a.redSrc m.toNat (a.rv x.toNat k)).1 else none)
  let run := a.scanLanes m.toNat x.toNat q.toNat (upto 0 64) none
  let elems := fun rnd j => a.cvtElem f.toNat rnd (a.rv x.toNat j) j
  let packed := fun (w k : Nat) (h : Nat → Option Nat) l => if packTouched (32 / w) h l then some (BitVec.ofNat 32 (packLane w (32 / w) h l (a.rv d.toNat l k).toNat (32 / w))) else none
  let turned := fun (i : Instr) (rnd : Nat) => lands i (packed (fmtOf f.toNat).width 1 fun j => if on j then some (elems rnd j).1 else none)
    (lanesFlags on (fun j => (0, (elems rnd j).2)) (upto 0 64)) (decide (rnd = 4))
  (s.issues { fVF g with wf := m.toNat ≤ 5 } = true →
    lands (.vred d x m q g) (fun k => if k = 0 then some (tree.1.getD (redIdentity m.toNat)) else none) (a.redInFlags m.toNat x.toNat q.toNat ||| tree.2)
      (decide (m.toNat = 0) && a.sr) ∧
    lands (.vscan d x m q g) (fun k => run.1.getD k none) (a.redInFlags m.toNat x.toNat q.toNat ||| run.2) (decide (m.toNat = 0) && a.sr)) ∧
  (s.issues (cvtForm f g) = true →
    turned (.vcvtTo d x f q g) a.row.rnd ∧ turned (.vsrc d x f q g) 4 ∧
    lands (.vcvtFrom d x f q g) (onLanes on fun j => (a.fromElem f.toNat x.toNat j).1) (lanesFlags on (a.fromElem f.toNat x.toNat) (upto 0 64)) a.sr) ∧
  (s.issues (fVF g (subUnless (0x20 ≤ f.toNat && f.toNat ≤ 0x24) subIMMRANGE)) = true →
    let bs := if a.row.b16 then 16 else 32
    let nb := (a.rvl + bs - 1) / bs
    let blocks := (upto 0 nb).map (a.mxqBlock f.toNat x.toNat bs)
    let w := (fmtOf (mxBlock f.toNat).1).width
    let elem := fun j => ((blocks.getD (j / bs) (0, [])).2.getD (j % bs) (0, 0))
    let some_ := fun j => if j < nb * bs then some (elem j).1 else none
    let lane := packLane w (32 / w) some_ 0 (a.rv d.toNat 0 1).toNat (32 / w)
    let old := if e.toNat = d.toNat then (if packTouched (32 / w) (fun j => if j < nb * bs then some 0 else none) 0 then lane else (a.rv d.toNat 0 1).toNat)
      else (a.rv e.toNat 0 2).toNat
    let scales := packLane 8 4 (fun b => if b < nb then some (blocks.getD b (0, [])).1 else none) 0 old 4
    let fl := (upto 0 64).foldl (fun f j => if j < nb * bs then f ||| (elem j).2 else f)
      (lanesFlags (fun j => decide (j < a.rvl)) (fun j => (a.rv x.toNat j, (laneIn a.flush (a.rv x.toNat j)).2)) (upto 0 64))
    ∃ t, exec (.vmxq d x e f g) s = .next t ∧ t.me.x = s.me.x ∧
      s.CoreTo t ((s.myCore.lanes d.toNat (packed w 1 some_) 0 false).lanes e.toNat (fun l => if l = 0 then some (BitVec.ofNat 32 scales) else none) fl a.sr))

/-- R124, R160 to R163: a vector load whose every element passes its checks lands the words in its active lanes: of the scratchpad at once, where its
range is free; of global memory once every element has returned, which they do one by one, each with the word its port reads, and then with owner
tags and one trace entry; of a device or strongly ordered page the request leaves first. Nothing else changes. Its conclusion says that exec
answers a next state for: vgath, vld32, vldB. -/
def Obligations.VectorLoadsLand : Prop := ∀ (s : State) (v ix : BitVec 5) (b : BitVec 6) (sp : BitVec 1) (q g : BitVec 3),
  let a := s.atIssue
  let ea := a.vmAddr b.toNat
  let lands := fun (i : Instr) (at_ : Nat) (addr : Nat → Nat) (range : Nat × Nat) =>
    let es := a.elems q.toNat addr
    (sp = 1 → a.myCore.spElems false es = .ok () → (range.2 = 0 ∨ (a.myCore.conflict range.1 range.2 false = false ∧ a.myCore.sb.length < Config.scoreboardSize)) →
      a.spElemsReady false es = .ok () →
      ∃ t, exec i s = .next t ∧ s.LanesLand t v.toNat (onLanes (a.active q.toNat) fun k => BitVec.ofNat 32 (bytesToNat (a.spBytes s.cur.die s.cur.core (addr k) 4))) 0 false) ∧
    (sp ≠ 1 → ∀ ps u, a.glElems false es = .ok (ps, u) → (∀ p ∈ ps, a.myCore.inOrder s.cur.eng p.mtype = true) →
      (onceOnly ps = true → a.reqOut i at_ = false → exec i s = .next (a.noteReq i at_ true)) ∧
      ((onceOnly ps = true → a.reqOut i at_ = true) →
        let r := a.takeElems (es.zip ps) (a.gotten i at_)
        let u1 := match es with
          | [] => u
          | e :: _ => u.trace 2 2 (BitVec.ofNat 64 e.2)
        ((∀ e ∈ es, (tFind (a.gotten i at_) e.1).isSome) → r.1 = a.gotten i at_) ∧
        ((∀ p ∈ ps, a.canRead s.cur.die none p 4 = .ok ()) → ∀ k w, tFind r.1 k = some w → tFind (a.gotten i at_) k = some w ∨
          ∃ e p, (e, p) ∈ es.zip ps ∧ e.1 = k ∧ w = BitVec.ofNat 32 (bytesToNat (a.portBytes s.cur.die s.cur.core p.key p.home 4))) ∧
        ((∀ e ∈ es, (tFind r.1 e.1).isSome) →
          ∃ t, exec i s = .next t ∧ (u1.setMyCore (u1.myCore.lanes v.toNat (tFind r.1) 0 false)).EndsAs t false ∧ t.me.x = s.me.x) ∧
        ((∃ e ∈ es, tFind r.1 e.1 = none) → exec i s = .next (r.2.keepGot i at_ r.1))))
  (s.issues { vmForm b g s with ext := true } = true → aligned ea 4 = true →
    lands (.vld32 v b sp q g) ea (fun l => (ea + 4 * l) % 2 ^ 64) (ea, 4 * a.rvl) ∧
    lands (.vldB v b sp q g) ea (fun _ => ea) (ea, 4)) ∧
  (s.issues (vmForm b g s) = true →
    let es := a.elems q.toNat (a.vgAddr b.toNat ix.toNat)
    lands (.vgath v ix b sp q g) ((es.map (·.2)).headD 0) (a.vgAddr b.toNat ix.toNat) (elemRange es))

/-- R160, R161, R163: a vector store whose every element passes its checks writes the scratchpad word by word in lane order, or enters every element
in the store and posted queues at once, the last of those that name one word winning; a global one leaves one trace entry too. Its conclusion
says that exec answers a next state for: vscat, vst32. -/
def Obligations.VectorStoresLand : Prop := ∀ (s : State) (v ix : BitVec 5) (b : BitVec 6) (sp : BitVec 1) (q g : BitVec 3),
  let a := s.atIssue
  let ea := a.vmAddr b.toNat
  let w := fun l => a.rv v.toNat l
  let lands := fun (i : Instr) (addr : Nat → Nat) (range : Nat × Nat) =>
    let es := a.elems q.toNat addr
    (sp = 1 → a.myCore.spElems true es = .ok () → (range.2 = 0 ∨ (a.myCore.conflict range.1 range.2 true = false ∧ a.myCore.sb.length < Config.scoreboardSize)) →
      a.spElemsReady true es = .ok () → ∃ t, exec i s = .next t ∧ (a.spStore w es).EndsAs t false ∧ t.me.x = s.me.x) ∧
    (sp ≠ 1 → ∀ ps u, a.glElems true es = .ok (ps, u) →
      (∀ p ∈ ps, a.storeOrder p = true) →
      a.storeRoom ((lastOf (es.zip ps)).map (·.2)) = true →
      let u1 := u.storeAll w (lastOf (es.zip ps))
      let u2 := match es with
        | [] => u1
        | e :: _ => u1.trace 3 2 (BitVec.ofNat 64 e.2)
      ∃ t, exec i s = .next t ∧ u2.EndsAs t true ∧ t.me.x = s.me.x)
  (s.issues { vmForm b g s with ext := true, eff := sp ≠ 1 } = true → aligned ea 4 = true →
    lands (.vst32 v b sp q g) (fun l => (ea + 4 * l) % 2 ^ 64) (ea, 4 * a.rvl)) ∧
  (s.issues { vmForm b g s with eff := sp ≠ 1 } = true →
    lands (.vscat v ix b sp q g) (a.vgAddr b.toNat ix.toNat) (elemRange (a.elems q.toNat (a.vgAddr b.toNat ix.toNat))))

/-- R174, R176, R188 to R190: `mnest` writes one field of the shadow set and the `mop` forms a descriptor, each setting MSTAT.SHADOWPEND; a value out
of range is the trap of R184; `mfmt` dumps the status words at once and loads the format table 80 clk later, `mfmt.pool` places the pool,
`mfmtcommit` commits the pending fallbacks 2 clk later, and in an interlocked block both wait for a landing of their own stream that is still on
its way to the table; nothing else changes. Its conclusion says that exec answers a next state for: mnest, mopa, mopb, mopm, mfmt, mfmtPool,
mfmtcommit. -/
def Obligations.NestsAndTables : Prop := ∀ (s : State) (l f g : BitVec 3) (x y z : BitVec 6) (p t : BitVec 1),
  let a := s.atIssue
  let c := s.myCore
  let leaves := fun (i : Instr) (c : Core) => ∃ u, exec i s = .next u ∧ s.CoreTo u c ∧ u.me.x = s.me.x
  let shadow := fun (n : NestSet) => { c with shadow := n, shadowPend := true }
  let o := mkOperand (a.rx x.toNat) (a.rx y.toNat 1) (decide (p = 1)) (decide (t = 1))
  let late := s.me.hdr.ilk && s.tableLate
  (s.issues (fM g (subUnless (x.toNat < 16) subREGRANGE ++ subUnless (l.toNat < 6 && f.toNat < 4 && (f.toNat = 0 || 3 ≤ l.toNat)) subIMMRANGE)) = true →
    (nestOk l.toNat f.toNat (a.rx x.toNat) = true →
      leaves (.mnest l f x g) (shadow (c.shadow.setLevel l.toNat ((c.shadow.level l.toNat).setField f.toNat (a.rx x.toNat))))) ∧
    (nestOk l.toNat f.toNat (a.rx x.toNat) = false → exec (.mnest l f x g) s = .next (a.takeTrap s.cur { cls := 2, sub := 0x10 }))) ∧
  (s.issues (fM g (subUnless (x.toNat < 16 && y.toNat < 16) subREGRANGE)) = true →
    ((t = 1 → p = 1) → leaves (.mopa x y p t g) (shadow { c.shadow with a := o }) ∧ leaves (.mopb x y p t g) (shadow { c.shadow with b := o })) ∧
    (t ≠ 1 → o.soff = 0 → leaves (.mopm x y p t g) (shadow { c.shadow with m := o })) ∧
    (t = 1 → p ≠ 1 → exec (.mopa x y p t g) s = .next (a.takeTrap s.cur { cls := 2, sub := 0x11 }))) ∧
  (s.issues (rrForm g [x, y, z]) = true →
    let ctl := (a.rx z.toNat 2).toNat
    let src := (a.rx y.toNat 1).toNat
    let dst := (a.rx x.toNat).toNat
    let n := bits ctl 0 7
    n ≤ 64 → ctl / 2 ^ 9 = 0 →
    (n ≠ 0 → aligned src 8 = true ∧ c.spCheck src (8 * n) false = .ok () ∧ a.spReady s.cur.die s.cur.core src (8 * n) false = .ok ()) →
    (bit ctl 7 = true → aligned dst 4 = true ∧ c.spCheck dst 256 true = .ok () ∧ a.spReady s.cur.die s.cur.core dst 256 true = .ok ()) →
    badRow (a.tableWords src n) 0 = none → late = false →
    let v := if bit ctl 7 then a.dumpStat dst else a
    ∃ u, exec (.mfmt x y z g) s = .next u ∧ u.me.x = s.me.x ∧
      (v.setMyCore (v.myCore.addLate ⟨s.now + 80, s.cur.eng, .table (bit ctl 8) (v.tableWords src n)⟩)).EndsAs u false) ∧
  (s.issues (rrForm g [x, y]) = true → c.poolOk (a.rx x.toNat).toNat (a.rx y.toNat 1).toNat = true →
    leaves (.mfmtPool x y g) { c with poolBase := (a.rx x.toNat).toNat, poolUnits := (a.rx y.toNat 1).toNat }) ∧
  (s.issues (fM g) = true → late = false → leaves (.mfmtcommit g) (c.addLate ⟨s.now + 2, s.cur.eng, .commit⟩)) ∧
  (s.issues (rrForm g [x, y, z]) = true → late = true → exec (.mfmt x y z g) s = .next a) ∧
  (s.issues (fM g) = true → late = true → exec (.mfmtcommit g) s = .next a) ∧
  (∀ (k : Core) (clear : Bool) (ws : List Nat) (w : Eng) (n : Nat), k.late = [] → k.c.cntReads = [] → k.h.cntReads = [] →
    (k.addLate ⟨n, w, .table clear ws⟩).landBy n = k.loadTable clear ws ∧ (k.addLate ⟨n, w, .commit⟩).landBy n = k.commit n ∧
    (ws ≠ [] → (k.loadTable clear ws).fmtStat = [] ∧ ∀ r, (k.loadTable clear ws).cfgRow r = if r < ws.length then BitVec.ofNat 64 (ws.getD r 0) else fmtReset r))

/-- R179, R197, R175: `mma`, `mmas` and `mgo` start an operation on the link that the slot names when every check passes and a place is free;
MATRIX_GROUP fetches its next group whole, a narrowed group keeping its operands for its second half, and adds it to the link's sums, an element
in extent by the rule of Table 3.9 and no other, and moves its place on; past the last group the operation lands. Its conclusion says that exec
answers a next state for: mma, mmas, mgo, matrixGroup. -/
def Obligations.MatrixOperationsRun : Prop := ∀ (s : State) (k : BitVec 4) (f : BitVec 6) (g : BitVec 3) (die core : Nat),
  let a := s.atIssue
  let c := s.myCore
  let row := a.rowOf
  let cfg := a.rowWord row 0
  let af := bits cfg.toNat 58 6
  let bf := bits cfg.toNat 52 6
  let key := s.linkKey s.myCtx s.cur.die s.cur.core k.toNat
  let l := s.linkAt key
  let starts := fun (i : Instr) (x : NestSet) (sparse go : Bool) =>
    let rs := (x.spans af bf sparse ++ x.scaleSpans af bf (bit cfg.toNat 45) sparse).filterMap x.spRange
    x.layoutOk af bf (bit cfg.toNat 45) sparse = true → (∀ r ∈ rs, 0 ≤ r.1 ∧ r.2 < Config.spSize) → c.sb.length + rs.length ≤ Config.scoreboardSize →
    a.rangesReady (rs.map rangeLen) = .ok () →
    ∃ t, exec i s = .next t ∧ (a.startOp k.toNat key sparse a.flush cfg x (!go) (rs.map rangeLen)).EndsAs t true ∧ t.me.x = s.me.x
  (¬(s.me.hdr.ilk = true ∧ s.tableLate = true) → c.ops.length < 2 → (∀ o ∈ c.ops, o.lastGo = true) →
    (f.toNat = 0x3F ∨ f.toNat = bits (if s.tableLate then cfg else c.cfgRow row).toNat 58 6) →
    l.state ∉ [.idle, .ready, .sent, .frozen] → l.own = s.myCtx → l.issued ≠ l.decl →
    (s.issues (mmForm f g) = true → starts (.mma k f g) c.shadow false false ∧ (c.mActive = true → starts (.mgo k f g) c.active c.mSparse true)) ∧
    (s.issues { mmForm f g with feature := some 3 } = true → starts (.mmas k f g) c.shadow true false)) ∧
  (∀ o rest, (s.coreAt die core).ops = o :: rest → s.groupDue die core o = true →
    (o.over = true → exec (.matrixGroup die core) s = .next (s.fresh.landOp die core o)) ∧
    (o.over = false →
      let lo := if o.prog.half then 32 else 0
      let adds := fun (v : List Vec × List Vec) (w : State) =>
        let more := o.held.isNone && !o.prog.half && w.narrow
        let n := if more then 32 else 64
        let z := o.add lo n v.1 v.2 (w.linkAt o.link).sum
        let o1 := { o with prog := if more then { o.prog with half := true } else o.next o.prog, held := if more then some v else none,
                           narrowed := o.narrowed || w.narrow || o.held.isSome, wait := none }
        let w1 := if (w.linkAt o.link).state = .idle then w else w.setLink o.link { w.linkAt o.link with sum := z.1 }
        let d := (w1.coreAt die core).orFlags z.2
        let w2 := w1.setCoreAt die core { d with ops := d.ops.modifyHead fun _ => o1, mSkid := d.mSkid || (w.partOfCore die core).halt.isSome }
        exec (.matrixGroup die core) s = .next (if o1.over then w2.landOp die core o1 else w2) ∧
        ((w.linkAt o.link).state ≠ .idle → (w2.linkAt o.link).sum = z.1) ∧
        ∀ j, tGet 0 z.1 j = if j < 4096 then (if o.inPart lo n j then
            BitVec.ofNat 32 (accStep o.flush (tGet 0 (w.linkAt o.link).sum j) (groupValue (bits o.row.toNat 58 6) (bits o.row.toNat 52 6) o.flush
              (decide (o.ks.length = groupSize (bits o.row.toNat 58 6) (bit o.row.toNat 45))) (v.1.getD (j / 64) ⟨127, []⟩) (v.2.getD (j % 64) ⟨127, []⟩))).1
          else tGet 0 (w.linkAt o.link).sum j) else 0
      (∀ v, o.held = some v → adds v s.fresh) ∧
      (o.held = none → ∀ va vb u w, s.fresh.fetchVecs die core o .a (bits o.row.toNat 58 6) o.sparse (upto 0 o.nest.l0.ext) = .ok (va, u) →
        u.fetchVecs die core o .b (bits o.row.toNat 52 6) false (upto lo (o.nest.l1.ext - lo)) = .ok (vb, w) →
        adds (va, List.replicate lo ⟨127, []⟩ ++ vb) w)))

/-- R209 to R216: what each chain instruction does once its checks pass. `chbuild` arms every link of a free name; `chclose` leaves its request on
the chain with its range on the scoreboard; `chstat` and `chread` write their bytes; `chhalt` freezes; `chthaw` gives every link back the state
it held; `chrel` frees links and name; `chsplice` puts a link at another slot and lands 0, or lands 1 where the die has no free spare. Where the
context has no chain of the name, all but `chbuild` are CHNONE. Its conclusion says that exec answers a next state for: chbuild, chclose, chstat,
chsplice, chhalt, chthaw, chrel, chread. -/
def Obligations.ChainInstructionsAct : Prop := ∀ (s : State) (c : BitVec 8) (x y : BitVec 6) (f : BitVec 1) (g : BitVec 3),
  let a := s.atIssue
  let ch := s.chainAt s.myCtx c.toNat
  let acts := fun (i : Instr) (v : State) => ∃ t, exec i s = .next t ∧ v.EndsAs t true ∧ t.me.x = s.me.x
  let spOk := fun (off n : Nat) (wr : Bool) => s.myCore.spCheck off n wr = .ok () ∧ a.spReady s.cur.die s.cur.core off n wr = .ok ()
  let rx := (a.rx x.toNat).toNat
  let ry := (a.rx y.toNat 1).toNat
  (s.issues (chForm g x 0) = true →
    (∀ (w : Nat → Nat) (u u1 : State) (h : Nat → LinkHome),
      let n := w 0
      let e := fun i => linkEntry (w (2 + 2 * i)) (w (3 + 2 * i))
      let key := fun i => s.linkKey (h i).ctx (h i).die (e i).core (e i).slot
      (f = 1 → (w = fun k => bytesToNat (a.spBytes s.cur.die s.cur.core (rx + 8 * k) 8)) ∧ u1 = a ∧ spOk rx 16 false ∧ spOk rx (16 + 16 * n) false) →
      (f ≠ 1 → (∃ ws, a.globalWords (.chbuild c x f g) rx 2 rx = .ok (ws, u) ∧ ws.getD 0 0 = n ∧ ws.getD 1 0 = w 1) ∧
        ∃ ws, a.globalWords (.chbuild c x f g) rx (2 + 2 * n) rx = .ok (ws, u1) ∧ w = fun k => ws.getD k 0) →
      ch.links = [] → aligned rx 16 = true → 1 ≤ n → n ≤ 64 → w 1 = 0 →
      (∀ i, i < n → a.linkHome (e i).handle (rx + 16 + 16 * i) = .ok (h i) ∧ (e i).decl ≠ 0 ∧ (e i).core ≤ 159 ∧ (e i).hopf ≠ 3 ∧ (e i).spare = false ∧ (e i).clear = false ∧
        (e i).posn = 0 ∧ (e i).rsv = 0 ∧ (a.coresOf (h i).die (h i).part).contains (e i).core = true ∧ ((e i).hopf = 1 → i + 1 ≠ n) ∧ (∀ j, j < i → key j ≠ key i) ∧
        (s.linkAt (key i)).state = .idle) →
      acts (.chbuild c x f g) (u1.build c.toNat ((upto 0 n).map fun i =>
        (LinkRef.mk (h i).via (BitVec.ofNat 64 (e i).handle) (h i).vdie (h i).die (e i).core (e i).slot (key i), e i, (h i).ctx)))) ∧
    (ch.links ≠ [] → ch.home = s.cur.die → aligned rx 8 = true → spOk rx (32 + 32 * ch.links.length) true →
      acts (.chstat c x g) (a.spWrite s.cur.die s.cur.core rx (wordsBytes (a.chainReport ch))))) ∧
  (s.issues { chForm g x y with fmt := true } = true →
    let rows := bits ry 49 6 + 1
    let cols := bits ry 55 6 + 1
    let stride := bits ry 32 16
    let len := stride * (rows - 1) + 4 * cols
    ∀ tl, ch.links ≠ [] → ch.tail = some tl → slotPhys tl.key = slotPhys (s.linkKey 0 s.cur.die s.cur.core 0) → ch.close = none → bits ry 61 3 = 0 → bit ry 48 = false →
      aligned rx 4 = true → aligned stride 4 = true → decodeF 0 ry ≠ .nan → spOk rx len true →
      let req : CloseReq := { core := s.cur.core, dst := rx, rows := rows, cols := cols, stride := stride, scale := BitVec.ofNat 32 ry, clip := decide (f = 1),
                              row := a.rowOf, flush := a.flush }
      acts (.chclose c x y f g) ((a.setMyCore (s.myCore.enter (.close (s.myCtx * 256 + c.toNat)) [(rx, len, true)])).setChain { ch with close := some req })) ∧
  (s.issues (chForm g 0 0) = true → ch.links ≠ [] → ch.home = s.cur.die →
    acts (.chhalt c g) (a.freeze ch.ctx ch.num 4 0xFF [] false) ∧
    (ch.frozen = true → (∀ k ∈ ch.keys, (s.linkAt k).needSplice = false) → acts (.chthaw c g) (a.thaw ch)) ∧
    (ch.close = none → a.chainBusy ch = false → acts (.chrel c g) (a.release ch))) ∧
  (s.issues (chForm g x y) = true → ch.links ≠ [] → ch.home = s.cur.die → ch.frozen = true →
    (ry < ch.links.length → (f = 1 → ry ≠ 0) → (s.linkAt (ch.keys.getD ry 0)).lost = false → aligned rx 64 = true → spOk rx (if f = 1 then 32768 else 16384) true →
      acts (.chread c x y f g) (a.spWrite s.cur.die s.cur.core rx (readTile (s.linkAt (ch.keys.getD ry 0)) (decide (f = 1))))) ∧
    (∀ old h, aligned rx 16 = true → spOk rx 16 false →
      let w := fun k => bytesToNat (a.spBytes s.cur.die s.cur.core (rx + 8 * k) 8)
      let e := linkEntry (w 0) (w 1)
      let p := s.physOf h.die e.core
      let ref := fun (phys : Nat) => LinkRef.mk h.via (BitVec.ofNat 64 e.handle) h.vdie h.die e.core e.slot (h.ctx * 2 ^ 20 + (h.die * Config.physPerDie + phys) * 16 + e.slot)
      let lands := fun (v : State) (n : Nat) => ∃ t, exec (.chsplice c x y g) s = .next t ∧ v.EndsAs t true ∧
        s.Regs t (fun r => if r = y.toNat then some (BitVec.ofNat 64 n) else none)
      e.rsv = 0 → ch.links[e.posn]? = some old → a.linkHome e.handle 0 = .ok h → (a.coresOf h.die h.part).contains e.core = true →
      (e.spare = true → e.core = old.core ∧ s.physFailed old.die (slotPhys old.key % Config.physPerDie) = true) → ((s.linkAt old.key).lost = true → e.clear = true) →
      (e.spare = false → s.physFailed h.die p = false) →
      ((e.spare = false ∨ s.physFailed h.die p = false) → (s.linkAt (ref p).key).state = .idle → lands (a.splice ch e.posn old (ref p) h.ctx e.clear) 0) ∧
      (e.spare = true → s.physFailed h.die p = true →
        (s.freeSpare h.die = none → lands a 1) ∧
        (∀ q, s.freeSpare h.die = some q → lands ((a.bindSpare h.die e.core q).splice ch e.posn old (ref q) h.ctx e.clear) 0)))) ∧
  (ch.links = [] →
    let none_ := fun (i : Instr) => exec i s = .next (a.takeTrap s.cur { cls := 2, sub := 0x18 })
    (s.issues (chForm g x 0) = true → none_ (.chstat c x g)) ∧ (s.issues { chForm g x y with fmt := true } = true → none_ (.chclose c x y f g)) ∧
    (s.issues (chForm g 0 0) = true → none_ (.chhalt c g) ∧ none_ (.chthaw c g) ∧ none_ (.chrel c g)) ∧
    (s.issues (chForm g x y) = true → none_ (.chread c x y f g) ∧ none_ (.chsplice c x y g)))

/-- R125, R201, R204, R217, R314: HOP_ARRIVAL, in the order of its route and once the link it is for is on a running core, stores the value there,
which may form its sum; CLOSE_START resolves the row and reads the seed on the core that issued the close, or in its image while the task is
checkpointed; CLOSE_LAND writes the tile there, re-arms the chain and counts the close. Its conclusion says that exec answers a next state for:
hopArrival, closeStart, closeLand. -/
def Obligations.ChainEventsAct : Prop := ∀ (s : State) (n ctx chain : Nat),
  let ch := s.chainAt ctx chain
  let u := s.fresh
  (∀ h r, s.hops[n]? = some h → (s.chainAt h.ctx h.chain).links[h.dest]? = some r → s.linkLive r = true → (s.linkAt r.key).rearm = false →
    (∀ f ∈ s.hops.take n, s.hopRoute f = s.hopRoute h → s.hopDue f = false) →
    let v : State := { u with hops := dropNth s.hops n }
    ((s.linkAt r.key).inrcv = false →
      exec (.hopArrival n) s = .next ((v.setLink r.key { s.linkAt r.key with inrcv := true, inc := h.vals }).tryForm h.ctx h.chain h.dest)) ∧
    ((s.linkAt r.key).inrcv = true → exec (.hopArrival n) s = .next v)) ∧
  (∀ q r, ch.close = some q → ch.tail = some r → q.started = false → ch.frozen = false → (s.linkAt r.key).state = .sent → (s.linkAt r.key).formed = true →
    s.linkLive r = true → s.closeFree ch = true →
    let c := s.closeCore ch q
    let cfg := c.resolveRow q.row
    let req : CloseReq := { q with started := true, cfg := cfg, thresh := bits (c.cfgRow q.row).toNat 16 16, seed := tGet 0 c.seeds (bits cfg.toNat 39 3) }
    exec (.closeStart ctx chain) s = .next (u.setChain { ch with close := some req })) ∧
  (∀ q r, ch.close = some q → ch.tail = some r → q.started = true → s.linkLive r = true → s.closeFree ch = true →
    let elem := fun k => closeElem q (hopFmt (s.linkAt r.key).hopf) ch.num ch.closes.toNat k (tGet 0 (s.linkAt r.key).inc k)
    let keys := closeKeys q.rows q.cols
    let clip := BitVec.ofNat 16 (min (keys.filter (fun k => (elem k).2.2)).length 0xFFFF)
    ∃ t, exec (.closeLand ctx chain) s = .next t ∧ s.Still t ∧ t.chainAt ch.ctx ch.num = { ch with close := none, closes := ch.closes + 1, lastClip := clip } ∧
      ((∀ k ∈ s.ckpts, k.closes ch q = false) →
        (t.coreAt ch.home q.core).scratch = closeWrite q (fmtOf (bits q.cfg.toNat 46 6)).width elem (s.coreAt ch.home q.core).scratch keys ∧
        (t.coreAt ch.home q.core).fpflags = (s.coreAt ch.home q.core).fpflags ||| orFlagsOf (fun k => (elem k).2.1) keys))

/-- R222 to R232: a copy instruction whose checks pass enters its copy at the end of the core's queue, with its ranges on the scoreboard and one
trace entry; one of zero bytes does nothing. COPY_BEAT_GROUP performs the next 256 bytes of the copy at the head, or sends what its last group
has still to post, and lands the copy after the last; between scratchpad places it writes exactly the group's bytes, and a fill repeats its
pattern. Its conclusion says that exec answers a next state for: cp, cpR, cpD2d, cpD3d, cpDCvt, cpDGath, cpDScat, cpDFill, cpDRemote,
copyBeatGroup. -/
def Obligations.CopiesEnterAndRun : Prop := ∀ (s : State) (d x l : BitVec 6) (p q : BitVec 1) (n : BitVec 7) (g : BitVec 3) (die core : Nat),
  let a := s.atIssue
  let pc := s.me.issuePc
  let enters := fun (i : Instr) (u : State) (k : Copy) (tk : Nat) =>
    let c := u.myCore
    (k.total = 0 → ∃ t, exec i s = .next t ∧ u.EndsAs t false ∧ t.me.x = s.me.x) ∧
    (k.total ≠ 0 → c.sideCheck k false = .ok () → c.sideCheck k true = .ok () → c.copyq.length < Config.copyQueueSize → c.sb.length + k.ranges.length ≤ Config.scoreboardSize →
      u.sideReady s.cur.die s.cur.core k false none = .ok () → u.sideReady s.cur.die s.cur.core k true none = .ok () →
      let c1 := c.enter (.copy c.issueNo) k.ranges
      let c2 : Core := { c1 with copyq := c1.copyq ++ [{ k with num := c.issueNo }] }
      ∃ t, exec i s = .next t ∧ t.me.x = s.me.x ∧
        (u.setMyCore ((if k.outside then c2.marked else c2).traced u.now (u.cycle s.cur.die) .x 5 tk k.traceAddr)).EndsAs t false)
  let row := fun (n : Nat) =>
    ({ num := 0, kind := .plain, pc := s.me.pc, dst := a.rx d.toNat, src := a.rx x.toNat 1, n0 := n, dsp := decide (p = 1), ssp := decide (q = 1) } : Copy)
  let desc := fun (i : Instr) (kind : Nat) => ∀ w u k, aligned (a.rx d.toNat).toNat 64 = true → a.descWords i (decide (p = 1)) (a.rx d.toNat).toNat 64 = .ok (w, u) →
    a.copyPlan s.cur.die s.cur.core kind w (BitVec.ofNat 64 (a.rx d.toNat).toNat) 0 0 = .ok k → enters i u { k with pc := pc } kind
  (s.issues { fX g (s.regs [d.toNat, x.toNat]) with ext := true } = true → enters (.cp d x p q n g) a (row (a.uimm n.toNat 7)) 0) ∧
  (s.issues (fX g (s.regs [d.toNat, x.toNat, l.toNat])) = true →
    ((a.rx l.toNat 2).toNat ≤ 0xFFFFFFFF → enters (.cpR d x p q l g) a (row (a.rx l.toNat 2).toNat) 0) ∧
    (0xFFFFFFFF < (a.rx l.toNat 2).toNat → exec (.cpR d x p q l g) s = .next (a.takeTrap s.cur { cls := 2, sub := 0x21 }))) ∧
  (s.issues (cdForm d g s) = true →
    desc (.cpD2d d p g) 0 ∧ desc (.cpD3d d p g) 1 ∧ desc (.cpDCvt d p g) 2 ∧ desc (.cpDGath d p g) 3 ∧ desc (.cpDScat d p g) 4 ∧
    desc (.cpDFill d p g) 5 ∧ desc (.cpDRemote d p g) 6) ∧
  (∀ k rest, (s.coreAt die core).copyq = k :: rest → s.copyDue die core k = true → k.kind ∉ [.put, .grad, .dep, .prRead, .gRead] →
    (k.unsent ≠ [] → exec (.copyBeatGroup die core) s = .next ((s.fresh.sendGroup die core).landIfDone die core)) ∧
    (k.unsent = [] → ∀ t, s.fresh.beat die core k = .ok t → exec (.copyBeatGroup die core) s = .next ((t.copySkid die core).landIfDone die core)) ∧
    (k.unsent = [] → k.kind = .plain ∨ k.kind = .fill → k.dsp = true → k.ssp = true ∨ k.kind = .fill → (s.coreAt die core).stash = [] → 256 * (k.done + 1) < k.total →
      let bytes := (k.group k.done).map fun m => if k.kind = .fill then BitVec.ofNat 8 (k.pattern.toNat / 2 ^ (8 * (m % k.n0 % 8))) else tGet 0 (s.coreAt die core).scratch (k.srcAt m)
      ∃ t, exec (.copyBeatGroup die core) s = .next t ∧ t.mem = s.mem ∧ ((t.coreAt die core).copyq.map (·.done)) = (k.done + 1) :: rest.map (·.done) ∧
        (t.coreAt die core).scratch = ((k.group k.done).zip bytes).foldl (fun m e => mWrite m (k.dstAt e.1) [e.2]) (s.coreAt die core).scratch)) ∧
  (∀ (t : State) k1, (t.coreAt die core).copyq.head? = some k1 →
    (k1.unsent = [] → k1.total ≤ 256 * k1.done → t.landIfDone die core = t.landCopy die core k1) ∧
    (k1.unsent ≠ [] ∨ 256 * k1.done < k1.total → t.landIfDone die core = t))

/-- R238 to R241: `stmap` adds a mapping whose sectors are invalid, `stflush` writes back the dirty sectors of a range, `stinv` invalidates its
sectors, `stunmap` writes back and removes the mapping; STASH_FILL reads an invalid sector as the core's port reads it, STASH_SNOOP, once no
command is using the sector, writes it back and for a write invalidates it, STASH_WRITEBACK writes one back. A range that no mapping covers is
STNONE. Its conclusion says that exec answers a next state for: stmap, stunmap, stflush, stinv, stashFill, stashSnoop, stashWriteback. -/
def Obligations.StashActs : Prop := ∀ (s : State) (x y z : BitVec 6) (g : BitVec 3) (die core off : Nat) (wr : Bool),
  let a := s.atIssue
  let c := s.myCore
  let lo := (a.rx x.toNat).toNat
  let vy := (a.rx y.toNat 1).toNat
  let free := fun (lo n : Nat) => c.conflict lo n true = false ∧ c.sb.length < Config.scoreboardSize
  let leaves := fun (i : Instr) (v : State) (eff : Bool) => ∃ t, exec i s = .next t ∧ v.EndsAs t eff ∧ t.me.x = s.me.x
  (s.issues (fX g (s.regs [x.toNat, y.toNat, z.toNat])) = true →
    let len := (a.rx z.toNat 2).toNat
    c.stmapOk lo vy len = true → a.stmapPages (pagePieces vy 130 len) = .ok () → free lo len →
    leaves (.stmap x y z g) (a.setMyCore { c with stash := c.stash ++ [⟨lo, BitVec.ofNat 64 vy, len⟩], sectors := clearSectors c.sectors lo len }) false) ∧
  (s.issues (fX g (s.regs [x.toNat, y.toNat])) = true → c.stashCovers lo vy = true → free lo vy →
    ∀ v, a.flushRange s.cur.die s.cur.core (c.dirtyIn lo vy) = .ok v → leaves (.stflush x y g) v false) ∧
  (s.issues (fX g (s.regs [x.toNat, y.toNat])) = true →
    (c.stashCovers lo vy = true → free lo vy →
      leaves (.stinv x y g) (a.setMyCore { c with sectors := c.sectors.filter (fun q => !(decide (q.1 * 32 < lo + vy) && decide (lo < q.1 * 32 + 32))) }).filterPrune false) ∧
    (c.stashCovers lo vy = false → exec (.stinv x y g) s = .next (a.takeTrap s.cur { cls := 2, sub := 0x23 }))) ∧
  (s.issues (fX g (s.regs [x.toNat])) = true → ∀ m v, c.stash.find? (fun m => m.sp = lo) = some m → free m.sp m.len →
    a.flushRange s.cur.die s.cur.core (c.dirtyIn m.sp m.len) = .ok v →
    let d := v.myCore
    leaves (.stunmap x g) (v.setMyCore { d with stash := d.stash.filter (fun x => x.sp ≠ m.sp), sectors := clearSectors d.sectors m.sp m.len, fills := [] }).filterPrune false) ∧
  (let k := s.coreAt die core
   let u := off / 32
   let f := s.fresh
   (∀ p w, u ∈ k.fills → (tGet {} k.sectors u).st = .invalid → f.check (f.ctxOf die core) (some k.foot) [0] (k.sectorVa u) 32 false = .ok p → f.own die core k.task p (k.sectorVa u) 32 false = .ok w →
     f.canRead die (some core) p 32 = .ok () → f.filterRoom die (p.key / 256) = true →
     let d : Core := { k with scratch := mWrite k.scratch (u * 32) (w.portBytes die core p.key p.home 32),
                              sectors := tSet {} k.sectors u { st := .clean, key := p.key, keyNo := p.keyNo }, fills := k.fills.filter (· ≠ u) }
     ∃ t, exec (.stashFill die core off) s = .next t ∧ t.coreAt die core = d ∧ t.mem = s.mem ∧ s.Still t) ∧
   (⟨die, core, off, wr⟩ ∈ s.snoops → s.spInUse die core off 32 = false → exec (.stashSnoop die core off wr) s = .next
     (({ f with snoops := s.snoops.filter (· ≠ ⟨die, core, off, wr⟩) } : State).snoopSector die core u wr).filterPrune) ∧
   ((tGet {} k.sectors u).st = .dirty → ∀ v, f.flushRange die core [u] = .ok v → exec (.stashWriteback die core off) s = .next v ∧ s.Still v))

/-- R223, R234 to R237: `hlaunch` starts the helper at its control block from the clk after it lands, `hstop` ends once it has stopped and its copies
have landed, `hstat` lands its status. A running helper's micro-instruction has its effect at once: `hcp` enters a copy, `hwait` passes when its
condition holds, `hloop` counts and advances the offsets, `hflag` writes the flag word, `hjmp` jumps, `hend` writes the flag word and ends the
run; a stop request takes effect instead at the boundary, and KIND 7 is a reserved minor code. Its conclusion says that exec answers a next state
for: hlaunch, hstop, hstat, hcp, hwait, hloop, hflag, hjmp, hend. -/
def Obligations.HelperRuns : Prop := ∀ (s : State) (x y : BitVec 6) (g kind : BitVec 3) (doff value : BitVec 32) (land raise : BitVec 1) (n : BitVec 4)
    (back : BitVec 12) (cnt sadv dadv : BitVec 16) (e : BitVec 5) (off : BitVec 20),
  let a := s.atIssue
  let c := s.myCore
  let f := s.fresh
  let h := c.helper
  let leaves := fun (i : Instr) (v : State) => ∃ t, exec i s = .next t ∧ v.EndsAs t false ∧ t.me.x = s.me.x
  let spOk := fun (z : State) (o n : Nat) (wr : Bool) => c.spCheck o n wr = .ok () ∧ z.spReady s.cur.die s.cur.core o n wr = .ok ()
  (s.issues (fX g (s.regs [x.toNat, y.toNat])) = true → h.run = false →
    let blk := (a.rx x.toNat).toNat
    let opts := (a.rx y.toNat 1).toNat
    let w := fun k => a.spNat (blk + 8 * k) 8
    hctlOk blk opts w = true → blk % 64 = 0 → opts / 64 = 0 → spOk a blk 64 false →
    leaves (.hlaunch x y g) (a.setMyCore { c with helper := { run := true, hpc := w 0, hloop := 0, ctl := blk, flag := w 1, raiseEn := bit opts 5, e := bits opts 0 5, next := s.now + 2 } })) ∧
  (s.issues (fX g) = true → h.run = false → c.helperLanded = true → leaves (.hstop g) a) ∧
  (s.issues (fX g (s.regs [x.toNat])) = true → ∃ t, exec (.hstat x g) s = .next t ∧ s.WritesX t x.toNat
    (BitVec.ofNat 64 (b2n h.run * 2 ^ 63 + b2n h.stopped * 2 ^ 62 + h.hloop % 2 ^ 16 * 2 ^ 21 + h.hpc % 2 ^ 21))) ∧
  (s.curOk = true → h.run = true → h.next ≤ s.now → c.inTurn s.now helperRank = true → s.myPart.halt = none → c.x.trap = none →
    (h.stopReq = true → ∀ i ∈ [Instr.hcp kind doff, .hwait land n, .hloop back cnt sadv dadv, .hflag land raise e value, .hjmp off, .hend value],
      exec i s = .next (s.setMyCore { c with helper := { h with run := false, stopReq := false, stopped := true } })) ∧
    (h.stopReq = false →
      let ends := fun (i : Instr) (z : State) => exec i s = .next (z.setMyCore (z.myCore.stamp z.now helperRank))
      let next := fun (z : State) => z.setMyCore { z.myCore with helper := { z.myCore.helper with hpc := z.myCore.helper.hpc + 8 } }
      let ctl := fun k => BitVec.ofNat 64 (f.spNat (h.ctl + 8 * k) 8)
      (∀ k0, kind.toNat ≤ 6 → f.spReady s.cur.die s.cur.core (h.ctl + 16) 16 false = .ok () → aligned doff.toNat 64 = true → spOk f doff.toNat 64 false →
        f.copyPlan s.cur.die s.cur.core kind.toNat (fun j => f.spNat (doff.toNat + 8 * j) 8) (BitVec.ofNat 64 doff.toNat) (ctl 3) (ctl 2) = .ok k0 →
        let k : Copy := { k0 with helper := true, pc := h.hpc }
        (k.total = 0 → ends (.hcp kind doff) (next f)) ∧
        (k.total ≠ 0 → c.sideCheck k false = .ok () → c.sideCheck k true = .ok () → c.copyq.length < Config.copyQueueSize →
          c.sb.length + k.ranges.length ≤ Config.scoreboardSize → f.sideReady s.cur.die s.cur.core k false none = .ok () → f.sideReady s.cur.die s.cur.core k true none = .ok () →
          let c1 := c.enter (.copy c.issueNo) k.ranges
          let c2 : Core := { c1 with copyq := c1.copyq ++ [{ k with num := c.issueNo }] }
          ends (.hcp kind doff) (next (f.setMyCore ((if k.outside then c2.marked else c2).traced s.now (s.cycle s.cur.die) .x 5 kind.toNat k.traceAddr))))) ∧
      (kind.toNat = 7 → exec (.hcp kind doff) s = .next (f.helperFault { cls := 1, sub := 0x0C })) ∧
      (land = 0 ∨ c.helperLanded = true → c.termReady s.now n.toNat = true → ends (.hwait land n) (next f)) ∧
      (back ≠ 0 → spOk f (h.ctl + 16) 16 true →
        let k := ((if h.hloop = 0 then cnt.toNat else h.hloop) + 2 ^ 16 - 1) % 2 ^ 16
        let data := natToBytes 8 (ctl 2 + BitVec.ofInt 64 (64 * sextI sadv.toNat 16)).toNat ++ natToBytes 8 (ctl 3 + BitVec.ofInt 64 (64 * sextI dadv.toNat 16)).toNat
        let v := f.spWrite s.cur.die s.cur.core (h.ctl + 16) data
        ends (.hloop back cnt sadv dadv)
          (v.setMyCore { v.myCore with helper := { h with hloop := k, hpc := if k ≠ 0 then (h.hpc + 2 ^ 48 - 8 * back.toNat) % 2 ^ 48 else h.hpc + 8 } })) ∧
      (land = 0 ∨ c.helperLanded = true → spOk f h.flag 4 true →
        let v := f.spWrite s.cur.die s.cur.core h.flag (natToBytes 4 value.toNat)
        ends (.hflag land raise e value) (next (if raise = 1 then v.setMyCore (v.myCore.raiseCnt s.now e.toNat 1) else v))) ∧
      ends (.hjmp off) (f.setMyCore { c with helper := { h with hpc := (((h.hpc : Int) + 8 * sextI off.toNat 20) % 2 ^ 48).toNat } }) ∧
      (c.helperLanded = true → spOk f h.flag 4 true →
        let v := f.spWrite s.cur.die s.cur.core h.flag (natToBytes 4 value.toNat)
        let w := if h.raiseEn = true then v.setMyCore (v.myCore.raiseCnt s.now h.e 1) else v
        ends (.hend value) (w.setMyCore { w.myCore with helper := { w.myCore.helper with run := false, stopped := false } }))))

/-- R110, R333 to R346: a Hatbox instruction whose arguments pass sends its request to the unit, once what it releases has been performed; the reply
acts on the running context's configuration: `hballoc` starts the lowest FREE slot and lands its result word, or lands FAIL; `hbgate` gates an
ALLOC slot from its record; `hbpoll` takes the oldest released slot of a group or lands FAIL; `hbrel` frees a slot; `hbstat` lands a slot's word
or the counters; `hbcfg` puts a block in force, or lands why not; `hbput` enters a put. HB_TIMEOUT ends a gated slot whose time is over,
COMBINE_WRITE combines a DONE slot, HB_PUT_ARRIVAL brings a put to its unit, in the order of its route. Its conclusion says that exec answers a
next state for: hballoc, hbgate, hbpoll, hbrel, hbstat, hbcfg, hbput, hbPutArrival, hbTimeout, combineWrite. -/
def Obligations.HatboxActs : Prop := ∀ (s : State) (x y z : BitVec 6) (g : BitVec 3) (die ctx slot : Nat),
  let a := s.atIssue
  let rx := (a.rx x.toNat).toNat
  let ry := (a.rx y.toNat 1).toNat
  let cfg := (s.ctxAt s.myCtx).hatbox
  let asks := fun (i : Instr) (rq : Nat) => a.reqOut i rq = false → s.released = true → exec i s = .next (a.noteReq i rq true)
  let lands := fun (i : Instr) (rq : Nat) (v : State) (d : BitVec 6) (w : Word) => a.reqOut i rq = true →
    ∃ t, exec i s = .next t ∧ v.EndsAs t false ∧ s.Regs t (fun r => if r = d.toNat then some w else none)
  let leaves := fun (i : Instr) (rq : Nat) (v : State) => a.reqOut i rq = true → ∃ t, exec i s = .next t ∧ v.EndsAs t false ∧ t.me.x = s.me.x
  (s.issues (hbForm g) = true →
    (∀ h, cfg = some h →
      (rx ≤ 15 → ry / 2 ^ 32 = 0 → asks (.hballoc z x y g) 0 ∧
        (h.lowest = none → lands (.hballoc z x y g) 0 a z 0x8000000000000000#64) ∧
        (∀ n, h.lowest = some n →
          let k : HbSlot := { state := .alloc, aseq := h.aseq + 1, tag := BitVec.ofNat 32 ry, group := rx }
          lands (.hballoc z x y g) 0 ((a.hbHeader s.myCtx h n 0 k.head).setHatbox s.myCtx
            { h.setSlot n k with aseq := h.aseq + 1, order := tSet [] h.order rx (tGet [] h.order rx ++ [n]) }) z (BitVec.ofNat 64 ((h.aseq + 1).toNat * 2 ^ 16 + n)))) ∧
      (15 < rx → exec (.hballoc z x y g) s = .next (a.takeTrap s.cur { cls := 2, sub := 0x2C })) ∧
      (aligned ry 64 = true → rx < h.quota → asks (.hbgate x y g) ry ∧
        ∀ ws, a.unitWords (.hbgate x y g) ry ry 8 = .ok ws → (h.slot rx).state = .alloc → gateOk (fun k => ws.getD k 0) = true →
          let k := (h.slot rx).gate (fun k => ws.getD k 0) (h.group (h.slot rx).group).tmo a.now
          leaves (.hbgate x y g) ry ((a.hbHeader s.myCtx h rx 1 (k.head.drop 1 ++ k.tail)).setHatbox s.myCtx (h.setSlot rx k))) ∧
      (rx ≤ 15 → asks (.hbpoll z x g) 0 ∧
        (tGet [] h.queue rx = [] → lands (.hbpoll z x g) 0 a z 0x8000000000000000#64) ∧
        (∀ n rest, tGet [] h.queue rx = n :: rest →
          lands (.hbpoll z x g) 0 (a.setHatbox s.myCtx { h.setSlot n { h.slot n with state := .taken } with queue := tSet [] h.queue rx rest }) z
            (BitVec.ofNat 64 ((h.slot n).aseq.toNat * 2 ^ 16 + n)))) ∧
      (rx < h.quota → asks (.hbrel x g) 0 ∧
        ((h.slot rx).state ∈ [.alloc, .released, .taken] → leaves (.hbrel x g) 0 (a.setHatbox s.myCtx (h.free rx))) ∧
        ((h.slot rx).state ∉ [.alloc, .released, .taken] → a.reqOut (.hbrel x g) 0 = true → exec (.hbrel x g) s = .next (a.takeTrap s.cur { cls := 2, sub := 0x2D }))) ∧
      (rx / 2 ^ 16 = 0 → rx < h.quota → asks (.hbstat z x g) 0 ∧ lands (.hbstat z x g) 0 a z (BitVec.ofNat 64 ((h.slot rx).word a.now)))) ∧
    (aligned rx 8 = true → asks (.hbcfg z x g) rx ∧
      ∀ ws, a.unitWords (.hbcfg z x g) rx rx 18 = .ok ws → hbBlockOk (fun k => ws.getD k 0) = true →
      let h := hbOf (fun k => ws.getD k 0)
      ((∃ o, cfg = some o ∧ o.used ≠ 0) → lands (.hbcfg z x g) rx a z 2) ∧
      ((∀ o, cfg = some o → o.used = 0) → 65536 < a.otherQuota s.cur.die s.myCtx + h.quota → lands (.hbcfg z x g) rx a z 1) ∧
      ((∀ o, cfg = some o → o.used = 0) → a.otherQuota s.cur.die s.myCtx + h.quota ≤ 65536 →
        a.pagesCheck s.myCtx 3 (pagesOf h.region.toNat (h.quota * h.frame)) = .ok () → lands (.hbcfg z x g) rx ((a.hbZero s.myCtx h).setHatbox s.myCtx h) z 0))) ∧
  (s.issues { fX g (s.regs [x.toNat, y.toNat, z.toNat]) with feature := some 0, eff := true } = true →
    let dst := (a.rx z.toNat 2).toNat
    let dl := bits rx 16 7
    let c := s.myCore
    let k : Copy := { num := c.issueNo, kind := .put, pc := s.me.pc, dst := BitVec.ofNat 64 dst, src := BitVec.ofNat 64 ry, n0 := 256 * dl, ssp := true, word := BitVec.ofNat 64 rx }
    cfg.isSome = true → aligned ry 4 = true → aligned dst 256 = true → bits rx 23 9 = 0 → 1 ≤ dl → dl ≤ 64 → c.spCheck ry (256 * dl) false = .ok () →
    a.putTarget s.myCtx dst = .ok () → c.copyq.length < Config.copyQueueSize → c.sb.length + 1 ≤ Config.scoreboardSize →
    a.sectorsReady s.cur.die s.cur.core ry (256 * dl) false (c.mapped ry (256 * dl)) = .ok () →
    let c1 := c.enter (.copy c.issueNo) [(ry, 256 * dl, false)]
    ∃ t, exec (.hbput x y z g) s = .next t ∧ (a.setMyCore { c1 with copyq := c1.copyq ++ [k] }).EndsAs t true ∧ t.me.x = s.me.x) ∧
  (∀ h, (s.ctxAt ctx).hatbox = some h → (s.ctxAt ctx).die = die → s.dieAway die = false →
    let k := h.slot slot
    let f := s.fresh
    (k.state = .gated → k.due ≤ s.now → exec (.hbTimeout die ctx slot) s = .next
      (f.setHatbox ctx { h.setSlot slot { k with state := .done, due := s.now, flags := k.flags ||| 0x001 ||| 0x002, sub := BitVec.ofNat 8 (2 ^ k.exps.length - 1) &&& ~~~k.arr } with
        tmos := min (h.tmos + 1) 0xFFFFFFFF })) ∧
    (k.state = .done → k.combined = false →
      let c := k.select (h.group k.group).policy
      let out := f.hbCombine ctx h slot c
      let k1 := { k with wgts := c.wgts, flags := c.flags ||| hbFlags (out.foldl (fun f q => f ||| q.2) 0), combined := true }
      let v := f.unitWrite ctx [3] (h.base slot + 256 + 2304 * h.dlen) (out.flatMap (fun q => natToBytes 4 q.1))
      exec (.combineWrite die ctx slot) s = .next
        (((v.hbHeader ctx h slot 0 (k1.head.take 1)).hbHeader ctx h slot 4 k1.weights).setHatbox ctx ((h.setSlot slot k1).releaseGroup k1.group)))) ∧
  (∀ (exp target word : Word) (src : Nat) (data : List Lane) e, s.exportOf exp.toNat = some e → s.dieAway e.die = false →
    (s.putPlace exp.toNat target.toNat = none → s.fresh.putPlace exp.toNat target.toNat = none → exec (.hbPutArrival (.foreign exp target word src data)) s = .next s.fresh) ∧
    (∀ c, s.putPlace exp.toNat target.toNat = some c → s.fresh.putPlace exp.toNat target.toNat = some c → s.hbTooLate c src target.toNat word.toNat = false →
      exec (.hbPutArrival (.foreign exp target word src data)) s = .next (s.fresh.hbArrive c src target.toNat word.toNat data))) ∧
  (∀ n m, s.puts[n]? = some m → (∀ q ∈ s.puts.take n, q.die = m.die → q.home = m.home → s.putFree q = false) →
    let u : State := { s.fresh with puts := dropNth s.puts n }
    (∀ h c, m.home = some h → s.dieAway h = false → s.putPlace m.exp m.target = some c → u.putPlace m.exp m.target = some c →
      s.hbTooLate c (s.sender m.die m.core) m.target m.word.toNat = false →
      exec (.hbPutArrival (.queued n)) s = .next ((u.hbArrive c (s.sender m.die m.core) m.target m.word.toNat m.data).ackItem h m.die m.core m.pid false)) ∧
    (∀ h, m.home = some h → s.dieAway h = false → s.putPlace m.exp m.target = none → u.putPlace m.exp m.target = none →
      exec (.hbPutArrival (.queued n)) s = .next ((u.revokeImport (u.ctxOf m.die m.core) m.slot).ackItem h m.die m.core m.pid true)) ∧
    (m.home = none → ∃ bad : Bool, exec (.hbPutArrival (.queued n)) s =
      .next ((if bad then u.revokeImport (u.ctxOf m.die m.core) m.slot else u).ackItem 4 m.die m.core m.pid bad)))

/-- R356, R365 to R367: `prgrad`, `prread`, `gdep` and `gread` whose arguments pass enter the copy queue with their scratchpad range; `prsync` lands
a record's UPD once it has reached the operand and waits until then; the other forms send a request to their unit and act on its reply: `prrule`
stores a legal rule of its context, lands 1 where the die holds 64 tables, and traps on an illegal one; `gspread` lands whether DELTA is within
the bound; `gmass` lands a line's mass, a free value where the line breaks the weight quantum, and what it has outstanding; `gcfg` puts a region
in force, removes it with NLINES 0, and lands 1 while a half is outstanding. Its conclusion says that exec answers a next state for: prgrad,
gdep, prread, gread, prsync, prrule, gspread, gmass, gcfg. -/
def Obligations.ClassInstructionsAct : Prop := ∀ (s : State) (d x y : BitVec 6) (p g : BitVec 3),
  let a := s.atIssue
  let rx := (a.rx x.toNat).toNat
  let cx := s.ctxAt s.myCtx
  let asks := fun (i : Instr) (rel : Bool) => a.reqOut i rx = false → (rel = true → s.released = true) → exec i s = .next (a.noteReq i rx true)
  let lands := fun (i : Instr) (v : State) (w : Word) => ∃ t, exec i s = .next t ∧ v.EndsAs t false ∧ s.Regs t (fun r => if r = d.toNat then some w else none)
  let enters := fun (i : Instr) (feature bytes : Nat) (eff wr : Bool) (kind : CopyKind) =>
    let n := (a.rx y.toNat 2).toNat
    let dst := (a.rx x.toNat 1).toNat
    let sp := (a.rx d.toNat).toNat
    let c := s.myCore
    s.issues (classX feature eff d x y g s) = true → 1 ≤ n → n ≤ 4096 → aligned dst 256 = true → aligned sp 4 = true → c.spCheck sp (bytes * n) wr = .ok () →
    c.copyq.length < Config.copyQueueSize → c.sb.length + 1 ≤ Config.scoreboardSize →
    a.sectorsReady s.cur.die s.cur.core sp (bytes * n) wr (c.mapped sp (bytes * n)) = .ok () →
    let k : Copy := { num := c.issueNo, kind := kind, pc := s.me.pc, dst := BitVec.ofNat 64 dst, src := BitVec.ofNat 64 sp, n0 := bytes, n1 := n, ssp := true }
    let c1 := c.enter (.copy c.issueNo) [(sp, bytes * n, wr)]
    ∃ t, exec i s = .next t ∧ (a.setMyCore { c1 with copyq := c1.copyq ++ [k] }).EndsAs t eff ∧ t.me.x = s.me.x
  enters (.prgrad d x y g) 1 64 true false .grad ∧ enters (.prread d x y g) 1 256 false true .prRead ∧
  enters (.gdep d x y g) 2 256 true false .dep ∧ enters (.gread d x y g) 2 256 false true .gRead ∧
  (s.issues (classC 1 g) = true → ∀ q, aligned rx 256 = true → a.unitPlace false s.myCtx 1 rx 256 false = .ok q →
    let upd := BitVec.ofNat 32 (laneAt (a.unitLanes q.key) 3)
    let ahead := (upd - BitVec.ofNat 32 (a.rx y.toNat 1).toNat).toInt
    (0 ≤ ahead → lands (.prsync d x y g) a (BitVec.ofNat 64 upd.toNat)) ∧ (ahead < 0 → exec (.prsync d x y g) s = .next a)) ∧
  (s.issues (classC 1 g) = true → aligned rx 32 = true → (a.rx y.toNat 1).toNat ≤ 15 → asks (.prrule d x y g) true ∧
    (a.reqOut (.prrule d x y g) rx = true → ∀ ws, a.unitWords (.prrule d x y g) rx rx 20 = .ok ws →
      let r := ruleOf ws
      (∀ o, ruleBad r.nops (fun k => (r.words.getD k 0).toNat) = some o →
        exec (.prrule d x y g) s = .next (a.takeTrap s.cur { cls := 2, sub := 0x31, addr := BitVec.ofNat 64 (rx + o) })) ∧
      (ruleBad r.nops (fun k => (r.words.getD k 0).toNat) = none →
        (s.ruleRoom s.cur.die s.myCtx = true → lands (.prrule d x y g) (a.setCtx (cx.setRule (a.rx y.toNat 1).toNat r)) 0) ∧
        (s.ruleRoom s.cur.die s.myCtx = false → lands (.prrule d x y g) a 1)))) ∧
  (s.issues (classC 2 g) = true →
    let w := (a.rx y.toNat 1).toNat
    w / 2 ^ 48 = 0 → bits w 32 16 ≠ 0 → boundOk (bits w 0 32) = true → aligned rx 256 = true → asks (.gspread p x y g) false ∧
    (a.reqOut (.gspread p x y g) rx = true →
      ∃ t, exec (.gspread p x y g) s = .next t ∧ s.WritesP t p.toNat (s.spread s.myCtx rx (bits w 32 16) (bits w 0 32)))) ∧
  (s.issues { classC 2 g with subs := subUnless (d.toNat % 2 = 0 && d.toNat ≠ 0) subREGRANGE } = true → aligned rx 256 = true → asks (.gmass d x g) false ∧
    (a.reqOut (.gmass d x g) rx = true → ∀ q, a.unitPlace false s.myCtx 2 rx 256 false = .ok q →
      let at_ := if q.slot.isSome then q.va else rx
      ∀ h n, (a.ctxAt (a.ctxOfPlace s.myCtx q)).gossip = some h → h.lineAt at_ = some n →
      ∃ t, exec (.gmass d x g) s = .next t ∧ a.EndsAs t false ∧
        s.Regs t (fun r => if r = d.toNat + 1 then some (BitVec.ofNat 64 (((h.line n).out.map (·.ks)).getD 0))
          else if r = d.toNat then some (BitVec.ofNat 64 ((lineK h (a.unitLanes q.key)).getD (a.freeNat 0))) else none))) ∧
  (s.issues (classC 2 g) = true → aligned rx 64 = true → asks (.gcfg d x g) true ∧
    (a.reqOut (.gcfg d x g) rx = true → ∀ ws, a.unitWords (.gcfg d x g) rx rx 8 = .ok ws → gcfgOk (fun k => ws.getD k 0) = true →
      let h := gossipOf (fun k => ws.getD k 0)
      (∀ j, j < 12 → h.ports.getLsbD j = true → (s.portAt j).up = true) →
      ((∃ o, cx.gossip = some o ∧ o.busy = true) → lands (.gcfg d x g) a 1) ∧
      ((∀ o, cx.gossip = some o → o.busy = false) → a.pagesCheck s.myCtx 2 (pagesOf h.region.toNat (256 * h.nlines)) = .ok () →
        lands (.gcfg d x g) (a.setCtx { cx with gossip := if h.nlines = 0 then none else some h }) 0)))

/-- R306, R353, R354, R365: PR_ARRIVAL of a contribution, posted ones in the order of their route, adds it to its record, counts it and acknowledges
it, or drops it where the exporter's tables no longer map the unit; a contribution that completes a step opens an update, and PR_UPDATE runs the
record's rule over it, clears the gradients and advances STEP and UPD. R362, R365, R366: ZYNOTH_PORT_FAIL takes a port down and leaves every half
outstanding on it in doubt; ZYNOTH_PORT_RETRAIN brings it up and resolves those halves by the highest number the far end has applied. DEPOSIT of
a unit, posted ones in the order of their route, adds it to its line, or drops it where it fails its check. Its conclusion says that exec answers
a next state for: prArrival, prUpdate, zynothPortFail, zynothPortRetrain, deposit. -/
def Obligations.ParameterAndPortEvents : Prop :=
  (∀ (s : State) (n : Nat) (m : UnitMsg) (exp va : Word) (data : List Lane),
  let u : State := { s.fresh with units := dropNth s.units n }
  let first := fun (h : Option Nat) => ∀ q ∈ s.units.take n, q.die = m.die → q.home = h → s.unitFree q = false
  (∀ h, s.units[n]? = some m → m.grad = true → m.home = some h → s.dieAway h = false → first (some h) →
    (s.unitHome true m.exp m.va = none → u.unitHome true m.exp m.va = none →
      exec (.prArrival (.queued n)) s = .next ((u.revokeImport (u.ctxOf m.die m.core) m.slot).ackItem h m.die m.core m.pid true)) ∧
    (∀ c p, s.unitHome true m.exp m.va = some (c, p) → u.unitHome true m.exp m.va = some (c, p) → s.updating p.key = false →
      let ls := recArrive m.data (u.unitLanes p.key)
      let v := u.putUnit p ls
      (recFull ls = false → exec (.prArrival (.queued n)) s = .next (v.ackItem h m.die m.core m.pid false)) ∧
      (recFull ls = true → exec (.prArrival (.queued n)) s = .next (({ v with
        updates := v.updates ++ [⟨p.key, if recBad ls then none else (v.ctxAt c).rule (laneAt ls 0 / 2 ^ 28), p.keyNo⟩] } : State).ackItem h m.die m.core m.pid false)))) ∧
  (s.units[n]? = some m → m.grad = true → m.home = none → first none → ∃ bad : Bool, exec (.prArrival (.queued n)) s =
    .next (if bad then (u.revokeImport (u.ctxOf m.die m.core) m.slot).ackItem 4 m.die m.core m.pid true else u.ackItem 4 m.die m.core m.pid false)) ∧
  (∀ e, s.exportOf exp.toNat = some e → s.dieAway e.die = false →
    (s.unitHome true exp.toNat va.toNat = none → s.fresh.unitHome true exp.toNat va.toNat = none → exec (.prArrival (.foreign exp va data)) s = .next s.fresh) ∧
    (∀ c p, s.unitHome true exp.toNat va.toNat = some (c, p) → s.fresh.unitHome true exp.toNat va.toNat = some (c, p) → s.updating p.key = false →
      exec (.prArrival (.foreign exp va data)) s = .next (s.fresh.prArrive c p data))) ∧
  (∀ r w, s.updates.find? (fun u => u.key = r) = some w →
    exec (.prUpdate r) s = .next (({ s.fresh with updates := s.updates.filter (fun x => x.key ≠ w.key) } : State).putUnit
      { key := w.key, home := s.fresh.homeOf w.key, keyNo := w.keyNo, mtype := 0, mclass := 1 } (recUpdate w.rule (s.fresh.unitLanes w.key))))) ∧
  (∀ (s : State) (port n : Nat) (applied : BitVec 32) (m : UnitMsg) (exp va : Word) (data : List Lane),
  let f := s.fresh
  let q := s.portAt port
  let u : State := { f with units := dropNth s.units n }
  let drop := fun (h : Nat) => (u.revokeImport (u.ctxOf m.die m.core) m.slot).ackItem h m.die m.core m.pid true
  (port < 12 → q.up = true → ∃ t, exec (.zynothPortFail port) s = .next t ∧ t.portAt port = { q with up := false, failed := true } ∧ t.mem = s.mem ∧
    t.ctxs = s.ctxs.map (fun p => (p.1, { p.2 with gossip := p.2.gossip.map (·.doubt port) }))) ∧
  (port < 12 → q.failed = true →
    exec (.zynothPortRetrain port applied) s = .next ((f.setPort port { q with up := true, failed := false, floor := maxSeq q.applied }).resolve port applied)) ∧
  (∀ h, s.units[n]? = some m → m.grad = false → m.home = some h → s.dieAway h = false →
    (∀ x ∈ s.units.take n, x.die = m.die → x.home = some h → s.unitFree x = false) →
    (u.unitHome false m.exp m.va = none → exec (.deposit (.queued n)) s = .next (drop h)) ∧
    (∀ c p, u.unitHome false m.exp m.va = some (c, p) → u.depositLanes c m.va (u.unitLanes p.key) m.data = none → exec (.deposit (.queued n)) s = .next (drop h)) ∧
    (∀ c p ls, u.unitHome false m.exp m.va = some (c, p) → u.depositLanes c m.va (u.unitLanes p.key) m.data = some ls →
      exec (.deposit (.queued n)) s = .next ((u.putUnit p ls).ackItem h m.die m.core m.pid false))) ∧
  (∀ e, s.exportOf exp.toNat = some e → s.dieAway e.die = false →
    (f.unitHome false exp.toNat va.toNat = none → exec (.deposit (.foreign exp va data)) s = .next f) ∧
    (∀ c p ls, f.unitHome false exp.toNat va.toNat = some (c, p) → f.depositLanes c va.toNat (f.unitLanes p.key) data = some ls →
      exec (.deposit (.foreign exp va data)) s = .next (f.putUnit p ls))))

/-- R360, R361: HALVING visits the engine's next line: one whose weight is at least two quanta it splits, half of each value, truncated, and half of
the weight going out on the next port with the port's next number, and the rest staying; a line that cannot be halved it skips. HALF_MERGE adds a
half to its line once and answers APPLIED; a number applied before answers APPLIED and changes nothing else; one that resolution has passed
answers REFUSED. HALF_APPLIED forgets the outstanding half, HALF_REFUSED restores it, and HALF_RETRANSMIT sends it again with its number. Its
conclusion says that exec answers a next state for: halving, halfMerge, halfApplied, halfRefused, halfRetransmit. -/
def Obligations.HalvesTravel : Prop := ∀ (s : State) (ctx n port : Nat) (g : Gossip) (h : HalfMsg) (seq : BitVec 32),
  let f := s.fresh
  let q := s.portAt port
  let g1 : Gossip := { g with next := (n + 1) % g.nlines }
  ((s.ctxAt ctx).gossip = some g → n < g.nlines → n = g.next → s.dieAway (s.ctxAt ctx).die = false → (∀ v, s.halvable ctx g n = some v → s.farOut (v.2.1 / 6) < 4096) →
    (f.halvable ctx g n = none → exec (.halving ctx n) s = .next (f.setGossip ctx g1)) ∧
    (∀ p k, (g.line n).out = none → f.periodOver g (g.line n) = true → f.linePlace ctx g n = some p → f.nextPort g (g.line n).lastPort = some port →
      lineK g (f.unitLanes p.key) = some k → 2 ≤ k →
      let ls := f.unitLanes p.key
      let half := (upto 0 63).map (fun e => BitVec.ofNat 32 (halfOf (laneAt ls e)))
      let kept := (upto 0 63).map (fun e => BitVec.ofNat 32 (keepOf (laneAt ls e) (laneAt half e)))
      ∃ t, exec (.halving ctx n) s = .next t ∧ t.halves = s.halves ++ [(port, ⟨g.regId, n, q.seq, half, k / 2⟩)] ∧
        t.ports = tSet {} s.ports port { q with seq := q.seq + 1 } ∧
        t.ctxs = (s.setGossip ctx (g1.setLine n { out := some { port := port, seq := q.seq, s := half, ks := k / 2, sent := s.now }, lastPort := some port, lastAt := some s.now })).ctxs ∧
        t.mem = (f.putUnit p (kept ++ [BitVec.ofNat 32 (wOf g.wq (k - k / 2))])).mem)) ∧
  (port < 12 → q.up = true →
    (q.has h.seq = true → exec (.halfMerge port h) s = .next { f with replies := s.replies ++ [(port, true, h.seq)] }) ∧
    (q.has h.seq = false → q.stale h.seq = true → exec (.halfMerge port h) s = .next { f with replies := s.replies ++ [(port, false, h.seq)] }) ∧
    (q.has h.seq = false → q.stale h.seq = false → ∀ c r p k, f.regionOf h.regId port = some (c, r) → h.line < r.nlines → f.linePlace c r h.line = some p →
      lineK r (f.unitLanes p.key) = some k → k + h.ks ≤ kMax →
      let ls := f.unitLanes p.key
      exec (.halfMerge port h) s = .next ((((f.putUnit p (mergeLanes r ls h.s (k + h.ks))).setGossip c
        { r with delta := tSet 0x7F800000#32 r.delta (h.line * 12 + port) (BitVec.ofNat 32 (mergeDelta r.wq k h.ks ls h.s)) }).setPort port
          { q with applied := q.applied ++ [h.seq] }).reply port true h.seq))) ∧
  (q.up = true →
    exec (.halfApplied port seq) s = .next ((f.outOn (fun o => o.port = port && o.seq = seq && !o.doubt)).foldl (fun s q => s.dropHalf q.1 q.2) f) ∧
    exec (.halfRefused port seq) s = .next ((f.outOn (fun o => o.port = port && o.seq = seq && !o.doubt)).foldl (fun s q => s.restoreHalf q.1 q.2) f)) ∧
  (∀ o, (s.ctxAt ctx).gossip = some g → (g.line n).out = some o → o.doubt = false → (s.portAt o.port).up = true → g.tack * Config.clkPerUs ≤ s.now - o.sent →
    let v := f.setGossip ctx (g.setLine n { g.line n with out := some { o with sent := s.now } })
    exec (.halfRetransmit ctx n) s = .next { v with halves := s.halves ++ [(o.port, ⟨g.regId, n, o.seq, o.s, o.ks⟩)] })

/-- R264, R265: `tlaunch` submits the descriptor to its queue, which the running context must own, with the count it loads where one is named, and
lands the queue and the ring slot; `tdone` ends its stream at once and gives the task's USER; `tsignal` counts the tile towards its record's
successor decrements, once a task, when everything the core has stored has been performed, and a second one traps. Its conclusion says that exec
answers a next state for: tlaunch, tdone, tsignal. -/
def Obligations.TasksAct : Prop := ∀ (s : State) (d x y : BitVec 6) (g : BitVec 3),
  let a := s.atIssue
  let desc := (a.rx x.toNat).toNat
  let cnt := (a.rx y.toNat 1).toNat
  let i : Instr := .tlaunch d x y g
  let word := fun (v : State) (p : Phys) (k : Nat) => bytesToNat (v.portBytes s.cur.die s.cur.core p.key p.home k)
  (s.issues (taskForm g) = true → aligned desc 64 = true → aligned cnt 4 = true → s.myCore.drained = true →
    (∀ p0 u, cnt ≠ 0 → a.LoadsAt cnt 4 (some a.myFoot) p0 u → 2 ≤ p0.mtype → a.reqOut i desc = false → exec i s = .next (a.noteReq i desc true)) ∧
    (∀ (u v : State) (n : Option Nat) (p0 p : Phys),
      (cnt = 0 ∧ n = none ∧ u = a) ∨ (cnt ≠ 0 ∧ a.LoadsAt cnt 4 (some a.myFoot) p0 u ∧ (2 ≤ p0.mtype → a.reqOut i desc = true) ∧ n = some (word a p0 4)) →
      n.getD 0 ≤ 65535 → u.LoadsAt (desc + 8) 8 none p v →
      (2 ≤ p.mtype → u.reqOut i desc = false → exec i s = .next (u.noteReq i desc true)) ∧
      ((2 ≤ p.mtype → u.reqOut i desc = true) →
        let q := bits (word u p 8) 36 6
        let k := s.queueAt s.cur.die q
        ∀ c, s.queueCtx s.cur.die q = some c → c.id = s.myCtx → ∃ t, exec i s = .next t ∧ (u.submit q desc n).EndsAs t false ∧
          s.Regs t (fun r => if r = d.toNat then some (BitVec.ofNat 64 (q * 2 ^ 48 + k.tail.toNat % k.entries)) else none)))) ∧
  (s.canIssue (fC g) = true → s.cur.eng ≠ .h → ∃ t, exec (.tdone x g) s = .next t ∧
    t.me.phase = .ended ∧ t.me.pfx = [] ∧ t.me.req = none ∧ t.me.nextIssue = s.now + 1 ∧ t.me.x = s.me.x ∧ t.me.raiseDue = (if s.me.hdr.raiseEn && s.me.iter + 1 = s.me.hdr.rep then some s.me.hdr.raise else none) ∧
    { t with cores := s.cores } = { a.noteUser ((a.rx x.toNat).toNat % 2 ^ 16) with cores := s.cores }) ∧
  (s.canIssue (fC g) = true → s.cur.eng = .h → exec (.tdone x g) s = .next (a.noteUser ((a.rx x.toNat).toNat % 2 ^ 16)).endStream.stamp) ∧
  (s.issues (taskForm g) = true → ∀ t0, s.myTask = some t0 →
    (t0.signalled = true → exec (.tsignal g) s = .next (a.takeTrap s.cur { cls := 2, sub := 0x2A })) ∧
    (t0.signalled = false → s.myCore.drained = true → s.myCore.posted.all (fun i => i.dropped || i.done) = true → s.myCore.copyq = [] →
      a.markSignal.myTask = some { t0 with signalled := true } ∧
      ∃ t, exec (.tsignal g) s = .next t ∧ (a.markSignal.countSignal t0.graph t0.record t0.tile).EndsAs t false ∧ t.me.x = s.me.x))

/-- R245 to R256, R285: a queue's registers are written while it is idle, the tail at any time; GRAPH_ADMIT takes the next graph of the best queue;
RECORD_ADMIT checks the graph's records, then admits them one by one; TASK_START places a record's next tile on the first free core, with its
ring, registers and format state as a task's start gives them, GANG_START all of a gang's; PREEMPT stops or saves a victim; TASK_RETIRE counts a
finished tile and vacates its core. Its conclusion says that exec answers a next state for: qtailWrite, qbaseWrite, qsizeWrite, graphAdmit,
recordAdmit, taskStart, gangStart, preempt, taskRetire. -/
def Obligations.GraphsRun : Prop := ∀ (s : State) (die n part core : Nat) (v : BitVec 64),
  let f := s.fresh
  let x := s.queueAt die n
  (die < 4 → n < 64 →
    (∀ c, s.queueCtx die n = some c → exec (.qtailWrite die n v) s = .next (f.setQueue die n
      (if c.out = true then { x with shadow := some (BitVec.ofNat 32 v.toNat) } else { x with tail := BitVec.ofNat 32 v.toNat }))) ∧
    (x.prog = x.tail.toNat →
      exec (.qbaseWrite die n v) s = .next (f.setQueue die n { x with base := BitVec.ofNat 64 (v.toNat / 4096 * 4096), badent := false }) ∧
      exec (.qsizeWrite die n v) s = .next (f.setQueue die n { x with size := min (v.toNat % 16) 12, badent := false }))) ∧
  (die < 4 → s.dieAway die = false →
    (∀ q, f.badQueue die = some q → exec (.graphAdmit die) s = .next (f.skipEntry die q)) ∧
    (∀ q at_ e c z, f.badQueue die = none → f.bestQueue die = some (q, at_, e) → f.queueLive die q = some (c, z) →
      let w := fun (k : Nat) => (f.vread c.id [0] (at_ + 8 * k) 8).getD 0
      let g := graphOf s.nextGraph c.id die q z.taken at_ ((z.counts.find? (fun p => p.1 = z.taken)).map (·.2)) w
      descriptorOk w = true → exec (.graphAdmit die) s = .next
        { (f.pass die q).setDieAt die { s.dieAt die with lastQ := q } with graphs := s.graphs ++ [g], nextGraph := s.nextGraph + 1 })) ∧
  (∀ g, s.graphAt n = some g → s.dieAway g.die = false →
    (g.admitted = false →
      (∀ rs rs', f.loadRecs g (s.ctxAt g.ctx).part (upto 0 g.ntask) = some rs → withCount g.count rs = some rs' → exec (.recordAdmit n) s = .next
        ((f.vwrite g.ctx [0] (g.desc.toNat + 24) (natToBytes 8 (2 ^ 56))).setGraph { g with recs := rs', admitted := true })) ∧
      (f.loadRecs g (s.ctxAt g.ctx).part (upto 0 g.ntask) = none → exec (.recordAdmit n) s = .next (f.complete_ g 3 1))) ∧
    (g.admitted = true → g.admitNext < g.recs.length → g.live < 256 → exec (.recordAdmit n) s = .next (f.admitRec g))) ∧
  (∀ r, s.nextStart die part = some r →
    (r.kind ≠ .gang → exec (.taskStart die part) s = .next (f.startReady die part r)) ∧
    (∀ g q i img k ks, r.kind = .record → f.readyRec r = some (g, q) → g.det = false → f.images g q = some img → q.nest = none →
      f.freeCores die part q.only = k :: ks → i = q.nextTile.1 →
      ∃ t, exec (.taskStart die part) s = .next t ∧
        t.coreAt g.die k = (s.coreAt g.die k).begin_ (runOf { g with phaseOk := some q.phase } q r.idx i s.now) q (q.tileAt i) img ∧
        t.mem = s.mem ∧ ∀ j, j ≠ coreKey g.die k → tGet {} t.cores j = tGet {} s.cores j) ∧
    (r.kind = .gang → exec (.gangStart die part) s = .next (f.startReady die part r))) ∧
  (∀ r prio only, s.starved die part = some (r, prio, only) → (s.partAt die part).halt = none → s.dieAway die = false →
    exec (.preempt die part) s = .next (f.preemptFor die part r prio only)) ∧
  (∀ t0, (s.coreAt die core).task = some t0 → (s.coreAt die core).over = true → (s.coreAt die core).fbSettled s.now = true → (s.partOfCore die core).halt = none → s.dieAway die = false →
    (s.coreAt die core).stash = [] → exec (.taskRetire die core) s = .next
      (((((f.setCoreAt die core (s.coreAt die core).vacant).noteIdle die core).countSignal t0.graph t0.record t0.tile)).tileOver t0))

/-- R308, R310, Table 16.7: a request starts at its home once nothing of its line is before it: READS of an uncached line makes its requester the
owner in E, READS and HOME_DIE_READ of an owned line send FWDS and FWDH to the owner, READX and HOME_DIE_WRITE send INV to every other holder.
FWDS leaves a holder in S, or O where its copy is dirty; FWDH leaves S and sends dirty data home; INV leaves I; each answers with an
ACKNOWLEDGEMENT, the last of which completes the transaction. A WRITEBACK takes a dirty line home, and answers the message that it crosses. An
ENTRY_EVICTION frees its entry. Its conclusion says that exec answers a next state for: reads, readx, writeback, homeDieRead, homeDieWrite, fwds,
fwdh, inv, entryEviction, acknowledgement. -/
def Obligations.LinesTravel : Prop := ∀ (s : State) (n die line : Nat),
  let f := s.fresh
  (∀ r, s.reqs[n]? = some r → s.reqDue n r = true →
    let d := s.dirAt r.line
    let rest := dropNth s.reqs n
    let calls := fun (i : Instr) (kind : FwdKind) (ds : List Nat) => ∃ t, exec i s = .next t ∧ t.reqs = rest ∧
      t.xacts = s.xacts ++ [{ req := r, due := ds }] ∧ t.fwds = s.fwds ++ ds.map (fun d => ⟨kind, d, r.line, r.die⟩) ∧ t.dirs = s.dirs ∧ t.lines = s.lines ∧ t.mem = s.mem
    (∀ x xs, s.reqSnoops r = x :: xs →
      exec (match r.kind with | .readS => .reads n | .readX => .readx n | .homeRead => .homeDieRead n | .homeWrite => .homeDieWrite n) s
        = .next { f with snoops := addNew s.snoops (x :: xs) }) ∧
    (s.reqSnoops r = [] →
      (r.kind = .readS → d = {} → (s.lineAt r.line r.die).st = .i →
        ∃ t, exec (.reads n) s = .next t ∧ t.dirAt r.line = { st := .e, owner := r.die } ∧ t.lineAt r.line r.die = ⟨.e, f.lineBytes r.line, 0⟩ ∧ t.reqs = rest ∧ t.mem = s.mem) ∧
      (r.kind = .readS → (s.lineAt r.line r.die).st ≠ .i → d.owned = true → calls (.reads n) .fwdS [d.owner]) ∧
      (r.kind = .readX → d.holders.filter (· ≠ r.die) ≠ [] → calls (.readx n) .inv (d.holders.filter (· ≠ r.die))) ∧
      (r.kind = .homeRead → d.owned = true → calls (.homeDieRead n) .fwdH [d.owner]) ∧
      (r.kind = .homeWrite → d.holders ≠ [] → calls (.homeDieWrite n) .inv d.holders))) ∧
  (∀ m, s.fwds[n]? = some m → s.dieAway m.dest = false → (∀ g ∈ s.fwds.take n, s.sameRoute m g = false) →
    s.stashConf m.dest none m.line (m.kind = .inv) = [] → (s.lineAt m.line m.dest).st ≠ .i →
    let l := s.lineAt m.line m.dest
    let does := fun (i : Instr) (l1 : Line) (a : Ack) => ∃ t, exec i s = .next t ∧ t.lineAt m.line m.dest = l1 ∧ t.acks = s.acks ++ [a] ∧ t.fwds = dropNth s.fwds n ∧ t.mem = s.mem
    (m.kind = .fwdS → does (.fwds n) { l with st := if l.dirty = true then .o else .s } { line := m.line, die := m.dest, nodata := false, dirty := l.dirty }) ∧
    (m.kind = .fwdH → does (.fwdh n) { l with st := .s } { line := m.line, die := m.dest, nodata := false, dirty := false, data := l.dirtyData }) ∧
    (m.kind = .inv → does (.inv n) {} { line := m.line, die := m.dest, nodata := false, dirty := false, data := l.dirtyData })) ∧
  (∀ a x, s.acks[n]? = some a → s.xacts.find? (fun x => x.req.line = a.line) = some x → a.nodata = false →
    (∀ b ∈ s.acks.take n, b.die = a.die → s.homeOf (b.line * 256) ≠ s.homeOf (a.line * 256)) →
    let x1 : Xact := { x with due := x.due.filter (· ≠ a.die), dirty := x.dirty || a.dirty, data := if a.data.isSome then a.data else x.data }
    let v : State := { f with acks := dropNth s.acks n, xacts := s.xacts.map (fun y => if y.req.line = a.line then x1 else y) }
    (x1.due ≠ [] → exec (.acknowledgement n) s = .next v) ∧ (x1.due = [] → exec (.acknowledgement n) s = .next (v.finishXact x1))) ∧
  (s.writeBackDue die line = true → s.xactOn line = false → ∃ t, exec (.writeback die line) s = .next t ∧ t.lineAt line die = {} ∧
    t.dirAt line = (s.dirAt line).without die ∧ t.mem = (f.lineHome line ((f.lineAt line die).data, (f.lineAt line die).keyNo)).mem) ∧
  (∀ x, s.writeBackDue die line = true → s.xacts.find? (fun x => x.req.line = line && x.due.contains die) = some x →
    let x1 : Xact := { x with due := x.due.filter (· ≠ die) }
    let w := ((f.lineHome line ((s.lineAt line die).data, (s.lineAt line die).keyNo)).setLine line die {}).setDir line ((s.dirAt line).without die)
    let v : State := { w with fwds := s.fwds.filter (fun m => !(m.line = line && m.dest = die)), xacts := s.xacts.map (fun y => if y.req.line = line then x1 else y) }
    exec (.writeback die line) s = .next (if x1.due = [] then v.finishXact x1 else v)) ∧
  (s.evictDue die line = true → ∃ t, exec (.entryEviction die line) s = .next t ∧ t.filt.contains (die, line) = false)

/-- R309, R306, R113, R318: a posted store is performed at its home in its core's order, or dropped there, with its import revoked, where the
exporter no longer admits it; its answer, which reaches the core as a STORE_ACK, takes it off the core's list and out of the flushes that wait
for it. A lost die holds nothing, its exports are revoked and chains through it freeze. Its conclusion says that exec answers a next state for:
postedStorePerformed, storeAck, dieLost. -/
def Obligations.PostsAndLoss : Prop := ∀ (s : State) (die core home n : Nat),
  let f := s.fresh
  (∀ m, (s.postedTo die core home).head? = some m → s.dieAway home = false →
    let u : State := { f with posts := s.posts.filter (fun p => !(p.die = m.die && p.core = m.core && p.pid = m.pid)) }
    (f.postPlace m = none → exec (.postedStorePerformed die core home) s = .next ((u.revokeImport (u.ctxOf m.die m.core) m.slot).ackItem m.home m.die m.core m.pid true)) ∧
    (∀ p, f.postPlace m = some p → f.canWrite m.die none p m.data.length = .ok () →
      exec (.postedStorePerformed die core home) s = .next ((u.put m.die p m.data).ackItem m.home m.die m.core m.pid false))) ∧
  (∀ a, s.sacks[n]? = some a → (∀ b ∈ s.sacks.take n, b.src = a.src → b.die ≠ a.die) →
    let c := (s.coreAt a.die a.core).itemDone a.pid a.dropped
    exec (.storeAck n) s = .next ((({ f with sacks := dropNth s.sacks n } : State).setCoreAt a.die a.core c).settleDefer a.die a.core) ∧
    (a.dropped = false → ∀ i ∈ c.posted, i.pid ≠ a.pid)) ∧
  (die < 4 → (s.dieAt die).lost = false →
    exec (.dieLost die) s = .next ((((f.lostExports die).foldl (fun s e => s.revokeExport e) (((f.setDieAt die { s.dieAt die with lost := true }).stopDie die).dropCopies die))).freezeDie die))

/-- R371 to R374, Table 22.4: a mailbox command in a module that is not in RECOVERY ends with BADARG where an argument bit that its row does not list
is set or QUAL is nonzero without a key slot, and in RECOVERY with BUSY; otherwise it has its effect and ends with code 0 and its results: EXPORT
adds an export under a fresh handle, IMPORT and UNIMPORT fill and empty an import entry, REVOKE revokes, INVALTR leaves nothing stale, MIGRATE
moves a page, GRESOLVE resolves halves, CTXCREATE and CTXDESTROY begin and end a context, KEYLOAD and KEYCLR change a key, MANADD and MANSIGN
serve the manifest, PWRLIMIT sets the limit. IMGPUSH and WARMRESET take the module or a die through its start. Its conclusion says that exec
answers a next state for: mbExport, mbImport, unimport, revoke, invaltr, migrate, warmreset, gresolve, ctxcreate, ctxdestroy, keyload, keyclr,
manadd, mansign, imgpush, pwrlimit. -/
def Obligations.MailboxCommandsRun : Prop := ∀ (s : State) (fn frame : Nat),
  let f := s.fresh
  let arg := s.arg fn
  let c := s.ctxAt (arg 0)
  let runs := fun (opc : Nat) (masks : List Nat) (keyed : Bool) => s.mbDue fn opc = true ∧ s.mill.stage ≠ 2 ∧ s.argsOk fn masks = true ∧ decide (s.qual fn ≠ 0) = keyed
  let ends := fun (i : Instr) (u : State) (res : List Nat) => exec i s = .next (u.mbEnd fn 0 res)
  let w := fun (n : Nat) => List.replicate n w64
  (∀ i opc masks keyed, (i, opc, masks, keyed) ∈ [
      (Instr.mbExport fn, 1, [w64, 0xF000000000000001, w64, w64], false), (.mbImport fn, 2, w 3 ++ [0xFFF], false), (.unimport fn, 3, w 2, false), (.revoke fn, 4, w 1, false),
      (.invaltr fn, 5, w 3, false), (.gresolve fn, 8, w 3 ++ [0xF, 0xFFFFFFFF], false), (.ctxcreate fn, 9, [7, w64], false), (.ctxdestroy fn, 10, w 1, false),
      (.keyload fn, 0x10, w 8, true), (.keyclr fn, 0x11, [], true), (.manadd fn, 0x20, [w64, 0xF, w64, w64], false), (.mansign fn, 0x21, w 6, false), (.pwrlimit fn, 0x40, [0xFFF], false)] →
    s.mbDue fn opc = true →
    (s.mill.stage = 2 → exec i s = .next (f.mbEnd fn 4 [])) ∧
    (s.mill.stage ≠ 2 → s.argsOk fn masks = false ∨ decide (s.qual fn ≠ 0) ≠ keyed → exec i s = .next (f.mbEnd fn 2 []))) ∧
  (c.live = true →
    (runs 1 [w64, 0xF000000000000001, w64, w64] false → let kind := bits (arg 1) 60 4
      1 ≤ kind → kind ≤ 3 → (kind = 1 → arg 2 % 2 ^ 21 = 0 ∧ arg 3 % 2 ^ 21 = 0 ∧ arg 3 ≠ 0 ∧ f.allMapped c (arg 2) (arg 3) = true) →
      (s.exports.filter (fun e => e.ctx = c.id && !e.revoked)).length < 256 →
      let h := f.freshBits 1 * 2 ^ 32 + (s.free + 1) % 2 ^ 32
      let e : ExportEnt := { handle := BitVec.ofNat 64 h, ctx := c.id, die := c.die, kind := kind, base := if kind = 1 then arg 2 else 0,
                             len := if kind = 1 then arg 3 else 0, write := kind = 1 && bit (arg 1) 0 }
      ends (.mbExport fn) { f with exports := s.exports ++ [e] } [h]) ∧
    (runs 2 (w 3 ++ [0xFFF]) false → ∀ e k, f.importedExport fn = .ok e → e.kind = 1 ∨ e.die ≠ c.die →
      let wbase := if e.kind = 1 then arg 2 else 0
      wbase % 2 ^ 21 = 0 → (e.kind = 1 → f.windowMeets c wbase e.len = false) → c.freeSlot = some k →
      ends (.mbImport fn) (({ f with nextImport := s.nextImport + 1 } : State).setCtx { c with imports := tIns c.imports k { e with tag := f.freshBits 2, wbase := wbase, uid := s.nextImport } })
        [handleOf e.kind e.vdie k (f.freshBits 2)]) ∧
    (runs 3 (w 2) false → ∀ p, c.imports.find? (fun p => p.1 = bits (arg 1) 32 16) = some p → arg 1 = handleOf p.2.kind p.2.vdie (bits (arg 1) 32 16) p.2.tag →
      ends (.unimport fn) (f.setCtx { c with imports := tDel c.imports (bits (arg 1) 32 16) }) []) ∧
    (runs 5 (w 3) false → ends (.invaltr fn)
      (f.dropTlb fun t => t.ctx = c.id && decide (t.va < arg 1 + arg 2) && decide (arg 1 < t.va + 2 ^ t.leaf.pbits)) []) ∧
    (runs 6 (w 2 ++ [1]) false → ∀ l, s.migrant fn = .ok (c, l) → f.migrant fn = .ok (c, l) →
      (inTier l.pa (arg 2) = true → ends (.migrate fn frame) f []) ∧
      (inTier l.pa (arg 2) = false → s.migrateDue fn frame = true → ends (.migrate fn frame) (f.move c (arg 1) l frame) [])) ∧
    (runs 8 (w 3 ++ [0xF, 0xFFFFFFFF]) false → arg 3 < 12 → c.gossip.isSome = true → ends (.gresolve fn) (f.resolveLines c.id (arg 1) (arg 2) (arg 3) (BitVec.ofNat 32 (arg 4))) []) ∧
    (runs 10 (w 1) false → ends (.ctxdestroy fn) (f.destroy c.id 7) []) ∧
    (runs 0x20 [w64, 0xF, w64, w64] false → arg 3 ≤ 2 ^ 26 → ∀ bs, f.ctxBytes c (arg 2) (arg 3) = some bs →
      ends (.manadd fn) (f.setCtx { c with man := tSet 0 c.man (arg 1) (1 + bytesToNat (sha256 bs)) }) ((upto 0 4).map (fun k => bytesToNat (((sha256 bs).drop (8 * k)).take 8)))) ∧
    (runs 0x21 (w 6) false → ∀ bs, bs = f.report c ((upto 2 4).map arg) →
      ends (.mansign fn) (f.devWrite { key := hostKey (arg 1), home := 4, keyNo := 0, mtype := 0, mclass := 0 } bs) [bs.length])) ∧
  (runs 4 (w 1) false → (f.exportOf (arg 0)).isSome = true → ends (.revoke fn) (f.revokeExport (arg 0)) []) ∧
  (runs 9 [7, w64] false → s.mill.lock = true → arg 1 % 64 = 0 → arg 1 + 64 ≤ hbmBytes → arg 0 < 2 ^ s.partLog fn → s.mill.dieUp.getLsbD fn = true →
    let d := fun (k : Nat) => f.cohNat (physKey fn (arg 1 + 8 * k)) 8
    f.ctxDescOk fn d = true → (s.partAt fn (arg 0)).ctx = none →
    let u := (s.coresOf fn (arg 0)).foldl (fun u k => u.setCoreAt fn k (u.coreAt fn k).fresh) { f with nextCtx := s.nextCtx + 1 }
    let n : Ctx := { id := s.nextCtx, die := fn, vdie := s.vdie fn, part := arg 0, ptroot := d 0, tvec := BitVec.ofNat 64 (d 1), save := d 2, cpol := d 3,
                     qmask := BitVec.ofNat 64 (d 4) }
    ends (.ctxcreate fn) ((u.setCtx n).setPartAt fn (arg 0) { ctx := some s.nextCtx }) [s.nextCtx]) ∧
  (s.mill.ide = true →
    (runs 0x10 (w 8) true → ends (.keyload fn) { f with keyVer := tSet 0 s.keyVer (s.qual fn) (tGet 0 s.keyVer (s.qual fn) + 1) } []) ∧
    (runs 0x11 [] true → ends (.keyclr fn) { f with keyVer := tSet 0 s.keyVer (s.qual fn) (tGet 0 s.keyVer (s.qual fn) + 1) } [])) ∧
  (runs 0x40 [0xFFF] false → 1500 ≤ arg 0 → arg 0 ≤ 3100 → ends (.pwrlimit fn) { f with mill := { s.mill with limit := arg 0 } } []) ∧
  (s.mbDue fn 0x30 = true → s.argsOk fn [w64, w64] = true → s.qual fn = 0 →
    ((∃ p ∈ s.ctxs, p.2.live = true) → exec (.imgpush fn) s = .next (f.mbEnd fn 4 [])) ∧
    ((∀ p ∈ s.ctxs, p.2.live = false) → let img := imageOf (f.devBytes (hostKey (arg 0)) (arg 1))
      (Config.imageVerifies img = true → exec (.imgpush fn) s = .next ({ f with mill := { s.mill with flash := img, flashBad := false } } : State).start) ∧
      (Config.imageVerifies img = false → exec (.imgpush fn) s = .next (f.mbEnd fn 0x10 [])))) ∧
  (runs 7 [3] false → ∀ die, s.pdie (arg 0 % 4) = some die → (s.dieAt die).warm = false → s.mill.dieUp.getLsbD die = true → (s.dieAt die).lost = false →
    let u := f.quiesce die
    (u.quiesced die = false → exec (.warmreset fn) s = .next u) ∧
    (u.quiesced die = true → let v := u.warmReset die
      exec (.warmreset fn) s = .next (v.setMbox fn { (v.dieAt fn).mbox with progress := true })))

/-- R370 to R377, R383 to R385, R292, R300, R311: a write to MBCMD starts a command, or sets OVR while one runs, and an opcode that is not listed
ends at once with UNKNOWN; FEATACCEPT takes the accepted features until LOCK is set. POWER_GOOD starts the module, DIE_ADMIT trains a die and the
last one brings FULL; POWER_LOSS leaves nothing but the flash. POWER_SAMPLE and THERMAL_SAMPLE move the alarms, 110 degrees takes the power away.
An ageing core is retired into a spare. A CXL write reaches the die's memory at once. The die map moves GEN with every change; L2_MODE_CHANGE
empties the die's L2 first. Its conclusion says that exec answers a next state for: featacceptWrite, registerWrite, powerGood, dieAdmit,
powerSample, thermalSample, coreAgeingCheck, cxlMemAccess, dieMapChange, l2ModeChange, powerLoss. -/
def Obligations.ModuleEvents : Prop := ∀ (s : State) (fn die core addr watts : Nat) (v : BitVec 64) (bs : List Byte) (b : Bool) (temps : List Nat),
  let f := s.fresh
  let m := (s.dieAt fn).mbox
  (s.barOpen = true →
    (fn < 4 →
      (m.busy = true → exec (.registerWrite fn 0x100 v) s = .next (f.setMbox fn { m with ovr := true })) ∧
      (m.busy = false →
        let u := f.setMbox fn { m with cmd := BitVec.ofNat 64 (v.toNat % 2 ^ 24), busy := true, progress := false, cargs := m.args }
        (opcListed (v.toNat % 2 ^ 16) = true → exec (.registerWrite fn 0x100 v) s = .next u) ∧
        (opcListed (v.toNat % 2 ^ 16) = false → exec (.registerWrite fn 0x100 v) s = .next (u.mbEnd fn 1 [])))) ∧
    (s.mill.lock = true → exec (.featacceptWrite v) s = .next f) ∧
    (s.mill.lock = false → exec (.featacceptWrite v) s = .next { f with mill := { s.mill with feats := BitVec.ofNat 5 v.toNat, lock := bit v.toNat 63 } })) ∧
  (s.mill.on = false → ∃ t, exec .powerGood s = .next t ∧ t.mill.on = true ∧ t.mill.flash = s.mill.flash ∧ t.mem = [] ∧ t.ctxs = [] ∧
    t.mill.stage = (if s.mill.flashBad = false ∧ Config.imageVerifies s.mill.flash = true then 1 else 2)) ∧
  ((s.dieAt die).warm = false → s.mill.on = true → s.mill.stage = 1 → die < 4 → s.mill.trained.contains die = false → ∃ t, exec (.dieAdmit die true) s = .next t ∧
    t.mill.dieUp = s.mill.dieUp ||| BitVec.ofNat 4 (2 ^ die) ∧ t.mill.trained = s.mill.trained ++ [die] ∧ (t.dieAt die).partLog = Config.partLogOf die % 4 ∧
    t.mill.stage = (if (upto 0 6).all (fun d => (s.mill.trained ++ [die]).contains d) = true then 3 else 1)) ∧
  ((s.dieAt die).warm = true → die < 4 → exec (.dieAdmit die true) s = .next (f.readmit die)) ∧
  (s.mill.on = true → b = false ∨ s.flashing = true → ∃ t, exec (.powerLoss b) s = .next t ∧
    t.mill = { ({} : Mill) with flash := s.mill.flash, flashBad := s.mill.flashBad || b } ∧ t.mem = [] ∧ t.ctxs = [] ∧ t.cores = []) ∧
  (s.mill.on = true →
    (∃ t, exec (.powerSample watts) s = .next t ∧ t.mill.power = avgOf (s.mill.samples.filter (fun p => decide (s.now < p.1 + clkPerMs)) ++ [(s.now, watts)]) ∧
      (s.mill.limit < t.mill.power → t.mill.alarmPow = true)) ∧
    (temps.length = 6 → let top := temps.foldl max 0
      (110 ≤ top → exec (.thermalSample temps) s = .next (f.powerOff false)) ∧
      (top < 110 → exec (.thermalSample temps) s = .next
        { f with mill := { s.mill with tmax := top, hot := decide (100 ≤ top), alarmHot := decide (100 ≤ top) || (s.mill.alarmHot && decide (95 ≤ top)) } }))) ∧
  (die < 4 → core < 160 → (s.coreAt die core).task = none → tGet 0 (s.dieAt die).idleFrom core + 10 * clkPerMs ≤ s.now → s.mayRetire die core = true →
    (∀ p, f.freeSpare die = some p → let u := f.bindSpare die core p
      exec (.coreAgeingCheck die core true) s = .next (u.setDieAt die { u.dieAt die with retired := (u.dieAt die).retired ++ [s.physOf die core] })) ∧
    (f.freeSpare die = none → exec (.coreAgeingCheck die core true) s = .next (f.setDieAt die { s.dieAt die with evlog := (s.dieAt die).evlog ++ [core] }))) ∧
  (fn < 4 → s.mill.dieUp.getLsbD fn = true → addr + bs.length ≤ min (Config.cxlWindow fn) (2 ^ 36) → exec (.cxlMemAccess fn addr true bs) s =
    .next (f.devWrite { key := physKey fn addr, home := fn, keyNo := 0, mtype := 0, mclass := 0 } bs)) ∧
  (∃ t, exec (.cxlMemAccess fn addr false bs) s = .next t ∧ { t with free := s.free } = s) ∧
  (s.mill.on = true → mapOk v.toNat = true → s.mapQuiet v.toNat = true →
    let old := s.mill.dieMap.toNat
    let new := bits v.toNat 4 16 * 16
    (new = bits old 4 16 * 16 → exec (.dieMapChange v) s = .next f) ∧
    (new ≠ bits old 4 16 * 16 → exec (.dieMapChange v) s = .next { f with mill := { s.mill with
      dieMap := BitVec.ofNat 64 ((bits old 48 16 + 1) % 2 ^ 16 * 2 ^ 48 + new), mapLog := s.mill.mapLog ++ [s.mill.dieMap] } })) ∧
  (die < 4 → s.mill.on = true → s.ctxs.any (fun p => p.2.live && p.2.die = die && !p.2.out) = false → (s.dieLines die).any (fun ln => s.entryBusy die ln) = false →
    ∃ t, exec (.l2ModeChange die b) s = .next t ∧ (t.dieAt die).priv = b ∧ ∀ e ∈ t.filt, e.1 ≠ die)

/-- Tables 4.6, 5.5, 7.4, 9.5, 10.7, 12.7 and 13.8: every example word of the spec decodes to the instruction it is the word of. -/
def Obligations.ExampleWordsDecode : Prop := ∀ p ∈ [
  (16, 0x188A, Instr.li16 3 2), (16, 0x007C, .ext 1), (32, 0x104F4007, .addi 4 4 488 0),
  (32, 0x00500781, .vld32 0 2 1 0 7), (32, 0x08000361, .vaddF32 1 0 0 0 3), (32, 0x08500083, .vst32 1 2 1 0 0), (32, 0x12100837, .evterm 1 0 1 1 1 0), (32, 0x24000033, .br 1 1 0),
  (32, 0x105C1019, .ld 4 5 6 2 0), (32, 0x1850A021, .atom 6 5 0 1 1 0), (32, 0x20200813, .cmp 1 2 0 1 0), (32, 0x00001029, .fence 2 0), (32, 0x1C60002D, .tkwait 7 6 0),
  (32, 0x42000033, .brL 2 0 0), (32, 0x63F00035, .pbrR 3 63 0), (32, 0x000008FB, .eret 0)] ++ [
  (16, 0x25BC, Instr.ext 0x96), (32, 0x18022071, .vlut3 3 0 1 2 0), (32, 0x20C60873, .vfsl 4 3 3 1 0), (32, 0x8089006D, .vcmpF32 8 1 2 2 0 0), (32, 0x02200097, .vsetvlImm 8 0),
  (32, 0x2840088B, .vred 5 1 0 1 0), (32, 0x304F0091, .vmxq 6 1 7 0x20 0), (32, 0x10C4A07D, .vgath 2 3 4 1 2 0),
  (32, 0x401000C1, .mnest 2 0 1 0), (32, 0x641000C1, .mnest 3 1 1 0), (32, 0x083800C3, .mopa 2 3 1 0 0), (32, 0x105008C3, .mopb 4 5 0 0 0), (32, 0x204000C5, .mma 2 1 0),
  (32, 0x380000C7, .mmas 3 0x20 0), (32, 0x5FC000C9, .mgo 5 0x3F 0), (32, 0x0420C0CB, .mfmt 1 2 3 0), (32, 0x000000CD, .mfmtcommit 0)] ++ [
  (32, 0x070408CF, Instr.chbuild 7 1 1 0), (32, 0x070838D1, .chclose 7 2 3 1 0), (32, 0x071000D3, .chstat 7 4 0), (32, 0x071460D5, .chsplice 7 5 6 0), (32, 0x070000D7, .chhalt 7 0),
  (32, 0x070010D7, .chthaw 7 0), (32, 0xFF0020D7, .chrel 255 0), (32, 0x070830D9, .chread 7 2 3 0 0),
  (32, 0x081900E1, .cp 2 1 1 0 32 0), (32, 0x0C2500E1, .cp 3 2 0 1 32 0), (32, 0x081800E1, .cp 2 1 1 0 0 0), (32, 0x0C2420E3, .cpR 3 2 0 1 4 0), (32, 0x140A00E5, .cpDCvt 5 1 0),
  (32, 0x0420C0E7, .stmap 1 2 3 0), (32, 0x044010E7, .stflush 1 4 0), (32, 0x0C200041, .barArrive 3 2 0 0), (32, 0x1020C841, .barWait 4 2 3 0), (32, 0x1020D041, .barWait4 4 2 3 0),
  (32, 0x00518043, .flagAdd 0 5 6 0), (32, 0x1C518843, .flagWait 7 5 6 0), (32, 0x20518045, .chunk 8 5 6 0), (32, 0x24518047, .tlaunch 9 5 6 0)],
  decodeTableWord p.1 p.2.1 = some p.2.2

/-- R75 to R88, R235: encoding an instruction and decoding its word give the instruction back, with every operand at every value its field holds. -/
def Obligations.EncodedInstructionsDecode : Prop := ∀ i : Instr, i.wellFormed = true → ∀ n w, encode i = some (n, w) → w < 2 ^ n ∧ decodeTableWord n w = some i

/-- R77, R83, R88, R235: a word that decodes to an instruction is that instruction's encoding and no other bit of it is set, so each word has one
meaning and every reserved bit is refused; and what the decoder gives is well formed. -/
def Obligations.DecodedWordsAreEncodings : Prop := ∀ (w : Nat) (i : Instr),
  (decode w = .ok i → i.wellFormed = true ∧ (encode i = some (16, w % 2 ^ 16) ∨ encode i = some (32, w % 2 ^ 32)) ∧ (encode i = some (16, w % 2 ^ 16) ↔ w % 2 = 0)) ∧
  (decodeHelper w = some i → i.wellFormed = true ∧ encode i = some (64, w % 2 ^ 64))

/-- The model's own step (log 1, 2): what has fallen due by its clk happens first. With no turn on the tape the current stream has its turn, one clk
on or as soon as its gap is over: in the body of a block it runs the instruction its next word decodes to, at a header it starts its block, at
its end it does nothing, and a word that is no instruction traps with the subcode of Table 4.5 and changes nothing. A turn of the tape passes its
clk, then runs the event, the micro-instruction or the stream it names. -/
def Obligations.StepRunsDecoded : Prop := ∀ (s : State) (i : Instr) (t : Turn) (ts : List Turn) (id : EngId) (die core w : Nat),
  let a : State := ({ s with now := max (s.now + 1) s.me.nextIssue } : State).clkStart
  let u : State := ({ s with tape := ts, now := s.now + t.dt } : State).clkStart
  let v : State := { u with cur := id }
  let x : State := { u with cur := ⟨die, core, .x⟩ }
  (s.tape = [] →
    (a.me.phase = .body → decode a.unitWord = .ok i → step s = exec i a) ∧
    (a.me.phase = .header → step s = exec (.blockStart s.cur.die s.cur.core s.cur.eng) a) ∧
    (a.me.phase = .ended → step s = .next a) ∧
    (∀ e, a.me.phase = .body → decode a.unitWord = .error e → a.unitWord % 64 ≠ 0x3E → s.curOk = true → a.mayIssue = true →
      step s = .next (a.illegal e.subcode (wordForm a.unitWord)))) ∧
  (s.tape = t :: ts →
    (t.act = .engine id → v.me.phase = .body → decode v.unitWord = .ok i → step s = exec i v) ∧
    (t.act = .event i → isEvent i = true → step s = exec i u) ∧
    (t.act = .helper die core → x.helperWord = some w → decodeHelper w = some i → step s = exec i x)) ∧
  a.now = max (s.now + 1) s.me.nextIssue ∧ a.mem = s.mem ∧ a.cur = s.cur ∧ u.now = s.now + t.dt ∧ u.mem = s.mem

/-- R375, R370, R300, R384: right after reset the module is without power at stage 0: no die admitted, no feature accepted and none locked, no
context, graph or chain, every stream of every core at its end; the die map and the power limit hold their reset values; nothing is outstanding,
and memory stands in its canonical form with nothing listed, which reads as 0 (the model's choice, log 8). -/
def Obligations.ResetState : Prop := let s := State.reset
  s.Inv ∧ s.mem = [] ∧ s.mill.on = false ∧ s.mill.stage = 0 ∧ s.mill.dieUp = 0 ∧ s.mill.farUp = 0 ∧ s.mill.feats = 0 ∧ s.mill.lock = false ∧ s.mill.dieMap = 0xBA980#64 ∧
  s.mill.limit = 3100 ∧ s.ctxs = [] ∧ s.graphs = [] ∧ s.chains = [] ∧ s.links = [] ∧ s.exports = [] ∧ s.reqs = [] ∧ s.posts = [] ∧ s.tape = [] ∧
  (∀ die core w, ((s.coreAt die core).eng w).phase = .ended) ∧ ∀ die core, (s.coreAt die core).task = none ∧ (s.coreAt die core).vl = 64 ∧ (s.coreAt die core).storeq = []

/-- The model never refuses and faults only where the part has nothing to run: for a well-formed instruction, or for any event, at an engine that the
part has, exec answers a next state; and a step answers a next state wherever the engine it acts for is one the part has. -/
def Obligations.EveryInstructionRuns : Prop := ∀ (s : State) (i : Instr),
  ((∃ t, exec i s = .next t) ∨ (exec i s = .fault .noEngine ∧ s.curOk = false) ∨ (exec i s = .fault .illFormed ∧ i.wellFormed = false)) ∧
  ((∃ t, step s = .next t) ∨ step s = .fault .noEngine) ∧
  (s.tape = [] → s.curOk = true → ∃ t, step s = .next t)

/-- Every step keeps memory in its canonical form: addresses strictly rising, and no entry that an unlisted byte would read as. -/
def Obligations.StepKeepsInv : Prop := ∀ s t : State, s.Inv → step s = .next t → t.Inv

end
end

