-- ==== Sys2Proof/Laws/Exec.lean ====
section
/-! SUPPORT. What `exec` is on each constructor: the meaning it calls. -/

namespace Sys2Proof.Machine

@[simp] theorem exec_nop16 (st : State) : exec .nop16 st = execNop16 st := rfl
@[simp] theorem exec_mv16 (a : BitVec 5) (d : BitVec 5) (st : State) : exec (.mv16 a d) st = execMv16 a d st := rfl
@[simp] theorem exec_add16 (a : BitVec 5) (d : BitVec 5) (st : State) : exec (.add16 a d) st = execAdd16 a d st := rfl
@[simp] theorem exec_sub16 (a : BitVec 5) (d : BitVec 5) (st : State) : exec (.sub16 a d) st = execSub16 a d st := rfl
@[simp] theorem exec_addi16 (i : BitVec 5) (d : BitVec 5) (st : State) : exec (.addi16 i d) st = execAddi16 i d st := rfl
@[simp] theorem exec_li16 (i : BitVec 5) (d : BitVec 5) (st : State) : exec (.li16 i d) st = execLi16 i d st := rfl
@[simp] theorem exec_ext (n : BitVec 10) (st : State) : exec (.ext n) st = execExt n st := rfl
@[simp] theorem exec_fmt (n : BitVec 6) (st : State) : exec (.fmt n) st = execFmt n st := rfl
@[simp] theorem exec_add (d : BitVec 6) (a : BitVec 6) (b : BitVec 6) (g : BitVec 3) (st : State) : exec (.add d a b g) st = execAdd d a b g st := rfl
@[simp] theorem exec_sub (d : BitVec 6) (a : BitVec 6) (b : BitVec 6) (g : BitVec 3) (st : State) : exec (.sub d a b g) st = execSub d a b g st := rfl
@[simp] theorem exec_and (d : BitVec 6) (a : BitVec 6) (b : BitVec 6) (g : BitVec 3) (st : State) : exec (.and d a b g) st = execAnd d a b g st := rfl
@[simp] theorem exec_or (d : BitVec 6) (a : BitVec 6) (b : BitVec 6) (g : BitVec 3) (st : State) : exec (.or d a b g) st = execOr d a b g st := rfl
@[simp] theorem exec_xor (d : BitVec 6) (a : BitVec 6) (b : BitVec 6) (g : BitVec 3) (st : State) : exec (.xor d a b g) st = execXor d a b g st := rfl
@[simp] theorem exec_sll (d : BitVec 6) (a : BitVec 6) (b : BitVec 6) (g : BitVec 3) (st : State) : exec (.sll d a b g) st = execSll d a b g st := rfl
@[simp] theorem exec_srl (d : BitVec 6) (a : BitVec 6) (b : BitVec 6) (g : BitVec 3) (st : State) : exec (.srl d a b g) st = execSrl d a b g st := rfl
@[simp] theorem exec_sra (d : BitVec 6) (a : BitVec 6) (b : BitVec 6) (g : BitVec 3) (st : State) : exec (.sra d a b g) st = execSra d a b g st := rfl
@[simp] theorem exec_mul (d : BitVec 6) (a : BitVec 6) (b : BitVec 6) (g : BitVec 3) (st : State) : exec (.mul d a b g) st = execMul d a b g st := rfl
@[simp] theorem exec_mulh (d : BitVec 6) (a : BitVec 6) (b : BitVec 6) (g : BitVec 3) (st : State) : exec (.mulh d a b g) st = execMulh d a b g st := rfl
@[simp] theorem exec_mulhu (d : BitVec 6) (a : BitVec 6) (b : BitVec 6) (g : BitVec 3) (st : State) : exec (.mulhu d a b g) st = execMulhu d a b g st := rfl
@[simp] theorem exec_min (d : BitVec 6) (a : BitVec 6) (b : BitVec 6) (g : BitVec 3) (st : State) : exec (.min d a b g) st = execMin d a b g st := rfl
@[simp] theorem exec_max (d : BitVec 6) (a : BitVec 6) (b : BitVec 6) (g : BitVec 3) (st : State) : exec (.max d a b g) st = execMax d a b g st := rfl
@[simp] theorem exec_minu (d : BitVec 6) (a : BitVec 6) (b : BitVec 6) (g : BitVec 3) (st : State) : exec (.minu d a b g) st = execMinu d a b g st := rfl
@[simp] theorem exec_maxu (d : BitVec 6) (a : BitVec 6) (b : BitVec 6) (g : BitVec 3) (st : State) : exec (.maxu d a b g) st = execMaxu d a b g st := rfl
@[simp] theorem exec_addi (d : BitVec 6) (a : BitVec 6) (i : BitVec 9) (g : BitVec 3) (st : State) : exec (.addi d a i g) st = execAddi d a i g st := rfl
@[simp] theorem exec_andi (d : BitVec 6) (a : BitVec 6) (i : BitVec 9) (g : BitVec 3) (st : State) : exec (.andi d a i g) st = execAndi d a i g st := rfl
@[simp] theorem exec_ori (d : BitVec 6) (a : BitVec 6) (i : BitVec 9) (g : BitVec 3) (st : State) : exec (.ori d a i g) st = execOri d a i g st := rfl
@[simp] theorem exec_xori (d : BitVec 6) (a : BitVec 6) (i : BitVec 9) (g : BitVec 3) (st : State) : exec (.xori d a i g) st = execXori d a i g st := rfl
@[simp] theorem exec_slli (d : BitVec 6) (a : BitVec 6) (s : BitVec 6) (g : BitVec 3) (st : State) : exec (.slli d a s g) st = execSlli d a s g st := rfl
@[simp] theorem exec_srli (d : BitVec 6) (a : BitVec 6) (s : BitVec 6) (g : BitVec 3) (st : State) : exec (.srli d a s g) st = execSrli d a s g st := rfl
@[simp] theorem exec_srai (d : BitVec 6) (a : BitVec 6) (s : BitVec 6) (g : BitVec 3) (st : State) : exec (.srai d a s g) st = execSrai d a s g st := rfl
@[simp] theorem exec_lui (d : BitVec 6) (i : BitVec 15) (g : BitVec 3) (st : State) : exec (.lui d i g) st = execLui d i g st := rfl
@[simp] theorem exec_cmp (p : BitVec 3) (a : BitVec 6) (b : BitVec 6) (c : BitVec 3) (g : BitVec 3) (st : State) : exec (.cmp p a b c g) st = execCmp p a b c g st := rfl
@[simp] theorem exec_cmpi (p : BitVec 3) (c : BitVec 3) (a : BitVec 6) (i : BitVec 9) (g : BitVec 3) (st : State) : exec (.cmpi p c a i g) st = execCmpi p c a i g st := rfl
@[simp] theorem exec_pand (d : BitVec 3) (a : BitVec 3) (b : BitVec 3) (g : BitVec 3) (st : State) : exec (.pand d a b g) st = execPand d a b g st := rfl
@[simp] theorem exec_por (d : BitVec 3) (a : BitVec 3) (b : BitVec 3) (g : BitVec 3) (st : State) : exec (.por d a b g) st = execPor d a b g st := rfl
@[simp] theorem exec_pxor (d : BitVec 3) (a : BitVec 3) (b : BitVec 3) (g : BitVec 3) (st : State) : exec (.pxor d a b g) st = execPxor d a b g st := rfl
@[simp] theorem exec_pandn (d : BitVec 3) (a : BitVec 3) (b : BitVec 3) (g : BitVec 3) (st : State) : exec (.pandn d a b g) st = execPandn d a b g st := rfl
@[simp] theorem exec_pnot (d : BitVec 3) (a : BitVec 3) (b : BitVec 3) (g : BitVec 3) (st : State) : exec (.pnot d a b g) st = execPnot d a b g st := rfl
@[simp] theorem exec_ld (d : BitVec 6) (b : BitVec 6) (w : BitVec 3) (i : BitVec 6) (g : BitVec 3) (st : State) : exec (.ld d b w i g) st = execLd d b w i g st := rfl
@[simp] theorem exec_ldSp (d : BitVec 6) (b : BitVec 6) (w : BitVec 3) (i : BitVec 6) (g : BitVec 3) (st : State) : exec (.ldSp d b w i g) st = execLdSp d b w i g st := rfl
@[simp] theorem exec_st (d : BitVec 6) (b : BitVec 6) (w : BitVec 3) (i : BitVec 6) (g : BitVec 3) (st : State) : exec (.st d b w i g) st = execSt d b w i g st := rfl
@[simp] theorem exec_stSp (d : BitVec 6) (b : BitVec 6) (w : BitVec 3) (i : BitVec 6) (g : BitVec 3) (st : State) : exec (.stSp d b w i g) st = execStSp d b w i g st := rfl
@[simp] theorem exec_atom (d : BitVec 6) (b : BitVec 6) (o : BitVec 3) (z : BitVec 2) (c : BitVec 2) (g : BitVec 3) (st : State) : exec (.atom d b o z c g) st = execAtom d b o z c g st := rfl
@[simp] theorem exec_cas (d : BitVec 6) (b : BitVec 6) (z : BitVec 2) (c : BitVec 2) (g : BitVec 3) (st : State) : exec (.cas d b z c g) st = execCas d b z c g st := rfl
@[simp] theorem exec_atomSp (d : BitVec 6) (b : BitVec 6) (o : BitVec 3) (z : BitVec 2) (c : BitVec 2) (g : BitVec 3) (st : State) : exec (.atomSp d b o z c g) st = execAtomSp d b o z c g st := rfl
@[simp] theorem exec_casSp (d : BitVec 6) (b : BitVec 6) (z : BitVec 2) (c : BitVec 2) (g : BitVec 3) (st : State) : exec (.casSp d b z c g) st = execCasSp d b z c g st := rfl
@[simp] theorem exec_fence (s : BitVec 3) (g : BitVec 3) (st : State) : exec (.fence s g) st = execFence s g st := rfl
@[simp] theorem exec_flsig (d : BitVec 6) (a : BitVec 6) (g : BitVec 3) (st : State) : exec (.flsig d a g) st = execFlsig d a g st := rfl
@[simp] theorem exec_tkwait (d : BitVec 6) (a : BitVec 6) (g : BitVec 3) (st : State) : exec (.tkwait d a g) st = execTkwait d a g st := rfl
@[simp] theorem exec_pbr (b : BitVec 3) (o : BitVec 18) (g : BitVec 3) (st : State) : exec (.pbr b o g) st = execPbr b o g st := rfl
@[simp] theorem exec_br (b : BitVec 3) (p : BitVec 3) (g : BitVec 3) (st : State) : exec (.br b p g) st = execBr b p g st := rfl
@[simp] theorem exec_brL (b : BitVec 3) (p : BitVec 3) (g : BitVec 3) (st : State) : exec (.brL b p g) st = execBrL b p g st := rfl
@[simp] theorem exec_pbrR (b : BitVec 3) (a : BitVec 6) (g : BitVec 3) (st : State) : exec (.pbrR b a g) st = execPbrR b a g st := rfl
@[simp] theorem exec_evterm (t : BitVec 4) (s : BitVec 2) (l : BitVec 1) (e : BitVec 5) (h : BitVec 9) (g : BitVec 3) (st : State) : exec (.evterm t s l e h g) st = execEvterm t s l e h g st := rfl
@[simp] theorem exec_evinc (x : BitVec 5) (i : BitVec 16) (g : BitVec 3) (st : State) : exec (.evinc x i g) st = execEvinc x i g st := rfl
@[simp] theorem exec_evwait (x : BitVec 5) (g : BitVec 3) (st : State) : exec (.evwait x g) st = execEvwait x g st := rfl
@[simp] theorem exec_barArrive (d : BitVec 6) (a : BitVec 6) (b : BitVec 6) (g : BitVec 3) (st : State) : exec (.barArrive d a b g) st = execBarArrive d a b g st := rfl
@[simp] theorem exec_barWait (d : BitVec 6) (a : BitVec 6) (b : BitVec 6) (g : BitVec 3) (st : State) : exec (.barWait d a b g) st = execBarWait d a b g st := rfl
@[simp] theorem exec_barWait4 (d : BitVec 6) (a : BitVec 6) (b : BitVec 6) (g : BitVec 3) (st : State) : exec (.barWait4 d a b g) st = execBarWait4 d a b g st := rfl
@[simp] theorem exec_flagAdd (d : BitVec 6) (a : BitVec 6) (b : BitVec 6) (g : BitVec 3) (st : State) : exec (.flagAdd d a b g) st = execFlagAdd d a b g st := rfl
@[simp] theorem exec_flagWait (d : BitVec 6) (a : BitVec 6) (b : BitVec 6) (g : BitVec 3) (st : State) : exec (.flagWait d a b g) st = execFlagWait d a b g st := rfl
@[simp] theorem exec_chunk (d : BitVec 6) (a : BitVec 6) (b : BitVec 6) (g : BitVec 3) (st : State) : exec (.chunk d a b g) st = execChunk d a b g st := rfl
@[simp] theorem exec_tlaunch (d : BitVec 6) (a : BitVec 6) (b : BitVec 6) (g : BitVec 3) (st : State) : exec (.tlaunch d a b g) st = execTlaunch d a b g st := rfl
@[simp] theorem exec_tdone (a : BitVec 6) (g : BitVec 3) (st : State) : exec (.tdone a g) st = execTdone a g st := rfl
@[simp] theorem exec_tsignal (g : BitVec 3) (st : State) : exec (.tsignal g) st = execTsignal g st := rfl
@[simp] theorem exec_vaddF32 (d : BitVec 5) (a : BitVec 5) (b : BitVec 5) (q : BitVec 3) (g : BitVec 3) (st : State) : exec (.vaddF32 d a b q g) st = execVaddF32 d a b q g st := rfl
@[simp] theorem exec_vsubF32 (d : BitVec 5) (a : BitVec 5) (b : BitVec 5) (q : BitVec 3) (g : BitVec 3) (st : State) : exec (.vsubF32 d a b q g) st = execVsubF32 d a b q g st := rfl
@[simp] theorem exec_vmulF32 (d : BitVec 5) (a : BitVec 5) (b : BitVec 5) (q : BitVec 3) (g : BitVec 3) (st : State) : exec (.vmulF32 d a b q g) st = execVmulF32 d a b q g st := rfl
@[simp] theorem exec_vminF32 (d : BitVec 5) (a : BitVec 5) (b : BitVec 5) (q : BitVec 3) (g : BitVec 3) (st : State) : exec (.vminF32 d a b q g) st = execVminF32 d a b q g st := rfl
@[simp] theorem exec_vmaxF32 (d : BitVec 5) (a : BitVec 5) (b : BitVec 5) (q : BitVec 3) (g : BitVec 3) (st : State) : exec (.vmaxF32 d a b q g) st = execVmaxF32 d a b q g st := rfl
@[simp] theorem exec_vabsF32 (d : BitVec 5) (a : BitVec 5) (q : BitVec 3) (g : BitVec 3) (st : State) : exec (.vabsF32 d a q g) st = execVabsF32 d a q g st := rfl
@[simp] theorem exec_vnegF32 (d : BitVec 5) (a : BitVec 5) (q : BitVec 3) (g : BitVec 3) (st : State) : exec (.vnegF32 d a q g) st = execVnegF32 d a q g st := rfl
@[simp] theorem exec_vaddI32 (d : BitVec 5) (a : BitVec 5) (b : BitVec 5) (q : BitVec 3) (g : BitVec 3) (st : State) : exec (.vaddI32 d a b q g) st = execVaddI32 d a b q g st := rfl
@[simp] theorem exec_vsubI32 (d : BitVec 5) (a : BitVec 5) (b : BitVec 5) (q : BitVec 3) (g : BitVec 3) (st : State) : exec (.vsubI32 d a b q g) st = execVsubI32 d a b q g st := rfl
@[simp] theorem exec_vmulI32 (d : BitVec 5) (a : BitVec 5) (b : BitVec 5) (q : BitVec 3) (g : BitVec 3) (st : State) : exec (.vmulI32 d a b q g) st = execVmulI32 d a b q g st := rfl
@[simp] theorem exec_vmulhI32 (d : BitVec 5) (a : BitVec 5) (b : BitVec 5) (q : BitVec 3) (g : BitVec 3) (st : State) : exec (.vmulhI32 d a b q g) st = execVmulhI32 d a b q g st := rfl
@[simp] theorem exec_vminI32 (d : BitVec 5) (a : BitVec 5) (b : BitVec 5) (q : BitVec 3) (g : BitVec 3) (st : State) : exec (.vminI32 d a b q g) st = execVminI32 d a b q g st := rfl
@[simp] theorem exec_vmaxI32 (d : BitVec 5) (a : BitVec 5) (b : BitVec 5) (q : BitVec 3) (g : BitVec 3) (st : State) : exec (.vmaxI32 d a b q g) st = execVmaxI32 d a b q g st := rfl
@[simp] theorem exec_vminuI32 (d : BitVec 5) (a : BitVec 5) (b : BitVec 5) (q : BitVec 3) (g : BitVec 3) (st : State) : exec (.vminuI32 d a b q g) st = execVminuI32 d a b q g st := rfl
@[simp] theorem exec_vmaxuI32 (d : BitVec 5) (a : BitVec 5) (b : BitVec 5) (q : BitVec 3) (g : BitVec 3) (st : State) : exec (.vmaxuI32 d a b q g) st = execVmaxuI32 d a b q g st := rfl
@[simp] theorem exec_vand (d : BitVec 5) (a : BitVec 5) (b : BitVec 5) (q : BitVec 3) (g : BitVec 3) (st : State) : exec (.vand d a b q g) st = execVand d a b q g st := rfl
@[simp] theorem exec_vor (d : BitVec 5) (a : BitVec 5) (b : BitVec 5) (q : BitVec 3) (g : BitVec 3) (st : State) : exec (.vor d a b q g) st = execVor d a b q g st := rfl
@[simp] theorem exec_vxor (d : BitVec 5) (a : BitVec 5) (b : BitVec 5) (q : BitVec 3) (g : BitVec 3) (st : State) : exec (.vxor d a b q g) st = execVxor d a b q g st := rfl
@[simp] theorem exec_vandn (d : BitVec 5) (a : BitVec 5) (b : BitVec 5) (q : BitVec 3) (g : BitVec 3) (st : State) : exec (.vandn d a b q g) st = execVandn d a b q g st := rfl
@[simp] theorem exec_vsll (d : BitVec 5) (a : BitVec 5) (b : BitVec 5) (q : BitVec 3) (g : BitVec 3) (st : State) : exec (.vsll d a b q g) st = execVsll d a b q g st := rfl
@[simp] theorem exec_vsrl (d : BitVec 5) (a : BitVec 5) (b : BitVec 5) (q : BitVec 3) (g : BitVec 3) (st : State) : exec (.vsrl d a b q g) st = execVsrl d a b q g st := rfl
@[simp] theorem exec_vsra (d : BitVec 5) (a : BitVec 5) (b : BitVec 5) (q : BitVec 3) (g : BitVec 3) (st : State) : exec (.vsra d a b q g) st = execVsra d a b q g st := rfl
@[simp] theorem exec_vfmaF32 (d : BitVec 5) (a : BitVec 5) (b : BitVec 5) (c : BitVec 5) (g : BitVec 3) (st : State) : exec (.vfmaF32 d a b c g) st = execVfmaF32 d a b c g st := rfl
@[simp] theorem exec_vfmsF32 (d : BitVec 5) (a : BitVec 5) (b : BitVec 5) (c : BitVec 5) (g : BitVec 3) (st : State) : exec (.vfmsF32 d a b c g) st = execVfmsF32 d a b c g st := rfl
@[simp] theorem exec_vfnmaF32 (d : BitVec 5) (a : BitVec 5) (b : BitVec 5) (c : BitVec 5) (g : BitVec 3) (st : State) : exec (.vfnmaF32 d a b c g) st = execVfnmaF32 d a b c g st := rfl
@[simp] theorem exec_vfnmsF32 (d : BitVec 5) (a : BitVec 5) (b : BitVec 5) (c : BitVec 5) (g : BitVec 3) (st : State) : exec (.vfnmsF32 d a b c g) st = execVfnmsF32 d a b c g st := rfl
@[simp] theorem exec_vrcp (d : BitVec 5) (a : BitVec 5) (q : BitVec 3) (g : BitVec 3) (st : State) : exec (.vrcp d a q g) st = execVrcp d a q g st := rfl
@[simp] theorem exec_vrsqrt (d : BitVec 5) (a : BitVec 5) (q : BitVec 3) (g : BitVec 3) (st : State) : exec (.vrsqrt d a q g) st = execVrsqrt d a q g st := rfl
@[simp] theorem exec_vexp2 (d : BitVec 5) (a : BitVec 5) (q : BitVec 3) (g : BitVec 3) (st : State) : exec (.vexp2 d a q g) st = execVexp2 d a q g st := rfl
@[simp] theorem exec_vlog2 (d : BitVec 5) (a : BitVec 5) (q : BitVec 3) (g : BitVec 3) (st : State) : exec (.vlog2 d a q g) st = execVlog2 d a q g st := rfl
@[simp] theorem exec_vcmpF32 (d : BitVec 4) (a : BitVec 5) (b : BitVec 5) (c : BitVec 3) (q : BitVec 3) (g : BitVec 3) (st : State) : exec (.vcmpF32 d a b c q g) st = execVcmpF32 d a b c q g st := rfl
@[simp] theorem exec_vcmpI32 (d : BitVec 4) (a : BitVec 5) (b : BitVec 5) (c : BitVec 3) (q : BitVec 3) (g : BitVec 3) (st : State) : exec (.vcmpI32 d a b c q g) st = execVcmpI32 d a b c q g st := rfl
@[simp] theorem exec_vlut3 (d : BitVec 5) (a : BitVec 5) (b : BitVec 5) (c : BitVec 5) (g : BitVec 3) (st : State) : exec (.vlut3 d a b c g) st = execVlut3 d a b c g st := rfl
@[simp] theorem exec_vfsl (d : BitVec 5) (a : BitVec 5) (b : BitVec 5) (i : BitVec 6) (g : BitVec 3) (st : State) : exec (.vfsl d a b i g) st = execVfsl d a b i g st := rfl
@[simp] theorem exec_vfsr (d : BitVec 5) (a : BitVec 5) (b : BitVec 5) (i : BitVec 6) (g : BitVec 3) (st : State) : exec (.vfsr d a b i g) st = execVfsr d a b i g st := rfl
@[simp] theorem exec_vrotl (d : BitVec 5) (a : BitVec 5) (i : BitVec 6) (g : BitVec 3) (st : State) : exec (.vrotl d a i g) st = execVrotl d a i g st := rfl
@[simp] theorem exec_vpopc (d : BitVec 5) (a : BitVec 5) (q : BitVec 3) (g : BitVec 3) (st : State) : exec (.vpopc d a q g) st = execVpopc d a q g st := rfl
@[simp] theorem exec_vclz (d : BitVec 5) (a : BitVec 5) (q : BitVec 3) (g : BitVec 3) (st : State) : exec (.vclz d a q g) st = execVclz d a q g st := rfl
@[simp] theorem exec_vbrev (d : BitVec 5) (a : BitVec 5) (q : BitVec 3) (g : BitVec 3) (st : State) : exec (.vbrev d a q g) st = execVbrev d a q g st := rfl
@[simp] theorem exec_vpart (d : BitVec 5) (a : BitVec 5) (q : BitVec 3) (g : BitVec 3) (st : State) : exec (.vpart d a q g) st = execVpart d a q g st := rfl
@[simp] theorem exec_vgath (v : BitVec 5) (i : BitVec 5) (b : BitVec 6) (s : BitVec 1) (q : BitVec 3) (g : BitVec 3) (st : State) : exec (.vgath v i b s q g) st = execVgath v i b s q g st := rfl
@[simp] theorem exec_vscat (v : BitVec 5) (i : BitVec 5) (b : BitVec 6) (s : BitVec 1) (q : BitVec 3) (g : BitVec 3) (st : State) : exec (.vscat v i b s q g) st = execVscat v i b s q g st := rfl
@[simp] theorem exec_vld32 (v : BitVec 5) (b : BitVec 6) (s : BitVec 1) (q : BitVec 3) (g : BitVec 3) (st : State) : exec (.vld32 v b s q g) st = execVld32 v b s q g st := rfl
@[simp] theorem exec_vldB (v : BitVec 5) (b : BitVec 6) (s : BitVec 1) (q : BitVec 3) (g : BitVec 3) (st : State) : exec (.vldB v b s q g) st = execVldB v b s q g st := rfl
@[simp] theorem exec_vst32 (v : BitVec 5) (b : BitVec 6) (s : BitVec 1) (q : BitVec 3) (g : BitVec 3) (st : State) : exec (.vst32 v b s q g) st = execVst32 v b s q g st := rfl
@[simp] theorem exec_vslideup (d : BitVec 5) (a : BitVec 5) (b : BitVec 5) (i : BitVec 6) (g : BitVec 3) (st : State) : exec (.vslideup d a b i g) st = execVslideup d a b i g st := rfl
@[simp] theorem exec_vslidedn (d : BitVec 5) (a : BitVec 5) (b : BitVec 5) (i : BitVec 6) (g : BitVec 3) (st : State) : exec (.vslidedn d a b i g) st = execVslidedn d a b i g st := rfl
@[simp] theorem exec_vperm (d : BitVec 5) (a : BitVec 5) (b : BitVec 5) (q : BitVec 3) (g : BitVec 3) (st : State) : exec (.vperm d a b q g) st = execVperm d a b q g st := rfl
@[simp] theorem exec_vred (d : BitVec 5) (a : BitVec 5) (m : BitVec 3) (q : BitVec 3) (g : BitVec 3) (st : State) : exec (.vred d a m q g) st = execVred d a m q g st := rfl
@[simp] theorem exec_vscan (d : BitVec 5) (a : BitVec 5) (m : BitVec 3) (q : BitVec 3) (g : BitVec 3) (st : State) : exec (.vscan d a m q g) st = execVscan d a m q g st := rfl
@[simp] theorem exec_vcvtTo (d : BitVec 5) (a : BitVec 5) (f : BitVec 6) (q : BitVec 3) (g : BitVec 3) (st : State) : exec (.vcvtTo d a f q g) st = execVcvtTo d a f q g st := rfl
@[simp] theorem exec_vcvtFrom (d : BitVec 5) (a : BitVec 5) (f : BitVec 6) (q : BitVec 3) (g : BitVec 3) (st : State) : exec (.vcvtFrom d a f q g) st = execVcvtFrom d a f q g st := rfl
@[simp] theorem exec_vmxq (d : BitVec 5) (a : BitVec 5) (s : BitVec 5) (f : BitVec 6) (g : BitVec 3) (st : State) : exec (.vmxq d a s f g) st = execVmxq d a s f g st := rfl
@[simp] theorem exec_vsrc (d : BitVec 5) (a : BitVec 5) (f : BitVec 6) (q : BitVec 3) (g : BitVec 3) (st : State) : exec (.vsrc d a f q g) st = execVsrc d a f q g st := rfl
@[simp] theorem exec_qand (d : BitVec 4) (a : BitVec 4) (b : BitVec 4) (g : BitVec 3) (st : State) : exec (.qand d a b g) st = execQand d a b g st := rfl
@[simp] theorem exec_qor (d : BitVec 4) (a : BitVec 4) (b : BitVec 4) (g : BitVec 3) (st : State) : exec (.qor d a b g) st = execQor d a b g st := rfl
@[simp] theorem exec_qxor (d : BitVec 4) (a : BitVec 4) (b : BitVec 4) (g : BitVec 3) (st : State) : exec (.qxor d a b g) st = execQxor d a b g st := rfl
@[simp] theorem exec_qandn (d : BitVec 4) (a : BitVec 4) (b : BitVec 4) (g : BitVec 3) (st : State) : exec (.qandn d a b g) st = execQandn d a b g st := rfl
@[simp] theorem exec_qnot (d : BitVec 4) (a : BitVec 4) (b : BitVec 4) (g : BitVec 3) (st : State) : exec (.qnot d a b g) st = execQnot d a b g st := rfl
@[simp] theorem exec_qmov (d : BitVec 4) (a : BitVec 4) (b : BitVec 4) (g : BitVec 3) (st : State) : exec (.qmov d a b g) st = execQmov d a b g st := rfl
@[simp] theorem exec_vsetvlImm (i : BitVec 7) (g : BitVec 3) (st : State) : exec (.vsetvlImm i g) st = execVsetvlImm i g st := rfl
@[simp] theorem exec_vsetvlReg (a : BitVec 6) (g : BitVec 3) (st : State) : exec (.vsetvlReg a g) st = execVsetvlReg a g st := rfl
@[simp] theorem exec_vmv (d : BitVec 5) (a : BitVec 5) (s : BitVec 6) (g : BitVec 3) (st : State) : exec (.vmv d a s g) st = execVmv d a s g st := rfl
@[simp] theorem exec_vbcast (d : BitVec 5) (s : BitVec 6) (g : BitVec 3) (st : State) : exec (.vbcast d s g) st = execVbcast d s g st := rfl
@[simp] theorem exec_vsel (d : BitVec 5) (a : BitVec 5) (b : BitVec 5) (q : BitVec 3) (g : BitVec 3) (st : State) : exec (.vsel d a b q g) st = execVsel d a b q g st := rfl
@[simp] theorem exec_mnest (l : BitVec 3) (f : BitVec 3) (a : BitVec 6) (g : BitVec 3) (st : State) : exec (.mnest l f a g) st = execMnest l f a g st := rfl
@[simp] theorem exec_mopa (b : BitVec 6) (s : BitVec 6) (p : BitVec 1) (t : BitVec 1) (g : BitVec 3) (st : State) : exec (.mopa b s p t g) st = execMopa b s p t g st := rfl
@[simp] theorem exec_mopb (b : BitVec 6) (s : BitVec 6) (p : BitVec 1) (t : BitVec 1) (g : BitVec 3) (st : State) : exec (.mopb b s p t g) st = execMopb b s p t g st := rfl
@[simp] theorem exec_mopm (b : BitVec 6) (s : BitVec 6) (p : BitVec 1) (t : BitVec 1) (g : BitVec 3) (st : State) : exec (.mopm b s p t g) st = execMopm b s p t g st := rfl
@[simp] theorem exec_mma (k : BitVec 4) (f : BitVec 6) (g : BitVec 3) (st : State) : exec (.mma k f g) st = execMma k f g st := rfl
@[simp] theorem exec_mmas (k : BitVec 4) (f : BitVec 6) (g : BitVec 3) (st : State) : exec (.mmas k f g) st = execMmas k f g st := rfl
@[simp] theorem exec_mgo (k : BitVec 4) (f : BitVec 6) (g : BitVec 3) (st : State) : exec (.mgo k f g) st = execMgo k f g st := rfl
@[simp] theorem exec_mfmt (d : BitVec 6) (a : BitVec 6) (b : BitVec 6) (g : BitVec 3) (st : State) : exec (.mfmt d a b g) st = execMfmt d a b g st := rfl
@[simp] theorem exec_mfmtPool (a : BitVec 6) (b : BitVec 6) (g : BitVec 3) (st : State) : exec (.mfmtPool a b g) st = execMfmtPool a b g st := rfl
@[simp] theorem exec_mfmtcommit (g : BitVec 3) (st : State) : exec (.mfmtcommit g) st = execMfmtcommit g st := rfl
@[simp] theorem exec_chbuild (c : BitVec 8) (a : BitVec 6) (f : BitVec 1) (g : BitVec 3) (st : State) : exec (.chbuild c a f g) st = execChbuild c a f g st := rfl
@[simp] theorem exec_chclose (c : BitVec 8) (a : BitVec 6) (b : BitVec 6) (f : BitVec 1) (g : BitVec 3) (st : State) : exec (.chclose c a b f g) st = execChclose c a b f g st := rfl
@[simp] theorem exec_chstat (c : BitVec 8) (a : BitVec 6) (g : BitVec 3) (st : State) : exec (.chstat c a g) st = execChstat c a g st := rfl
@[simp] theorem exec_chsplice (c : BitVec 8) (a : BitVec 6) (b : BitVec 6) (g : BitVec 3) (st : State) : exec (.chsplice c a b g) st = execChsplice c a b g st := rfl
@[simp] theorem exec_chhalt (c : BitVec 8) (g : BitVec 3) (st : State) : exec (.chhalt c g) st = execChhalt c g st := rfl
@[simp] theorem exec_chthaw (c : BitVec 8) (g : BitVec 3) (st : State) : exec (.chthaw c g) st = execChthaw c g st := rfl
@[simp] theorem exec_chrel (c : BitVec 8) (g : BitVec 3) (st : State) : exec (.chrel c g) st = execChrel c g st := rfl
@[simp] theorem exec_chread (c : BitVec 8) (a : BitVec 6) (b : BitVec 6) (f : BitVec 1) (g : BitVec 3) (st : State) : exec (.chread c a b f g) st = execChread c a b f g st := rfl
@[simp] theorem exec_cp (d : BitVec 6) (s : BitVec 6) (p : BitVec 1) (q : BitVec 1) (n : BitVec 7) (g : BitVec 3) (st : State) : exec (.cp d s p q n g) st = execCp d s p q n g st := rfl
@[simp] theorem exec_cpR (d : BitVec 6) (s : BitVec 6) (p : BitVec 1) (q : BitVec 1) (l : BitVec 6) (g : BitVec 3) (st : State) : exec (.cpR d s p q l g) st = execCpR d s p q l g st := rfl
@[simp] theorem exec_cpD2d (d : BitVec 6) (s : BitVec 1) (g : BitVec 3) (st : State) : exec (.cpD2d d s g) st = execCpD2d d s g st := rfl
@[simp] theorem exec_cpD3d (d : BitVec 6) (s : BitVec 1) (g : BitVec 3) (st : State) : exec (.cpD3d d s g) st = execCpD3d d s g st := rfl
@[simp] theorem exec_cpDCvt (d : BitVec 6) (s : BitVec 1) (g : BitVec 3) (st : State) : exec (.cpDCvt d s g) st = execCpDCvt d s g st := rfl
@[simp] theorem exec_cpDGath (d : BitVec 6) (s : BitVec 1) (g : BitVec 3) (st : State) : exec (.cpDGath d s g) st = execCpDGath d s g st := rfl
@[simp] theorem exec_cpDScat (d : BitVec 6) (s : BitVec 1) (g : BitVec 3) (st : State) : exec (.cpDScat d s g) st = execCpDScat d s g st := rfl
@[simp] theorem exec_cpDFill (d : BitVec 6) (s : BitVec 1) (g : BitVec 3) (st : State) : exec (.cpDFill d s g) st = execCpDFill d s g st := rfl
@[simp] theorem exec_cpDRemote (d : BitVec 6) (s : BitVec 1) (g : BitVec 3) (st : State) : exec (.cpDRemote d s g) st = execCpDRemote d s g st := rfl
@[simp] theorem exec_stmap (d : BitVec 6) (a : BitVec 6) (b : BitVec 6) (g : BitVec 3) (st : State) : exec (.stmap d a b g) st = execStmap d a b g st := rfl
@[simp] theorem exec_stunmap (d : BitVec 6) (g : BitVec 3) (st : State) : exec (.stunmap d g) st = execStunmap d g st := rfl
@[simp] theorem exec_stflush (d : BitVec 6) (a : BitVec 6) (g : BitVec 3) (st : State) : exec (.stflush d a g) st = execStflush d a g st := rfl
@[simp] theorem exec_stinv (d : BitVec 6) (a : BitVec 6) (g : BitVec 3) (st : State) : exec (.stinv d a g) st = execStinv d a g st := rfl
@[simp] theorem exec_barArriveD (a : BitVec 6) (b : BitVec 6) (g : BitVec 3) (st : State) : exec (.barArriveD a b g) st = execBarArriveD a b g st := rfl
@[simp] theorem exec_hlaunch (a : BitVec 6) (b : BitVec 6) (g : BitVec 3) (st : State) : exec (.hlaunch a b g) st = execHlaunch a b g st := rfl
@[simp] theorem exec_hstop (g : BitVec 3) (st : State) : exec (.hstop g) st = execHstop g st := rfl
@[simp] theorem exec_hstat (d : BitVec 6) (g : BitVec 3) (st : State) : exec (.hstat d g) st = execHstat d g st := rfl
@[simp] theorem exec_hcp (kind : BitVec 3) (doff : BitVec 32) (st : State) : exec (.hcp kind doff) st = execHcp kind doff st := rfl
@[simp] theorem exec_hwait (land : BitVec 1) (t : BitVec 4) (st : State) : exec (.hwait land t) st = execHwait land t st := rfl
@[simp] theorem exec_hloop (back : BitVec 12) (cnt sadv dadv : BitVec 16) (st : State) : exec (.hloop back cnt sadv dadv) st = execHloop back cnt sadv dadv st := rfl
@[simp] theorem exec_hflag (land raiseEn : BitVec 1) (e : BitVec 5) (value : BitVec 32) (st : State) : exec (.hflag land raiseEn e value) st = execHflag land raiseEn e value st := rfl
@[simp] theorem exec_hjmp (off : BitVec 20) (st : State) : exec (.hjmp off) st = execHjmp off st := rfl
@[simp] theorem exec_hend (value : BitVec 32) (st : State) : exec (.hend value) st = execHend value st := rfl
@[simp] theorem exec_hballoc (d : BitVec 6) (a : BitVec 6) (b : BitVec 6) (g : BitVec 3) (st : State) : exec (.hballoc d a b g) st = execHballoc d a b g st := rfl
@[simp] theorem exec_hbgate (a : BitVec 6) (b : BitVec 6) (g : BitVec 3) (st : State) : exec (.hbgate a b g) st = execHbgate a b g st := rfl
@[simp] theorem exec_hbpoll (d : BitVec 6) (a : BitVec 6) (g : BitVec 3) (st : State) : exec (.hbpoll d a g) st = execHbpoll d a g st := rfl
@[simp] theorem exec_hbrel (a : BitVec 6) (g : BitVec 3) (st : State) : exec (.hbrel a g) st = execHbrel a g st := rfl
@[simp] theorem exec_hbstat (d : BitVec 6) (a : BitVec 6) (g : BitVec 3) (st : State) : exec (.hbstat d a g) st = execHbstat d a g st := rfl
@[simp] theorem exec_hbcfg (d : BitVec 6) (a : BitVec 6) (g : BitVec 3) (st : State) : exec (.hbcfg d a g) st = execHbcfg d a g st := rfl
@[simp] theorem exec_hbput (d : BitVec 6) (a : BitVec 6) (b : BitVec 6) (g : BitVec 3) (st : State) : exec (.hbput d a b g) st = execHbput d a b g st := rfl
@[simp] theorem exec_prgrad (d : BitVec 6) (a : BitVec 6) (b : BitVec 6) (g : BitVec 3) (st : State) : exec (.prgrad d a b g) st = execPrgrad d a b g st := rfl
@[simp] theorem exec_gdep (d : BitVec 6) (a : BitVec 6) (b : BitVec 6) (g : BitVec 3) (st : State) : exec (.gdep d a b g) st = execGdep d a b g st := rfl
@[simp] theorem exec_prread (d : BitVec 6) (a : BitVec 6) (b : BitVec 6) (g : BitVec 3) (st : State) : exec (.prread d a b g) st = execPrread d a b g st := rfl
@[simp] theorem exec_gread (d : BitVec 6) (a : BitVec 6) (b : BitVec 6) (g : BitVec 3) (st : State) : exec (.gread d a b g) st = execGread d a b g st := rfl
@[simp] theorem exec_prsync (d : BitVec 6) (a : BitVec 6) (b : BitVec 6) (g : BitVec 3) (st : State) : exec (.prsync d a b g) st = execPrsync d a b g st := rfl
@[simp] theorem exec_prrule (d : BitVec 6) (a : BitVec 6) (b : BitVec 6) (g : BitVec 3) (st : State) : exec (.prrule d a b g) st = execPrrule d a b g st := rfl
@[simp] theorem exec_gspread (p : BitVec 3) (a : BitVec 6) (b : BitVec 6) (g : BitVec 3) (st : State) : exec (.gspread p a b g) st = execGspread p a b g st := rfl
@[simp] theorem exec_gmass (d : BitVec 6) (a : BitVec 6) (g : BitVec 3) (st : State) : exec (.gmass d a g) st = execGmass d a g st := rfl
@[simp] theorem exec_gcfg (d : BitVec 6) (a : BitVec 6) (g : BitVec 3) (st : State) : exec (.gcfg d a g) st = execGcfg d a g st := rfl
@[simp] theorem exec_csrr (d : BitVec 6) (c : BitVec 12) (g : BitVec 3) (st : State) : exec (.csrr d c g) st = execCsrr d c g st := rfl
@[simp] theorem exec_csrw (d : BitVec 6) (c : BitVec 12) (g : BitVec 3) (st : State) : exec (.csrw d c g) st = execCsrw d c g st := rfl
@[simp] theorem exec_trap (a : BitVec 6) (g : BitVec 3) (st : State) : exec (.trap a g) st = execTrap a g st := rfl
@[simp] theorem exec_eret (g : BitVec 3) (st : State) : exec (.eret g) st = execEret g st := rfl
@[simp] theorem exec_halt (g : BitVec 3) (st : State) : exec (.halt g) st = execHalt g st := rfl
@[simp] theorem exec_blockStart (die core : Nat) (e : Eng) (st : State) : exec (.blockStart die core e) st = execBlockStart die core e st := rfl
@[simp] theorem exec_blockRaise (die core : Nat) (e : Eng) (st : State) : exec (.blockRaise die core e) st = execBlockRaise die core e st := rfl
@[simp] theorem exec_traceFreeze (die core : Nat) (st : State) : exec (.traceFreeze die core) st = execTraceFreeze die core st := rfl
@[simp] theorem exec_haltComplete (die part : Nat) (st : State) : exec (.haltComplete die part) st = execHaltComplete die part st := rfl
@[simp] theorem exec_handlerStart (die part : Nat) (st : State) : exec (.handlerStart die part) st = execHandlerStart die part st := rfl
@[simp] theorem exec_containment (die part : Nat) (st : State) : exec (.containment die part) st = execContainment die part st := rfl
@[simp] theorem exec_uncorrectableError (die core : Nat) (e : Eng) (kind : BitVec 16) (st : State) : exec (.uncorrectableError die core e kind) st = execUncorrectableError die core e kind st := rfl
@[simp] theorem exec_memoryTimeout (die core : Nat) (e : Eng) (st : State) : exec (.memoryTimeout die core e) st = execMemoryTimeout die core e st := rfl
@[simp] theorem exec_switchOut (die part : Nat) (full : Bool) (st : State) : exec (.switchOut die part full) st = execSwitchOut die part full st := rfl
@[simp] theorem exec_switchIn (ctx : Nat) (st : State) : exec (.switchIn ctx) st = execSwitchIn ctx st := rfl
@[simp] theorem exec_matrixGroup (die core : Nat) (st : State) : exec (.matrixGroup die core) st = execMatrixGroup die core st := rfl
@[simp] theorem exec_hopArrival (n : Nat) (st : State) : exec (.hopArrival n) st = execHopArrival n st := rfl
@[simp] theorem exec_closeStart (ctx chain : Nat) (st : State) : exec (.closeStart ctx chain) st = execCloseStart ctx chain st := rfl
@[simp] theorem exec_closeLand (ctx chain : Nat) (st : State) : exec (.closeLand ctx chain) st = execCloseLand ctx chain st := rfl
@[simp] theorem exec_copyBeatGroup (die core : Nat) (st : State) : exec (.copyBeatGroup die core) st = execCopyBeatGroup die core st := rfl
@[simp] theorem exec_stashFill (die core off : Nat) (st : State) : exec (.stashFill die core off) st = execStashFill die core off st := rfl
@[simp] theorem exec_stashSnoop (die core off : Nat) (write : Bool) (st : State) : exec (.stashSnoop die core off write) st = execStashSnoop die core off write st := rfl
@[simp] theorem exec_stashWriteback (die core off : Nat) (st : State) : exec (.stashWriteback die core off) st = execStashWriteback die core off st := rfl
@[simp] theorem exec_qtailWrite (die q : Nat) (v : BitVec 64) (st : State) : exec (.qtailWrite die q v) st = execQtailWrite die q v st := rfl
@[simp] theorem exec_qbaseWrite (die q : Nat) (v : BitVec 64) (st : State) : exec (.qbaseWrite die q v) st = execQbaseWrite die q v st := rfl
@[simp] theorem exec_qsizeWrite (die q : Nat) (v : BitVec 64) (st : State) : exec (.qsizeWrite die q v) st = execQsizeWrite die q v st := rfl
@[simp] theorem exec_graphAdmit (die : Nat) (st : State) : exec (.graphAdmit die) st = execGraphAdmit die st := rfl
@[simp] theorem exec_recordAdmit (graph : Nat) (st : State) : exec (.recordAdmit graph) st = execRecordAdmit graph st := rfl
@[simp] theorem exec_taskStart (die part : Nat) (st : State) : exec (.taskStart die part) st = execTaskStart die part st := rfl
@[simp] theorem exec_gangStart (die part : Nat) (st : State) : exec (.gangStart die part) st = execGangStart die part st := rfl
@[simp] theorem exec_preempt (die part : Nat) (st : State) : exec (.preempt die part) st = execPreempt die part st := rfl
@[simp] theorem exec_taskRetire (die core : Nat) (st : State) : exec (.taskRetire die core) st = execTaskRetire die core st := rfl
@[simp] theorem exec_reads (n : Nat) (st : State) : exec (.reads n) st = execReads n st := rfl
@[simp] theorem exec_readx (n : Nat) (st : State) : exec (.readx n) st = execReadx n st := rfl
@[simp] theorem exec_writeback (die line : Nat) (st : State) : exec (.writeback die line) st = execWriteback die line st := rfl
@[simp] theorem exec_homeDieRead (n : Nat) (st : State) : exec (.homeDieRead n) st = execHomeDieRead n st := rfl
@[simp] theorem exec_homeDieWrite (n : Nat) (st : State) : exec (.homeDieWrite n) st = execHomeDieWrite n st := rfl
@[simp] theorem exec_fwds (n : Nat) (st : State) : exec (.fwds n) st = execFwds n st := rfl
@[simp] theorem exec_fwdh (n : Nat) (st : State) : exec (.fwdh n) st = execFwdh n st := rfl
@[simp] theorem exec_inv (n : Nat) (st : State) : exec (.inv n) st = execInv n st := rfl
@[simp] theorem exec_entryEviction (die line : Nat) (st : State) : exec (.entryEviction die line) st = execEntryEviction die line st := rfl
@[simp] theorem exec_postedStorePerformed (die core home : Nat) (st : State) : exec (.postedStorePerformed die core home) st = execPostedStorePerformed die core home st := rfl
@[simp] theorem exec_storeAck (n : Nat) (st : State) : exec (.storeAck n) st = execStoreAck n st := rfl
@[simp] theorem exec_dieLost (die : Nat) (st : State) : exec (.dieLost die) st = execDieLost die st := rfl
@[simp] theorem exec_hbPutArrival (src : PutSrc) (st : State) : exec (.hbPutArrival src) st = execHbPutArrival src st := rfl
@[simp] theorem exec_hbTimeout (die ctx slot : Nat) (st : State) : exec (.hbTimeout die ctx slot) st = execHbTimeout die ctx slot st := rfl
@[simp] theorem exec_combineWrite (die ctx slot : Nat) (st : State) : exec (.combineWrite die ctx slot) st = execCombineWrite die ctx slot st := rfl
@[simp] theorem exec_prArrival (src : UnitSrc) (st : State) : exec (.prArrival src) st = execPrArrival src st := rfl
@[simp] theorem exec_prUpdate (record : Nat) (st : State) : exec (.prUpdate record) st = execPrUpdate record st := rfl
@[simp] theorem exec_halving (ctx line : Nat) (st : State) : exec (.halving ctx line) st = execHalving ctx line st := rfl
@[simp] theorem exec_halfMerge (port : Nat) (half : HalfMsg) (st : State) : exec (.halfMerge port half) st = execHalfMerge port half st := rfl
@[simp] theorem exec_halfApplied (port : Nat) (seq : BitVec 32) (st : State) : exec (.halfApplied port seq) st = execHalfApplied port seq st := rfl
@[simp] theorem exec_halfRefused (port : Nat) (seq : BitVec 32) (st : State) : exec (.halfRefused port seq) st = execHalfRefused port seq st := rfl
@[simp] theorem exec_halfRetransmit (ctx line : Nat) (st : State) : exec (.halfRetransmit ctx line) st = execHalfRetransmit ctx line st := rfl
@[simp] theorem exec_zynothPortFail (port : Nat) (st : State) : exec (.zynothPortFail port) st = execZynothPortFail port st := rfl
@[simp] theorem exec_zynothPortRetrain (port : Nat) (applied : BitVec 32) (st : State) : exec (.zynothPortRetrain port applied) st = execZynothPortRetrain port applied st := rfl
@[simp] theorem exec_mbExport (fn : Nat) (st : State) : exec (.mbExport fn) st = execMbExport fn st := rfl
@[simp] theorem exec_mbImport (fn : Nat) (st : State) : exec (.mbImport fn) st = execMbImport fn st := rfl
@[simp] theorem exec_unimport (fn : Nat) (st : State) : exec (.unimport fn) st = execUnimport fn st := rfl
@[simp] theorem exec_revoke (fn : Nat) (st : State) : exec (.revoke fn) st = execRevoke fn st := rfl
@[simp] theorem exec_invaltr (fn : Nat) (st : State) : exec (.invaltr fn) st = execInvaltr fn st := rfl
@[simp] theorem exec_migrate (fn frame : Nat) (st : State) : exec (.migrate fn frame) st = execMigrate fn frame st := rfl
@[simp] theorem exec_warmreset (fn : Nat) (st : State) : exec (.warmreset fn) st = execWarmreset fn st := rfl
@[simp] theorem exec_gresolve (fn : Nat) (st : State) : exec (.gresolve fn) st = execGresolve fn st := rfl
@[simp] theorem exec_ctxcreate (fn : Nat) (st : State) : exec (.ctxcreate fn) st = execCtxcreate fn st := rfl
@[simp] theorem exec_ctxdestroy (fn : Nat) (st : State) : exec (.ctxdestroy fn) st = execCtxdestroy fn st := rfl
@[simp] theorem exec_keyload (fn : Nat) (st : State) : exec (.keyload fn) st = execKeyload fn st := rfl
@[simp] theorem exec_keyclr (fn : Nat) (st : State) : exec (.keyclr fn) st = execKeyclr fn st := rfl
@[simp] theorem exec_manadd (fn : Nat) (st : State) : exec (.manadd fn) st = execManadd fn st := rfl
@[simp] theorem exec_mansign (fn : Nat) (st : State) : exec (.mansign fn) st = execMansign fn st := rfl
@[simp] theorem exec_imgpush (fn : Nat) (st : State) : exec (.imgpush fn) st = execImgpush fn st := rfl
@[simp] theorem exec_pwrlimit (fn : Nat) (st : State) : exec (.pwrlimit fn) st = execPwrlimit fn st := rfl
@[simp] theorem exec_featacceptWrite (v : BitVec 64) (st : State) : exec (.featacceptWrite v) st = execFeatacceptWrite v st := rfl
@[simp] theorem exec_registerWrite (fn off : Nat) (v : BitVec 64) (st : State) : exec (.registerWrite fn off v) st = execRegisterWrite fn off v st := rfl
@[simp] theorem exec_powerGood (st : State) : exec .powerGood st = execPowerGood st := rfl
@[simp] theorem exec_dieAdmit (die : Nat) (trained : Bool) (st : State) : exec (.dieAdmit die trained) st = execDieAdmit die trained st := rfl
@[simp] theorem exec_powerSample (watts : Nat) (st : State) : exec (.powerSample watts) st = execPowerSample watts st := rfl
@[simp] theorem exec_thermalSample (temps : List Nat) (st : State) : exec (.thermalSample temps) st = execThermalSample temps st := rfl
@[simp] theorem exec_coreAgeingCheck (die core : Nat) (low : Bool) (st : State) : exec (.coreAgeingCheck die core low) st = execCoreAgeingCheck die core low st := rfl
@[simp] theorem exec_savedContextReply (die core : Nat) (e : Eng) (st : State) : exec (.savedContextReply die core e) st = execSavedContextReply die core e st := rfl
@[simp] theorem exec_flagAddArrival (n : Nat) (st : State) : exec (.flagAddArrival n) st = execFlagAddArrival n st := rfl
@[simp] theorem exec_deposit (src : UnitSrc) (st : State) : exec (.deposit src) st = execDeposit src st := rfl
@[simp] theorem exec_acknowledgement (n : Nat) (st : State) : exec (.acknowledgement n) st = execAcknowledgement n st := rfl
@[simp] theorem exec_cxlMemAccess (fn addr : Nat) (write : Bool) (data : List (BitVec 8)) (st : State) : exec (.cxlMemAccess fn addr write data) st = execCxlMemAccess fn addr write data st := rfl
@[simp] theorem exec_dieMapChange (map : BitVec 64) (st : State) : exec (.dieMapChange map) st = execDieMapChange map st := rfl
@[simp] theorem exec_l2ModeChange (die : Nat) (priv : Bool) (st : State) : exec (.l2ModeChange die priv) st = execL2ModeChange die priv st := rfl
@[simp] theorem exec_contextResume (ctx : Nat) (st : State) : exec (.contextResume ctx) st = execContextResume ctx st := rfl
@[simp] theorem exec_powerLoss (flash : Bool) (st : State) : exec (.powerLoss flash) st = execPowerLoss flash st := rfl

end Sys2Proof.Machine
end

