-- ==== Sys2Proof/Laws/Tab.lean ====
section
/-! SUPPORT. Sparse tables: reading after writing, and the canonical form, for tables and for byte memories. -/

namespace Sys2Proof.Machine

variable {α : Type}

@[simp] theorem tGet_nil (d : α) (k : Nat) : tGet d [] k = d := rfl

theorem tGet_tDel_same (d : α) (t : Tab α) (k : Nat) : tGet d (tDel t k) k = d := by
  induction t with
  | nil => rfl
  | cons p t ih =>
    simp only [tDel]
    split
    · exact ih
    · next h => simp [tGet, h, ih]

theorem tGet_tDel_other (d : α) (t : Tab α) {k j : Nat} (h : j ≠ k) : tGet d (tDel t k) j = tGet d t j := by
  induction t with
  | nil => rfl
  | cons p t ih =>
    simp only [tDel]
    split
    · next e => simp [tGet, ih, e, Ne.symm h]
    · simp [tGet, ih]

theorem tGet_tIns_other (d : α) (t : Tab α) {k j : Nat} (v : α) (h : j ≠ k) : tGet d (tIns t k v) j = tGet d t j := by
  induction t with
  | nil => simp [tIns, tGet, Ne.symm h]
  | cons p t ih =>
    simp only [tIns]
    split
    · simp [tGet, Ne.symm h]
    · simp [tGet, ih]

theorem tGet_tIns_same (d : α) (t : Tab α) (k : Nat) (v : α) (h : ∀ p ∈ t, p.1 ≠ k) : tGet d (tIns t k v) k = v := by
  induction t with
  | nil => simp [tIns, tGet]
  | cons p t ih =>
    simp only [tIns]
    split
    · simp [tGet]
    · simp only [tGet, h p (by simp), if_false]
      exact ih fun q hq => h q (by simp [hq])

theorem ne_of_mem_tDel (t : Tab α) (k : Nat) : ∀ p ∈ tDel t k, p.1 ≠ k := by
  induction t with
  | nil => simp [tDel]
  | cons p t ih =>
    simp only [tDel]
    split
    · exact ih
    · next h => simpa [h] using ih

/-- Reading a table after a write: the value written at the key, what stood there before at every other. -/
theorem tGet_tSet [DecidableEq α] (d : α) (t : Tab α) (k j : Nat) (v : α) : tGet d (tSet d t k v) j = if j = k then v else tGet d t j := by
  unfold tSet
  split
  · next hv =>
    split
    · next h => rw [h, tGet_tDel_same, hv]
    · next h => exact tGet_tDel_other d t h
  · split
    · next h => rw [h, tGet_tIns_same d _ _ _ (ne_of_mem_tDel t k)]
    · next h => rw [tGet_tIns_other d _ v h, tGet_tDel_other d t h]

@[simp] theorem tGet_tSet_same [DecidableEq α] (d : α) (t : Tab α) (k : Nat) (v : α) : tGet d (tSet d t k v) k = v := by simp [tGet_tSet]

theorem tGet_tSet_other [DecidableEq α] (d : α) (t : Tab α) {k j : Nat} (v : α) (h : j ≠ k) : tGet d (tSet d t k v) j = tGet d t j := by
  simp [tGet_tSet, h]

theorem tDel_tDel (t : Tab α) (k : Nat) : tDel (tDel t k) k = tDel t k := by
  induction t with
  | nil => rfl
  | cons p t ih =>
    simp only [tDel]
    split
    · exact ih
    · next h => simp only [tDel, h, if_false, ih]

theorem tDel_tIns (t : Tab α) (k : Nat) (v : α) : tDel (tIns t k v) k = tDel t k := by
  induction t with
  | nil => simp [tIns, tDel]
  | cons p t ih =>
    simp only [tIns]
    split
    · simp [tDel]
    · simp only [tDel, ih]

/-- Of two writes at one key the later stands. -/
@[simp] theorem tSet_tSet [DecidableEq α] (d : α) (t : Tab α) (k : Nat) (v w : α) : tSet d (tSet d t k v) k w = tSet d t k w := by
  have h : tDel (tSet d t k v) k = tDel t k := by
    unfold tSet
    split
    · exact tDel_tDel t k
    · rw [tDel_tIns, tDel_tDel]
  unfold tSet at h ⊢
  rw [h]

/-! ### The canonical form -/

theorem tWfFrom_mono [DecidableEq α] (d : α) {b c : Nat} (h : b ≤ c) (t : Tab α) (hc : tWfFrom d c t = true) : tWfFrom d b t = true := by
  cases t with
  | nil => rfl
  | cons p t => simp only [tWfFrom, Bool.and_eq_true, decide_eq_true_eq] at hc ⊢; exact ⟨⟨by omega, hc.1.2⟩, hc.2⟩

theorem tWfFrom_tDel [DecidableEq α] (d : α) (b : Nat) (t : Tab α) (k : Nat) (h : tWfFrom d b t = true) : tWfFrom d b (tDel t k) = true := by
  induction t generalizing b with
  | nil => rfl
  | cons p t ih =>
    simp only [tWfFrom, Bool.and_eq_true, decide_eq_true_eq] at h
    simp only [tDel]
    split
    · exact tWfFrom_mono d (by omega) _ (ih _ h.2)
    · simp only [tWfFrom, Bool.and_eq_true, decide_eq_true_eq]; exact ⟨h.1, ih _ h.2⟩

theorem tWfFrom_tIns [DecidableEq α] (d : α) (b : Nat) (t : Tab α) (k : Nat) (v : α) (hb : b ≤ k) (hv : v ≠ d) (hk : ∀ p ∈ t, p.1 ≠ k)
    (h : tWfFrom d b t = true) : tWfFrom d b (tIns t k v) = true := by
  induction t generalizing b with
  | nil => simp [tIns, tWfFrom, hb, hv]
  | cons p t ih =>
    simp only [tWfFrom, Bool.and_eq_true, decide_eq_true_eq] at h
    simp only [tIns]
    split
    · next lt => simp only [tWfFrom, Bool.and_eq_true, decide_eq_true_eq]; exact ⟨⟨hb, by simpa using hv⟩, ⟨⟨by omega, h.1.2⟩, h.2⟩⟩
    · next ge =>
      have := hk p (by simp)
      simp only [tWfFrom, Bool.and_eq_true, decide_eq_true_eq]
      exact ⟨h.1, ih _ (by omega) (fun q hq => hk q (by simp [hq])) h.2⟩

/-- A write keeps the canonical form. -/
theorem tWf_tSet [DecidableEq α] (d : α) (t : Tab α) (k : Nat) (v : α) (h : tWf d t = true) : tWf d (tSet d t k v) = true := by
  unfold tSet tWf at *
  split
  · exact tWfFrom_tDel d 0 t k h
  · next hv => exact tWfFrom_tIns d 0 _ k v (Nat.zero_le _) hv (ne_of_mem_tDel t k) (tWfFrom_tDel d 0 t k h)

/-! ### Byte memories -/

/-- Storing bytes keeps the canonical form of a memory. -/
theorem Memory.wf_mWrite (m : Mem) (a : Nat) (bs : List Byte) (h : Memory.wf m = true) : Memory.wf (mWrite m a bs) = true := by
  induction bs generalizing m a with
  | nil => exact h
  | cons b bs ih => exact ih _ _ (tWf_tSet 0 m a b h)

/-- Storing the bytes of a number keeps the canonical form. -/
theorem Memory.wf_mWriteN (m : Mem) (a n x : Nat) (h : Memory.wf m = true) : Memory.wf (mWriteN m a n x) = true := Memory.wf_mWrite m a _ h

/-- Every byte after a store: the byte stored where the store covers it, what stood there before elsewhere. -/
theorem tGet_mWrite (m : Mem) (a j : Nat) (bs : List Byte) : tGet 0 (mWrite m a bs) j = if a ≤ j ∧ j < a + bs.length then bs.getD (j - a) 0 else tGet 0 m j := by
  induction bs generalizing m a with
  | nil => simp [mWrite]
  | cons b bs ih =>
    rw [mWrite, ih, tGet_tSet]
    by_cases hj : j = a
    · subst hj; simp
    · by_cases hr : a + 1 ≤ j ∧ j < a + 1 + bs.length
      · obtain ⟨n, rfl⟩ : ∃ n, j = a + 1 + n := ⟨j - (a + 1), by omega⟩
        have e1 : a + 1 + n - a = n + 1 := by omega
        have e2 : a + 1 + n - (a + 1) = n := by omega
        rw [if_pos hr, if_pos ⟨by omega, by simp; omega⟩, e1, e2]; simp
      · rw [if_neg hr, if_neg hj, if_neg (by simp; omega)]

theorem mRead_length (m : Mem) (a n : Nat) : (mRead m a n).length = n := by
  induction n generalizing a with
  | zero => rfl
  | succ n ih => simp [mRead, ih]

/-- A range that a store does not touch reads as before. -/
theorem mRead_mWrite_other (m : Mem) (a j n : Nat) (bs : List Byte) (h : j + n ≤ a ∨ a + bs.length ≤ j) : mRead (mWrite m a bs) j n = mRead m j n := by
  induction n generalizing j with
  | zero => rfl
  | succ n ih => rw [mRead, mRead, ih (j + 1) (by omega), tGet_mWrite, if_neg (by omega)]

/-- The bytes stored are the bytes read back. -/
theorem mRead_mWrite_same (m : Mem) (a : Nat) (bs : List Byte) : mRead (mWrite m a bs) a bs.length = bs := by
  induction bs generalizing m a with
  | nil => rfl
  | cons b bs ih =>
    simp only [mWrite, List.length_cons, mRead, ih]
    rw [tGet_mWrite, if_neg (by omega), tGet_tSet_same]

end Sys2Proof.Machine
end

