-- ==== Sys2Proof/Laws/State.lean ====
section
/-! SUPPORT. One lemma for each field of State under each update of a part, and what the accessors read after an update, so that no proof
unfolds a record update. -/

namespace Sys2Proof.Machine

/-! ### setCoreAt -/

@[simp] theorem State.setCoreAt_tape (s : State) (die core : Nat) (c : Core) : (s.setCoreAt die core c).tape = s.tape := rfl
@[simp] theorem State.setCoreAt_free (s : State) (die core : Nat) (c : Core) : (s.setCoreAt die core c).free = s.free := rfl
@[simp] theorem State.setCoreAt_cur (s : State) (die core : Nat) (c : Core) : (s.setCoreAt die core c).cur = s.cur := rfl
@[simp] theorem State.setCoreAt_now (s : State) (die core : Nat) (c : Core) : (s.setCoreAt die core c).now = s.now := rfl
@[simp] theorem State.setCoreAt_dies (s : State) (die core : Nat) (c : Core) : (s.setCoreAt die core c).dies = s.dies := rfl
@[simp] theorem State.setCoreAt_parts (s : State) (die core : Nat) (c : Core) : (s.setCoreAt die core c).parts = s.parts := rfl
@[simp] theorem State.setCoreAt_ctxs (s : State) (die core : Nat) (c : Core) : (s.setCoreAt die core c).ctxs = s.ctxs := rfl
@[simp] theorem State.setCoreAt_nextCtx (s : State) (die core : Nat) (c : Core) : (s.setCoreAt die core c).nextCtx = s.nextCtx := rfl
@[simp] theorem State.setCoreAt_nextImport (s : State) (die core : Nat) (c : Core) : (s.setCoreAt die core c).nextImport = s.nextImport := rfl
@[simp] theorem State.setCoreAt_links (s : State) (die core : Nat) (c : Core) : (s.setCoreAt die core c).links = s.links := rfl
@[simp] theorem State.setCoreAt_chains (s : State) (die core : Nat) (c : Core) : (s.setCoreAt die core c).chains = s.chains := rfl
@[simp] theorem State.setCoreAt_hops (s : State) (die core : Nat) (c : Core) : (s.setCoreAt die core c).hops = s.hops := rfl
@[simp] theorem State.setCoreAt_queues (s : State) (die core : Nat) (c : Core) : (s.setCoreAt die core c).queues = s.queues := rfl
@[simp] theorem State.setCoreAt_graphs (s : State) (die core : Nat) (c : Core) : (s.setCoreAt die core c).graphs = s.graphs := rfl
@[simp] theorem State.setCoreAt_nextGraph (s : State) (die core : Nat) (c : Core) : (s.setCoreAt die core c).nextGraph = s.nextGraph := rfl
@[simp] theorem State.setCoreAt_ckpts (s : State) (die core : Nat) (c : Core) : (s.setCoreAt die core c).ckpts = s.ckpts := rfl
@[simp] theorem State.setCoreAt_mem (s : State) (die core : Nat) (c : Core) : (s.setCoreAt die core c).mem = s.mem := rfl
@[simp] theorem State.setCoreAt_tags (s : State) (die core : Nat) (c : Core) : (s.setCoreAt die core c).tags = s.tags := rfl
@[simp] theorem State.setCoreAt_tlb (s : State) (die core : Nat) (c : Core) : (s.setCoreAt die core c).tlb = s.tlb := rfl
@[simp] theorem State.setCoreAt_keyVer (s : State) (die core : Nat) (c : Core) : (s.setCoreAt die core c).keyVer = s.keyVer := rfl
@[simp] theorem State.setCoreAt_keyTag (s : State) (die core : Nat) (c : Core) : (s.setCoreAt die core c).keyTag = s.keyTag := rfl
@[simp] theorem State.setCoreAt_allot (s : State) (die core : Nat) (c : Core) : (s.setCoreAt die core c).allot = s.allot := rfl
@[simp] theorem State.setCoreAt_dirs (s : State) (die core : Nat) (c : Core) : (s.setCoreAt die core c).dirs = s.dirs := rfl
@[simp] theorem State.setCoreAt_lines (s : State) (die core : Nat) (c : Core) : (s.setCoreAt die core c).lines = s.lines := rfl
@[simp] theorem State.setCoreAt_filt (s : State) (die core : Nat) (c : Core) : (s.setCoreAt die core c).filt = s.filt := rfl
@[simp] theorem State.setCoreAt_reqs (s : State) (die core : Nat) (c : Core) : (s.setCoreAt die core c).reqs = s.reqs := rfl
@[simp] theorem State.setCoreAt_fwds (s : State) (die core : Nat) (c : Core) : (s.setCoreAt die core c).fwds = s.fwds := rfl
@[simp] theorem State.setCoreAt_xacts (s : State) (die core : Nat) (c : Core) : (s.setCoreAt die core c).xacts = s.xacts := rfl
@[simp] theorem State.setCoreAt_acks (s : State) (die core : Nat) (c : Core) : (s.setCoreAt die core c).acks = s.acks := rfl
@[simp] theorem State.setCoreAt_snoops (s : State) (die core : Nat) (c : Core) : (s.setCoreAt die core c).snoops = s.snoops := rfl
@[simp] theorem State.setCoreAt_posts (s : State) (die core : Nat) (c : Core) : (s.setCoreAt die core c).posts = s.posts := rfl
@[simp] theorem State.setCoreAt_puts (s : State) (die core : Nat) (c : Core) : (s.setCoreAt die core c).puts = s.puts := rfl
@[simp] theorem State.setCoreAt_units (s : State) (die core : Nat) (c : Core) : (s.setCoreAt die core c).units = s.units := rfl
@[simp] theorem State.setCoreAt_updates (s : State) (die core : Nat) (c : Core) : (s.setCoreAt die core c).updates = s.updates := rfl
@[simp] theorem State.setCoreAt_flagMsgs (s : State) (die core : Nat) (c : Core) : (s.setCoreAt die core c).flagMsgs = s.flagMsgs := rfl
@[simp] theorem State.setCoreAt_sacks (s : State) (die core : Nat) (c : Core) : (s.setCoreAt die core c).sacks = s.sacks := rfl
@[simp] theorem State.setCoreAt_exports (s : State) (die core : Nat) (c : Core) : (s.setCoreAt die core c).exports = s.exports := rfl
@[simp] theorem State.setCoreAt_ports (s : State) (die core : Nat) (c : Core) : (s.setCoreAt die core c).ports = s.ports := rfl
@[simp] theorem State.setCoreAt_halves (s : State) (die core : Nat) (c : Core) : (s.setCoreAt die core c).halves = s.halves := rfl
@[simp] theorem State.setCoreAt_replies (s : State) (die core : Nat) (c : Core) : (s.setCoreAt die core c).replies = s.replies := rfl
@[simp] theorem State.setCoreAt_mill (s : State) (die core : Nat) (c : Core) : (s.setCoreAt die core c).mill = s.mill := rfl

/-! ### setDieAt -/

@[simp] theorem State.setDieAt_tape (s : State) (die : Nat) (d : Die) : (s.setDieAt die d).tape = s.tape := rfl
@[simp] theorem State.setDieAt_free (s : State) (die : Nat) (d : Die) : (s.setDieAt die d).free = s.free := rfl
@[simp] theorem State.setDieAt_cur (s : State) (die : Nat) (d : Die) : (s.setDieAt die d).cur = s.cur := rfl
@[simp] theorem State.setDieAt_now (s : State) (die : Nat) (d : Die) : (s.setDieAt die d).now = s.now := rfl
@[simp] theorem State.setDieAt_cores (s : State) (die : Nat) (d : Die) : (s.setDieAt die d).cores = s.cores := rfl
@[simp] theorem State.setDieAt_parts (s : State) (die : Nat) (d : Die) : (s.setDieAt die d).parts = s.parts := rfl
@[simp] theorem State.setDieAt_ctxs (s : State) (die : Nat) (d : Die) : (s.setDieAt die d).ctxs = s.ctxs := rfl
@[simp] theorem State.setDieAt_nextCtx (s : State) (die : Nat) (d : Die) : (s.setDieAt die d).nextCtx = s.nextCtx := rfl
@[simp] theorem State.setDieAt_nextImport (s : State) (die : Nat) (d : Die) : (s.setDieAt die d).nextImport = s.nextImport := rfl
@[simp] theorem State.setDieAt_links (s : State) (die : Nat) (d : Die) : (s.setDieAt die d).links = s.links := rfl
@[simp] theorem State.setDieAt_chains (s : State) (die : Nat) (d : Die) : (s.setDieAt die d).chains = s.chains := rfl
@[simp] theorem State.setDieAt_hops (s : State) (die : Nat) (d : Die) : (s.setDieAt die d).hops = s.hops := rfl
@[simp] theorem State.setDieAt_queues (s : State) (die : Nat) (d : Die) : (s.setDieAt die d).queues = s.queues := rfl
@[simp] theorem State.setDieAt_graphs (s : State) (die : Nat) (d : Die) : (s.setDieAt die d).graphs = s.graphs := rfl
@[simp] theorem State.setDieAt_nextGraph (s : State) (die : Nat) (d : Die) : (s.setDieAt die d).nextGraph = s.nextGraph := rfl
@[simp] theorem State.setDieAt_ckpts (s : State) (die : Nat) (d : Die) : (s.setDieAt die d).ckpts = s.ckpts := rfl
@[simp] theorem State.setDieAt_mem (s : State) (die : Nat) (d : Die) : (s.setDieAt die d).mem = s.mem := rfl
@[simp] theorem State.setDieAt_tags (s : State) (die : Nat) (d : Die) : (s.setDieAt die d).tags = s.tags := rfl
@[simp] theorem State.setDieAt_tlb (s : State) (die : Nat) (d : Die) : (s.setDieAt die d).tlb = s.tlb := rfl
@[simp] theorem State.setDieAt_keyVer (s : State) (die : Nat) (d : Die) : (s.setDieAt die d).keyVer = s.keyVer := rfl
@[simp] theorem State.setDieAt_keyTag (s : State) (die : Nat) (d : Die) : (s.setDieAt die d).keyTag = s.keyTag := rfl
@[simp] theorem State.setDieAt_allot (s : State) (die : Nat) (d : Die) : (s.setDieAt die d).allot = s.allot := rfl
@[simp] theorem State.setDieAt_dirs (s : State) (die : Nat) (d : Die) : (s.setDieAt die d).dirs = s.dirs := rfl
@[simp] theorem State.setDieAt_lines (s : State) (die : Nat) (d : Die) : (s.setDieAt die d).lines = s.lines := rfl
@[simp] theorem State.setDieAt_filt (s : State) (die : Nat) (d : Die) : (s.setDieAt die d).filt = s.filt := rfl
@[simp] theorem State.setDieAt_reqs (s : State) (die : Nat) (d : Die) : (s.setDieAt die d).reqs = s.reqs := rfl
@[simp] theorem State.setDieAt_fwds (s : State) (die : Nat) (d : Die) : (s.setDieAt die d).fwds = s.fwds := rfl
@[simp] theorem State.setDieAt_xacts (s : State) (die : Nat) (d : Die) : (s.setDieAt die d).xacts = s.xacts := rfl
@[simp] theorem State.setDieAt_acks (s : State) (die : Nat) (d : Die) : (s.setDieAt die d).acks = s.acks := rfl
@[simp] theorem State.setDieAt_snoops (s : State) (die : Nat) (d : Die) : (s.setDieAt die d).snoops = s.snoops := rfl
@[simp] theorem State.setDieAt_posts (s : State) (die : Nat) (d : Die) : (s.setDieAt die d).posts = s.posts := rfl
@[simp] theorem State.setDieAt_puts (s : State) (die : Nat) (d : Die) : (s.setDieAt die d).puts = s.puts := rfl
@[simp] theorem State.setDieAt_units (s : State) (die : Nat) (d : Die) : (s.setDieAt die d).units = s.units := rfl
@[simp] theorem State.setDieAt_updates (s : State) (die : Nat) (d : Die) : (s.setDieAt die d).updates = s.updates := rfl
@[simp] theorem State.setDieAt_flagMsgs (s : State) (die : Nat) (d : Die) : (s.setDieAt die d).flagMsgs = s.flagMsgs := rfl
@[simp] theorem State.setDieAt_sacks (s : State) (die : Nat) (d : Die) : (s.setDieAt die d).sacks = s.sacks := rfl
@[simp] theorem State.setDieAt_exports (s : State) (die : Nat) (d : Die) : (s.setDieAt die d).exports = s.exports := rfl
@[simp] theorem State.setDieAt_ports (s : State) (die : Nat) (d : Die) : (s.setDieAt die d).ports = s.ports := rfl
@[simp] theorem State.setDieAt_halves (s : State) (die : Nat) (d : Die) : (s.setDieAt die d).halves = s.halves := rfl
@[simp] theorem State.setDieAt_replies (s : State) (die : Nat) (d : Die) : (s.setDieAt die d).replies = s.replies := rfl
@[simp] theorem State.setDieAt_mill (s : State) (die : Nat) (d : Die) : (s.setDieAt die d).mill = s.mill := rfl

/-! ### setPartAt -/

@[simp] theorem State.setPartAt_tape (s : State) (die part : Nat) (p : Part) : (s.setPartAt die part p).tape = s.tape := rfl
@[simp] theorem State.setPartAt_free (s : State) (die part : Nat) (p : Part) : (s.setPartAt die part p).free = s.free := rfl
@[simp] theorem State.setPartAt_cur (s : State) (die part : Nat) (p : Part) : (s.setPartAt die part p).cur = s.cur := rfl
@[simp] theorem State.setPartAt_now (s : State) (die part : Nat) (p : Part) : (s.setPartAt die part p).now = s.now := rfl
@[simp] theorem State.setPartAt_cores (s : State) (die part : Nat) (p : Part) : (s.setPartAt die part p).cores = s.cores := rfl
@[simp] theorem State.setPartAt_dies (s : State) (die part : Nat) (p : Part) : (s.setPartAt die part p).dies = s.dies := rfl
@[simp] theorem State.setPartAt_ctxs (s : State) (die part : Nat) (p : Part) : (s.setPartAt die part p).ctxs = s.ctxs := rfl
@[simp] theorem State.setPartAt_nextCtx (s : State) (die part : Nat) (p : Part) : (s.setPartAt die part p).nextCtx = s.nextCtx := rfl
@[simp] theorem State.setPartAt_nextImport (s : State) (die part : Nat) (p : Part) : (s.setPartAt die part p).nextImport = s.nextImport := rfl
@[simp] theorem State.setPartAt_links (s : State) (die part : Nat) (p : Part) : (s.setPartAt die part p).links = s.links := rfl
@[simp] theorem State.setPartAt_chains (s : State) (die part : Nat) (p : Part) : (s.setPartAt die part p).chains = s.chains := rfl
@[simp] theorem State.setPartAt_hops (s : State) (die part : Nat) (p : Part) : (s.setPartAt die part p).hops = s.hops := rfl
@[simp] theorem State.setPartAt_queues (s : State) (die part : Nat) (p : Part) : (s.setPartAt die part p).queues = s.queues := rfl
@[simp] theorem State.setPartAt_graphs (s : State) (die part : Nat) (p : Part) : (s.setPartAt die part p).graphs = s.graphs := rfl
@[simp] theorem State.setPartAt_nextGraph (s : State) (die part : Nat) (p : Part) : (s.setPartAt die part p).nextGraph = s.nextGraph := rfl
@[simp] theorem State.setPartAt_ckpts (s : State) (die part : Nat) (p : Part) : (s.setPartAt die part p).ckpts = s.ckpts := rfl
@[simp] theorem State.setPartAt_mem (s : State) (die part : Nat) (p : Part) : (s.setPartAt die part p).mem = s.mem := rfl
@[simp] theorem State.setPartAt_tags (s : State) (die part : Nat) (p : Part) : (s.setPartAt die part p).tags = s.tags := rfl
@[simp] theorem State.setPartAt_tlb (s : State) (die part : Nat) (p : Part) : (s.setPartAt die part p).tlb = s.tlb := rfl
@[simp] theorem State.setPartAt_keyVer (s : State) (die part : Nat) (p : Part) : (s.setPartAt die part p).keyVer = s.keyVer := rfl
@[simp] theorem State.setPartAt_keyTag (s : State) (die part : Nat) (p : Part) : (s.setPartAt die part p).keyTag = s.keyTag := rfl
@[simp] theorem State.setPartAt_allot (s : State) (die part : Nat) (p : Part) : (s.setPartAt die part p).allot = s.allot := rfl
@[simp] theorem State.setPartAt_dirs (s : State) (die part : Nat) (p : Part) : (s.setPartAt die part p).dirs = s.dirs := rfl
@[simp] theorem State.setPartAt_lines (s : State) (die part : Nat) (p : Part) : (s.setPartAt die part p).lines = s.lines := rfl
@[simp] theorem State.setPartAt_filt (s : State) (die part : Nat) (p : Part) : (s.setPartAt die part p).filt = s.filt := rfl
@[simp] theorem State.setPartAt_reqs (s : State) (die part : Nat) (p : Part) : (s.setPartAt die part p).reqs = s.reqs := rfl
@[simp] theorem State.setPartAt_fwds (s : State) (die part : Nat) (p : Part) : (s.setPartAt die part p).fwds = s.fwds := rfl
@[simp] theorem State.setPartAt_xacts (s : State) (die part : Nat) (p : Part) : (s.setPartAt die part p).xacts = s.xacts := rfl
@[simp] theorem State.setPartAt_acks (s : State) (die part : Nat) (p : Part) : (s.setPartAt die part p).acks = s.acks := rfl
@[simp] theorem State.setPartAt_snoops (s : State) (die part : Nat) (p : Part) : (s.setPartAt die part p).snoops = s.snoops := rfl
@[simp] theorem State.setPartAt_posts (s : State) (die part : Nat) (p : Part) : (s.setPartAt die part p).posts = s.posts := rfl
@[simp] theorem State.setPartAt_puts (s : State) (die part : Nat) (p : Part) : (s.setPartAt die part p).puts = s.puts := rfl
@[simp] theorem State.setPartAt_units (s : State) (die part : Nat) (p : Part) : (s.setPartAt die part p).units = s.units := rfl
@[simp] theorem State.setPartAt_updates (s : State) (die part : Nat) (p : Part) : (s.setPartAt die part p).updates = s.updates := rfl
@[simp] theorem State.setPartAt_flagMsgs (s : State) (die part : Nat) (p : Part) : (s.setPartAt die part p).flagMsgs = s.flagMsgs := rfl
@[simp] theorem State.setPartAt_sacks (s : State) (die part : Nat) (p : Part) : (s.setPartAt die part p).sacks = s.sacks := rfl
@[simp] theorem State.setPartAt_exports (s : State) (die part : Nat) (p : Part) : (s.setPartAt die part p).exports = s.exports := rfl
@[simp] theorem State.setPartAt_ports (s : State) (die part : Nat) (p : Part) : (s.setPartAt die part p).ports = s.ports := rfl
@[simp] theorem State.setPartAt_halves (s : State) (die part : Nat) (p : Part) : (s.setPartAt die part p).halves = s.halves := rfl
@[simp] theorem State.setPartAt_replies (s : State) (die part : Nat) (p : Part) : (s.setPartAt die part p).replies = s.replies := rfl
@[simp] theorem State.setPartAt_mill (s : State) (die part : Nat) (p : Part) : (s.setPartAt die part p).mill = s.mill := rfl

/-! ### setCtx -/

@[simp] theorem State.setCtx_tape (s : State) (c : Ctx) : (s.setCtx c).tape = s.tape := rfl
@[simp] theorem State.setCtx_free (s : State) (c : Ctx) : (s.setCtx c).free = s.free := rfl
@[simp] theorem State.setCtx_cur (s : State) (c : Ctx) : (s.setCtx c).cur = s.cur := rfl
@[simp] theorem State.setCtx_now (s : State) (c : Ctx) : (s.setCtx c).now = s.now := rfl
@[simp] theorem State.setCtx_cores (s : State) (c : Ctx) : (s.setCtx c).cores = s.cores := rfl
@[simp] theorem State.setCtx_dies (s : State) (c : Ctx) : (s.setCtx c).dies = s.dies := rfl
@[simp] theorem State.setCtx_parts (s : State) (c : Ctx) : (s.setCtx c).parts = s.parts := rfl
@[simp] theorem State.setCtx_nextCtx (s : State) (c : Ctx) : (s.setCtx c).nextCtx = s.nextCtx := rfl
@[simp] theorem State.setCtx_nextImport (s : State) (c : Ctx) : (s.setCtx c).nextImport = s.nextImport := rfl
@[simp] theorem State.setCtx_links (s : State) (c : Ctx) : (s.setCtx c).links = s.links := rfl
@[simp] theorem State.setCtx_chains (s : State) (c : Ctx) : (s.setCtx c).chains = s.chains := rfl
@[simp] theorem State.setCtx_hops (s : State) (c : Ctx) : (s.setCtx c).hops = s.hops := rfl
@[simp] theorem State.setCtx_queues (s : State) (c : Ctx) : (s.setCtx c).queues = s.queues := rfl
@[simp] theorem State.setCtx_graphs (s : State) (c : Ctx) : (s.setCtx c).graphs = s.graphs := rfl
@[simp] theorem State.setCtx_nextGraph (s : State) (c : Ctx) : (s.setCtx c).nextGraph = s.nextGraph := rfl
@[simp] theorem State.setCtx_ckpts (s : State) (c : Ctx) : (s.setCtx c).ckpts = s.ckpts := rfl
@[simp] theorem State.setCtx_mem (s : State) (c : Ctx) : (s.setCtx c).mem = s.mem := rfl
@[simp] theorem State.setCtx_tags (s : State) (c : Ctx) : (s.setCtx c).tags = s.tags := rfl
@[simp] theorem State.setCtx_tlb (s : State) (c : Ctx) : (s.setCtx c).tlb = s.tlb := rfl
@[simp] theorem State.setCtx_keyVer (s : State) (c : Ctx) : (s.setCtx c).keyVer = s.keyVer := rfl
@[simp] theorem State.setCtx_keyTag (s : State) (c : Ctx) : (s.setCtx c).keyTag = s.keyTag := rfl
@[simp] theorem State.setCtx_allot (s : State) (c : Ctx) : (s.setCtx c).allot = s.allot := rfl
@[simp] theorem State.setCtx_dirs (s : State) (c : Ctx) : (s.setCtx c).dirs = s.dirs := rfl
@[simp] theorem State.setCtx_lines (s : State) (c : Ctx) : (s.setCtx c).lines = s.lines := rfl
@[simp] theorem State.setCtx_filt (s : State) (c : Ctx) : (s.setCtx c).filt = s.filt := rfl
@[simp] theorem State.setCtx_reqs (s : State) (c : Ctx) : (s.setCtx c).reqs = s.reqs := rfl
@[simp] theorem State.setCtx_fwds (s : State) (c : Ctx) : (s.setCtx c).fwds = s.fwds := rfl
@[simp] theorem State.setCtx_xacts (s : State) (c : Ctx) : (s.setCtx c).xacts = s.xacts := rfl
@[simp] theorem State.setCtx_acks (s : State) (c : Ctx) : (s.setCtx c).acks = s.acks := rfl
@[simp] theorem State.setCtx_snoops (s : State) (c : Ctx) : (s.setCtx c).snoops = s.snoops := rfl
@[simp] theorem State.setCtx_posts (s : State) (c : Ctx) : (s.setCtx c).posts = s.posts := rfl
@[simp] theorem State.setCtx_puts (s : State) (c : Ctx) : (s.setCtx c).puts = s.puts := rfl
@[simp] theorem State.setCtx_units (s : State) (c : Ctx) : (s.setCtx c).units = s.units := rfl
@[simp] theorem State.setCtx_updates (s : State) (c : Ctx) : (s.setCtx c).updates = s.updates := rfl
@[simp] theorem State.setCtx_flagMsgs (s : State) (c : Ctx) : (s.setCtx c).flagMsgs = s.flagMsgs := rfl
@[simp] theorem State.setCtx_sacks (s : State) (c : Ctx) : (s.setCtx c).sacks = s.sacks := rfl
@[simp] theorem State.setCtx_exports (s : State) (c : Ctx) : (s.setCtx c).exports = s.exports := rfl
@[simp] theorem State.setCtx_ports (s : State) (c : Ctx) : (s.setCtx c).ports = s.ports := rfl
@[simp] theorem State.setCtx_halves (s : State) (c : Ctx) : (s.setCtx c).halves = s.halves := rfl
@[simp] theorem State.setCtx_replies (s : State) (c : Ctx) : (s.setCtx c).replies = s.replies := rfl
@[simp] theorem State.setCtx_mill (s : State) (c : Ctx) : (s.setCtx c).mill = s.mill := rfl

/-! ### setLink -/

@[simp] theorem State.setLink_tape (s : State) (k : Nat) (l : Link) : (s.setLink k l).tape = s.tape := rfl
@[simp] theorem State.setLink_free (s : State) (k : Nat) (l : Link) : (s.setLink k l).free = s.free := rfl
@[simp] theorem State.setLink_cur (s : State) (k : Nat) (l : Link) : (s.setLink k l).cur = s.cur := rfl
@[simp] theorem State.setLink_now (s : State) (k : Nat) (l : Link) : (s.setLink k l).now = s.now := rfl
@[simp] theorem State.setLink_cores (s : State) (k : Nat) (l : Link) : (s.setLink k l).cores = s.cores := rfl
@[simp] theorem State.setLink_dies (s : State) (k : Nat) (l : Link) : (s.setLink k l).dies = s.dies := rfl
@[simp] theorem State.setLink_parts (s : State) (k : Nat) (l : Link) : (s.setLink k l).parts = s.parts := rfl
@[simp] theorem State.setLink_ctxs (s : State) (k : Nat) (l : Link) : (s.setLink k l).ctxs = s.ctxs := rfl
@[simp] theorem State.setLink_nextCtx (s : State) (k : Nat) (l : Link) : (s.setLink k l).nextCtx = s.nextCtx := rfl
@[simp] theorem State.setLink_nextImport (s : State) (k : Nat) (l : Link) : (s.setLink k l).nextImport = s.nextImport := rfl
@[simp] theorem State.setLink_chains (s : State) (k : Nat) (l : Link) : (s.setLink k l).chains = s.chains := rfl
@[simp] theorem State.setLink_hops (s : State) (k : Nat) (l : Link) : (s.setLink k l).hops = s.hops := rfl
@[simp] theorem State.setLink_queues (s : State) (k : Nat) (l : Link) : (s.setLink k l).queues = s.queues := rfl
@[simp] theorem State.setLink_graphs (s : State) (k : Nat) (l : Link) : (s.setLink k l).graphs = s.graphs := rfl
@[simp] theorem State.setLink_nextGraph (s : State) (k : Nat) (l : Link) : (s.setLink k l).nextGraph = s.nextGraph := rfl
@[simp] theorem State.setLink_ckpts (s : State) (k : Nat) (l : Link) : (s.setLink k l).ckpts = s.ckpts := rfl
@[simp] theorem State.setLink_mem (s : State) (k : Nat) (l : Link) : (s.setLink k l).mem = s.mem := rfl
@[simp] theorem State.setLink_tags (s : State) (k : Nat) (l : Link) : (s.setLink k l).tags = s.tags := rfl
@[simp] theorem State.setLink_tlb (s : State) (k : Nat) (l : Link) : (s.setLink k l).tlb = s.tlb := rfl
@[simp] theorem State.setLink_keyVer (s : State) (k : Nat) (l : Link) : (s.setLink k l).keyVer = s.keyVer := rfl
@[simp] theorem State.setLink_keyTag (s : State) (k : Nat) (l : Link) : (s.setLink k l).keyTag = s.keyTag := rfl
@[simp] theorem State.setLink_allot (s : State) (k : Nat) (l : Link) : (s.setLink k l).allot = s.allot := rfl
@[simp] theorem State.setLink_dirs (s : State) (k : Nat) (l : Link) : (s.setLink k l).dirs = s.dirs := rfl
@[simp] theorem State.setLink_lines (s : State) (k : Nat) (l : Link) : (s.setLink k l).lines = s.lines := rfl
@[simp] theorem State.setLink_filt (s : State) (k : Nat) (l : Link) : (s.setLink k l).filt = s.filt := rfl
@[simp] theorem State.setLink_reqs (s : State) (k : Nat) (l : Link) : (s.setLink k l).reqs = s.reqs := rfl
@[simp] theorem State.setLink_fwds (s : State) (k : Nat) (l : Link) : (s.setLink k l).fwds = s.fwds := rfl
@[simp] theorem State.setLink_xacts (s : State) (k : Nat) (l : Link) : (s.setLink k l).xacts = s.xacts := rfl
@[simp] theorem State.setLink_acks (s : State) (k : Nat) (l : Link) : (s.setLink k l).acks = s.acks := rfl
@[simp] theorem State.setLink_snoops (s : State) (k : Nat) (l : Link) : (s.setLink k l).snoops = s.snoops := rfl
@[simp] theorem State.setLink_posts (s : State) (k : Nat) (l : Link) : (s.setLink k l).posts = s.posts := rfl
@[simp] theorem State.setLink_puts (s : State) (k : Nat) (l : Link) : (s.setLink k l).puts = s.puts := rfl
@[simp] theorem State.setLink_units (s : State) (k : Nat) (l : Link) : (s.setLink k l).units = s.units := rfl
@[simp] theorem State.setLink_updates (s : State) (k : Nat) (l : Link) : (s.setLink k l).updates = s.updates := rfl
@[simp] theorem State.setLink_flagMsgs (s : State) (k : Nat) (l : Link) : (s.setLink k l).flagMsgs = s.flagMsgs := rfl
@[simp] theorem State.setLink_sacks (s : State) (k : Nat) (l : Link) : (s.setLink k l).sacks = s.sacks := rfl
@[simp] theorem State.setLink_exports (s : State) (k : Nat) (l : Link) : (s.setLink k l).exports = s.exports := rfl
@[simp] theorem State.setLink_ports (s : State) (k : Nat) (l : Link) : (s.setLink k l).ports = s.ports := rfl
@[simp] theorem State.setLink_halves (s : State) (k : Nat) (l : Link) : (s.setLink k l).halves = s.halves := rfl
@[simp] theorem State.setLink_replies (s : State) (k : Nat) (l : Link) : (s.setLink k l).replies = s.replies := rfl
@[simp] theorem State.setLink_mill (s : State) (k : Nat) (l : Link) : (s.setLink k l).mill = s.mill := rfl

/-! ### setChain -/

@[simp] theorem State.setChain_tape (s : State) (c : Chain) : (s.setChain c).tape = s.tape := rfl
@[simp] theorem State.setChain_free (s : State) (c : Chain) : (s.setChain c).free = s.free := rfl
@[simp] theorem State.setChain_cur (s : State) (c : Chain) : (s.setChain c).cur = s.cur := rfl
@[simp] theorem State.setChain_now (s : State) (c : Chain) : (s.setChain c).now = s.now := rfl
@[simp] theorem State.setChain_cores (s : State) (c : Chain) : (s.setChain c).cores = s.cores := rfl
@[simp] theorem State.setChain_dies (s : State) (c : Chain) : (s.setChain c).dies = s.dies := rfl
@[simp] theorem State.setChain_parts (s : State) (c : Chain) : (s.setChain c).parts = s.parts := rfl
@[simp] theorem State.setChain_ctxs (s : State) (c : Chain) : (s.setChain c).ctxs = s.ctxs := rfl
@[simp] theorem State.setChain_nextCtx (s : State) (c : Chain) : (s.setChain c).nextCtx = s.nextCtx := rfl
@[simp] theorem State.setChain_nextImport (s : State) (c : Chain) : (s.setChain c).nextImport = s.nextImport := rfl
@[simp] theorem State.setChain_links (s : State) (c : Chain) : (s.setChain c).links = s.links := rfl
@[simp] theorem State.setChain_hops (s : State) (c : Chain) : (s.setChain c).hops = s.hops := rfl
@[simp] theorem State.setChain_queues (s : State) (c : Chain) : (s.setChain c).queues = s.queues := rfl
@[simp] theorem State.setChain_graphs (s : State) (c : Chain) : (s.setChain c).graphs = s.graphs := rfl
@[simp] theorem State.setChain_nextGraph (s : State) (c : Chain) : (s.setChain c).nextGraph = s.nextGraph := rfl
@[simp] theorem State.setChain_ckpts (s : State) (c : Chain) : (s.setChain c).ckpts = s.ckpts := rfl
@[simp] theorem State.setChain_mem (s : State) (c : Chain) : (s.setChain c).mem = s.mem := rfl
@[simp] theorem State.setChain_tags (s : State) (c : Chain) : (s.setChain c).tags = s.tags := rfl
@[simp] theorem State.setChain_tlb (s : State) (c : Chain) : (s.setChain c).tlb = s.tlb := rfl
@[simp] theorem State.setChain_keyVer (s : State) (c : Chain) : (s.setChain c).keyVer = s.keyVer := rfl
@[simp] theorem State.setChain_keyTag (s : State) (c : Chain) : (s.setChain c).keyTag = s.keyTag := rfl
@[simp] theorem State.setChain_allot (s : State) (c : Chain) : (s.setChain c).allot = s.allot := rfl
@[simp] theorem State.setChain_dirs (s : State) (c : Chain) : (s.setChain c).dirs = s.dirs := rfl
@[simp] theorem State.setChain_lines (s : State) (c : Chain) : (s.setChain c).lines = s.lines := rfl
@[simp] theorem State.setChain_filt (s : State) (c : Chain) : (s.setChain c).filt = s.filt := rfl
@[simp] theorem State.setChain_reqs (s : State) (c : Chain) : (s.setChain c).reqs = s.reqs := rfl
@[simp] theorem State.setChain_fwds (s : State) (c : Chain) : (s.setChain c).fwds = s.fwds := rfl
@[simp] theorem State.setChain_xacts (s : State) (c : Chain) : (s.setChain c).xacts = s.xacts := rfl
@[simp] theorem State.setChain_acks (s : State) (c : Chain) : (s.setChain c).acks = s.acks := rfl
@[simp] theorem State.setChain_snoops (s : State) (c : Chain) : (s.setChain c).snoops = s.snoops := rfl
@[simp] theorem State.setChain_posts (s : State) (c : Chain) : (s.setChain c).posts = s.posts := rfl
@[simp] theorem State.setChain_puts (s : State) (c : Chain) : (s.setChain c).puts = s.puts := rfl
@[simp] theorem State.setChain_units (s : State) (c : Chain) : (s.setChain c).units = s.units := rfl
@[simp] theorem State.setChain_updates (s : State) (c : Chain) : (s.setChain c).updates = s.updates := rfl
@[simp] theorem State.setChain_flagMsgs (s : State) (c : Chain) : (s.setChain c).flagMsgs = s.flagMsgs := rfl
@[simp] theorem State.setChain_sacks (s : State) (c : Chain) : (s.setChain c).sacks = s.sacks := rfl
@[simp] theorem State.setChain_exports (s : State) (c : Chain) : (s.setChain c).exports = s.exports := rfl
@[simp] theorem State.setChain_ports (s : State) (c : Chain) : (s.setChain c).ports = s.ports := rfl
@[simp] theorem State.setChain_halves (s : State) (c : Chain) : (s.setChain c).halves = s.halves := rfl
@[simp] theorem State.setChain_replies (s : State) (c : Chain) : (s.setChain c).replies = s.replies := rfl
@[simp] theorem State.setChain_mill (s : State) (c : Chain) : (s.setChain c).mill = s.mill := rfl

/-! ### delChain -/

@[simp] theorem State.delChain_tape (s : State) (ctx c : Nat) : (s.delChain ctx c).tape = s.tape := rfl
@[simp] theorem State.delChain_free (s : State) (ctx c : Nat) : (s.delChain ctx c).free = s.free := rfl
@[simp] theorem State.delChain_cur (s : State) (ctx c : Nat) : (s.delChain ctx c).cur = s.cur := rfl
@[simp] theorem State.delChain_now (s : State) (ctx c : Nat) : (s.delChain ctx c).now = s.now := rfl
@[simp] theorem State.delChain_cores (s : State) (ctx c : Nat) : (s.delChain ctx c).cores = s.cores := rfl
@[simp] theorem State.delChain_dies (s : State) (ctx c : Nat) : (s.delChain ctx c).dies = s.dies := rfl
@[simp] theorem State.delChain_parts (s : State) (ctx c : Nat) : (s.delChain ctx c).parts = s.parts := rfl
@[simp] theorem State.delChain_ctxs (s : State) (ctx c : Nat) : (s.delChain ctx c).ctxs = s.ctxs := rfl
@[simp] theorem State.delChain_nextCtx (s : State) (ctx c : Nat) : (s.delChain ctx c).nextCtx = s.nextCtx := rfl
@[simp] theorem State.delChain_nextImport (s : State) (ctx c : Nat) : (s.delChain ctx c).nextImport = s.nextImport := rfl
@[simp] theorem State.delChain_links (s : State) (ctx c : Nat) : (s.delChain ctx c).links = s.links := rfl
@[simp] theorem State.delChain_hops (s : State) (ctx c : Nat) : (s.delChain ctx c).hops = s.hops := rfl
@[simp] theorem State.delChain_queues (s : State) (ctx c : Nat) : (s.delChain ctx c).queues = s.queues := rfl
@[simp] theorem State.delChain_graphs (s : State) (ctx c : Nat) : (s.delChain ctx c).graphs = s.graphs := rfl
@[simp] theorem State.delChain_nextGraph (s : State) (ctx c : Nat) : (s.delChain ctx c).nextGraph = s.nextGraph := rfl
@[simp] theorem State.delChain_ckpts (s : State) (ctx c : Nat) : (s.delChain ctx c).ckpts = s.ckpts := rfl
@[simp] theorem State.delChain_mem (s : State) (ctx c : Nat) : (s.delChain ctx c).mem = s.mem := rfl
@[simp] theorem State.delChain_tags (s : State) (ctx c : Nat) : (s.delChain ctx c).tags = s.tags := rfl
@[simp] theorem State.delChain_tlb (s : State) (ctx c : Nat) : (s.delChain ctx c).tlb = s.tlb := rfl
@[simp] theorem State.delChain_keyVer (s : State) (ctx c : Nat) : (s.delChain ctx c).keyVer = s.keyVer := rfl
@[simp] theorem State.delChain_keyTag (s : State) (ctx c : Nat) : (s.delChain ctx c).keyTag = s.keyTag := rfl
@[simp] theorem State.delChain_allot (s : State) (ctx c : Nat) : (s.delChain ctx c).allot = s.allot := rfl
@[simp] theorem State.delChain_dirs (s : State) (ctx c : Nat) : (s.delChain ctx c).dirs = s.dirs := rfl
@[simp] theorem State.delChain_lines (s : State) (ctx c : Nat) : (s.delChain ctx c).lines = s.lines := rfl
@[simp] theorem State.delChain_filt (s : State) (ctx c : Nat) : (s.delChain ctx c).filt = s.filt := rfl
@[simp] theorem State.delChain_reqs (s : State) (ctx c : Nat) : (s.delChain ctx c).reqs = s.reqs := rfl
@[simp] theorem State.delChain_fwds (s : State) (ctx c : Nat) : (s.delChain ctx c).fwds = s.fwds := rfl
@[simp] theorem State.delChain_xacts (s : State) (ctx c : Nat) : (s.delChain ctx c).xacts = s.xacts := rfl
@[simp] theorem State.delChain_acks (s : State) (ctx c : Nat) : (s.delChain ctx c).acks = s.acks := rfl
@[simp] theorem State.delChain_snoops (s : State) (ctx c : Nat) : (s.delChain ctx c).snoops = s.snoops := rfl
@[simp] theorem State.delChain_posts (s : State) (ctx c : Nat) : (s.delChain ctx c).posts = s.posts := rfl
@[simp] theorem State.delChain_puts (s : State) (ctx c : Nat) : (s.delChain ctx c).puts = s.puts := rfl
@[simp] theorem State.delChain_units (s : State) (ctx c : Nat) : (s.delChain ctx c).units = s.units := rfl
@[simp] theorem State.delChain_updates (s : State) (ctx c : Nat) : (s.delChain ctx c).updates = s.updates := rfl
@[simp] theorem State.delChain_flagMsgs (s : State) (ctx c : Nat) : (s.delChain ctx c).flagMsgs = s.flagMsgs := rfl
@[simp] theorem State.delChain_sacks (s : State) (ctx c : Nat) : (s.delChain ctx c).sacks = s.sacks := rfl
@[simp] theorem State.delChain_exports (s : State) (ctx c : Nat) : (s.delChain ctx c).exports = s.exports := rfl
@[simp] theorem State.delChain_ports (s : State) (ctx c : Nat) : (s.delChain ctx c).ports = s.ports := rfl
@[simp] theorem State.delChain_halves (s : State) (ctx c : Nat) : (s.delChain ctx c).halves = s.halves := rfl
@[simp] theorem State.delChain_replies (s : State) (ctx c : Nat) : (s.delChain ctx c).replies = s.replies := rfl
@[simp] theorem State.delChain_mill (s : State) (ctx c : Nat) : (s.delChain ctx c).mill = s.mill := rfl

/-! ### setQueue -/

@[simp] theorem State.setQueue_tape (s : State) (die q : Nat) (x : Queue) : (s.setQueue die q x).tape = s.tape := rfl
@[simp] theorem State.setQueue_free (s : State) (die q : Nat) (x : Queue) : (s.setQueue die q x).free = s.free := rfl
@[simp] theorem State.setQueue_cur (s : State) (die q : Nat) (x : Queue) : (s.setQueue die q x).cur = s.cur := rfl
@[simp] theorem State.setQueue_now (s : State) (die q : Nat) (x : Queue) : (s.setQueue die q x).now = s.now := rfl
@[simp] theorem State.setQueue_cores (s : State) (die q : Nat) (x : Queue) : (s.setQueue die q x).cores = s.cores := rfl
@[simp] theorem State.setQueue_dies (s : State) (die q : Nat) (x : Queue) : (s.setQueue die q x).dies = s.dies := rfl
@[simp] theorem State.setQueue_parts (s : State) (die q : Nat) (x : Queue) : (s.setQueue die q x).parts = s.parts := rfl
@[simp] theorem State.setQueue_ctxs (s : State) (die q : Nat) (x : Queue) : (s.setQueue die q x).ctxs = s.ctxs := rfl
@[simp] theorem State.setQueue_nextCtx (s : State) (die q : Nat) (x : Queue) : (s.setQueue die q x).nextCtx = s.nextCtx := rfl
@[simp] theorem State.setQueue_nextImport (s : State) (die q : Nat) (x : Queue) : (s.setQueue die q x).nextImport = s.nextImport := rfl
@[simp] theorem State.setQueue_links (s : State) (die q : Nat) (x : Queue) : (s.setQueue die q x).links = s.links := rfl
@[simp] theorem State.setQueue_chains (s : State) (die q : Nat) (x : Queue) : (s.setQueue die q x).chains = s.chains := rfl
@[simp] theorem State.setQueue_hops (s : State) (die q : Nat) (x : Queue) : (s.setQueue die q x).hops = s.hops := rfl
@[simp] theorem State.setQueue_graphs (s : State) (die q : Nat) (x : Queue) : (s.setQueue die q x).graphs = s.graphs := rfl
@[simp] theorem State.setQueue_nextGraph (s : State) (die q : Nat) (x : Queue) : (s.setQueue die q x).nextGraph = s.nextGraph := rfl
@[simp] theorem State.setQueue_ckpts (s : State) (die q : Nat) (x : Queue) : (s.setQueue die q x).ckpts = s.ckpts := rfl
@[simp] theorem State.setQueue_mem (s : State) (die q : Nat) (x : Queue) : (s.setQueue die q x).mem = s.mem := rfl
@[simp] theorem State.setQueue_tags (s : State) (die q : Nat) (x : Queue) : (s.setQueue die q x).tags = s.tags := rfl
@[simp] theorem State.setQueue_tlb (s : State) (die q : Nat) (x : Queue) : (s.setQueue die q x).tlb = s.tlb := rfl
@[simp] theorem State.setQueue_keyVer (s : State) (die q : Nat) (x : Queue) : (s.setQueue die q x).keyVer = s.keyVer := rfl
@[simp] theorem State.setQueue_keyTag (s : State) (die q : Nat) (x : Queue) : (s.setQueue die q x).keyTag = s.keyTag := rfl
@[simp] theorem State.setQueue_allot (s : State) (die q : Nat) (x : Queue) : (s.setQueue die q x).allot = s.allot := rfl
@[simp] theorem State.setQueue_dirs (s : State) (die q : Nat) (x : Queue) : (s.setQueue die q x).dirs = s.dirs := rfl
@[simp] theorem State.setQueue_lines (s : State) (die q : Nat) (x : Queue) : (s.setQueue die q x).lines = s.lines := rfl
@[simp] theorem State.setQueue_filt (s : State) (die q : Nat) (x : Queue) : (s.setQueue die q x).filt = s.filt := rfl
@[simp] theorem State.setQueue_reqs (s : State) (die q : Nat) (x : Queue) : (s.setQueue die q x).reqs = s.reqs := rfl
@[simp] theorem State.setQueue_fwds (s : State) (die q : Nat) (x : Queue) : (s.setQueue die q x).fwds = s.fwds := rfl
@[simp] theorem State.setQueue_xacts (s : State) (die q : Nat) (x : Queue) : (s.setQueue die q x).xacts = s.xacts := rfl
@[simp] theorem State.setQueue_acks (s : State) (die q : Nat) (x : Queue) : (s.setQueue die q x).acks = s.acks := rfl
@[simp] theorem State.setQueue_snoops (s : State) (die q : Nat) (x : Queue) : (s.setQueue die q x).snoops = s.snoops := rfl
@[simp] theorem State.setQueue_posts (s : State) (die q : Nat) (x : Queue) : (s.setQueue die q x).posts = s.posts := rfl
@[simp] theorem State.setQueue_puts (s : State) (die q : Nat) (x : Queue) : (s.setQueue die q x).puts = s.puts := rfl
@[simp] theorem State.setQueue_units (s : State) (die q : Nat) (x : Queue) : (s.setQueue die q x).units = s.units := rfl
@[simp] theorem State.setQueue_updates (s : State) (die q : Nat) (x : Queue) : (s.setQueue die q x).updates = s.updates := rfl
@[simp] theorem State.setQueue_flagMsgs (s : State) (die q : Nat) (x : Queue) : (s.setQueue die q x).flagMsgs = s.flagMsgs := rfl
@[simp] theorem State.setQueue_sacks (s : State) (die q : Nat) (x : Queue) : (s.setQueue die q x).sacks = s.sacks := rfl
@[simp] theorem State.setQueue_exports (s : State) (die q : Nat) (x : Queue) : (s.setQueue die q x).exports = s.exports := rfl
@[simp] theorem State.setQueue_ports (s : State) (die q : Nat) (x : Queue) : (s.setQueue die q x).ports = s.ports := rfl
@[simp] theorem State.setQueue_halves (s : State) (die q : Nat) (x : Queue) : (s.setQueue die q x).halves = s.halves := rfl
@[simp] theorem State.setQueue_replies (s : State) (die q : Nat) (x : Queue) : (s.setQueue die q x).replies = s.replies := rfl
@[simp] theorem State.setQueue_mill (s : State) (die q : Nat) (x : Queue) : (s.setQueue die q x).mill = s.mill := rfl

/-! ### setEngAt -/

@[simp] theorem State.setEngAt_tape (s : State) (id : EngId) (e : Engine) : (s.setEngAt id e).tape = s.tape := rfl
@[simp] theorem State.setEngAt_free (s : State) (id : EngId) (e : Engine) : (s.setEngAt id e).free = s.free := rfl
@[simp] theorem State.setEngAt_cur (s : State) (id : EngId) (e : Engine) : (s.setEngAt id e).cur = s.cur := rfl
@[simp] theorem State.setEngAt_now (s : State) (id : EngId) (e : Engine) : (s.setEngAt id e).now = s.now := rfl
@[simp] theorem State.setEngAt_dies (s : State) (id : EngId) (e : Engine) : (s.setEngAt id e).dies = s.dies := rfl
@[simp] theorem State.setEngAt_parts (s : State) (id : EngId) (e : Engine) : (s.setEngAt id e).parts = s.parts := rfl
@[simp] theorem State.setEngAt_ctxs (s : State) (id : EngId) (e : Engine) : (s.setEngAt id e).ctxs = s.ctxs := rfl
@[simp] theorem State.setEngAt_nextCtx (s : State) (id : EngId) (e : Engine) : (s.setEngAt id e).nextCtx = s.nextCtx := rfl
@[simp] theorem State.setEngAt_nextImport (s : State) (id : EngId) (e : Engine) : (s.setEngAt id e).nextImport = s.nextImport := rfl
@[simp] theorem State.setEngAt_links (s : State) (id : EngId) (e : Engine) : (s.setEngAt id e).links = s.links := rfl
@[simp] theorem State.setEngAt_chains (s : State) (id : EngId) (e : Engine) : (s.setEngAt id e).chains = s.chains := rfl
@[simp] theorem State.setEngAt_hops (s : State) (id : EngId) (e : Engine) : (s.setEngAt id e).hops = s.hops := rfl
@[simp] theorem State.setEngAt_queues (s : State) (id : EngId) (e : Engine) : (s.setEngAt id e).queues = s.queues := rfl
@[simp] theorem State.setEngAt_graphs (s : State) (id : EngId) (e : Engine) : (s.setEngAt id e).graphs = s.graphs := rfl
@[simp] theorem State.setEngAt_nextGraph (s : State) (id : EngId) (e : Engine) : (s.setEngAt id e).nextGraph = s.nextGraph := rfl
@[simp] theorem State.setEngAt_ckpts (s : State) (id : EngId) (e : Engine) : (s.setEngAt id e).ckpts = s.ckpts := rfl
@[simp] theorem State.setEngAt_mem (s : State) (id : EngId) (e : Engine) : (s.setEngAt id e).mem = s.mem := rfl
@[simp] theorem State.setEngAt_tags (s : State) (id : EngId) (e : Engine) : (s.setEngAt id e).tags = s.tags := rfl
@[simp] theorem State.setEngAt_tlb (s : State) (id : EngId) (e : Engine) : (s.setEngAt id e).tlb = s.tlb := rfl
@[simp] theorem State.setEngAt_keyVer (s : State) (id : EngId) (e : Engine) : (s.setEngAt id e).keyVer = s.keyVer := rfl
@[simp] theorem State.setEngAt_keyTag (s : State) (id : EngId) (e : Engine) : (s.setEngAt id e).keyTag = s.keyTag := rfl
@[simp] theorem State.setEngAt_allot (s : State) (id : EngId) (e : Engine) : (s.setEngAt id e).allot = s.allot := rfl
@[simp] theorem State.setEngAt_dirs (s : State) (id : EngId) (e : Engine) : (s.setEngAt id e).dirs = s.dirs := rfl
@[simp] theorem State.setEngAt_lines (s : State) (id : EngId) (e : Engine) : (s.setEngAt id e).lines = s.lines := rfl
@[simp] theorem State.setEngAt_filt (s : State) (id : EngId) (e : Engine) : (s.setEngAt id e).filt = s.filt := rfl
@[simp] theorem State.setEngAt_reqs (s : State) (id : EngId) (e : Engine) : (s.setEngAt id e).reqs = s.reqs := rfl
@[simp] theorem State.setEngAt_fwds (s : State) (id : EngId) (e : Engine) : (s.setEngAt id e).fwds = s.fwds := rfl
@[simp] theorem State.setEngAt_xacts (s : State) (id : EngId) (e : Engine) : (s.setEngAt id e).xacts = s.xacts := rfl
@[simp] theorem State.setEngAt_acks (s : State) (id : EngId) (e : Engine) : (s.setEngAt id e).acks = s.acks := rfl
@[simp] theorem State.setEngAt_snoops (s : State) (id : EngId) (e : Engine) : (s.setEngAt id e).snoops = s.snoops := rfl
@[simp] theorem State.setEngAt_posts (s : State) (id : EngId) (e : Engine) : (s.setEngAt id e).posts = s.posts := rfl
@[simp] theorem State.setEngAt_puts (s : State) (id : EngId) (e : Engine) : (s.setEngAt id e).puts = s.puts := rfl
@[simp] theorem State.setEngAt_units (s : State) (id : EngId) (e : Engine) : (s.setEngAt id e).units = s.units := rfl
@[simp] theorem State.setEngAt_updates (s : State) (id : EngId) (e : Engine) : (s.setEngAt id e).updates = s.updates := rfl
@[simp] theorem State.setEngAt_flagMsgs (s : State) (id : EngId) (e : Engine) : (s.setEngAt id e).flagMsgs = s.flagMsgs := rfl
@[simp] theorem State.setEngAt_sacks (s : State) (id : EngId) (e : Engine) : (s.setEngAt id e).sacks = s.sacks := rfl
@[simp] theorem State.setEngAt_exports (s : State) (id : EngId) (e : Engine) : (s.setEngAt id e).exports = s.exports := rfl
@[simp] theorem State.setEngAt_ports (s : State) (id : EngId) (e : Engine) : (s.setEngAt id e).ports = s.ports := rfl
@[simp] theorem State.setEngAt_halves (s : State) (id : EngId) (e : Engine) : (s.setEngAt id e).halves = s.halves := rfl
@[simp] theorem State.setEngAt_replies (s : State) (id : EngId) (e : Engine) : (s.setEngAt id e).replies = s.replies := rfl
@[simp] theorem State.setEngAt_mill (s : State) (id : EngId) (e : Engine) : (s.setEngAt id e).mill = s.mill := rfl

/-! ### setMyCore -/

@[simp] theorem State.setMyCore_tape (s : State) (c : Core) : (s.setMyCore c).tape = s.tape := rfl
@[simp] theorem State.setMyCore_free (s : State) (c : Core) : (s.setMyCore c).free = s.free := rfl
@[simp] theorem State.setMyCore_cur (s : State) (c : Core) : (s.setMyCore c).cur = s.cur := rfl
@[simp] theorem State.setMyCore_now (s : State) (c : Core) : (s.setMyCore c).now = s.now := rfl
@[simp] theorem State.setMyCore_dies (s : State) (c : Core) : (s.setMyCore c).dies = s.dies := rfl
@[simp] theorem State.setMyCore_parts (s : State) (c : Core) : (s.setMyCore c).parts = s.parts := rfl
@[simp] theorem State.setMyCore_ctxs (s : State) (c : Core) : (s.setMyCore c).ctxs = s.ctxs := rfl
@[simp] theorem State.setMyCore_nextCtx (s : State) (c : Core) : (s.setMyCore c).nextCtx = s.nextCtx := rfl
@[simp] theorem State.setMyCore_nextImport (s : State) (c : Core) : (s.setMyCore c).nextImport = s.nextImport := rfl
@[simp] theorem State.setMyCore_links (s : State) (c : Core) : (s.setMyCore c).links = s.links := rfl
@[simp] theorem State.setMyCore_chains (s : State) (c : Core) : (s.setMyCore c).chains = s.chains := rfl
@[simp] theorem State.setMyCore_hops (s : State) (c : Core) : (s.setMyCore c).hops = s.hops := rfl
@[simp] theorem State.setMyCore_queues (s : State) (c : Core) : (s.setMyCore c).queues = s.queues := rfl
@[simp] theorem State.setMyCore_graphs (s : State) (c : Core) : (s.setMyCore c).graphs = s.graphs := rfl
@[simp] theorem State.setMyCore_nextGraph (s : State) (c : Core) : (s.setMyCore c).nextGraph = s.nextGraph := rfl
@[simp] theorem State.setMyCore_ckpts (s : State) (c : Core) : (s.setMyCore c).ckpts = s.ckpts := rfl
@[simp] theorem State.setMyCore_mem (s : State) (c : Core) : (s.setMyCore c).mem = s.mem := rfl
@[simp] theorem State.setMyCore_tags (s : State) (c : Core) : (s.setMyCore c).tags = s.tags := rfl
@[simp] theorem State.setMyCore_tlb (s : State) (c : Core) : (s.setMyCore c).tlb = s.tlb := rfl
@[simp] theorem State.setMyCore_keyVer (s : State) (c : Core) : (s.setMyCore c).keyVer = s.keyVer := rfl
@[simp] theorem State.setMyCore_keyTag (s : State) (c : Core) : (s.setMyCore c).keyTag = s.keyTag := rfl
@[simp] theorem State.setMyCore_allot (s : State) (c : Core) : (s.setMyCore c).allot = s.allot := rfl
@[simp] theorem State.setMyCore_dirs (s : State) (c : Core) : (s.setMyCore c).dirs = s.dirs := rfl
@[simp] theorem State.setMyCore_lines (s : State) (c : Core) : (s.setMyCore c).lines = s.lines := rfl
@[simp] theorem State.setMyCore_filt (s : State) (c : Core) : (s.setMyCore c).filt = s.filt := rfl
@[simp] theorem State.setMyCore_reqs (s : State) (c : Core) : (s.setMyCore c).reqs = s.reqs := rfl
@[simp] theorem State.setMyCore_fwds (s : State) (c : Core) : (s.setMyCore c).fwds = s.fwds := rfl
@[simp] theorem State.setMyCore_xacts (s : State) (c : Core) : (s.setMyCore c).xacts = s.xacts := rfl
@[simp] theorem State.setMyCore_acks (s : State) (c : Core) : (s.setMyCore c).acks = s.acks := rfl
@[simp] theorem State.setMyCore_snoops (s : State) (c : Core) : (s.setMyCore c).snoops = s.snoops := rfl
@[simp] theorem State.setMyCore_posts (s : State) (c : Core) : (s.setMyCore c).posts = s.posts := rfl
@[simp] theorem State.setMyCore_puts (s : State) (c : Core) : (s.setMyCore c).puts = s.puts := rfl
@[simp] theorem State.setMyCore_units (s : State) (c : Core) : (s.setMyCore c).units = s.units := rfl
@[simp] theorem State.setMyCore_updates (s : State) (c : Core) : (s.setMyCore c).updates = s.updates := rfl
@[simp] theorem State.setMyCore_flagMsgs (s : State) (c : Core) : (s.setMyCore c).flagMsgs = s.flagMsgs := rfl
@[simp] theorem State.setMyCore_sacks (s : State) (c : Core) : (s.setMyCore c).sacks = s.sacks := rfl
@[simp] theorem State.setMyCore_exports (s : State) (c : Core) : (s.setMyCore c).exports = s.exports := rfl
@[simp] theorem State.setMyCore_ports (s : State) (c : Core) : (s.setMyCore c).ports = s.ports := rfl
@[simp] theorem State.setMyCore_halves (s : State) (c : Core) : (s.setMyCore c).halves = s.halves := rfl
@[simp] theorem State.setMyCore_replies (s : State) (c : Core) : (s.setMyCore c).replies = s.replies := rfl
@[simp] theorem State.setMyCore_mill (s : State) (c : Core) : (s.setMyCore c).mill = s.mill := rfl

/-! ### setMe -/

@[simp] theorem State.setMe_tape (s : State) (e : Engine) : (s.setMe e).tape = s.tape := rfl
@[simp] theorem State.setMe_free (s : State) (e : Engine) : (s.setMe e).free = s.free := rfl
@[simp] theorem State.setMe_cur (s : State) (e : Engine) : (s.setMe e).cur = s.cur := rfl
@[simp] theorem State.setMe_now (s : State) (e : Engine) : (s.setMe e).now = s.now := rfl
@[simp] theorem State.setMe_dies (s : State) (e : Engine) : (s.setMe e).dies = s.dies := rfl
@[simp] theorem State.setMe_parts (s : State) (e : Engine) : (s.setMe e).parts = s.parts := rfl
@[simp] theorem State.setMe_ctxs (s : State) (e : Engine) : (s.setMe e).ctxs = s.ctxs := rfl
@[simp] theorem State.setMe_nextCtx (s : State) (e : Engine) : (s.setMe e).nextCtx = s.nextCtx := rfl
@[simp] theorem State.setMe_nextImport (s : State) (e : Engine) : (s.setMe e).nextImport = s.nextImport := rfl
@[simp] theorem State.setMe_links (s : State) (e : Engine) : (s.setMe e).links = s.links := rfl
@[simp] theorem State.setMe_chains (s : State) (e : Engine) : (s.setMe e).chains = s.chains := rfl
@[simp] theorem State.setMe_hops (s : State) (e : Engine) : (s.setMe e).hops = s.hops := rfl
@[simp] theorem State.setMe_queues (s : State) (e : Engine) : (s.setMe e).queues = s.queues := rfl
@[simp] theorem State.setMe_graphs (s : State) (e : Engine) : (s.setMe e).graphs = s.graphs := rfl
@[simp] theorem State.setMe_nextGraph (s : State) (e : Engine) : (s.setMe e).nextGraph = s.nextGraph := rfl
@[simp] theorem State.setMe_ckpts (s : State) (e : Engine) : (s.setMe e).ckpts = s.ckpts := rfl
@[simp] theorem State.setMe_mem (s : State) (e : Engine) : (s.setMe e).mem = s.mem := rfl
@[simp] theorem State.setMe_tags (s : State) (e : Engine) : (s.setMe e).tags = s.tags := rfl
@[simp] theorem State.setMe_tlb (s : State) (e : Engine) : (s.setMe e).tlb = s.tlb := rfl
@[simp] theorem State.setMe_keyVer (s : State) (e : Engine) : (s.setMe e).keyVer = s.keyVer := rfl
@[simp] theorem State.setMe_keyTag (s : State) (e : Engine) : (s.setMe e).keyTag = s.keyTag := rfl
@[simp] theorem State.setMe_allot (s : State) (e : Engine) : (s.setMe e).allot = s.allot := rfl
@[simp] theorem State.setMe_dirs (s : State) (e : Engine) : (s.setMe e).dirs = s.dirs := rfl
@[simp] theorem State.setMe_lines (s : State) (e : Engine) : (s.setMe e).lines = s.lines := rfl
@[simp] theorem State.setMe_filt (s : State) (e : Engine) : (s.setMe e).filt = s.filt := rfl
@[simp] theorem State.setMe_reqs (s : State) (e : Engine) : (s.setMe e).reqs = s.reqs := rfl
@[simp] theorem State.setMe_fwds (s : State) (e : Engine) : (s.setMe e).fwds = s.fwds := rfl
@[simp] theorem State.setMe_xacts (s : State) (e : Engine) : (s.setMe e).xacts = s.xacts := rfl
@[simp] theorem State.setMe_acks (s : State) (e : Engine) : (s.setMe e).acks = s.acks := rfl
@[simp] theorem State.setMe_snoops (s : State) (e : Engine) : (s.setMe e).snoops = s.snoops := rfl
@[simp] theorem State.setMe_posts (s : State) (e : Engine) : (s.setMe e).posts = s.posts := rfl
@[simp] theorem State.setMe_puts (s : State) (e : Engine) : (s.setMe e).puts = s.puts := rfl
@[simp] theorem State.setMe_units (s : State) (e : Engine) : (s.setMe e).units = s.units := rfl
@[simp] theorem State.setMe_updates (s : State) (e : Engine) : (s.setMe e).updates = s.updates := rfl
@[simp] theorem State.setMe_flagMsgs (s : State) (e : Engine) : (s.setMe e).flagMsgs = s.flagMsgs := rfl
@[simp] theorem State.setMe_sacks (s : State) (e : Engine) : (s.setMe e).sacks = s.sacks := rfl
@[simp] theorem State.setMe_exports (s : State) (e : Engine) : (s.setMe e).exports = s.exports := rfl
@[simp] theorem State.setMe_ports (s : State) (e : Engine) : (s.setMe e).ports = s.ports := rfl
@[simp] theorem State.setMe_halves (s : State) (e : Engine) : (s.setMe e).halves = s.halves := rfl
@[simp] theorem State.setMe_replies (s : State) (e : Engine) : (s.setMe e).replies = s.replies := rfl
@[simp] theorem State.setMe_mill (s : State) (e : Engine) : (s.setMe e).mill = s.mill := rfl

/-! ### The state in which a body runs -/

@[simp] theorem State.atIssue_cur (s : State) : s.atIssue.cur = s.cur := rfl
@[simp] theorem State.atIssue_cores (s : State) : s.atIssue.cores = s.cores := rfl
@[simp] theorem State.atIssue_parts (s : State) : s.atIssue.parts = s.parts := rfl
@[simp] theorem State.atIssue_dies (s : State) : s.atIssue.dies = s.dies := rfl
@[simp] theorem State.atIssue_ctxs (s : State) : s.atIssue.ctxs = s.ctxs := rfl
@[simp] theorem State.atIssue_mem (s : State) : s.atIssue.mem = s.mem := rfl
@[simp] theorem State.atIssue_now (s : State) : s.atIssue.now = s.now := rfl
@[simp] theorem State.atIssue_free (s : State) : s.atIssue.free = s.free + 1 := rfl
@[simp] theorem State.atIssue_myCore (s : State) : s.atIssue.myCore = s.myCore := rfl
@[simp] theorem State.atIssue_me (s : State) : s.atIssue.me = s.me := rfl

/-! ### What the accessors read after an update -/

@[simp] theorem State.coreAt_setCoreAt (s : State) (die core : Nat) (c : Core) : (s.setCoreAt die core c).coreAt die core = c := by
  simp [State.coreAt, State.setCoreAt]

theorem State.coreAt_setCoreAt_other (s : State) {die core d k : Nat} (c : Core) (h : coreKey d k ≠ coreKey die core) :
    (s.setCoreAt die core c).coreAt d k = s.coreAt d k := by simp [State.coreAt, State.setCoreAt, tGet_tSet, h]

@[simp] theorem State.dieAt_setDieAt (s : State) (die : Nat) (d : Die) : (s.setDieAt die d).dieAt die = d := by simp [State.dieAt, State.setDieAt]
@[simp] theorem State.partAt_setPartAt (s : State) (die part : Nat) (p : Part) : (s.setPartAt die part p).partAt die part = p := by
  simp [State.partAt, State.setPartAt]
@[simp] theorem State.ctxAt_setCtx (s : State) (c : Ctx) : (s.setCtx c).ctxAt c.id = c := by simp [State.ctxAt, State.setCtx]
@[simp] theorem State.linkAt_setLink (s : State) (k : Nat) (l : Link) : (s.setLink k l).linkAt k = l := by simp [State.linkAt, State.setLink]
theorem State.linkAt_setLink_other (s : State) {k j : Nat} (l : Link) (h : j ≠ k) : (s.setLink k l).linkAt j = s.linkAt j := by
  simp [State.linkAt, State.setLink, tGet_tSet, h]
@[simp] theorem State.chainAt_setChain (s : State) (c : Chain) : (s.setChain c).chainAt c.ctx c.num = c := by simp [State.chainAt, State.setChain]
@[simp] theorem State.queueAt_setQueue (s : State) (die q : Nat) (x : Queue) : (s.setQueue die q x).queueAt die q = x := by
  simp [State.queueAt, State.setQueue]

@[simp] theorem State.setCoreAt_dieAt (s : State) (die core : Nat) (c : Core) (d : Nat) : (s.setCoreAt die core c).dieAt d = s.dieAt d := rfl
@[simp] theorem State.setCoreAt_partAt (s : State) (die core : Nat) (c : Core) (d p : Nat) : (s.setCoreAt die core c).partAt d p = s.partAt d p := rfl
@[simp] theorem State.setCoreAt_ctxAt (s : State) (die core : Nat) (c : Core) (n : Nat) : (s.setCoreAt die core c).ctxAt n = s.ctxAt n := rfl
@[simp] theorem State.setCoreAt_linkAt (s : State) (die core : Nat) (c : Core) (n : Nat) : (s.setCoreAt die core c).linkAt n = s.linkAt n := rfl
@[simp] theorem State.setPartAt_coreAt (s : State) (die part : Nat) (p : Part) (d k : Nat) : (s.setPartAt die part p).coreAt d k = s.coreAt d k := rfl
@[simp] theorem State.setLink_coreAt (s : State) (k : Nat) (l : Link) (d c : Nat) : (s.setLink k l).coreAt d c = s.coreAt d c := rfl
@[simp] theorem State.setDieAt_coreAt (s : State) (die : Nat) (x : Die) (d c : Nat) : (s.setDieAt die x).coreAt d c = s.coreAt d c := rfl
@[simp] theorem State.setCtx_coreAt (s : State) (x : Ctx) (d c : Nat) : (s.setCtx x).coreAt d c = s.coreAt d c := rfl

@[simp] theorem State.setCoreAt_setCoreAt (s : State) (die core : Nat) (c d : Core) : (s.setCoreAt die core c).setCoreAt die core d = s.setCoreAt die core d := by
  simp [State.setCoreAt]

/-! ### The current core and stream -/

@[simp] theorem State.setMyCore_setMyCore (s : State) (c d : Core) : (s.setMyCore c).setMyCore d = s.setMyCore d := by simp [State.setMyCore]

@[simp] theorem Core.eng_setEng (c : Core) (w : Eng) (e : Engine) : (c.setEng w e).eng w = e := by cases w <;> rfl
theorem Core.eng_setEng_other (c : Core) {w u : Eng} (e : Engine) (h : u ≠ w) : (c.setEng w e).eng u = c.eng u := by
  cases w <;> cases u <;> first | rfl | exact absurd rfl h
@[simp] theorem Core.setEng_setEng (c : Core) (w : Eng) (e f : Engine) : (c.setEng w e).setEng w f = c.setEng w f := by cases w <;> rfl
@[simp] theorem Core.setEng_eng (c : Core) (w : Eng) : c.setEng w (c.eng w) = c := by cases w <;> rfl

@[simp] theorem State.myCore_setMyCore (s : State) (c : Core) : (s.setMyCore c).myCore = c := by simp [State.myCore, State.setMyCore]
@[simp] theorem State.me_setMyCore (s : State) (c : Core) : (s.setMyCore c).me = c.eng s.cur.eng := by simp [State.me]
@[simp] theorem State.myCore_setMe (s : State) (e : Engine) : (s.setMe e).myCore = s.myCore.setEng s.cur.eng e := by simp [State.setMe]
@[simp] theorem State.me_setMe (s : State) (e : Engine) : (s.setMe e).me = e := by simp [State.me]

theorem State.cores_setMyCore_other (s : State) (c : Core) {k : Nat} (h : k ≠ coreKey s.cur.die s.cur.core) :
    tGet {} (s.setMyCore c).cores k = tGet {} s.cores k := by simp [State.setMyCore, State.setCoreAt, tGet_tSet, h]

end Sys2Proof.Machine
end

