-- ==== Sys2Proof/Laws/Issue.lean ====
section
/-! SUPPORT. What the issue of an instruction, the end of an instruction, and the landing of a result can do: one lemma each, for callers to
cite. -/

namespace Sys2Proof.Machine

/-! ### Issue -/

theorem State.canIssue_iff (s : State) (f : Form) : s.canIssue f = true ↔
    s.curOk = true ∧ f.wf = true ∧ s.mayIssue = true ∧ lowest (s.violations f) = none ∧ (isC s.cur.eng && s.pend.isSome && !f.evterm) = false := by
  simp only [State.canIssue, Bool.and_eq_true, Bool.not_eq_true', Option.isNone_iff_eq_none]
  tauto

/-- An instruction that issues runs its body at the issue clk. -/
theorem issue_eq {s : State} {f : Form} (h : s.canIssue f = true) (body : State → Res State) : issue s f body = finish s.atIssue f (body s.atIssue) := by
  obtain ⟨h1, h2, h3, h4, h5⟩ := (s.canIssue_iff f).1 h
  simp [issue, h1, h2, h3, h4, h5]

theorem issue_ok {s : State} {f : Form} (h : s.canIssue f = true) {body : State → Res State} {t : State} (hb : body s.atIssue = .ok t) :
    issue s f body = .next (t.advance f) := by rw [issue_eq h, hb]; rfl

theorem issue_jump {s : State} {f : Form} (h : s.canIssue f = true) {body : State → Res State} {t : State} (hb : body s.atIssue = .error (.jump t)) :
    issue s f body = .next t.stamp := by rw [issue_eq h, hb]; rfl

theorem issue_wait {s : State} {f : Form} (h : s.canIssue f = true) {body : State → Res State} {t : State} (hb : body s.atIssue = .error (.wait t)) :
    issue s f body = .next t := by rw [issue_eq h, hb]; rfl

theorem issue_trap {s : State} {f : Form} (h : s.canIssue f = true) {body : State → Res State} {t : TrapRec} (hb : body s.atIssue = .error (.trap t)) :
    issue s f body = .next (s.atIssue.takeTrap s.cur t) := by rw [issue_eq h, hb]; rfl

/-- Whatever an instruction does, it is a next state, or the fault of an absent engine or of an ill-formed instruction. -/
theorem issue_cases (s : State) (f : Form) (body : State → Res State) :
    (∃ t, issue s f body = .next t) ∨ (issue s f body = .fault .noEngine ∧ s.curOk = false) ∨ (issue s f body = .fault .illFormed ∧ f.wf = false) := by
  rcases Bool.eq_false_or_eq_true s.curOk with hc | hc
  · rcases Bool.eq_false_or_eq_true f.wf with hw | hw
    · left
      simp only [issue, hc, hw, Bool.true_eq_false, if_false]
      have hf : ∀ r : Res State, ∃ t, finish s.atIssue f r = .next t := fun r => match r with
        | .ok _ => ⟨_, rfl⟩
        | .error (.trap _) => ⟨_, rfl⟩
        | .error (.wait _) => ⟨_, rfl⟩
        | .error (.jump _) => ⟨_, rfl⟩
      cases lowest (s.violations f) <;> dsimp only <;> split_ifs <;> first | exact ⟨_, rfl⟩ | exact hf _
    · exact .inr (.inr ⟨by simp [issue, hc, hw], hw⟩)
  · exact .inr (.inl ⟨by simp [issue, hc], hc⟩)

/-! ### Checks and waits of a body -/

theorem need_ok {ok : Bool} (h : ok = true) (cls sub : Nat) (addr : Word) : need ok cls sub addr = .ok () := by simp [need, h]
theorem need_no {ok : Bool} (h : ok = false) (cls sub : Nat) (addr : Word) : need ok cls sub addr = .error (.trap { cls := cls, sub := sub, addr := addr }) := by
  simp [need, h, stopTrap]
theorem await_ok {ok : Bool} (h : ok = true) (s : State) : await ok s = .ok () := by simp [await, h]
theorem await_no {ok : Bool} (h : ok = false) (s : State) : await ok s = .error (.wait s) := by simp [await, h]
theorem bind_ok {α β : Type} (a : α) (f : α → Res β) : ((.ok a : Res α) >>= f) = f a := rfl
theorem bind_error {α β : Type} (e : Stop) (f : α → Res β) : ((.error e : Res α) >>= f) = .error e := rfl

theorem event_next (s : State) (due : Bool) (f : State → State) : ∃ t, event s due f = .next t := ⟨_, rfl⟩

theorem event_due {s : State} {due : Bool} (h : due = true) (f : State → State) : event s due f = .next (f s.fresh) := by simp [event, h, State.fresh]

/-! ### The end of a body pass -/

@[simp] theorem Engine.wrapBody_x (e : Engine) : e.wrapBody.x = e.x := by unfold Engine.wrapBody; dsimp only; split_ifs <;> rfl
@[simp] theorem Engine.wrapBody_cntReads (e : Engine) : e.wrapBody.cntReads = e.cntReads := by unfold Engine.wrapBody; dsimp only; split_ifs <;> rfl
@[simp] theorem Engine.wrapBody_p (e : Engine) : e.wrapBody.p = e.p := by unfold Engine.wrapBody; dsimp only; split_ifs <;> rfl
@[simp] theorem Engine.wrapBody_b (e : Engine) : e.wrapBody.b = e.b := by unfold Engine.wrapBody; dsimp only; split_ifs <;> rfl

/-- A body pass's end moves the place only. -/
@[simp] theorem Engine.wrapBody_placedAs (e e0 : Engine) : e.wrapBody.placedAs e0 = e.placedAs e0 := by
  unfold Engine.wrapBody; dsimp only; split_ifs <;> rfl

/-! ### The end of an instruction -/

/-- The stream's engine past an instruction of a form. -/
def Engine.moved (e : Engine) (f : Form) (now : Nat) : Engine :=
  ({ e with pos := e.pos + f.len, pfx := [], req := none, gap := if e.hdr.ilk then 0 else f.g, nextIssue := now + 1 + (if e.hdr.ilk then 0 else f.g) } : Engine).wrapBody

/-- The state past an instruction that is not a handler's last: its stream moved on, its command the clk's last. -/
def State.past (u : State) (f : Form) : State := (u.setMe (u.me.moved f u.now)).stamp

/-- The end of an instruction in one equation. -/
theorem State.advance_def (u : State) (f : Form) (heff : f.eff = false) :
    u.advance f = if (decide (u.cur.eng = .h) && decide ((u.me.moved f u.now).phase = .ended)) = true
      then (u.past f).handlerFail u.cur.die u.cur.core else u.past f := by
  unfold State.advance
  simp only [heff, Bool.false_eq_true, if_false]
  rfl

/-- An instruction that is not a handler's last moves its stream on, and nothing else. -/
theorem State.advance_eq (u : State) (f : Form) (heff : f.eff = false) (h : ¬(u.cur.eng = .h ∧ (u.me.moved f u.now).phase = .ended)) :
    u.advance f = u.past f := by
  rw [u.advance_def f heff, if_neg (by simpa using h)]

/-- A handler's last instruction fails the handler (R131). -/
theorem State.advance_ends (u : State) (f : Form) (heff : f.eff = false) (h1 : u.cur.eng = .h) (h2 : (u.me.moved f u.now).phase = .ended) :
    u.advance f = (u.past f).handlerFail u.cur.die u.cur.core := by
  rw [u.advance_def f heff, if_pos (by simp [h1, h2])]

@[simp] theorem Engine.moved_x (e : Engine) (f : Form) (n : Nat) : (e.moved f n).x = e.x := by simp [Engine.moved]
@[simp] theorem Engine.moved_cntReads (e : Engine) (f : Form) (n : Nat) : (e.moved f n).cntReads = e.cntReads := by simp [Engine.moved]
@[simp] theorem Engine.moved_p (e : Engine) (f : Form) (n : Nat) : (e.moved f n).p = e.p := by simp [Engine.moved]
@[simp] theorem Engine.moved_b (e : Engine) (f : Form) (n : Nat) : (e.moved f n).b = e.b := by simp [Engine.moved]
@[simp] theorem Engine.moved_placedAs (e e0 : Engine) (f : Form) (n : Nat) : (e.moved f n).placedAs e0 = e.placedAs e0 := by
  simp [Engine.moved]; rfl

/-! ### The order of one clk -/

@[simp] theorem Core.stamp_eng (c : Core) (n r : Nat) (w : Eng) : (c.stamp n r).eng w = c.eng w := by cases w <;> rfl
@[simp] theorem State.stamp_cur (s : State) : s.stamp.cur = s.cur := rfl
@[simp] theorem State.stamp_now (s : State) : s.stamp.now = s.now := rfl
@[simp] theorem State.stamp_me (s : State) : s.stamp.me = s.me := by simp [State.stamp, State.me]
@[simp] theorem State.stamp_myCore (s : State) : s.stamp.myCore = s.myCore.stamp s.now (engRank s.cur.eng) := by simp [State.stamp]
theorem State.stamp_other (s : State) {k : Nat} (h : k ≠ coreKey s.cur.die s.cur.core) : tGet {} s.stamp.cores k = tGet {} s.cores k := s.cores_setMyCore_other _ h

@[simp] theorem State.past_cur (u : State) (f : Form) : (u.past f).cur = u.cur := rfl
@[simp] theorem State.past_me (u : State) (f : Form) : (u.past f).me = u.me.moved f u.now := by simp [State.past]
@[simp] theorem State.past_myCore (u : State) (f : Form) : (u.past f).myCore = u.mineAs u.myCore (u.me.moved f u.now) := by simp [State.past, State.mineAs]
theorem State.past_other (u : State) (f : Form) {k : Nat} (h : k ≠ coreKey u.cur.die u.cur.core) : tGet {} (u.past f).cores k = tGet {} u.cores k :=
  ((u.setMe _).stamp_other h).trans (u.cores_setMyCore_other _ h)
theorem State.past_shape (u : State) (f : Form) : ∃ c, u.past f = { u with cores := c } := ⟨_, rfl⟩

@[simp] theorem Engine.placedAs_x (e e0 : Engine) : (e.placedAs e0).x = e.x := rfl
@[simp] theorem Engine.placedAs_p (e e0 : Engine) : (e.placedAs e0).p = e.p := rfl
@[simp] theorem Engine.placedAs_self (e : Engine) : e.placedAs e = e := rfl

/-! ### Frames -/

theorem State.CoreOnly.refl (s : State) : s.CoreOnly s := ⟨rfl, fun _ _ => rfl⟩

theorem State.CoreOnly.cur {s t : State} (h : s.CoreOnly t) : t.cur = s.cur := by
  have h1 := congrArg State.cur h.rest
  exact h1

theorem State.CoreOnly.atIssue (s : State) : s.CoreOnly s.atIssue := ⟨rfl, fun _ _ => rfl⟩

theorem State.CoreOnly.trans {s t u : State} (h : s.CoreOnly t) (k : t.CoreOnly u) : s.CoreOnly u where
  rest := by
    have h1 := h.rest
    rw [← k.rest] at h1
    exact h1
  other := fun n hn => by rw [k.other n (by rw [h.cur]; exact hn), h.other n hn]

theorem State.CoreOnly.setMyCore {s t : State} (h : s.CoreOnly t) (c : Core) : s.CoreOnly (t.setMyCore c) := h.trans
  { rest := rfl, other := fun _ hk => t.cores_setMyCore_other c hk }

theorem State.CoreOnly.setMe {s t : State} (h : s.CoreOnly t) (e : Engine) : s.CoreOnly (t.setMe e) := h.setMyCore _

theorem State.CoreOnly.past {s t : State} (h : s.CoreOnly t) (f : Form) : s.CoreOnly (t.past f) := (h.setMe _).setMyCore _

/-- What an instruction's body left of the place of its stream: where it was. -/
structure Engine.StaysAt (e e0 : Engine) : Prop where
  same  : e.hdr = e0.hdr ∧ e.imgLen = e0.imgLen ∧ e.ringSize = e0.ringSize
  phase : e.phase = e0.phase
  pos   : e.pos = e0.pos
  iter  : e.iter = e0.iter
  blk   : e.blk = e0.blk

theorem Engine.StaysAt.refl (e : Engine) : e.StaysAt e := ⟨⟨rfl, rfl, rfl⟩, rfl, rfl, rfl, rfl⟩

/-- Whether a stream ends at an instruction depends on its place and header alone. -/
theorem Engine.moved_phase {e e0 : Engine} (h : e.StaysAt e0) (f : Form) (n : Nat) :
    (e.moved f n).phase = (({ e0 with pos := e0.pos + f.len } : Engine).wrapBody).phase := by
  obtain ⟨⟨hh, hi, hr⟩, a, b, c, d⟩ := h
  have hl : ∀ g n, ({ e with pos := e.pos + f.len, pfx := [], req := none, gap := g, nextIssue := n } : Engine).holdsLast = ({ e0 with pos := e0.pos + f.len } : Engine).holdsLast := by
    intro g n; simp [Engine.holdsLast, hh, hi, hr, d]
  unfold Engine.moved Engine.wrapBody
  simp only [hl]
  simp only [hh, a, b, c]
  split_ifs <;> rfl

/-- An instruction whose body left the place alone and whose stream goes on. -/
theorem State.not_ends {s u : State} {f : Form} (h : s.goesOn f = true) (hc : u.cur = s.cur) (he : u.me.StaysAt s.me) :
    ¬(u.cur.eng = .h ∧ (u.me.moved f u.now).phase = .ended) := by
  rintro ⟨h1, h2⟩
  have hp := Engine.moved_phase he f u.now
  rw [hp] at h2
  rw [hc] at h1
  simp [State.goesOn, h1, h2] at h

@[simp] theorem Engine.landing_x (e : Engine) (n r l : Nat) : (e.landing n r l).x = e.x := by unfold Engine.landing; split <;> rfl
@[simp] theorem Engine.landing_cntReads (e : Engine) (n r l : Nat) : (e.landing n r l).cntReads = e.cntReads := by unfold Engine.landing; split <;> rfl
@[simp] theorem Engine.landing_p (e : Engine) (n r l : Nat) : (e.landing n r l).p = e.p := by unfold Engine.landing; split <;> rfl
@[simp] theorem Engine.landing_b (e : Engine) (n r l : Nat) : (e.landing n r l).b = e.b := by unfold Engine.landing; split <;> rfl
@[simp] theorem Engine.landing_placedAs (e e0 : Engine) (n r l : Nat) : (e.landing n r l).placedAs e0 = e.placedAs e0 := by unfold Engine.landing; split <;> rfl

theorem Engine.StaysAt.landing {e e0 : Engine} (h : e.StaysAt e0) (n r l : Nat) : (e.landing n r l).StaysAt e0 := by
  obtain ⟨⟨a, b, c⟩, d, f, g, i⟩ := h
  unfold Engine.landing
  split
  · exact ⟨⟨a, b, c⟩, d, f, g, i⟩
  · exact ⟨⟨a, b, c⟩, d, f, g, i⟩

/-! ### Results landed -/

@[simp] theorem State.mineAs_setEng (s : State) (c : Core) (e e2 : Engine) : s.mineAs (c.setEng s.cur.eng e) e2 = s.mineAs c e2 := by simp [State.mineAs]
@[simp] theorem State.mineAs_eng (s : State) (c : Core) (e : Engine) : (s.mineAs c e).eng s.cur.eng = e := by simp [State.mineAs]
@[simp] theorem State.mineAs_atIssue (s : State) (c : Core) (e : Engine) : s.atIssue.mineAs c e = s.mineAs c e := rfl

theorem State.CoreOnly.now {s t : State} (h : s.CoreOnly t) : t.now = s.now := by
  have h1 := congrArg State.now h.rest
  exact h1

theorem State.CoreOnly.mineAs {s t : State} (h : s.CoreOnly t) (c : Core) (e : Engine) : t.mineAs c e = s.mineAs c e := by
  unfold State.mineAs; rw [h.cur, h.now]

/-- An instruction whose body changed its own stream alone. -/
theorem State.streamOnly_past {s u : State} (f : Form) (h : s.CoreOnly u) (hc : u.myCore = s.myCore.setEng s.cur.eng u.me) : s.StreamOnly (u.past f) where
  toCoreOnly := h.past f
  core := by rw [State.past_myCore, State.past_me, h.mineAs, hc, s.mineAs_setEng]

theorem State.streamOnly_setMe (s : State) (e : Engine) (f : Form) : s.StreamOnly ((s.atIssue.setMe e).past f) :=
  State.streamOnly_past f ((State.CoreOnly.atIssue s).setMe e) (by rw [State.myCore_setMe, State.me_setMe]; rfl)

theorem State.streamOnly_atIssue (s : State) (f : Form) : s.StreamOnly (s.atIssue.past f) :=
  State.streamOnly_past f (State.CoreOnly.atIssue s) (s.myCore.setEng_eng s.cur.eng).symm

/-- A body that changes nothing, and the end of its instruction: only the place moves. -/
theorem State.placeOnly_advance {s : State} {f : Form} (hg : s.goesOn f = true) (heff : f.eff = false) : s.PlaceOnly (s.atIssue.advance f) := by
  rw [State.advance_eq s.atIssue _ heff (State.not_ends hg rfl (Engine.StaysAt.refl _))]
  exact { toStreamOnly := s.streamOnly_atIssue f, held := by rw [State.past_me, Engine.moved_placedAs]; rfl }

/-- A scalar result landed, and the end of its instruction. -/
theorem State.writesX_landX {s : State} {f : Form} (hg : s.goesOn f = true) (heff : f.eff = false) (d : Nat) (v : Word) (l : Nat) :
    s.WritesX ((s.atIssue.landX d v l).advance f) d v := by
  by_cases hz : isC s.cur.eng = true ∧ d = 0
  · have e : s.atIssue.landX d v l = s.atIssue := by simp [State.landX, hz]
    rw [e, State.advance_eq s.atIssue _ heff (State.not_ends hg rfl (Engine.StaysAt.refl _))]
    exact { toStreamOnly := s.streamOnly_atIssue f, held := by rw [State.past_me, Engine.moved_placedAs]; rfl,
            regs := fun r => by rw [if_neg (fun hr => hr.2 hz), State.past_me, Engine.moved_x]; rfl }
  · have e : s.atIssue.landX d v l = s.atIssue.setMe
        (({ s.me with x := tSet 0 s.me.x d v, cntReads := s.me.cntReads.filter (fun r => r.d ≠ d) } : Engine).landing s.now (idX d) l) := by
      unfold State.landX
      rw [if_neg (by simpa using hz)]
      rfl
    have st : (s.atIssue.landX d v l).me.StaysAt s.me := by
      rw [e, State.me_setMe]
      refine Engine.StaysAt.landing ?_ _ _ _
      exact ⟨⟨rfl, rfl, rfl⟩, rfl, rfl, rfl, rfl⟩
    rw [State.advance_eq _ _ heff (State.not_ends hg (by rw [e]; rfl) st), e]
    exact { toStreamOnly := s.streamOnly_setMe _ f, held := by rw [State.past_me, State.me_setMe, Engine.moved_placedAs, Engine.landing_placedAs]; rfl,
            regs := fun r => by rw [State.past_me, State.me_setMe, Engine.moved_x, Engine.landing_x, tGet_tSet]; by_cases hr : r = d <;> simp [hr, hz] }

theorem getLsbD_setBit (p : BitVec 8) (d r : Nat) (v : Bool) (hd : d < 8) (hr : r < 8) :
    (BitVec.ofNat 8 (p.toNat - b2n (p.getLsbD d) * 2 ^ d + b2n v * 2 ^ d)).getLsbD r = if r = d then v else p.getLsbD r := by
  have H : ∀ p : BitVec 8, ∀ d : Fin 8, ∀ r : Fin 8, ∀ v : Bool,
      (BitVec.ofNat 8 (p.toNat - b2n (p.getLsbD d) * 2 ^ d.val + b2n v * 2 ^ d.val)).getLsbD r = if r.val = d.val then v else p.getLsbD r := by decide
  exact H p ⟨d, hd⟩ ⟨r, hr⟩ v

/-- A predicate landed, and the end of its instruction. -/
theorem State.writesP_landP {s : State} {f : Form} (hg : s.goesOn f = true) (heff : f.eff = false) (d : Nat) (hd : d < 8) (v : Bool) (l : Nat) :
    s.WritesP ((s.atIssue.landP d v l).advance f) d v := by
  by_cases hz : d = 0
  · have e : s.atIssue.landP d v l = s.atIssue := by simp [State.landP, hz]
    rw [e, State.advance_eq s.atIssue _ heff (State.not_ends hg rfl (Engine.StaysAt.refl _))]
    exact { toStreamOnly := s.streamOnly_atIssue f, held := by rw [State.past_me, Engine.moved_placedAs]; rfl,
            preds := fun r _ => by rw [State.past_me, Engine.moved_p]; simp [hz] }
  · have e : s.atIssue.landP d v l = s.atIssue.setMe (({ s.me with p := BitVec.ofNat 8 (s.me.p.toNat - b2n (s.me.p.getLsbD d) * 2 ^ d + b2n v * 2 ^ d) } : Engine).landing s.now (idP d) l) := by
      unfold State.landP
      rw [if_neg hz]
      rfl
    have st : (s.atIssue.landP d v l).me.StaysAt s.me := by
      rw [e, State.me_setMe]
      refine Engine.StaysAt.landing ?_ _ _ _
      exact ⟨⟨rfl, rfl, rfl⟩, rfl, rfl, rfl, rfl⟩
    rw [State.advance_eq _ _ heff (State.not_ends hg (by rw [e]; rfl) st), e]
    exact { toStreamOnly := s.streamOnly_setMe _ f, held := by rw [State.past_me, State.me_setMe, Engine.moved_placedAs, Engine.landing_placedAs]; rfl,
            preds := fun r hr => by rw [State.past_me, State.me_setMe, Engine.moved_p, Engine.landing_p]; simp only [getLsbD_setBit _ _ _ _ hd hr]; simp [hz] }

/-- A branch register landed, and the end of its instruction. -/
theorem State.writesB_landB {s : State} {f : Form} (hg : s.goesOn f = true) (heff : f.eff = false) (d : Nat) (v : Word) (l : Nat) :
    s.WritesB ((s.atIssue.landB d v l).advance f) d v := by
  have e : s.atIssue.landB d v l = s.atIssue.setMe (({ s.me with b := tSet 0 s.me.b d v } : Engine).landing s.now (idB d) l) := rfl
  have st : (s.atIssue.landB d v l).me.StaysAt s.me := by
    rw [e, State.me_setMe]
    refine Engine.StaysAt.landing ?_ _ _ _
    exact ⟨⟨rfl, rfl, rfl⟩, rfl, rfl, rfl, rfl⟩
  rw [State.advance_eq _ _ heff (State.not_ends hg (by rw [e]; rfl) st), e]
  exact { toStreamOnly := s.streamOnly_setMe _ f, held := by rw [State.past_me, State.me_setMe, Engine.moved_placedAs, Engine.landing_placedAs]; rfl,
          regs := fun r => by rw [State.past_me, State.me_setMe, Engine.moved_b, Engine.landing_b, tGet_tSet] }

end Sys2Proof.Machine
end

