-- ==== Sys2Proof/Laws/Scalar.lean ====
section
/-! SUPPORT. What the shared operations of the compact, integer, compare and predicate forms do when their instruction issues: one lemma
each. -/

namespace Sys2Proof.Machine

theorem State.issues_iff {s : State} {f : Form} : s.issues f = true ↔ s.canIssue f = true ∧ s.goesOn f = true := by simp [State.issues]

/-- A body that lands a scalar register. -/
theorem landX_next {s : State} {f : Form} (h : s.issues f = true) (heff : f.eff = false) {body : State → Res State} {d : Nat} {v : Word} {l : Nat}
    (hb : body s.atIssue = .ok (s.atIssue.landX d v l)) : ∃ t, issue s f body = .next t ∧ s.WritesX t d v :=
  ⟨_, issue_ok (State.issues_iff.1 h).1 hb, State.writesX_landX (State.issues_iff.1 h).2 heff d v l⟩

/-- A body that lands a predicate. -/
theorem landP_next {s : State} {f : Form} (h : s.issues f = true) (heff : f.eff = false) {body : State → Res State} {d : Nat} (hd : d < 8) {v : Bool}
    {l : Nat} (hb : body s.atIssue = .ok (s.atIssue.landP d v l)) : ∃ t, issue s f body = .next t ∧ s.WritesP t d v :=
  ⟨_, issue_ok (State.issues_iff.1 h).1 hb, State.writesP_landP (State.issues_iff.1 h).2 heff d hd v l⟩

/-- A body that lands a branch register. -/
theorem landB_next {s : State} {f : Form} (h : s.issues f = true) (heff : f.eff = false) {body : State → Res State} {d : Nat} {v : Word} {l : Nat}
    (hb : body s.atIssue = .ok (s.atIssue.landB d v l)) : ∃ t, issue s f body = .next t ∧ s.WritesB t d v :=
  ⟨_, issue_ok (State.issues_iff.1 h).1 hb, State.writesB_landB (State.issues_iff.1 h).2 heff d v l⟩

/-- A body that changes nothing. -/
theorem place_next {s : State} {f : Form} (h : s.issues f = true) (heff : f.eff = false) {body : State → Res State} (hb : body s.atIssue = .ok s.atIssue) :
    ∃ t, issue s f body = .next t ∧ s.PlaceOnly t :=
  ⟨_, issue_ok (State.issues_iff.1 h).1 hb, State.placeOnly_advance (State.issues_iff.1 h).2 heff⟩

theorem compact_next {s : State} {d : BitVec 5} {rs : List (BitVec 5)} (h : s.issues (compactForm s (d :: rs)) = true) (f : State → Word) :
    ∃ t, compact d rs f s = .next t ∧ s.WritesX t d.toNat (f s.atIssue) := landX_next h rfl rfl

theorem aluRR_next {s : State} {d a b : BitVec 6} {g : BitVec 3} (h : s.issues (fAll g (s.regs [d.toNat, a.toNat, b.toNat])) = true) (l : Nat)
    (f : Word → Word → Word) : ∃ t, aluRR d a b g l f s = .next t ∧ s.WritesX t d.toNat (f (s.atIssue.rx a.toNat) (s.atIssue.rx b.toNat 1)) :=
  landX_next h rfl rfl

theorem aluRI_next {s : State} {d a : BitVec 6} {g : BitVec 3} (h : s.issues { fAll g (s.regs [d.toNat, a.toNat]) with ext := true } = true) (i : BitVec 9)
    (f : Word → Word → Word) : ∃ t, aluRI d a i g f s = .next t ∧ s.WritesX t d.toNat (f (s.atIssue.rx a.toNat) (s.atIssue.simm i.toNat 9)) :=
  landX_next h rfl rfl

theorem aluRS_next {s : State} {d a : BitVec 6} {g : BitVec 3} (h : s.issues (fAll g (s.regs [d.toNat, a.toNat])) = true) (sh : BitVec 6)
    (f : Word → Nat → Word) : ∃ t, aluRS d a sh g f s = .next t ∧ s.WritesX t d.toNat (f (s.atIssue.rx a.toNat) sh.toNat) := landX_next h rfl rfl

theorem predOp_next {s : State} {d a b g : BitVec 3} (h : s.issues (fAll g (s.preds [d.toNat, a.toNat, b.toNat])) = true) (f : Bool → Bool → Bool) :
    ∃ t, predOp d a b g f s = .next t ∧ s.WritesP t d.toNat (f (s.atIssue.rp a.toNat) (s.atIssue.rp b.toNat 1)) := landP_next h rfl d.isLt rfl

/-- A five-bit immediate sign-extended. -/
theorem sext_five (i : BitVec 5) : sext i.toNat 5 = i.signExtend 64 := by revert i; decide

end Sys2Proof.Machine
end

