-- ==== Sys2Proof/Laws/Access.lean ====
section
/-! SUPPORT. What scalar memory instructions can do: registers landed, trace entries, global accesses, and the frames of whole
instructions. -/

namespace Sys2Proof.Machine

theorem State.LoadOnly.cur {s t : State} (h : s.LoadOnly t) : t.cur = s.cur := by
  have h1 := congrArg State.cur h.rest
  exact h1

theorem State.AccessOnly.cur {s t : State} (h : s.AccessOnly t) : t.cur = s.cur := by
  have h1 := congrArg State.cur h.rest
  exact h1

/-! ### Registers landed -/

/-- Scalar registers of the current stream landed, and nothing else. -/
structure State.Lands (s u : State) : Prop where
  shape : ∃ c, u = { s with cores := c }
  other : ∀ k, k ≠ coreKey s.cur.die s.cur.core → tGet {} u.cores k = tGet {} s.cores k
  core  : u.myCore = s.myCore.setEng s.cur.eng u.me
  me    : ∃ x r b, u.me = { s.me with x := x, cntReads := r, busy := b }

theorem State.Lands.refl (s : State) : s.Lands s := ⟨⟨_, rfl⟩, fun _ _ => rfl, by simp [State.me], ⟨_, _, _, rfl⟩⟩

theorem State.Lands.now {s u : State} (h : s.Lands u) : u.now = s.now := by obtain ⟨c, e⟩ := h.shape; rw [e]

theorem State.Lands.cur {s u : State} (h : s.Lands u) : u.cur = s.cur := by obtain ⟨c, e⟩ := h.shape; rw [e]

theorem State.Lands.trans {s u w : State} (h : s.Lands u) (k : u.Lands w) : s.Lands w where
  shape := by obtain ⟨c, e⟩ := h.shape; obtain ⟨d, f⟩ := k.shape; exact ⟨d, by rw [f, e]⟩
  other := fun n hn => by rw [k.other n (by rw [h.cur]; exact hn), h.other n hn]
  core := by rw [k.core, h.core, h.cur]; simp
  me := by obtain ⟨x, r, b, e⟩ := h.me; obtain ⟨y, q, c, f⟩ := k.me; exact ⟨y, q, c, by rw [f, e]⟩

theorem State.lands_landX (s : State) (d : Nat) (v : Word) (l : Nat) : s.Lands (s.landX d v l) := by
  unfold State.landX
  split
  · exact State.Lands.refl s
  · refine ⟨⟨_, rfl⟩, fun k hk => s.cores_setMyCore_other _ hk, by simp, ?_⟩
    simp only [State.me_setMe, Engine.landing]
    split <;> exact ⟨_, _, _, rfl⟩

theorem State.landX_regs (s : State) (d : Nat) (v : Word) (l r : Nat) :
    tGet 0 (s.landX d v l).me.x r = if r = d ∧ ¬(isC s.cur.eng = true ∧ d = 0) then v else tGet 0 s.me.x r := by
  unfold State.landX
  split
  · next h => rw [if_neg]; simp at h ⊢; tauto
  · next h =>
    simp only [State.me_setMe, Engine.landing_x, tGet_tSet]
    by_cases hr : r = d
    · rw [if_pos hr, if_pos ⟨hr, by simpa using h⟩]
    · rw [if_neg hr, if_neg (fun x => hr x.1)]

theorem State.regs_landLoad (s : State) (d m : Nat) (bs : List Byte) (l : Nat) : s.Regs (s.landLoad d m bs l) (loaded d m bs) := by
  intro r
  unfold State.landLoad loaded
  simp only
  have hc : ∀ v, (s.landX d v l).cur = s.cur := fun v => (s.lands_landX d v l).cur
  split
  · rw [State.landX_regs, State.landX_regs, hc]
    by_cases h1 : r = d <;> by_cases h2 : r = d + 1 <;> by_cases h3 : isC s.cur.eng = true <;> by_cases h4 : r = 0 <;> simp_all
  · rw [State.landX_regs]
    by_cases h1 : r = d <;> by_cases h3 : isC s.cur.eng = true <;> by_cases h4 : r = 0 <;> simp_all

theorem State.lands_landLoad (s : State) (d m : Nat) (bs : List Byte) (l : Nat) : s.Lands (s.landLoad d m bs l) := by
  unfold State.landLoad
  simp only
  split
  · exact (s.lands_landX _ _ _).trans (State.lands_landX _ _ _ _)
  · exact s.lands_landX _ _ _

theorem State.regs_landOld (s : State) (d n old l : Nat) : s.Regs (s.landOld d n old l) (landedOld d n old) := by
  intro r
  unfold State.landOld landedOld
  have hc : ∀ v, (s.landX d v l).cur = s.cur := fun v => (s.lands_landX d v l).cur
  split
  · rw [State.landX_regs, State.landX_regs, hc]
    by_cases h1 : r = d <;> by_cases h2 : r = d + 1 <;> by_cases h3 : isC s.cur.eng = true <;> by_cases h4 : r = 0 <;> simp_all
  · rw [State.landX_regs]
    by_cases h1 : r = d <;> by_cases h3 : isC s.cur.eng = true <;> by_cases h4 : r = 0 <;> simp_all

theorem State.lands_landOld (s : State) (d n old l : Nat) : s.Lands (s.landOld d n old l) := by
  unfold State.landOld
  split
  · exact (s.lands_landX _ _ _).trans (State.lands_landX _ _ _ _)
  · exact s.lands_landX _ _ _

/-! ### Trace entries -/

/-- A raise changes the counters, when terms hold, and EVSAT. -/
theorem Core.raiseCnt_shape (c : Core) (now e n : Nat) : ∃ x y z, c.raiseCnt now e n = { c with cnt := x, evsat := y, tsince := z } := by
  unfold Core.raiseCnt Core.retime; simp only; split <;> exact ⟨_, _, _, rfl⟩

theorem trigRaise_shape (now k : Nat) (p : Word) (t : Trigger) (c : Core) : ∃ x y z, trigRaise now k p t c = { c with cnt := x, evsat := y, tsince := z } := by
  unfold trigRaise
  split
  · exact c.raiseCnt_shape _ _ _
  · exact ⟨_, _, _, rfl⟩

/-- A trace entry changes the trace buffer and what its triggers raise. -/
theorem Core.traced_shape (c : Core) (now cy : Nat) (e : Eng) (k a : Nat) (p : Word) :
    ∃ x y z w, c.traced now cy e k a p = { c with cnt := x, evsat := y, tsince := z, trace := w } := by
  unfold Core.traced
  simp only
  generalize (if (c.trace.record cy e k a p).fires k p && (c.trace.record cy e k a p).left.isNone then _ else c.trace.record cy e k a p : Trace) = X
  generalize X.t0 = t0, X.t1 = t1, X.t2 = t2, X.t3 = t3
  have go : ∀ (t : Trigger) (d : Core), (∃ x y z w, d = { c with cnt := x, evsat := y, tsince := z, trace := w }) →
      ∃ x y z w, trigRaise now k p t d = { c with cnt := x, evsat := y, tsince := z, trace := w } := by
    rintro t d ⟨x, y, z, w, rfl⟩
    obtain ⟨x1, y1, z1, h⟩ := trigRaise_shape now k p t { c with cnt := x, evsat := y, tsince := z, trace := w }
    exact ⟨x1, y1, z1, w, h⟩
  exact go _ _ (go _ _ (go _ _ (go _ _ ⟨_, _, _, X, rfl⟩)))

@[simp] theorem Core.traced_eng (c : Core) (now cy : Nat) (e : Eng) (k a : Nat) (p : Word) (w : Eng) : (c.traced now cy e k a p).eng w = c.eng w := by
  obtain ⟨x, y, z, v, h⟩ := c.traced_shape now cy e k a p
  rw [h]; cases w <;> rfl

@[simp] theorem State.trace_me (s : State) (k a : Nat) (p : Word) : (s.trace k a p).me = s.me := by simp [State.trace, State.me]
@[simp] theorem State.trace_cur (s : State) (k a : Nat) (p : Word) : (s.trace k a p).cur = s.cur := rfl
@[simp] theorem State.trace_mem (s : State) (k a : Nat) (p : Word) : (s.trace k a p).mem = s.mem := rfl

theorem State.trace_myCore (s : State) (k a : Nat) (p : Word) :
    ∃ x y z w, (s.trace k a p).myCore = { s.myCore with cnt := x, evsat := y, tsince := z, trace := w } := by
  obtain ⟨x, y, z, w, h⟩ := s.myCore.traced_shape s.now (s.cycle s.cur.die) s.cur.eng k a p
  exact ⟨x, y, z, w, by simp [State.trace, h]⟩

/-- A state that differs by trace entries of the current core alone. -/
structure State.TracedTo (u w : State) : Prop where
  shape : ∃ c, w = { u with cores := c }
  other : ∀ k, k ≠ coreKey u.cur.die u.cur.core → tGet {} w.cores k = tGet {} u.cores k
  core  : ∃ x y z t, w.myCore = { u.myCore with cnt := x, evsat := y, tsince := z, trace := t }

theorem State.TracedTo.refl (u : State) : u.TracedTo u := ⟨⟨_, rfl⟩, fun _ _ => rfl, ⟨_, _, _, _, rfl⟩⟩

theorem State.tracedTo_trace (u : State) (k a : Nat) (p : Word) : u.TracedTo (u.trace k a p) :=
  ⟨⟨_, rfl⟩, fun _ hn => u.cores_setMyCore_other _ hn, u.trace_myCore k a p⟩

theorem State.TracedTo.cur {u w : State} (h : u.TracedTo w) : w.cur = u.cur := by obtain ⟨c, e⟩ := h.shape; rw [e]

theorem State.TracedTo.now {u w : State} (h : u.TracedTo w) : w.now = u.now := by obtain ⟨c, e⟩ := h.shape; rw [e]

theorem State.TracedTo.me {u w : State} (h : u.TracedTo w) : w.me = u.me := by
  obtain ⟨x, y, z, t, e⟩ := h.core
  simp only [State.me, e, h.cur]
  cases u.cur.eng <;> rfl

/-! ### The end of a load -/

/-- The place of a stream after registers have landed. -/
theorem State.Lands.staysAt {s u : State} (h : s.Lands u) : u.me.StaysAt s.me := by
  obtain ⟨x, r, b, e⟩ := h.me
  rw [e]
  exact ⟨⟨rfl, rfl, rfl⟩, rfl, rfl, rfl, rfl⟩

/-- A stream moved on past an instruction whose body landed scalar registers holds what it held, those registers aside. -/
theorem Engine.moved_held {e e0 : Engine} (h : ∃ x r b, e = { e0 with x := x, cntReads := r, busy := b }) (f : Form) (n : Nat) :
    ({ (e.moved f n).placedAs e0 with x := e0.x, cntReads := e0.cntReads } : Engine) = e0 := by
  obtain ⟨x, r, b, rfl⟩ := h
  simp only [Engine.moved_placedAs]
  rfl

/-- The state from which a load's registers land: owner tags, SPOV and the order of a clk aside, that of issue. -/
structure State.LoadedFrom (s v : State) : Prop where
  shape : ∃ c g, v = { s.atIssue with cores := c, tags := g }
  other : ∀ k, k ≠ coreKey s.cur.die s.cur.core → ∃ l r, tGet {} v.cores k = { tGet {} s.cores k with lastClk := l, lastRank := r }
  core  : ∃ b l r, v.myCore = { s.myCore with spov := b, lastClk := l, lastRank := r }

theorem State.LoadedFrom.cur {s v : State} (h : s.LoadedFrom v) : v.cur = s.cur := by obtain ⟨c, g, e⟩ := h.shape; rw [e]; rfl
theorem State.LoadedFrom.me {s v : State} (h : s.LoadedFrom v) : v.me = s.me := by
  obtain ⟨b, l, r, e⟩ := h.core
  simp only [State.me, e, h.cur]
  cases s.cur.eng <;> rfl
theorem State.LoadedFrom.now {s v : State} (h : s.LoadedFrom v) : v.now = s.now := by obtain ⟨c, g, e⟩ := h.shape; rw [e]; rfl

/-- The end of a load: its frame, and what its registers, the owner tags and SPOV hold. -/
theorem State.load_end {s v u w : State} {f : Form} (hg : s.goesOn f = true) (heff : f.eff = false) (hv : s.LoadedFrom v) (hu : v.Lands u) (hw : u.TracedTo w) :
    s.LoadOnly (w.advance f) ∧ (w.advance f).me.x = u.me.x ∧ (w.advance f).tags = v.tags ∧ (w.advance f).myCore.spov = v.myCore.spov := by
  have hc : w.cur = s.cur := by rw [hw.cur, hu.cur, hv.cur]
  have hn : w.now = s.now := by rw [hw.now, hu.now, hv.now]
  have st : w.me.StaysAt s.me := by rw [hw.me, ← hv.me]; exact hu.staysAt
  rw [State.advance_eq w f heff (State.not_ends hg hc st)]
  refine ⟨⟨?_, ?_, ?_, ?_⟩, ?_, ?_, ?_⟩
  · obtain ⟨c, g, e1⟩ := hv.shape
    obtain ⟨d, e2⟩ := hu.shape
    obtain ⟨k, e3⟩ := hw.shape
    rw [e3, e2, e1]
    rfl
  · intro k hk
    rw [w.past_other f (by rw [hc]; exact hk), hw.other k (by rw [hu.cur, hv.cur]; exact hk), hu.other k (by rw [hv.cur]; exact hk)]
    exact hv.other k hk
  · obtain ⟨b, l, r, e1⟩ := hv.core
    obtain ⟨x, y, z, t, e3⟩ := hw.core
    rw [State.past_myCore, State.past_me, State.mineAs, State.mineAs, hc, hn, e3, hu.core, e1, hv.cur]
    cases s.cur.eng <;> rfl
  · rw [State.past_me, hw.me]
    refine Engine.moved_held ?_ _ _
    rw [← hv.me]
    exact hu.me
  · rw [State.past_me, Engine.moved_x, hw.me]
  · obtain ⟨d, e2⟩ := hu.shape
    obtain ⟨k, e3⟩ := hw.shape
    rw [e3, e2]
    rfl
  · obtain ⟨x, y, z, t, e3⟩ := hw.core
    rw [State.past_myCore, State.mineAs, e3, hu.core]
    cases w.cur.eng <;> cases v.cur.eng <;> rfl

/-! ### Global accesses -/

theorem State.own_shape {s u : State} {die core : Nat} {t : Option RunTask} {p : Phys} {va n : Nat} {wr : Bool} (h : s.own die core t p va n wr = .ok u) :
    ∃ g, u = { s with tags := g } := by
  unfold State.own at h
  split at h
  · cases h; exact ⟨_, rfl⟩
  · split at h
    · cases h; exact ⟨_, rfl⟩
    · cases h

/-- An address in the aperture passes no check but its own (R272). -/
theorem State.check_aperture {s : State} {posted : Bool} {ctx : Nat} {foot : Option (List Range)} {cl : List Nat} {va n : Nat} {wr : Bool} {p : Phys}
    (h : s.checkFor posted ctx foot cl va n wr = .ok p) : inAperture va = false := by
  unfold State.checkFor at h
  cases hi : inAperture va
  · rfl
  · simp [hi] at h

/-- A global load that passes reads its bytes through the core's port. -/
theorem State.LoadsAt.reads {s u : State} {i : Instr} {rq ea n : Nat} {foot : Option (List Range)} {p : Phys} (h : s.LoadsAt ea n foot p u)
    (ho : 2 ≤ p.mtype → s.reqOut i rq = true) : s.globalLoad i rq ea n foot = .ok (s.portBytes s.cur.die s.cur.core p.key p.home n, u) := by
  have ha := State.check_aperture h.check
  have hw : (!(decide (2 ≤ p.mtype) && !s.reqOut i rq)) = true := by
    rcases Nat.lt_or_ge 1 p.mtype with h1 | h1
    · simp [ho h1]
    · simp [show ¬2 ≤ p.mtype by omega]
  simp [State.globalLoad, ha, h.check, h.own, h.order, h.ready, liftAt, liftTrap, await, asReq, bind, Except.bind, pure, Except.pure, hw]

/-- A global load of a device or strongly ordered page leaves the core first (R124). -/
theorem State.LoadsAt.leaves {s u : State} {i : Instr} {rq ea n : Nat} {foot : Option (List Range)} {p : Phys} (h : s.LoadsAt ea n foot p u) (hm : 2 ≤ p.mtype)
    (ho : s.reqOut i rq = false) : s.globalLoad i rq ea n foot = .error (.wait (s.noteReq i rq true)) := by
  have ha := State.check_aperture h.check
  simp [State.globalLoad, ha, h.check, h.own, h.order, h.ready, liftAt, liftTrap, await, asReq, bind, Except.bind, hm, ho]

theorem State.loadedFrom_own {s u : State} {die core : Nat} {t : Option RunTask} {p : Phys} {va n : Nat} {wr : Bool}
    (h : s.atIssue.own die core t p va n wr = .ok u) : s.LoadedFrom u := by
  obtain ⟨g, rfl⟩ := State.own_shape h
  exact ⟨⟨_, _, rfl⟩, fun _ _ => ⟨_, _, rfl⟩, ⟨_, _, _, rfl⟩⟩

theorem State.loadedFrom_setSpov {s v : State} (h : s.LoadedFrom v) : s.LoadedFrom v.setSpov := by
  obtain ⟨⟨c, g, e⟩, o, b, l, r, k⟩ := h
  have hc : v.cur = s.cur := by rw [e]; rfl
  refine ⟨⟨(v.setSpov).cores, g, ?_⟩, fun n hn => ?_, true, l, r, ?_⟩
  · subst e; rfl
  · rw [State.setSpov, State.cores_setMyCore_other _ _ (by rw [hc]; exact hn)]
    exact o n hn
  · simp [State.setSpov, k]

theorem State.loadedFrom_atIssue (s : State) : s.LoadedFrom s.atIssue := ⟨⟨_, _, rfl⟩, fun _ _ => ⟨_, _, rfl⟩, ⟨_, _, _, rfl⟩⟩

/-- A core's clk stamped from outside: no more. -/
theorem State.stampRemote_shape (s : State) (die core : Nat) : (∃ c, s.stampRemote die core = { s with cores := c }) ∧
    ∀ k, ∃ l r, tGet {} (s.stampRemote die core).cores k = { tGet {} s.cores k with lastClk := l, lastRank := r } := by
  refine ⟨⟨_, rfl⟩, fun k => ?_⟩
  by_cases h : k = coreKey die core
  · refine ⟨s.now, remoteRank, ?_⟩
    rw [h]
    exact tGet_tSet_same _ _ _ _
  · exact ⟨_, _, (tGet_tSet_other _ _ _ h).trans rfl⟩

theorem State.loadedFrom_stampRemote (s : State) (die core : Nat) : s.LoadedFrom (s.atIssue.stampRemote die core) := by
  obtain ⟨⟨c, e⟩, h⟩ := s.atIssue.stampRemote_shape die core
  refine ⟨⟨c, _, e⟩, fun k _ => h k, ?_⟩
  obtain ⟨l, r, h2⟩ := h (coreKey s.cur.die s.cur.core)
  exact ⟨_, l, r, h2⟩

theorem State.LoadedFrom.regs {s v u t : State} {f : Nat → Option Word} (hv : s.LoadedFrom v) (h : v.Regs u f) (ht : t.me.x = u.me.x) : s.Regs t f := by
  intro r
  have := h r
  rw [hv.cur, hv.me] at this
  rw [ht, this]

/-- A load whose body lands bytes, and perhaps makes a trace entry. -/
theorem load_next {s v u w : State} {f : Form} {body : State → Res State} {d m : Nat} {bs : List Byte} {l : Nat} (h : s.issues f = true) (heff : f.eff = false)
    (hv : s.LoadedFrom v) (hu : u = v.landLoad d m bs l) (hw : u.TracedTo w) (hb : body s.atIssue = .ok w) :
    ∃ t, issue s f body = .next t ∧ s.LoadOnly t ∧ t.tags = v.tags ∧ t.myCore.spov = v.myCore.spov ∧ s.Regs t (loaded d m bs) := by
  subst hu
  obtain ⟨h1, h2⟩ := State.issues_iff.1 h
  obtain ⟨a, b, c, e⟩ := State.load_end h2 heff hv (v.lands_landLoad d m bs l) hw
  exact ⟨_, issue_ok h1 hb, a, c, e, hv.regs (v.regs_landLoad d m bs l) b⟩

/-! ### The end of a store or an atomic -/

/-- The state that a store or atomic leaves before its registers land. -/
structure State.StoredFrom (s v : State) : Prop where
  shape : ∃ c g m k q, v = { s.atIssue with cores := c, tags := g, mem := m, keyTag := k, posts := q }
  core  : ∃ a b c d e f g l r, v.myCore =
    { s.myCore with spov := a, storeq := b, task := c, scratch := d, sectors := e, posted := f, nextPid := g, lastClk := l, lastRank := r }

theorem State.StoredFrom.cur {s v : State} (h : s.StoredFrom v) : v.cur = s.cur := by obtain ⟨c, g, m, k, q, e⟩ := h.shape; rw [e]; rfl
theorem State.StoredFrom.me {s v : State} (h : s.StoredFrom v) : v.me = s.me := by
  obtain ⟨a, b, c, d, e, f, g, l, r, k⟩ := h.core
  simp only [State.me, k, h.cur]
  cases s.cur.eng <;> rfl
theorem State.StoredFrom.now {s v : State} (h : s.StoredFrom v) : v.now = s.now := by obtain ⟨c, g, m, k, q, e⟩ := h.shape; rw [e]; rfl

theorem State.StoredFrom.regs {s v u t : State} {f : Nat → Option Word} (hv : s.StoredFrom v) (h : v.Regs u f) (ht : t.me.x = u.me.x) : s.Regs t f := by
  intro r
  have := h r
  rw [hv.cur, hv.me] at this
  rw [ht, this]

/-- What of a state the end of an instruction leaves, place and registers aside. -/
structure State.Ends (v t : State) (tk : Option RunTask) : Prop where
  mem     : t.mem = v.mem
  keyTag  : t.keyTag = v.keyTag
  tags    : t.tags = v.tags
  posts   : t.posts = v.posts
  storeq  : t.myCore.storeq = v.myCore.storeq
  scratch : t.myCore.scratch = v.myCore.scratch
  sectors : t.myCore.sectors = v.myCore.sectors
  spov    : t.myCore.spov = v.myCore.spov
  posted  : t.myCore.posted = v.myCore.posted
  task    : t.myCore.task = tk
  others  : ∀ k, k ≠ coreKey v.cur.die v.cur.core → tGet {} t.cores k = tGet {} v.cores k

theorem State.access_end_from {s v u w w' : State} {f : Form} {tk : Option RunTask} (hg : s.goesOn f = true) (heff : f.eff = false) (hv : s.StoredFrom v)
    (hu : v.Lands u) (hw : u.TracedTo w) (hs : ∃ c, w' = { w with cores := c })
    (ho : ∀ k, k ≠ coreKey s.cur.die s.cur.core → tGet {} w'.cores k = tGet {} w.cores k) (hk : w'.myCore = { w.myCore with task := tk }) :
    s.AccessOnly (w'.advance f) ∧ (w'.advance f).me.x = u.me.x ∧ v.Ends (w'.advance f) tk := by
  have hc : w.cur = s.cur := by rw [hw.cur, hu.cur, hv.cur]
  obtain ⟨c4, e4⟩ := hs
  have hc' : w'.cur = s.cur := by rw [e4]; exact hc
  have hn : w'.now = s.now := by rw [e4]; exact (hw.now.trans hu.now).trans hv.now
  have hme : w'.me = w.me := by
    simp only [State.me, hk, hc', hc]
    cases s.cur.eng <;> rfl
  have st : w'.me.StaysAt s.me := by rw [hme, hw.me, ← hv.me]; exact hu.staysAt
  obtain ⟨c1, g1, m1, k1, q1, e1⟩ := hv.shape
  obtain ⟨c2, e2⟩ := hu.shape
  obtain ⟨c3, e3⟩ := hw.shape
  obtain ⟨a, b, c, d, e, f', g, l, r, k⟩ := hv.core
  obtain ⟨x, y, z, t, k3⟩ := hw.core
  have hcore : (w'.past f).myCore =
      s.mineAs ({ v.myCore.setEng s.cur.eng u.me with cnt := x, evsat := y, tsince := z, trace := t, task := tk } : Core) (w'.me.moved f w'.now) := by
    rw [State.past_myCore, State.mineAs, State.mineAs, hc', hn, hk, k3, hu.core, hv.cur]
  rw [State.advance_eq w' f heff (State.not_ends hg hc' st)]
  refine ⟨⟨?_, ?_, ?_⟩, ?_, ?_⟩
  · rw [e4, e3, e2, e1]; rfl
  · rw [hcore, k, State.past_me, State.mineAs, State.mineAs]
    cases s.cur.eng <;> rfl
  · rw [State.past_me, hme, hw.me]
    refine Engine.moved_held ?_ _ _
    rw [← hv.me]
    exact hu.me
  · rw [State.past_me, Engine.moved_x, hme, hw.me]
  · constructor
    · rw [e4, e3, e2]; rfl
    · rw [e4, e3, e2]; rfl
    · rw [e4, e3, e2]; rfl
    · rw [e4, e3, e2]; rfl
    all_goals try (rw [hcore, State.mineAs]; cases s.cur.eng <;> rfl)
    · intro n hn
      rw [hv.cur] at hn
      rw [w'.past_other f (by rw [hc']; exact hn), ho n hn, hw.other n (by rw [hu.cur, hv.cur]; exact hn), hu.other n (by rw [hv.cur]; exact hn)]

/-- The end of an instruction that leaves effects behind marks its task first. -/
theorem State.advance_eff (w : State) {f : Form} (heff : f.eff = true) : w.advance f = w.markEffect.advance { f with eff := false } := by
  unfold State.advance
  simp only [heff, if_true, Bool.false_eq_true, if_false]

/-- The end of a store or atomic: its frame, and what it leaves. -/
theorem State.access_end {s v u w : State} {f : Form} (hg : s.goesOn f = true) (heff : f.eff = true) (hv : s.StoredFrom v) (hu : v.Lands u) (hw : u.TracedTo w) :
    s.AccessOnly (w.advance f) ∧ (w.advance f).me.x = u.me.x ∧ v.Ends (w.advance f) v.myCore.marked.task := by
  have e := w.advance_eff heff
  have hc : w.cur = s.cur := by rw [hw.cur, hu.cur, hv.cur]
  have ht : w.myCore.marked.task = v.myCore.marked.task := by
    obtain ⟨x, y, z, t, k3⟩ := hw.core
    have : w.myCore.task = v.myCore.task := by rw [k3, hu.core]; cases v.cur.eng <;> rfl
    simp only [Core.marked, this]
  rw [e]
  refine State.access_end_from (f := { f with eff := false }) ?_ rfl hv hu hw ⟨_, rfl⟩ (fun k hk => w.cores_setMyCore_other _ (by rw [hc]; exact hk)) ?_
  · exact hg
  · rw [← ht, State.markEffect, State.myCore_setMyCore]; rfl

/-- The same of a form that leaves no effect outside its core. -/
theorem State.access_end_plain {s v u w : State} {f : Form} (hg : s.goesOn f = true) (heff : f.eff = false) (hv : s.StoredFrom v) (hu : v.Lands u) (hw : u.TracedTo w) :
    s.AccessOnly (w.advance f) ∧ (w.advance f).me.x = u.me.x ∧ v.Ends (w.advance f) v.myCore.task := by
  refine State.access_end_from hg heff hv hu hw ⟨_, rfl⟩ (fun _ _ => rfl) ?_
  obtain ⟨x, y, z, t, k3⟩ := hw.core
  have : w.myCore.task = v.myCore.task := by rw [k3, hu.core]; cases v.cur.eng <;> rfl
  rw [← this]

theorem State.storedFrom_mark {s v : State} (hv : s.StoredFrom v) : s.StoredFrom v.markEffect := by
  obtain ⟨⟨c, g, m, k, q, e⟩, a, b, c', d, e', f, g', l, r, k'⟩ := hv
  refine ⟨⟨v.markEffect.cores, g, m, k, q, ?_⟩, a, b, (v.myCore.marked).task, d, e', f, g', l, r, ?_⟩
  · subst e; rfl
  · simp only [State.markEffect, State.myCore_setMyCore]
    rw [k']
    rfl

/-! ### Stores and scratchpad writes -/

/-- A global store that passes, of a place in this context's own pages, stands last in the core's store queue (R105). -/
theorem State.StoresAt.queues {s u : State} {ea : Nat} {data : List Byte} {foot : Option (List Range)} {p : Phys} (h : s.StoresAt ea data.length foot p u)
    (hs : p.slot = none) : s.globalStore ea data foot = .ok (u.setMyCore (u.myCore.queueStore s.cur.eng p ea data)) := by
  have ha := State.check_aperture h.check
  have hr := h.room
  rw [hs] at hr
  simp only [State.globalStore, ha, h.check, h.own, h.order, h.record, liftAt, liftTrap, need, await, bind, Except.bind, pure, Except.pure, Bool.false_and, Bool.not_false, hs,
    decide_eq_true hr, if_true, Bool.false_eq_true, if_false]

/-- A global store that passes, of a place in a window, is posted to its exporter (R290). -/
theorem State.StoresAt.posts {s u : State} {ea : Nat} {data : List Byte} {foot : Option (List Range)} {p : Phys} {k : Nat} (h : s.StoresAt ea data.length foot p u)
    (hs : p.slot = some k) : s.globalStore ea data foot = .ok (u.post s.cur.die s.cur.core s.cur.eng p (s.expDie p) data) := by
  have ha := State.check_aperture h.check
  have hr := h.room
  rw [hs] at hr
  simp only [State.globalStore, ha, h.check, h.own, h.order, h.record, liftAt, liftTrap, need, await, bind, Except.bind, pure, Except.pure, Bool.false_and, Bool.not_false, hs,
    decide_eq_true hr, if_true, Bool.false_eq_true, if_false]

theorem State.storedFrom_atIssue (s : State) : s.StoredFrom s.atIssue := ⟨⟨_, _, _, _, _, rfl⟩, _, _, _, _, _, _, _, _, _, rfl⟩

theorem State.storedFrom_own {s u : State} {die core : Nat} {t : Option RunTask} {p : Phys} {va n : Nat} {wr : Bool}
    (h : s.atIssue.own die core t p va n wr = .ok u) : s.StoredFrom u := by
  obtain ⟨g, rfl⟩ := State.own_shape h
  exact ⟨⟨_, _, _, _, _, rfl⟩, _, _, _, _, _, _, _, _, _, rfl⟩

theorem State.StoredFrom.core' {s v : State} (h : s.StoredFrom v) (c : Core)
    (hc : ∃ a b c' d e f g l r, c = { v.myCore with spov := a, storeq := b, task := c', scratch := d, sectors := e, posted := f, nextPid := g, lastClk := l, lastRank := r }) :
    s.StoredFrom (v.setMyCore c) := by
  obtain ⟨⟨c1, g, m, k, q, e⟩, a1, b1, c2, d1, e1, f1, g1, l1, r1, k1⟩ := h
  obtain ⟨a, b, c', d, e', f, g', l, r, hc⟩ := hc
  refine ⟨⟨(v.setMyCore c).cores, g, m, k, q, ?_⟩, a, b, c', d, e', f, g', l, r, ?_⟩
  · subst e; rfl
  · rw [State.myCore_setMyCore, hc, k1]

theorem State.StoredFrom.stampRemote {s v : State} (hv : s.StoredFrom v) (die core : Nat) : s.StoredFrom (v.stampRemote die core) := by
  obtain ⟨⟨c1, e1⟩, h⟩ := v.stampRemote_shape die core
  obtain ⟨⟨c, g, m, k, q, e⟩, a, b, c', d, e', f, g', l, r, hc⟩ := hv
  have hcur : (v.stampRemote die core).cur = v.cur := by rw [e1]
  refine ⟨⟨c1, g, m, k, q, by rw [e1, e]⟩, a, b, c', d, e', f, g', ?_⟩
  obtain ⟨l2, r2, h2⟩ := h (coreKey v.cur.die v.cur.core)
  refine ⟨l2, r2, ?_⟩
  have : (v.stampRemote die core).myCore = { v.myCore with lastClk := l2, lastRank := r2 } := by
    unfold State.myCore State.coreAt
    rw [hcur]
    exact h2
  rw [this, hc]

/-- What a write of a scratchpad does: its bytes are those written, the stash sectors in its range may be marked with their owner tags, and
nothing else changes. -/
structure State.Wrote (s v : State) (die core lo : Nat) (data : List Byte) : Prop where
  shape : ∃ c g, v = { s with cores := c, tags := g }
  own   : ∃ e, v.coreAt die core = { s.coreAt die core with scratch := mWrite (s.coreAt die core).scratch lo data, sectors := e }
  other : ∀ k, k ≠ coreKey die core → tGet {} v.cores k = tGet {} s.cores k
  plain : (s.coreAt die core).stash = [] → v.tags = s.tags ∧ (v.coreAt die core).sectors = (s.coreAt die core).sectors

theorem State.markSector_shape (s : State) (die core u : Nat) : (∃ c g, s.markSector die core u = { s with cores := c, tags := g }) ∧
    (∃ e, (s.markSector die core u).coreAt die core = { s.coreAt die core with sectors := e }) ∧
    (∀ k, k ≠ coreKey die core → tGet {} (s.markSector die core u).cores k = tGet {} s.cores k) := by
  unfold State.markSector
  simp only
  split
  · exact ⟨⟨_, _, rfl⟩, ⟨_, rfl⟩, fun _ _ => rfl⟩
  · split
    · next h =>
      obtain ⟨g, rfl⟩ := State.own_shape h
      refine ⟨⟨_, _, rfl⟩, ⟨_, State.coreAt_setCoreAt _ _ _ _⟩, fun k hk => ?_⟩
      simp [State.setCoreAt, tGet_tSet, hk]
    · refine ⟨⟨_, _, rfl⟩, ⟨_, State.coreAt_setCoreAt _ _ _ _⟩, fun k hk => ?_⟩
      simp [State.setCoreAt, tGet_tSet, hk]

theorem State.markSectors_shape (s : State) (die core : Nat) (us : List Nat) : (∃ c g, us.foldl (fun s u => s.markSector die core u) s = { s with cores := c, tags := g }) ∧
    (∃ e, (us.foldl (fun s u => s.markSector die core u) s).coreAt die core = { s.coreAt die core with sectors := e }) ∧
    (∀ k, k ≠ coreKey die core → tGet {} (us.foldl (fun s u => s.markSector die core u) s).cores k = tGet {} s.cores k) := by
  induction us generalizing s with
  | nil => exact ⟨⟨_, _, rfl⟩, ⟨_, rfl⟩, fun _ _ => rfl⟩
  | cons u us ih =>
    obtain ⟨⟨c, g, h1⟩, ⟨e, h2⟩, h3⟩ := ih (s.markSector die core u)
    obtain ⟨⟨c', g', k1⟩, ⟨e', k2⟩, k3⟩ := s.markSector_shape die core u
    refine ⟨⟨c, g, ?_⟩, ⟨e, ?_⟩, fun k hk => ?_⟩
    · rw [List.foldl_cons, h1, k1]
    · rw [List.foldl_cons, h2, k2]
    · rw [List.foldl_cons, h3 k hk, k3 k hk]

theorem State.wrote_spWrite (s : State) (die core lo : Nat) (data : List Byte) : s.Wrote (s.spWrite die core lo data) die core lo data := by
  obtain ⟨⟨c, g, h1⟩, ⟨e, h2⟩, h3⟩ := State.markSectors_shape
    (s.setCoreAt die core { s.coreAt die core with scratch := mWrite (s.coreAt die core).scratch lo data }) die core ((s.coreAt die core).mapped lo data.length)
  refine ⟨⟨c, g, ?_⟩, ⟨e, ?_⟩, fun k hk => ?_, fun hm => ?_⟩
  · exact h1
  · exact h2.trans (by rw [State.coreAt_setCoreAt])
  · refine (h3 k hk).trans ?_
    simp [State.setCoreAt, tGet_tSet, hk]
  · have : (s.coreAt die core).mapped lo data.length = [] := by simp [Core.mapped, hm]
    simp [State.spWrite, this]

theorem State.Wrote.storedFrom {s v : State} {die core lo : Nat} {data : List Byte} (h : s.atIssue.Wrote v die core lo data) : s.StoredFrom v := by
  obtain ⟨c, g, e⟩ := h.shape
  refine ⟨⟨c, g, _, _, _, e⟩, ?_⟩
  have hc : v.cur = s.cur := by rw [e]; rfl
  by_cases hk : coreKey s.cur.die s.cur.core = coreKey die core
  · obtain ⟨x, k⟩ := h.own
    have : v.myCore = v.coreAt die core := by simp [State.myCore, State.coreAt, hc, hk]
    have h2 : s.atIssue.coreAt die core = s.myCore := by simp [State.myCore, State.coreAt, hk]
    rw [this, k, h2]
    exact ⟨_, _, _, _, _, _, _, _, _, rfl⟩
  · have : v.myCore = s.myCore := by
      have := h.other _ hk
      simpa [State.myCore, State.coreAt, hc] using this
    exact ⟨_, _, _, _, _, _, _, _, _, this⟩

/-- A posted store of the current core: an item more, its message on the way, and nothing else. -/
theorem State.post_shape (u : State) (e : Eng) (p : Phys) (h : Nat) (data : List Byte) : ∃ c, u.post u.cur.die u.cur.core e p h data =
    { u with cores := c, posts := u.posts ++ [⟨u.cur.die, u.cur.core, u.myCore.nextPid, h, p.exp, p.slot.getD 0, BitVec.ofNat 64 p.va, if p.ok then some p.key else none, data⟩] } :=
  ⟨_, rfl⟩

theorem State.post_myCore (u : State) (e : Eng) (p : Phys) (h : Nat) (data : List Byte) : (u.post u.cur.die u.cur.core e p h data).myCore =
    { u.myCore with nextPid := u.myCore.nextPid + 1, posted := u.myCore.posted ++ [{ pid := u.myCore.nextPid, imp := p.imp, home := some h, eng := e, mtype := p.mtype }] } :=
  u.myCore_setMyCore _

theorem State.StoredFrom.post {s u : State} (hv : s.StoredFrom u) (w : Eng) (p : Phys) (h : Nat) (data : List Byte) :
    s.StoredFrom (u.post u.cur.die u.cur.core w p h data) := by
  obtain ⟨⟨c, g, m, k, q, e⟩, a, b, c', d, e', f, g', l, r, hc⟩ := hv
  have hm := u.post_myCore w p h data
  refine ⟨⟨(u.post u.cur.die u.cur.core w p h data).cores, g, m, k, (u.post u.cur.die u.cur.core w p h data).posts, ?_⟩, a, b, c', d, e',
    (u.post u.cur.die u.cur.core w p h data).myCore.posted, (u.post u.cur.die u.cur.core w p h data).myCore.nextPid, l, r, ?_⟩
  · subst e; rfl
  · rw [hm, hc]

theorem natToBytes_length (n v : Nat) : (natToBytes n v).length = n := by
  induction n generalizing v with
  | zero => rfl
  | succ n ih => simp [natToBytes, ih]

theorem State.storeData_length (s : State) (d w : Nat) : (s.storeData d (memSize w)).length = memSize w := by
  unfold State.storeData
  split
  · next h => simp [natToBytes_length, h]
  · simp [natToBytes_length]

/-! ### Bodies that change the current core -/

/-- A body that leaves the current core as c, but for scalar registers of its stream. -/
theorem coreTo_next {s v u : State} {f : Form} {c : Core} {body : State → Res State} (h : s.issues f = true) (heff : f.eff = false) (hv : v = s.atIssue.setMyCore c)
    (hc : c.eng s.cur.eng = s.me) (hu : v.Lands u) (hb : body s.atIssue = .ok u) :
    ∃ t, issue s f body = .next t ∧ s.CoreTo t c ∧ t.me.x = u.me.x := by
  obtain ⟨h1, h2⟩ := State.issues_iff.1 h
  subst hv
  have hcur : u.cur = s.cur := hu.cur
  have hme : (s.atIssue.setMyCore c).me = s.me := by rw [State.me_setMyCore]; exact hc
  have st : u.me.StaysAt s.me := by rw [← hme]; exact hu.staysAt
  obtain ⟨c2, e2⟩ := hu.shape
  refine ⟨_, issue_ok h1 hb, ?_, ?_⟩
  all_goals rw [State.advance_eq u f heff (State.not_ends h2 hcur st)]
  · refine ⟨⟨?_, fun k hk => ?_⟩, ?_, ?_⟩
    · rw [e2]; rfl
    · rw [u.past_other f (by rw [hcur]; exact hk), hu.other k hk]
      exact State.cores_setMyCore_other s.atIssue c hk
    · rw [State.past_myCore, State.past_me, State.mineAs, State.mineAs, hu.core, hcur, hu.now, State.myCore_setMyCore]
      show ((c.setEng s.cur.eng u.me).setEng s.cur.eng _).stamp s.now _ = _
      rw [Core.setEng_setEng]
    · rw [State.past_me]
      refine Engine.moved_held ?_ _ _
      rw [← hme]
      exact hu.me
  · rw [State.past_me, Engine.moved_x]

/-- The same where no register lands. -/
theorem coreTo_next_plain {s : State} {f : Form} {c : Core} {body : State → Res State} (h : s.issues f = true) (heff : f.eff = false)
    (hc : c.eng s.cur.eng = s.me) (hb : body s.atIssue = .ok (s.atIssue.setMyCore c)) : ∃ t, issue s f body = .next t ∧ s.CoreTo t c ∧ t.me.x = s.me.x := by
  obtain ⟨t, h1, h2, h3⟩ := coreTo_next h heff rfl hc (State.Lands.refl _) hb
  exact ⟨t, h1, h2, by rw [h3, State.me_setMyCore]; exact congrArg Engine.x hc⟩

/-! ### Any body -/

theorem Engine.StaysAt.trans {a b c : Engine} (h : a.StaysAt b) (k : b.StaysAt c) : a.StaysAt c :=
  ⟨⟨h.same.1.trans k.same.1, h.same.2.1.trans k.same.2.1, h.same.2.2.trans k.same.2.2⟩, h.phase.trans k.phase, h.pos.trans k.pos, h.iter.trans k.iter, h.blk.trans k.blk⟩

theorem State.markEffect_me (s : State) : s.markEffect.me = s.me := by
  rw [State.markEffect, State.me_setMyCore, State.me]
  cases s.cur.eng <;> rfl

theorem Core.setEng_marked (c : Core) (w : Eng) (e : Engine) : (c.setEng w e).marked = c.marked.setEng w e := by cases w <;> rfl

/-- The end of any instruction whose body left the state v, scalar registers aside. -/
theorem State.ends_advance {s v u : State} {f : Form} (hg : s.goesOn f = true) (hcur : v.cur = s.cur) (hme : v.me.StaysAt s.me) (hu : v.Lands u) :
    v.EndsAs (u.advance f) f.eff ∧ (u.advance f).me.x = u.me.x := by
  have hc : u.cur = v.cur := hu.cur
  have st : u.me.StaysAt s.me := hu.staysAt.trans hme
  obtain ⟨c2, e2⟩ := hu.shape
  have hn : u.now = v.now := hu.now
  cases heff : f.eff
  · rw [State.advance_eq u f heff (State.not_ends hg (hc.trans hcur) st)]
    obtain ⟨c3, e3⟩ := u.past_shape f
    refine ⟨⟨?_, fun k hk => ?_, ?_, ?_⟩, ?_⟩
    · rw [e3]
      show { u with cores := v.cores } = v
      rw [e2]
    · rw [u.past_other f (by rw [hc]; exact hk), hu.other k hk]
    · rw [State.past_myCore, State.past_me, State.mineAs, State.mineAs, hu.core, hc, hn, Core.setEng_setEng, if_neg Bool.false_ne_true]
    · rw [State.past_me]; exact Engine.moved_held hu.me _ _
    · rw [State.past_me, Engine.moved_x]
  · have e := u.advance_eff heff
    have hm := u.markEffect_me
    rw [e, State.advance_eq u.markEffect { f with eff := false } rfl (State.not_ends (s := s) hg (hc.trans hcur) (by rw [hm]; exact st))]
    have hcm : u.markEffect.cur = v.cur := hc
    have hnm : u.markEffect.now = v.now := hn
    have hmc : u.markEffect.myCore = u.myCore.marked := by simp [State.markEffect]
    obtain ⟨c3, e3⟩ := State.past_shape u.markEffect { f with eff := false }
    refine ⟨⟨?_, fun k hk => ?_, ?_, ?_⟩, ?_⟩
    · rw [e3]
      show { u with cores := v.cores } = v
      rw [e2]
    · rw [u.markEffect.past_other _ (by rw [hcm]; exact hk), State.markEffect, State.cores_setMyCore_other _ _ (by rw [hc]; exact hk), hu.other k hk]
    · rw [State.past_myCore, State.past_me, State.mineAs, State.mineAs, hcm, hnm, hmc, hu.core, Core.setEng_marked, Core.setEng_setEng, if_pos rfl]
    · rw [State.past_me, hm]; exact Engine.moved_held hu.me _ _
    · rw [State.past_me, Engine.moved_x, hm]

theorem endsAs_next {s v u : State} {f : Form} {body : State → Res State} (h : s.issues f = true) (hcur : v.cur = s.cur) (hme : v.me.StaysAt s.me) (hu : v.Lands u)
    (hb : body s.atIssue = .ok u) : ∃ t, issue s f body = .next t ∧ v.EndsAs t f.eff ∧ t.me.x = u.me.x :=
  ⟨_, issue_ok (State.issues_iff.1 h).1 hb, State.ends_advance (State.issues_iff.1 h).2 hcur hme hu⟩

/-- A body that lands one scalar register beside what it leaves. -/
theorem endsAs_landX {s v : State} {f : Form} {body : State → Res State} {d : Nat} {x : Word} {l : Nat} (h : s.issues f = true) (hcur : v.cur = s.cur)
    (hme : v.me.StaysAt s.me) (hb : body s.atIssue = .ok (v.landX d x l)) :
    ∃ t, issue s f body = .next t ∧ v.EndsAs t f.eff ∧ v.Regs t (fun r => if r = d then some x else none) := by
  obtain ⟨t, h1, h2, h3⟩ := endsAs_next h hcur hme (v.lands_landX d x l) hb
  refine ⟨t, h1, h2, fun r => ?_⟩
  rw [h3, State.landX_regs]
  by_cases h1 : r = d <;> by_cases h3 : isC v.cur.eng = true <;> by_cases h4 : r = 0 <;> simp_all

/-- A body that lands none. -/
theorem endsAs_plain {s v : State} {f : Form} {body : State → Res State} (h : s.issues f = true) (hcur : v.cur = s.cur) (hme : v.me.StaysAt s.me)
    (hb : body s.atIssue = .ok v) : ∃ t, issue s f body = .next t ∧ v.EndsAs t f.eff ∧ t.me.x = v.me.x :=
  endsAs_next h hcur hme (State.Lands.refl v) hb

end Sys2Proof.Machine
end

