-- ==== Sys2Proof/Laws/Memory.lean ====
section
/-! SUPPORT. What writes of memory do: through a die's lines, byte by byte. -/

namespace Sys2Proof.Machine

theorem mem_upto (a n k : Nat) : k ∈ upto a n ↔ a ≤ k ∧ k < a + n := by
  induction n generalizing a with
  | zero => simp [upto]
  | succ n ih => simp only [upto, List.mem_cons, ih]; omega

/-- The bytes of one line of a write, at the line. -/
theorem lineBytes_getD (key : Nat) (data : List Byte) (ln j : Nat) (h1 : max key (ln * 256) ≤ j) (h2 : j < min (key + data.length) (ln * 256 + 256)) :
    ((data.drop (max key (ln * 256) - key)).take (min (key + data.length) (ln * 256 + 256) - max key (ln * 256))).getD (j - max key (ln * 256)) 0
      = data.getD (j - key) 0 := by
  have e : max key (ln * 256) - key + (j - max key (ln * 256)) = j - key := by omega
  simp only [List.getD_eq_getElem?_getD, List.getElem?_take, List.getElem?_drop, e]
  rw [if_pos (by omega)]

theorem lineBytes_length (key : Nat) (data : List Byte) (ln : Nat) (h1 : ln * 256 < key + data.length) (h2 : key < ln * 256 + 256) :
    ((data.drop (max key (ln * 256) - key)).take (min (key + data.length) (ln * 256 + 256) - max key (ln * 256))).length
      = min (key + data.length) (ln * 256 + 256) - max key (ln * 256) := by
  rw [List.length_take, List.length_drop]
  omega

/-- A write by the home die, or of the host's memory, changes memory alone. -/
theorem State.putLine_home (s : State) (die key home keyNo : Nat) (data : List Byte) (h : die = home ∨ 4 ≤ home) : s.putLine die key home keyNo data = s.putMem key keyNo data := by
  unfold State.putLine
  rw [if_neg]
  simp only [ne_eq, Bool.and_eq_true, decide_eq_true_eq, not_and, Bool.or_eq_true]
  omega

theorem State.put_home_shape (s : State) (die : Nat) (p : Phys) (data : List Byte) (h : die = p.home ∨ 4 ≤ p.home) (ls : List Nat)
    (hl : ∀ l ∈ ls, l * 256 < p.key + data.length ∧ p.key < l * 256 + 256) :
    ∃ m k, ls.foldl (fun s ln => s.putLine die (max p.key (ln * 256)) p.home p.keyNo ((data.drop (max p.key (ln * 256) - p.key)).take
      (min (p.key + data.length) (ln * 256 + 256) - max p.key (ln * 256)))) s = { s with mem := m, keyTag := k } ∧
      (Memory.wf s.mem = true → Memory.wf m = true) ∧
      ∀ j, tGet 0 m j = if p.key ≤ j ∧ j < p.key + data.length ∧ j / 256 ∈ ls then data.getD (j - p.key) 0 else tGet 0 s.mem j := by
  induction ls generalizing s with
  | nil => exact ⟨_, _, rfl, id, fun j => by simp⟩
  | cons l ls ih =>
    obtain ⟨h1, h2⟩ := hl l List.mem_cons_self
    rw [List.foldl_cons, State.putLine_home _ _ _ _ _ _ h]
    obtain ⟨m, k, e, w, f⟩ := ih (s.putMem (max p.key (l * 256)) p.keyNo ((data.drop (max p.key (l * 256) - p.key)).take
      (min (p.key + data.length) (l * 256 + 256) - max p.key (l * 256)))) (fun x hx => hl x (List.mem_cons_of_mem _ hx))
    refine ⟨m, k, by rw [e]; rfl, fun hw => w (Memory.wf_mWrite _ _ _ hw), fun j => ?_⟩
    rw [f j]
    simp only [State.putMem, tGet_mWrite, lineBytes_length p.key data l h1 h2]
    by_cases hj : p.key ≤ j ∧ j < p.key + data.length ∧ j / 256 ∈ ls
    · rw [if_pos hj, if_pos ⟨hj.1, hj.2.1, List.mem_cons_of_mem _ hj.2.2⟩]
    · rw [if_neg hj]
      by_cases hi : max p.key (l * 256) ≤ j ∧ j < max p.key (l * 256) + (min (p.key + data.length) (l * 256 + 256) - max p.key (l * 256))
      · rw [if_pos hi, lineBytes_getD p.key data l j hi.1 (by omega), if_pos]
        refine ⟨by omega, by omega, ?_⟩
        have : j / 256 = l := by omega
        rw [this]; exact List.mem_cons_self
      · rw [if_neg hi, if_neg]
        rintro ⟨a, b, c⟩
        rcases List.mem_cons.1 c with c | c
        · omega
        · exact hj ⟨a, b, c⟩

/-- A write by the home die, or of the host's memory: exactly its bytes of memory. -/
theorem State.put_home (s : State) (die : Nat) (p : Phys) (data : List Byte) (h : die = p.home ∨ 4 ≤ p.home) :
    ∃ m k, s.put die p data = { s with mem := m, keyTag := k } ∧ (Memory.wf s.mem = true → Memory.wf m = true) ∧
      ∀ j, tGet 0 m j = if p.key ≤ j ∧ j < p.key + data.length then data.getD (j - p.key) 0 else tGet 0 s.mem j := by
  obtain ⟨m, k, e, w, f⟩ := State.put_home_shape s die p data h (linesOf p.key data.length) (by
    intro l hl
    unfold linesOf at hl
    split at hl
    · simp at hl
    · rw [mem_upto] at hl; omega)
  refine ⟨m, k, e, w, fun j => ?_⟩
  rw [f j]
  by_cases hj : p.key ≤ j ∧ j < p.key + data.length
  · rw [if_pos hj, if_pos]
    refine ⟨hj.1, hj.2, ?_⟩
    unfold linesOf
    rw [if_neg (by omega), mem_upto]
    omega
  · rw [if_neg hj, if_neg (fun x => hj ⟨x.1, x.2.1⟩)]

end Sys2Proof.Machine
end

