-- ==== Sys2Proof/Laws/PerInstr.lean ====
section
/-! SUPPORT. The round trip of the encoding, one lemma per constructor of Instr: the word an instruction encodes to fits its length and decodes to
that instruction, with every operand at every value. -/

namespace Sys2Proof.Laws.RoundTrip

/-- The word of a well-formed instruction, if it has one, fits its length and decodes to the instruction. -/
def Statement (i : Instr) : Prop := i.wellFormed = true → ∀ n w, encode i = some (n, w) → w < 2 ^ n ∧ decodeTableWord n w = some i

theorem fld_eq {w lo wd : Nat} {x : BitVec wd} (h : w / 2 ^ lo % 2 ^ wd = x.toNat) : fld w lo wd = x := by
  apply BitVec.eq_of_toNat_eq
  rw [fld, BitVec.toNat_ofNat]
  exact h

theorem accept_ok {w : Nat} {zs : List (Nat × Nat)} {i j : Instr} (hw : j.wellFormed = true) (e : i = j) (hz : zs.all (fun z => fldN w z.1 z.2 = 0) = true) :
    accept w zs i = .ok j := by
  unfold accept
  rw [e, hw, hz]
  rfl

theorem table_32 {w m : Nat} {i : Instr} (h : w < 2 ^ 32) (ho : w % 2 = 1) (hm : w / 2 ^ 1 % 2 ^ 7 = m) (hd : decodeMajor m w = .ok i) : decodeTableWord 32 w = some i := by
  unfold decodeTableWord decode
  rw [if_neg (by decide), if_neg (by omega), Nat.mod_eq_of_lt h]
  unfold fldN
  rw [hm, hd]

theorem table_16 {w op : Nat} {i : Instr} (h : w < 2 ^ 16) (ho : w % 2 = 0) (hm : w / 2 ^ 1 % 2 ^ 5 = op) (hd : decodeCompact op w = .ok i) : decodeTableWord 16 w = some i := by
  unfold decodeTableWord decode
  rw [if_neg (by decide), if_pos ho, Nat.mod_eq_of_lt h]
  unfold fldN
  rw [hm, hd]

theorem table_64 {w : Nat} {i : Instr} (hd : decodeHelper w = some i) : decodeTableWord 64 w = some i := hd

/-- An event: no word encodes it. -/
theorem no_word {i : Instr} (h : encode i = none) : Statement i := by
  intro _ n w e
  rw [h] at e
  cases e

theorem nop16 : Statement .nop16 := by
  intro hw len wd hen
  have he : len = 16 ∧ 0x0 = wd := by cases hen; exact ⟨rfl, rfl⟩
  obtain ⟨rfl, he⟩ := he
  clear hen
  refine ⟨by omega, table_16 (op := 0x00) (by omega) (by omega) (by omega) ?_⟩
  exact accept_ok hw rfl (by simp only [List.all_cons, List.all_nil, Bool.and_true, decide_eq_true_eq]; unfold fldN; omega)

theorem mv16 (a : BitVec 5) (d : BitVec 5) : Statement (.mv16 a d) := by
  intro hw len wd hen
  have h0 := a.isLt
  have h1 := d.isLt
  have he : len = 16 ∧ a.toNat * 2048 + d.toNat * 64 + 0x2 = wd := by cases hen; exact ⟨rfl, rfl⟩
  obtain ⟨rfl, he⟩ := he
  clear hen
  refine ⟨by omega, table_16 (op := 0x01) (by omega) (by omega) (by omega) ?_⟩
  exact accept_ok hw (by congr 1 <;> exact fld_eq (by omega)) rfl

theorem add16 (a : BitVec 5) (d : BitVec 5) : Statement (.add16 a d) := by
  intro hw len wd hen
  have h0 := a.isLt
  have h1 := d.isLt
  have he : len = 16 ∧ a.toNat * 2048 + d.toNat * 64 + 0x4 = wd := by cases hen; exact ⟨rfl, rfl⟩
  obtain ⟨rfl, he⟩ := he
  clear hen
  refine ⟨by omega, table_16 (op := 0x02) (by omega) (by omega) (by omega) ?_⟩
  exact accept_ok hw (by congr 1 <;> exact fld_eq (by omega)) rfl

theorem sub16 (a : BitVec 5) (d : BitVec 5) : Statement (.sub16 a d) := by
  intro hw len wd hen
  have h0 := a.isLt
  have h1 := d.isLt
  have he : len = 16 ∧ a.toNat * 2048 + d.toNat * 64 + 0x6 = wd := by cases hen; exact ⟨rfl, rfl⟩
  obtain ⟨rfl, he⟩ := he
  clear hen
  refine ⟨by omega, table_16 (op := 0x03) (by omega) (by omega) (by omega) ?_⟩
  exact accept_ok hw (by congr 1 <;> exact fld_eq (by omega)) rfl

theorem addi16 (i : BitVec 5) (d : BitVec 5) : Statement (.addi16 i d) := by
  intro hw len wd hen
  have h0 := i.isLt
  have h1 := d.isLt
  have he : len = 16 ∧ i.toNat * 2048 + d.toNat * 64 + 0x8 = wd := by cases hen; exact ⟨rfl, rfl⟩
  obtain ⟨rfl, he⟩ := he
  clear hen
  refine ⟨by omega, table_16 (op := 0x04) (by omega) (by omega) (by omega) ?_⟩
  exact accept_ok hw (by congr 1 <;> exact fld_eq (by omega)) rfl

theorem li16 (i : BitVec 5) (d : BitVec 5) : Statement (.li16 i d) := by
  intro hw len wd hen
  have h0 := i.isLt
  have h1 := d.isLt
  have he : len = 16 ∧ i.toNat * 2048 + d.toNat * 64 + 0xa = wd := by cases hen; exact ⟨rfl, rfl⟩
  obtain ⟨rfl, he⟩ := he
  clear hen
  refine ⟨by omega, table_16 (op := 0x05) (by omega) (by omega) (by omega) ?_⟩
  exact accept_ok hw (by congr 1 <;> exact fld_eq (by omega)) rfl

theorem ext (n : BitVec 10) : Statement (.ext n) := by
  intro hw len wd hen
  have h0 := n.isLt
  have he : len = 16 ∧ n.toNat * 64 + 0x3c = wd := by cases hen; exact ⟨rfl, rfl⟩
  obtain ⟨rfl, he⟩ := he
  clear hen
  refine ⟨by omega, table_16 (op := 0x1e) (by omega) (by omega) (by omega) ?_⟩
  exact accept_ok hw (by congr 1; exact fld_eq (by omega)) rfl

theorem fmt (n : BitVec 6) : Statement (.fmt n) := by
  intro hw len wd hen
  have h0 := n.isLt
  have he : len = 16 ∧ n.toNat * 64 + 0x3e = wd := by cases hen; exact ⟨rfl, rfl⟩
  obtain ⟨rfl, he⟩ := he
  clear hen
  refine ⟨by omega, table_16 (op := 0x1f) (by omega) (by omega) (by omega) ?_⟩
  exact accept_ok hw (by congr 1; exact fld_eq (by omega)) (by simp only [List.all_cons, List.all_nil, Bool.and_true, decide_eq_true_eq]; unfold fldN; omega)

theorem add (d : BitVec 6) (a : BitVec 6) (b : BitVec 6) (g : BitVec 3) : Statement (.add d a b g) := by
  intro hw len wd hen
  have h0 := d.isLt
  have h1 := a.isLt
  have h2 := b.isLt
  have h3 := g.isLt
  have he : len = 32 ∧ d.toNat * 67108864 + a.toNat * 1048576 + b.toNat * 16384 + g.toNat * 256 + 0x3 = wd := by cases hen; exact ⟨rfl, rfl⟩
  obtain ⟨rfl, he⟩ := he
  clear hen
  refine ⟨by omega, table_32 (m := 0x01) (by omega) (by omega) (by omega) ?_⟩
  show decode01 _ = _
  unfold decode01
  rw [show fldN _ 11 3 = 0 from by unfold fldN; omega]
  exact accept_ok hw (by congr 1 <;> exact fld_eq (by omega)) rfl

theorem sub (d : BitVec 6) (a : BitVec 6) (b : BitVec 6) (g : BitVec 3) : Statement (.sub d a b g) := by
  intro hw len wd hen
  have h0 := d.isLt
  have h1 := a.isLt
  have h2 := b.isLt
  have h3 := g.isLt
  have he : len = 32 ∧ d.toNat * 67108864 + a.toNat * 1048576 + b.toNat * 16384 + g.toNat * 256 + 0x803 = wd := by cases hen; exact ⟨rfl, rfl⟩
  obtain ⟨rfl, he⟩ := he
  clear hen
  refine ⟨by omega, table_32 (m := 0x01) (by omega) (by omega) (by omega) ?_⟩
  show decode01 _ = _
  unfold decode01
  rw [show fldN _ 11 3 = 1 from by unfold fldN; omega]
  exact accept_ok hw (by congr 1 <;> exact fld_eq (by omega)) rfl

theorem and (d : BitVec 6) (a : BitVec 6) (b : BitVec 6) (g : BitVec 3) : Statement (.and d a b g) := by
  intro hw len wd hen
  have h0 := d.isLt
  have h1 := a.isLt
  have h2 := b.isLt
  have h3 := g.isLt
  have he : len = 32 ∧ d.toNat * 67108864 + a.toNat * 1048576 + b.toNat * 16384 + g.toNat * 256 + 0x1003 = wd := by cases hen; exact ⟨rfl, rfl⟩
  obtain ⟨rfl, he⟩ := he
  clear hen
  refine ⟨by omega, table_32 (m := 0x01) (by omega) (by omega) (by omega) ?_⟩
  show decode01 _ = _
  unfold decode01
  rw [show fldN _ 11 3 = 2 from by unfold fldN; omega]
  exact accept_ok hw (by congr 1 <;> exact fld_eq (by omega)) rfl

theorem or (d : BitVec 6) (a : BitVec 6) (b : BitVec 6) (g : BitVec 3) : Statement (.or d a b g) := by
  intro hw len wd hen
  have h0 := d.isLt
  have h1 := a.isLt
  have h2 := b.isLt
  have h3 := g.isLt
  have he : len = 32 ∧ d.toNat * 67108864 + a.toNat * 1048576 + b.toNat * 16384 + g.toNat * 256 + 0x1803 = wd := by cases hen; exact ⟨rfl, rfl⟩
  obtain ⟨rfl, he⟩ := he
  clear hen
  refine ⟨by omega, table_32 (m := 0x01) (by omega) (by omega) (by omega) ?_⟩
  show decode01 _ = _
  unfold decode01
  rw [show fldN _ 11 3 = 3 from by unfold fldN; omega]
  exact accept_ok hw (by congr 1 <;> exact fld_eq (by omega)) rfl

theorem xor (d : BitVec 6) (a : BitVec 6) (b : BitVec 6) (g : BitVec 3) : Statement (.xor d a b g) := by
  intro hw len wd hen
  have h0 := d.isLt
  have h1 := a.isLt
  have h2 := b.isLt
  have h3 := g.isLt
  have he : len = 32 ∧ d.toNat * 67108864 + a.toNat * 1048576 + b.toNat * 16384 + g.toNat * 256 + 0x2003 = wd := by cases hen; exact ⟨rfl, rfl⟩
  obtain ⟨rfl, he⟩ := he
  clear hen
  refine ⟨by omega, table_32 (m := 0x01) (by omega) (by omega) (by omega) ?_⟩
  show decode01 _ = _
  unfold decode01
  rw [show fldN _ 11 3 = 4 from by unfold fldN; omega]
  exact accept_ok hw (by congr 1 <;> exact fld_eq (by omega)) rfl

theorem sll (d : BitVec 6) (a : BitVec 6) (b : BitVec 6) (g : BitVec 3) : Statement (.sll d a b g) := by
  intro hw len wd hen
  have h0 := d.isLt
  have h1 := a.isLt
  have h2 := b.isLt
  have h3 := g.isLt
  have he : len = 32 ∧ d.toNat * 67108864 + a.toNat * 1048576 + b.toNat * 16384 + g.toNat * 256 + 0x2803 = wd := by cases hen; exact ⟨rfl, rfl⟩
  obtain ⟨rfl, he⟩ := he
  clear hen
  refine ⟨by omega, table_32 (m := 0x01) (by omega) (by omega) (by omega) ?_⟩
  show decode01 _ = _
  unfold decode01
  rw [show fldN _ 11 3 = 5 from by unfold fldN; omega]
  exact accept_ok hw (by congr 1 <;> exact fld_eq (by omega)) rfl

theorem srl (d : BitVec 6) (a : BitVec 6) (b : BitVec 6) (g : BitVec 3) : Statement (.srl d a b g) := by
  intro hw len wd hen
  have h0 := d.isLt
  have h1 := a.isLt
  have h2 := b.isLt
  have h3 := g.isLt
  have he : len = 32 ∧ d.toNat * 67108864 + a.toNat * 1048576 + b.toNat * 16384 + g.toNat * 256 + 0x3003 = wd := by cases hen; exact ⟨rfl, rfl⟩
  obtain ⟨rfl, he⟩ := he
  clear hen
  refine ⟨by omega, table_32 (m := 0x01) (by omega) (by omega) (by omega) ?_⟩
  show decode01 _ = _
  unfold decode01
  rw [show fldN _ 11 3 = 6 from by unfold fldN; omega]
  exact accept_ok hw (by congr 1 <;> exact fld_eq (by omega)) rfl

theorem sra (d : BitVec 6) (a : BitVec 6) (b : BitVec 6) (g : BitVec 3) : Statement (.sra d a b g) := by
  intro hw len wd hen
  have h0 := d.isLt
  have h1 := a.isLt
  have h2 := b.isLt
  have h3 := g.isLt
  have he : len = 32 ∧ d.toNat * 67108864 + a.toNat * 1048576 + b.toNat * 16384 + g.toNat * 256 + 0x3803 = wd := by cases hen; exact ⟨rfl, rfl⟩
  obtain ⟨rfl, he⟩ := he
  clear hen
  refine ⟨by omega, table_32 (m := 0x01) (by omega) (by omega) (by omega) ?_⟩
  show decode01 _ = _
  unfold decode01
  rw [show fldN _ 11 3 = 7 from by unfold fldN; omega]
  exact accept_ok hw (by congr 1 <;> exact fld_eq (by omega)) rfl

theorem mul (d : BitVec 6) (a : BitVec 6) (b : BitVec 6) (g : BitVec 3) : Statement (.mul d a b g) := by
  intro hw len wd hen
  have h0 := d.isLt
  have h1 := a.isLt
  have h2 := b.isLt
  have h3 := g.isLt
  have he : len = 32 ∧ d.toNat * 67108864 + a.toNat * 1048576 + b.toNat * 16384 + g.toNat * 256 + 0x5 = wd := by cases hen; exact ⟨rfl, rfl⟩
  obtain ⟨rfl, he⟩ := he
  clear hen
  refine ⟨by omega, table_32 (m := 0x02) (by omega) (by omega) (by omega) ?_⟩
  show decode02 _ = _
  unfold decode02
  rw [show fldN _ 11 3 = 0 from by unfold fldN; omega]
  exact accept_ok hw (by congr 1 <;> exact fld_eq (by omega)) rfl

theorem mulh (d : BitVec 6) (a : BitVec 6) (b : BitVec 6) (g : BitVec 3) : Statement (.mulh d a b g) := by
  intro hw len wd hen
  have h0 := d.isLt
  have h1 := a.isLt
  have h2 := b.isLt
  have h3 := g.isLt
  have he : len = 32 ∧ d.toNat * 67108864 + a.toNat * 1048576 + b.toNat * 16384 + g.toNat * 256 + 0x805 = wd := by cases hen; exact ⟨rfl, rfl⟩
  obtain ⟨rfl, he⟩ := he
  clear hen
  refine ⟨by omega, table_32 (m := 0x02) (by omega) (by omega) (by omega) ?_⟩
  show decode02 _ = _
  unfold decode02
  rw [show fldN _ 11 3 = 1 from by unfold fldN; omega]
  exact accept_ok hw (by congr 1 <;> exact fld_eq (by omega)) rfl

theorem mulhu (d : BitVec 6) (a : BitVec 6) (b : BitVec 6) (g : BitVec 3) : Statement (.mulhu d a b g) := by
  intro hw len wd hen
  have h0 := d.isLt
  have h1 := a.isLt
  have h2 := b.isLt
  have h3 := g.isLt
  have he : len = 32 ∧ d.toNat * 67108864 + a.toNat * 1048576 + b.toNat * 16384 + g.toNat * 256 + 0x1005 = wd := by cases hen; exact ⟨rfl, rfl⟩
  obtain ⟨rfl, he⟩ := he
  clear hen
  refine ⟨by omega, table_32 (m := 0x02) (by omega) (by omega) (by omega) ?_⟩
  show decode02 _ = _
  unfold decode02
  rw [show fldN _ 11 3 = 2 from by unfold fldN; omega]
  exact accept_ok hw (by congr 1 <;> exact fld_eq (by omega)) rfl

theorem min (d : BitVec 6) (a : BitVec 6) (b : BitVec 6) (g : BitVec 3) : Statement (.min d a b g) := by
  intro hw len wd hen
  have h0 := d.isLt
  have h1 := a.isLt
  have h2 := b.isLt
  have h3 := g.isLt
  have he : len = 32 ∧ d.toNat * 67108864 + a.toNat * 1048576 + b.toNat * 16384 + g.toNat * 256 + 0x1805 = wd := by cases hen; exact ⟨rfl, rfl⟩
  obtain ⟨rfl, he⟩ := he
  clear hen
  refine ⟨by omega, table_32 (m := 0x02) (by omega) (by omega) (by omega) ?_⟩
  show decode02 _ = _
  unfold decode02
  rw [show fldN _ 11 3 = 3 from by unfold fldN; omega]
  exact accept_ok hw (by congr 1 <;> exact fld_eq (by omega)) rfl

theorem max (d : BitVec 6) (a : BitVec 6) (b : BitVec 6) (g : BitVec 3) : Statement (.max d a b g) := by
  intro hw len wd hen
  have h0 := d.isLt
  have h1 := a.isLt
  have h2 := b.isLt
  have h3 := g.isLt
  have he : len = 32 ∧ d.toNat * 67108864 + a.toNat * 1048576 + b.toNat * 16384 + g.toNat * 256 + 0x2005 = wd := by cases hen; exact ⟨rfl, rfl⟩
  obtain ⟨rfl, he⟩ := he
  clear hen
  refine ⟨by omega, table_32 (m := 0x02) (by omega) (by omega) (by omega) ?_⟩
  show decode02 _ = _
  unfold decode02
  rw [show fldN _ 11 3 = 4 from by unfold fldN; omega]
  exact accept_ok hw (by congr 1 <;> exact fld_eq (by omega)) rfl

theorem minu (d : BitVec 6) (a : BitVec 6) (b : BitVec 6) (g : BitVec 3) : Statement (.minu d a b g) := by
  intro hw len wd hen
  have h0 := d.isLt
  have h1 := a.isLt
  have h2 := b.isLt
  have h3 := g.isLt
  have he : len = 32 ∧ d.toNat * 67108864 + a.toNat * 1048576 + b.toNat * 16384 + g.toNat * 256 + 0x2805 = wd := by cases hen; exact ⟨rfl, rfl⟩
  obtain ⟨rfl, he⟩ := he
  clear hen
  refine ⟨by omega, table_32 (m := 0x02) (by omega) (by omega) (by omega) ?_⟩
  show decode02 _ = _
  unfold decode02
  rw [show fldN _ 11 3 = 5 from by unfold fldN; omega]
  exact accept_ok hw (by congr 1 <;> exact fld_eq (by omega)) rfl

theorem maxu (d : BitVec 6) (a : BitVec 6) (b : BitVec 6) (g : BitVec 3) : Statement (.maxu d a b g) := by
  intro hw len wd hen
  have h0 := d.isLt
  have h1 := a.isLt
  have h2 := b.isLt
  have h3 := g.isLt
  have he : len = 32 ∧ d.toNat * 67108864 + a.toNat * 1048576 + b.toNat * 16384 + g.toNat * 256 + 0x3005 = wd := by cases hen; exact ⟨rfl, rfl⟩
  obtain ⟨rfl, he⟩ := he
  clear hen
  refine ⟨by omega, table_32 (m := 0x02) (by omega) (by omega) (by omega) ?_⟩
  show decode02 _ = _
  unfold decode02
  rw [show fldN _ 11 3 = 6 from by unfold fldN; omega]
  exact accept_ok hw (by congr 1 <;> exact fld_eq (by omega)) rfl

theorem addi (d : BitVec 6) (a : BitVec 6) (i : BitVec 9) (g : BitVec 3) : Statement (.addi d a i g) := by
  intro hw len wd hen
  have h0 := d.isLt
  have h1 := a.isLt
  have h2 := i.isLt
  have h3 := g.isLt
  have he : len = 32 ∧ d.toNat * 67108864 + a.toNat * 1048576 + i.toNat * 2048 + g.toNat * 256 + 0x7 = wd := by cases hen; exact ⟨rfl, rfl⟩
  obtain ⟨rfl, he⟩ := he
  clear hen
  refine ⟨by omega, table_32 (m := 0x03) (by omega) (by omega) (by omega) ?_⟩
  show decode03 _ = _
  unfold decode03
  exact accept_ok hw (by congr 1 <;> exact fld_eq (by omega)) rfl

theorem andi (d : BitVec 6) (a : BitVec 6) (i : BitVec 9) (g : BitVec 3) : Statement (.andi d a i g) := by
  intro hw len wd hen
  have h0 := d.isLt
  have h1 := a.isLt
  have h2 := i.isLt
  have h3 := g.isLt
  have he : len = 32 ∧ d.toNat * 67108864 + a.toNat * 1048576 + i.toNat * 2048 + g.toNat * 256 + 0x9 = wd := by cases hen; exact ⟨rfl, rfl⟩
  obtain ⟨rfl, he⟩ := he
  clear hen
  refine ⟨by omega, table_32 (m := 0x04) (by omega) (by omega) (by omega) ?_⟩
  show decode04 _ = _
  unfold decode04
  exact accept_ok hw (by congr 1 <;> exact fld_eq (by omega)) rfl

theorem ori (d : BitVec 6) (a : BitVec 6) (i : BitVec 9) (g : BitVec 3) : Statement (.ori d a i g) := by
  intro hw len wd hen
  have h0 := d.isLt
  have h1 := a.isLt
  have h2 := i.isLt
  have h3 := g.isLt
  have he : len = 32 ∧ d.toNat * 67108864 + a.toNat * 1048576 + i.toNat * 2048 + g.toNat * 256 + 0xb = wd := by cases hen; exact ⟨rfl, rfl⟩
  obtain ⟨rfl, he⟩ := he
  clear hen
  refine ⟨by omega, table_32 (m := 0x05) (by omega) (by omega) (by omega) ?_⟩
  show decode05 _ = _
  unfold decode05
  exact accept_ok hw (by congr 1 <;> exact fld_eq (by omega)) rfl

theorem xori (d : BitVec 6) (a : BitVec 6) (i : BitVec 9) (g : BitVec 3) : Statement (.xori d a i g) := by
  intro hw len wd hen
  have h0 := d.isLt
  have h1 := a.isLt
  have h2 := i.isLt
  have h3 := g.isLt
  have he : len = 32 ∧ d.toNat * 67108864 + a.toNat * 1048576 + i.toNat * 2048 + g.toNat * 256 + 0xd = wd := by cases hen; exact ⟨rfl, rfl⟩
  obtain ⟨rfl, he⟩ := he
  clear hen
  refine ⟨by omega, table_32 (m := 0x06) (by omega) (by omega) (by omega) ?_⟩
  show decode06 _ = _
  unfold decode06
  exact accept_ok hw (by congr 1 <;> exact fld_eq (by omega)) rfl

theorem slli (d : BitVec 6) (a : BitVec 6) (s : BitVec 6) (g : BitVec 3) : Statement (.slli d a s g) := by
  intro hw len wd hen
  have h0 := d.isLt
  have h1 := a.isLt
  have h2 := s.isLt
  have h3 := g.isLt
  have he : len = 32 ∧ d.toNat * 67108864 + a.toNat * 1048576 + s.toNat * 2048 + g.toNat * 256 + 0xf = wd := by cases hen; exact ⟨rfl, rfl⟩
  obtain ⟨rfl, he⟩ := he
  clear hen
  refine ⟨by omega, table_32 (m := 0x07) (by omega) (by omega) (by omega) ?_⟩
  show decode07 _ = _
  unfold decode07
  rw [show fldN _ 17 3 = 0 from by unfold fldN; omega]
  exact accept_ok hw (by congr 1 <;> exact fld_eq (by omega)) rfl

theorem srli (d : BitVec 6) (a : BitVec 6) (s : BitVec 6) (g : BitVec 3) : Statement (.srli d a s g) := by
  intro hw len wd hen
  have h0 := d.isLt
  have h1 := a.isLt
  have h2 := s.isLt
  have h3 := g.isLt
  have he : len = 32 ∧ d.toNat * 67108864 + a.toNat * 1048576 + s.toNat * 2048 + g.toNat * 256 + 0x2000f = wd := by cases hen; exact ⟨rfl, rfl⟩
  obtain ⟨rfl, he⟩ := he
  clear hen
  refine ⟨by omega, table_32 (m := 0x07) (by omega) (by omega) (by omega) ?_⟩
  show decode07 _ = _
  unfold decode07
  rw [show fldN _ 17 3 = 1 from by unfold fldN; omega]
  exact accept_ok hw (by congr 1 <;> exact fld_eq (by omega)) rfl

theorem srai (d : BitVec 6) (a : BitVec 6) (s : BitVec 6) (g : BitVec 3) : Statement (.srai d a s g) := by
  intro hw len wd hen
  have h0 := d.isLt
  have h1 := a.isLt
  have h2 := s.isLt
  have h3 := g.isLt
  have he : len = 32 ∧ d.toNat * 67108864 + a.toNat * 1048576 + s.toNat * 2048 + g.toNat * 256 + 0x4000f = wd := by cases hen; exact ⟨rfl, rfl⟩
  obtain ⟨rfl, he⟩ := he
  clear hen
  refine ⟨by omega, table_32 (m := 0x07) (by omega) (by omega) (by omega) ?_⟩
  show decode07 _ = _
  unfold decode07
  rw [show fldN _ 17 3 = 2 from by unfold fldN; omega]
  exact accept_ok hw (by congr 1 <;> exact fld_eq (by omega)) rfl

theorem lui (d : BitVec 6) (i : BitVec 15) (g : BitVec 3) : Statement (.lui d i g) := by
  intro hw len wd hen
  have h0 := d.isLt
  have h1 := i.isLt
  have h2 := g.isLt
  have he : len = 32 ∧ d.toNat * 67108864 + i.toNat * 2048 + g.toNat * 256 + 0x11 = wd := by cases hen; exact ⟨rfl, rfl⟩
  obtain ⟨rfl, he⟩ := he
  clear hen
  refine ⟨by omega, table_32 (m := 0x08) (by omega) (by omega) (by omega) ?_⟩
  show decode08 _ = _
  unfold decode08
  exact accept_ok hw (by congr 1 <;> exact fld_eq (by omega)) rfl

theorem cmp (p : BitVec 3) (a : BitVec 6) (b : BitVec 6) (c : BitVec 3) (g : BitVec 3) : Statement (.cmp p a b c g) := by
  intro hw len wd hen
  have h0 := p.isLt
  have h1 := a.isLt
  have h2 := b.isLt
  have h3 := c.isLt
  have h4 := g.isLt
  have he : len = 32 ∧ p.toNat * 536870912 + a.toNat * 1048576 + b.toNat * 16384 + c.toNat * 2048 + g.toNat * 256 + 0x13 = wd := by cases hen; exact ⟨rfl, rfl⟩
  obtain ⟨rfl, he⟩ := he
  clear hen
  refine ⟨by omega, table_32 (m := 0x09) (by omega) (by omega) (by omega) ?_⟩
  show decode09 _ = _
  unfold decode09
  exact accept_ok hw (by congr 1 <;> exact fld_eq (by omega)) (by simp only [List.all_cons, List.all_nil, Bool.and_true, decide_eq_true_eq]; unfold fldN; omega)

theorem cmpi (p : BitVec 3) (c : BitVec 3) (a : BitVec 6) (i : BitVec 9) (g : BitVec 3) : Statement (.cmpi p c a i g) := by
  intro hw len wd hen
  have h0 := p.isLt
  have h1 := c.isLt
  have h2 := a.isLt
  have h3 := i.isLt
  have h4 := g.isLt
  have he : len = 32 ∧ p.toNat * 536870912 + c.toNat * 67108864 + a.toNat * 1048576 + i.toNat * 2048 + g.toNat * 256 + 0x15 = wd := by cases hen; exact ⟨rfl, rfl⟩
  obtain ⟨rfl, he⟩ := he
  clear hen
  refine ⟨by omega, table_32 (m := 0x0A) (by omega) (by omega) (by omega) ?_⟩
  show decode0A _ = _
  unfold decode0A
  exact accept_ok hw (by congr 1 <;> exact fld_eq (by omega)) rfl

theorem pand (d : BitVec 3) (a : BitVec 3) (b : BitVec 3) (g : BitVec 3) : Statement (.pand d a b g) := by
  intro hw len wd hen
  have h0 := d.isLt
  have h1 := a.isLt
  have h2 := b.isLt
  have h3 := g.isLt
  have he : len = 32 ∧ d.toNat * 536870912 + a.toNat * 67108864 + b.toNat * 8388608 + g.toNat * 256 + 0x17 = wd := by cases hen; exact ⟨rfl, rfl⟩
  obtain ⟨rfl, he⟩ := he
  clear hen
  refine ⟨by omega, table_32 (m := 0x0B) (by omega) (by omega) (by omega) ?_⟩
  show decode0B _ = _
  unfold decode0B
  rw [show fldN _ 11 3 = 0 from by unfold fldN; omega]
  exact accept_ok hw (by congr 1 <;> exact fld_eq (by omega)) (by simp only [List.all_cons, List.all_nil, Bool.and_true, decide_eq_true_eq]; unfold fldN; omega)

theorem por (d : BitVec 3) (a : BitVec 3) (b : BitVec 3) (g : BitVec 3) : Statement (.por d a b g) := by
  intro hw len wd hen
  have h0 := d.isLt
  have h1 := a.isLt
  have h2 := b.isLt
  have h3 := g.isLt
  have he : len = 32 ∧ d.toNat * 536870912 + a.toNat * 67108864 + b.toNat * 8388608 + g.toNat * 256 + 0x817 = wd := by cases hen; exact ⟨rfl, rfl⟩
  obtain ⟨rfl, he⟩ := he
  clear hen
  refine ⟨by omega, table_32 (m := 0x0B) (by omega) (by omega) (by omega) ?_⟩
  show decode0B _ = _
  unfold decode0B
  rw [show fldN _ 11 3 = 1 from by unfold fldN; omega]
  exact accept_ok hw (by congr 1 <;> exact fld_eq (by omega)) (by simp only [List.all_cons, List.all_nil, Bool.and_true, decide_eq_true_eq]; unfold fldN; omega)

theorem pxor (d : BitVec 3) (a : BitVec 3) (b : BitVec 3) (g : BitVec 3) : Statement (.pxor d a b g) := by
  intro hw len wd hen
  have h0 := d.isLt
  have h1 := a.isLt
  have h2 := b.isLt
  have h3 := g.isLt
  have he : len = 32 ∧ d.toNat * 536870912 + a.toNat * 67108864 + b.toNat * 8388608 + g.toNat * 256 + 0x1017 = wd := by cases hen; exact ⟨rfl, rfl⟩
  obtain ⟨rfl, he⟩ := he
  clear hen
  refine ⟨by omega, table_32 (m := 0x0B) (by omega) (by omega) (by omega) ?_⟩
  show decode0B _ = _
  unfold decode0B
  rw [show fldN _ 11 3 = 2 from by unfold fldN; omega]
  exact accept_ok hw (by congr 1 <;> exact fld_eq (by omega)) (by simp only [List.all_cons, List.all_nil, Bool.and_true, decide_eq_true_eq]; unfold fldN; omega)

theorem pandn (d : BitVec 3) (a : BitVec 3) (b : BitVec 3) (g : BitVec 3) : Statement (.pandn d a b g) := by
  intro hw len wd hen
  have h0 := d.isLt
  have h1 := a.isLt
  have h2 := b.isLt
  have h3 := g.isLt
  have he : len = 32 ∧ d.toNat * 536870912 + a.toNat * 67108864 + b.toNat * 8388608 + g.toNat * 256 + 0x1817 = wd := by cases hen; exact ⟨rfl, rfl⟩
  obtain ⟨rfl, he⟩ := he
  clear hen
  refine ⟨by omega, table_32 (m := 0x0B) (by omega) (by omega) (by omega) ?_⟩
  show decode0B _ = _
  unfold decode0B
  rw [show fldN _ 11 3 = 3 from by unfold fldN; omega]
  exact accept_ok hw (by congr 1 <;> exact fld_eq (by omega)) (by simp only [List.all_cons, List.all_nil, Bool.and_true, decide_eq_true_eq]; unfold fldN; omega)

theorem pnot (d : BitVec 3) (a : BitVec 3) (b : BitVec 3) (g : BitVec 3) : Statement (.pnot d a b g) := by
  intro hw len wd hen
  have h0 := d.isLt
  have h1 := a.isLt
  have h2 := b.isLt
  have h3 := g.isLt
  have he : len = 32 ∧ d.toNat * 536870912 + a.toNat * 67108864 + b.toNat * 8388608 + g.toNat * 256 + 0x2017 = wd := by cases hen; exact ⟨rfl, rfl⟩
  obtain ⟨rfl, he⟩ := he
  clear hen
  refine ⟨by omega, table_32 (m := 0x0B) (by omega) (by omega) (by omega) ?_⟩
  show decode0B _ = _
  unfold decode0B
  rw [show fldN _ 11 3 = 4 from by unfold fldN; omega]
  exact accept_ok hw (by congr 1 <;> exact fld_eq (by omega)) (by simp only [List.all_cons, List.all_nil, Bool.and_true, decide_eq_true_eq]; unfold fldN; omega)

theorem ld (d : BitVec 6) (b : BitVec 6) (w : BitVec 3) (i : BitVec 6) (g : BitVec 3) : Statement (.ld d b w i g) := by
  intro hw len wd hen
  have h0 := d.isLt
  have h1 := b.isLt
  have h2 := w.isLt
  have h3 := i.isLt
  have h4 := g.isLt
  have he : len = 32 ∧ d.toNat * 67108864 + b.toNat * 1048576 + w.toNat * 131072 + i.toNat * 2048 + g.toNat * 256 + 0x19 = wd := by cases hen; exact ⟨rfl, rfl⟩
  obtain ⟨rfl, he⟩ := he
  clear hen
  refine ⟨by omega, table_32 (m := 0x0C) (by omega) (by omega) (by omega) ?_⟩
  show decode0C _ = _
  unfold decode0C
  exact accept_ok hw (by congr 1 <;> exact fld_eq (by omega)) rfl

theorem ldSp (d : BitVec 6) (b : BitVec 6) (w : BitVec 3) (i : BitVec 6) (g : BitVec 3) : Statement (.ldSp d b w i g) := by
  intro hw len wd hen
  have h0 := d.isLt
  have h1 := b.isLt
  have h2 := w.isLt
  have h3 := i.isLt
  have h4 := g.isLt
  have he : len = 32 ∧ d.toNat * 67108864 + b.toNat * 1048576 + w.toNat * 131072 + i.toNat * 2048 + g.toNat * 256 + 0x1b = wd := by cases hen; exact ⟨rfl, rfl⟩
  obtain ⟨rfl, he⟩ := he
  clear hen
  refine ⟨by omega, table_32 (m := 0x0D) (by omega) (by omega) (by omega) ?_⟩
  show decode0D _ = _
  unfold decode0D
  exact accept_ok hw (by congr 1 <;> exact fld_eq (by omega)) rfl

theorem st (d : BitVec 6) (b : BitVec 6) (w : BitVec 3) (i : BitVec 6) (g : BitVec 3) : Statement (.st d b w i g) := by
  intro hw len wd hen
  have h0 := d.isLt
  have h1 := b.isLt
  have h2 := w.isLt
  have h3 := i.isLt
  have h4 := g.isLt
  have he : len = 32 ∧ d.toNat * 67108864 + b.toNat * 1048576 + w.toNat * 131072 + i.toNat * 2048 + g.toNat * 256 + 0x1d = wd := by cases hen; exact ⟨rfl, rfl⟩
  obtain ⟨rfl, he⟩ := he
  clear hen
  refine ⟨by omega, table_32 (m := 0x0E) (by omega) (by omega) (by omega) ?_⟩
  show decode0E _ = _
  unfold decode0E
  exact accept_ok hw (by congr 1 <;> exact fld_eq (by omega)) rfl

theorem stSp (d : BitVec 6) (b : BitVec 6) (w : BitVec 3) (i : BitVec 6) (g : BitVec 3) : Statement (.stSp d b w i g) := by
  intro hw len wd hen
  have h0 := d.isLt
  have h1 := b.isLt
  have h2 := w.isLt
  have h3 := i.isLt
  have h4 := g.isLt
  have he : len = 32 ∧ d.toNat * 67108864 + b.toNat * 1048576 + w.toNat * 131072 + i.toNat * 2048 + g.toNat * 256 + 0x1f = wd := by cases hen; exact ⟨rfl, rfl⟩
  obtain ⟨rfl, he⟩ := he
  clear hen
  refine ⟨by omega, table_32 (m := 0x0F) (by omega) (by omega) (by omega) ?_⟩
  show decode0F _ = _
  unfold decode0F
  exact accept_ok hw (by congr 1 <;> exact fld_eq (by omega)) rfl

theorem atom (d : BitVec 6) (b : BitVec 6) (o : BitVec 3) (z : BitVec 2) (c : BitVec 2) (g : BitVec 3) : Statement (.atom d b o z c g) := by
  intro hw len wd hen
  have h0 := d.isLt
  have h1 := b.isLt
  have h2 := o.isLt
  have h3 := z.isLt
  have h4 := c.isLt
  have h5 := g.isLt
  have he : len = 32 ∧ d.toNat * 67108864 + b.toNat * 1048576 + o.toNat * 131072 + z.toNat * 32768 + c.toNat * 8192 + g.toNat * 256 + 0x21 = wd := by cases hen; exact ⟨rfl, rfl⟩
  obtain ⟨rfl, he⟩ := he
  clear hen
  refine ⟨by omega, table_32 (m := 0x10) (by omega) (by omega) (by omega) ?_⟩
  show decode10 _ = _
  unfold decode10
  exact accept_ok hw (by congr 1 <;> exact fld_eq (by omega)) (by simp only [List.all_cons, List.all_nil, Bool.and_true, decide_eq_true_eq]; unfold fldN; omega)

theorem cas (d : BitVec 6) (b : BitVec 6) (z : BitVec 2) (c : BitVec 2) (g : BitVec 3) : Statement (.cas d b z c g) := by
  intro hw len wd hen
  have h0 := d.isLt
  have h1 := b.isLt
  have h2 := z.isLt
  have h3 := c.isLt
  have h4 := g.isLt
  have he : len = 32 ∧ d.toNat * 67108864 + b.toNat * 1048576 + z.toNat * 32768 + c.toNat * 8192 + g.toNat * 256 + 0x23 = wd := by cases hen; exact ⟨rfl, rfl⟩
  obtain ⟨rfl, he⟩ := he
  clear hen
  refine ⟨by omega, table_32 (m := 0x11) (by omega) (by omega) (by omega) ?_⟩
  show decode11 _ = _
  unfold decode11
  exact accept_ok hw (by congr 1 <;> exact fld_eq (by omega)) (by simp only [List.all_cons, List.all_nil, Bool.and_true, Bool.and_eq_true, decide_eq_true_eq]; unfold fldN; omega)

theorem atomSp (d : BitVec 6) (b : BitVec 6) (o : BitVec 3) (z : BitVec 2) (c : BitVec 2) (g : BitVec 3) : Statement (.atomSp d b o z c g) := by
  intro hw len wd hen
  have h0 := d.isLt
  have h1 := b.isLt
  have h2 := o.isLt
  have h3 := z.isLt
  have h4 := c.isLt
  have h5 := g.isLt
  have he : len = 32 ∧ d.toNat * 67108864 + b.toNat * 1048576 + o.toNat * 131072 + z.toNat * 32768 + c.toNat * 8192 + g.toNat * 256 + 0x25 = wd := by cases hen; exact ⟨rfl, rfl⟩
  obtain ⟨rfl, he⟩ := he
  clear hen
  refine ⟨by omega, table_32 (m := 0x12) (by omega) (by omega) (by omega) ?_⟩
  show decode12 _ = _
  unfold decode12
  exact accept_ok hw (by congr 1 <;> exact fld_eq (by omega)) (by simp only [List.all_cons, List.all_nil, Bool.and_true, decide_eq_true_eq]; unfold fldN; omega)

theorem casSp (d : BitVec 6) (b : BitVec 6) (z : BitVec 2) (c : BitVec 2) (g : BitVec 3) : Statement (.casSp d b z c g) := by
  intro hw len wd hen
  have h0 := d.isLt
  have h1 := b.isLt
  have h2 := z.isLt
  have h3 := c.isLt
  have h4 := g.isLt
  have he : len = 32 ∧ d.toNat * 67108864 + b.toNat * 1048576 + z.toNat * 32768 + c.toNat * 8192 + g.toNat * 256 + 0x27 = wd := by cases hen; exact ⟨rfl, rfl⟩
  obtain ⟨rfl, he⟩ := he
  clear hen
  refine ⟨by omega, table_32 (m := 0x13) (by omega) (by omega) (by omega) ?_⟩
  show decode13 _ = _
  unfold decode13
  exact accept_ok hw (by congr 1 <;> exact fld_eq (by omega)) (by simp only [List.all_cons, List.all_nil, Bool.and_true, Bool.and_eq_true, decide_eq_true_eq]; unfold fldN; omega)

theorem fence (s : BitVec 3) (g : BitVec 3) : Statement (.fence s g) := by
  intro hw len wd hen
  have h0 := s.isLt
  have h1 := g.isLt
  have he : len = 32 ∧ s.toNat * 2048 + g.toNat * 256 + 0x29 = wd := by cases hen; exact ⟨rfl, rfl⟩
  obtain ⟨rfl, he⟩ := he
  clear hen
  refine ⟨by omega, table_32 (m := 0x14) (by omega) (by omega) (by omega) ?_⟩
  show decode14 _ = _
  unfold decode14
  exact accept_ok hw (by congr 1 <;> exact fld_eq (by omega)) (by simp only [List.all_cons, List.all_nil, Bool.and_true, decide_eq_true_eq]; unfold fldN; omega)

theorem flsig (d : BitVec 6) (a : BitVec 6) (g : BitVec 3) : Statement (.flsig d a g) := by
  intro hw len wd hen
  have h0 := d.isLt
  have h1 := a.isLt
  have h2 := g.isLt
  have he : len = 32 ∧ d.toNat * 67108864 + a.toNat * 1048576 + g.toNat * 256 + 0x2b = wd := by cases hen; exact ⟨rfl, rfl⟩
  obtain ⟨rfl, he⟩ := he
  clear hen
  refine ⟨by omega, table_32 (m := 0x15) (by omega) (by omega) (by omega) ?_⟩
  show decode15 _ = _
  unfold decode15
  rw [show fldN _ 11 3 = 0 from by unfold fldN; omega]
  exact accept_ok hw (by congr 1 <;> exact fld_eq (by omega)) (by simp only [List.all_cons, List.all_nil, Bool.and_true, decide_eq_true_eq]; unfold fldN; omega)

theorem tkwait (d : BitVec 6) (a : BitVec 6) (g : BitVec 3) : Statement (.tkwait d a g) := by
  intro hw len wd hen
  have h0 := d.isLt
  have h1 := a.isLt
  have h2 := g.isLt
  have he : len = 32 ∧ d.toNat * 67108864 + a.toNat * 1048576 + g.toNat * 256 + 0x2d = wd := by cases hen; exact ⟨rfl, rfl⟩
  obtain ⟨rfl, he⟩ := he
  clear hen
  refine ⟨by omega, table_32 (m := 0x16) (by omega) (by omega) (by omega) ?_⟩
  show decode16 _ = _
  unfold decode16
  rw [show fldN _ 11 3 = 0 from by unfold fldN; omega]
  exact accept_ok hw (by congr 1 <;> exact fld_eq (by omega)) (by simp only [List.all_cons, List.all_nil, Bool.and_true, decide_eq_true_eq]; unfold fldN; omega)

theorem pbr (b : BitVec 3) (o : BitVec 18) (g : BitVec 3) : Statement (.pbr b o g) := by
  intro hw len wd hen
  have h0 := b.isLt
  have h1 := o.isLt
  have h2 := g.isLt
  have he : len = 32 ∧ b.toNat * 536870912 + o.toNat * 2048 + g.toNat * 256 + 0x31 = wd := by cases hen; exact ⟨rfl, rfl⟩
  obtain ⟨rfl, he⟩ := he
  clear hen
  refine ⟨by omega, table_32 (m := 0x18) (by omega) (by omega) (by omega) ?_⟩
  show decode18 _ = _
  unfold decode18
  exact accept_ok hw (by congr 1 <;> exact fld_eq (by omega)) rfl

theorem br (b : BitVec 3) (p : BitVec 3) (g : BitVec 3) : Statement (.br b p g) := by
  intro hw len wd hen
  have h0 := b.isLt
  have h1 := p.isLt
  have h2 := g.isLt
  have he : len = 32 ∧ b.toNat * 536870912 + p.toNat * 67108864 + g.toNat * 256 + 0x33 = wd := by cases hen; exact ⟨rfl, rfl⟩
  obtain ⟨rfl, he⟩ := he
  clear hen
  refine ⟨by omega, table_32 (m := 0x19) (by omega) (by omega) (by omega) ?_⟩
  show decode19 _ = _
  unfold decode19
  rw [show fldN _ 25 1 = 0 from by unfold fldN; omega]
  exact accept_ok hw (by congr 1 <;> exact fld_eq (by omega)) (by simp only [List.all_cons, List.all_nil, Bool.and_true, decide_eq_true_eq]; unfold fldN; omega)

theorem brL (b : BitVec 3) (p : BitVec 3) (g : BitVec 3) : Statement (.brL b p g) := by
  intro hw len wd hen
  have h0 := b.isLt
  have h1 := p.isLt
  have h2 := g.isLt
  have he : len = 32 ∧ b.toNat * 536870912 + p.toNat * 67108864 + g.toNat * 256 + 0x2000033 = wd := by cases hen; exact ⟨rfl, rfl⟩
  obtain ⟨rfl, he⟩ := he
  clear hen
  refine ⟨by omega, table_32 (m := 0x19) (by omega) (by omega) (by omega) ?_⟩
  show decode19 _ = _
  unfold decode19
  rw [show fldN _ 25 1 = 1 from by unfold fldN; omega]
  exact accept_ok hw (by congr 1 <;> exact fld_eq (by omega)) (by simp only [List.all_cons, List.all_nil, Bool.and_true, decide_eq_true_eq]; unfold fldN; omega)

theorem pbrR (b : BitVec 3) (a : BitVec 6) (g : BitVec 3) : Statement (.pbrR b a g) := by
  intro hw len wd hen
  have h0 := b.isLt
  have h1 := a.isLt
  have h2 := g.isLt
  have he : len = 32 ∧ b.toNat * 536870912 + a.toNat * 1048576 + g.toNat * 256 + 0x35 = wd := by cases hen; exact ⟨rfl, rfl⟩
  obtain ⟨rfl, he⟩ := he
  clear hen
  refine ⟨by omega, table_32 (m := 0x1A) (by omega) (by omega) (by omega) ?_⟩
  show decode1A _ = _
  unfold decode1A
  exact accept_ok hw (by congr 1 <;> exact fld_eq (by omega)) (by simp only [List.all_cons, List.all_nil, Bool.and_true, Bool.and_eq_true, decide_eq_true_eq]; unfold fldN; omega)

theorem evterm (t : BitVec 4) (s : BitVec 2) (l : BitVec 1) (e : BitVec 5) (h : BitVec 9) (g : BitVec 3) : Statement (.evterm t s l e h g) := by
  intro hw len wd hen
  have h0 := t.isLt
  have h1 := s.isLt
  have h2 := l.isLt
  have h3 := e.isLt
  have h4 := h.isLt
  have h5 := g.isLt
  have he : len = 32 ∧ t.toNat * 268435456 + s.toNat * 67108864 + l.toNat * 33554432 + e.toNat * 1048576 + h.toNat * 2048 + g.toNat * 256 + 0x37 = wd := by cases hen; exact ⟨rfl, rfl⟩
  obtain ⟨rfl, he⟩ := he
  clear hen
  refine ⟨by omega, table_32 (m := 0x1B) (by omega) (by omega) (by omega) ?_⟩
  show decode1B _ = _
  unfold decode1B
  exact accept_ok hw (by congr 1 <;> exact fld_eq (by omega)) rfl

theorem evinc (x : BitVec 5) (i : BitVec 16) (g : BitVec 3) : Statement (.evinc x i g) := by
  intro hw len wd hen
  have h0 := x.isLt
  have h1 := i.isLt
  have h2 := g.isLt
  have he : len = 32 ∧ x.toNat * 134217728 + i.toNat * 2048 + g.toNat * 256 + 0x39 = wd := by cases hen; exact ⟨rfl, rfl⟩
  obtain ⟨rfl, he⟩ := he
  clear hen
  refine ⟨by omega, table_32 (m := 0x1C) (by omega) (by omega) (by omega) ?_⟩
  show decode1C _ = _
  unfold decode1C
  exact accept_ok hw (by congr 1 <;> exact fld_eq (by omega)) rfl

theorem evwait (x : BitVec 5) (g : BitVec 3) : Statement (.evwait x g) := by
  intro hw len wd hen
  have h0 := x.isLt
  have h1 := g.isLt
  have he : len = 32 ∧ x.toNat * 134217728 + g.toNat * 256 + 0x3b = wd := by cases hen; exact ⟨rfl, rfl⟩
  obtain ⟨rfl, he⟩ := he
  clear hen
  refine ⟨by omega, table_32 (m := 0x1D) (by omega) (by omega) (by omega) ?_⟩
  show decode1D _ = _
  unfold decode1D
  rw [if_pos (by unfold fldN; omega)]
  congr 2 <;> exact fld_eq (by omega)

theorem barArrive (d : BitVec 6) (a : BitVec 6) (b : BitVec 6) (g : BitVec 3) : Statement (.barArrive d a b g) := by
  intro hw len wd hen
  have h0 := d.isLt
  have h1 := a.isLt
  have h2 := b.isLt
  have h3 := g.isLt
  have he : len = 32 ∧ d.toNat * 67108864 + a.toNat * 1048576 + b.toNat * 16384 + g.toNat * 256 + 0x41 = wd := by cases hen; exact ⟨rfl, rfl⟩
  obtain ⟨rfl, he⟩ := he
  clear hen
  refine ⟨by omega, table_32 (m := 0x20) (by omega) (by omega) (by omega) ?_⟩
  show decode20 _ = _
  unfold decode20
  rw [show fldN _ 11 3 = 0 from by unfold fldN; omega]
  exact accept_ok hw (by congr 1 <;> exact fld_eq (by omega)) rfl

theorem barWait (d : BitVec 6) (a : BitVec 6) (b : BitVec 6) (g : BitVec 3) : Statement (.barWait d a b g) := by
  intro hw len wd hen
  have h0 := d.isLt
  have h1 := a.isLt
  have h2 := b.isLt
  have h3 := g.isLt
  have he : len = 32 ∧ d.toNat * 67108864 + a.toNat * 1048576 + b.toNat * 16384 + g.toNat * 256 + 0x841 = wd := by cases hen; exact ⟨rfl, rfl⟩
  obtain ⟨rfl, he⟩ := he
  clear hen
  refine ⟨by omega, table_32 (m := 0x20) (by omega) (by omega) (by omega) ?_⟩
  show decode20 _ = _
  unfold decode20
  rw [show fldN _ 11 3 = 1 from by unfold fldN; omega]
  exact accept_ok hw (by congr 1 <;> exact fld_eq (by omega)) rfl

theorem barWait4 (d : BitVec 6) (a : BitVec 6) (b : BitVec 6) (g : BitVec 3) : Statement (.barWait4 d a b g) := by
  intro hw len wd hen
  have h0 := d.isLt
  have h1 := a.isLt
  have h2 := b.isLt
  have h3 := g.isLt
  have he : len = 32 ∧ d.toNat * 67108864 + a.toNat * 1048576 + b.toNat * 16384 + g.toNat * 256 + 0x1041 = wd := by cases hen; exact ⟨rfl, rfl⟩
  obtain ⟨rfl, he⟩ := he
  clear hen
  refine ⟨by omega, table_32 (m := 0x20) (by omega) (by omega) (by omega) ?_⟩
  show decode20 _ = _
  unfold decode20
  rw [show fldN _ 11 3 = 2 from by unfold fldN; omega]
  exact accept_ok hw (by congr 1 <;> exact fld_eq (by omega)) rfl

theorem flagAdd (d : BitVec 6) (a : BitVec 6) (b : BitVec 6) (g : BitVec 3) : Statement (.flagAdd d a b g) := by
  intro hw len wd hen
  have h0 := d.isLt
  have h1 := a.isLt
  have h2 := b.isLt
  have h3 := g.isLt
  have he : len = 32 ∧ d.toNat * 67108864 + a.toNat * 1048576 + b.toNat * 16384 + g.toNat * 256 + 0x43 = wd := by cases hen; exact ⟨rfl, rfl⟩
  obtain ⟨rfl, he⟩ := he
  clear hen
  refine ⟨by omega, table_32 (m := 0x21) (by omega) (by omega) (by omega) ?_⟩
  show decode21 _ = _
  unfold decode21
  rw [show fldN _ 11 3 = 0 from by unfold fldN; omega]
  exact accept_ok hw (by congr 1 <;> exact fld_eq (by omega)) rfl

theorem flagWait (d : BitVec 6) (a : BitVec 6) (b : BitVec 6) (g : BitVec 3) : Statement (.flagWait d a b g) := by
  intro hw len wd hen
  have h0 := d.isLt
  have h1 := a.isLt
  have h2 := b.isLt
  have h3 := g.isLt
  have he : len = 32 ∧ d.toNat * 67108864 + a.toNat * 1048576 + b.toNat * 16384 + g.toNat * 256 + 0x843 = wd := by cases hen; exact ⟨rfl, rfl⟩
  obtain ⟨rfl, he⟩ := he
  clear hen
  refine ⟨by omega, table_32 (m := 0x21) (by omega) (by omega) (by omega) ?_⟩
  show decode21 _ = _
  unfold decode21
  rw [show fldN _ 11 3 = 1 from by unfold fldN; omega]
  exact accept_ok hw (by congr 1 <;> exact fld_eq (by omega)) rfl

theorem chunk (d : BitVec 6) (a : BitVec 6) (b : BitVec 6) (g : BitVec 3) : Statement (.chunk d a b g) := by
  intro hw len wd hen
  have h0 := d.isLt
  have h1 := a.isLt
  have h2 := b.isLt
  have h3 := g.isLt
  have he : len = 32 ∧ d.toNat * 67108864 + a.toNat * 1048576 + b.toNat * 16384 + g.toNat * 256 + 0x45 = wd := by cases hen; exact ⟨rfl, rfl⟩
  obtain ⟨rfl, he⟩ := he
  clear hen
  refine ⟨by omega, table_32 (m := 0x22) (by omega) (by omega) (by omega) ?_⟩
  show decode22 _ = _
  unfold decode22
  rw [show fldN _ 11 3 = 0 from by unfold fldN; omega]
  exact accept_ok hw (by congr 1 <;> exact fld_eq (by omega)) rfl

theorem tlaunch (d : BitVec 6) (a : BitVec 6) (b : BitVec 6) (g : BitVec 3) : Statement (.tlaunch d a b g) := by
  intro hw len wd hen
  have h0 := d.isLt
  have h1 := a.isLt
  have h2 := b.isLt
  have h3 := g.isLt
  have he : len = 32 ∧ d.toNat * 67108864 + a.toNat * 1048576 + b.toNat * 16384 + g.toNat * 256 + 0x47 = wd := by cases hen; exact ⟨rfl, rfl⟩
  obtain ⟨rfl, he⟩ := he
  clear hen
  refine ⟨by omega, table_32 (m := 0x23) (by omega) (by omega) (by omega) ?_⟩
  show decode23 _ = _
  unfold decode23
  rw [show fldN _ 11 3 = 0 from by unfold fldN; omega]
  exact accept_ok hw (by congr 1 <;> exact fld_eq (by omega)) rfl

theorem tdone (a : BitVec 6) (g : BitVec 3) : Statement (.tdone a g) := by
  intro hw len wd hen
  have h0 := a.isLt
  have h1 := g.isLt
  have he : len = 32 ∧ a.toNat * 1048576 + g.toNat * 256 + 0x847 = wd := by cases hen; exact ⟨rfl, rfl⟩
  obtain ⟨rfl, he⟩ := he
  clear hen
  refine ⟨by omega, table_32 (m := 0x23) (by omega) (by omega) (by omega) ?_⟩
  show decode23 _ = _
  unfold decode23
  rw [show fldN _ 11 3 = 1 from by unfold fldN; omega]
  exact accept_ok hw (by congr 1 <;> exact fld_eq (by omega)) (by simp only [List.all_cons, List.all_nil, Bool.and_true, Bool.and_eq_true, decide_eq_true_eq]; unfold fldN; omega)

theorem tsignal (g : BitVec 3) : Statement (.tsignal g) := by
  intro hw len wd hen
  have h0 := g.isLt
  have he : len = 32 ∧ g.toNat * 256 + 0x1047 = wd := by cases hen; exact ⟨rfl, rfl⟩
  obtain ⟨rfl, he⟩ := he
  clear hen
  refine ⟨by omega, table_32 (m := 0x23) (by omega) (by omega) (by omega) ?_⟩
  show decode23 _ = _
  unfold decode23
  rw [show fldN _ 11 3 = 2 from by unfold fldN; omega]
  exact accept_ok hw (by congr 1; exact fld_eq (by omega)) (by simp only [List.all_cons, List.all_nil, Bool.and_true, decide_eq_true_eq]; unfold fldN; omega)

theorem vaddF32 (d : BitVec 5) (a : BitVec 5) (b : BitVec 5) (q : BitVec 3) (g : BitVec 3) : Statement (.vaddF32 d a b q g) := by
  intro hw len wd hen
  have h0 := d.isLt
  have h1 := a.isLt
  have h2 := b.isLt
  have h3 := q.isLt
  have h4 := g.isLt
  have he : len = 32 ∧ d.toNat * 134217728 + a.toNat * 4194304 + b.toNat * 131072 + q.toNat * 2048 + g.toNat * 256 + 0x61 = wd := by cases hen; exact ⟨rfl, rfl⟩
  obtain ⟨rfl, he⟩ := he
  clear hen
  refine ⟨by omega, table_32 (m := 0x30) (by omega) (by omega) (by omega) ?_⟩
  show decode30 _ = _
  unfold decode30
  rw [show fldN _ 14 3 = 0 from by unfold fldN; omega]
  exact accept_ok hw (by congr 1 <;> exact fld_eq (by omega)) rfl

theorem vsubF32 (d : BitVec 5) (a : BitVec 5) (b : BitVec 5) (q : BitVec 3) (g : BitVec 3) : Statement (.vsubF32 d a b q g) := by
  intro hw len wd hen
  have h0 := d.isLt
  have h1 := a.isLt
  have h2 := b.isLt
  have h3 := q.isLt
  have h4 := g.isLt
  have he : len = 32 ∧ d.toNat * 134217728 + a.toNat * 4194304 + b.toNat * 131072 + q.toNat * 2048 + g.toNat * 256 + 0x4061 = wd := by cases hen; exact ⟨rfl, rfl⟩
  obtain ⟨rfl, he⟩ := he
  clear hen
  refine ⟨by omega, table_32 (m := 0x30) (by omega) (by omega) (by omega) ?_⟩
  show decode30 _ = _
  unfold decode30
  rw [show fldN _ 14 3 = 1 from by unfold fldN; omega]
  exact accept_ok hw (by congr 1 <;> exact fld_eq (by omega)) rfl

theorem vmulF32 (d : BitVec 5) (a : BitVec 5) (b : BitVec 5) (q : BitVec 3) (g : BitVec 3) : Statement (.vmulF32 d a b q g) := by
  intro hw len wd hen
  have h0 := d.isLt
  have h1 := a.isLt
  have h2 := b.isLt
  have h3 := q.isLt
  have h4 := g.isLt
  have he : len = 32 ∧ d.toNat * 134217728 + a.toNat * 4194304 + b.toNat * 131072 + q.toNat * 2048 + g.toNat * 256 + 0x8061 = wd := by cases hen; exact ⟨rfl, rfl⟩
  obtain ⟨rfl, he⟩ := he
  clear hen
  refine ⟨by omega, table_32 (m := 0x30) (by omega) (by omega) (by omega) ?_⟩
  show decode30 _ = _
  unfold decode30
  rw [show fldN _ 14 3 = 2 from by unfold fldN; omega]
  exact accept_ok hw (by congr 1 <;> exact fld_eq (by omega)) rfl

theorem vminF32 (d : BitVec 5) (a : BitVec 5) (b : BitVec 5) (q : BitVec 3) (g : BitVec 3) : Statement (.vminF32 d a b q g) := by
  intro hw len wd hen
  have h0 := d.isLt
  have h1 := a.isLt
  have h2 := b.isLt
  have h3 := q.isLt
  have h4 := g.isLt
  have he : len = 32 ∧ d.toNat * 134217728 + a.toNat * 4194304 + b.toNat * 131072 + q.toNat * 2048 + g.toNat * 256 + 0xc061 = wd := by cases hen; exact ⟨rfl, rfl⟩
  obtain ⟨rfl, he⟩ := he
  clear hen
  refine ⟨by omega, table_32 (m := 0x30) (by omega) (by omega) (by omega) ?_⟩
  show decode30 _ = _
  unfold decode30
  rw [show fldN _ 14 3 = 3 from by unfold fldN; omega]
  exact accept_ok hw (by congr 1 <;> exact fld_eq (by omega)) rfl

theorem vmaxF32 (d : BitVec 5) (a : BitVec 5) (b : BitVec 5) (q : BitVec 3) (g : BitVec 3) : Statement (.vmaxF32 d a b q g) := by
  intro hw len wd hen
  have h0 := d.isLt
  have h1 := a.isLt
  have h2 := b.isLt
  have h3 := q.isLt
  have h4 := g.isLt
  have he : len = 32 ∧ d.toNat * 134217728 + a.toNat * 4194304 + b.toNat * 131072 + q.toNat * 2048 + g.toNat * 256 + 0x10061 = wd := by cases hen; exact ⟨rfl, rfl⟩
  obtain ⟨rfl, he⟩ := he
  clear hen
  refine ⟨by omega, table_32 (m := 0x30) (by omega) (by omega) (by omega) ?_⟩
  show decode30 _ = _
  unfold decode30
  rw [show fldN _ 14 3 = 4 from by unfold fldN; omega]
  exact accept_ok hw (by congr 1 <;> exact fld_eq (by omega)) rfl

theorem vabsF32 (d : BitVec 5) (a : BitVec 5) (q : BitVec 3) (g : BitVec 3) : Statement (.vabsF32 d a q g) := by
  intro hw len wd hen
  have h0 := d.isLt
  have h1 := a.isLt
  have h2 := q.isLt
  have h3 := g.isLt
  have he : len = 32 ∧ d.toNat * 134217728 + a.toNat * 4194304 + q.toNat * 2048 + g.toNat * 256 + 0x14061 = wd := by cases hen; exact ⟨rfl, rfl⟩
  obtain ⟨rfl, he⟩ := he
  clear hen
  refine ⟨by omega, table_32 (m := 0x30) (by omega) (by omega) (by omega) ?_⟩
  show decode30 _ = _
  unfold decode30
  rw [show fldN _ 14 3 = 5 from by unfold fldN; omega]
  exact accept_ok hw (by congr 1 <;> exact fld_eq (by omega)) (by simp only [List.all_cons, List.all_nil, Bool.and_true, decide_eq_true_eq]; unfold fldN; omega)

theorem vnegF32 (d : BitVec 5) (a : BitVec 5) (q : BitVec 3) (g : BitVec 3) : Statement (.vnegF32 d a q g) := by
  intro hw len wd hen
  have h0 := d.isLt
  have h1 := a.isLt
  have h2 := q.isLt
  have h3 := g.isLt
  have he : len = 32 ∧ d.toNat * 134217728 + a.toNat * 4194304 + q.toNat * 2048 + g.toNat * 256 + 0x18061 = wd := by cases hen; exact ⟨rfl, rfl⟩
  obtain ⟨rfl, he⟩ := he
  clear hen
  refine ⟨by omega, table_32 (m := 0x30) (by omega) (by omega) (by omega) ?_⟩
  show decode30 _ = _
  unfold decode30
  rw [show fldN _ 14 3 = 6 from by unfold fldN; omega]
  exact accept_ok hw (by congr 1 <;> exact fld_eq (by omega)) (by simp only [List.all_cons, List.all_nil, Bool.and_true, decide_eq_true_eq]; unfold fldN; omega)

theorem vaddI32 (d : BitVec 5) (a : BitVec 5) (b : BitVec 5) (q : BitVec 3) (g : BitVec 3) : Statement (.vaddI32 d a b q g) := by
  intro hw len wd hen
  have h0 := d.isLt
  have h1 := a.isLt
  have h2 := b.isLt
  have h3 := q.isLt
  have h4 := g.isLt
  have he : len = 32 ∧ d.toNat * 134217728 + a.toNat * 4194304 + b.toNat * 131072 + q.toNat * 2048 + g.toNat * 256 + 0x63 = wd := by cases hen; exact ⟨rfl, rfl⟩
  obtain ⟨rfl, he⟩ := he
  clear hen
  refine ⟨by omega, table_32 (m := 0x31) (by omega) (by omega) (by omega) ?_⟩
  show decode31 _ = _
  unfold decode31
  rw [show fldN _ 14 3 = 0 from by unfold fldN; omega]
  exact accept_ok hw (by congr 1 <;> exact fld_eq (by omega)) rfl

theorem vsubI32 (d : BitVec 5) (a : BitVec 5) (b : BitVec 5) (q : BitVec 3) (g : BitVec 3) : Statement (.vsubI32 d a b q g) := by
  intro hw len wd hen
  have h0 := d.isLt
  have h1 := a.isLt
  have h2 := b.isLt
  have h3 := q.isLt
  have h4 := g.isLt
  have he : len = 32 ∧ d.toNat * 134217728 + a.toNat * 4194304 + b.toNat * 131072 + q.toNat * 2048 + g.toNat * 256 + 0x4063 = wd := by cases hen; exact ⟨rfl, rfl⟩
  obtain ⟨rfl, he⟩ := he
  clear hen
  refine ⟨by omega, table_32 (m := 0x31) (by omega) (by omega) (by omega) ?_⟩
  show decode31 _ = _
  unfold decode31
  rw [show fldN _ 14 3 = 1 from by unfold fldN; omega]
  exact accept_ok hw (by congr 1 <;> exact fld_eq (by omega)) rfl

theorem vmulI32 (d : BitVec 5) (a : BitVec 5) (b : BitVec 5) (q : BitVec 3) (g : BitVec 3) : Statement (.vmulI32 d a b q g) := by
  intro hw len wd hen
  have h0 := d.isLt
  have h1 := a.isLt
  have h2 := b.isLt
  have h3 := q.isLt
  have h4 := g.isLt
  have he : len = 32 ∧ d.toNat * 134217728 + a.toNat * 4194304 + b.toNat * 131072 + q.toNat * 2048 + g.toNat * 256 + 0x8063 = wd := by cases hen; exact ⟨rfl, rfl⟩
  obtain ⟨rfl, he⟩ := he
  clear hen
  refine ⟨by omega, table_32 (m := 0x31) (by omega) (by omega) (by omega) ?_⟩
  show decode31 _ = _
  unfold decode31
  rw [show fldN _ 14 3 = 2 from by unfold fldN; omega]
  exact accept_ok hw (by congr 1 <;> exact fld_eq (by omega)) rfl

theorem vmulhI32 (d : BitVec 5) (a : BitVec 5) (b : BitVec 5) (q : BitVec 3) (g : BitVec 3) : Statement (.vmulhI32 d a b q g) := by
  intro hw len wd hen
  have h0 := d.isLt
  have h1 := a.isLt
  have h2 := b.isLt
  have h3 := q.isLt
  have h4 := g.isLt
  have he : len = 32 ∧ d.toNat * 134217728 + a.toNat * 4194304 + b.toNat * 131072 + q.toNat * 2048 + g.toNat * 256 + 0xc063 = wd := by cases hen; exact ⟨rfl, rfl⟩
  obtain ⟨rfl, he⟩ := he
  clear hen
  refine ⟨by omega, table_32 (m := 0x31) (by omega) (by omega) (by omega) ?_⟩
  show decode31 _ = _
  unfold decode31
  rw [show fldN _ 14 3 = 3 from by unfold fldN; omega]
  exact accept_ok hw (by congr 1 <;> exact fld_eq (by omega)) rfl

theorem vminI32 (d : BitVec 5) (a : BitVec 5) (b : BitVec 5) (q : BitVec 3) (g : BitVec 3) : Statement (.vminI32 d a b q g) := by
  intro hw len wd hen
  have h0 := d.isLt
  have h1 := a.isLt
  have h2 := b.isLt
  have h3 := q.isLt
  have h4 := g.isLt
  have he : len = 32 ∧ d.toNat * 134217728 + a.toNat * 4194304 + b.toNat * 131072 + q.toNat * 2048 + g.toNat * 256 + 0x10063 = wd := by cases hen; exact ⟨rfl, rfl⟩
  obtain ⟨rfl, he⟩ := he
  clear hen
  refine ⟨by omega, table_32 (m := 0x31) (by omega) (by omega) (by omega) ?_⟩
  show decode31 _ = _
  unfold decode31
  rw [show fldN _ 14 3 = 4 from by unfold fldN; omega]
  exact accept_ok hw (by congr 1 <;> exact fld_eq (by omega)) rfl

theorem vmaxI32 (d : BitVec 5) (a : BitVec 5) (b : BitVec 5) (q : BitVec 3) (g : BitVec 3) : Statement (.vmaxI32 d a b q g) := by
  intro hw len wd hen
  have h0 := d.isLt
  have h1 := a.isLt
  have h2 := b.isLt
  have h3 := q.isLt
  have h4 := g.isLt
  have he : len = 32 ∧ d.toNat * 134217728 + a.toNat * 4194304 + b.toNat * 131072 + q.toNat * 2048 + g.toNat * 256 + 0x14063 = wd := by cases hen; exact ⟨rfl, rfl⟩
  obtain ⟨rfl, he⟩ := he
  clear hen
  refine ⟨by omega, table_32 (m := 0x31) (by omega) (by omega) (by omega) ?_⟩
  show decode31 _ = _
  unfold decode31
  rw [show fldN _ 14 3 = 5 from by unfold fldN; omega]
  exact accept_ok hw (by congr 1 <;> exact fld_eq (by omega)) rfl

theorem vminuI32 (d : BitVec 5) (a : BitVec 5) (b : BitVec 5) (q : BitVec 3) (g : BitVec 3) : Statement (.vminuI32 d a b q g) := by
  intro hw len wd hen
  have h0 := d.isLt
  have h1 := a.isLt
  have h2 := b.isLt
  have h3 := q.isLt
  have h4 := g.isLt
  have he : len = 32 ∧ d.toNat * 134217728 + a.toNat * 4194304 + b.toNat * 131072 + q.toNat * 2048 + g.toNat * 256 + 0x18063 = wd := by cases hen; exact ⟨rfl, rfl⟩
  obtain ⟨rfl, he⟩ := he
  clear hen
  refine ⟨by omega, table_32 (m := 0x31) (by omega) (by omega) (by omega) ?_⟩
  show decode31 _ = _
  unfold decode31
  rw [show fldN _ 14 3 = 6 from by unfold fldN; omega]
  exact accept_ok hw (by congr 1 <;> exact fld_eq (by omega)) rfl

theorem vmaxuI32 (d : BitVec 5) (a : BitVec 5) (b : BitVec 5) (q : BitVec 3) (g : BitVec 3) : Statement (.vmaxuI32 d a b q g) := by
  intro hw len wd hen
  have h0 := d.isLt
  have h1 := a.isLt
  have h2 := b.isLt
  have h3 := q.isLt
  have h4 := g.isLt
  have he : len = 32 ∧ d.toNat * 134217728 + a.toNat * 4194304 + b.toNat * 131072 + q.toNat * 2048 + g.toNat * 256 + 0x1c063 = wd := by cases hen; exact ⟨rfl, rfl⟩
  obtain ⟨rfl, he⟩ := he
  clear hen
  refine ⟨by omega, table_32 (m := 0x31) (by omega) (by omega) (by omega) ?_⟩
  show decode31 _ = _
  unfold decode31
  rw [show fldN _ 14 3 = 7 from by unfold fldN; omega]
  exact accept_ok hw (by congr 1 <;> exact fld_eq (by omega)) rfl

theorem vand (d : BitVec 5) (a : BitVec 5) (b : BitVec 5) (q : BitVec 3) (g : BitVec 3) : Statement (.vand d a b q g) := by
  intro hw len wd hen
  have h0 := d.isLt
  have h1 := a.isLt
  have h2 := b.isLt
  have h3 := q.isLt
  have h4 := g.isLt
  have he : len = 32 ∧ d.toNat * 134217728 + a.toNat * 4194304 + b.toNat * 131072 + q.toNat * 2048 + g.toNat * 256 + 0x65 = wd := by cases hen; exact ⟨rfl, rfl⟩
  obtain ⟨rfl, he⟩ := he
  clear hen
  refine ⟨by omega, table_32 (m := 0x32) (by omega) (by omega) (by omega) ?_⟩
  show decode32 _ = _
  unfold decode32
  rw [show fldN _ 14 3 = 0 from by unfold fldN; omega]
  exact accept_ok hw (by congr 1 <;> exact fld_eq (by omega)) rfl

theorem vor (d : BitVec 5) (a : BitVec 5) (b : BitVec 5) (q : BitVec 3) (g : BitVec 3) : Statement (.vor d a b q g) := by
  intro hw len wd hen
  have h0 := d.isLt
  have h1 := a.isLt
  have h2 := b.isLt
  have h3 := q.isLt
  have h4 := g.isLt
  have he : len = 32 ∧ d.toNat * 134217728 + a.toNat * 4194304 + b.toNat * 131072 + q.toNat * 2048 + g.toNat * 256 + 0x4065 = wd := by cases hen; exact ⟨rfl, rfl⟩
  obtain ⟨rfl, he⟩ := he
  clear hen
  refine ⟨by omega, table_32 (m := 0x32) (by omega) (by omega) (by omega) ?_⟩
  show decode32 _ = _
  unfold decode32
  rw [show fldN _ 14 3 = 1 from by unfold fldN; omega]
  exact accept_ok hw (by congr 1 <;> exact fld_eq (by omega)) rfl

theorem vxor (d : BitVec 5) (a : BitVec 5) (b : BitVec 5) (q : BitVec 3) (g : BitVec 3) : Statement (.vxor d a b q g) := by
  intro hw len wd hen
  have h0 := d.isLt
  have h1 := a.isLt
  have h2 := b.isLt
  have h3 := q.isLt
  have h4 := g.isLt
  have he : len = 32 ∧ d.toNat * 134217728 + a.toNat * 4194304 + b.toNat * 131072 + q.toNat * 2048 + g.toNat * 256 + 0x8065 = wd := by cases hen; exact ⟨rfl, rfl⟩
  obtain ⟨rfl, he⟩ := he
  clear hen
  refine ⟨by omega, table_32 (m := 0x32) (by omega) (by omega) (by omega) ?_⟩
  show decode32 _ = _
  unfold decode32
  rw [show fldN _ 14 3 = 2 from by unfold fldN; omega]
  exact accept_ok hw (by congr 1 <;> exact fld_eq (by omega)) rfl

theorem vandn (d : BitVec 5) (a : BitVec 5) (b : BitVec 5) (q : BitVec 3) (g : BitVec 3) : Statement (.vandn d a b q g) := by
  intro hw len wd hen
  have h0 := d.isLt
  have h1 := a.isLt
  have h2 := b.isLt
  have h3 := q.isLt
  have h4 := g.isLt
  have he : len = 32 ∧ d.toNat * 134217728 + a.toNat * 4194304 + b.toNat * 131072 + q.toNat * 2048 + g.toNat * 256 + 0xc065 = wd := by cases hen; exact ⟨rfl, rfl⟩
  obtain ⟨rfl, he⟩ := he
  clear hen
  refine ⟨by omega, table_32 (m := 0x32) (by omega) (by omega) (by omega) ?_⟩
  show decode32 _ = _
  unfold decode32
  rw [show fldN _ 14 3 = 3 from by unfold fldN; omega]
  exact accept_ok hw (by congr 1 <;> exact fld_eq (by omega)) rfl

theorem vsll (d : BitVec 5) (a : BitVec 5) (b : BitVec 5) (q : BitVec 3) (g : BitVec 3) : Statement (.vsll d a b q g) := by
  intro hw len wd hen
  have h0 := d.isLt
  have h1 := a.isLt
  have h2 := b.isLt
  have h3 := q.isLt
  have h4 := g.isLt
  have he : len = 32 ∧ d.toNat * 134217728 + a.toNat * 4194304 + b.toNat * 131072 + q.toNat * 2048 + g.toNat * 256 + 0x10065 = wd := by cases hen; exact ⟨rfl, rfl⟩
  obtain ⟨rfl, he⟩ := he
  clear hen
  refine ⟨by omega, table_32 (m := 0x32) (by omega) (by omega) (by omega) ?_⟩
  show decode32 _ = _
  unfold decode32
  rw [show fldN _ 14 3 = 4 from by unfold fldN; omega]
  exact accept_ok hw (by congr 1 <;> exact fld_eq (by omega)) rfl

theorem vsrl (d : BitVec 5) (a : BitVec 5) (b : BitVec 5) (q : BitVec 3) (g : BitVec 3) : Statement (.vsrl d a b q g) := by
  intro hw len wd hen
  have h0 := d.isLt
  have h1 := a.isLt
  have h2 := b.isLt
  have h3 := q.isLt
  have h4 := g.isLt
  have he : len = 32 ∧ d.toNat * 134217728 + a.toNat * 4194304 + b.toNat * 131072 + q.toNat * 2048 + g.toNat * 256 + 0x14065 = wd := by cases hen; exact ⟨rfl, rfl⟩
  obtain ⟨rfl, he⟩ := he
  clear hen
  refine ⟨by omega, table_32 (m := 0x32) (by omega) (by omega) (by omega) ?_⟩
  show decode32 _ = _
  unfold decode32
  rw [show fldN _ 14 3 = 5 from by unfold fldN; omega]
  exact accept_ok hw (by congr 1 <;> exact fld_eq (by omega)) rfl

theorem vsra (d : BitVec 5) (a : BitVec 5) (b : BitVec 5) (q : BitVec 3) (g : BitVec 3) : Statement (.vsra d a b q g) := by
  intro hw len wd hen
  have h0 := d.isLt
  have h1 := a.isLt
  have h2 := b.isLt
  have h3 := q.isLt
  have h4 := g.isLt
  have he : len = 32 ∧ d.toNat * 134217728 + a.toNat * 4194304 + b.toNat * 131072 + q.toNat * 2048 + g.toNat * 256 + 0x18065 = wd := by cases hen; exact ⟨rfl, rfl⟩
  obtain ⟨rfl, he⟩ := he
  clear hen
  refine ⟨by omega, table_32 (m := 0x32) (by omega) (by omega) (by omega) ?_⟩
  show decode32 _ = _
  unfold decode32
  rw [show fldN _ 14 3 = 6 from by unfold fldN; omega]
  exact accept_ok hw (by congr 1 <;> exact fld_eq (by omega)) rfl

theorem vfmaF32 (d : BitVec 5) (a : BitVec 5) (b : BitVec 5) (c : BitVec 5) (g : BitVec 3) : Statement (.vfmaF32 d a b c g) := by
  intro hw len wd hen
  have h0 := d.isLt
  have h1 := a.isLt
  have h2 := b.isLt
  have h3 := c.isLt
  have h4 := g.isLt
  have he : len = 32 ∧ d.toNat * 134217728 + a.toNat * 4194304 + b.toNat * 131072 + c.toNat * 4096 + g.toNat * 256 + 0x67 = wd := by cases hen; exact ⟨rfl, rfl⟩
  obtain ⟨rfl, he⟩ := he
  clear hen
  refine ⟨by omega, table_32 (m := 0x33) (by omega) (by omega) (by omega) ?_⟩
  show decode33 _ = _
  unfold decode33
  rw [show fldN _ 11 1 = 0 from by unfold fldN; omega]
  exact accept_ok hw (by congr 1 <;> exact fld_eq (by omega)) rfl

theorem vfmsF32 (d : BitVec 5) (a : BitVec 5) (b : BitVec 5) (c : BitVec 5) (g : BitVec 3) : Statement (.vfmsF32 d a b c g) := by
  intro hw len wd hen
  have h0 := d.isLt
  have h1 := a.isLt
  have h2 := b.isLt
  have h3 := c.isLt
  have h4 := g.isLt
  have he : len = 32 ∧ d.toNat * 134217728 + a.toNat * 4194304 + b.toNat * 131072 + c.toNat * 4096 + g.toNat * 256 + 0x867 = wd := by cases hen; exact ⟨rfl, rfl⟩
  obtain ⟨rfl, he⟩ := he
  clear hen
  refine ⟨by omega, table_32 (m := 0x33) (by omega) (by omega) (by omega) ?_⟩
  show decode33 _ = _
  unfold decode33
  rw [show fldN _ 11 1 = 1 from by unfold fldN; omega]
  exact accept_ok hw (by congr 1 <;> exact fld_eq (by omega)) rfl

theorem vfnmaF32 (d : BitVec 5) (a : BitVec 5) (b : BitVec 5) (c : BitVec 5) (g : BitVec 3) : Statement (.vfnmaF32 d a b c g) := by
  intro hw len wd hen
  have h0 := d.isLt
  have h1 := a.isLt
  have h2 := b.isLt
  have h3 := c.isLt
  have h4 := g.isLt
  have he : len = 32 ∧ d.toNat * 134217728 + a.toNat * 4194304 + b.toNat * 131072 + c.toNat * 4096 + g.toNat * 256 + 0x69 = wd := by cases hen; exact ⟨rfl, rfl⟩
  obtain ⟨rfl, he⟩ := he
  clear hen
  refine ⟨by omega, table_32 (m := 0x34) (by omega) (by omega) (by omega) ?_⟩
  show decode34 _ = _
  unfold decode34
  rw [show fldN _ 11 1 = 0 from by unfold fldN; omega]
  exact accept_ok hw (by congr 1 <;> exact fld_eq (by omega)) rfl

theorem vfnmsF32 (d : BitVec 5) (a : BitVec 5) (b : BitVec 5) (c : BitVec 5) (g : BitVec 3) : Statement (.vfnmsF32 d a b c g) := by
  intro hw len wd hen
  have h0 := d.isLt
  have h1 := a.isLt
  have h2 := b.isLt
  have h3 := c.isLt
  have h4 := g.isLt
  have he : len = 32 ∧ d.toNat * 134217728 + a.toNat * 4194304 + b.toNat * 131072 + c.toNat * 4096 + g.toNat * 256 + 0x869 = wd := by cases hen; exact ⟨rfl, rfl⟩
  obtain ⟨rfl, he⟩ := he
  clear hen
  refine ⟨by omega, table_32 (m := 0x34) (by omega) (by omega) (by omega) ?_⟩
  show decode34 _ = _
  unfold decode34
  rw [show fldN _ 11 1 = 1 from by unfold fldN; omega]
  exact accept_ok hw (by congr 1 <;> exact fld_eq (by omega)) rfl

theorem vrcp (d : BitVec 5) (a : BitVec 5) (q : BitVec 3) (g : BitVec 3) : Statement (.vrcp d a q g) := by
  intro hw len wd hen
  have h0 := d.isLt
  have h1 := a.isLt
  have h2 := q.isLt
  have h3 := g.isLt
  have he : len = 32 ∧ d.toNat * 134217728 + a.toNat * 4194304 + q.toNat * 2048 + g.toNat * 256 + 0x6b = wd := by cases hen; exact ⟨rfl, rfl⟩
  obtain ⟨rfl, he⟩ := he
  clear hen
  refine ⟨by omega, table_32 (m := 0x35) (by omega) (by omega) (by omega) ?_⟩
  show decode35 _ = _
  unfold decode35
  rw [show fldN _ 14 3 = 0 from by unfold fldN; omega]
  exact accept_ok hw (by congr 1 <;> exact fld_eq (by omega)) (by simp only [List.all_cons, List.all_nil, Bool.and_true, decide_eq_true_eq]; unfold fldN; omega)

theorem vrsqrt (d : BitVec 5) (a : BitVec 5) (q : BitVec 3) (g : BitVec 3) : Statement (.vrsqrt d a q g) := by
  intro hw len wd hen
  have h0 := d.isLt
  have h1 := a.isLt
  have h2 := q.isLt
  have h3 := g.isLt
  have he : len = 32 ∧ d.toNat * 134217728 + a.toNat * 4194304 + q.toNat * 2048 + g.toNat * 256 + 0x406b = wd := by cases hen; exact ⟨rfl, rfl⟩
  obtain ⟨rfl, he⟩ := he
  clear hen
  refine ⟨by omega, table_32 (m := 0x35) (by omega) (by omega) (by omega) ?_⟩
  show decode35 _ = _
  unfold decode35
  rw [show fldN _ 14 3 = 1 from by unfold fldN; omega]
  exact accept_ok hw (by congr 1 <;> exact fld_eq (by omega)) (by simp only [List.all_cons, List.all_nil, Bool.and_true, decide_eq_true_eq]; unfold fldN; omega)

theorem vexp2 (d : BitVec 5) (a : BitVec 5) (q : BitVec 3) (g : BitVec 3) : Statement (.vexp2 d a q g) := by
  intro hw len wd hen
  have h0 := d.isLt
  have h1 := a.isLt
  have h2 := q.isLt
  have h3 := g.isLt
  have he : len = 32 ∧ d.toNat * 134217728 + a.toNat * 4194304 + q.toNat * 2048 + g.toNat * 256 + 0x806b = wd := by cases hen; exact ⟨rfl, rfl⟩
  obtain ⟨rfl, he⟩ := he
  clear hen
  refine ⟨by omega, table_32 (m := 0x35) (by omega) (by omega) (by omega) ?_⟩
  show decode35 _ = _
  unfold decode35
  rw [show fldN _ 14 3 = 2 from by unfold fldN; omega]
  exact accept_ok hw (by congr 1 <;> exact fld_eq (by omega)) (by simp only [List.all_cons, List.all_nil, Bool.and_true, decide_eq_true_eq]; unfold fldN; omega)

theorem vlog2 (d : BitVec 5) (a : BitVec 5) (q : BitVec 3) (g : BitVec 3) : Statement (.vlog2 d a q g) := by
  intro hw len wd hen
  have h0 := d.isLt
  have h1 := a.isLt
  have h2 := q.isLt
  have h3 := g.isLt
  have he : len = 32 ∧ d.toNat * 134217728 + a.toNat * 4194304 + q.toNat * 2048 + g.toNat * 256 + 0xc06b = wd := by cases hen; exact ⟨rfl, rfl⟩
  obtain ⟨rfl, he⟩ := he
  clear hen
  refine ⟨by omega, table_32 (m := 0x35) (by omega) (by omega) (by omega) ?_⟩
  show decode35 _ = _
  unfold decode35
  rw [show fldN _ 14 3 = 3 from by unfold fldN; omega]
  exact accept_ok hw (by congr 1 <;> exact fld_eq (by omega)) (by simp only [List.all_cons, List.all_nil, Bool.and_true, decide_eq_true_eq]; unfold fldN; omega)

theorem vcmpF32 (d : BitVec 4) (a : BitVec 5) (b : BitVec 5) (c : BitVec 3) (q : BitVec 3) (g : BitVec 3) : Statement (.vcmpF32 d a b c q g) := by
  intro hw len wd hen
  have h0 := d.isLt
  have h1 := a.isLt
  have h2 := b.isLt
  have h3 := c.isLt
  have h4 := q.isLt
  have h5 := g.isLt
  have he : len = 32 ∧ d.toNat * 268435456 + a.toNat * 8388608 + b.toNat * 262144 + c.toNat * 32768 + q.toNat * 4096 + g.toNat * 256 + 0x6d = wd := by cases hen; exact ⟨rfl, rfl⟩
  obtain ⟨rfl, he⟩ := he
  clear hen
  refine ⟨by omega, table_32 (m := 0x36) (by omega) (by omega) (by omega) ?_⟩
  show decode36 _ = _
  unfold decode36
  exact accept_ok hw (by congr 1 <;> exact fld_eq (by omega)) (by simp only [List.all_cons, List.all_nil, Bool.and_true, decide_eq_true_eq]; unfold fldN; omega)

theorem vcmpI32 (d : BitVec 4) (a : BitVec 5) (b : BitVec 5) (c : BitVec 3) (q : BitVec 3) (g : BitVec 3) : Statement (.vcmpI32 d a b c q g) := by
  intro hw len wd hen
  have h0 := d.isLt
  have h1 := a.isLt
  have h2 := b.isLt
  have h3 := c.isLt
  have h4 := q.isLt
  have h5 := g.isLt
  have he : len = 32 ∧ d.toNat * 268435456 + a.toNat * 8388608 + b.toNat * 262144 + c.toNat * 32768 + q.toNat * 4096 + g.toNat * 256 + 0x6f = wd := by cases hen; exact ⟨rfl, rfl⟩
  obtain ⟨rfl, he⟩ := he
  clear hen
  refine ⟨by omega, table_32 (m := 0x37) (by omega) (by omega) (by omega) ?_⟩
  show decode37 _ = _
  unfold decode37
  exact accept_ok hw (by congr 1 <;> exact fld_eq (by omega)) (by simp only [List.all_cons, List.all_nil, Bool.and_true, decide_eq_true_eq]; unfold fldN; omega)

theorem vlut3 (d : BitVec 5) (a : BitVec 5) (b : BitVec 5) (c : BitVec 5) (g : BitVec 3) : Statement (.vlut3 d a b c g) := by
  intro hw len wd hen
  have h0 := d.isLt
  have h1 := a.isLt
  have h2 := b.isLt
  have h3 := c.isLt
  have h4 := g.isLt
  have he : len = 32 ∧ d.toNat * 134217728 + a.toNat * 4194304 + b.toNat * 131072 + c.toNat * 4096 + g.toNat * 256 + 0x71 = wd := by cases hen; exact ⟨rfl, rfl⟩
  obtain ⟨rfl, he⟩ := he
  clear hen
  refine ⟨by omega, table_32 (m := 0x38) (by omega) (by omega) (by omega) ?_⟩
  show decode38 _ = _
  unfold decode38
  rw [show fldN _ 11 1 = 0 from by unfold fldN; omega]
  exact accept_ok hw (by congr 1 <;> exact fld_eq (by omega)) rfl

theorem vfsl (d : BitVec 5) (a : BitVec 5) (b : BitVec 5) (i : BitVec 6) (g : BitVec 3) : Statement (.vfsl d a b i g) := by
  intro hw len wd hen
  have h0 := d.isLt
  have h1 := a.isLt
  have h2 := b.isLt
  have h3 := i.isLt
  have h4 := g.isLt
  have he : len = 32 ∧ d.toNat * 134217728 + a.toNat * 4194304 + b.toNat * 131072 + i.toNat * 2048 + g.toNat * 256 + 0x73 = wd := by cases hen; exact ⟨rfl, rfl⟩
  obtain ⟨rfl, he⟩ := he
  clear hen
  refine ⟨by omega, table_32 (m := 0x39) (by omega) (by omega) (by omega) ?_⟩
  show decode39 _ = _
  unfold decode39
  exact accept_ok hw (by congr 1 <;> exact fld_eq (by omega)) rfl

theorem vfsr (d : BitVec 5) (a : BitVec 5) (b : BitVec 5) (i : BitVec 6) (g : BitVec 3) : Statement (.vfsr d a b i g) := by
  intro hw len wd hen
  have h0 := d.isLt
  have h1 := a.isLt
  have h2 := b.isLt
  have h3 := i.isLt
  have h4 := g.isLt
  have he : len = 32 ∧ d.toNat * 134217728 + a.toNat * 4194304 + b.toNat * 131072 + i.toNat * 2048 + g.toNat * 256 + 0x75 = wd := by cases hen; exact ⟨rfl, rfl⟩
  obtain ⟨rfl, he⟩ := he
  clear hen
  refine ⟨by omega, table_32 (m := 0x3A) (by omega) (by omega) (by omega) ?_⟩
  show decode3A _ = _
  unfold decode3A
  exact accept_ok hw (by congr 1 <;> exact fld_eq (by omega)) rfl

theorem vrotl (d : BitVec 5) (a : BitVec 5) (i : BitVec 6) (g : BitVec 3) : Statement (.vrotl d a i g) := by
  intro hw len wd hen
  have h0 := d.isLt
  have h1 := a.isLt
  have h2 := i.isLt
  have h3 := g.isLt
  have he : len = 32 ∧ d.toNat * 134217728 + a.toNat * 4194304 + i.toNat * 2048 + g.toNat * 256 + 0x77 = wd := by cases hen; exact ⟨rfl, rfl⟩
  obtain ⟨rfl, he⟩ := he
  clear hen
  refine ⟨by omega, table_32 (m := 0x3B) (by omega) (by omega) (by omega) ?_⟩
  show decode3B _ = _
  unfold decode3B
  exact accept_ok hw (by congr 1 <;> exact fld_eq (by omega)) (by simp only [List.all_cons, List.all_nil, Bool.and_true, decide_eq_true_eq]; unfold fldN; omega)

theorem vpopc (d : BitVec 5) (a : BitVec 5) (q : BitVec 3) (g : BitVec 3) : Statement (.vpopc d a q g) := by
  intro hw len wd hen
  have h0 := d.isLt
  have h1 := a.isLt
  have h2 := q.isLt
  have h3 := g.isLt
  have he : len = 32 ∧ d.toNat * 134217728 + a.toNat * 4194304 + q.toNat * 2048 + g.toNat * 256 + 0x79 = wd := by cases hen; exact ⟨rfl, rfl⟩
  obtain ⟨rfl, he⟩ := he
  clear hen
  refine ⟨by omega, table_32 (m := 0x3C) (by omega) (by omega) (by omega) ?_⟩
  show decode3C _ = _
  unfold decode3C
  rw [show fldN _ 14 3 = 0 from by unfold fldN; omega]
  exact accept_ok hw (by congr 1 <;> exact fld_eq (by omega)) (by simp only [List.all_cons, List.all_nil, Bool.and_true, decide_eq_true_eq]; unfold fldN; omega)

theorem vclz (d : BitVec 5) (a : BitVec 5) (q : BitVec 3) (g : BitVec 3) : Statement (.vclz d a q g) := by
  intro hw len wd hen
  have h0 := d.isLt
  have h1 := a.isLt
  have h2 := q.isLt
  have h3 := g.isLt
  have he : len = 32 ∧ d.toNat * 134217728 + a.toNat * 4194304 + q.toNat * 2048 + g.toNat * 256 + 0x4079 = wd := by cases hen; exact ⟨rfl, rfl⟩
  obtain ⟨rfl, he⟩ := he
  clear hen
  refine ⟨by omega, table_32 (m := 0x3C) (by omega) (by omega) (by omega) ?_⟩
  show decode3C _ = _
  unfold decode3C
  rw [show fldN _ 14 3 = 1 from by unfold fldN; omega]
  exact accept_ok hw (by congr 1 <;> exact fld_eq (by omega)) (by simp only [List.all_cons, List.all_nil, Bool.and_true, decide_eq_true_eq]; unfold fldN; omega)

theorem vbrev (d : BitVec 5) (a : BitVec 5) (q : BitVec 3) (g : BitVec 3) : Statement (.vbrev d a q g) := by
  intro hw len wd hen
  have h0 := d.isLt
  have h1 := a.isLt
  have h2 := q.isLt
  have h3 := g.isLt
  have he : len = 32 ∧ d.toNat * 134217728 + a.toNat * 4194304 + q.toNat * 2048 + g.toNat * 256 + 0x8079 = wd := by cases hen; exact ⟨rfl, rfl⟩
  obtain ⟨rfl, he⟩ := he
  clear hen
  refine ⟨by omega, table_32 (m := 0x3C) (by omega) (by omega) (by omega) ?_⟩
  show decode3C _ = _
  unfold decode3C
  rw [show fldN _ 14 3 = 2 from by unfold fldN; omega]
  exact accept_ok hw (by congr 1 <;> exact fld_eq (by omega)) (by simp only [List.all_cons, List.all_nil, Bool.and_true, decide_eq_true_eq]; unfold fldN; omega)

theorem vpart (d : BitVec 5) (a : BitVec 5) (q : BitVec 3) (g : BitVec 3) : Statement (.vpart d a q g) := by
  intro hw len wd hen
  have h0 := d.isLt
  have h1 := a.isLt
  have h2 := q.isLt
  have h3 := g.isLt
  have he : len = 32 ∧ d.toNat * 134217728 + a.toNat * 4194304 + q.toNat * 2048 + g.toNat * 256 + 0x7b = wd := by cases hen; exact ⟨rfl, rfl⟩
  obtain ⟨rfl, he⟩ := he
  clear hen
  refine ⟨by omega, table_32 (m := 0x3D) (by omega) (by omega) (by omega) ?_⟩
  show decode3D _ = _
  unfold decode3D
  rw [show fldN _ 14 3 = 0 from by unfold fldN; omega]
  exact accept_ok hw (by congr 1 <;> exact fld_eq (by omega)) (by simp only [List.all_cons, List.all_nil, Bool.and_true, decide_eq_true_eq]; unfold fldN; omega)

theorem vgath (v : BitVec 5) (i : BitVec 5) (b : BitVec 6) (s : BitVec 1) (q : BitVec 3) (g : BitVec 3) : Statement (.vgath v i b s q g) := by
  intro hw len wd hen
  have h0 := v.isLt
  have h1 := i.isLt
  have h2 := b.isLt
  have h3 := s.isLt
  have h4 := q.isLt
  have h5 := g.isLt
  have he : len = 32 ∧ v.toNat * 134217728 + i.toNat * 4194304 + b.toNat * 65536 + s.toNat * 32768 + q.toNat * 4096 + g.toNat * 256 + 0x7d = wd := by cases hen; exact ⟨rfl, rfl⟩
  obtain ⟨rfl, he⟩ := he
  clear hen
  refine ⟨by omega, table_32 (m := 0x3E) (by omega) (by omega) (by omega) ?_⟩
  show decode3E _ = _
  unfold decode3E
  exact accept_ok hw (by congr 1 <;> exact fld_eq (by omega)) (by simp only [List.all_cons, List.all_nil, Bool.and_true, decide_eq_true_eq]; unfold fldN; omega)

theorem vscat (v : BitVec 5) (i : BitVec 5) (b : BitVec 6) (s : BitVec 1) (q : BitVec 3) (g : BitVec 3) : Statement (.vscat v i b s q g) := by
  intro hw len wd hen
  have h0 := v.isLt
  have h1 := i.isLt
  have h2 := b.isLt
  have h3 := s.isLt
  have h4 := q.isLt
  have h5 := g.isLt
  have he : len = 32 ∧ v.toNat * 134217728 + i.toNat * 4194304 + b.toNat * 65536 + s.toNat * 32768 + q.toNat * 4096 + g.toNat * 256 + 0x7f = wd := by cases hen; exact ⟨rfl, rfl⟩
  obtain ⟨rfl, he⟩ := he
  clear hen
  refine ⟨by omega, table_32 (m := 0x3F) (by omega) (by omega) (by omega) ?_⟩
  show decode3F _ = _
  unfold decode3F
  exact accept_ok hw (by congr 1 <;> exact fld_eq (by omega)) (by simp only [List.all_cons, List.all_nil, Bool.and_true, decide_eq_true_eq]; unfold fldN; omega)

theorem vld32 (v : BitVec 5) (b : BitVec 6) (s : BitVec 1) (q : BitVec 3) (g : BitVec 3) : Statement (.vld32 v b s q g) := by
  intro hw len wd hen
  have h0 := v.isLt
  have h1 := b.isLt
  have h2 := s.isLt
  have h3 := q.isLt
  have h4 := g.isLt
  have he : len = 32 ∧ v.toNat * 134217728 + b.toNat * 2097152 + s.toNat * 1048576 + q.toNat * 16384 + g.toNat * 256 + 0x81 = wd := by cases hen; exact ⟨rfl, rfl⟩
  obtain ⟨rfl, he⟩ := he
  clear hen
  refine ⟨by omega, table_32 (m := 0x40) (by omega) (by omega) (by omega) ?_⟩
  show decode40 _ = _
  unfold decode40
  rw [show fldN _ 17 3 = 0 from by unfold fldN; omega]
  exact accept_ok hw (by congr 1 <;> exact fld_eq (by omega)) (by simp only [List.all_cons, List.all_nil, Bool.and_true, decide_eq_true_eq]; unfold fldN; omega)

theorem vldB (v : BitVec 5) (b : BitVec 6) (s : BitVec 1) (q : BitVec 3) (g : BitVec 3) : Statement (.vldB v b s q g) := by
  intro hw len wd hen
  have h0 := v.isLt
  have h1 := b.isLt
  have h2 := s.isLt
  have h3 := q.isLt
  have h4 := g.isLt
  have he : len = 32 ∧ v.toNat * 134217728 + b.toNat * 2097152 + s.toNat * 1048576 + q.toNat * 16384 + g.toNat * 256 + 0x20081 = wd := by cases hen; exact ⟨rfl, rfl⟩
  obtain ⟨rfl, he⟩ := he
  clear hen
  refine ⟨by omega, table_32 (m := 0x40) (by omega) (by omega) (by omega) ?_⟩
  show decode40 _ = _
  unfold decode40
  rw [show fldN _ 17 3 = 1 from by unfold fldN; omega]
  exact accept_ok hw (by congr 1 <;> exact fld_eq (by omega)) (by simp only [List.all_cons, List.all_nil, Bool.and_true, decide_eq_true_eq]; unfold fldN; omega)

theorem vst32 (v : BitVec 5) (b : BitVec 6) (s : BitVec 1) (q : BitVec 3) (g : BitVec 3) : Statement (.vst32 v b s q g) := by
  intro hw len wd hen
  have h0 := v.isLt
  have h1 := b.isLt
  have h2 := s.isLt
  have h3 := q.isLt
  have h4 := g.isLt
  have he : len = 32 ∧ v.toNat * 134217728 + b.toNat * 2097152 + s.toNat * 1048576 + q.toNat * 16384 + g.toNat * 256 + 0x83 = wd := by cases hen; exact ⟨rfl, rfl⟩
  obtain ⟨rfl, he⟩ := he
  clear hen
  refine ⟨by omega, table_32 (m := 0x41) (by omega) (by omega) (by omega) ?_⟩
  show decode41 _ = _
  unfold decode41
  rw [show fldN _ 17 3 = 0 from by unfold fldN; omega]
  exact accept_ok hw (by congr 1 <;> exact fld_eq (by omega)) (by simp only [List.all_cons, List.all_nil, Bool.and_true, decide_eq_true_eq]; unfold fldN; omega)

theorem vslideup (d : BitVec 5) (a : BitVec 5) (b : BitVec 5) (i : BitVec 6) (g : BitVec 3) : Statement (.vslideup d a b i g) := by
  intro hw len wd hen
  have h0 := d.isLt
  have h1 := a.isLt
  have h2 := b.isLt
  have h3 := i.isLt
  have h4 := g.isLt
  have he : len = 32 ∧ d.toNat * 134217728 + a.toNat * 4194304 + b.toNat * 131072 + i.toNat * 2048 + g.toNat * 256 + 0x85 = wd := by cases hen; exact ⟨rfl, rfl⟩
  obtain ⟨rfl, he⟩ := he
  clear hen
  refine ⟨by omega, table_32 (m := 0x42) (by omega) (by omega) (by omega) ?_⟩
  show decode42 _ = _
  unfold decode42
  exact accept_ok hw (by congr 1 <;> exact fld_eq (by omega)) rfl

theorem vslidedn (d : BitVec 5) (a : BitVec 5) (b : BitVec 5) (i : BitVec 6) (g : BitVec 3) : Statement (.vslidedn d a b i g) := by
  intro hw len wd hen
  have h0 := d.isLt
  have h1 := a.isLt
  have h2 := b.isLt
  have h3 := i.isLt
  have h4 := g.isLt
  have he : len = 32 ∧ d.toNat * 134217728 + a.toNat * 4194304 + b.toNat * 131072 + i.toNat * 2048 + g.toNat * 256 + 0x87 = wd := by cases hen; exact ⟨rfl, rfl⟩
  obtain ⟨rfl, he⟩ := he
  clear hen
  refine ⟨by omega, table_32 (m := 0x43) (by omega) (by omega) (by omega) ?_⟩
  show decode43 _ = _
  unfold decode43
  exact accept_ok hw (by congr 1 <;> exact fld_eq (by omega)) rfl

theorem vperm (d : BitVec 5) (a : BitVec 5) (b : BitVec 5) (q : BitVec 3) (g : BitVec 3) : Statement (.vperm d a b q g) := by
  intro hw len wd hen
  have h0 := d.isLt
  have h1 := a.isLt
  have h2 := b.isLt
  have h3 := q.isLt
  have h4 := g.isLt
  have he : len = 32 ∧ d.toNat * 134217728 + a.toNat * 4194304 + b.toNat * 131072 + q.toNat * 2048 + g.toNat * 256 + 0x89 = wd := by cases hen; exact ⟨rfl, rfl⟩
  obtain ⟨rfl, he⟩ := he
  clear hen
  refine ⟨by omega, table_32 (m := 0x44) (by omega) (by omega) (by omega) ?_⟩
  show decode44 _ = _
  unfold decode44
  rw [show fldN _ 14 3 = 0 from by unfold fldN; omega]
  exact accept_ok hw (by congr 1 <;> exact fld_eq (by omega)) rfl

theorem vred (d : BitVec 5) (a : BitVec 5) (m : BitVec 3) (q : BitVec 3) (g : BitVec 3) : Statement (.vred d a m q g) := by
  intro hw len wd hen
  have h0 := d.isLt
  have h1 := a.isLt
  have h2 := m.isLt
  have h3 := q.isLt
  have h4 := g.isLt
  have he : len = 32 ∧ d.toNat * 134217728 + a.toNat * 4194304 + m.toNat * 16384 + q.toNat * 2048 + g.toNat * 256 + 0x8b = wd := by cases hen; exact ⟨rfl, rfl⟩
  obtain ⟨rfl, he⟩ := he
  clear hen
  refine ⟨by omega, table_32 (m := 0x45) (by omega) (by omega) (by omega) ?_⟩
  show decode45 _ = _
  unfold decode45
  exact accept_ok hw (by congr 1 <;> exact fld_eq (by omega)) (by simp only [List.all_cons, List.all_nil, Bool.and_true, decide_eq_true_eq]; unfold fldN; omega)

theorem vscan (d : BitVec 5) (a : BitVec 5) (m : BitVec 3) (q : BitVec 3) (g : BitVec 3) : Statement (.vscan d a m q g) := by
  intro hw len wd hen
  have h0 := d.isLt
  have h1 := a.isLt
  have h2 := m.isLt
  have h3 := q.isLt
  have h4 := g.isLt
  have he : len = 32 ∧ d.toNat * 134217728 + a.toNat * 4194304 + m.toNat * 16384 + q.toNat * 2048 + g.toNat * 256 + 0x8d = wd := by cases hen; exact ⟨rfl, rfl⟩
  obtain ⟨rfl, he⟩ := he
  clear hen
  refine ⟨by omega, table_32 (m := 0x46) (by omega) (by omega) (by omega) ?_⟩
  show decode46 _ = _
  unfold decode46
  exact accept_ok hw (by congr 1 <;> exact fld_eq (by omega)) (by simp only [List.all_cons, List.all_nil, Bool.and_true, decide_eq_true_eq]; unfold fldN; omega)

theorem vcvtTo (d : BitVec 5) (a : BitVec 5) (f : BitVec 6) (q : BitVec 3) (g : BitVec 3) : Statement (.vcvtTo d a f q g) := by
  intro hw len wd hen
  have h0 := d.isLt
  have h1 := a.isLt
  have h2 := f.isLt
  have h3 := q.isLt
  have h4 := g.isLt
  have he : len = 32 ∧ d.toNat * 134217728 + a.toNat * 4194304 + f.toNat * 65536 + q.toNat * 8192 + g.toNat * 256 + 0x8f = wd := by cases hen; exact ⟨rfl, rfl⟩
  obtain ⟨rfl, he⟩ := he
  clear hen
  refine ⟨by omega, table_32 (m := 0x47) (by omega) (by omega) (by omega) ?_⟩
  show decode47 _ = _
  unfold decode47
  rw [show fldN _ 12 1 = 0 from by unfold fldN; omega]
  exact accept_ok hw (by congr 1 <;> exact fld_eq (by omega)) (by simp only [List.all_cons, List.all_nil, Bool.and_true, decide_eq_true_eq]; unfold fldN; omega)

theorem vcvtFrom (d : BitVec 5) (a : BitVec 5) (f : BitVec 6) (q : BitVec 3) (g : BitVec 3) : Statement (.vcvtFrom d a f q g) := by
  intro hw len wd hen
  have h0 := d.isLt
  have h1 := a.isLt
  have h2 := f.isLt
  have h3 := q.isLt
  have h4 := g.isLt
  have he : len = 32 ∧ d.toNat * 134217728 + a.toNat * 4194304 + f.toNat * 65536 + q.toNat * 8192 + g.toNat * 256 + 0x108f = wd := by cases hen; exact ⟨rfl, rfl⟩
  obtain ⟨rfl, he⟩ := he
  clear hen
  refine ⟨by omega, table_32 (m := 0x47) (by omega) (by omega) (by omega) ?_⟩
  show decode47 _ = _
  unfold decode47
  rw [show fldN _ 12 1 = 1 from by unfold fldN; omega]
  exact accept_ok hw (by congr 1 <;> exact fld_eq (by omega)) (by simp only [List.all_cons, List.all_nil, Bool.and_true, decide_eq_true_eq]; unfold fldN; omega)

theorem vmxq (d : BitVec 5) (a : BitVec 5) (s : BitVec 5) (f : BitVec 6) (g : BitVec 3) : Statement (.vmxq d a s f g) := by
  intro hw len wd hen
  have h0 := d.isLt
  have h1 := a.isLt
  have h2 := s.isLt
  have h3 := f.isLt
  have h4 := g.isLt
  have he : len = 32 ∧ d.toNat * 134217728 + a.toNat * 4194304 + s.toNat * 131072 + f.toNat * 2048 + g.toNat * 256 + 0x91 = wd := by cases hen; exact ⟨rfl, rfl⟩
  obtain ⟨rfl, he⟩ := he
  clear hen
  refine ⟨by omega, table_32 (m := 0x48) (by omega) (by omega) (by omega) ?_⟩
  show decode48 _ = _
  unfold decode48
  exact accept_ok hw (by congr 1 <;> exact fld_eq (by omega)) rfl

theorem vsrc (d : BitVec 5) (a : BitVec 5) (f : BitVec 6) (q : BitVec 3) (g : BitVec 3) : Statement (.vsrc d a f q g) := by
  intro hw len wd hen
  have h0 := d.isLt
  have h1 := a.isLt
  have h2 := f.isLt
  have h3 := q.isLt
  have h4 := g.isLt
  have he : len = 32 ∧ d.toNat * 134217728 + a.toNat * 4194304 + f.toNat * 65536 + q.toNat * 8192 + g.toNat * 256 + 0x93 = wd := by cases hen; exact ⟨rfl, rfl⟩
  obtain ⟨rfl, he⟩ := he
  clear hen
  refine ⟨by omega, table_32 (m := 0x49) (by omega) (by omega) (by omega) ?_⟩
  show decode49 _ = _
  unfold decode49
  exact accept_ok hw (by congr 1 <;> exact fld_eq (by omega)) (by simp only [List.all_cons, List.all_nil, Bool.and_true, decide_eq_true_eq]; unfold fldN; omega)

theorem qand (d : BitVec 4) (a : BitVec 4) (b : BitVec 4) (g : BitVec 3) : Statement (.qand d a b g) := by
  intro hw len wd hen
  have h0 := d.isLt
  have h1 := a.isLt
  have h2 := b.isLt
  have h3 := g.isLt
  have he : len = 32 ∧ d.toNat * 268435456 + a.toNat * 16777216 + b.toNat * 1048576 + g.toNat * 256 + 0x95 = wd := by cases hen; exact ⟨rfl, rfl⟩
  obtain ⟨rfl, he⟩ := he
  clear hen
  refine ⟨by omega, table_32 (m := 0x4A) (by omega) (by omega) (by omega) ?_⟩
  show decode4A _ = _
  unfold decode4A
  rw [show fldN _ 11 3 = 0 from by unfold fldN; omega]
  exact accept_ok hw (by congr 1 <;> exact fld_eq (by omega)) (by simp only [List.all_cons, List.all_nil, Bool.and_true, decide_eq_true_eq]; unfold fldN; omega)

theorem qor (d : BitVec 4) (a : BitVec 4) (b : BitVec 4) (g : BitVec 3) : Statement (.qor d a b g) := by
  intro hw len wd hen
  have h0 := d.isLt
  have h1 := a.isLt
  have h2 := b.isLt
  have h3 := g.isLt
  have he : len = 32 ∧ d.toNat * 268435456 + a.toNat * 16777216 + b.toNat * 1048576 + g.toNat * 256 + 0x895 = wd := by cases hen; exact ⟨rfl, rfl⟩
  obtain ⟨rfl, he⟩ := he
  clear hen
  refine ⟨by omega, table_32 (m := 0x4A) (by omega) (by omega) (by omega) ?_⟩
  show decode4A _ = _
  unfold decode4A
  rw [show fldN _ 11 3 = 1 from by unfold fldN; omega]
  exact accept_ok hw (by congr 1 <;> exact fld_eq (by omega)) (by simp only [List.all_cons, List.all_nil, Bool.and_true, decide_eq_true_eq]; unfold fldN; omega)

theorem qxor (d : BitVec 4) (a : BitVec 4) (b : BitVec 4) (g : BitVec 3) : Statement (.qxor d a b g) := by
  intro hw len wd hen
  have h0 := d.isLt
  have h1 := a.isLt
  have h2 := b.isLt
  have h3 := g.isLt
  have he : len = 32 ∧ d.toNat * 268435456 + a.toNat * 16777216 + b.toNat * 1048576 + g.toNat * 256 + 0x1095 = wd := by cases hen; exact ⟨rfl, rfl⟩
  obtain ⟨rfl, he⟩ := he
  clear hen
  refine ⟨by omega, table_32 (m := 0x4A) (by omega) (by omega) (by omega) ?_⟩
  show decode4A _ = _
  unfold decode4A
  rw [show fldN _ 11 3 = 2 from by unfold fldN; omega]
  exact accept_ok hw (by congr 1 <;> exact fld_eq (by omega)) (by simp only [List.all_cons, List.all_nil, Bool.and_true, decide_eq_true_eq]; unfold fldN; omega)

theorem qandn (d : BitVec 4) (a : BitVec 4) (b : BitVec 4) (g : BitVec 3) : Statement (.qandn d a b g) := by
  intro hw len wd hen
  have h0 := d.isLt
  have h1 := a.isLt
  have h2 := b.isLt
  have h3 := g.isLt
  have he : len = 32 ∧ d.toNat * 268435456 + a.toNat * 16777216 + b.toNat * 1048576 + g.toNat * 256 + 0x1895 = wd := by cases hen; exact ⟨rfl, rfl⟩
  obtain ⟨rfl, he⟩ := he
  clear hen
  refine ⟨by omega, table_32 (m := 0x4A) (by omega) (by omega) (by omega) ?_⟩
  show decode4A _ = _
  unfold decode4A
  rw [show fldN _ 11 3 = 3 from by unfold fldN; omega]
  exact accept_ok hw (by congr 1 <;> exact fld_eq (by omega)) (by simp only [List.all_cons, List.all_nil, Bool.and_true, decide_eq_true_eq]; unfold fldN; omega)

theorem qnot (d : BitVec 4) (a : BitVec 4) (b : BitVec 4) (g : BitVec 3) : Statement (.qnot d a b g) := by
  intro hw len wd hen
  have h0 := d.isLt
  have h1 := a.isLt
  have h2 := b.isLt
  have h3 := g.isLt
  have he : len = 32 ∧ d.toNat * 268435456 + a.toNat * 16777216 + b.toNat * 1048576 + g.toNat * 256 + 0x2095 = wd := by cases hen; exact ⟨rfl, rfl⟩
  obtain ⟨rfl, he⟩ := he
  clear hen
  refine ⟨by omega, table_32 (m := 0x4A) (by omega) (by omega) (by omega) ?_⟩
  show decode4A _ = _
  unfold decode4A
  rw [show fldN _ 11 3 = 4 from by unfold fldN; omega]
  exact accept_ok hw (by congr 1 <;> exact fld_eq (by omega)) (by simp only [List.all_cons, List.all_nil, Bool.and_true, decide_eq_true_eq]; unfold fldN; omega)

theorem qmov (d : BitVec 4) (a : BitVec 4) (b : BitVec 4) (g : BitVec 3) : Statement (.qmov d a b g) := by
  intro hw len wd hen
  have h0 := d.isLt
  have h1 := a.isLt
  have h2 := b.isLt
  have h3 := g.isLt
  have he : len = 32 ∧ d.toNat * 268435456 + a.toNat * 16777216 + b.toNat * 1048576 + g.toNat * 256 + 0x2895 = wd := by cases hen; exact ⟨rfl, rfl⟩
  obtain ⟨rfl, he⟩ := he
  clear hen
  refine ⟨by omega, table_32 (m := 0x4A) (by omega) (by omega) (by omega) ?_⟩
  show decode4A _ = _
  unfold decode4A
  rw [show fldN _ 11 3 = 5 from by unfold fldN; omega]
  exact accept_ok hw (by congr 1 <;> exact fld_eq (by omega)) (by simp only [List.all_cons, List.all_nil, Bool.and_true, decide_eq_true_eq]; unfold fldN; omega)

theorem vsetvlImm (i : BitVec 7) (g : BitVec 3) : Statement (.vsetvlImm i g) := by
  intro hw len wd hen
  have h0 := i.isLt
  have h1 := g.isLt
  have he : len = 32 ∧ i.toNat * 262144 + g.toNat * 256 + 0x2000097 = wd := by cases hen; exact ⟨rfl, rfl⟩
  obtain ⟨rfl, he⟩ := he
  clear hen
  refine ⟨by omega, table_32 (m := 0x4B) (by omega) (by omega) (by omega) ?_⟩
  show decode4B _ = _
  unfold decode4B
  rw [show fldN _ 25 1 = 1 from by unfold fldN; omega]
  exact accept_ok hw (by congr 1 <;> exact fld_eq (by omega)) (by simp only [List.all_cons, List.all_nil, Bool.and_true, Bool.and_eq_true, decide_eq_true_eq]; unfold fldN; omega)

theorem vsetvlReg (a : BitVec 6) (g : BitVec 3) : Statement (.vsetvlReg a g) := by
  intro hw len wd hen
  have h0 := a.isLt
  have h1 := g.isLt
  have he : len = 32 ∧ a.toNat * 67108864 + g.toNat * 256 + 0x97 = wd := by cases hen; exact ⟨rfl, rfl⟩
  obtain ⟨rfl, he⟩ := he
  clear hen
  refine ⟨by omega, table_32 (m := 0x4B) (by omega) (by omega) (by omega) ?_⟩
  show decode4B _ = _
  unfold decode4B
  rw [show fldN _ 25 1 = 0 from by unfold fldN; omega]
  exact accept_ok hw (by congr 1 <;> exact fld_eq (by omega)) (by simp only [List.all_cons, List.all_nil, Bool.and_true, decide_eq_true_eq]; unfold fldN; omega)

theorem vmv (d : BitVec 5) (a : BitVec 5) (s : BitVec 6) (g : BitVec 3) : Statement (.vmv d a s g) := by
  intro hw len wd hen
  have h0 := d.isLt
  have h1 := a.isLt
  have h2 := s.isLt
  have h3 := g.isLt
  have he : len = 32 ∧ d.toNat * 134217728 + a.toNat * 4194304 + s.toNat * 65536 + g.toNat * 256 + 0x99 = wd := by cases hen; exact ⟨rfl, rfl⟩
  obtain ⟨rfl, he⟩ := he
  clear hen
  refine ⟨by omega, table_32 (m := 0x4C) (by omega) (by omega) (by omega) ?_⟩
  show decode4C _ = _
  unfold decode4C
  rw [show fldN _ 11 3 = 0 from by unfold fldN; omega]
  exact accept_ok hw (by congr 1 <;> exact fld_eq (by omega)) (by simp only [List.all_cons, List.all_nil, Bool.and_true, decide_eq_true_eq]; unfold fldN; omega)

theorem vbcast (d : BitVec 5) (s : BitVec 6) (g : BitVec 3) : Statement (.vbcast d s g) := by
  intro hw len wd hen
  have h0 := d.isLt
  have h1 := s.isLt
  have h2 := g.isLt
  have he : len = 32 ∧ d.toNat * 134217728 + s.toNat * 65536 + g.toNat * 256 + 0x899 = wd := by cases hen; exact ⟨rfl, rfl⟩
  obtain ⟨rfl, he⟩ := he
  clear hen
  refine ⟨by omega, table_32 (m := 0x4C) (by omega) (by omega) (by omega) ?_⟩
  show decode4C _ = _
  unfold decode4C
  rw [show fldN _ 11 3 = 1 from by unfold fldN; omega]
  exact accept_ok hw (by congr 1 <;> exact fld_eq (by omega)) (by simp only [List.all_cons, List.all_nil, Bool.and_true, Bool.and_eq_true, decide_eq_true_eq]; unfold fldN; omega)

theorem vsel (d : BitVec 5) (a : BitVec 5) (b : BitVec 5) (q : BitVec 3) (g : BitVec 3) : Statement (.vsel d a b q g) := by
  intro hw len wd hen
  have h0 := d.isLt
  have h1 := a.isLt
  have h2 := b.isLt
  have h3 := q.isLt
  have h4 := g.isLt
  have he : len = 32 ∧ d.toNat * 134217728 + a.toNat * 4194304 + b.toNat * 131072 + q.toNat * 2048 + g.toNat * 256 + 0x9b = wd := by cases hen; exact ⟨rfl, rfl⟩
  obtain ⟨rfl, he⟩ := he
  clear hen
  refine ⟨by omega, table_32 (m := 0x4D) (by omega) (by omega) (by omega) ?_⟩
  show decode4D _ = _
  unfold decode4D
  rw [show fldN _ 14 3 = 0 from by unfold fldN; omega]
  exact accept_ok hw (by congr 1 <;> exact fld_eq (by omega)) rfl

theorem mnest (l : BitVec 3) (f : BitVec 3) (a : BitVec 6) (g : BitVec 3) : Statement (.mnest l f a g) := by
  intro hw len wd hen
  have h0 := l.isLt
  have h1 := f.isLt
  have h2 := a.isLt
  have h3 := g.isLt
  have he : len = 32 ∧ l.toNat * 536870912 + f.toNat * 67108864 + a.toNat * 1048576 + g.toNat * 256 + 0xc1 = wd := by cases hen; exact ⟨rfl, rfl⟩
  obtain ⟨rfl, he⟩ := he
  clear hen
  refine ⟨by omega, table_32 (m := 0x60) (by omega) (by omega) (by omega) ?_⟩
  show decode60 _ = _
  unfold decode60
  exact accept_ok hw (by congr 1 <;> exact fld_eq (by omega)) (by simp only [List.all_cons, List.all_nil, Bool.and_true, decide_eq_true_eq]; unfold fldN; omega)

theorem mopa (b : BitVec 6) (s : BitVec 6) (p : BitVec 1) (t : BitVec 1) (g : BitVec 3) : Statement (.mopa b s p t g) := by
  intro hw len wd hen
  have h0 := b.isLt
  have h1 := s.isLt
  have h2 := p.isLt
  have h3 := t.isLt
  have h4 := g.isLt
  have he : len = 32 ∧ b.toNat * 67108864 + s.toNat * 1048576 + p.toNat * 524288 + t.toNat * 262144 + g.toNat * 256 + 0xc3 = wd := by cases hen; exact ⟨rfl, rfl⟩
  obtain ⟨rfl, he⟩ := he
  clear hen
  refine ⟨by omega, table_32 (m := 0x61) (by omega) (by omega) (by omega) ?_⟩
  show decode61 _ = _
  unfold decode61
  rw [show fldN _ 11 3 = 0 from by unfold fldN; omega]
  exact accept_ok hw (by congr 1 <;> exact fld_eq (by omega)) (by simp only [List.all_cons, List.all_nil, Bool.and_true, decide_eq_true_eq]; unfold fldN; omega)

theorem mopb (b : BitVec 6) (s : BitVec 6) (p : BitVec 1) (t : BitVec 1) (g : BitVec 3) : Statement (.mopb b s p t g) := by
  intro hw len wd hen
  have h0 := b.isLt
  have h1 := s.isLt
  have h2 := p.isLt
  have h3 := t.isLt
  have h4 := g.isLt
  have he : len = 32 ∧ b.toNat * 67108864 + s.toNat * 1048576 + p.toNat * 524288 + t.toNat * 262144 + g.toNat * 256 + 0x8c3 = wd := by cases hen; exact ⟨rfl, rfl⟩
  obtain ⟨rfl, he⟩ := he
  clear hen
  refine ⟨by omega, table_32 (m := 0x61) (by omega) (by omega) (by omega) ?_⟩
  show decode61 _ = _
  unfold decode61
  rw [show fldN _ 11 3 = 1 from by unfold fldN; omega]
  exact accept_ok hw (by congr 1 <;> exact fld_eq (by omega)) (by simp only [List.all_cons, List.all_nil, Bool.and_true, decide_eq_true_eq]; unfold fldN; omega)

theorem mopm (b : BitVec 6) (s : BitVec 6) (p : BitVec 1) (t : BitVec 1) (g : BitVec 3) : Statement (.mopm b s p t g) := by
  intro hw len wd hen
  have h0 := b.isLt
  have h1 := s.isLt
  have h2 := p.isLt
  have h3 := t.isLt
  have h4 := g.isLt
  have he : len = 32 ∧ b.toNat * 67108864 + s.toNat * 1048576 + p.toNat * 524288 + t.toNat * 262144 + g.toNat * 256 + 0x10c3 = wd := by cases hen; exact ⟨rfl, rfl⟩
  obtain ⟨rfl, he⟩ := he
  clear hen
  refine ⟨by omega, table_32 (m := 0x61) (by omega) (by omega) (by omega) ?_⟩
  show decode61 _ = _
  unfold decode61
  rw [show fldN _ 11 3 = 2 from by unfold fldN; omega]
  exact accept_ok hw (by congr 1 <;> exact fld_eq (by omega)) (by simp only [List.all_cons, List.all_nil, Bool.and_true, decide_eq_true_eq]; unfold fldN; omega)

theorem mma (k : BitVec 4) (f : BitVec 6) (g : BitVec 3) : Statement (.mma k f g) := by
  intro hw len wd hen
  have h0 := k.isLt
  have h1 := f.isLt
  have h2 := g.isLt
  have he : len = 32 ∧ k.toNat * 268435456 + f.toNat * 4194304 + g.toNat * 256 + 0xc5 = wd := by cases hen; exact ⟨rfl, rfl⟩
  obtain ⟨rfl, he⟩ := he
  clear hen
  refine ⟨by omega, table_32 (m := 0x62) (by omega) (by omega) (by omega) ?_⟩
  show decode62 _ = _
  unfold decode62
  exact accept_ok hw (by congr 1 <;> exact fld_eq (by omega)) (by simp only [List.all_cons, List.all_nil, Bool.and_true, decide_eq_true_eq]; unfold fldN; omega)

theorem mmas (k : BitVec 4) (f : BitVec 6) (g : BitVec 3) : Statement (.mmas k f g) := by
  intro hw len wd hen
  have h0 := k.isLt
  have h1 := f.isLt
  have h2 := g.isLt
  have he : len = 32 ∧ k.toNat * 268435456 + f.toNat * 4194304 + g.toNat * 256 + 0xc7 = wd := by cases hen; exact ⟨rfl, rfl⟩
  obtain ⟨rfl, he⟩ := he
  clear hen
  refine ⟨by omega, table_32 (m := 0x63) (by omega) (by omega) (by omega) ?_⟩
  show decode63 _ = _
  unfold decode63
  exact accept_ok hw (by congr 1 <;> exact fld_eq (by omega)) (by simp only [List.all_cons, List.all_nil, Bool.and_true, decide_eq_true_eq]; unfold fldN; omega)

theorem mgo (k : BitVec 4) (f : BitVec 6) (g : BitVec 3) : Statement (.mgo k f g) := by
  intro hw len wd hen
  have h0 := k.isLt
  have h1 := f.isLt
  have h2 := g.isLt
  have he : len = 32 ∧ k.toNat * 268435456 + f.toNat * 4194304 + g.toNat * 256 + 0xc9 = wd := by cases hen; exact ⟨rfl, rfl⟩
  obtain ⟨rfl, he⟩ := he
  clear hen
  refine ⟨by omega, table_32 (m := 0x64) (by omega) (by omega) (by omega) ?_⟩
  show decode64 _ = _
  unfold decode64
  exact accept_ok hw (by congr 1 <;> exact fld_eq (by omega)) (by simp only [List.all_cons, List.all_nil, Bool.and_true, decide_eq_true_eq]; unfold fldN; omega)

theorem mfmt (d : BitVec 6) (a : BitVec 6) (b : BitVec 6) (g : BitVec 3) : Statement (.mfmt d a b g) := by
  intro hw len wd hen
  have h0 := d.isLt
  have h1 := a.isLt
  have h2 := b.isLt
  have h3 := g.isLt
  have he : len = 32 ∧ d.toNat * 67108864 + a.toNat * 1048576 + b.toNat * 16384 + g.toNat * 256 + 0xcb = wd := by cases hen; exact ⟨rfl, rfl⟩
  obtain ⟨rfl, he⟩ := he
  clear hen
  refine ⟨by omega, table_32 (m := 0x65) (by omega) (by omega) (by omega) ?_⟩
  show decode65 _ = _
  unfold decode65
  rw [show fldN _ 11 3 = 0 from by unfold fldN; omega]
  exact accept_ok hw (by congr 1 <;> exact fld_eq (by omega)) rfl

theorem mfmtPool (a : BitVec 6) (b : BitVec 6) (g : BitVec 3) : Statement (.mfmtPool a b g) := by
  intro hw len wd hen
  have h0 := a.isLt
  have h1 := b.isLt
  have h2 := g.isLt
  have he : len = 32 ∧ a.toNat * 1048576 + b.toNat * 16384 + g.toNat * 256 + 0x8cb = wd := by cases hen; exact ⟨rfl, rfl⟩
  obtain ⟨rfl, he⟩ := he
  clear hen
  refine ⟨by omega, table_32 (m := 0x65) (by omega) (by omega) (by omega) ?_⟩
  show decode65 _ = _
  unfold decode65
  rw [show fldN _ 11 3 = 1 from by unfold fldN; omega]
  exact accept_ok hw (by congr 1 <;> exact fld_eq (by omega)) (by simp only [List.all_cons, List.all_nil, Bool.and_true, decide_eq_true_eq]; unfold fldN; omega)

theorem mfmtcommit (g : BitVec 3) : Statement (.mfmtcommit g) := by
  intro hw len wd hen
  have h0 := g.isLt
  have he : len = 32 ∧ g.toNat * 256 + 0xcd = wd := by cases hen; exact ⟨rfl, rfl⟩
  obtain ⟨rfl, he⟩ := he
  clear hen
  refine ⟨by omega, table_32 (m := 0x66) (by omega) (by omega) (by omega) ?_⟩
  show decode66 _ = _
  unfold decode66
  exact accept_ok hw (by congr 1; exact fld_eq (by omega)) (by simp only [List.all_cons, List.all_nil, Bool.and_true, decide_eq_true_eq]; unfold fldN; omega)

theorem chbuild (c : BitVec 8) (a : BitVec 6) (f : BitVec 1) (g : BitVec 3) : Statement (.chbuild c a f g) := by
  intro hw len wd hen
  have h0 := c.isLt
  have h1 := a.isLt
  have h2 := f.isLt
  have h3 := g.isLt
  have he : len = 32 ∧ c.toNat * 16777216 + a.toNat * 262144 + f.toNat * 2048 + g.toNat * 256 + 0xcf = wd := by cases hen; exact ⟨rfl, rfl⟩
  obtain ⟨rfl, he⟩ := he
  clear hen
  refine ⟨by omega, table_32 (m := 0x67) (by omega) (by omega) (by omega) ?_⟩
  show decode67 _ = _
  unfold decode67
  exact accept_ok hw (by congr 1 <;> exact fld_eq (by omega)) (by simp only [List.all_cons, List.all_nil, Bool.and_true, decide_eq_true_eq]; unfold fldN; omega)

theorem chclose (c : BitVec 8) (a : BitVec 6) (b : BitVec 6) (f : BitVec 1) (g : BitVec 3) : Statement (.chclose c a b f g) := by
  intro hw len wd hen
  have h0 := c.isLt
  have h1 := a.isLt
  have h2 := b.isLt
  have h3 := f.isLt
  have h4 := g.isLt
  have he : len = 32 ∧ c.toNat * 16777216 + a.toNat * 262144 + b.toNat * 4096 + f.toNat * 2048 + g.toNat * 256 + 0xd1 = wd := by cases hen; exact ⟨rfl, rfl⟩
  obtain ⟨rfl, he⟩ := he
  clear hen
  refine ⟨by omega, table_32 (m := 0x68) (by omega) (by omega) (by omega) ?_⟩
  show decode68 _ = _
  unfold decode68
  exact accept_ok hw (by congr 1 <;> exact fld_eq (by omega)) rfl

theorem chstat (c : BitVec 8) (a : BitVec 6) (g : BitVec 3) : Statement (.chstat c a g) := by
  intro hw len wd hen
  have h0 := c.isLt
  have h1 := a.isLt
  have h2 := g.isLt
  have he : len = 32 ∧ c.toNat * 16777216 + a.toNat * 262144 + g.toNat * 256 + 0xd3 = wd := by cases hen; exact ⟨rfl, rfl⟩
  obtain ⟨rfl, he⟩ := he
  clear hen
  refine ⟨by omega, table_32 (m := 0x69) (by omega) (by omega) (by omega) ?_⟩
  show decode69 _ = _
  unfold decode69
  exact accept_ok hw (by congr 1 <;> exact fld_eq (by omega)) (by simp only [List.all_cons, List.all_nil, Bool.and_true, decide_eq_true_eq]; unfold fldN; omega)

theorem chsplice (c : BitVec 8) (a : BitVec 6) (b : BitVec 6) (g : BitVec 3) : Statement (.chsplice c a b g) := by
  intro hw len wd hen
  have h0 := c.isLt
  have h1 := a.isLt
  have h2 := b.isLt
  have h3 := g.isLt
  have he : len = 32 ∧ c.toNat * 16777216 + a.toNat * 262144 + b.toNat * 4096 + g.toNat * 256 + 0xd5 = wd := by cases hen; exact ⟨rfl, rfl⟩
  obtain ⟨rfl, he⟩ := he
  clear hen
  refine ⟨by omega, table_32 (m := 0x6A) (by omega) (by omega) (by omega) ?_⟩
  show decode6A _ = _
  unfold decode6A
  exact accept_ok hw (by congr 1 <;> exact fld_eq (by omega)) (by simp only [List.all_cons, List.all_nil, Bool.and_true, decide_eq_true_eq]; unfold fldN; omega)

theorem chhalt (c : BitVec 8) (g : BitVec 3) : Statement (.chhalt c g) := by
  intro hw len wd hen
  have h0 := c.isLt
  have h1 := g.isLt
  have he : len = 32 ∧ c.toNat * 16777216 + g.toNat * 256 + 0xd7 = wd := by cases hen; exact ⟨rfl, rfl⟩
  obtain ⟨rfl, he⟩ := he
  clear hen
  refine ⟨by omega, table_32 (m := 0x6B) (by omega) (by omega) (by omega) ?_⟩
  show decode6B _ = _
  unfold decode6B
  rw [show fldN _ 12 6 = 0 from by unfold fldN; omega]
  exact accept_ok hw (by congr 1 <;> exact fld_eq (by omega)) (by simp only [List.all_cons, List.all_nil, Bool.and_true, Bool.and_eq_true, decide_eq_true_eq]; unfold fldN; omega)

theorem chthaw (c : BitVec 8) (g : BitVec 3) : Statement (.chthaw c g) := by
  intro hw len wd hen
  have h0 := c.isLt
  have h1 := g.isLt
  have he : len = 32 ∧ c.toNat * 16777216 + g.toNat * 256 + 0x10d7 = wd := by cases hen; exact ⟨rfl, rfl⟩
  obtain ⟨rfl, he⟩ := he
  clear hen
  refine ⟨by omega, table_32 (m := 0x6B) (by omega) (by omega) (by omega) ?_⟩
  show decode6B _ = _
  unfold decode6B
  rw [show fldN _ 12 6 = 1 from by unfold fldN; omega]
  exact accept_ok hw (by congr 1 <;> exact fld_eq (by omega)) (by simp only [List.all_cons, List.all_nil, Bool.and_true, Bool.and_eq_true, decide_eq_true_eq]; unfold fldN; omega)

theorem chrel (c : BitVec 8) (g : BitVec 3) : Statement (.chrel c g) := by
  intro hw len wd hen
  have h0 := c.isLt
  have h1 := g.isLt
  have he : len = 32 ∧ c.toNat * 16777216 + g.toNat * 256 + 0x20d7 = wd := by cases hen; exact ⟨rfl, rfl⟩
  obtain ⟨rfl, he⟩ := he
  clear hen
  refine ⟨by omega, table_32 (m := 0x6B) (by omega) (by omega) (by omega) ?_⟩
  show decode6B _ = _
  unfold decode6B
  rw [show fldN _ 12 6 = 2 from by unfold fldN; omega]
  exact accept_ok hw (by congr 1 <;> exact fld_eq (by omega)) (by simp only [List.all_cons, List.all_nil, Bool.and_true, Bool.and_eq_true, decide_eq_true_eq]; unfold fldN; omega)

theorem chread (c : BitVec 8) (a : BitVec 6) (b : BitVec 6) (f : BitVec 1) (g : BitVec 3) : Statement (.chread c a b f g) := by
  intro hw len wd hen
  have h0 := c.isLt
  have h1 := a.isLt
  have h2 := b.isLt
  have h3 := f.isLt
  have h4 := g.isLt
  have he : len = 32 ∧ c.toNat * 16777216 + a.toNat * 262144 + b.toNat * 4096 + f.toNat * 2048 + g.toNat * 256 + 0xd9 = wd := by cases hen; exact ⟨rfl, rfl⟩
  obtain ⟨rfl, he⟩ := he
  clear hen
  refine ⟨by omega, table_32 (m := 0x6C) (by omega) (by omega) (by omega) ?_⟩
  show decode6C _ = _
  unfold decode6C
  exact accept_ok hw (by congr 1 <;> exact fld_eq (by omega)) rfl

theorem cp (d : BitVec 6) (s : BitVec 6) (p : BitVec 1) (q : BitVec 1) (n : BitVec 7) (g : BitVec 3) : Statement (.cp d s p q n g) := by
  intro hw len wd hen
  have h0 := d.isLt
  have h1 := s.isLt
  have h2 := p.isLt
  have h3 := q.isLt
  have h4 := n.isLt
  have h5 := g.isLt
  have he : len = 32 ∧ d.toNat * 67108864 + s.toNat * 1048576 + p.toNat * 524288 + q.toNat * 262144 + n.toNat * 2048 + g.toNat * 256 + 0xe1 = wd := by cases hen; exact ⟨rfl, rfl⟩
  obtain ⟨rfl, he⟩ := he
  clear hen
  refine ⟨by omega, table_32 (m := 0x70) (by omega) (by omega) (by omega) ?_⟩
  show decode70 _ = _
  unfold decode70
  exact accept_ok hw (by congr 1 <;> exact fld_eq (by omega)) rfl

theorem cpR (d : BitVec 6) (s : BitVec 6) (p : BitVec 1) (q : BitVec 1) (l : BitVec 6) (g : BitVec 3) : Statement (.cpR d s p q l g) := by
  intro hw len wd hen
  have h0 := d.isLt
  have h1 := s.isLt
  have h2 := p.isLt
  have h3 := q.isLt
  have h4 := l.isLt
  have h5 := g.isLt
  have he : len = 32 ∧ d.toNat * 67108864 + s.toNat * 1048576 + p.toNat * 524288 + q.toNat * 262144 + l.toNat * 2048 + g.toNat * 256 + 0xe3 = wd := by cases hen; exact ⟨rfl, rfl⟩
  obtain ⟨rfl, he⟩ := he
  clear hen
  refine ⟨by omega, table_32 (m := 0x71) (by omega) (by omega) (by omega) ?_⟩
  show decode71 _ = _
  unfold decode71
  exact accept_ok hw (by congr 1 <;> exact fld_eq (by omega)) (by simp only [List.all_cons, List.all_nil, Bool.and_true, decide_eq_true_eq]; unfold fldN; omega)

theorem cpD2d (d : BitVec 6) (s : BitVec 1) (g : BitVec 3) : Statement (.cpD2d d s g) := by
  intro hw len wd hen
  have h0 := d.isLt
  have h1 := s.isLt
  have h2 := g.isLt
  have he : len = 32 ∧ d.toNat * 67108864 + s.toNat * 524288 + g.toNat * 256 + 0xe5 = wd := by cases hen; exact ⟨rfl, rfl⟩
  obtain ⟨rfl, he⟩ := he
  clear hen
  refine ⟨by omega, table_32 (m := 0x72) (by omega) (by omega) (by omega) ?_⟩
  show decode72 _ = _
  unfold decode72
  rw [show fldN _ 16 3 = 0 from by unfold fldN; omega]
  exact accept_ok hw (by congr 1 <;> exact fld_eq (by omega)) (by simp only [List.all_cons, List.all_nil, Bool.and_true, Bool.and_eq_true, decide_eq_true_eq]; unfold fldN; omega)

theorem cpD3d (d : BitVec 6) (s : BitVec 1) (g : BitVec 3) : Statement (.cpD3d d s g) := by
  intro hw len wd hen
  have h0 := d.isLt
  have h1 := s.isLt
  have h2 := g.isLt
  have he : len = 32 ∧ d.toNat * 67108864 + s.toNat * 524288 + g.toNat * 256 + 0x100e5 = wd := by cases hen; exact ⟨rfl, rfl⟩
  obtain ⟨rfl, he⟩ := he
  clear hen
  refine ⟨by omega, table_32 (m := 0x72) (by omega) (by omega) (by omega) ?_⟩
  show decode72 _ = _
  unfold decode72
  rw [show fldN _ 16 3 = 1 from by unfold fldN; omega]
  exact accept_ok hw (by congr 1 <;> exact fld_eq (by omega)) (by simp only [List.all_cons, List.all_nil, Bool.and_true, Bool.and_eq_true, decide_eq_true_eq]; unfold fldN; omega)

theorem cpDCvt (d : BitVec 6) (s : BitVec 1) (g : BitVec 3) : Statement (.cpDCvt d s g) := by
  intro hw len wd hen
  have h0 := d.isLt
  have h1 := s.isLt
  have h2 := g.isLt
  have he : len = 32 ∧ d.toNat * 67108864 + s.toNat * 524288 + g.toNat * 256 + 0x200e5 = wd := by cases hen; exact ⟨rfl, rfl⟩
  obtain ⟨rfl, he⟩ := he
  clear hen
  refine ⟨by omega, table_32 (m := 0x72) (by omega) (by omega) (by omega) ?_⟩
  show decode72 _ = _
  unfold decode72
  rw [show fldN _ 16 3 = 2 from by unfold fldN; omega]
  exact accept_ok hw (by congr 1 <;> exact fld_eq (by omega)) (by simp only [List.all_cons, List.all_nil, Bool.and_true, Bool.and_eq_true, decide_eq_true_eq]; unfold fldN; omega)

theorem cpDGath (d : BitVec 6) (s : BitVec 1) (g : BitVec 3) : Statement (.cpDGath d s g) := by
  intro hw len wd hen
  have h0 := d.isLt
  have h1 := s.isLt
  have h2 := g.isLt
  have he : len = 32 ∧ d.toNat * 67108864 + s.toNat * 524288 + g.toNat * 256 + 0x300e5 = wd := by cases hen; exact ⟨rfl, rfl⟩
  obtain ⟨rfl, he⟩ := he
  clear hen
  refine ⟨by omega, table_32 (m := 0x72) (by omega) (by omega) (by omega) ?_⟩
  show decode72 _ = _
  unfold decode72
  rw [show fldN _ 16 3 = 3 from by unfold fldN; omega]
  exact accept_ok hw (by congr 1 <;> exact fld_eq (by omega)) (by simp only [List.all_cons, List.all_nil, Bool.and_true, Bool.and_eq_true, decide_eq_true_eq]; unfold fldN; omega)

theorem cpDScat (d : BitVec 6) (s : BitVec 1) (g : BitVec 3) : Statement (.cpDScat d s g) := by
  intro hw len wd hen
  have h0 := d.isLt
  have h1 := s.isLt
  have h2 := g.isLt
  have he : len = 32 ∧ d.toNat * 67108864 + s.toNat * 524288 + g.toNat * 256 + 0x400e5 = wd := by cases hen; exact ⟨rfl, rfl⟩
  obtain ⟨rfl, he⟩ := he
  clear hen
  refine ⟨by omega, table_32 (m := 0x72) (by omega) (by omega) (by omega) ?_⟩
  show decode72 _ = _
  unfold decode72
  rw [show fldN _ 16 3 = 4 from by unfold fldN; omega]
  exact accept_ok hw (by congr 1 <;> exact fld_eq (by omega)) (by simp only [List.all_cons, List.all_nil, Bool.and_true, Bool.and_eq_true, decide_eq_true_eq]; unfold fldN; omega)

theorem cpDFill (d : BitVec 6) (s : BitVec 1) (g : BitVec 3) : Statement (.cpDFill d s g) := by
  intro hw len wd hen
  have h0 := d.isLt
  have h1 := s.isLt
  have h2 := g.isLt
  have he : len = 32 ∧ d.toNat * 67108864 + s.toNat * 524288 + g.toNat * 256 + 0x500e5 = wd := by cases hen; exact ⟨rfl, rfl⟩
  obtain ⟨rfl, he⟩ := he
  clear hen
  refine ⟨by omega, table_32 (m := 0x72) (by omega) (by omega) (by omega) ?_⟩
  show decode72 _ = _
  unfold decode72
  rw [show fldN _ 16 3 = 5 from by unfold fldN; omega]
  exact accept_ok hw (by congr 1 <;> exact fld_eq (by omega)) (by simp only [List.all_cons, List.all_nil, Bool.and_true, Bool.and_eq_true, decide_eq_true_eq]; unfold fldN; omega)

theorem cpDRemote (d : BitVec 6) (s : BitVec 1) (g : BitVec 3) : Statement (.cpDRemote d s g) := by
  intro hw len wd hen
  have h0 := d.isLt
  have h1 := s.isLt
  have h2 := g.isLt
  have he : len = 32 ∧ d.toNat * 67108864 + s.toNat * 524288 + g.toNat * 256 + 0x600e5 = wd := by cases hen; exact ⟨rfl, rfl⟩
  obtain ⟨rfl, he⟩ := he
  clear hen
  refine ⟨by omega, table_32 (m := 0x72) (by omega) (by omega) (by omega) ?_⟩
  show decode72 _ = _
  unfold decode72
  rw [show fldN _ 16 3 = 6 from by unfold fldN; omega]
  exact accept_ok hw (by congr 1 <;> exact fld_eq (by omega)) (by simp only [List.all_cons, List.all_nil, Bool.and_true, Bool.and_eq_true, decide_eq_true_eq]; unfold fldN; omega)

theorem stmap (d : BitVec 6) (a : BitVec 6) (b : BitVec 6) (g : BitVec 3) : Statement (.stmap d a b g) := by
  intro hw len wd hen
  have h0 := d.isLt
  have h1 := a.isLt
  have h2 := b.isLt
  have h3 := g.isLt
  have he : len = 32 ∧ d.toNat * 67108864 + a.toNat * 1048576 + b.toNat * 16384 + g.toNat * 256 + 0xe7 = wd := by cases hen; exact ⟨rfl, rfl⟩
  obtain ⟨rfl, he⟩ := he
  clear hen
  refine ⟨by omega, table_32 (m := 0x73) (by omega) (by omega) (by omega) ?_⟩
  show decode73 _ = _
  unfold decode73
  rw [show fldN _ 11 3 = 0 from by unfold fldN; omega]
  exact accept_ok hw (by congr 1 <;> exact fld_eq (by omega)) rfl

theorem stunmap (d : BitVec 6) (g : BitVec 3) : Statement (.stunmap d g) := by
  intro hw len wd hen
  have h0 := d.isLt
  have h1 := g.isLt
  have he : len = 32 ∧ d.toNat * 67108864 + g.toNat * 256 + 0x8e7 = wd := by cases hen; exact ⟨rfl, rfl⟩
  obtain ⟨rfl, he⟩ := he
  clear hen
  refine ⟨by omega, table_32 (m := 0x73) (by omega) (by omega) (by omega) ?_⟩
  show decode73 _ = _
  unfold decode73
  rw [show fldN _ 11 3 = 1 from by unfold fldN; omega]
  exact accept_ok hw (by congr 1 <;> exact fld_eq (by omega)) (by simp only [List.all_cons, List.all_nil, Bool.and_true, decide_eq_true_eq]; unfold fldN; omega)

theorem stflush (d : BitVec 6) (a : BitVec 6) (g : BitVec 3) : Statement (.stflush d a g) := by
  intro hw len wd hen
  have h0 := d.isLt
  have h1 := a.isLt
  have h2 := g.isLt
  have he : len = 32 ∧ d.toNat * 67108864 + a.toNat * 1048576 + g.toNat * 256 + 0x10e7 = wd := by cases hen; exact ⟨rfl, rfl⟩
  obtain ⟨rfl, he⟩ := he
  clear hen
  refine ⟨by omega, table_32 (m := 0x73) (by omega) (by omega) (by omega) ?_⟩
  show decode73 _ = _
  unfold decode73
  rw [show fldN _ 11 3 = 2 from by unfold fldN; omega]
  exact accept_ok hw (by congr 1 <;> exact fld_eq (by omega)) (by simp only [List.all_cons, List.all_nil, Bool.and_true, decide_eq_true_eq]; unfold fldN; omega)

theorem stinv (d : BitVec 6) (a : BitVec 6) (g : BitVec 3) : Statement (.stinv d a g) := by
  intro hw len wd hen
  have h0 := d.isLt
  have h1 := a.isLt
  have h2 := g.isLt
  have he : len = 32 ∧ d.toNat * 67108864 + a.toNat * 1048576 + g.toNat * 256 + 0x18e7 = wd := by cases hen; exact ⟨rfl, rfl⟩
  obtain ⟨rfl, he⟩ := he
  clear hen
  refine ⟨by omega, table_32 (m := 0x73) (by omega) (by omega) (by omega) ?_⟩
  show decode73 _ = _
  unfold decode73
  rw [show fldN _ 11 3 = 3 from by unfold fldN; omega]
  exact accept_ok hw (by congr 1 <;> exact fld_eq (by omega)) (by simp only [List.all_cons, List.all_nil, Bool.and_true, decide_eq_true_eq]; unfold fldN; omega)

theorem barArriveD (a : BitVec 6) (b : BitVec 6) (g : BitVec 3) : Statement (.barArriveD a b g) := by
  intro hw len wd hen
  have h0 := a.isLt
  have h1 := b.isLt
  have h2 := g.isLt
  have he : len = 32 ∧ a.toNat * 1048576 + b.toNat * 16384 + g.toNat * 256 + 0xe9 = wd := by cases hen; exact ⟨rfl, rfl⟩
  obtain ⟨rfl, he⟩ := he
  clear hen
  refine ⟨by omega, table_32 (m := 0x74) (by omega) (by omega) (by omega) ?_⟩
  show decode74 _ = _
  unfold decode74
  rw [show fldN _ 11 3 = 0 from by unfold fldN; omega]
  exact accept_ok hw (by congr 1 <;> exact fld_eq (by omega)) (by simp only [List.all_cons, List.all_nil, Bool.and_true, decide_eq_true_eq]; unfold fldN; omega)

theorem hlaunch (a : BitVec 6) (b : BitVec 6) (g : BitVec 3) : Statement (.hlaunch a b g) := by
  intro hw len wd hen
  have h0 := a.isLt
  have h1 := b.isLt
  have h2 := g.isLt
  have he : len = 32 ∧ a.toNat * 1048576 + b.toNat * 16384 + g.toNat * 256 + 0xeb = wd := by cases hen; exact ⟨rfl, rfl⟩
  obtain ⟨rfl, he⟩ := he
  clear hen
  refine ⟨by omega, table_32 (m := 0x75) (by omega) (by omega) (by omega) ?_⟩
  show decode75 _ = _
  unfold decode75
  rw [show fldN _ 11 3 = 0 from by unfold fldN; omega]
  exact accept_ok hw (by congr 1 <;> exact fld_eq (by omega)) (by simp only [List.all_cons, List.all_nil, Bool.and_true, decide_eq_true_eq]; unfold fldN; omega)

theorem hstop (g : BitVec 3) : Statement (.hstop g) := by
  intro hw len wd hen
  have h0 := g.isLt
  have he : len = 32 ∧ g.toNat * 256 + 0xed = wd := by cases hen; exact ⟨rfl, rfl⟩
  obtain ⟨rfl, he⟩ := he
  clear hen
  refine ⟨by omega, table_32 (m := 0x76) (by omega) (by omega) (by omega) ?_⟩
  show decode76 _ = _
  unfold decode76
  rw [show fldN _ 11 3 = 0 from by unfold fldN; omega]
  exact accept_ok hw (by congr 1; exact fld_eq (by omega)) (by simp only [List.all_cons, List.all_nil, Bool.and_true, decide_eq_true_eq]; unfold fldN; omega)

theorem hstat (d : BitVec 6) (g : BitVec 3) : Statement (.hstat d g) := by
  intro hw len wd hen
  have h0 := d.isLt
  have h1 := g.isLt
  have he : len = 32 ∧ d.toNat * 67108864 + g.toNat * 256 + 0x8ed = wd := by cases hen; exact ⟨rfl, rfl⟩
  obtain ⟨rfl, he⟩ := he
  clear hen
  refine ⟨by omega, table_32 (m := 0x76) (by omega) (by omega) (by omega) ?_⟩
  show decode76 _ = _
  unfold decode76
  rw [show fldN _ 11 3 = 1 from by unfold fldN; omega]
  exact accept_ok hw (by congr 1 <;> exact fld_eq (by omega)) (by simp only [List.all_cons, List.all_nil, Bool.and_true, decide_eq_true_eq]; unfold fldN; omega)

theorem hcp (kind : BitVec 3) (doff : BitVec 32) : Statement (.hcp kind doff) := by
  intro hw len wd hen
  have h0 := kind.isLt
  have h1 := doff.isLt
  have he : len = 64 ∧ kind.toNat * 4294967296 + doff.toNat = wd := by cases hen; exact ⟨rfl, rfl⟩
  obtain ⟨rfl, he⟩ := he
  clear hen
  refine ⟨by omega, table_64 ?_⟩
  unfold decodeHelper
  rw [show fldN _ 60 4 = 0 from by unfold fldN; omega]
  simp only []
  rw [if_pos (by unfold fldN; omega)]
  congr 2 <;> exact fld_eq (by omega)

theorem hwait (land : BitVec 1) (t : BitVec 4) : Statement (.hwait land t) := by
  intro hw len wd hen
  have h0 := land.isLt
  have h1 := t.isLt
  have he : len = 64 ∧ 0x1000000000000000 + land.toNat * 16 + t.toNat = wd := by cases hen; exact ⟨rfl, rfl⟩
  obtain ⟨rfl, he⟩ := he
  clear hen
  refine ⟨by omega, table_64 ?_⟩
  unfold decodeHelper
  rw [show fldN _ 60 4 = 1 from by unfold fldN; omega]
  simp only []
  rw [if_pos (by unfold fldN; omega)]
  congr 2 <;> exact fld_eq (by omega)

theorem hloop (back : BitVec 12) (cnt : BitVec 16) (sadv : BitVec 16) (dadv : BitVec 16) : Statement (.hloop back cnt sadv dadv) := by
  intro hw len wd hen
  have h0 := back.isLt
  have h1 := cnt.isLt
  have h2 := sadv.isLt
  have h3 := dadv.isLt
  by_cases hb : back.toNat = 0
  · simp [encode, hb] at hen
  · simp only [encode, hb, if_false, Option.some.injEq, Prod.mk.injEq] at hen
    obtain ⟨rfl, he⟩ := hen
    refine ⟨by omega, table_64 ?_⟩
    unfold decodeHelper
    rw [show fldN _ 60 4 = 2 from by unfold fldN; omega]
    simp only []
    rw [if_pos (by unfold fldN; omega)]
    congr 2 <;> exact fld_eq (by omega)

theorem hflag (land : BitVec 1) (raiseEn : BitVec 1) (e : BitVec 5) (value : BitVec 32) : Statement (.hflag land raiseEn e value) := by
  intro hw len wd hen
  have h0 := land.isLt
  have h1 := raiseEn.isLt
  have h2 := e.isLt
  have h3 := value.isLt
  have he : len = 64 ∧ 0x3000000000000000 + land.toNat * 274877906944 + raiseEn.toNat * 137438953472 + e.toNat * 4294967296 + value.toNat = wd := by cases hen; exact ⟨rfl, rfl⟩
  obtain ⟨rfl, he⟩ := he
  clear hen
  refine ⟨by omega, table_64 ?_⟩
  unfold decodeHelper
  rw [show fldN _ 60 4 = 3 from by unfold fldN; omega]
  simp only []
  rw [if_pos (by unfold fldN; omega)]
  congr 2 <;> exact fld_eq (by omega)

theorem hjmp (off : BitVec 20) : Statement (.hjmp off) := by
  intro hw len wd hen
  have h0 := off.isLt
  have he : len = 64 ∧ 0x4000000000000000 + off.toNat = wd := by cases hen; exact ⟨rfl, rfl⟩
  obtain ⟨rfl, he⟩ := he
  clear hen
  refine ⟨by omega, table_64 ?_⟩
  unfold decodeHelper
  rw [show fldN _ 60 4 = 4 from by unfold fldN; omega]
  simp only []
  rw [if_pos (by unfold fldN; omega)]
  congr 2; exact fld_eq (by omega)

theorem hend (value : BitVec 32) : Statement (.hend value) := by
  intro hw len wd hen
  have h0 := value.isLt
  have he : len = 64 ∧ 0x5000000000000000 + value.toNat = wd := by cases hen; exact ⟨rfl, rfl⟩
  obtain ⟨rfl, he⟩ := he
  clear hen
  refine ⟨by omega, table_64 ?_⟩
  unfold decodeHelper
  rw [show fldN _ 60 4 = 5 from by unfold fldN; omega]
  simp only []
  rw [if_pos (by unfold fldN; omega)]
  congr 2; exact fld_eq (by omega)

theorem hballoc (d : BitVec 6) (a : BitVec 6) (b : BitVec 6) (g : BitVec 3) : Statement (.hballoc d a b g) := by
  intro hw len wd hen
  have h0 := d.isLt
  have h1 := a.isLt
  have h2 := b.isLt
  have h3 := g.isLt
  have he : len = 32 ∧ d.toNat * 67108864 + a.toNat * 1048576 + b.toNat * 16384 + g.toNat * 256 + 0xf1 = wd := by cases hen; exact ⟨rfl, rfl⟩
  obtain ⟨rfl, he⟩ := he
  clear hen
  refine ⟨by omega, table_32 (m := 0x78) (by omega) (by omega) (by omega) ?_⟩
  show decode78 _ = _
  unfold decode78
  rw [show fldN _ 11 3 = 0 from by unfold fldN; omega]
  exact accept_ok hw (by congr 1 <;> exact fld_eq (by omega)) rfl

theorem hbgate (a : BitVec 6) (b : BitVec 6) (g : BitVec 3) : Statement (.hbgate a b g) := by
  intro hw len wd hen
  have h0 := a.isLt
  have h1 := b.isLt
  have h2 := g.isLt
  have he : len = 32 ∧ a.toNat * 1048576 + b.toNat * 16384 + g.toNat * 256 + 0x8f1 = wd := by cases hen; exact ⟨rfl, rfl⟩
  obtain ⟨rfl, he⟩ := he
  clear hen
  refine ⟨by omega, table_32 (m := 0x78) (by omega) (by omega) (by omega) ?_⟩
  show decode78 _ = _
  unfold decode78
  rw [show fldN _ 11 3 = 1 from by unfold fldN; omega]
  exact accept_ok hw (by congr 1 <;> exact fld_eq (by omega)) (by simp only [List.all_cons, List.all_nil, Bool.and_true, decide_eq_true_eq]; unfold fldN; omega)

theorem hbpoll (d : BitVec 6) (a : BitVec 6) (g : BitVec 3) : Statement (.hbpoll d a g) := by
  intro hw len wd hen
  have h0 := d.isLt
  have h1 := a.isLt
  have h2 := g.isLt
  have he : len = 32 ∧ d.toNat * 67108864 + a.toNat * 1048576 + g.toNat * 256 + 0x10f1 = wd := by cases hen; exact ⟨rfl, rfl⟩
  obtain ⟨rfl, he⟩ := he
  clear hen
  refine ⟨by omega, table_32 (m := 0x78) (by omega) (by omega) (by omega) ?_⟩
  show decode78 _ = _
  unfold decode78
  rw [show fldN _ 11 3 = 2 from by unfold fldN; omega]
  exact accept_ok hw (by congr 1 <;> exact fld_eq (by omega)) (by simp only [List.all_cons, List.all_nil, Bool.and_true, decide_eq_true_eq]; unfold fldN; omega)

theorem hbrel (a : BitVec 6) (g : BitVec 3) : Statement (.hbrel a g) := by
  intro hw len wd hen
  have h0 := a.isLt
  have h1 := g.isLt
  have he : len = 32 ∧ a.toNat * 1048576 + g.toNat * 256 + 0x18f1 = wd := by cases hen; exact ⟨rfl, rfl⟩
  obtain ⟨rfl, he⟩ := he
  clear hen
  refine ⟨by omega, table_32 (m := 0x78) (by omega) (by omega) (by omega) ?_⟩
  show decode78 _ = _
  unfold decode78
  rw [show fldN _ 11 3 = 3 from by unfold fldN; omega]
  exact accept_ok hw (by congr 1 <;> exact fld_eq (by omega)) (by simp only [List.all_cons, List.all_nil, Bool.and_true, Bool.and_eq_true, decide_eq_true_eq]; unfold fldN; omega)

theorem hbstat (d : BitVec 6) (a : BitVec 6) (g : BitVec 3) : Statement (.hbstat d a g) := by
  intro hw len wd hen
  have h0 := d.isLt
  have h1 := a.isLt
  have h2 := g.isLt
  have he : len = 32 ∧ d.toNat * 67108864 + a.toNat * 1048576 + g.toNat * 256 + 0x20f1 = wd := by cases hen; exact ⟨rfl, rfl⟩
  obtain ⟨rfl, he⟩ := he
  clear hen
  refine ⟨by omega, table_32 (m := 0x78) (by omega) (by omega) (by omega) ?_⟩
  show decode78 _ = _
  unfold decode78
  rw [show fldN _ 11 3 = 4 from by unfold fldN; omega]
  exact accept_ok hw (by congr 1 <;> exact fld_eq (by omega)) (by simp only [List.all_cons, List.all_nil, Bool.and_true, decide_eq_true_eq]; unfold fldN; omega)

theorem hbcfg (d : BitVec 6) (a : BitVec 6) (g : BitVec 3) : Statement (.hbcfg d a g) := by
  intro hw len wd hen
  have h0 := d.isLt
  have h1 := a.isLt
  have h2 := g.isLt
  have he : len = 32 ∧ d.toNat * 67108864 + a.toNat * 1048576 + g.toNat * 256 + 0x28f1 = wd := by cases hen; exact ⟨rfl, rfl⟩
  obtain ⟨rfl, he⟩ := he
  clear hen
  refine ⟨by omega, table_32 (m := 0x78) (by omega) (by omega) (by omega) ?_⟩
  show decode78 _ = _
  unfold decode78
  rw [show fldN _ 11 3 = 5 from by unfold fldN; omega]
  exact accept_ok hw (by congr 1 <;> exact fld_eq (by omega)) (by simp only [List.all_cons, List.all_nil, Bool.and_true, decide_eq_true_eq]; unfold fldN; omega)

theorem hbput (d : BitVec 6) (a : BitVec 6) (b : BitVec 6) (g : BitVec 3) : Statement (.hbput d a b g) := by
  intro hw len wd hen
  have h0 := d.isLt
  have h1 := a.isLt
  have h2 := b.isLt
  have h3 := g.isLt
  have he : len = 32 ∧ d.toNat * 67108864 + a.toNat * 1048576 + b.toNat * 16384 + g.toNat * 256 + 0xf3 = wd := by cases hen; exact ⟨rfl, rfl⟩
  obtain ⟨rfl, he⟩ := he
  clear hen
  refine ⟨by omega, table_32 (m := 0x79) (by omega) (by omega) (by omega) ?_⟩
  show decode79 _ = _
  unfold decode79
  rw [show fldN _ 11 3 = 0 from by unfold fldN; omega]
  exact accept_ok hw (by congr 1 <;> exact fld_eq (by omega)) rfl

theorem prgrad (d : BitVec 6) (a : BitVec 6) (b : BitVec 6) (g : BitVec 3) : Statement (.prgrad d a b g) := by
  intro hw len wd hen
  have h0 := d.isLt
  have h1 := a.isLt
  have h2 := b.isLt
  have h3 := g.isLt
  have he : len = 32 ∧ d.toNat * 67108864 + a.toNat * 1048576 + b.toNat * 16384 + g.toNat * 256 + 0x8f3 = wd := by cases hen; exact ⟨rfl, rfl⟩
  obtain ⟨rfl, he⟩ := he
  clear hen
  refine ⟨by omega, table_32 (m := 0x79) (by omega) (by omega) (by omega) ?_⟩
  show decode79 _ = _
  unfold decode79
  rw [show fldN _ 11 3 = 1 from by unfold fldN; omega]
  exact accept_ok hw (by congr 1 <;> exact fld_eq (by omega)) rfl

theorem gdep (d : BitVec 6) (a : BitVec 6) (b : BitVec 6) (g : BitVec 3) : Statement (.gdep d a b g) := by
  intro hw len wd hen
  have h0 := d.isLt
  have h1 := a.isLt
  have h2 := b.isLt
  have h3 := g.isLt
  have he : len = 32 ∧ d.toNat * 67108864 + a.toNat * 1048576 + b.toNat * 16384 + g.toNat * 256 + 0x10f3 = wd := by cases hen; exact ⟨rfl, rfl⟩
  obtain ⟨rfl, he⟩ := he
  clear hen
  refine ⟨by omega, table_32 (m := 0x79) (by omega) (by omega) (by omega) ?_⟩
  show decode79 _ = _
  unfold decode79
  rw [show fldN _ 11 3 = 2 from by unfold fldN; omega]
  exact accept_ok hw (by congr 1 <;> exact fld_eq (by omega)) rfl

theorem prread (d : BitVec 6) (a : BitVec 6) (b : BitVec 6) (g : BitVec 3) : Statement (.prread d a b g) := by
  intro hw len wd hen
  have h0 := d.isLt
  have h1 := a.isLt
  have h2 := b.isLt
  have h3 := g.isLt
  have he : len = 32 ∧ d.toNat * 67108864 + a.toNat * 1048576 + b.toNat * 16384 + g.toNat * 256 + 0x18f3 = wd := by cases hen; exact ⟨rfl, rfl⟩
  obtain ⟨rfl, he⟩ := he
  clear hen
  refine ⟨by omega, table_32 (m := 0x79) (by omega) (by omega) (by omega) ?_⟩
  show decode79 _ = _
  unfold decode79
  rw [show fldN _ 11 3 = 3 from by unfold fldN; omega]
  exact accept_ok hw (by congr 1 <;> exact fld_eq (by omega)) rfl

theorem gread (d : BitVec 6) (a : BitVec 6) (b : BitVec 6) (g : BitVec 3) : Statement (.gread d a b g) := by
  intro hw len wd hen
  have h0 := d.isLt
  have h1 := a.isLt
  have h2 := b.isLt
  have h3 := g.isLt
  have he : len = 32 ∧ d.toNat * 67108864 + a.toNat * 1048576 + b.toNat * 16384 + g.toNat * 256 + 0x20f3 = wd := by cases hen; exact ⟨rfl, rfl⟩
  obtain ⟨rfl, he⟩ := he
  clear hen
  refine ⟨by omega, table_32 (m := 0x79) (by omega) (by omega) (by omega) ?_⟩
  show decode79 _ = _
  unfold decode79
  rw [show fldN _ 11 3 = 4 from by unfold fldN; omega]
  exact accept_ok hw (by congr 1 <;> exact fld_eq (by omega)) rfl

theorem prsync (d : BitVec 6) (a : BitVec 6) (b : BitVec 6) (g : BitVec 3) : Statement (.prsync d a b g) := by
  intro hw len wd hen
  have h0 := d.isLt
  have h1 := a.isLt
  have h2 := b.isLt
  have h3 := g.isLt
  have he : len = 32 ∧ d.toNat * 67108864 + a.toNat * 1048576 + b.toNat * 16384 + g.toNat * 256 + 0xf5 = wd := by cases hen; exact ⟨rfl, rfl⟩
  obtain ⟨rfl, he⟩ := he
  clear hen
  refine ⟨by omega, table_32 (m := 0x7A) (by omega) (by omega) (by omega) ?_⟩
  show decode7A _ = _
  unfold decode7A
  rw [show fldN _ 11 3 = 0 from by unfold fldN; omega]
  exact accept_ok hw (by congr 1 <;> exact fld_eq (by omega)) rfl

theorem prrule (d : BitVec 6) (a : BitVec 6) (b : BitVec 6) (g : BitVec 3) : Statement (.prrule d a b g) := by
  intro hw len wd hen
  have h0 := d.isLt
  have h1 := a.isLt
  have h2 := b.isLt
  have h3 := g.isLt
  have he : len = 32 ∧ d.toNat * 67108864 + a.toNat * 1048576 + b.toNat * 16384 + g.toNat * 256 + 0x8f5 = wd := by cases hen; exact ⟨rfl, rfl⟩
  obtain ⟨rfl, he⟩ := he
  clear hen
  refine ⟨by omega, table_32 (m := 0x7A) (by omega) (by omega) (by omega) ?_⟩
  show decode7A _ = _
  unfold decode7A
  rw [show fldN _ 11 3 = 1 from by unfold fldN; omega]
  exact accept_ok hw (by congr 1 <;> exact fld_eq (by omega)) rfl

theorem gspread (p : BitVec 3) (a : BitVec 6) (b : BitVec 6) (g : BitVec 3) : Statement (.gspread p a b g) := by
  intro hw len wd hen
  have h0 := p.isLt
  have h1 := a.isLt
  have h2 := b.isLt
  have h3 := g.isLt
  have he : len = 32 ∧ p.toNat * 536870912 + a.toNat * 1048576 + b.toNat * 16384 + g.toNat * 256 + 0x10f5 = wd := by cases hen; exact ⟨rfl, rfl⟩
  obtain ⟨rfl, he⟩ := he
  clear hen
  refine ⟨by omega, table_32 (m := 0x7A) (by omega) (by omega) (by omega) ?_⟩
  show decode7A _ = _
  unfold decode7A
  rw [show fldN _ 11 3 = 2 from by unfold fldN; omega]
  exact accept_ok hw (by congr 1 <;> exact fld_eq (by omega)) (by simp only [List.all_cons, List.all_nil, Bool.and_true, decide_eq_true_eq]; unfold fldN; omega)

theorem gmass (d : BitVec 6) (a : BitVec 6) (g : BitVec 3) : Statement (.gmass d a g) := by
  intro hw len wd hen
  have h0 := d.isLt
  have h1 := a.isLt
  have h2 := g.isLt
  have he : len = 32 ∧ d.toNat * 67108864 + a.toNat * 1048576 + g.toNat * 256 + 0x18f5 = wd := by cases hen; exact ⟨rfl, rfl⟩
  obtain ⟨rfl, he⟩ := he
  clear hen
  refine ⟨by omega, table_32 (m := 0x7A) (by omega) (by omega) (by omega) ?_⟩
  show decode7A _ = _
  unfold decode7A
  rw [show fldN _ 11 3 = 3 from by unfold fldN; omega]
  exact accept_ok hw (by congr 1 <;> exact fld_eq (by omega)) (by simp only [List.all_cons, List.all_nil, Bool.and_true, decide_eq_true_eq]; unfold fldN; omega)

theorem gcfg (d : BitVec 6) (a : BitVec 6) (g : BitVec 3) : Statement (.gcfg d a g) := by
  intro hw len wd hen
  have h0 := d.isLt
  have h1 := a.isLt
  have h2 := g.isLt
  have he : len = 32 ∧ d.toNat * 67108864 + a.toNat * 1048576 + g.toNat * 256 + 0x20f5 = wd := by cases hen; exact ⟨rfl, rfl⟩
  obtain ⟨rfl, he⟩ := he
  clear hen
  refine ⟨by omega, table_32 (m := 0x7A) (by omega) (by omega) (by omega) ?_⟩
  show decode7A _ = _
  unfold decode7A
  rw [show fldN _ 11 3 = 4 from by unfold fldN; omega]
  exact accept_ok hw (by congr 1 <;> exact fld_eq (by omega)) (by simp only [List.all_cons, List.all_nil, Bool.and_true, decide_eq_true_eq]; unfold fldN; omega)

theorem csrr (d : BitVec 6) (c : BitVec 12) (g : BitVec 3) : Statement (.csrr d c g) := by
  intro hw len wd hen
  have h0 := d.isLt
  have h1 := c.isLt
  have h2 := g.isLt
  have he : len = 32 ∧ d.toNat * 67108864 + c.toNat * 16384 + g.toNat * 256 + 0xf9 = wd := by cases hen; exact ⟨rfl, rfl⟩
  obtain ⟨rfl, he⟩ := he
  clear hen
  refine ⟨by omega, table_32 (m := 0x7C) (by omega) (by omega) (by omega) ?_⟩
  show decode7C _ = _
  unfold decode7C
  rw [show fldN _ 11 1 = 0 from by unfold fldN; omega]
  exact accept_ok hw (by congr 1 <;> exact fld_eq (by omega)) (by simp only [List.all_cons, List.all_nil, Bool.and_true, decide_eq_true_eq]; unfold fldN; omega)

theorem csrw (d : BitVec 6) (c : BitVec 12) (g : BitVec 3) : Statement (.csrw d c g) := by
  intro hw len wd hen
  have h0 := d.isLt
  have h1 := c.isLt
  have h2 := g.isLt
  have he : len = 32 ∧ d.toNat * 67108864 + c.toNat * 16384 + g.toNat * 256 + 0x8f9 = wd := by cases hen; exact ⟨rfl, rfl⟩
  obtain ⟨rfl, he⟩ := he
  clear hen
  refine ⟨by omega, table_32 (m := 0x7C) (by omega) (by omega) (by omega) ?_⟩
  show decode7C _ = _
  unfold decode7C
  rw [show fldN _ 11 1 = 1 from by unfold fldN; omega]
  exact accept_ok hw (by congr 1 <;> exact fld_eq (by omega)) (by simp only [List.all_cons, List.all_nil, Bool.and_true, decide_eq_true_eq]; unfold fldN; omega)

theorem trap (a : BitVec 6) (g : BitVec 3) : Statement (.trap a g) := by
  intro hw len wd hen
  have h0 := a.isLt
  have h1 := g.isLt
  have he : len = 32 ∧ a.toNat * 1048576 + g.toNat * 256 + 0xfb = wd := by cases hen; exact ⟨rfl, rfl⟩
  obtain ⟨rfl, he⟩ := he
  clear hen
  refine ⟨by omega, table_32 (m := 0x7D) (by omega) (by omega) (by omega) ?_⟩
  show decode7D _ = _
  unfold decode7D
  rw [show fldN _ 11 3 = 0 from by unfold fldN; omega]
  exact accept_ok hw (by congr 1 <;> exact fld_eq (by omega)) (by simp only [List.all_cons, List.all_nil, Bool.and_true, Bool.and_eq_true, decide_eq_true_eq]; unfold fldN; omega)

theorem eret (g : BitVec 3) : Statement (.eret g) := by
  intro hw len wd hen
  have h0 := g.isLt
  have he : len = 32 ∧ g.toNat * 256 + 0x8fb = wd := by cases hen; exact ⟨rfl, rfl⟩
  obtain ⟨rfl, he⟩ := he
  clear hen
  refine ⟨by omega, table_32 (m := 0x7D) (by omega) (by omega) (by omega) ?_⟩
  show decode7D _ = _
  unfold decode7D
  rw [show fldN _ 11 3 = 1 from by unfold fldN; omega]
  exact accept_ok hw (by congr 1; exact fld_eq (by omega)) (by simp only [List.all_cons, List.all_nil, Bool.and_true, decide_eq_true_eq]; unfold fldN; omega)

theorem halt (g : BitVec 3) : Statement (.halt g) := by
  intro hw len wd hen
  have h0 := g.isLt
  have he : len = 32 ∧ g.toNat * 256 + 0x10fb = wd := by cases hen; exact ⟨rfl, rfl⟩
  obtain ⟨rfl, he⟩ := he
  clear hen
  refine ⟨by omega, table_32 (m := 0x7D) (by omega) (by omega) (by omega) ?_⟩
  show decode7D _ = _
  unfold decode7D
  rw [show fldN _ 11 3 = 2 from by unfold fldN; omega]
  exact accept_ok hw (by congr 1; exact fld_eq (by omega)) (by simp only [List.all_cons, List.all_nil, Bool.and_true, decide_eq_true_eq]; unfold fldN; omega)

theorem blockStart (die : Nat) (core : Nat) (e : Eng) : Statement (.blockStart die core e) := no_word rfl

theorem blockRaise (die : Nat) (core : Nat) (e : Eng) : Statement (.blockRaise die core e) := no_word rfl

theorem traceFreeze (die : Nat) (core : Nat) : Statement (.traceFreeze die core) := no_word rfl

theorem haltComplete (die : Nat) (part : Nat) : Statement (.haltComplete die part) := no_word rfl

theorem handlerStart (die : Nat) (part : Nat) : Statement (.handlerStart die part) := no_word rfl

theorem containment (die : Nat) (part : Nat) : Statement (.containment die part) := no_word rfl

theorem uncorrectableError (die : Nat) (core : Nat) (e : Eng) (kind : BitVec 16) : Statement (.uncorrectableError die core e kind) := no_word rfl

theorem memoryTimeout (die : Nat) (core : Nat) (e : Eng) : Statement (.memoryTimeout die core e) := no_word rfl

theorem switchOut (die : Nat) (part : Nat) (full : Bool) : Statement (.switchOut die part full) := no_word rfl

theorem switchIn (ctx : Nat) : Statement (.switchIn ctx) := no_word rfl

theorem matrixGroup (die : Nat) (core : Nat) : Statement (.matrixGroup die core) := no_word rfl

theorem hopArrival (n : Nat) : Statement (.hopArrival n) := no_word rfl

theorem closeStart (ctx : Nat) (chain : Nat) : Statement (.closeStart ctx chain) := no_word rfl

theorem closeLand (ctx : Nat) (chain : Nat) : Statement (.closeLand ctx chain) := no_word rfl

theorem copyBeatGroup (die : Nat) (core : Nat) : Statement (.copyBeatGroup die core) := no_word rfl

theorem stashFill (die : Nat) (core : Nat) (off : Nat) : Statement (.stashFill die core off) := no_word rfl

theorem stashSnoop (die : Nat) (core : Nat) (off : Nat) (write : Bool) : Statement (.stashSnoop die core off write) := no_word rfl

theorem stashWriteback (die : Nat) (core : Nat) (off : Nat) : Statement (.stashWriteback die core off) := no_word rfl

theorem qtailWrite (die : Nat) (q : Nat) (v : BitVec 64) : Statement (.qtailWrite die q v) := no_word rfl

theorem qbaseWrite (die : Nat) (q : Nat) (v : BitVec 64) : Statement (.qbaseWrite die q v) := no_word rfl

theorem qsizeWrite (die : Nat) (q : Nat) (v : BitVec 64) : Statement (.qsizeWrite die q v) := no_word rfl

theorem graphAdmit (die : Nat) : Statement (.graphAdmit die) := no_word rfl

theorem recordAdmit (graph : Nat) : Statement (.recordAdmit graph) := no_word rfl

theorem taskStart (die : Nat) (part : Nat) : Statement (.taskStart die part) := no_word rfl

theorem gangStart (die : Nat) (part : Nat) : Statement (.gangStart die part) := no_word rfl

theorem preempt (die : Nat) (part : Nat) : Statement (.preempt die part) := no_word rfl

theorem taskRetire (die : Nat) (core : Nat) : Statement (.taskRetire die core) := no_word rfl

theorem reads (n : Nat) : Statement (.reads n) := no_word rfl

theorem readx (n : Nat) : Statement (.readx n) := no_word rfl

theorem writeback (die : Nat) (line : Nat) : Statement (.writeback die line) := no_word rfl

theorem homeDieRead (n : Nat) : Statement (.homeDieRead n) := no_word rfl

theorem homeDieWrite (n : Nat) : Statement (.homeDieWrite n) := no_word rfl

theorem fwds (n : Nat) : Statement (.fwds n) := no_word rfl

theorem fwdh (n : Nat) : Statement (.fwdh n) := no_word rfl

theorem inv (n : Nat) : Statement (.inv n) := no_word rfl

theorem entryEviction (die : Nat) (line : Nat) : Statement (.entryEviction die line) := no_word rfl

theorem postedStorePerformed (die : Nat) (core : Nat) (home : Nat) : Statement (.postedStorePerformed die core home) := no_word rfl

theorem storeAck (n : Nat) : Statement (.storeAck n) := no_word rfl

theorem dieLost (die : Nat) : Statement (.dieLost die) := no_word rfl

theorem hbPutArrival (src : PutSrc) : Statement (.hbPutArrival src) := no_word rfl

theorem hbTimeout (die : Nat) (ctx : Nat) (slot : Nat) : Statement (.hbTimeout die ctx slot) := no_word rfl

theorem combineWrite (die : Nat) (ctx : Nat) (slot : Nat) : Statement (.combineWrite die ctx slot) := no_word rfl

theorem prArrival (src : UnitSrc) : Statement (.prArrival src) := no_word rfl

theorem prUpdate (record : Nat) : Statement (.prUpdate record) := no_word rfl

theorem halving (ctx : Nat) (line : Nat) : Statement (.halving ctx line) := no_word rfl

theorem halfMerge (port : Nat) (half : HalfMsg) : Statement (.halfMerge port half) := no_word rfl

theorem halfApplied (port : Nat) (seq : BitVec 32) : Statement (.halfApplied port seq) := no_word rfl

theorem halfRefused (port : Nat) (seq : BitVec 32) : Statement (.halfRefused port seq) := no_word rfl

theorem halfRetransmit (ctx : Nat) (line : Nat) : Statement (.halfRetransmit ctx line) := no_word rfl

theorem zynothPortFail (port : Nat) : Statement (.zynothPortFail port) := no_word rfl

theorem zynothPortRetrain (port : Nat) (applied : BitVec 32) : Statement (.zynothPortRetrain port applied) := no_word rfl

theorem mbExport (fn : Nat) : Statement (.mbExport fn) := no_word rfl

theorem mbImport (fn : Nat) : Statement (.mbImport fn) := no_word rfl

theorem unimport (fn : Nat) : Statement (.unimport fn) := no_word rfl

theorem revoke (fn : Nat) : Statement (.revoke fn) := no_word rfl

theorem invaltr (fn : Nat) : Statement (.invaltr fn) := no_word rfl

theorem migrate (fn : Nat) (frame : Nat) : Statement (.migrate fn frame) := no_word rfl

theorem warmreset (fn : Nat) : Statement (.warmreset fn) := no_word rfl

theorem gresolve (fn : Nat) : Statement (.gresolve fn) := no_word rfl

theorem ctxcreate (fn : Nat) : Statement (.ctxcreate fn) := no_word rfl

theorem ctxdestroy (fn : Nat) : Statement (.ctxdestroy fn) := no_word rfl

theorem keyload (fn : Nat) : Statement (.keyload fn) := no_word rfl

theorem keyclr (fn : Nat) : Statement (.keyclr fn) := no_word rfl

theorem manadd (fn : Nat) : Statement (.manadd fn) := no_word rfl

theorem mansign (fn : Nat) : Statement (.mansign fn) := no_word rfl

theorem imgpush (fn : Nat) : Statement (.imgpush fn) := no_word rfl

theorem pwrlimit (fn : Nat) : Statement (.pwrlimit fn) := no_word rfl

theorem featacceptWrite (v : BitVec 64) : Statement (.featacceptWrite v) := no_word rfl

theorem registerWrite (fn : Nat) (off : Nat) (v : BitVec 64) : Statement (.registerWrite fn off v) := no_word rfl

theorem powerGood : Statement .powerGood := no_word rfl

theorem dieAdmit (die : Nat) (trained : Bool) : Statement (.dieAdmit die trained) := no_word rfl

theorem powerSample (watts : Nat) : Statement (.powerSample watts) := no_word rfl

theorem thermalSample (temps : List Nat) : Statement (.thermalSample temps) := no_word rfl

theorem coreAgeingCheck (die : Nat) (core : Nat) (low : Bool) : Statement (.coreAgeingCheck die core low) := no_word rfl

theorem savedContextReply (die : Nat) (core : Nat) (e : Eng) : Statement (.savedContextReply die core e) := no_word rfl

theorem flagAddArrival (n : Nat) : Statement (.flagAddArrival n) := no_word rfl

theorem deposit (src : UnitSrc) : Statement (.deposit src) := no_word rfl

theorem acknowledgement (n : Nat) : Statement (.acknowledgement n) := no_word rfl

theorem cxlMemAccess (fn : Nat) (addr : Nat) (write : Bool) (data : List Byte) : Statement (.cxlMemAccess fn addr write data) := no_word rfl

theorem dieMapChange (map : BitVec 64) : Statement (.dieMapChange map) := no_word rfl

theorem l2ModeChange (die : Nat) (priv : Bool) : Statement (.l2ModeChange die priv) := no_word rfl

theorem contextResume (ctx : Nat) : Statement (.contextResume ctx) := no_word rfl

theorem powerLoss (flash : Bool) : Statement (.powerLoss flash) := no_word rfl

end Sys2Proof.Laws.RoundTrip
end

