-- ==== Sys2Proof/Laws/Step.lean ====
section
/-! SUPPORT. What a step runs: the current stream's turn where the tape has run out, else the tape's first turn at its clk, after what has fallen due by then. -/

namespace Sys2Proof.Machine

theorem step_eq (s : State) : step s = act s.nextAct.1 s.nextAct.2.clkStart := rfl

theorem State.withCur_self (s : State) : ({ s with cur := s.cur } : State) = s := rfl

/-! ### What falls due by a clk -/

/-- Nothing has changed but cores, halt lines, flag files and owner tags. -/
def State.FallsTo (s u : State) : Prop := ∃ c p x g, u = { s with cores := c, parts := p, ctxs := x, tags := g }

theorem State.FallsTo.refl (s : State) : s.FallsTo s := ⟨_, _, _, _, rfl⟩

theorem State.FallsTo.trans {s u v : State} (h : s.FallsTo u) (k : u.FallsTo v) : s.FallsTo v := by
  obtain ⟨c, p, x, g, rfl⟩ := h
  obtain ⟨c, p, x, g, rfl⟩ := k
  exact ⟨_, _, _, _, rfl⟩

theorem State.FallsTo.foldl {α : Type} (f : State → α → State) (hf : ∀ s a, State.FallsTo s (f s a)) (l : List α) (s : State) : s.FallsTo (l.foldl f s) := by
  induction l generalizing s with
  | nil => exact State.FallsTo.refl s
  | cons a l ih => exact (hf s a).trans (ih _)

theorem State.fallsTo_ite {s u v : State} (c : Prop) [Decidable c] (h1 : s.FallsTo u) (h2 : s.FallsTo v) : s.FallsTo (if c then u else v) := by split <;> assumption

theorem State.fallsTo_raiseHalt (s : State) (die part cls sub : Nat) : s.FallsTo (s.raiseHalt die part cls sub) := by
  unfold State.raiseHalt; dsimp only; split <;> exact ⟨_, _, _, _, rfl⟩

theorem State.fallsTo_takeTrap (s : State) (id : EngId) (t : TrapRec) : s.FallsTo (s.takeTrap id t) := by
  unfold State.takeTrap
  refine State.fallsTo_ite _ ⟨_, _, _, _, rfl⟩ (State.FallsTo.trans ?_ (State.fallsTo_raiseHalt _ _ _ _ _))
  split <;> exact ⟨_, _, _, _, rfl⟩

theorem State.fallsTo_arriveAt (s : State) (ctx f j : Nat) : s.FallsTo (s.arriveAt ctx f j).1 := by
  unfold State.arriveAt State.wrapTags
  exact State.fallsTo_ite _ ⟨_, _, _, _, rfl⟩ ⟨_, _, _, _, rfl⟩

theorem State.fallsTo_arriveDeferred (s : State) (die core : Nat) (d : Deferred) : s.FallsTo (s.arriveDeferred die core d) :=
  State.fallsTo_ite _ (s.fallsTo_takeTrap _ _) (s.fallsTo_arriveAt _ _ _)

theorem State.fallsTo_settleDefer (s : State) (die core : Nat) : s.FallsTo (s.settleDefer die core) :=
  State.fallsTo_ite _ (State.FallsTo.refl s)
    (State.FallsTo.trans ⟨_, _, _, _, rfl⟩ (State.FallsTo.foldl _ (fun s d => s.fallsTo_arriveDeferred die core d) _ _))

/-- What falls due by a clk: landings, and deferred arrivals with the traps they raise. -/
theorem State.fallsTo_clkStart (s : State) : s.FallsTo s.clkStart :=
  (State.FallsTo.foldl _ (fun s _ => State.fallsTo_ite _ ⟨_, _, _, _, rfl⟩ (State.FallsTo.refl s)) _ s).trans
    (State.FallsTo.foldl _ (fun s _ => State.fallsTo_ite _ (State.FallsTo.refl s) (s.fallsTo_settleDefer _ _)) _ _)

theorem State.clkStart_cur (s : State) : s.clkStart.cur = s.cur := by obtain ⟨c, p, x, g, e⟩ := s.fallsTo_clkStart; rw [e]
theorem State.clkStart_now (s : State) : s.clkStart.now = s.now := by obtain ⟨c, p, x, g, e⟩ := s.fallsTo_clkStart; rw [e]
theorem State.clkStart_tape (s : State) : s.clkStart.tape = s.tape := by obtain ⟨c, p, x, g, e⟩ := s.fallsTo_clkStart; rw [e]
theorem State.clkStart_mem (s : State) : s.clkStart.mem = s.mem := by obtain ⟨c, p, x, g, e⟩ := s.fallsTo_clkStart; rw [e]

/-! ### The step -/

theorem step_nil {s : State} (h : s.tape = []) : step s = act (.engine s.cur) ({ s with now := max (s.now + 1) s.me.nextIssue } : State).clkStart := by
  have e : s.nextAct = (.engine s.cur, { s with now := max (s.now + 1) s.me.nextIssue }) := by unfold State.nextAct; rw [h]
  rw [step_eq, e]

theorem step_cons {s : State} {t : Turn} {ts : List Turn} (h : s.tape = t :: ts) :
    step s = act t.act ({ s with tape := ts, now := s.now + t.dt } : State).clkStart := by
  have e : s.nextAct = (t.act, { s with tape := ts, now := s.now + t.dt }) := by unfold State.nextAct; rw [h]
  rw [step_eq, e]

theorem act_engine (s : State) (id : EngId) : act (.engine id) s = streamTurn { s with cur := id } := rfl

theorem act_helper (s : State) (die core : Nat) : act (.helper die core) s = helperTurn die core s := rfl

theorem act_event {s : State} {i : Instr} (h : isEvent i = true) : act (.event i) s = exec i s := if_pos h

theorem streamTurn_body {s : State} {i : Instr} (h : s.me.phase = .body) (hd : decode s.unitWord = .ok i) : streamTurn s = exec i s := by
  unfold streamTurn
  rw [h, hd]

theorem streamTurn_bad {s : State} {e : DecodeErr} (h : s.me.phase = .body) (hd : decode s.unitWord = .error e) : streamTurn s = badWord e s.unitWord s := by
  unfold streamTurn
  rw [h, hd]

theorem streamTurn_header {s : State} (h : s.me.phase = .header) : streamTurn s = exec (.blockStart s.cur.die s.cur.core s.cur.eng) s := by
  unfold streamTurn
  rw [h]

theorem streamTurn_ended {s : State} (h : s.me.phase = .ended) : streamTurn s = .next s := by
  unfold streamTurn
  rw [h]

theorem helperTurn_word {s : State} {die core w : Nat} {i : Instr} (h : ({ s with cur := ⟨die, core, .x⟩ } : State).helperWord = some w) (hd : decodeHelper w = some i) :
    helperTurn die core s = exec i { s with cur := ⟨die, core, .x⟩ } := by
  unfold helperTurn
  dsimp only
  rw [h]
  dsimp only
  rw [hd]

end Sys2Proof.Machine
end

