-- ==== Sys2Proof/Laws/Still.lean ====
section
/-! SUPPORT. Operations of the units that leave every stream of every core where it was: what holds of them is said once, for the primitives
and for the operations built of them. -/

namespace Sys2Proof.Machine

theorem State.Still.refl (s : State) : s.Still s := ⟨rfl, fun _ _ _ => rfl⟩

theorem State.Still.trans {s u v : State} (h : s.Still u) (k : u.Still v) : s.Still v := ⟨k.cur.trans h.cur, fun d c w => (k.engs d c w).trans (h.engs d c w)⟩

theorem State.Still.me {s u : State} (h : s.Still u) : u.me = s.me := by
  unfold State.me State.myCore
  rw [h.cur]
  exact h.engs _ _ _

/-- A change that leaves cores and the current engine alone. -/
theorem State.still_of {s u : State} (h1 : u.cur = s.cur) (h2 : u.cores = s.cores) : s.Still u :=
  ⟨h1, fun die core w => by unfold State.coreAt; rw [h2]⟩

/-- A core replaced by one with the same streams. -/
theorem State.still_setCoreAt (s : State) (die core : Nat) (c : Core) (h : ∀ w, c.eng w = (s.coreAt die core).eng w) : s.Still (s.setCoreAt die core c) := by
  refine ⟨rfl, fun d k w => ?_⟩
  by_cases e : coreKey d k = coreKey die core
  · have h1 : (s.setCoreAt die core c).coreAt d k = (s.setCoreAt die core c).coreAt die core := by unfold State.coreAt; rw [e]
    have h2 : s.coreAt d k = s.coreAt die core := by unfold State.coreAt; rw [e]
    rw [h1, h2, State.coreAt_setCoreAt]
    exact h w
  · have : (s.setCoreAt die core c).coreAt d k = s.coreAt d k := by
      unfold State.coreAt State.setCoreAt
      exact tGet_tSet_other _ _ _ e
    rw [this]

theorem State.still_setMyCore (s : State) (c : Core) (h : ∀ w, c.eng w = s.myCore.eng w) : s.Still (s.setMyCore c) := s.still_setCoreAt _ _ c h

theorem State.still_foldl {α : Type} (f : State → α → State) (hf : ∀ s a, State.Still s (f s a)) (l : List α) (s : State) : s.Still (l.foldl f s) := by
  induction l generalizing s with
  | nil => exact State.Still.refl s
  | cons a l ih => exact (hf s a).trans (ih _)

theorem State.still_ite {s u v : State} (c : Prop) [Decidable c] (h1 : s.Still u) (h2 : s.Still v) : s.Still (if c then u else v) := by
  split <;> assumption

theorem State.still_atIssue (s : State) : s.Still s.atIssue := State.still_of rfl rfl
theorem State.still_fresh (s : State) : s.Still s.fresh := State.still_of rfl rfl

/-- A body that moves no stream. -/
theorem still_next {s v : State} {f : Form} {body : State → Res State} (h : s.issues f = true) (hb : body s.atIssue = .ok v) (hv : s.atIssue.Still v) :
    ∃ t, issue s f body = .next t ∧ v.EndsAs t f.eff ∧ t.me.x = s.me.x := by
  obtain ⟨t, h1, h2, h3⟩ := endsAs_plain h (hv.cur.trans rfl) (by rw [hv.me]; exact Engine.StaysAt.refl _) hb
  exact ⟨t, h1, h2, by rw [h3, hv.me]; rfl⟩

/-- A body that moves no stream, and lands one scalar register. -/
theorem still_landX {s v : State} {f : Form} {body : State → Res State} {d : Nat} {x : Word} {l : Nat} (h : s.issues f = true)
    (hb : body s.atIssue = .ok (v.landX d x l)) (hv : s.atIssue.Still v) :
    ∃ t, issue s f body = .next t ∧ v.EndsAs t f.eff ∧ s.Regs t (fun r => if r = d then some x else none) := by
  obtain ⟨t, h1, h2, h3⟩ := endsAs_landX h (hv.cur.trans rfl) (by rw [hv.me]; exact Engine.StaysAt.refl _) hb
  refine ⟨t, h1, h2, fun r => ?_⟩
  have := h3 r
  rw [hv.cur, hv.me] at this
  exact this

/-! ### Scratchpad writes -/

theorem State.still_spWrite (s : State) (die core lo : Nat) (data : List Byte) : s.Still (s.spWrite die core lo data) := by
  obtain ⟨⟨c, g, e⟩, ⟨q, e2⟩, e3, -⟩ := State.wrote_spWrite s die core lo data
  refine ⟨by rw [e], fun d k w => ?_⟩
  by_cases h : coreKey d k = coreKey die core
  · have h1 : ∀ z : State, z.coreAt d k = z.coreAt die core := fun z => by unfold State.coreAt; rw [h]
    rw [h1, h1 s, e2]
    cases w <;> rfl
  · have : (s.spWrite die core lo data).coreAt d k = s.coreAt d k := e3 _ h
    rw [this]

/-! ### Global reads -/

theorem State.still_stampRemote (s : State) (die core : Nat) : s.Still (s.stampRemote die core) := s.still_setCoreAt _ _ _ (fun w => by cases w <;> rfl)

theorem res_bind {α β : Type} {x : Res α} {f : α → Res β} {b : β} (h : (x >>= f) = .ok b) : ∃ a, x = .ok a ∧ f a = .ok b := by
  cases x with
  | error z => rw [bind_error] at h; cases h
  | ok a => exact ⟨a, rfl, h⟩

theorem State.globalLoad_still {s u : State} {i : Instr} {rq ea n : Nat} {foot : Option (List Range)} {bs : List Byte} (h : s.globalLoad i rq ea n foot = .ok (bs, u)) :
    s.Still u := by
  unfold State.globalLoad at h
  split at h
  · obtain ⟨_, -, h⟩ := res_bind h
    obtain ⟨_, -, h⟩ := res_bind h
    cases h
    exact s.still_stampRemote _ _
  · obtain ⟨p, -, h⟩ := res_bind h
    obtain ⟨s1, h1, h⟩ := res_bind h
    obtain ⟨_, -, h⟩ := res_bind h
    obtain ⟨_, -, h⟩ := res_bind h
    obtain ⟨_, -, h⟩ := res_bind h
    cases h
    cases h2 : s.own s.cur.die s.cur.core (if foot.isSome = true then s.myTask else none) p ea n false with
    | error x => rw [h2] at h1; cases h1
    | ok v =>
      rw [h2] at h1
      cases h1
      obtain ⟨g, rfl⟩ := State.own_shape h2
      exact State.still_of rfl rfl

theorem State.globalWords_still {i : Instr} {base m : Nat} : ∀ {s u : State} {va : Nat} {ws : List Nat}, s.globalWords i base m va = .ok (ws, u) → s.Still u := by
  induction m with
  | zero => intro s u va ws h; cases h; exact State.Still.refl _
  | succ m ih =>
    intro s u va ws h
    obtain ⟨r, h1, h⟩ := res_bind h
    obtain ⟨q, h2, h⟩ := res_bind h
    cases h
    exact (State.globalLoad_still (u := r.2) h1).trans (ih (u := q.2) h2)

theorem State.descWords_still {s u : State} {i : Instr} {scratch : Bool} {base n : Nat} {w : Nat → Nat} (h : s.descWords i scratch base n = .ok (w, u)) : s.Still u := by
  unfold State.descWords at h
  split at h
  · obtain ⟨_, -, h⟩ := res_bind h
    obtain ⟨_, -, h⟩ := res_bind h
    have e := (Prod.mk.inj (Except.ok.inj h)).2
    rw [← e]
    exact State.Still.refl _
  · obtain ⟨r, h1, h⟩ := res_bind h
    cases h
    exact State.globalWords_still (u := r.2) h1

/-! ### Links and chains -/

theorem State.still_setLink (s : State) (k : Nat) (l : Link) : s.Still (s.setLink k l) := State.still_of rfl rfl
theorem State.still_setChain (s : State) (c : Chain) : s.Still (s.setChain c) := State.still_of rfl rfl
theorem State.still_setDieAt (s : State) (d : Nat) (x : Die) : s.Still (s.setDieAt d x) := State.still_of rfl rfl

theorem State.still_build (s : State) (c : Nat) (ls : List (LinkRef × LinkEntry × Nat)) : s.Still (s.build c ls) :=
  (s.still_setChain _).trans (State.still_foldl _ (fun s _ => s.still_setLink _ _) _ _)

theorem State.still_tryForm (s : State) (ctx chain i : Nat) : s.Still (s.tryForm ctx chain i) := by
  unfold State.tryForm
  dsimp only
  split
  · exact State.Still.refl s
  · refine State.still_ite _ (State.Still.refl s) ?_
    refine State.still_ite _ ?_ ?_
    · exact (s.still_setCoreAt _ _ _ (fun w => by cases w <;> rfl)).trans (State.still_of rfl rfl)
    · exact (s.still_setCoreAt _ _ _ (fun w => by cases w <;> rfl)).trans (State.still_setLink _ _ _)

theorem State.still_formChain (s : State) (ctx chain : Nat) : s.Still (s.formChain ctx chain) := State.still_foldl _ (fun s _ => s.still_tryForm _ _ _) _ _

theorem State.still_freeze (s : State) (ctx chain cause named : Nat) (marks : List Nat) (lost : Bool) : s.Still (s.freeze ctx chain cause named marks lost) := by
  unfold State.freeze
  dsimp only
  refine State.Still.trans ?_ (State.still_foldl _ (fun s i => ?_) _ _)
  · refine State.still_ite _ (State.still_ite _ (s.still_setChain _) (State.Still.refl s)) ?_
    exact (State.still_foldl _ (fun s _ => s.still_setLink _ _) _ _).trans (State.still_setChain _ _)
  · split
    · exact s.still_setLink _ _
    · exact State.Still.refl s

theorem State.still_thaw (s : State) (ch : Chain) : s.Still (s.thaw ch) :=
  ((State.still_foldl _ (fun s _ => s.still_setLink _ _) _ _).trans (State.still_setChain _ _)).trans (State.still_formChain _ _ _)

theorem State.still_retireFailed (s : State) (die phys : Nat) : s.Still (s.retireFailed die phys) :=
  State.still_ite _ (s.still_setDieAt _ _) (State.Still.refl s)

theorem State.still_release (s : State) (ch : Chain) : s.Still (s.release ch) :=
  (State.still_foldl _ (fun s _ => (State.still_ite _ (State.Still.refl s) (s.still_setLink _ _)).trans (State.still_retireFailed _ _ _)) _ _).trans (State.still_of rfl rfl)

theorem State.still_splice (s : State) (ch : Chain) (pos : Nat) (o n : LinkRef) (own : Nat) (clear : Bool) : s.Still (s.splice ch pos o n own clear) := by
  unfold State.splice
  dsimp only
  refine State.Still.trans ?_ (State.still_retireFailed _ _ _)
  refine State.Still.trans ?_ (State.still_setChain _ _)
  exact (State.still_ite _ (State.Still.refl s) (s.still_setLink _ _)).trans (State.still_setLink _ _ _)

/-! ### Bytes put at their home, and stash sectors -/

theorem State.still_putLine (s : State) (die lo home kn : Nat) (data : List Byte) : s.Still (s.putLine die lo home kn data) := by
  unfold State.putLine
  exact State.still_ite _ (State.still_of rfl rfl) (State.still_of rfl rfl)

theorem State.still_put (s : State) (die : Nat) (p : Phys) (data : List Byte) : s.Still (s.put die p data) :=
  State.still_foldl _ (fun s _ => s.still_putLine _ _ _ _ _) _ _

theorem State.still_sectorBack (s : State) (die core u : Nat) : s.Still (s.sectorBack die core u) := by
  unfold State.sectorBack
  dsimp only
  refine State.still_ite _ ?_ (State.Still.refl s)
  exact (s.still_setCoreAt _ _ _ (fun w => by cases w <;> rfl)).trans (State.still_put _ _ _ _)

theorem State.flushRange_still {us : List Nat} : ∀ {s t : State} {die core : Nat}, s.flushRange die core us = .ok t → s.Still t := by
  induction us with
  | nil => intro s t die core h; cases h; exact State.Still.refl s
  | cons u us ih =>
    intro s t die core h
    unfold State.flushRange at h
    dsimp only at h
    split at h
    · exact (s.still_sectorBack die core u).trans (ih h)
    · cases h

theorem State.still_filterPrune (s : State) : s.Still s.filterPrune := State.still_of rfl rfl

/-! ### Writes of the memory-side units -/

/-- Bytes written into every die's copy of a line: nothing else changes. -/
theorem State.putCopies_shape (s : State) (key : Nat) (b : Byte) : ∃ l, s.putCopies key b = { s with lines := l } := by
  have fold : ∀ (ds : List Nat) (z : State), ∃ l, ds.foldl (fun s d => if (s.lineAt (key / 256) d).st = .i then s else
      s.setLine (key / 256) d { s.lineAt (key / 256) d with data := tSet 0 (s.lineAt (key / 256) d).data key b }) z = { z with lines := l } := by
    intro ds
    induction ds with
    | nil => intro z; exact ⟨_, rfl⟩
    | cons d ds ih =>
      intro z
      rw [List.foldl_cons]
      split
      · exact ih z
      · exact ih _
  exact fold _ s

theorem State.putAll_shape (bs : List Byte) : ∀ (s : State) (key : Nat), ∃ l, s.putAll key bs = { s with lines := l } := by
  induction bs with
  | nil => intro s key; exact ⟨_, rfl⟩
  | cons b bs ih =>
    intro s key
    obtain ⟨l, e⟩ := s.putCopies_shape key b
    obtain ⟨m, e2⟩ := ih (s.putCopies key b) (key + 1)
    exact ⟨m, by rw [State.putAll, e2, e]⟩

/-- Bytes written by a unit: memory, every copy of them, and the stash sectors of their lines. -/
structure State.UnitWrote (s u : State) : Prop where
  shape : ∃ m k c l, u = { s with mem := m, keyTag := k, cores := c, lines := l }
  cores : ∀ k, ∃ q, tGet {} u.cores k = { tGet {} s.cores k with sectors := q }

theorem State.UnitWrote.refl (s : State) : s.UnitWrote s := ⟨⟨_, _, _, _, rfl⟩, fun _ => ⟨_, rfl⟩⟩

theorem State.UnitWrote.trans {s u v : State} (h : s.UnitWrote u) (k : u.UnitWrote v) : s.UnitWrote v where
  shape := by obtain ⟨_, _, c, l, e⟩ := h.shape; obtain ⟨m, n, c2, l2, e2⟩ := k.shape; exact ⟨m, n, c2, l2, by rw [e2, e]⟩
  cores := fun n => by obtain ⟨m, e⟩ := h.cores n; obtain ⟨m2, e2⟩ := k.cores n; exact ⟨m2, by rw [e2, e]⟩

theorem State.UnitWrote.still {s u : State} (h : s.UnitWrote u) : s.Still u := by
  obtain ⟨_, _, _, _, e⟩ := h.shape
  refine ⟨by rw [e], fun d k w => ?_⟩
  obtain ⟨m, e2⟩ := h.cores (coreKey d k)
  unfold State.coreAt
  rw [e2]
  cases w <;> rfl

theorem State.UnitWrote.ctxs {s u : State} (h : s.UnitWrote u) : u.ctxs = s.ctxs := by obtain ⟨_, _, _, _, e⟩ := h.shape; rw [e]

theorem State.unitWrote_foldl {α : Type} (f : State → α → State) (hf : ∀ s a, State.UnitWrote s (f s a)) (l : List α) (s : State) : s.UnitWrote (l.foldl f s) := by
  induction l generalizing s with
  | nil => exact State.UnitWrote.refl s
  | cons a l ih => exact (hf s a).trans (ih _)

theorem State.unitWrote_putEvery (s : State) (key kn : Nat) (data : List Byte) : s.UnitWrote (s.putEvery key kn data) := by
  obtain ⟨l, e⟩ := State.putAll_shape data (s.putMem key kn data) key
  exact ⟨⟨_, _, _, l, e⟩, fun k => ⟨_, by rw [State.putEvery, e]; rfl⟩⟩

theorem State.unitWrote_dropSector (s : State) (ck u : Nat) (e : StSector) : s.UnitWrote (s.dropSector ck u e) := by
  have h1 : s.UnitWrote (if e.st = .dirty then s.putEvery e.key e.keyNo (mRead (tGet {} s.cores ck).scratch (u * 32) 32) else s) := by
    split
    · exact s.unitWrote_putEvery _ _ _
    · exact State.UnitWrote.refl s
  obtain ⟨⟨m, k, c, l, e1⟩, h2⟩ := h1
  unfold State.dropSector
  dsimp only
  refine ⟨⟨m, k, _, l, by rw [e1]⟩, fun j => ?_⟩
  dsimp only
  by_cases hj : j = ck
  · subst hj
    rw [tGet_tSet_same]
    exact ⟨_, rfl⟩
  · rw [tGet_tSet_other _ _ _ hj]
    exact h2 j

theorem State.unitWrote_dropSectors (s : State) (line : Nat) : s.UnitWrote (s.dropSectors line) :=
  State.unitWrote_foldl _ (fun s _ => State.unitWrote_foldl _ (fun s _ => by
    split
    · exact s.unitWrote_dropSector _ _ _
    · exact State.UnitWrote.refl s) _ s) _ s

theorem State.unitWrote_devWrite (s : State) (p : Phys) (data : List Byte) : s.UnitWrote (s.devWrite p data) :=
  (State.unitWrote_foldl _ (fun s l => s.unitWrote_dropSectors l) _ s).trans (State.unitWrote_putEvery _ _ _ _)

theorem State.unitWrote_vwrite (s : State) (ctx : Nat) (cl : List Nat) (va : Nat) (data : List Byte) : s.UnitWrote (s.vwrite ctx cl va data) := by
  unfold State.vwrite
  split
  · exact s.unitWrote_devWrite _ _
  · exact State.UnitWrote.refl s

theorem State.unitWrote_unitWrite (s : State) (ctx : Nat) (cl : List Nat) (va : Nat) (data : List Byte) : s.UnitWrote (s.unitWrite ctx cl va data) :=
  State.unitWrote_foldl _ (fun s _ => s.unitWrote_vwrite _ _ _ _) _ _

theorem State.unitWrote_hbHeader (s : State) (ctx : Nat) (h : Hatbox) (n k : Nat) (ws : List Nat) : s.UnitWrote (s.hbHeader ctx h n k ws) :=
  s.unitWrote_unitWrite _ _ _ _

theorem State.still_setCtx (s : State) (c : Ctx) : s.Still (s.setCtx c) := State.still_of rfl rfl
theorem State.still_setHatbox (s : State) (ctx : Nat) (h : Hatbox) : s.Still (s.setHatbox ctx h) := s.still_setCtx _

theorem State.unitWrote_hbZero (s : State) (ctx : Nat) (h : Hatbox) : s.UnitWrote (s.hbZero ctx h) :=
  State.unitWrote_foldl _ (fun s _ => s.unitWrote_unitWrite _ _ _ _) _ _

end Sys2Proof.Machine
end

