-- ==== Sys2Proof/Laws/Traps.lean ====
section
/-! SUPPORT. What taking an exception and returning from one can do, and folds over the cores of a partition. -/

namespace Sys2Proof.Machine

/-! ### Folds over cores -/

theorem coreKey_inj {die j k : Nat} (h : coreKey die j = coreKey die k) : j = k := by unfold coreKey at h; omega

theorem nodup_upto (a n : Nat) : (upto a n).Nodup := by
  induction n generalizing a with
  | zero => exact List.nodup_nil
  | succ n ih =>
    simp only [upto, List.nodup_cons, mem_upto]
    exact ⟨by omega, ih _⟩

/-- A fold that updates one core at a time, each from what it held. -/
theorem foldCores (die : Nat) (G : State → Nat → State) (F : Nat → Core → Core) (s : State)
    (hG : ∀ c k, ∃ d, G { s with cores := c } k = { s with cores := d } ∧ tGet {} d (coreKey die k) = F k (tGet {} c (coreKey die k)) ∧
      ∀ j, j ≠ coreKey die k → tGet {} d j = tGet {} c j) (ks : List Nat) (hn : ks.Nodup) :
    ∀ c0, ∃ c, ks.foldl G { s with cores := c0 } = { s with cores := c } ∧ (∀ k ∈ ks, tGet {} c (coreKey die k) = F k (tGet {} c0 (coreKey die k))) ∧
      ∀ j, (∀ k ∈ ks, j ≠ coreKey die k) → tGet {} c j = tGet {} c0 j := by
  induction ks with
  | nil => exact fun c0 => ⟨c0, rfl, by simp, fun _ _ => rfl⟩
  | cons k ks ih =>
    intro c0
    obtain ⟨d, g1, g2, g3⟩ := hG c0 k
    obtain ⟨c, e1, e2, e3⟩ := ih (List.nodup_cons.1 hn).2 d
    refine ⟨c, ?_, fun j hj => ?_, fun j hj => ?_⟩
    · rw [List.foldl_cons, g1]; exact e1
    · rcases List.mem_cons.1 hj with rfl | hj
      · rw [e3 _ (fun i hi h => ?_), g2]
        rw [coreKey_inj h] at hn
        exact (List.nodup_cons.1 hn).1 hi
      · rw [e2 j hj, g3]
        intro h
        rw [coreKey_inj h] at hj
        exact (List.nodup_cons.1 hn).1 hj
    · rw [e3 j (fun i hi => hj i (List.mem_cons_of_mem _ hi)), g3 _ (hj k List.mem_cons_self)]

/-- The same, where each core is set. -/
theorem foldSetCores (die : Nat) (G : State → Nat → State) (F : Nat → Core → Core) (s : State)
    (hG : ∀ c k, G { s with cores := c } k = ({ s with cores := c } : State).setCoreAt die k (F k (tGet {} c (coreKey die k)))) (ks : List Nat) (hn : ks.Nodup) :
    ∀ c0, ∃ c, ks.foldl G { s with cores := c0 } = { s with cores := c } ∧ (∀ k ∈ ks, tGet {} c (coreKey die k) = F k (tGet {} c0 (coreKey die k))) ∧
      ∀ j, (∀ k ∈ ks, j ≠ coreKey die k) → tGet {} c j = tGet {} c0 j :=
  foldCores die G F s (fun c k => ⟨_, hG c k, tGet_tSet_same _ _ _ _, fun _ hj => tGet_tSet_other _ _ _ hj⟩) ks hn

/-! ### Taking an exception -/

/-- The halt line raised, and nothing else. -/
theorem State.raiseHalt_shape (s : State) (die part cls sub : Nat) : ∃ p, s.raiseHalt die part cls sub = { s with parts := p } ∧
    (∀ k, k ≠ partKey die part → tGet {} p k = tGet {} s.parts k) ∧
    tGet {} p (partKey die part) = { s.partAt die part with halt := some ((s.partAt die part).halt.getD { clk := s.now, cls := cls, sub := sub }) } := by
  cases h : (s.partAt die part).halt with
  | none =>
    refine ⟨_, by simp only [State.raiseHalt, h]; rfl, fun k hk => ?_, ?_⟩
    · rw [tGet_tSet, if_neg hk]
    · rw [tGet_tSet, if_pos rfl]; rfl
  | some x =>
    refine ⟨s.parts, by simp only [State.raiseHalt, h], fun _ _ => rfl, ?_⟩
    show s.partAt die part = _
    rw [Option.getD_some, ← h]

/-- TAKING AN EXCEPTION, outside a handler: the trap stands with its engine and the halt line is up. -/
theorem State.takeTrap_shape (s : State) (id : EngId) (t : TrapRec) (hh : id.eng ≠ .h) (ht : (s.engAt id).trap = none) :
    ∃ p, s.takeTrap id t = { s.setEngAt id { s.engAt id with trap := some { t with clk := s.now }, req := none } with parts := p } ∧
      (∀ k, k ≠ partKey id.die (s.partOf id.die id.core) → tGet {} p k = tGet {} s.parts k) ∧
      tGet {} p (partKey id.die (s.partOf id.die id.core)) =
        { s.partAt id.die (s.partOf id.die id.core) with halt := some ((s.partAt id.die (s.partOf id.die id.core)).halt.getD { clk := s.now, cls := 0, sub := 0 }) } := by
  obtain ⟨p, e1, e2, e3⟩ := State.raiseHalt_shape (s.setEngAt id { s.engAt id with trap := some { t with clk := s.now }, req := none }) id.die (s.partOf id.die id.core) 0 0
  refine ⟨p, ?_, e2, e3⟩
  rw [← e1]
  simp only [State.takeTrap, hh, if_false, ht]
  rfl

/-- A handler's failure (R131). -/
theorem State.handlerFail_shape (s : State) (die core : Nat) :
    s.handlerFail die core = (s.setCoreAt die core { s.coreAt die core with hfail := true, inHandler := false, htask := none, h := { (s.coreAt die core).h with phase := .ended } }).setPartAt die
      (s.partOf die core) { s.partOfCore die core with halt := (s.partOfCore die core).halt.map (fun h => { h with handler := false, contain := true }) } := rfl

/-! ### Returning from one -/

theorem Engine.wrapBody_trap (e : Engine) : e.wrapBody.trap = e.trap := by unfold Engine.wrapBody; dsimp only; split_ifs <;> rfl
theorem Engine.wrapBody_savedTrap (e : Engine) : e.wrapBody.savedTrap = e.savedTrap := by unfold Engine.wrapBody; dsimp only; split_ifs <;> rfl

@[simp] theorem Engine.resumed_trap (e : Engine) (n : Nat) : (e.resumed n).trap = none := by
  unfold Engine.resumed; dsimp only
  split
  · rfl
  · split <;> rfl
  · split
    · rw [Engine.wrapBody_trap]
    · rfl
@[simp] theorem Engine.resumed_savedTrap (e : Engine) (n : Nat) : (e.resumed n).savedTrap = e.savedTrap := by
  unfold Engine.resumed; dsimp only
  split
  · rfl
  · split <;> rfl
  · split
    · rw [Engine.wrapBody_savedTrap]
    · rfl
@[simp] theorem Engine.resumed_x (e : Engine) (n : Nat) : (e.resumed n).x = e.x := by
  unfold Engine.resumed; dsimp only
  split
  · rfl
  · split <;> rfl
  · split
    · rw [Engine.wrapBody_x]
    · rfl
@[simp] theorem Engine.resumed_p (e : Engine) (n : Nat) : (e.resumed n).p = e.p := by
  unfold Engine.resumed; dsimp only
  split
  · rfl
  · split <;> rfl
  · split
    · rw [Engine.wrapBody_p]
    · rfl
@[simp] theorem Engine.resumed_b (e : Engine) (n : Nat) : (e.resumed n).b = e.b := by
  unfold Engine.resumed; dsimp only
  split
  · rfl
  · split <;> rfl
  · split
    · rw [Engine.wrapBody_b]
    · rfl

/-- No fault is saved up in a core (R110, R124). -/
def Core.noSaved (c : Core) : Prop := c.c.savedTrap = none ∧ c.v.savedTrap = none ∧ c.m.savedTrap = none ∧ c.x.savedTrap = none

theorem State.raiseSaved_none (s : State) (die core : Nat) (h : (s.coreAt die core).noSaved) : s.raiseSaved die core = s := by
  have h1 : (s.engAt ⟨die, core, .c⟩).savedTrap = none := h.1
  have h2 : (s.engAt ⟨die, core, .v⟩).savedTrap = none := h.2.1
  have h3 : (s.engAt ⟨die, core, .m⟩).savedTrap = none := h.2.2.1
  have h4 : (s.engAt ⟨die, core, .x⟩).savedTrap = none := h.2.2.2
  simp only [State.raiseSaved, h1, h2, h3, h4]

/-- A partition resumed with no fault saved up: the halt line is released and every core stands resumed. -/
theorem State.resumePart_shape (s : State) (die part : Nat) (h : ∀ k ∈ s.coresOf die part, (s.coreAt die k).noSaved) :
    ∃ c, s.resumePart die part = ({ s with cores := c } : State).setPartAt die part { s.partAt die part with halt := none } ∧
      (∀ k ∈ s.coresOf die part, tGet {} c (coreKey die k) = (s.coreAt die k).resumed s.now) ∧
      ∀ j, (∀ k ∈ s.coresOf die part, j ≠ coreKey die k) → tGet {} c j = tGet {} s.cores j := by
  obtain ⟨c, e1, e2, e3⟩ := foldSetCores die (fun s k => s.setCoreAt die k ((s.coreAt die k).resumed s.now)) (fun _ c => c.resumed s.now) s (fun _ _ => rfl) (s.coresOf die part)
    (nodup_upto _ _) s.cores
  refine ⟨c, ?_, e2, e3⟩
  have e1' : (s.coresOf die part).foldl (fun s k => s.setCoreAt die k ((s.coreAt die k).resumed s.now)) s = { s with cores := c } := e1
  unfold State.resumePart
  simp only [e1']
  have hs : ∀ (u : State) (ks : List Nat), (∀ k ∈ ks, (u.coreAt die k).noSaved) → ks.foldl (fun s k => s.raiseSaved die k) u = u := by
    intro u ks
    induction ks with
    | nil => intro _; rfl
    | cons k ks ih =>
      intro hk
      rw [List.foldl_cons, State.raiseSaved_none u die k (hk k List.mem_cons_self)]
      exact ih (fun j hj => hk j (List.mem_cons_of_mem _ hj))
  refine hs _ _ (fun k hk => ?_)
  have hc : (({ s with cores := c } : State).setPartAt die part { ({ s with cores := c } : State).partAt die part with halt := none }).coreAt die k = (s.coreAt die k).resumed s.now :=
    e2 k hk
  rw [hc]
  obtain ⟨h1, h2, h3, h4⟩ := h k hk
  exact ⟨by simpa [Core.resumed] using h1, by simpa [Core.resumed] using h2, by simpa [Core.resumed] using h3, by simpa [Core.resumed] using h4⟩

/-! ### The completion of a halt -/

/-- One engine's trap event recorded. -/
def Core.tracedTrap (c : Core) (now since : Nat) (tc : Word) (e : Eng) : Core :=
  match (c.eng e).trap with
  | some t => c.traced now (t.clk - since) e 7 t.cls tc
  | none => c

theorem Core.tracedTrap_shape (c : Core) (now since : Nat) (tc : Word) (e : Eng) :
    ∃ x y z w, c.tracedTrap now since tc e = { c with cnt := x, evsat := y, tsince := z, trace := w } := by
  unfold Core.tracedTrap
  split
  · exact c.traced_shape _ _ _ _ _ _
  · exact ⟨_, _, _, _, rfl⟩

theorem Core.tracedTraps_shape (c : Core) (now since : Nat) (tc : Word) :
    ∃ x y z w, c.tracedTraps now since tc = { c with cnt := x, evsat := y, tsince := z, trace := w } := by
  have go : ∀ (e : Eng) (d : Core), (∃ x y z w, d = { c with cnt := x, evsat := y, tsince := z, trace := w }) →
      ∃ x y z w, d.tracedTrap now since tc e = { c with cnt := x, evsat := y, tsince := z, trace := w } := by
    rintro e d ⟨x, y, z, w, rfl⟩
    obtain ⟨x1, y1, z1, w1, h⟩ := Core.tracedTrap_shape { c with cnt := x, evsat := y, tsince := z, trace := w } now since tc e
    exact ⟨x1, y1, z1, w1, h⟩
  exact go .x _ (go .m _ (go .v _ (go .c _ ⟨_, _, _, _, rfl⟩)))

theorem State.abandonOps_shape (s : State) (die core : Nat) : ∃ l c, s.abandonOps die core = { s with links := l, cores := c } ∧
    (∃ o m, tGet {} c (coreKey die core) = { s.coreAt die core with ops := o, mWaiting := m }) ∧ ∀ k, k ≠ coreKey die core → tGet {} c k = tGet {} s.cores k := by
  have hf : ∀ (os : List (MOp × Nat)) (u : State), ∃ l, os.foldl (fun s o =>
      let l := s.linkAt o.1.link
      s.setLink o.1.link (if o.2 = 0 || o.1.prog ≠ {} then { l with issued := l.recv, partialAdd := true, prog := o.1.prog } else { l with issued := l.recv })) u = { u with links := l } := by
    intro os
    induction os with
    | nil => exact fun u => ⟨_, rfl⟩
    | cons o os ih =>
      intro u
      obtain ⟨l, h⟩ := ih (u.setLink o.1.link (if o.2 = 0 || o.1.prog ≠ {} then { u.linkAt o.1.link with issued := (u.linkAt o.1.link).recv, partialAdd := true, prog := o.1.prog } else { u.linkAt o.1.link with issued := (u.linkAt o.1.link).recv }))
      exact ⟨l, h⟩
  obtain ⟨l, h⟩ := hf (s.coreAt die core).opsInOrder (s.setCoreAt die core { s.coreAt die core with ops := [], mWaiting := false })
  refine ⟨l, _, h, ⟨[], false, ?_⟩, fun k hk => ?_⟩
  · exact s.coreAt_setCoreAt _ _ _
  · simp [State.setCoreAt, tGet_tSet, hk]

theorem State.abandonAll_shape (die : Nat) (ks : List Nat) (s : State) : ∃ l c, ks.foldl (fun s k => s.abandonOps die k) s = { s with links := l, cores := c } ∧
    (∀ k, ∃ o m, tGet {} c (coreKey die k) = { tGet {} s.cores (coreKey die k) with ops := o, mWaiting := m }) ∧ ∀ j, (∀ k ∈ ks, j ≠ coreKey die k) → tGet {} c j = tGet {} s.cores j := by
  induction ks generalizing s with
  | nil => exact ⟨_, _, rfl, fun k => ⟨_, _, rfl⟩, fun _ _ => rfl⟩
  | cons k ks ih =>
    obtain ⟨l1, c1, e1, ⟨o1, m1, f1⟩, g1⟩ := s.abandonOps_shape die k
    obtain ⟨l2, c2, e2, f2, g2⟩ := ih (s.abandonOps die k)
    refine ⟨l2, c2, ?_, fun j => ?_, fun j hj => ?_⟩
    · rw [List.foldl_cons, e2, e1]
    · obtain ⟨o, m, f⟩ := f2 j
      rw [e1] at f
      by_cases hj : coreKey die j = coreKey die k
      · refine ⟨o, m, ?_⟩
        rw [f]
        simp only [hj, f1]
        rfl
      · refine ⟨o, m, ?_⟩
        rw [f]
        simp only [g1 _ hj]
    · rw [g2 j (fun i hi => hj i (List.mem_cons_of_mem _ hi)), e1]
      exact g1 j (hj k List.mem_cons_self)

theorem Core.halted_eng (c : Core) (h : HaltSt) (w : Eng) (hw : w ≠ .h) : let e1 := (c.eng w).stopped ((c.eng w).past 2)
    (c.halted h).eng w = { e1 with stop := stopRec h c w e1, stop0 := stopRec h c w e1 } := by
  cases w
  · rfl
  · rfl
  · rfl
  · rfl
  · exact absurd rfl hw

theorem Engine.stopped_x (e : Engine) : (e.stopped (e.past 2)).x = e.x := by
  unfold Engine.stopped Engine.past
  split
  · split
    · show Engine.x (Engine.wrapBody _) = _
      rw [Engine.wrapBody_x]
    · rfl
  · rfl

/-- Everything a partition still has to land, landed: each core by itself. -/
theorem State.landNow_shape (s : State) (die core : Nat) : ∃ c, s.landNow die core = { s with cores := c } ∧
    tGet {} c (coreKey die core) = (if (s.coreAt die core).landing then (s.coreAt die core).landBy (max s.now (s.coreAt die core).lastLanding) else s.coreAt die core) ∧
    ∀ j, j ≠ coreKey die core → tGet {} c j = tGet {} s.cores j := by
  unfold State.landNow
  dsimp only
  split
  · exact ⟨_, rfl, tGet_tSet_same _ _ _ _, fun _ hj => tGet_tSet_other _ _ _ hj⟩
  · exact ⟨_, rfl, rfl, fun _ _ => rfl⟩

/-- Every core of a halting partition stopped, with its records and TCAUSE, and the halt complete. -/
theorem State.haltPart_shape (s : State) (die part : Nat) (h : HaltSt) (hh : (s.partAt die part).halt = some h) (hc : h.complete = false) :
    ∃ c, s.haltPart die part = ({ s with cores := c } : State).setPartAt die part
        { s.partAt die part with halt := some { h with complete := true, who := (s.primaryTrap die part h).1, trap := (s.primaryTrap die part h).2,
                                                              hfail := (s.coreAt (s.primaryTrap die part h).1.die (s.primaryTrap die part h).1.core).hfail } } ∧
      (∀ k ∈ s.coresOf die part, ∃ x y z w, tGet {} c (coreKey die k) =
        { (s.coreAt die k).halted h with
          tcause := s.tcauseOf (s.primaryTrap die part h), taddr := (s.primaryTrap die part h).2.addr, cnt := x, evsat := y, tsince := z, trace := w }) ∧
      ∀ j, (∀ k ∈ s.coresOf die part, j ≠ coreKey die k) → tGet {} c j = tGet {} s.cores j := by
  obtain ⟨c, e, f, g⟩ := foldSetCores die (fun u k => u.setCoreAt die k (({ (u.coreAt die k).halted h with tcause := s.tcauseOf (s.primaryTrap die part h), taddr := (s.primaryTrap die part h).2.addr } : Core).tracedTraps u.now (u.dieAt die).admitAt (s.tcauseOf (s.primaryTrap die part h))))
    (fun _ c => ({ c.halted h with tcause := s.tcauseOf (s.primaryTrap die part h), taddr := (s.primaryTrap die part h).2.addr } : Core).tracedTraps s.now (s.dieAt die).admitAt (s.tcauseOf (s.primaryTrap die part h)))
    s (fun _ _ => rfl) (s.coresOf die part) (nodup_upto _ _) s.cores
  have e' : (s.coresOf die part).foldl (fun u k => u.setCoreAt die k (({ (u.coreAt die k).halted h with tcause := s.tcauseOf (s.primaryTrap die part h), taddr := (s.primaryTrap die part h).2.addr } : Core).tracedTraps u.now (u.dieAt die).admitAt (s.tcauseOf (s.primaryTrap die part h)))) s = { s with cores := c } := e
  refine ⟨c, ?_, fun k hk => ?_, g⟩
  · unfold State.haltPart
    simp only [hh, hc, Bool.false_eq_true, if_false]
    rw [e']
    rfl
  · obtain ⟨x, y, z, w, t⟩ := Core.tracedTraps_shape { (s.coreAt die k).halted h with tcause := s.tcauseOf (s.primaryTrap die part h), taddr := (s.primaryTrap die part h).2.addr } s.now (s.dieAt die).admitAt (s.tcauseOf (s.primaryTrap die part h))
    exact ⟨x, y, z, w, (f k hk).trans t⟩

end Sys2Proof.Machine
end

