-- ==== Sys2Proof/Laws/Vector.lean ====
section
/-! SUPPORT. What the shared vector operations leave: the lanes of a register written, and the core after a landing of lanes or of a mask. -/

namespace Sys2Proof.Machine

/-- Lanes of one register written: one read of one lane. -/
theorem tGet_setLanes (t : Tab Lane) (v : Nat) (f : Nat → Option Lane) (ls : List Nat) (hl : ∀ i ∈ ls, i < 64) (hn : ls.Nodup) (r i : Nat) (hi : i < 64) :
    tGet 0 (setLanes t v f ls) (r * 64 + i) = if r = v ∧ i ∈ ls then (f i).getD (tGet 0 t (r * 64 + i)) else tGet 0 t (r * 64 + i) := by
  induction ls generalizing t with
  | nil => simp [setLanes]
  | cons j js ih =>
    have hj : j < 64 := hl j (by simp)
    have hn' := List.nodup_cons.1 hn
    rw [setLanes, ih _ (fun k hk => hl k (by simp [hk])) hn'.2]
    have key : ∀ x : Lane, tGet 0 (tSet 0 t (v * 64 + j) x) (r * 64 + i) = if r = v ∧ i = j then x else tGet 0 t (r * 64 + i) := by
      intro x
      rw [tGet_tSet]
      by_cases h : r = v ∧ i = j
      · rw [if_pos h, if_pos (by rw [h.1, h.2])]
      · rw [if_neg h, if_neg (by omega)]
    by_cases h1 : r = v
    · by_cases h2 : i = j
      · subst h1; subst h2
        rw [if_neg (by simp [hn'.1]), if_pos (by simp)]
        cases hf : f i with
        | none => rfl
        | some x => simp only [key, and_self, if_true, Option.getD_some]
      · have e : (i ∈ j :: js) ↔ i ∈ js := by simp [h2]
        simp only [e]
        cases hf : f j with
        | none => rfl
        | some x => simp only [key, h2, and_false, if_false]
    · cases hf : f j with
      | none => simp [h1]
      | some x => simp only [key, h1, false_and, if_false]

theorem mem_upto_64 {i : Nat} (h : i < 64) : i ∈ upto 0 64 := by
  revert i; decide

theorem upto_64_lt : ∀ i ∈ upto 0 64, i < 64 := by decide
theorem upto_64_nodup : (upto 0 64).Nodup := by decide

/-- All 64 lanes offered. -/
theorem tGet_setLanes_all (t : Tab Lane) (v : Nat) (f : Nat → Option Lane) (r i : Nat) (hi : i < 64) :
    tGet 0 (setLanes t v f (upto 0 64)) (r * 64 + i) = if r = v then (f i).getD (tGet 0 t (r * 64 + i)) else tGet 0 t (r * 64 + i) := by
  rw [tGet_setLanes t v f _ upto_64_lt upto_64_nodup r i hi]
  simp [mem_upto_64 hi]

/-! ### Landings noted -/

theorem State.lands_noteLanding (s : State) (r l : Nat) : s.Lands (s.noteLanding r l) := by
  refine ⟨⟨_, rfl⟩, fun k hk => s.cores_setMyCore_other _ hk, ?_, ?_⟩
  · simp [State.noteLanding]
  · simp only [State.noteLanding, State.me_setMe, Engine.landing]
    split <;> exact ⟨_, _, _, rfl⟩

/-- A change of the current core that leaves its streams alone can be made before or after a landing is noted. -/
theorem State.noteLanding_setMyCore (s : State) (g : Core → Core) (hg : ∀ c w e, g (Core.setEng c w e) = (g c).setEng w e) (hs : ∀ c w, (g c).eng w = Core.eng c w)
    (r l : Nat) : (s.noteLanding r l).setMyCore (g (s.noteLanding r l).myCore) = (s.setMyCore (g s.myCore)).noteLanding r l := by
  simp only [State.noteLanding, State.setMe, State.myCore_setMyCore, State.me_setMyCore, setMyCore_setMyCore, hg, hs]
  rfl

theorem State.noteLanding_orFlags (s : State) (r l : Nat) (f : Flags) : (s.noteLanding r l).orFlags f = (s.orFlags f).noteLanding r l :=
  s.noteLanding_setMyCore (fun c => c.orFlags f) (fun c w e => by cases w <;> rfl) (fun c w => by cases w <;> rfl) r l

theorem State.noteLanding_srStep (s : State) (r l : Nat) (b : Bool) : (s.noteLanding r l).srStep b = (s.srStep b).noteLanding r l := by
  unfold State.srStep
  split
  · exact s.noteLanding_setMyCore (fun c => { c with srseq := c.srseq + 1 }) (fun c w e => by cases w <;> rfl) (fun c w => by cases w <;> rfl) r l
  · rfl

/-- Two cores may trade a stream for a trace entry. -/
theorem Core.traced_setEng (c : Core) (w : Eng) (x : Engine) (now cy : Nat) (e : Eng) (k a : Nat) (p : Word) :
    (c.setEng w x).traced now cy e k a p = (c.traced now cy e k a p).setEng w x := by
  have raise : ∀ (d : Core) (m n : Nat), (d.setEng w x).raiseCnt now m n = (d.raiseCnt now m n).setEng w x := by
    intro d m n
    unfold Core.raiseCnt
    have hd : (d.setEng w x).cnt = d.cnt := by cases w <;> rfl
    simp only [hd]
    split <;> cases w <;> rfl
  have key : ∀ (t : Trigger) (d : Core), trigRaise now k p t (d.setEng w x) = (trigRaise now k p t d).setEng w x := by
    intro t d
    unfold trigRaise
    split
    · exact raise _ _ _
    · rfl
  unfold Core.traced
  have ht : (c.setEng w x).trace = c.trace := by cases w <;> rfl
  simp only [ht]
  rw [← key, ← key, ← key, ← key]
  congr 4
  cases w <;> rfl

theorem State.noteLanding_trace (s : State) (r l k a : Nat) (p : Word) : (s.noteLanding r l).trace k a p = (s.trace k a p).noteLanding r l :=
  s.noteLanding_setMyCore (fun c => c.traced s.now (s.cycle s.cur.die) s.cur.eng k a p) (fun c w e => c.traced_setEng w e _ _ _ _ _ _)
    (fun c w => c.traced_eng _ _ _ _ _ _ w) r l

/-! ### What a vector body leaves -/

/-- Landed lanes with their flags and the SR sequence. -/
theorem State.landV_lanes (s : State) (d : Nat) (f : Nat → Option Lane) (l : Nat) (fl : Flags) (sr : Bool) :
    ((s.landV d f l).orFlags fl).srStep sr = (s.setMyCore (s.myCore.lanes d f fl sr)).noteLanding (idV d) l := by
  unfold State.landV
  simp only [State.noteLanding_orFlags, State.noteLanding_srStep]
  congr 1
  unfold State.orFlags State.srStep
  cases sr <;> simp [Core.lanes, Core.orFlags]

/-- Lanes landed with no flag. -/
theorem State.landV_plain (s : State) (d : Nat) (f : Nat → Option Lane) (l : Nat) :
    s.landV d f l = (s.setMyCore (s.myCore.lanes d f 0 false)).noteLanding (idV d) l := by
  unfold State.landV
  simp [Core.lanes]

theorem State.landFloat_lanes (s : State) (d : Nat) (on : Nat → Bool) (f : Nat → LaneRes) (l : Nat) (sr : Bool) : s.landFloat d on f l sr =
    (s.setMyCore (s.myCore.lanes d (onLanes on fun i => (f i).1) (lanesFlags on f (upto 0 64)) sr)).noteLanding (idV d) l :=
  s.landV_lanes d (onLanes on fun i => (f i).1) l _ sr

theorem Core.lanes_eng (c : Core) (d : Nat) (f : Nat → Option Lane) (fl : Flags) (sr : Bool) (w : Eng) : (c.lanes d f fl sr).eng w = c.eng w := by
  cases w <;> rfl

theorem State.noteLanding_x (s : State) (r l : Nat) : (s.noteLanding r l).me.x = s.me.x := by simp [State.noteLanding]

/-- A body that leaves the core as c and notes a landing. -/
theorem noted_next {s : State} {f : Form} {c : Core} {r l : Nat} {body : State → Res State} (h : s.issues f = true) (heff : f.eff = false)
    (hc : c.eng s.cur.eng = s.me) (hb : body s.atIssue = .ok ((s.atIssue.setMyCore c).noteLanding r l)) :
    ∃ t, issue s f body = .next t ∧ s.CoreTo t c ∧ t.me.x = s.me.x := by
  obtain ⟨t, h1, h2, h3⟩ := coreTo_next h heff rfl hc (State.lands_noteLanding _ r l) hb
  exact ⟨t, h1, h2, by rw [h3, State.noteLanding_x, State.me_setMyCore]; exact congrArg Engine.x hc⟩

/-- A body that lands lanes. -/
theorem lanes_next {s : State} {f : Form} {d l : Nat} {g : Nat → Option Lane} {fl : Flags} {sr : Bool} {body : State → Res State} (h : s.issues f = true)
    (heff : f.eff = false) (hb : body s.atIssue = .ok ((s.atIssue.setMyCore (s.atIssue.myCore.lanes d g fl sr)).noteLanding (idV d) l)) :
    ∃ t, issue s f body = .next t ∧ s.LanesLand t d g fl sr := by
  obtain ⟨t, h1, h2, h3⟩ := noted_next h heff (Core.lanes_eng _ _ _ _ _ _) hb
  refine ⟨t, h1, ⟨h2, h3, fun v i hi => ?_⟩⟩
  have e : t.myCore.vr = (s.myCore.lanes d g fl sr).vr := by
    rw [h2.core, State.mineAs]
    cases s.cur.eng <;> rfl
  rw [e]
  exact tGet_setLanes_all _ _ _ _ _ hi

/-! ### One lemma for each shared operation -/

/-- A body that lands float lanes. -/
theorem float_next {s : State} {f : Form} {d l : Nat} {on : Nat → Bool} {r : Nat → LaneRes} {sr : Bool} {body : State → Res State} (h : s.issues f = true)
    (heff : f.eff = false) (hb : body s.atIssue = .ok (s.atIssue.landFloat d on r l sr)) :
    ∃ t, issue s f body = .next t ∧ s.LanesLand t d (onLanes on fun k => (r k).1) (lanesFlags on r (upto 0 64)) sr :=
  lanes_next h heff (hb.trans (congrArg Except.ok (State.landFloat_lanes _ _ _ _ _ _)))

/-- A body that lands lanes and no flag. -/
theorem int_next {s : State} {f : Form} {d l : Nat} {on : Nat → Bool} {r : Nat → Lane} {body : State → Res State} (h : s.issues f = true)
    (heff : f.eff = false) (hb : body s.atIssue = .ok (s.atIssue.landInt d on r l)) : ∃ t, issue s f body = .next t ∧ s.LanesLand t d (onLanes on r) 0 false :=
  lanes_next h heff (hb.trans (congrArg Except.ok (State.landV_plain _ _ _ _)))

variable {s : State} {d a b c : BitVec 5} {q g : BitVec 3}

theorem vf2_next (h : s.issues (fVF g) = true) (op : FVal → FVal → FVal × Flags) : ∃ t, vf2 d a b q g op s = .next t ∧
    s.LanesLand t d.toNat (onLanes (s.atIssue.active q.toNat) fun i => (s.atIssue.lane2 op (s.atIssue.rv a.toNat i) (s.atIssue.rv b.toNat i 1) i).1)
      (lanesFlags (s.atIssue.active q.toNat) (fun i => s.atIssue.lane2 op (s.atIssue.rv a.toNat i) (s.atIssue.rv b.toNat i 1) i) (upto 0 64)) s.atIssue.sr :=
  float_next h rfl rfl

theorem vf1_next (h : s.issues (fVF g) = true) (op : FVal → FVal × Flags) : ∃ t, vf1 d a q g op s = .next t ∧
    s.LanesLand t d.toNat (onLanes (s.atIssue.active q.toNat) fun i => (s.atIssue.lane1 op (s.atIssue.rv a.toNat i) i).1)
      (lanesFlags (s.atIssue.active q.toNat) (fun i => s.atIssue.lane1 op (s.atIssue.rv a.toNat i) i) (upto 0 64)) s.atIssue.sr :=
  float_next h rfl rfl

theorem vf3_next (h : s.issues (fVF g) = true) (np nc : Bool) : ∃ t, vf3 d a b c g np nc s = .next t ∧
    s.LanesLand t d.toNat (onLanes (s.atIssue.active 0) fun i => (s.atIssue.lane3 np nc (s.atIssue.rv a.toNat i) (s.atIssue.rv b.toNat i 1) (s.atIssue.rv c.toNat i 2) i).1)
      (lanesFlags (s.atIssue.active 0) (fun i => s.atIssue.lane3 np nc (s.atIssue.rv a.toNat i) (s.atIssue.rv b.toNat i 1) (s.atIssue.rv c.toNat i 2) i) (upto 0 64))
      s.atIssue.sr :=
  float_next h rfl rfl

theorem vApprox_next (h : s.issues (fVF g) = true) (f : State → Nat → FVal → Lane → Nat × Flags) : ∃ t, vApprox d a q g f s = .next t ∧
    s.LanesLand t d.toNat
      (onLanes (s.atIssue.active q.toNat) fun i =>
        (g16Lane (f s.atIssue i (laneIn s.atIssue.flush (s.atIssue.rv a.toNat i)).1 (s.atIssue.rv a.toNat i)) (laneIn s.atIssue.flush (s.atIssue.rv a.toNat i)).2).1)
      (lanesFlags (s.atIssue.active q.toNat) (fun i =>
        g16Lane (f s.atIssue i (laneIn s.atIssue.flush (s.atIssue.rv a.toNat i)).1 (s.atIssue.rv a.toNat i)) (laneIn s.atIssue.flush (s.atIssue.rv a.toNat i)).2)
        (upto 0 64)) s.atIssue.sr :=
  float_next h rfl rfl

theorem vi2_next (h : s.issues (fV g) = true) (l : Nat) (f : Lane → Lane → Lane) : ∃ t, vi2 d a b q g l f s = .next t ∧
    s.LanesLand t d.toNat (onLanes (s.atIssue.active q.toNat) fun i => f (s.atIssue.rv a.toNat i) (s.atIssue.rv b.toNat i 1)) 0 false := int_next h rfl rfl

theorem vi1_next (h : s.issues (fV g) = true) (f : Lane → Lane) : ∃ t, vi1 d a q g f s = .next t ∧
    s.LanesLand t d.toNat (onLanes (s.atIssue.active q.toNat) fun i => f (s.atIssue.rv a.toNat i)) 0 false := int_next h rfl rfl

theorem viImm_next {i : BitVec 6} {lim : Nat} (h : s.issues (fV g (subUnless (i.toNat ≤ lim) subIMMRANGE)) = true) (f : Lane → Lane → Nat → Lane) :
    ∃ t, viImm d a b i g lim f s = .next t ∧
    s.LanesLand t d.toNat (onLanes (s.atIssue.active 0) fun k => f (s.atIssue.rv a.toNat k) (s.atIssue.rv b.toNat k 1) i.toNat) 0 false := int_next h rfl rfl

theorem viMove_next (h : s.issues (fV g) = true) (f : State → Nat → Lane) : ∃ t, viMove d g f s = .next t ∧
    s.LanesLand t d.toNat (onLanes (s.atIssue.active 0) (f s.atIssue)) 0 false := int_next h rfl rfl

/-- A body that writes a mask. -/
theorem writeQ_next {f : Form} {d : Nat} {w : Word} {l : Nat} {body : State → Res State} (h : s.issues f = true) (heff : f.eff = false)
    (hb : body s.atIssue = .ok (s.atIssue.writeQ d w l)) : ∃ t, issue s f body = .next t ∧ s.MaskLands t d w := by
  by_cases hd : d = 0
  · obtain ⟨t, h1, h2⟩ := place_next h heff (hb.trans (by rw [State.writeQ, if_pos hd]))
    have hx : t.me.x = s.me.x := by have := congrArg Engine.x h2.held; exact this
    refine ⟨t, h1, ⟨?_, hx⟩⟩
    rw [if_pos hd]
    exact ⟨h2.toCoreOnly, h2.core, by rw [h2.held]⟩
  · obtain ⟨C, hC⟩ : ∃ C, C = ({ s.myCore with q := tSet 0 s.myCore.q d w } : Core).traced s.now (s.cycle s.cur.die) s.cur.eng 1 d w := ⟨_, rfl⟩
    have e : body s.atIssue = .ok ((s.atIssue.setMyCore C).noteLanding (idQ d) l) := by
      rw [hb, State.writeQ, if_neg hd, State.landQ, if_neg hd, State.noteLanding_trace, State.trace, State.myCore_setMyCore, State.setMyCore_setMyCore, hC]
      rfl
    have hq : C.eng s.cur.eng = s.me := by rw [hC, Core.traced_eng]; unfold State.me; cases s.cur.eng <;> rfl
    obtain ⟨t, h1, h2, h3⟩ := noted_next h heff hq e
    refine ⟨t, h1, ⟨?_, h3⟩⟩
    rw [if_neg hd, ← hC]
    exact h2

end Sys2Proof.Machine
end

