-- ==== Sys2Proof/Tests/Slice0.lean ====
section
/-! SUPPORT. Tests: for every statement with hypotheses a concrete state that meets them, every encoding of the opcode tables decoded from its written-out word, the well-formedness refusals, and a few results taken from the spec's own examples. -/

namespace Sys2Proof.Tests

open Sys2Proof Sys2Proof.Machine

set_option maxRecDepth 4000
set_option Elab.async false

/-! ### Small states -/

/-- Whether a check passes. -/
def passes {ε : Type} (r : Except ε Unit) : Bool := match r with | .ok _ => true | .error _ => false

theorem ok_of {ε : Type} {r : Except ε Unit} (h : passes r = true) : r = .ok () := by
  cases r with
  | ok u => rfl
  | error e => simp [passes] at h

theorem own_of {s : State} {die core : Nat} {t : Option RunTask} {p : Phys} {va n : Nat} {wr : Bool} (h : tagged t p = none) :
    s.own die core t p va n wr = .ok s := by simp [State.own, h]

/-- Page tables at 0x1000 that map the first four gigabytes onto themselves, writable, the n-th as a page of class n. -/
def tMem : Mem :=
  mWrite [(0x1000, 0x01), (0x1001, 0x20), (0x2000, 0x03), (0x2001, 0x30), (0x3000, 0x03)] 0x3008
    (natToBytes 8 (0x40000003 + 2 ^ 52) ++ natToBytes 8 (0x80000003 + 2 ^ 53) ++ natToBytes 8 (0xC0000003 + 2 ^ 52 + 2 ^ 53))

/-- A task whose footprint is the first gigabyte and the aperture, to read and to write. -/
def tTask : RunTask := { graph := 0, record := 0, tile := 0, started := 0, ranges := [⟨3, 0, 2 ^ 30⟩, ⟨3, apertureBase, 160 * 2 ^ 21⟩] }

/-- A module that is up, with every feature and one context on die 0. -/
def tMod (e : Eng) : State :=
  { State.reset with
    mill := { stage := 7, dieUp := 15, farUp := 3, feats := 31, lock := true, on := true }, parts := [(0, { ctx := some 1 })],
    ctxs := [(1, { id := 1, die := 0, part := 0, ptroot := 0x1000 })], mem := tMem, cur := ⟨0, 0, e⟩ }

/-- That module with a core's stream in the body of a block, at a word. -/
def tAt (e : Eng) (c : Core := {}) (w : Nat := 0) : State := (tMod e).setMyCore ({ c with task := some tTask }.placeWord e w)

/-- The same with registers of the stream given. -/
def tX (e : Eng) (x : Tab Word) (c : Core := {}) : State := (tAt e c).setMe { (tAt e c).me with x := x }

/-- The stream with a request for an address on its way for an instruction. -/
def tOut (s : State) (i : Instr) (addr : Nat) : State := s.setMe { s.me with req := some { since := 0, addr := BitVec.ofNat 64 addr, instr := i, once := true } }

/-- The module with the first gigabyte a device page. -/
def tDev (s : State) : State := { s with mem := mWrite s.mem 0x3006 [0x80] }

/-- Where the identity map puts an address. -/
def tPhys (a : Nat) : Phys := { key := a, home := 0, keyNo := 0, mtype := 0, mclass := 0, va := a }

/-- A core whose overflow region starts at address 0x5000. -/
def tOver : Core := { spillOv := 0x5000, spillOvSz := 256 }

/-- The module with a second context on die 1 that exports its first 4 KiB, which context 1 imports, writable, at 0x40000000. -/
def tWin (s : State) : State :=
  let c1 := s.ctxAt 1
  { s with
    ctxs := [(1, { c1 with imports := [(2, { kind := 1, vdie := 1, die := 1, tag := 0, exp := 77, wbase := 0x10000000, len := 4096, write := true }),
        (3, { kind := 3, vdie := 1, die := 1, tag := 5, exp := 78 })] }),
      (2, { id := 2, die := 1, part := 0, ptroot := 0x1000 })],
    parts := [(0, { ctx := some 1 }), (partKey 1 0, { ctx := some 2 })],
    exports := [{ handle := 77, ctx := 2, die := 1, kind := 1, base := 0x8000, len := 4096, write := true }, { handle := 78, ctx := 2, die := 1, kind := 3 }],
    mem := tMem ++ tMem.map (fun p => (p.1 + 2 ^ 52, p.2)) }

/-- Where the window's first byte stands. -/
def tFar : Phys := { key := 2 ^ 52 + 0x8000, home := 1, keyNo := 0, mtype := 0, mclass := 0, slot := some 2, exp := 77, va := 0x8000 }

/-- The handle of import 3 of `tWin`, a Hatbox's. -/
def tHandle : Word := 0x3000000300000005#64

/-- A stream with branch registers and a word at its place. -/
def tB (e : Eng) (b : Tab Word) (w : Nat) : State := (tAt e {} w).setMe { (tAt e {} w).me with b := b }

/-- A halt that has completed on a software trap of core 0's control stream. -/
def tHalt (t : TrapRec) : HaltSt := { clk := 0, complete := true, who := ⟨0, 0, .c⟩, trap := t }

/-- The module with its first partition halted. -/
def tHalted (h : HaltSt) : State := { tAt .c with parts := [(0, { ctx := some 1, halt := some h })] }

/-- The same with a handler at its last n halfwords. -/
def tHandler (n : Nat) : State :=
  let s := { tHalted { tHalt { cls := 8, sub := 1 } with handler := true } with cur := ⟨0, 0, .h⟩ }
  (s.setMyCore { s.myCore with inHandler := true, htask := some tTask }).setMe
    { ringBase := 0, ringSize := 256, imgLen := 4 + n, phase := .body, hdr := { len := n, ilk := true }, awaited := true }

/-- A stream at a header whose two words are given. -/
def tHead (w0 w1 : Nat) : State :=
  let s := (tAt .v).setMyCore { (tAt .v).myCore with scratch := mWrite [] 0 (natToBytes 4 w0 ++ natToBytes 4 w1) }
  s.setMe { s.me with phase := .header, awaited := false, imgLen := 64 }

/-- The module with a vector table at 0x6000 whose entries of classes 2, 3 and 8 are a bad record, none, and a record with an image of one halfword. -/
def tVec (h : HaltSt) : State :=
  let w := fun (k n : Nat) => natToBytes k n
  let m := mWrite (mWrite (mWrite (mWrite tMem 0x6010 (w 8 0x6081)) 0x6040 (w 8 0x6080)) 0x6090 (w 8 0x7000)) 0x6098 (w 8 (2 ^ 48))
  { tHalted h with mem := m, ctxs := [(1, { id := 1, die := 0, part := 0, ptroot := 0x1000, tvec := 0x6000 })] }

/-- A task whose containment policy is given. -/
def tPol (n retries : Nat) (h : HaltSt) : State := (tHalted h).setMyCore { (tHalted h).myCore with task := some { tTask with cpol := n, retries := retries } }

/-- A load of a word whose reply is due into a halted stream's context, and one that its stream still waits for. -/
def tReply (e : Engine) : State := (tHalted (tHalt { cls := 8, sub := 0 })).setMe e

/-- The module whose context has a barrier of one arrival at flag 0 and one of four phases at flag 8. -/
def tFlags (x : Tab Word) : State :=
  let s := tWin (tX .c x)
  s.setCtx { s.ctxAt 1 with flags := [(0, 1), (8, 0x80000004)] }

/-- A flag add on its way to the second context's flag file. -/
def tAdd (revoked : Bool) : State :=
  let s := tWin (tAt .c { posted := [{ pid := 0, imp := 3, home := some 1, eng := .c }] })
  { s with flagMsgs := [{ die := 0, core := 0, pid := 0, exp := 78, home := 1, idx := 4095, val := 1 }],
           exports := s.exports.map (fun e => { e with revoked := revoked }) }

/-- Operands in the scratchpad. -/
def tNest : NestSet :=
  { a := { base := 0x1000, str := 64, sp := true }, b := { base := 0x8000, str := 64, sp := true }, m := { base := 0x10000, str := 64, sp := true } }

/-- The matrix stream at its place, with slot 15 armed for two contributions. -/
def tMat (x : Tab Word) (c : Core) : State :=
  let s := tX .m x { c with shadow := tNest, active := tNest, mActive := true }
  s.setLink (s.linkKey 1 0 0 15) { own := 1, ctx := 1, state := .armed, decl := 2 }

/-- The ranges of an operation over a set. -/
def tRanges (s : State) (x : NestSet) (sparse : Bool) : List (Int × Int) :=
  let cfg := s.atIssue.rowWord s.atIssue.rowOf 0
  let af := bits cfg.toNat 58 6
  let bf := bits cfg.toNat 52 6
  (x.spans af bf sparse ++ x.scaleSpans af bf (bit cfg.toNat 45) sparse).filterMap x.spRange

/-- An operation of one element at its first group, and past its last. -/
def tOp (i5 : Nat) : MOp :=
  { num := 0, slot := 15, link := 0, sparse := false, row := 292734254951890944, flush := false, prog := { i5 := i5 },
    nest := { tNest with l0 := { ext := 1 }, l1 := { ext := 1 }, l2 := { ext := 1 } } }

/-- A chain of one link on slot 0 of core 0. -/
def tRef : LinkRef := { via := none, handle := 0, vdie := 0, die := 0, core := 0, slot := 0, key := 2 ^ 20 }

/-- The matrix stream with that chain, its link and a close. -/
def tChain (ch : Chain) (l : Link) (x : Tab Word) (c : Core) : State := ((tX .m x c).setLink (2 ^ 20) { l with own := 1, ctx := 1 }).setChain ch

def tCh : Chain := { ctx := 1, num := 0, home := 0, links := [tRef] }

/-- The splice descriptor at 0x1000: to slot 1 of core 0, or, with `spare`, to a spare. -/
def tSplice (spare : Bool) (failed : List Nat) (phys : Tab Nat) : State :=
  let s := tChain { tCh with frozen := true } { state := .frozen, pre := .armed, decl := 2 } [(3, 0x1000)]
    { scratch := mWrite [] 0x1008 (natToBytes 8 (2 ^ 36 + b2n spare * 2 ^ 33)) }
  s.setDieAt 0 { s.dieAt 0 with failed := failed, phys := phys }

/-- The copy stream with a descriptor at 0x1000 of one row of 64 bytes between scratchpad places. -/
def tCopy (w7 : Nat) : State :=
  tX .x [(3, 0x1000)] { scratch := mWrite [] 0x1000 (natToBytes 8 0x2000 ++ natToBytes 8 0x3000 ++ natToBytes 8 (64 + 2 ^ 32 + 2 ^ 48) ++ natToBytes 8 0 ++
    natToBytes 8 0 ++ natToBytes 8 0 ++ natToBytes 8 0 ++ natToBytes 8 w7) }

/-- Whether a copy may enter its core's queue. -/
def tEnters (s : State) (k : Copy) : Bool :=
  decide (k.total ≠ 0) && passes (s.myCore.sideCheck k false) && passes (s.myCore.sideCheck k true) && decide (s.myCore.copyq.length < Config.copyQueueSize) &&
  decide (s.myCore.sb.length + k.ranges.length ≤ Config.scoreboardSize) && passes (s.atIssue.sideReady s.cur.die s.cur.core k false none) &&
  passes (s.atIssue.sideReady s.cur.die s.cur.core k true none)

/-- Whether the descriptor of a kind is legal, and its copy may enter. -/
def tDesc (i : Instr) (kind w7 : Nat) : Bool :=
  let s := tCopy w7
  let a := s.atIssue
  match a.descWords i true 0x1000 64 with
  | .error _ => false
  | .ok (w, _) => match a.copyPlan 0 0 kind w 0x1000 0 0 with
    | .error _ => false
    | .ok k => tEnters s k

/-- A copy at the head of its queue. -/
def tRun (n : Nat) (kind : CopyKind) : State :=
  tAt .x { copyq := [{ num := 0, kind := kind, dst := 0x2000, src := 0x3000, n0 := n, dsp := true, ssp := true }] }

/-- The copy stream with a stash mapping of 256 bytes at 0x1000, its first sector dirty. -/
def tStash (x : Tab Word) (st : Sector) : State :=
  tX .x x { stash := [⟨0x1000, 0x4000, 256⟩], sectors := [(128, { st := st, key := 0x4000 })], fills := [129] }

/-- A running helper whose control block stands at 0x1000, with a descriptor at 0x2000. -/
def tHelp (stop : Bool) : State :=
  tX .x [] { helper := { run := true, stopReq := stop, hpc := 0x100, ctl := 0x1000, flag := 0x1040 },
             scratch := mWrite [] 0x2000 (natToBytes 8 0x5000 ++ natToBytes 8 0x3000 ++ natToBytes 8 (64 + 2 ^ 32 + 2 ^ 48) ++ natToBytes 8 0 ++
               natToBytes 8 0 ++ natToBytes 8 0 ++ natToBytes 8 0 ++ natToBytes 8 3) }

/-- A state with words in memory. -/
def tWords (s : State) (a : Nat) (ws : List Nat) : State := { s with mem := mWrite s.mem a (ws.flatMap (natToBytes 8)) }

/-- A context's Hatbox of three slots, whose frames stand in the combine-slot page. -/
def tHb (slots : Tab HbSlot) (queue : Tab (List Nat)) : Hatbox :=
  { region := 0xC0000000, quota := 3, dlen := 1, groups := (upto 0 16).map (fun _ => ⟨1, false, 0⟩), slots := slots, queue := queue }

/-- The control stream of a context with that configuration. -/
def tHat (x : Tab Word) (h : Option Hatbox) : State := (tX .c x).setCtx { (tX .c x).ctxAt 1 with hatbox := h }

/-- The control stream with a rule descriptor at 0x5000, of no operation or of one. -/
def tRule (n : Nat) : State := tWords (tX .c [(3, 0x5000), (4, 15)]) 0x5000 [n]

/-- What the descriptor's check answers. -/
def tRuleBad (n : Nat) : Option (Option Nat) :=
  match (tRule n).atIssue.unitWords (.prrule 5 3 4 0) 0x5000 0x5000 20 with
  | .ok ws => some (ruleBad (ruleOf ws).nops (fun k => ((ruleOf ws).words.getD k 0).toNat))
  | .error _ => none

/-- A gossip region of two lines in the gossip page. -/
def tGossip (lines : Tab GLine) : Gossip := { region := 0x80000000, nlines := 2, ports := 1, wq := 24, period := 100, tack := 1, regId := 5, lines := lines }

/-- The control stream of a context with that region, port 0 up, and a line's weight of two quanta. -/
def tGos (x : Tab Word) (lines : Tab GLine) : State :=
  let s := (tX .c x).setCtx { (tX .c x).ctxAt 1 with gossip := some (tGossip lines) }
  { s with ports := [(0, { up := true })], mem := mWrite s.mem 0x800000FC (natToBytes 4 (wOf 24 2)) }

/-- The control stream of a context that owns queue 63. -/
def tQ (x : Tab Word) : State := (tX .c x).setCtx { (tX .c x).ctxAt 1 with qmask := 2 ^ 63 }

/-- The descriptor of a graph of one record at 0x6000, at 0x5000. -/
def tDescWords : List Nat := [0x6000, 2 ^ 48, 0, 0, 0, 0, 0, 0]

/-- Its record: a control image of two halfwords at 0x7000, placed on core 159 where `pin`. -/
def tRecWords (pin : Bool) : List Nat := [b2n pin * (2 ^ 33 + 159 * 2 ^ 25), 0, 0x7000, 2 ^ 49]

/-- Queue 63 with that graph submitted. -/
def tSubmitted (ring : Nat) : State :=
  ((tWords (tWords (tWords (tQ []) 0x4000 [ring]) 0x5000 tDescWords) 0x6000 (tRecWords false))).setQueue 0 63 { base := 0x4000, tail := 1 }

/-- The graph taken, its records read or still to read. -/
def tGraph (pin : Bool) (recs : List Rec) (next : Nat) : State :=
  { tWords (tWords (tQ []) 0x5000 tDescWords) 0x6000 (tRecWords pin) with
    cores := [], graphs := [{ id := 0, ctx := 1, die := 0, queue := 63, entry := 0, desc := 0x5000, tasks := 0x6000, ntask := 1, recs := recs, admitted := recs ≠ [], admitNext := next }] }

/-- The record as read. -/
def tRec (pin : Bool) (ready : Option Nat) (nest : Option Nest) : Rec :=
  { addr := 0x6000, words := tabOf 0 (fun k => BitVec.ofNat 64 ((tRecWords pin).getD k 0)) (upto 0 15), admitted := ready.isSome, readyAt := ready, nest := nest }

/-- A module with a request for line 0x40 of die 0 from die 1, and the line's directory entry and copies as given. -/
def tLine (r : CohReq) (d : Dir) (l : Line) : State := (({ tMod .c with reqs := [r] } : State).setDir 0x40 d).setLine 0x40 1 l

/-- A contribution on its way to a record of the first context. -/
def tUnit (grad : Bool) : UnitMsg := { grad := grad, die := 1, core := 0, pid := 0, slot := 2, home := some 0, exp := 79, va := if grad then 0x40000000 else 0x80000000, data := [] }

/-- The module with it, its export, and a region; `lane1` is the record's count of arrivals expected. -/
def tArr (grad : Bool) (lane1 : Nat) : State :=
  let s := tGos [] []
  { s with units := [tUnit grad], exports := [{ handle := 79, ctx := 1, die := 0, kind := 1, base := 0x40000000, len := 2 ^ 31, write := true }],
           mem := mWrite s.mem 0x40000004 (natToBytes 4 lane1) }

/-- The module with a running mailbox command of a function, a page of 64 KiB at 2^39, and the second context's exports. -/
def tMb (fn cmd : Nat) (args : List Nat) (stage : Nat := 7) : State :=
  let s := tWin (tGos [] [])
  let m := tWords (tWords (tWords (tWords s 0x2008 [0x5001]) 0x5000 [0x6001]) 0x6000 [0x7005]) 0x7000 [0x10003]
  let mb : Mbox := { cmd := BitVec.ofNat 64 cmd, busy := true, cargs := tabOf 0 (fun k => BitVec.ofNat 64 (args.getD k 0)) (upto 0 8) }
  ({ m with mill := { m.mill with stage := stage, ide := true } } : State).setDieAt fn { m.dieAt fn with mbox := mb }

/-- What runs asks of a command. -/
def tRuns (s : State) (fn opc : Nat) (masks : List Nat) (keyed : Bool) : Bool :=
  s.mbDue fn opc && decide (s.mill.stage ≠ 2) && s.argsOk fn masks && decide (decide (s.qual fn ≠ 0) = keyed)

/-- Whether the next state of an instruction passes a test. -/
def after (i : Instr) (s : State) (f : State → Bool) : Bool :=
  match exec i s with
  | .next t => f t
  | _ => false

/-- Vector lanes of one register. -/
def tLanes (v : Nat) (xs : List Lane) (c : Core) : Core := { c with vr := (xs.zip (upto 0 64)).foldl (fun m q => tSet 0 m (v * 64 + q.2) q.1) c.vr }

/-- The moment-based rule of the spec's example. -/
def tMoment : Rule :=
  { nops := 11, k := [0x3F000000, 0x3F000000, 0x3F400000, 0x3E800000, 0, 0x3E000000],
    words := [0x1A498000, 0x20C0A000, 0x1A998000, 0x1ADA8000, 0x21512800, 0x33100000, 0x0B360000, 0x2B8B0000, 0x1BBE8000, 0x1BBF0000, 0x10038000] }



/-! ### Every statement's hypotheses are met together -/

theorem witness_CompactFormsAndPrefixes : let s := tAt .c
    s.issues (compactForm s []) = true ∧ s.issues (compactForm s [31, 31]) = true ∧ s.issues (compactForm s [31]) = true ∧
    s.curOk = true ∧ s.mayIssue = true ∧ s.me.pos + 1 < s.me.hdr.len := by decide +kernel

theorem witness_CompactForms_vector : let s := tAt .v
    s.issues (compactForm s [15, 15]) = true ∧ s.issues (compactForm s [0]) = true := by decide +kernel

theorem witness_RegisterFormsLand : (tAt .c).issues (fAll 7 ((tAt .c).regs [63, 0, 63])) = true ∧
    (tAt .x).issues (fAll 0 ((tAt .x).regs [15, 0, 15])) = true := by decide +kernel

theorem witness_ImmediateFormsLand : let s := tAt .c
    s.issues { fAll 0 (s.regs [63, 63]) with ext := true } = true ∧ s.issues (fAll 7 (s.regs [0, 63])) = true ∧
    s.issues { fAll 0 (s.regs [63]) with ext := true } = true := by decide +kernel

theorem witness_PredicateFormsLand : let s := tAt .c
    s.issues (fAll 0 (s.preds [7] ++ s.regs [63, 0])) = true ∧ s.issues { fAll 0 (s.preds [0] ++ s.regs [63]) with ext := true } = true ∧
    s.issues (fAll 0 (s.preds [7, 0, 7])) = true := by decide +kernel

theorem witness_LoadsLand : let s := tX .c [(3, 0x4000)]
    s.issues { fC 0 (pairOk 4 7) with ext := true } = true ∧ aligned (s.atIssue.memAddr 3 1 16) 16 = true ∧
    s.atIssue.LoadsAt (s.atIssue.memAddr 3 1 16) 16 (some s.atIssue.myFoot) (tPhys 0x4010) s.atIssue :=
  by repeat' first | decide +kernel | exact ok_of (by decide +kernel) | exact own_of (by decide +kernel) | constructor

theorem witness_LoadsLand_device : let s := tDev (tX .c [(3, 0x4000)])
    s.issues { fC 0 (pairOk 4 4) with ext := true } = true ∧ s.atIssue.LoadsAt 0x4000 8 (some s.atIssue.myFoot) { tPhys 0x4000 with mtype := 2 } s.atIssue ∧
    s.atIssue.reqOut (.ld 4 3 4 0 0) 0x4000 = false ∧ (tOut s (.ld 4 3 4 0 0) 0x4000).atIssue.reqOut (.ld 4 3 4 0 0) 0x4000 = true :=
  by repeat' first | decide +kernel | exact ok_of (by decide +kernel) | exact own_of (by decide +kernel) | constructor

theorem witness_LoadsLand_aperture : let s := tX .c [(3, 0x01FFFF0000200000)]
    let ea := s.atIssue.memAddr 3 0 4
    s.issues { fC 0 (pairOk 4 4) with ext := true } = true ∧ aligned ea 4 = true ∧ inAperture ea = true ∧ isC s.cur.eng = true ∧
    s.atIssue.apertureCheck ea 4 false (some s.atIssue.myFoot) = .ok () ∧ s.atIssue.spReady s.cur.die (apertureAt ea).1 (apertureAt ea).2 4 false = .ok () :=
  by repeat' first | decide +kernel | exact ok_of (by decide +kernel) | exact own_of (by decide +kernel) | constructor

theorem witness_ScratchpadLoadsLand : let s := tX .v [(3, 0x1000)]
    let ea := s.atIssue.memAddr 3 31 8
    s.issues { fAll 0 (s.regs [15, 3] ++ pairOk 15 6) with ext := true } = true ∧ aligned ea 8 = true ∧ s.myCore.overflow ea 8 = none ∧
    s.myCore.spCheck ea 8 false = .ok () ∧ s.atIssue.spReady s.cur.die s.cur.core ea 8 false = .ok () :=
  by repeat' first | decide +kernel | exact ok_of (by decide +kernel) | exact own_of (by decide +kernel) | constructor

theorem witness_ScratchpadLoads_overflow : let s := tX .c [(3, BitVec.ofNat 64 Config.spSize)] tOver
    s.issues { fAll 0 (s.regs [63, 3] ++ pairOk 63 6) with ext := true } = true ∧ aligned (s.atIssue.memAddr 3 31 8) 8 = true ∧
    s.myCore.overflow (s.atIssue.memAddr 3 31 8) 8 = some 0x50F8 ∧ s.atIssue.LoadsAt 0x50F8 8 none (tPhys 0x50F8) s.atIssue :=
  by repeat' first | decide +kernel | exact ok_of (by decide +kernel) | exact own_of (by decide +kernel) | constructor

theorem witness_StoresLand : let s := tX .c [(3, 0x4000)]
    storeWidthOk 7 = true ∧ s.issues { fC 0 (pairOk 62 7) with eff := true, ext := true, wf := storeWidthOk 7 } = true ∧
    aligned (s.atIssue.memAddr 3 32 16) 16 = true ∧ s.atIssue.StoresAt (s.atIssue.memAddr 3 32 16) 16 (some s.atIssue.myFoot) (tPhys 0x3E00) s.atIssue ∧
    (tPhys 0x3E00).slot = none :=
  by repeat' first | decide +kernel | exact ok_of (by decide +kernel) | exact own_of (by decide +kernel) | constructor

theorem witness_StoresLand_window : let s := tWin (tX .c [(3, 0x10000000)])
    storeWidthOk 0 = true ∧ s.issues { fC 0 (pairOk 0 0) with eff := true, ext := true, wf := storeWidthOk 0 } = true ∧
    aligned (s.atIssue.memAddr 3 0 1) 1 = true ∧ s.atIssue.StoresAt (s.atIssue.memAddr 3 0 1) 1 (some s.atIssue.myFoot) tFar s.atIssue ∧ tFar.slot = some 2 :=
  by repeat' first | decide +kernel | exact ok_of (by decide +kernel) | exact own_of (by decide +kernel) | constructor

theorem witness_StoresLand_aperture : let s := tX .c [(3, 0x01FFFF0000200000)]
    let ea := s.atIssue.memAddr 3 31 8
    storeWidthOk 6 = true ∧ s.issues { fC 0 (pairOk 4 6) with eff := true, ext := true, wf := storeWidthOk 6 } = true ∧ aligned ea 8 = true ∧
    inAperture ea = true ∧ isC s.cur.eng = true ∧ s.atIssue.apertureCheck ea 8 true (some s.atIssue.myFoot) = .ok () ∧
    (s.coreAt s.cur.die (apertureAt ea).1).spCheck (apertureAt ea).2 8 true = .ok () ∧ s.atIssue.spReady s.cur.die (apertureAt ea).1 (apertureAt ea).2 8 true = .ok () :=
  by repeat' first | decide +kernel | exact ok_of (by decide +kernel) | exact own_of (by decide +kernel) | constructor

theorem witness_ScratchpadStoresLand : let s := tX .x [(3, 0x1FFFF8)]
    let ea := s.atIssue.memAddr 3 0 8
    storeWidthOk 6 = true ∧ s.issues { fAll 0 (s.regs [15, 3] ++ pairOk 15 6) with ext := true, wf := storeWidthOk 6 } = true ∧ aligned ea 8 = true ∧
    s.myCore.overflow ea 8 = none ∧ s.myCore.spCheck ea 8 true = .ok () ∧ s.atIssue.spReady s.cur.die s.cur.core ea 8 true = .ok () ∧ s.myCore.stash = [] :=
  by repeat' first | decide +kernel | exact ok_of (by decide +kernel) | exact own_of (by decide +kernel) | constructor

theorem witness_ScratchpadStores_overflow : let s := tX .c [(3, BitVec.ofNat 64 Config.spSize)] tOver
    s.issues { fAll 0 (s.regs [0, 3] ++ pairOk 0 7) with ext := true, wf := storeWidthOk 7 } = true ∧ aligned (s.atIssue.memAddr 3 15 16) 16 = true ∧
    s.myCore.overflow (s.atIssue.memAddr 3 15 16) 16 = some 0x50F0 ∧ s.atIssue.StoresAt 0x50F0 16 none (tPhys 0x50F0) s.atIssue :=
  by repeat' first | decide +kernel | exact ok_of (by decide +kernel) | exact own_of (by decide +kernel) | constructor

theorem witness_StoreQueueDrains :
    let e : QStore := ⟨.c, 0, 0x40FF, 0, 0x40FF, 0, [1, 2], 0, false⟩
    let s : State := { tAt .c { storeq := [e] } with tape := [⟨0, .drain 0 0 0⟩] }
    let u : State := ({ s with tape := [] } : State).clkStart.fresh
    s.tape = ⟨0, .drain 0 0 0⟩ :: [] ∧ (u.coreAt 0 0).storeq[0]? = some e ∧ canDrain (u.coreAt 0 0).storeq 0 = true ∧
    u.dieAway 0 = false ∧ e.data ≠ [] ∧ u.canWrite 0 none { key := 0x40FF, home := 0, keyNo := 0, mtype := 0, mclass := 0 } 2 = .ok () :=
  by repeat' first | decide +kernel | exact ok_of (by decide +kernel) | exact own_of (by decide +kernel) | constructor

theorem witness_MemoryAtomicsLand : let s := tX .c [(3, 0x4000)]
    aligned (s.atIssue.rx 3).toNat 16 = true ∧ s.issues { fC 0 (atomRegs 60 2) with eff := true, wf := atomOk 4 2 } = true ∧ ¬((0 : Nat) = 7 ∧ s.atIssue.inDet = true) ∧
    s.atIssue.AtomicAt 0x4000 16 (tPhys 0x4000) ∧ s.atIssue.AtomicMay 16 3 (tPhys 0x4000) ∧ s.atIssue.AtomicMay 16 0 (tPhys 0x4000) ∧
    s.issues { fC 0 (casRegs 60 2) with eff := true, wf := (2 : Nat) ≠ 3 } = true ∧ s.atIssue.reqOut (.cas 60 3 2 0 0) 0x4000 = false ∧
    (tOut s (.cas 60 3 2 0 0) 0x4000).atIssue.reqOut (.cas 60 3 2 0 0) 0x4000 = true ∧ s.atIssue.canWrite 0 none (tPhys 0x4000) 16 = .ok () :=
  by repeat' first | decide +kernel | exact ok_of (by decide +kernel) | constructor

theorem witness_MemoryAtomics_aperture : let s := tX .c [(3, 0x01FFFF0000200000)]
    let ea := (s.atIssue.rx 3).toNat
    aligned ea 4 = true ∧ inAperture ea = true ∧ s.atIssue.apertureCheck ea 4 true none = .ok () ∧
    (s.coreAt s.cur.die (apertureAt ea).1).spCheck (apertureAt ea).2 4 true = .ok () ∧
    s.atIssue.released = true ∧ s.atIssue.spReady s.cur.die (apertureAt ea).1 (apertureAt ea).2 4 true = .ok () ∧
    s.issues { fC 0 (atomRegs 4 0) with eff := true, wf := atomOk 7 0 } = true ∧ s.atIssue.inDet = false ∧ s.issues { fC 0 (casRegs 4 0) with eff := true, wf := (0 : Nat) ≠ 3 } = true :=
  by repeat' first | decide +kernel | exact ok_of (by decide +kernel) | exact own_of (by decide +kernel) | constructor

/-- At the aperture, an atomic that has sent its request completes. -/
theorem witness_MemoryAtomics_request :
    let s := tX .c [(3, 0x01FFFF0000200000)]
    let u := tOut s (.cas 4 3 0 0 0) 0x01FFFF0000200000
    u.issues { fC 0 (casRegs 4 0) with eff := true, wf := (0 : Nat) ≠ 3 } = true ∧ u.atIssue.reqOut (.cas 4 3 0 0 0) 0x01FFFF0000200000 = true := by decide +kernel

theorem witness_ScratchpadAtomicsLand : let s := tX .c [(3, 0x1000)]
    let ea := (s.atIssue.rx 3).toNat
    aligned ea 8 = true ∧ s.myCore.spCheck ea 8 true = .ok () ∧ s.atIssue.spReady s.cur.die s.cur.core ea 8 false = .ok () ∧ s.atIssue.spReady s.cur.die s.cur.core ea 8 true = .ok () ∧
    s.issues { fC 0 (atomRegs 63 1 ++ subUnless ((0 : Nat) = 0) subIMMRANGE) with eff := true, wf := atomOk 5 1 } = true ∧
    s.issues { fC 0 (casRegs 60 1 ++ subUnless ((0 : Nat) = 0) subIMMRANGE) with eff := true, wf := (1 : Nat) ≠ 3 } = true :=
  by repeat' first | decide +kernel | exact ok_of (by decide +kernel) | exact own_of (by decide +kernel) | constructor

theorem witness_FencesAndTokens : let s := tWin (tX .c [(3, 0x1000200000005)] { storeq := [⟨.v, 0, 0x4000, 0, 0x4000, 0, [1], 0, false⟩], posted := [{ pid := 0, imp := 2, home := some 1, eng := .c }] })
    s.issues { fC 0 with wf := (0 : Nat) ≤ 3 } = true ∧ (∀ q ∈ s.myCore.storeq, ¬(q.eng = s.cur.eng ∧ q.mtype = 1)) ∧ s.issues (fC 7) = true := by decide +kernel

theorem witness_FencesAndTokens_wide : let s := tX .c []
    s.issues { fC 0 with wf := (3 : Nat) ≤ 3 } = true ∧ s.released = true ∧
    diff32 (BitVec.ofNat 32 0) s.myCore.flseq ≤ 0 ∧ diff32 (BitVec.ofNat 32 0) s.myCore.fldone ≤ 0 := by decide +kernel

theorem witness_FencesAndTokens_handle : let s := tWin (tX .c [(3, tHandle), (4, 0)])
    s.issues (fC 0) = true ∧ ((s.importOf s.myCtx (s.atIssue.rx 3) [1, 3]).toOption.any fun e => !e.2.foreign) = true ∧ (s.importOf s.myCtx (s.atIssue.rx 4) [1, 3]).toOption = none := by decide +kernel

theorem witness_BranchTargetsLand : let s := tX .v [(3, 0x1FFFFF)]
    s.issues { fAll 0 (s.preds [3]) with ext := true } = true ∧ s.issues (fAll 0 (s.preds [3] ++ s.regs [15])) = true := by decide +kernel

theorem witness_BranchesGo : let s := tB .c [(7, 8), (6, 10)] 0xFF
    s.issues (fAll 0 (s.preds [7, 0])) = true ∧ s.issues (fC 0) = true ∧ isC s.cur.eng = true ∧ s.atIssue.rp 0 = true ∧ s.atIssue.rp 7 = false ∧
    (s.atIssue.rb 7 1).toNat = 8 ∧ s.myCore.ringByte s.cur.eng (8 - s.me.ringBase) = 0xFF ∧ s.me.ringBase ≤ 8 ∧ 8 < s.me.ringBase + s.me.ringSize ∧
    s.myCore.ringByte s.cur.eng (10 - s.me.ringBase) ≠ 0xFF := by decide +kernel

theorem witness_EventInstructions : let s := tX .c []
    s.issues { fC 0 (subUnless ((15 : Nat) ≠ 0) subREGRANGE ++ subUnless (s.uimm 511 9 ≤ 0xFFFF) subIMMRANGE) with ext := true, evterm := true } = true ∧
    (evtermStep s.pend 15 3 ⟨31, 511⟩).isSome = true ∧ s.issues (fC 0) = true ∧ s.issues (fC 0 (subUnless ((15 : Nat) ≤ 15) subREGRANGE)) = true ∧
    s.myCore.termReady s.now 0 = true ∧ s.myCore.termReady s.now 15 = false := by decide +kernel

theorem witness_CsrAccess : let s := tX .c []
    let late := s.setMyCore { s.myCore with late := [⟨1, .c, .csr 0x113 5⟩] }
    let fast := late.setMe { late.me with hdr := { late.me.hdr with ilk := false } }
    s.issues (fC 0 (subUnless (csrKnown 0x113) subIMMRANGE)) = true ∧ csrWritable 0x113 = true ∧ csrStop 0x113 = false ∧ s.csrLate 0x113 = false ∧
    s.issues (fC 0 (subUnless (csrKnown 0x90) subIMMRANGE)) = true ∧ csrStop 0x90 = true ∧ s.cur.eng ≠ .h ∧
    s.issues (fC 0 (subUnless (csrKnown 0x80) subIMMRANGE)) = true ∧ csrWritable 0x80 = false ∧ csrStop 0x80 = false ∧
    s.issues (fC 0 (subUnless (csrKnown 0x3F) subIMMRANGE)) = true ∧ s.csrLate 0x3F = false ∧
    late.issues (fC 0 (subUnless (csrKnown 0x113) subIMMRANGE)) = true ∧ late.csrLate 0x113 = true ∧ late.me.hdr.ilk = true ∧
    fast.issues (fC 0 (subUnless (csrKnown 0x113) subIMMRANGE)) = true ∧ fast.csrLate 0x113 = true ∧ fast.me.hdr.ilk = false ∧
    s.myCore.late = [] ∧ s.myCore.c.cntReads = [] ∧ s.myCore.h.cntReads = [] ∧ ({ cntReads := [⟨63, 2, 31⟩] } : Engine).cntReads = [⟨63, 2, 31⟩] := by decide +kernel

theorem witness_IllegalUnitsTrap : let s := tX .v []
    s.curOk = true ∧ (fC 0).wf = true ∧ s.mayIssue = true ∧ lowest (s.violations (fC 0)) = some (0x0A, 0) := by decide +kernel

theorem witness_TrapsAreTaken : (tAt .v).cur.eng ≠ .h ∧ ((tAt .v).engAt ⟨0, 0, .v⟩).trap = none := by decide +kernel

theorem witness_TrapAndHalt : (tAt .c).canIssue (fC 0) = true ∧ (tAt .c).cur.eng ≠ .h ∧ (tAt .c).me.trap = none := by decide +kernel

theorem witness_HandlersEnd : (tHandler 1).canIssue (compactForm (tHandler 1) []) = true ∧ (tHandler 1).goesOn (compactForm (tHandler 1) []) = false ∧
    (tHandler 1).myPart.halt.isSome = true ∧ (tHandler 2).canIssue (fC 0) = true ∧ (tHandler 1).myCore.inHandler = true ∧
    (tAt .c).canIssue (fC 0) = true ∧ (tAt .c).myCore.inHandler = false ∧
    (∀ k ∈ (tHandler 1).coresOf 0 0, ((tHandler 1).coreAt 0 k).c.savedTrap = none ∧ ((tHandler 1).coreAt 0 k).v.savedTrap = none) := by decide +kernel

theorem witness_BlocksStart :
    (tHead 0x30FF 0).blockDue ⟨0, 0, .v⟩ = true ∧ (headerOk 0x30FF 0 = true) ∧ ((tHead 0x30FF 0).fresh.doRaise ⟨0, 0, .v⟩).myCore.termReady 0 (headerOf 0x30FF 0).await = true ∧
    ((tHead 0x30FF 0).fresh.doRaise ⟨0, 0, .v⟩).myCore.ringWord .v 0 = 0x30FF ∧
    headerOk 0x30FF 1 = true ∧ (tHead 0x30FF 1).myCore.termReady 0 (headerOf 0x30FF 1).await = false ∧ (tHead 0x30FF 1).me.released = none ∧
    (((tHead 0x30FF 1).setMe { (tHead 0x30FF 1).me with released := some 0 }).fresh.doRaise ⟨0, 0, .v⟩).me.released = some 0 ∧
    (tHead 0xFF 0).blockDue ⟨0, 0, .v⟩ = true ∧ headerOk 0xFF 0 = false := by decide +kernel

theorem witness_RaisesAndFreezes : let s := (tAt .v { trace := { left := some 0 } })
    let u := s.setMe { s.me with raiseDue := some 31 }
    (u.engAt ⟨0, 0, .v⟩).raiseDue = some 31 ∧ u.landedAll ⟨0, 0, .v⟩ = true ∧ u.raises ⟨0, 0, .v⟩ = true ∧
    (u.coreAt 0 0).trace.left = some 0 ∧ (u.coreAt 0 0).trace.frozen = false := by decide +kernel

theorem witness_HaltsComplete : (({ tAt .c with parts := [(0, { ctx := some 1, halt := some { clk := 5 } })] } : State).partAt 0 0).halt = some { clk := 5 } := by decide +kernel

theorem witness_HandlersStart : let h := tHalt { cls := 8, sub := 1 }
    let s := tVec h
    s.standing 0 0 = some h ∧ s.offered 0 0 h = true ∧ s.fresh.vectorAt 1 (s.tvecOf 0 0 + 64) = some 0x6080 ∧
    (s.fresh.handlerRec 1 0 0 0x6080).any (fun p => decide (p.1.lens.1 ≠ 0)) = true := by decide +kernel

theorem witness_HandlersStart_none : let h := tHalt { cls := 3, sub := 1 }
    (tVec h).standing 0 0 = some h ∧ (tVec h).offered 0 0 h = true ∧ (tVec h).fresh.vectorAt 1 ((tVec h).tvecOf 0 0 + 24) = some 0 := by decide +kernel

theorem witness_HandlersStart_bad : let h := tHalt { cls := 2, sub := 1 }
    let s := tVec h
    let u := s.setCtx { s.ctxAt 1 with tvec := 0x200000000 }
    s.standing 0 0 = some h ∧ s.offered 0 0 h = true ∧ s.fresh.vectorAt 1 (s.tvecOf 0 0 + 16) = some 0x6081 ∧
    u.standing 0 0 = some h ∧ u.offered 0 0 h = true ∧ u.fresh.vectorAt 1 (u.tvecOf 0 0 + 16) = none := by decide +kernel

theorem witness_ContainmentAndErrors : let h := tHalt { cls := 0x0A, sub := 0 }
    (tHalted h).standing 0 0 = some h ∧ (tHalted h).offered 0 0 h = false := by decide +kernel

theorem witness_ContainmentAndErrors_resume :
    let h := tHalt { cls := 0x0A, sub := 0 }
    let s := (tHalted h).setCtx { (tHalted h).ctxAt 1 with hostHalt := true }
    s.standing 0 0 = some h ∧ s.offered 0 0 h = false ∧ (s.ctxAt 1).die = 0 ∧ (s.ctxAt 1).part = 0 ∧ (s.ctxAt 1).live = true ∧ (s.partAt 0 0).ctx = some 1 ∧
    (s.ctxAt 1).hostHalt = true := by decide +kernel

theorem witness_ContainmentAndErrors_policies :
    let h := tHalt { cls := 8, sub := 0 }
    let hard := tHalt { cls := 9, sub := 1, imprecise := true }
    let aside := tHalt { cls := 3, sub := 1, async := true }
    let stay := tHalt { cls := 3, sub := 1, skip := false }
    (tHalted (tHalt { cls := 0x0C, sub := 0 })).standing 0 0 = some (tHalt { cls := 0x0C, sub := 0 }) ∧
    (tPol 2 0 h).standing 0 0 = some h ∧ (tPol 2 0 h).offered 0 0 h = false ∧ ((tPol 2 0 h).fresh.policy { tTask with cpol := 2 } 1).2 = 2 ∧
    ((tPol 1 2 h).fresh.policy { tTask with cpol := 1, retries := 2 } 1).2 = 1 ∧ ((tPol 1 3 h).fresh.policy { tTask with cpol := 1, retries := 3 } 1).2 = 1 ∧
    ((tPol 0 0 h).fresh.policy { tTask with cpol := 0 } 1).2 = 0 ∧ (tPol 0 0 hard).standing 0 0 = some hard ∧ (tPol 0 0 aside).standing 0 0 = some aside ∧
    (tPol 0 0 stay).standing 0 0 = some stay ∧ (tPol 0 0 stay).offered 0 0 stay = false ∧ ((tPol 1 3 h).coreAt 0 0).task = some { tTask with cpol := 1, retries := 3 } ∧
    (({ tPol 0 0 h with cores := [] } : State).coreAt 0 0).task = none ∧ ({ tPol 0 0 h with cores := [] } : State).standing 0 0 = some h := by decide +kernel

theorem witness_ContainmentAndErrors_errors : let s := tAt .m
    s.dieAway 0 = false ∧ (s.partOfCore 0 0).halt = none ∧ (s.engAt ⟨0, 0, .m⟩).trap = none ∧ (0x0F04#16).toNat % 256 = 4 ∧ (0x0F04#16).toNat / 256 = 15 ∧
    (s.engAt ⟨0, 0, .v⟩).trap = none ∧ (1#16).toNat % 256 = 1 ∧ (1#16).toNat / 256 = 0 := by decide +kernel

theorem witness_ContainmentAndErrors_replies :
    let r : Req := { since := 0, addr := 0x4000, instr := .ld 4 3 4 0 0, once := true }
    let s := tReply { (tAt .c).me with x := [(3, 0x4000)], saved := some r }
    let e := ({ tAt .c with now := Config.timeoutClk } : State).setMe { (tAt .c).me with req := some r }
    (s.engAt ⟨0, 0, .c⟩).saved = some r ∧ ((s.partOfCore 0 0).halt.any fun h => h.complete) = true ∧ r.begun = false ∧ (replyBody r.instr).isSome = true ∧
    (e.engAt ⟨0, 0, .c⟩).saved = none ∧ (e.engAt ⟨0, 0, .c⟩).req = some r ∧ e.overdue r.since = true ∧ e.streamRuns ⟨0, 0, .c⟩ = true := by decide +kernel

theorem witness_ContextsSwitch :
    let s := tAt .c
    let o := s.setCtx { s.ctxAt 1 with out := true }
    (s.partAt 0 0).ctx = some 1 ∧ s.dieAway 0 = false ∧ (s.ctxAt 1).out = false ∧
    (o.ctxAt 1).live = true ∧ (o.ctxAt 1).out = true ∧ (o.ctxAt 1).outFull = false ∧ o.dieAway (o.ctxAt 1).die = false ∧ (o.partAt (o.ctxAt 1).die (o.ctxAt 1).part).ctx = some 1 := by
  decide +kernel

theorem witness_BarriersAndFlags : let s := tFlags [(3, 0), (4, 4095), (5, tHandle), (6, 4096)]
    s.issues (flagForm 0) = true ∧ s.myCore.drained = true ∧ barBad s.flags 0 = false ∧ barFour (flagAt s.flags 0) = false ∧
    0 ≤ (BitVec.ofNat 16 (bits (flagAt s.flags 1) 16 16) - BitVec.ofNat 16 0).toInt ∧ 0 ≤ (tGet 0 s.flags 4095 - BitVec.ofNat 32 0).toInt ∧
    barBad s.flags 4096 = true ∧ (s.importOf s.myCtx (s.atIssue.rx 5) [3]).toOption.isSome = true := by decide +kernel

theorem witness_BarriersAndFlags_four : let s := tFlags [(3, 8), (4, 3)]
    s.issues { flagForm 0 with feature := some 4 } = true ∧ s.myCore.drained = true ∧ barBad s.flags 8 = false ∧ barFour (flagAt s.flags 8) = true ∧
    bit (flagAt s.flags (8 + 1 + 3)) 15 = false := by decide +kernel

theorem witness_ChunksLand : let s := tX .c [(3, 0x40F0), (4, 0x100000001)]
    s.issues { fC 0 (subUnless ((62 : Nat) % 2 = 0 && (62 : Nat) ≠ 0) subREGRANGE) with eff := true } = true ∧ aligned (s.atIssue.rx 3).toNat 16 = true ∧
    bits (s.atIssue.rx 4 1).toNat 48 16 = 0 ∧ s.atIssue.check s.myCtx none [0] 0x40F0 16 true = .ok (tPhys 0x40F0) ∧ s.myCore.drained = true ∧
    s.atIssue.storesAt 0x40F0 16 = false ∧ s.atIssue.reqOut (.chunk 62 3 4 0) 0x40F0 = false ∧ (tOut s (.chunk 62 3 4 0) 0x40F0).atIssue.reqOut (.chunk 62 3 4 0) 0x40F0 = true ∧
    s.atIssue.canWrite 0 none (tPhys 0x40F0) 16 = .ok () :=
  by repeat' first | decide +kernel | exact ok_of (by decide +kernel) | exact own_of (by decide +kernel) | constructor

theorem witness_ArrivalsFromAfar : let s := tX .x [(3, 0), (4, 3)] { copyq := [{ num := 7, kind := .plain }] }
    let d : Deferred := { at_ := 0, f := 8, j := 3, nums := [], pids := [] }
    let u := (tX .x []).setMyCore { (tX .x []).myCore with defer := [d] }
    s.issues { fX 0 (s.regs [3, 4]) with eff := true } = true ∧ (u.partOfCore 0 0).halt = none ∧ (u.coreAt 0 0).defer = [d] ∧ (u.coreAt 0 0).deferReady u.now d = true ∧
    (s.myCore.copyq.filter (fun k => !k.helper)).map (·.num) ≠ [] := by decide +kernel

theorem witness_ArrivalsFromAfar_add : let m : FlagMsg := { die := 0, core := 0, pid := 0, exp := 78, home := 1, idx := 4095, val := 1 }
    (tAdd false).flagMsgs[0]? = some m ∧ (tAdd false).flagAddDue m 0 = true ∧ ((tAdd false).exportOf 78).any (fun e => !e.revoked) = true ∧
    (tAdd true).flagAddDue m 0 = true ∧ ((tAdd true).exportOf 78).any (·.revoked) = true := by decide +kernel

theorem witness_FloatLanesLand : (tAt .v).issues (fVF 7) = true := by decide +kernel

theorem witness_IntegerLanesLand : let s := tAt .v
    s.issues (fV 0) = true ∧ s.issues (fV 0 (subUnless ((32 : Nat) ≤ 32) subIMMRANGE)) = true ∧ s.issues (fV 0 (subUnless ((31 : Nat) ≤ 31) subIMMRANGE)) = true ∧
    (let u := s.setMe { s.me with pfx := [{ isFmt := false, val := 255, pos := 0 }], pos := 0 }
     u.issues { fV 0 (subUnless ((u.extBits.getD 0) < 256) subRSVFIELD) with ext := true, needExt := true } = true) := by decide +kernel

theorem witness_LanesMove : let s := tAt .v
    s.issues (fV 0) = true ∧ s.issues (fV 0 (s.regs [15])) = true ∧ s.issues (fV 0 (subUnless (1 ≤ (64#7).toNat && (64#7).toNat ≤ 64) subIMMRANGE)) = true ∧
    s.issues (fV 0 (subUnless (1 ≤ (1#7).toNat && (1#7).toNat ≤ 64) subIMMRANGE)) = true := by decide +kernel

theorem witness_MasksLand : let s := tAt .v
    s.issues { fV 0 with wf := (3#3).toNat ≤ 3 } = true ∧ s.issues { fV 0 with wf := (5#3).toNat ≤ 5 } = true ∧ s.issues (fV 0) = true := by decide +kernel

theorem witness_ReductionsAndConversionsLand : let s := tAt .v
    s.issues { fVF 0 with wf := (5#3).toNat ≤ 5 } = true ∧ s.issues (cvtForm 1 0) = true ∧
    s.issues (fVF 0 (subUnless (0x20 ≤ (0x24#6).toNat && (0x24#6).toNat ≤ 0x24) subIMMRANGE)) = true := by decide +kernel

theorem witness_VectorLoadsLand_scratch : let s := tX .v [(3, 0x1000)]
    let a := s.atIssue
    let es := a.elems 0 (fun l => (0x1000 + 4 * l) % 2 ^ 64)
    s.issues { vmForm 3 0 s with ext := true } = true ∧ aligned (a.vmAddr 3) 4 = true ∧ a.vmAddr 3 = 0x1000 ∧ a.myCore.spElems false es = .ok () ∧
    a.myCore.conflict 0x1000 (4 * a.rvl) false = false ∧ a.myCore.sb.length < Config.scoreboardSize ∧ a.spElemsReady false es = .ok () :=
  by repeat' first | decide +kernel | exact ok_of (by decide +kernel) | exact own_of (by decide +kernel) | constructor

theorem witness_VectorLoadsLand_global : let s := tX .v [(3, 0x4000)] { vl := 2 }
    let a := s.atIssue
    let es := a.elems 0 (fun l => (0x4000 + 4 * l) % 2 ^ 64)
    s.issues { vmForm 3 0 s with ext := true } = true ∧ aligned (a.vmAddr 3) 4 = true ∧ a.vmAddr 3 = 0x4000 ∧
    (match a.glElems false es with
     | .ok r => r.1.all (fun p => a.myCore.inOrder .v p.mtype && passes (a.canRead 0 none p 4)) && !onceOnly r.1 &&
       (let got := es.map fun e => (e.1, (7 : Lane))
        let b := a.setMe { a.me with req := some { since := 0, addr := 0x4000, instr := .vld32 1 3 0 0 0, once := false, got := got } }
        let q := b.takeElems (es.zip r.1) (b.gotten (.vld32 1 3 0 0 0) 0x4000)
        es.all fun e => (tFind (b.gotten (.vld32 1 3 0 0 0) 0x4000) e.1).isSome && (tFind q.1 e.1).isSome)
     | .error _ => false) = true := by decide +kernel

/-- Of a window whose lines are away no element returns, and of a device page the request leaves first. -/
theorem witness_VectorLoadsLand_waits : let s := tWin (tX .v [(3, 0x10000000)] { vl := 2 })
    let a := s.atIssue
    let es := a.elems 0 (fun _ => 0x10000000)
    let d := (tDev (tX .v [(3, 0x4000)] { vl := 2 })).atIssue
    s.issues { vmForm 3 0 s with ext := true } = true ∧ a.vmAddr 3 = 0x10000000 ∧
    (match a.glElems false es with
     | .ok r => r.1.all (fun p => a.myCore.inOrder .v p.mtype) && !onceOnly r.1 && (let q := a.takeElems (es.zip r.1) []; es.any fun e => (tFind q.1 e.1).isNone)
     | .error _ => false) = true ∧
    (match d.glElems false (d.elems 0 (fun _ => 0x4000)) with
     | .ok r => onceOnly r.1 && r.1.all (fun p => d.myCore.inOrder .v p.mtype) && !d.reqOut (.vldB 1 3 0 0 0) 0x4000 && (tOut d (.vldB 1 3 0 0 0) 0x4000).reqOut (.vldB 1 3 0 0 0) 0x4000
     | .error _ => false) = true := by decide +kernel

theorem witness_VectorLoadsLand_gather : let s := tX .v [(3, 0x4000)]
    let a := s.atIssue
    let es := a.elems 0 (a.vgAddr 3 5)
    s.issues (vmForm 3 0 s) = true ∧ a.myCore.spElems false es = .ok () ∧ a.myCore.conflict (elemRange es).1 (elemRange es).2 false = false ∧ a.spElemsReady false es = .ok () :=
  by repeat' first | decide +kernel | exact ok_of (by decide +kernel) | exact own_of (by decide +kernel) | constructor

theorem witness_VectorStoresLand_scratch : let s := tX .v [(3, 0x1000)]
    let a := s.atIssue
    let es := a.elems 0 (fun l => (0x1000 + 4 * l) % 2 ^ 64)
    s.issues { vmForm 3 0 s with ext := true, eff := false } = true ∧ a.myCore.spElems true es = .ok () ∧ a.myCore.conflict 0x1000 (4 * a.rvl) true = false ∧
    a.myCore.sb.length < Config.scoreboardSize ∧ a.spElemsReady true es = .ok () :=
  by repeat' first | decide +kernel | exact ok_of (by decide +kernel) | exact own_of (by decide +kernel) | constructor

theorem witness_VectorStoresLand_global : let s := tX .v [(3, 0x4000)] { vl := 2 }
    let a := s.atIssue
    let es := a.elems 0 (fun l => (0x4000 + 4 * l) % 2 ^ 64)
    s.issues { vmForm 3 0 s with ext := true, eff := true } = true ∧ s.issues { vmForm 3 0 s with eff := true } = true ∧ aligned (a.vmAddr 3) 4 = true ∧ a.myCore.storeq = [] ∧
    (match a.glElems true es with
     | .ok r => r.1.all (fun p => a.storeOrder p) && a.storeRoom ((lastOf (es.zip r.1)).map (·.2))
     | .error _ => false) = true := by decide +kernel

theorem witness_NestsAndTables : let s := tMat [(3, 4096), (4, 1), (5, 0x4010)] {}
    s.issues (fM 7 (subUnless ((15 : Nat) < 16) subREGRANGE ++ subUnless ((5 : Nat) < 6 && (3 : Nat) < 4 && ((3 : Nat) = 0 || (3 : Nat) ≤ 5)) subIMMRANGE)) = true ∧
    nestOk 5 0 (s.atIssue.rx 4) = true ∧ nestOk 5 0 (s.atIssue.rx 15) = false ∧
    s.issues (fM 0 (subUnless ((15 : Nat) < 16 && (3 : Nat) < 16) subREGRANGE)) = true ∧ (mkOperand (s.atIssue.rx 5) (s.atIssue.rx 4 1) true false).soff = 0 ∧
    s.issues (rrForm 0 [15, 4]) = true ∧ s.myCore.poolOk 4096 1 = true ∧ s.issues (fM 0) = true ∧ (s.me.hdr.ilk && s.tableLate) = false ∧
    ({} : Core).late = [] ∧ ({} : Core).c.cntReads = [] ∧ ({} : Core).h.cntReads = [] := by decide +kernel

theorem witness_NestsAndTables_late : let s := tMat [] {}
    let u := s.setMyCore { s.myCore with late := [⟨80, .m, .table false []⟩] }
    u.issues (rrForm 0 [3, 4, 5]) = true ∧ u.issues (fM 0) = true ∧ (u.me.hdr.ilk && u.tableLate) = true := by decide +kernel

/-- A row that is legal stands at 0x1000, and X[5] asks for it, a dump and a clear. -/
theorem witness_NestsAndTables_load : let s := tMat [(3, 0x2000), (4, 0x1000), (5, 0x181)] { scratch := mWrite [] 0x1000 (natToBytes 8 292734254951890944) }
    let a := s.atIssue
    s.issues (rrForm 0 [3, 4, 5]) = true ∧ bits (a.rx 5 2).toNat 0 7 ≤ 64 ∧ (a.rx 5 2).toNat / 2 ^ 9 = 0 ∧ aligned (a.rx 4 1).toNat 8 = true ∧
    s.myCore.spCheck (a.rx 4 1).toNat 8 false = .ok () ∧ a.spReady s.cur.die s.cur.core (a.rx 4 1).toNat 8 false = .ok () ∧ aligned (a.rx 3).toNat 4 = true ∧
    s.myCore.spCheck (a.rx 3).toNat 256 true = .ok () ∧ a.spReady s.cur.die s.cur.core (a.rx 3).toNat 256 true = .ok () ∧
    badRow (a.tableWords (a.rx 4 1).toNat 1) 0 = none ∧ (s.me.hdr.ilk && s.tableLate) = false :=
  by repeat' first | decide +kernel | exact ok_of (by decide +kernel) | exact own_of (by decide +kernel) | constructor

theorem witness_MatrixOperationsRun : let s := tMat [] {}
    let cfg := s.atIssue.rowWord s.atIssue.rowOf 0
    let l := s.linkAt (s.linkKey s.myCtx s.cur.die s.cur.core 15)
    let rs := tRanges s tNest false
    let rz := tRanges s tNest true
    ¬(s.me.hdr.ilk = true ∧ s.tableLate = true) ∧ s.myCore.ops.length < 2 ∧ (∀ o ∈ s.myCore.ops, o.lastGo = true) ∧
    l.state ∉ [LinkState.idle, .ready, .sent, .frozen] ∧ l.own = s.myCtx ∧ l.issued ≠ l.decl ∧
    s.issues (mmForm 0x3F 0) = true ∧ s.issues { mmForm 0x3F 0 with feature := some 3 } = true ∧ s.myCore.mActive = true ∧
    tNest.layoutOk (bits cfg.toNat 58 6) (bits cfg.toNat 52 6) (bit cfg.toNat 45) false = true ∧
    tNest.layoutOk (bits cfg.toNat 58 6) (bits cfg.toNat 52 6) (bit cfg.toNat 45) true = true ∧
    (∀ r ∈ rs ++ rz, 0 ≤ r.1 ∧ r.2 < Config.spSize) ∧ s.myCore.sb.length + rs.length ≤ Config.scoreboardSize ∧ s.myCore.sb.length + rz.length ≤ Config.scoreboardSize ∧
    s.atIssue.rangesReady (rs.map rangeLen) = .ok () ∧ s.atIssue.rangesReady (rz.map rangeLen) = .ok () :=
  by repeat' first | decide +kernel | exact ok_of (by decide +kernel) | exact own_of (by decide +kernel) | constructor

theorem witness_MatrixOperations_group : let s := tAt .m { ops := [tOp 0] }
    s.groupDue 0 0 (tOp 0) = true ∧ (tOp 0).over = false ∧ (tOp 1).over = true ∧ (tAt .m { ops := [tOp 1] }).groupDue 0 0 (tOp 1) = true ∧ (tOp 0).held = none ∧
    (tAt .m { ops := [{ tOp 0 with held := some ([], []) }] }).groupDue 0 0 { tOp 0 with held := some ([], []) } = true ∧
    (match s.fresh.fetchVecs 0 0 (tOp 0) .a (bits (tOp 0).row.toNat 58 6) false (upto 0 1) with
     | .ok r => (r.2.fetchVecs 0 0 (tOp 0) .b (bits (tOp 0).row.toNat 52 6) false (upto 0 1)).isOk
     | .error _ => false) = true := by decide +kernel

theorem witness_ChainInstructionsAct_build :
    let words := [1, 0, 0, 2 ^ 49]
    let s := tWords (tX .m [(3, 0x1000), (4, 0x5000)] { scratch := mWrite [] 0x1000 (words.flatMap (natToBytes 8)) }) 0x5000 words
    let a := s.atIssue
    let e := linkEntry 0 (2 ^ 49)
    s.issues (chForm 0 3 0) = true ∧ s.issues (chForm 0 4 0) = true ∧ (s.chainAt s.myCtx 255).links = [] ∧ aligned (a.rx 3).toNat 16 = true ∧ aligned (a.rx 4).toNat 16 = true ∧
    (upto 0 4).map (fun k => bytesToNat (a.spBytes s.cur.die s.cur.core (0x1000 + 8 * k) 8)) = words ∧
    s.myCore.spCheck 0x1000 16 false = .ok () ∧ a.spReady s.cur.die s.cur.core 0x1000 16 false = .ok () ∧
    s.myCore.spCheck 0x1000 32 false = .ok () ∧ a.spReady s.cur.die s.cur.core 0x1000 32 false = .ok () ∧
    (match a.globalWords (.chbuild 255 4 0 0) 0x5000 2 0x5000, a.globalWords (.chbuild 255 4 0 0) 0x5000 4 0x5000 with
     | .ok p, .ok q => decide (p.1 = words.take 2 ∧ q.1 = words)
     | _, _ => false) = true ∧
    (match a.linkHome e.handle 0x1010 with
     | .ok h => (a.coresOf h.die h.part).contains e.core && decide ((s.linkAt (s.linkKey h.ctx h.die e.core e.slot)).state = .idle)
     | .error _ => false) = true ∧
    e.decl ≠ 0 ∧ e.core ≤ 159 ∧ e.hopf ≠ 3 ∧ e.spare = false ∧ e.clear = false ∧ e.posn = 0 ∧ e.rsv = 0 ∧ e.hopf ≠ 1 :=
  by repeat' first | decide +kernel | exact ok_of (by decide +kernel) | exact own_of (by decide +kernel) | constructor

theorem witness_ChainInstructions_none : let s := tX .m [] {}
    (s.chainAt s.myCtx 255).links = [] ∧ s.issues (chForm 0 3 0) = true ∧ s.issues { chForm 0 3 4 with fmt := true } = true ∧ s.issues (chForm 0 0 0) = true ∧
    s.issues (chForm 0 3 4) = true := by decide +kernel

theorem witness_ChainInstructionsAct : let s := tChain tCh { state := .armed, decl := 2 } [(3, 0x1000), (4, 0x0002000000000000 + 0x3F800000 + 4 * 2 ^ 32)] {}
    let a := s.atIssue
    s.issues (chForm 0 3 0) = true ∧ tCh.links ≠ [] ∧ tCh.home = s.cur.die ∧ tCh.close = none ∧ s.chainAt s.myCtx 0 = tCh ∧ aligned (a.rx 3).toNat 8 = true ∧ s.myCore.spCheck 0x1000 64 true = .ok () ∧
    a.spReady s.cur.die s.cur.core 0x1000 64 true = .ok () ∧ (s.chainAt s.myCtx 255).links = [] ∧
    s.issues { chForm 0 3 4 with fmt := true } = true ∧ tCh.tail = some tRef ∧ slotPhys tRef.key = slotPhys (s.linkKey 0 s.cur.die s.cur.core 0) ∧
    bits (a.rx 4 1).toNat 61 3 = 0 ∧ bit (a.rx 4 1).toNat 48 = false ∧ aligned (bits (a.rx 4 1).toNat 32 16) 4 = true ∧ decodeF 0 (a.rx 4 1).toNat ≠ .nan ∧
    s.issues (chForm 0 0 0) = true ∧ a.chainBusy tCh = false :=
  by repeat' first | decide +kernel | exact ok_of (by decide +kernel) | exact own_of (by decide +kernel) | constructor

theorem witness_ChainInstructions_frozen : let s := tChain { tCh with frozen := true } { state := .frozen, pre := .armed, decl := 2 } [(3, 0x1000), (4, 0)] {}
    let a := s.atIssue
    s.issues (chForm 0 3 4) = true ∧ s.issues (chForm 0 0 0) = true ∧ (s.chainAt 1 0).frozen = true ∧ (∀ k ∈ (s.chainAt 1 0).keys, (s.linkAt k).needSplice = false) ∧
    (a.rx 4 1).toNat < (s.chainAt 1 0).links.length ∧ (s.linkAt ((s.chainAt 1 0).keys.getD 0 0)).lost = false ∧ aligned 0x1000 64 = true ∧
    s.myCore.spCheck 0x1000 16384 true = .ok () ∧ a.spReady s.cur.die s.cur.core 0x1000 16384 true = .ok () ∧ s.myCore.spCheck 0x1000 32768 true = .ok () :=
  by repeat' first | decide +kernel | exact ok_of (by decide +kernel) | exact own_of (by decide +kernel) | constructor

theorem witness_ChainInstructions_splice : let s := tSplice false [] []
    let a := s.atIssue
    let e := linkEntry 0 (2 ^ 36)
    s.issues (chForm 0 3 4) = true ∧ s.myCore.spCheck 0x1000 16 false = .ok () ∧ a.spReady s.cur.die s.cur.core 0x1000 16 false = .ok () ∧
    bytesToNat (a.spBytes s.cur.die s.cur.core 0x1008 8) = 2 ^ 36 ∧ e.rsv = 0 ∧ (s.chainAt 1 0).links[e.posn]? = some tRef ∧ (a.linkHome e.handle 0).isOk = true ∧
    (a.coresOf 0 0).contains e.core = true ∧ e.spare = false ∧ (s.linkAt tRef.key).lost = false ∧ s.physFailed 0 (s.physOf 0 e.core) = false ∧
    (s.linkAt (2 ^ 20 + 1)).state = .idle :=
  by repeat' first | decide +kernel | exact ok_of (by decide +kernel) | exact own_of (by decide +kernel) | constructor

theorem witness_ChainInstructions_spare :
    let e := linkEntry 0 (2 ^ 36 + 2 ^ 33)
    e.spare = true ∧ e.core = tRef.core ∧ (tSplice true [0] []).physFailed 0 0 = true ∧ (tSplice true [0] []).freeSpare 0 = some 160 ∧
    (tSplice true (0 :: upto 160 8) []).freeSpare 0 = none ∧ (tSplice true (0 :: upto 160 8) []).physFailed 0 0 = true := by decide +kernel

theorem witness_ChainEventsAct_hop : let h : Hop := { ctx := 1, chain := 0, dest := 0, vals := [] }
    let s := { tChain tCh { state := .armed, decl := 2 } [] {} with hops := [h] }
    s.hops[0]? = some h ∧ (s.chainAt 1 0).links[0]? = some tRef ∧ s.linkLive tRef = true ∧ (s.linkAt tRef.key).rearm = false ∧
    (s.linkAt tRef.key).inrcv = false ∧ ((s.setLink tRef.key { s.linkAt tRef.key with inrcv := true }).linkAt tRef.key).inrcv = true := by decide +kernel

theorem witness_ChainEventsAct_close :
    let q : CloseReq := { core := 0, dst := 0x1000, rows := 2, cols := 1, stride := 4, scale := 0x3F800000, clip := false, row := 0, flush := false }
    let ch := { tCh with close := some q }
    let s := tChain ch { state := .sent, formed := true, decl := 2 } [] {}
    let t := tChain { tCh with close := some { q with started := true } } { state := .sent, formed := true, decl := 2 } [] {}
    s.chainAt 1 0 = ch ∧ ch.tail = some tRef ∧ q.started = false ∧ ch.frozen = false ∧ (s.linkAt tRef.key).state = .sent ∧ (s.linkAt tRef.key).formed = true ∧
    s.linkLive tRef = true ∧ s.closeFree ch = true ∧ (t.chainAt 1 0).close = some { q with started := true } ∧ (t.chainAt 1 0).tail = some tRef ∧
    t.linkLive tRef = true ∧ t.closeFree (t.chainAt 1 0) = true ∧ t.ckpts = [] := by decide +kernel

theorem witness_CopiesEnterAndRun : let s := tCopy 3
    s.issues { fX 0 (s.regs [15, 3]) with ext := true } = true ∧ s.issues (fX 0 (s.regs [15, 3, 4])) = true ∧ s.issues (cdForm 3 0 s) = true ∧
    tEnters (tX .x [(15, 0x2000), (3, 0x3000), (4, 64)]) { num := 0, kind := .plain, dst := 0x2000, src := 0x3000, n0 := 64, dsp := true, ssp := true } = true ∧
    ((tX .x [(4, 0xFFFFFFFF)]).atIssue.rx 4 2).toNat ≤ 0xFFFFFFFF ∧ 0xFFFFFFFF < ((tX .x [(4, 0x100000000)]).atIssue.rx 4 2).toNat := by decide +kernel

theorem witness_CopiesEnterAndRun_descriptors : tDesc (.cpD2d 3 1 0) 0 3 = true ∧ tDesc (.cpD3d 3 1 0) 1 3 = true ∧ tDesc (.cpDCvt 3 1 0) 2 3 = true ∧
    tDesc (.cpDGath 3 1 0) 3 3 = true ∧ tDesc (.cpDScat 3 1 0) 4 3 = true ∧ tDesc (.cpDFill 3 1 0) 5 1 = true ∧ tDesc (.cpDRemote 3 1 0) 6 3 = true := by decide +kernel

theorem witness_CopiesEnterAndRun_none :
    ({ num := 0, kind := .plain, dst := 0x2000, src := 0x3000, n0 := 0, dsp := true, ssp := true } : Copy).total = 0 := by decide +kernel

theorem witness_CopiesEnterAndRun_run :
    let k : Copy := { num := 0, kind := .plain, dst := 0x2000, src := 0x3000, n0 := 257, dsp := true, ssp := true }
    let f := { k with kind := .fill, n0 := 256 }
    let w := { k with unsent := [({ pid := 0, imp := 2, home := some 1 }, { die := 0, core := 0, pid := 0, home := 1, exp := 77, slot := 2, va := 0x8000, key := none, data := [1] })] }
    (tRun 257 .plain).copyDue 0 0 k = true ∧ k.kind ∉ [.put, .grad, .dep, .prRead, .gRead] ∧ k.unsent = [] ∧ ((tRun 257 .plain).fresh.beat 0 0 k).isOk = true ∧
    ((tRun 256 .fill).fresh.beat 0 0 f).isOk = true ∧ ((tRun 256 .fill).coreAt 0 0).stash = [] ∧ 256 * (0 + 1) < k.total ∧ (tRun 256 .fill).copyDue 0 0 f = true ∧
    (tAt .x { copyq := [w] }).copyDue 0 0 w = true ∧ w.unsent ≠ [] ∧ ((tRun 257 .plain).coreAt 0 0).copyq.head? = some k ∧ f.total ≤ 256 * 1 := by
  decide +kernel

theorem witness_StashActs_map : let s := tX .x [(3, 0x1000), (4, 0x4000), (5, 256)]
    s.issues (fX 0 (s.regs [3, 4, 5])) = true ∧ s.myCore.stmapOk 0x1000 0x4000 256 = true ∧ s.atIssue.stmapPages (pagePieces 0x4000 130 256) = .ok () ∧
    s.myCore.conflict 0x1000 256 true = false ∧ s.myCore.sb.length < Config.scoreboardSize :=
  by repeat' first | decide +kernel | exact ok_of (by decide +kernel) | exact own_of (by decide +kernel) | constructor

theorem witness_StashActs : let s := tStash [(3, 0x1000), (4, 256)] .dirty
    let a := s.atIssue
    s.issues { fX 0 (s.regs [3, 4]) with eff := true } = true ∧ s.issues (fX 0 (s.regs [3, 4])) = true ∧ s.issues { fX 0 (s.regs [3]) with eff := true } = true ∧
    s.myCore.stashCovers 0x1000 256 = true ∧ s.myCore.stashCovers 0x1000 257 = false ∧ s.myCore.conflict 0x1000 256 true = false ∧
    (a.flushRange 0 0 (s.myCore.dirtyIn 0x1000 256)).isOk = true ∧ (s.myCore.stash.find? (fun m => m.sp = 0x1000)).isSome = true := by decide +kernel

theorem witness_StashActs_events : let s := { tStash [] .dirty with snoops := [⟨0, 0, 0x1000, true⟩] }
    let k := s.coreAt 0 0
    129 ∈ k.fills ∧ (tGet ({} : StSector) k.sectors 129).st = .invalid ∧ s.spInUse 0 0 0x1000 32 = false ∧ s.fresh.check (s.fresh.ctxOf 0 0) (some k.foot) [0] (k.sectorVa 129) 32 false = .ok (tPhys 0x4020) ∧
    s.fresh.own 0 0 k.task (tPhys 0x4020) (k.sectorVa 129) 32 false = .ok s.fresh ∧ s.fresh.canRead 0 (some 0) (tPhys 0x4020) 32 = .ok () ∧
    s.fresh.filterRoom 0 (0x4020 / 256) = true ∧ (⟨0, 0, 0x1000, true⟩ : Snoop) ∈ s.snoops ∧ (tGet ({} : StSector) k.sectors 128).st = .dirty ∧ (s.fresh.flushRange 0 0 [128]).isOk = true :=
  by repeat' first | decide +kernel | exact ok_of (by decide +kernel) | exact own_of (by decide +kernel) | constructor

theorem witness_HelperRuns_launch : let s := tX .x [(3, 0x1000), (4, 63)]
    let a := s.atIssue
    let w := fun k => a.spNat (0x1000 + 8 * k) 8
    s.issues (fX 0 (s.regs [3, 4])) = true ∧ s.myCore.helper.run = false ∧ hctlOk 0x1000 63 w = true ∧ s.myCore.spCheck 0x1000 64 false = .ok () ∧
    a.spReady s.cur.die s.cur.core 0x1000 64 false = .ok () ∧ s.issues (fX 0) = true ∧ s.myCore.helperLanded = true ∧ s.issues (fX 0 (s.regs [3])) = true :=
  by repeat' first | decide +kernel | exact ok_of (by decide +kernel) | exact own_of (by decide +kernel) | constructor

theorem witness_HelperRuns : let s := tHelp false
    let c := s.myCore
    let f := s.fresh
    let w := fun j => f.spNat (0x2000 + 8 * j) 8
    s.curOk = true ∧ c.helper.run = true ∧ c.helper.next ≤ s.now ∧ c.inTurn s.now helperRank = true ∧ s.myPart.halt = none ∧ c.x.trap = none ∧ c.helper.stopReq = false ∧
    (tHelp true).myCore.helper.stopReq = true ∧ c.helperLanded = true ∧ c.termReady s.now 0 = true ∧ c.spCheck 0x1010 16 true = .ok () ∧
    f.spReady 0 0 0x1010 16 true = .ok () ∧ c.spCheck 0x1040 4 true = .ok () ∧ f.spReady 0 0 0x1040 4 true = .ok () ∧ f.spReady 0 0 0x1010 16 false = .ok () ∧ aligned 0x2000 64 = true ∧
    c.spCheck 0x2000 64 false = .ok () ∧ f.spReady 0 0 0x2000 64 false = .ok () ∧
    (match f.copyPlan 0 0 0 w 0x2000 0 0 with
     | .ok k0 => let k : Copy := { k0 with helper := true, pc := c.helper.hpc }
       decide (k.total ≠ 0) && passes (c.sideCheck k false) && passes (c.sideCheck k true) && decide (c.copyq.length < Config.copyQueueSize) &&
         decide (c.sb.length + k.ranges.length ≤ Config.scoreboardSize) && passes (f.sideReady 0 0 k false none) && passes (f.sideReady 0 0 k true none)
     | .error _ => false) = true :=
  by repeat' first | decide +kernel | exact ok_of (by decide +kernel) | exact own_of (by decide +kernel) | constructor

theorem witness_HatboxActs : let s := tHat [(3, 15), (4, 0xFFFFFFFF), (5, 16), (6, 2), (7, 0)] (some (tHb [(2, { state := .taken })] [(15, [1])]))
    let h := tHb [(2, { state := .taken })] [(15, [1])]
    let i := Instr.hbrel 3 0
    s.issues (hbForm 0) = true ∧ s.released = true ∧ s.atIssue.reqOut i 0 = false ∧ (tOut s i 0).issues (hbForm 0) = true ∧ (tOut s i 0).atIssue.reqOut i 0 = true ∧
    (s.ctxAt s.myCtx).hatbox = some h ∧ (s.atIssue.rx 3).toNat ≤ 15 ∧ (s.atIssue.rx 4 1).toNat / 2 ^ 32 = 0 ∧
    h.lowest = some 0 ∧ (tHb ((upto 0 3).map fun n => (n, ({ state := .done } : HbSlot))) []).lowest = none ∧ 15 < (s.atIssue.rx 5).toNat ∧
    tGet [] h.queue 15 = [1] ∧ tGet [] h.queue 14 = [] ∧ (s.atIssue.rx 6).toNat < h.quota ∧ (h.slot 2).state ∈ [SlotState.alloc, .released, .taken] ∧
    (h.slot 1).state ∉ [SlotState.alloc, .released, .taken] ∧ (s.atIssue.rx 6).toNat / 2 ^ 16 = 0 := by decide +kernel

theorem witness_HatboxActs_gate : let s := tWords (tHat [(3, 2), (4, 0x5000)] (some (tHb [(2, { state := .alloc })] []))) 0x5000 [0xFFF, 0, 0x3F800000, 0, 0, 0, 1, 0]
    aligned (s.atIssue.rx 4 1).toNat 64 = true ∧ ((tHb [(2, { state := .alloc })] []).slot 2).state = .alloc ∧
    (match s.atIssue.unitWords (.hbgate 3 4 0) 0x5000 0x5000 8 with
     | .ok ws => gateOk (fun k => ws.getD k 0)
     | .error _ => false) = true := by decide +kernel

theorem witness_HatboxActs_configure :
    let blk := fun (q : Nat) => 0xC0000000 :: (q * 2 ^ 32 + 1) :: (upto 0 16).map (fun _ => 2 ^ 48)
    let s := tWords (tHat [(3, 0x5000)] none) 0x5000 (blk 1)
    let old := tWords (tHat [(3, 0x5000)] (some (tHb [(0, { state := .alloc })] []))) 0x5000 (blk 1)
    let full := (tWords (tHat [(3, 0x5000)] none) 0x5000 (blk 65535)).setCtx { id := 3, die := 0, part := 0, ptroot := 0, hatbox := some { tHb [] [] with quota := 2 } }
    s.issues (hbForm 0) = true ∧ old.issues (hbForm 0) = true ∧ full.issues (hbForm 0) = true ∧ (tHb [(0, { state := .alloc })] []).used ≠ 0 ∧
    (match s.atIssue.unitWords (.hbcfg 5 3 0) 0x5000 0x5000 18 with
     | .ok ws =>
       let h := hbOf (fun k => ws.getD k 0)
       hbBlockOk (fun k => ws.getD k 0) && decide (s.atIssue.otherQuota 0 1 + h.quota ≤ 65536) && passes (s.atIssue.pagesCheck 1 3 (pagesOf h.region.toNat (h.quota * h.frame)))
     | .error _ => false) = true ∧
    (match full.atIssue.unitWords (.hbcfg 5 3 0) 0x5000 0x5000 18 with
     | .ok ws => hbBlockOk (fun k => ws.getD k 0) && decide (65536 < full.atIssue.otherQuota 0 1 + (hbOf (fun k => ws.getD k 0)).quota)
     | .error _ => false) = true := by decide +kernel

theorem witness_HatboxActs_put : let s := tX .x [(3, 64 * 2 ^ 16), (4, 0x1000), (5, 0xC0000100)] |> fun s => s.setCtx { s.ctxAt 1 with hatbox := some (tHb [] []) }
    let a := s.atIssue
    let c := s.myCore
    s.issues { fX 0 (s.regs [3, 4, 5]) with feature := some 0, eff := true } = true ∧ (s.ctxAt s.myCtx).hatbox.isSome = true ∧ aligned 0x1000 4 = true ∧ aligned 0xC0000100 256 = true ∧
    bits (a.rx 3).toNat 23 9 = 0 ∧ bits (a.rx 3).toNat 16 7 = 64 ∧ c.spCheck 0x1000 16384 false = .ok () ∧ a.putTarget s.myCtx 0xC0000100 = .ok () ∧
    c.copyq.length < Config.copyQueueSize ∧ c.sb.length + 1 ≤ Config.scoreboardSize ∧ a.sectorsReady 0 0 0x1000 16384 false (c.mapped 0x1000 16384) = .ok () :=
  by repeat' first | decide +kernel | exact ok_of (by decide +kernel) | exact own_of (by decide +kernel) | constructor

theorem witness_HatboxActs_events :
    let gated : HbSlot := { state := .gated, exps := [1], wgts := [0x3F800000], due := 7 }
    let done : HbSlot := { gated with state := .done }
    let s := { tHat [] (some (tHb [(2, gated)] [])) with now := 7 }
    s.dieAway 0 = false ∧ (s.ctxAt 1).die = 0 ∧ ((tHb [(2, gated)] []).slot 2).state = .gated ∧ ((tHb [(2, gated)] []).slot 2).due ≤ s.now ∧
    ((tHb [(2, done)] []).slot 2).state = .done ∧ ((tHb [(2, done)] []).slot 2).combined = false := by decide +kernel

theorem witness_HatboxActs_arrival :
    let m : PutMsg := { die := 1, core := 0, pid := 0, slot := 2, home := some 0, exp := 79, target := 0xC0000100, word := 0x10000, data := [] }
    let x : ExportEnt := { handle := 79, ctx := 1, die := 0, kind := 1, base := 0xC0000000, len := 0x10000, write := true }
    let s := { tHat [] (some (tHb [] [])) with puts := [m, { m with home := none }], exports := [x] }
    let gone := { s with exports := [{ x with revoked := true }] }
    s.puts[0]? = some m ∧ s.dieAway 0 = false ∧ s.putPlace 79 0xC0000100 = some 1 ∧ s.fresh.putPlace 79 0xC0000100 = some 1 ∧ s.exportOf 79 = some x ∧
    s.hbTooLate 1 (s.sender 1 0) 0xC0000100 0x10000 = false ∧ ({ s.fresh with puts := dropNth s.puts 0 } : State).putPlace 79 0xC0000100 = some 1 ∧
    s.puts[1]? = some { m with home := none } ∧ gone.putPlace 79 0xC0000100 = none ∧ gone.fresh.putPlace 79 0xC0000100 = none ∧
    ({ gone.fresh with puts := dropNth gone.puts 0 } : State).putPlace 79 0xC0000100 = none := by decide +kernel

theorem witness_ClassInstructionsAct_copies : let s := tX .x [(3, 0x1000), (4, 0x40000000), (5, 1), (6, 4096), (7, 0x80000000)]
    let a := s.atIssue
    let c := s.myCore
    s.issues (classX 1 true 3 4 6 0 s) = true ∧ s.issues (classX 1 false 3 4 5 0 s) = true ∧ s.issues (classX 2 true 3 7 5 0 s) = true ∧ s.issues (classX 2 false 3 7 5 0 s) = true ∧
    1 ≤ (a.rx 5 2).toNat ∧ (a.rx 6 2).toNat ≤ 4096 ∧ aligned 0x40000000 256 = true ∧ aligned 0x1000 4 = true ∧ c.spCheck 0x1000 (64 * 4096) false = .ok () ∧
    c.copyq.length < Config.copyQueueSize ∧ c.sb.length + 1 ≤ Config.scoreboardSize ∧ a.sectorsReady 0 0 0x1000 (64 * 4096) false (c.mapped 0x1000 (64 * 4096)) = .ok () ∧
    c.spCheck 0x1000 256 true = .ok () ∧ a.sectorsReady 0 0 0x1000 256 true (c.mapped 0x1000 256) = .ok () :=
  by repeat' first | decide +kernel | exact ok_of (by decide +kernel) | exact own_of (by decide +kernel) | constructor

theorem witness_ClassInstructionsAct_sync : let s := tX .c [(3, 0x40000000)]
    let q := { tPhys 0x40000000 with mclass := 1 }
    let v := tX .c [(3, 0x40000000), (4, 1)]
    s.issues (classC 1 0) = true ∧ aligned (s.atIssue.rx 3).toNat 256 = true ∧ s.atIssue.unitPlace false s.myCtx 1 0x40000000 256 false = .ok q ∧
    v.issues (classC 1 0) = true ∧ v.atIssue.unitPlace false v.myCtx 1 0x40000000 256 false = .ok q ∧
    (BitVec.ofNat 32 (laneAt (v.atIssue.unitLanes q.key) 3) - BitVec.ofNat 32 (v.atIssue.rx 4 1).toNat).toInt < 0 ∧
    0 ≤ (BitVec.ofNat 32 (laneAt (s.atIssue.unitLanes q.key) 3) - BitVec.ofNat 32 (s.atIssue.rx 4 1).toNat).toInt := by decide +kernel

theorem witness_ClassInstructionsAct_rule : let s := tRule 1
    let many := { s with ctxs := s.ctxs ++ (upto 2 64).map (fun k => (k, ({ id := k, die := 0, part := 0, ptroot := 0, rules := some [] } : Ctx))) }
    let i := Instr.prrule 5 3 4 0
    s.issues (classC 1 0) = true ∧ s.released = true ∧ s.atIssue.reqOut i 0x5000 = false ∧ (tOut s i 0x5000).atIssue.reqOut i 0x5000 = true ∧ (tOut s i 0x5000).issues (classC 1 0) = true ∧
    aligned (s.atIssue.rx 3).toNat 32 = true ∧ (s.atIssue.rx 4 1).toNat ≤ 15 ∧ tRuleBad 0 = some (some 0) ∧
    tRuleBad 1 = some none ∧ s.ruleRoom 0 1 = true ∧ many.ruleRoom 0 1 = false ∧ many.issues (classC 1 0) = true := by decide +kernel

theorem witness_ClassInstructionsAct_gossip : let s := tGos [(3, 0x80000000), (4, 1 * 2 ^ 32 + 0x3F800000)] []
    let w := (s.atIssue.rx 4 1).toNat
    let i := Instr.gspread 1 3 4 0
    s.issues (classC 2 0) = true ∧ w / 2 ^ 48 = 0 ∧ bits w 32 16 ≠ 0 ∧ boundOk (bits w 0 32) = true ∧ aligned (s.atIssue.rx 3).toNat 256 = true ∧
    s.atIssue.reqOut i 0x80000000 = false ∧ (tOut s i 0x80000000).atIssue.reqOut i 0x80000000 = true ∧ (tOut s i 0x80000000).issues (classC 2 0) = true ∧
    s.issues { classC 2 0 with subs := subUnless ((62 : Nat) % 2 = 0 && (62 : Nat) ≠ 0) subREGRANGE } = true ∧
    (match s.atIssue.unitPlace false s.myCtx 2 0x80000000 256 false with
     | .ok q => q.slot.isNone && (s.atIssue.ctxAt (s.atIssue.ctxOfPlace s.myCtx q)).gossip.any (fun h => decide (h.lineAt 0x80000000 = some 0 ∧ lineK h (s.atIssue.unitLanes q.key) = some 2))
     | _ => false) = true := by decide +kernel

theorem witness_ClassInstructionsAct_region : let s := tWords (tGos [(3, 0x5000)] []) 0x5000 [0x80000000, 2 * 2 ^ 32 + 1 * 2 ^ 20 + 24 * 2 ^ 15, 100 * 2 ^ 32 + 1, 5]
    let busy : GLine := { out := some { port := 0, seq := 0, s := [], ks := 1, sent := 0 } }
    s.issues (classC 2 0) = true ∧ s.released = true ∧ aligned (s.atIssue.rx 3).toNat 64 = true ∧ (tGossip []).busy = false ∧ (tGossip [(0, busy)]).busy = true ∧
    (match s.atIssue.unitWords (.gcfg 5 3 0) 0x5000 0x5000 8 with
     | .ok ws =>
       let h := gossipOf (fun k => ws.getD k 0)
       gcfgOk (fun k => ws.getD k 0) && (upto 0 12).all (fun j => !h.ports.getLsbD j || (s.portAt j).up) && passes (s.atIssue.pagesCheck 1 2 (pagesOf h.region.toNat (256 * h.nlines)))
     | .error _ => false) = true := by decide +kernel

theorem witness_TasksAct : let s := tWords (tQ [(3, 0x5000), (4, 0x6000)]) 0x5008 [63 * 2 ^ 36]
    let a := s.atIssue
    let d := (tDev (tQ [(3, 0x5000), (4, 0x6000)])).atIssue
    s.issues (taskForm 0) = true ∧ aligned (a.rx 3).toNat 64 = true ∧ aligned (a.rx 4 1).toNat 4 = true ∧ s.myCore.drained = true ∧
    a.LoadsAt 0x6000 4 (some a.myFoot) (tPhys 0x6000) a ∧ bytesToNat (a.portBytes 0 0 0x6000 0 4) ≤ 65535 ∧ a.LoadsAt 0x5008 8 none (tPhys 0x5008) a ∧
    d.LoadsAt 0x6000 4 (some d.myFoot) { tPhys 0x6000 with mtype := 2 } d ∧ d.LoadsAt 0x5008 8 none { tPhys 0x5008 with mtype := 2 } d ∧ d.reqOut (.tlaunch 5 3 4 0) 0x5000 = false ∧
    (tOut d (.tlaunch 5 3 4 0) 0x5000).reqOut (.tlaunch 5 3 4 0) 0x5000 = true ∧
    bits (bytesToNat (a.portBytes 0 0 0x5008 0 8)) 36 6 = 63 ∧ (s.queueCtx 0 63).any (fun c => c.id = s.myCtx) = true ∧ s.canIssue (fC 0) = true ∧ s.cur.eng ≠ .h ∧
    s.myTask = some tTask ∧ tTask.signalled = false ∧ s.myCore.posted.all (fun i => i.dropped || i.done) = true ∧ s.myCore.copyq = [] ∧
    (tHandler 2).canIssue (fC 0) = true ∧ (tHandler 2).cur.eng = .h :=
  by repeat' first | decide +kernel | exact ok_of (by decide +kernel) | exact own_of (by decide +kernel) | constructor

theorem witness_TasksAct_signalled : let s := (tAt .c).setMyCore { (tAt .c).myCore with task := some { tTask with signalled := true } }
    s.issues (taskForm 0) = true ∧ s.myTask = some { tTask with signalled := true } := by decide +kernel

theorem witness_GraphsRun_queues : let s := tSubmitted 0x5000
    (s.queueCtx 0 63).isSome = true ∧ (s.queueAt 0 0).prog = (s.queueAt 0 0).tail.toNat ∧ s.dieAway 0 = false ∧ s.fresh.badQueue 0 = none ∧
    (s.fresh.bestQueue 0).any (fun b => b.1 = 63 && decide (b.2.1 = 0x5000)) = true ∧ (s.fresh.queueLive 0 63).isSome = true ∧
    descriptorOk (fun k => tDescWords.getD k 0) = true ∧ (tSubmitted 0x5001).fresh.badQueue 0 = some 63 := by decide +kernel

theorem witness_GraphsRun_records : let s := tGraph false [] 0
    let g := (s.graphAt 0).getD { id := 0, ctx := 0, die := 0, queue := 0, entry := 0, desc := 0 }
    (s.graphAt 0).isSome = true ∧ g.admitted = false ∧ (s.fresh.loadRecs g 0 (upto 0 1)).isSome = true ∧
    s.fresh.loadRecs { g with tasks := 0x200000000 } 0 (upto 0 1) = none ∧
    ((tGraph false [tRec false none none] 0).graphAt 0).any (fun g => g.admitted && decide (g.admitNext < g.recs.length) && decide (g.live < 256)) = true := by decide +kernel

theorem witness_GraphsRun_start : let s := tGraph false [tRec false (some 0) none] 1
    (match s.nextStart 0 0 with
     | some r => decide (r.kind = .record) && (match s.fresh.readyRec r with
       | some (g, q) => decide (g.recs[r.idx]? = some q) && !g.det && (s.fresh.images g q).isSome && q.nest.isNone && decide (s.fresh.freeCores 0 0 q.only ≠ [])
       | none => false)
     | none => false) = true ∧
    ((tGraph false [tRec false (some 0) (some { e0 := 1, e1 := 1, e2 := 1, e3 := 1, order := 0, gang := true, gbar := 0 })] 1).nextStart 0 0).any (fun r => r.kind = .gang) = true := by
  decide +kernel

theorem witness_GraphsRun_starved : let s := (tGraph true [tRec true (some 0) none] 1).setCoreAt 0 159 { task := some { tTask with graph := 9 } }
    (s.starved 0 0).isSome = true ∧ (s.partAt 0 0).halt = none ∧ s.dieAway 0 = false := by decide +kernel

theorem witness_GraphsRun_retire : let s := (tMod .c).setMyCore { task := some tTask }
    (s.coreAt 0 0).task = some tTask ∧ (s.coreAt 0 0).over = true ∧ (s.coreAt 0 0).fbSettled s.now = true ∧ (s.partOfCore 0 0).halt = none ∧ s.dieAway 0 = false ∧ (s.coreAt 0 0).stash = [] := by decide +kernel

theorem witness_LinesTravel_requests :
    (tLine ⟨.readS, 1, 0x40⟩ {} {}).reqDue 0 ⟨.readS, 1, 0x40⟩ = true ∧ (tLine ⟨.readS, 1, 0x40⟩ {} {}).reqSnoops ⟨.readS, 1, 0x40⟩ = [] ∧
    ((tLine ⟨.readS, 1, 0x40⟩ {} {}).lineAt 0x40 1).st = .i ∧
    (tLine ⟨.readS, 1, 0x40⟩ { st := .e, owner := 1 } { st := .e }).reqDue 0 ⟨.readS, 1, 0x40⟩ = true ∧ (({ st := .e, owner := 1 } : Dir).owned = true) ∧
    (tLine ⟨.readX, 1, 0x40⟩ { st := .m, owner := 2 } {}).reqDue 0 ⟨.readX, 1, 0x40⟩ = true ∧ ({ st := .m, owner := 2 } : Dir).holders.filter (· ≠ 1) ≠ [] ∧
    (tLine ⟨.homeRead, 0, 0x40⟩ { st := .m, owner := 2 } {}).reqDue 0 ⟨.homeRead, 0, 0x40⟩ = true ∧
    (tLine ⟨.homeWrite, 0, 0x40⟩ { st := .s, sharers := [1] } {}).reqDue 0 ⟨.homeWrite, 0, 0x40⟩ = true ∧ ({ st := .s, sharers := [1] } : Dir).holders ≠ [] ∧
    (let s := (tLine ⟨.readX, 1, 0x40⟩ {} {}).setMyCore { sectors := [(128, { st := .dirty, key := 0x4000 })] }
     s.reqDue 0 ⟨.readX, 1, 0x40⟩ = true ∧ s.reqSnoops ⟨.readX, 1, 0x40⟩ ≠ []) := by decide +kernel

theorem witness_LinesTravel_messages :
    let at_ := fun (k : FwdKind) (l : Line) => { tLine ⟨.readX, 2, 0x41⟩ { st := .m, owner := 1 } l with fwds := [⟨k, 1, 0x40, 2⟩] }
    let s := at_ .inv { st := .m, data := [(0x4000, 1)] }
    let x : Xact := { req := ⟨.readX, 2, 0x40⟩, due := [1] }
    let full : State := { (({ tMod .c with filt := (upto 0 16).map (fun k => (1, 0x40 + 40960 * k)), reqs := [⟨.readS, 1, 0x40 + 40960 * 16⟩] } : State).setDir 0x40
      { st := .m, owner := 1 }).setLine 0x40 1 { st := .m, data := [(0x4000, 1)] } with tape := [] }
    s.dieAway 1 = false ∧ s.stashConf 1 none 0x40 true = [] ∧ (at_ .fwdS { st := .e }).stashConf 1 none 0x40 false = [] ∧ (s.lineAt 0x40 1).st ≠ .i ∧
    s.fwds[0]? = some ⟨.inv, 1, 0x40, 2⟩ ∧ (at_ .fwdH { st := .e }).fwds[0]? = some ⟨.fwdH, 1, 0x40, 2⟩ ∧ ((at_ .fwdH { st := .e }).lineAt 0x40 1).st ≠ .i ∧
    full.writeBackDue 1 0x40 = true ∧ full.xactOn 0x40 = false ∧ ({ s with xacts := [x] } : State).writeBackDue 1 0x40 = true ∧
    ({ s with xacts := [x] } : State).xacts.find? (fun x => x.req.line = 0x40 && x.due.contains 1) = some x := by decide +kernel

theorem witness_LinesTravel_answers :
    let x : Xact := { req := ⟨.homeWrite, 0, 0x40⟩, due := [1, 2] }
    let s := { tLine ⟨.readX, 2, 0x41⟩ { st := .s, sharers := [1, 2] } {} with xacts := [x], acks := [{ line := 0x40, die := 1, nodata := false, dirty := false }] }
    s.acks[0]? = some { line := 0x40, die := 1, nodata := false, dirty := false } ∧ s.xacts.find? (fun x => x.req.line = 0x40) = some x ∧
    x.due.filter (· ≠ 1) ≠ [] ∧ ([1] : List Nat).filter (· ≠ 1) = [] ∧ (({ tMod .c with filt := (upto 0 16).map (fun k => (0, 0x40 + 40960 * k)), reqs := [⟨.readS, 1, 0x40 + 40960 * 16⟩] } : State).evictDue 0 0x40 = true) := by decide +kernel

theorem witness_PostsAndLoss :
    let m : Posted := { die := 0, core := 0, pid := 0, home := 1, exp := 77, slot := 2, va := 0x8000, key := some (2 ^ 52 + 0x8000), data := [1] }
    let s : State := { tWin (tAt .c { posted := [{ pid := 0, imp := 2, home := some 1, eng := .c }] }) with posts := [m], sacks := [⟨1, 0, 0, 0, false⟩], lines := [((2 ^ 52 + 0x8000) / 256 * 4, { st := .m })] }
    let gone : State := { s with exports := s.exports.map (fun e => { e with revoked := true }) }
    (s.postedTo 0 0 1).head? = some m ∧ s.dieAway 1 = false ∧ (s.fresh.postPlace m).any (fun p => passes (s.fresh.canWrite m.die none p 1)) = true ∧
    gone.fresh.postPlace m = none ∧ s.sacks[0]? = some ⟨1, 0, 0, 0, false⟩ ∧ (s.dieAt 0).lost = false := by decide +kernel

theorem witness_ParameterAndPortEvents : let m := tUnit true
    let s := tArr true 1
    let u : State := { s.fresh with units := dropNth s.units 0 }
    let two : State := { tArr true 2 with units := [] }
    let none_ : State := { s with exports := s.exports.map (fun e => { e with revoked := true }) }
    s.units[0]? = some m ∧ m.home = some 0 ∧ s.dieAway 0 = false ∧ s.unitHome true m.exp m.va = u.unitHome true m.exp m.va ∧ s.fresh.unitHome true m.exp m.va = s.unitHome true m.exp m.va ∧
    (match s.unitHome true m.exp m.va with
     | some q => !s.updating q.2.key && recFull (recArrive [] (u.unitLanes q.2.key)) && !recFull (recArrive [] (two.unitLanes q.2.key))
     | none => false) = true ∧
    none_.unitHome true m.exp m.va = none ∧ none_.fresh.unitHome true m.exp m.va = none ∧ (none_.exportOf 79).isSome = true ∧ (s.exportOf 79).any (fun e => decide (e.die = 0)) = true ∧
    ({ s with units := [{ m with home := none }] } : State).units[0]? = some { m with home := none } ∧
    (({ s with updates := [⟨0x40000000, none, 0⟩] } : State).updates.find? (fun u => u.key = 0x40000000)).isSome = true := by decide +kernel

theorem witness_ParameterAndPortEvents_ports : let m := tUnit false
    let s := tArr false 0
    let u : State := { s.fresh with units := dropNth s.units 0 }
    (s.portAt 0).up = true ∧ ({ s with ports := [(11, { failed := true })] } : State).portAt 11 = { failed := true } ∧ s.units[0]? = some m ∧ m.home = some 0 ∧ s.dieAway 0 = false ∧
    (match u.unitHome false m.exp m.va with
     | some q => (u.depositLanes q.1 m.va (u.unitLanes q.2.key) []).isSome
     | none => false) = true ∧
    (match u.unitHome false m.exp 0x80000200 with
     | some q => (u.depositLanes q.1 0x80000200 (u.unitLanes q.2.key) []).isNone
     | none => false) = true ∧ u.unitHome false m.exp 0x10 = none ∧ (s.exportOf 79).any (fun e => decide (e.die = 0)) = true := by decide +kernel

theorem witness_HalvesTravel : let s := tGos [] []
    let g := tGossip []
    (s.ctxAt 1).gossip = some g ∧ 0 < g.nlines ∧ g.next = 0 ∧ ((({ s with ctxs := [] } : State).setCtx { s.ctxAt 1 with gossip := some { g with next := 1 } }).fresh.halvable 1 { g with next := 1 } 1 = none) ∧ (s.halvable 1 g 0).isSome = true ∧ (g.line 0).out = none ∧ s.periodOver g (g.line 0) = true ∧ s.dieAway 0 = false ∧ s.nextPort g (g.line 0).lastPort = some 0 ∧
    s.farOut 0 < 4096 ∧ (s.fresh.linePlace 1 g 0).any (fun p => lineK g (s.fresh.unitLanes p.key) = some 2) = true ∧
    (s.fresh.linePlace 1 g 1).any (fun p => lineK g (s.fresh.unitLanes p.key) = some 0) = true := by decide +kernel

theorem witness_HalvesTravel_merge : let h : HalfMsg := { regId := 5, line := 0, seq := 9, s := [], ks := kMax - 2 }
    let s := tGos [] []
    (s.portAt 0).up = true ∧ (s.portAt 0).has h.seq = false ∧ (s.portAt 0).stale h.seq = false ∧ (s.fresh.regionOf h.regId 0).isSome = true ∧ 2 + h.ks ≤ kMax ∧
    (({ applied := [9] } : Port).has h.seq = true) ∧ (({ floor := some 9 } : Port).has h.seq = false) ∧ (({ floor := some 9 } : Port).stale h.seq = true) := by decide +kernel

theorem witness_HalvesTravel_again : let o : OutHalf := { port := 0, seq := 1, s := [], ks := 1, sent := 0 }
    let s := { tGos [] [(0, { out := some o })] with now := Config.clkPerUs }
    (s.ctxAt 1).gossip = some (tGossip [(0, { out := some o })]) ∧ ((tGossip [(0, { out := some o })]).line 0).out = some o ∧ o.doubt = false ∧ (s.portAt 0).up = true ∧
    1 * Config.clkPerUs ≤ s.now - o.sent := by decide +kernel

theorem witness_MailboxCommandsRun_errors : (tMb 0 4 [78] 2).mbDue 0 4 = true ∧ (tMb 0 4 [78] 2).mill.stage = 2 ∧ (tMb 3 4 [78, 1]).mbDue 3 4 = true ∧
    (tMb 3 4 [78, 1]).argsOk 3 [w64] = false ∧ decide ((tMb 0 (4 + 2 ^ 16) [78]).qual 0 ≠ 0) ≠ false := by decide +kernel

theorem witness_MailboxCommandsRun_handles :
    let w := fun n => List.replicate n w64
    let e := tMb 0 1 [1, 2 * 2 ^ 60, 0, 0]
    let e1 := { tMb 0 1 [1, 2 ^ 60 + 1, 0, 2 ^ 21] with tlb := [{ ctx := 1, va := 0, leaf := { pa := 0, w := true, keyNo := 0, mtype := 0, mclass := 0, entry := 0x3000, pbits := 30 } }] }
    let i := tMb 0 2 [1, 78]
    let i1 := tMb 0 2 [1, 77, 2 ^ 40]
    let u := tMb 0 3 [1, handleOf 3 1 3 5]
    (e.ctxAt (e.arg 0 0)).live = true ∧ tRuns e 0 1 [w64, 0xF000000000000001, w64, w64] false = true ∧ bits (e.arg 0 1) 60 4 = 2 ∧
    tRuns e1 0 1 [w64, 0xF000000000000001, w64, w64] false = true ∧ bits (e1.arg 0 1) 60 4 = 1 ∧ e1.fresh.allMapped (e1.ctxAt 1) 0 (2 ^ 21) = true ∧
    (e1.exports.filter (fun x => x.ctx = 1 && !x.revoked)).length < 256 ∧ tRuns i1 0 2 (w 3 ++ [0xFFF]) false = true ∧
    (match i1.fresh.importedExport 0 with
     | .ok x => decide (x.kind = 1) && !i1.fresh.windowMeets (i1.ctxAt 1) (2 ^ 40) x.len
     | .error _ => false) = true ∧
    tRuns i 0 2 (w 3 ++ [0xFFF]) false = true ∧ (i.ctxAt 1).freeSlot.isSome = true ∧
    (match i.fresh.importedExport 0 with
     | .ok e => decide (e.kind ≠ 1 ∧ e.die ≠ (i.ctxAt 1).die)
     | .error _ => false) = true ∧
    tRuns u 0 3 (w 2) false = true ∧ ((u.ctxAt 1).imports.find? (fun p => p.1 = bits (u.arg 0 1) 32 16)).any (fun p => u.arg 0 1 = handleOf p.2.kind p.2.vdie (bits (u.arg 0 1) 32 16) p.2.tag) = true ∧
    tRuns (tMb 0 4 [78]) 0 4 (w 1) false = true ∧ ((tMb 0 4 [78]).fresh.exportOf 78).isSome = true ∧ tRuns (tMb 0 5 [1]) 0 5 (w 3) false = true := by decide +kernel

theorem witness_MailboxCommandsRun_migrate :
    let s := tMb 0 6 [1, 2 ^ 39, 1]
    let t := tMb 0 6 [1, 2 ^ 39, 0]
    let far := s.setDieAt 0 (s.dieAt 0)
    tRuns s 0 6 [w64, w64, 1] false = true ∧
    (match s.migrant 0, s.fresh.migrant 0 with
     | .ok p, .ok q => decide (p.1 = s.ctxAt 1 ∧ p = q) && !inTier p.2.pa (s.arg 0 2)
     | _, _ => false) = true ∧
    ({ far with allot := [(0x10000000, 1)] } : State).migrateDue 0 0x10000000000 = true ∧
    (match t.migrant 0 with
     | .ok p => inTier p.2.pa (t.arg 0 2)
     | .error _ => false) = true := by decide +kernel

theorem witness_MailboxCommandsRun_contexts :
    let w := fun n => List.replicate n w64
    let c := tMb 2 9 [0, 0x9000]
    tRuns (tMb 0 8 [1, 0, 1, 11, 0]) 0 8 (w 3 ++ [0xF, 0xFFFFFFFF]) false = true ∧ ((tMb 0 8 [1]).ctxAt 1).gossip.isSome = true ∧ tRuns (tMb 0 10 [1]) 0 10 (w 1) false = true ∧
    tRuns c 2 9 [7, w64] false = true ∧ c.mill.lock = true ∧ c.arg 2 1 % 64 = 0 ∧ c.arg 2 1 + 64 ≤ hbmBytes ∧ c.arg 2 0 < 2 ^ c.partLog 2 ∧ c.mill.dieUp.getLsbD 2 = true ∧
    c.fresh.ctxDescOk 2 (fun k => c.fresh.cohNat (physKey 2 (c.arg 2 1 + 8 * k)) 8) = true ∧ (c.partAt 2 0).ctx = none := by decide +kernel

theorem witness_MailboxCommandsRun_keys :
    let w := fun n => List.replicate n w64
    (tMb 0 (0x10 + 2 ^ 16) []).mill.ide = true ∧ tRuns (tMb 0 (0x10 + 2 ^ 16) []) 0 0x10 (w 8) true = true ∧ tRuns (tMb 0 (0x11 + 255 * 2 ^ 16) []) 0 0x11 [] true = true ∧
    tRuns (tMb 0 0x20 [1, 15, 0x4000, 0]) 0 0x20 [w64, 0xF, w64, w64] false = true ∧ ((tMb 0 0x20 [1, 15, 0x4000, 0]).fresh.ctxBytes ((tMb 0 0x20 [1]).ctxAt 1) 0x4000 0).isSome = true ∧
    tRuns (tMb 0 0x21 [1]) 0 0x21 (w 6) false = true ∧ tRuns (tMb 0 0x40 [3100]) 0 0x40 [0xFFF] false = true ∧ (1500 ≤ (tMb 0 0x40 [1500]).arg 0 0) := by decide +kernel

theorem witness_MailboxCommandsRun_starts :
    let i := tMb 0 0x30 [0, 0]
    let d := tMb 0 7 [3]
    i.mbDue 0 0x30 = true ∧ i.argsOk 0 [w64, w64] = true ∧ i.qual 0 = 0 ∧ i.ctxs.any (fun p => p.2.live) = true ∧
    (∀ p ∈ ({ i with ctxs := [] } : State).ctxs, p.2.live = false) ∧ tRuns d 0 7 [3] false = true ∧ d.pdie 3 = some 3 ∧ (d.dieAt 3).warm = false ∧ d.mill.dieUp.getLsbD 3 = true ∧
    (d.dieAt 3).lost = false ∧ (d.fresh.quiesce 3).quiesced 3 = true := by decide +kernel

theorem witness_MailboxCommandsRun_waits :
    let m := tMb 0 7 [0]
    let q := { m.setCtx { m.ctxAt 1 with out := true } with flagMsgs := [{ die := 0, core := 0, pid := 0, exp := 78, home := 1, idx := 0, val := 1 }] }
    tRuns q 0 7 [3] false = true ∧ q.pdie 0 = some 0 ∧ (q.fresh.quiesce 0).quiesced 0 = false := by decide +kernel

theorem witness_ModuleEvents : let s := tMod .c
    let b := tMb 3 4 []
    s.barOpen = true ∧ (s.dieAt 3).mbox.busy = false ∧ (b.dieAt 3).mbox.busy = true ∧ opcListed (0xFF0040 % 2 ^ 16) = true ∧ opcListed (0x12 % 2 ^ 16) = false ∧ s.mill.lock = true ∧
    ({ s with mill := { s.mill with lock := false } } : State).barOpen = true ∧ State.reset.mill.on = false ∧
    (let d : State := { s with mill := { s.mill with stage := 1, dieUp := 0 } }
     (d.dieAt 3).warm = false ∧ d.mill.on = true ∧ d.mill.stage = 1 ∧ d.mill.trained.contains 3 = false) ∧
    ((s.setDieAt 3 { warm := true }).dieAt 3).warm = true ∧ s.mill.on = true ∧ (tMb 0 0x30 []).flashing = true := by decide +kernel

theorem witness_ModuleEvents_cxl : (tMod .c).mill.dieUp.getLsbD 3 = true ∧ 0 + ([] : List Byte).length ≤ min (Config.cxlWindow 3) (2 ^ 36) := ⟨by decide +kernel, by simp⟩

theorem witness_ModuleEvents_thermal : ([0, 0, 0, 0, 0, 110] : List Nat).length = 6 ∧ 110 ≤ ([0, 0, 0, 0, 0, 110] : List Nat).foldl max 0 ∧
    ([109, 0, 0, 0, 0, 0] : List Nat).foldl max 0 < 110 := by decide +kernel

theorem witness_ModuleEvents_ageing : let s := { tMod .c with now := 10 * clkPerMs }
    (s.coreAt 2 159).task = none ∧ tGet 0 (s.dieAt 2).idleFrom 159 + 10 * clkPerMs ≤ s.now ∧ s.mayRetire 2 159 = true ∧ s.fresh.freeSpare 2 = some 160 ∧
    (s.setDieAt 2 { s.dieAt 2 with failed := upto 160 8 }).fresh.freeSpare 2 = none ∧ (s.setDieAt 2 { s.dieAt 2 with failed := upto 160 8 }).mayRetire 2 159 = true := by decide +kernel

theorem witness_ModuleEvents_map : let s := ({ tMod .c with ctxs := [] } : State)
    s.mill.on = true ∧ mapOk 0xBA980 = true ∧ s.mapQuiet 0xBA980 = true ∧ mapOk 0xBA890 = true ∧ s.mapQuiet 0xBA890 = true ∧
    bits 0xBA890 4 16 * 16 ≠ bits s.mill.dieMap.toNat 4 16 * 16 ∧ s.ctxs.any (fun p => p.2.live && p.2.die = 3 && !p.2.out) = false ∧
    (s.dieLines 3).any (fun ln => s.entryBusy 3 ln) = false := by decide +kernel

/-! ### Every encoded row of the opcode table: its word, from the fields of Tables 4.1, 4.2 and 4.4 -/

/-- Whether each word, given by its fixed bits and its fields' places and values, decodes to its instruction. -/
def tDecode (rows : List (Nat × Nat × List (Nat × Nat) × Instr)) : Bool :=
  rows.all fun r => decide (decodeTableWord r.1 (r.2.2.1.foldl (fun w f => w + f.2 * 2 ^ f.1) r.2.1) = some r.2.2.2)

theorem test_encodings_1 : tDecode [
  (16, 0x0, [], .nop16),
  (16, 0x2, [(11, 1), (6, 3)], .mv16 1 3),
  (16, 0x4, [(11, 1), (6, 31)], .add16 1 31),
  (16, 0x6, [(11, 31), (6, 3)], .sub16 31 3),
  (16, 0x8, [(11, 1), (6, 3)], .addi16 1 3),
  (16, 0xA, [(11, 1), (6, 31)], .li16 1 31),
  (16, 0x3C, [(6, 1023)], .ext 1023),
  (16, 0x3E, [(6, 1)], .fmt 1),
  (32, 0x3, [(26, 1), (20, 63), (14, 5), (8, 7)], .add 1 63 5 7),
  (32, 0x803, [(26, 63), (20, 3), (14, 5), (8, 7)], .sub 63 3 5 7),
  (32, 0x1003, [(26, 1), (20, 3), (14, 63), (8, 7)], .and 1 3 63 7),
  (32, 0x1803, [(26, 1), (20, 63), (14, 5), (8, 7)], .or 1 63 5 7),
  (32, 0x2003, [(26, 63), (20, 3), (14, 5), (8, 7)], .xor 63 3 5 7),
  (32, 0x2803, [(26, 1), (20, 3), (14, 63), (8, 7)], .sll 1 3 63 7),
  (32, 0x3003, [(26, 1), (20, 63), (14, 5), (8, 7)], .srl 1 63 5 7),
  (32, 0x3803, [(26, 63), (20, 3), (14, 5), (8, 7)], .sra 63 3 5 7),
  (32, 0x5, [(26, 1), (20, 3), (14, 63), (8, 7)], .mul 1 3 63 7),
  (32, 0x805, [(26, 1), (20, 63), (14, 5), (8, 7)], .mulh 1 63 5 7),
  (32, 0x1005, [(26, 63), (20, 3), (14, 5), (8, 7)], .mulhu 63 3 5 7),
  (32, 0x1805, [(26, 1), (20, 3), (14, 63), (8, 7)], .min 1 3 63 7),
  (32, 0x2005, [(26, 1), (20, 63), (14, 5), (8, 7)], .max 1 63 5 7),
  (32, 0x2805, [(26, 63), (20, 3), (14, 5), (8, 7)], .minu 63 3 5 7),
  (32, 0x3005, [(26, 1), (20, 3), (14, 63), (8, 7)], .maxu 1 3 63 7),
  (32, 0x7, [(26, 1), (20, 63), (11, 5), (8, 7)], .addi 1 63 5 7),
  (32, 0x9, [(26, 63), (20, 3), (11, 5), (8, 7)], .andi 63 3 5 7),
  (32, 0xB, [(26, 1), (20, 3), (11, 511), (8, 7)], .ori 1 3 511 7),
  (32, 0xD, [(26, 1), (20, 63), (11, 5), (8, 7)], .xori 1 63 5 7),
  (32, 0xF, [(26, 63), (20, 3), (11, 5), (8, 7)], .slli 63 3 5 7),
  (32, 0x2000F, [(26, 1), (20, 3), (11, 63), (8, 7)], .srli 1 3 63 7),
  (32, 0x4000F, [(26, 1), (20, 63), (11, 5), (8, 7)], .srai 1 63 5 7),
  (32, 0x11, [(26, 63), (11, 3), (8, 5)], .lui 63 3 5)] = true := by decide +kernel

theorem test_encodings_2 : tDecode [
  (32, 0x13, [(29, 1), (20, 3), (14, 63), (11, 5), (8, 1)], .cmp 1 3 63 5 1),
  (32, 0x15, [(29, 1), (26, 5), (20, 5), (11, 7), (8, 7)], .cmpi 1 5 5 7 7),
  (32, 0x17, [(29, 7), (26, 3), (23, 5), (8, 7)], .pand 7 3 5 7),
  (32, 0x817, [(29, 1), (26, 3), (23, 7), (8, 7)], .por 1 3 7 7),
  (32, 0x1017, [(29, 1), (26, 7), (23, 5), (8, 7)], .pxor 1 7 5 7),
  (32, 0x1817, [(29, 7), (26, 3), (23, 5), (8, 7)], .pandn 7 3 5 7),
  (32, 0x2017, [(29, 1), (26, 3), (23, 7), (8, 7)], .pnot 1 3 7 7),
  (32, 0x19, [(26, 1), (20, 63), (17, 5), (11, 7), (8, 7)], .ld 1 63 5 7 7),
  (32, 0x1B, [(26, 63), (20, 3), (17, 5), (11, 63), (8, 1)], .ldSp 63 3 5 63 1),
  (32, 0x1D, [(26, 1), (20, 3), (17, 7), (11, 7), (8, 1)], .st 1 3 7 7 1),
  (32, 0x1F, [(26, 1), (20, 63), (17, 6), (11, 7), (8, 7)], .stSp 1 63 6 7 7),
  (32, 0x21, [(26, 63), (20, 3), (17, 4), (15, 2), (13, 1), (8, 3)], .atom 63 3 4 2 1 3),
  (32, 0x23, [(26, 1), (20, 3), (15, 2), (13, 3), (8, 1)], .cas 1 3 2 3 1),
  (32, 0x25, [(26, 1), (20, 63), (17, 7), (13, 3), (8, 3)], .atomSp 1 63 7 0 3 3),
  (32, 0x27, [(26, 63), (20, 3), (15, 1), (13, 3), (8, 1)], .casSp 63 3 1 3 1),
  (32, 0x29, [(11, 3), (8, 3)], .fence 3 3),
  (32, 0x2B, [(26, 1), (20, 63), (8, 5)], .flsig 1 63 5),
  (32, 0x2D, [(26, 63), (20, 3), (8, 5)], .tkwait 63 3 5),
  (32, 0x31, [(29, 1), (11, 3), (8, 7)], .pbr 1 3 7),
  (32, 0x33, [(29, 1), (26, 7), (8, 5)], .br 1 7 5),
  (32, 0x2000033, [(29, 7), (26, 3), (8, 5)], .brL 7 3 5),
  (32, 0x35, [(29, 1), (20, 3), (8, 7)], .pbrR 1 3 7),
  (32, 0x37, [(28, 1), (26, 3), (25, 1), (20, 7), (11, 511), (8, 3)], .evterm 1 3 1 7 511 3),
  (32, 0x39, [(27, 31), (11, 3), (8, 5)], .evinc 31 3 5),
  (32, 0x3B, [(27, 1), (8, 3)], .evwait 1 3),
  (32, 0x41, [(26, 1), (20, 63), (14, 5), (8, 7)], .barArrive 1 63 5 7),
  (32, 0x841, [(26, 63), (20, 3), (14, 5), (8, 7)], .barWait 63 3 5 7),
  (32, 0x1041, [(26, 1), (20, 3), (14, 63), (8, 7)], .barWait4 1 3 63 7),
  (32, 0x43, [(26, 1), (20, 63), (14, 5), (8, 7)], .flagAdd 1 63 5 7),
  (32, 0x843, [(26, 63), (20, 3), (14, 5), (8, 7)], .flagWait 63 3 5 7),
  (32, 0x45, [(26, 1), (20, 3), (14, 63), (8, 7)], .chunk 1 3 63 7)] = true := by decide +kernel

theorem test_encodings_3 : tDecode [
  (32, 0x47, [(26, 1), (20, 63), (14, 5), (8, 7)], .tlaunch 1 63 5 7),
  (32, 0x847, [(20, 63), (8, 3)], .tdone 63 3),
  (32, 0x1047, [(8, 1)], .tsignal 1),
  (32, 0x61, [(27, 1), (22, 31), (17, 5), (11, 7), (8, 7)], .vaddF32 1 31 5 7 7),
  (32, 0x4061, [(27, 31), (22, 3), (17, 5), (11, 7), (8, 1)], .vsubF32 31 3 5 7 1),
  (32, 0x8061, [(27, 1), (22, 3), (17, 31), (11, 7), (8, 1)], .vmulF32 1 3 31 7 1),
  (32, 0xC061, [(27, 1), (22, 31), (17, 5), (11, 7), (8, 7)], .vminF32 1 31 5 7 7),
  (32, 0x10061, [(27, 31), (22, 3), (17, 5), (11, 7), (8, 1)], .vmaxF32 31 3 5 7 1),
  (32, 0x14061, [(27, 1), (22, 3), (11, 7), (8, 7)], .vabsF32 1 3 7 7),
  (32, 0x18061, [(27, 1), (22, 31), (11, 5), (8, 7)], .vnegF32 1 31 5 7),
  (32, 0x63, [(27, 31), (22, 3), (17, 5), (11, 7), (8, 1)], .vaddI32 31 3 5 7 1),
  (32, 0x4063, [(27, 1), (22, 3), (17, 31), (11, 7), (8, 1)], .vsubI32 1 3 31 7 1),
  (32, 0x8063, [(27, 1), (22, 31), (17, 5), (11, 7), (8, 7)], .vmulI32 1 31 5 7 7),
  (32, 0xC063, [(27, 31), (22, 3), (17, 5), (11, 7), (8, 1)], .vmulhI32 31 3 5 7 1),
  (32, 0x10063, [(27, 1), (22, 3), (17, 31), (11, 7), (8, 1)], .vminI32 1 3 31 7 1),
  (32, 0x14063, [(27, 1), (22, 31), (17, 5), (11, 7), (8, 7)], .vmaxI32 1 31 5 7 7),
  (32, 0x18063, [(27, 31), (22, 3), (17, 5), (11, 7), (8, 1)], .vminuI32 31 3 5 7 1),
  (32, 0x1C063, [(27, 1), (22, 3), (17, 31), (11, 7), (8, 1)], .vmaxuI32 1 3 31 7 1),
  (32, 0x65, [(27, 1), (22, 31), (17, 5), (11, 7), (8, 7)], .vand 1 31 5 7 7),
  (32, 0x4065, [(27, 31), (22, 3), (17, 5), (11, 7), (8, 1)], .vor 31 3 5 7 1),
  (32, 0x8065, [(27, 1), (22, 3), (17, 31), (11, 7), (8, 1)], .vxor 1 3 31 7 1),
  (32, 0xC065, [(27, 1), (22, 31), (17, 5), (11, 7), (8, 7)], .vandn 1 31 5 7 7),
  (32, 0x10065, [(27, 31), (22, 3), (17, 5), (11, 7), (8, 1)], .vsll 31 3 5 7 1),
  (32, 0x14065, [(27, 1), (22, 3), (17, 31), (11, 7), (8, 1)], .vsrl 1 3 31 7 1),
  (32, 0x18065, [(27, 1), (22, 31), (17, 5), (11, 7), (8, 7)], .vsra 1 31 5 7 7),
  (32, 0x67, [(27, 31), (22, 3), (17, 5), (12, 31), (8, 1)], .vfmaF32 31 3 5 31 1),
  (32, 0x867, [(27, 1), (22, 3), (17, 31), (12, 7), (8, 1)], .vfmsF32 1 3 31 7 1),
  (32, 0x69, [(27, 1), (22, 31), (17, 5), (12, 7), (8, 7)], .vfnmaF32 1 31 5 7 7),
  (32, 0x869, [(27, 31), (22, 3), (17, 5), (12, 31), (8, 1)], .vfnmsF32 31 3 5 31 1),
  (32, 0x6B, [(27, 1), (22, 3), (11, 7), (8, 7)], .vrcp 1 3 7 7),
  (32, 0x406B, [(27, 1), (22, 31), (11, 5), (8, 7)], .vrsqrt 1 31 5 7)] = true := by decide +kernel

theorem test_encodings_4 : tDecode [
  (32, 0x806B, [(27, 31), (22, 3), (11, 5), (8, 7)], .vexp2 31 3 5 7),
  (32, 0xC06B, [(27, 1), (22, 3), (11, 7), (8, 7)], .vlog2 1 3 7 7),
  (32, 0x6D, [(28, 1), (23, 31), (18, 5), (15, 3), (12, 7), (8, 3)], .vcmpF32 1 31 5 3 7 3),
  (32, 0x6F, [(28, 15), (23, 3), (18, 5), (15, 5), (12, 1), (8, 3)], .vcmpI32 15 3 5 5 1 3),
  (32, 0x71, [(27, 1), (22, 3), (17, 31), (12, 7), (8, 1)], .vlut3 1 3 31 7 1),
  (32, 0x73, [(27, 1), (22, 31), (17, 5), (11, 7), (8, 7)], .vfsl 1 31 5 7 7),
  (32, 0x75, [(27, 31), (22, 3), (17, 5), (11, 63), (8, 1)], .vfsr 31 3 5 63 1),
  (32, 0x77, [(27, 1), (22, 3), (11, 63), (8, 7)], .vrotl 1 3 63 7),
  (32, 0x79, [(27, 1), (22, 31), (11, 5), (8, 7)], .vpopc 1 31 5 7),
  (32, 0x4079, [(27, 31), (22, 3), (11, 5), (8, 7)], .vclz 31 3 5 7),
  (32, 0x8079, [(27, 1), (22, 3), (11, 7), (8, 7)], .vbrev 1 3 7 7),
  (32, 0x7B, [(27, 1), (22, 31), (11, 5), (8, 7)], .vpart 1 31 5 7),
  (32, 0x7D, [(27, 31), (22, 3), (16, 5), (15, 1), (12, 1), (8, 3)], .vgath 31 3 5 1 1 3),
  (32, 0x7F, [(27, 1), (22, 3), (16, 63), (15, 1), (12, 1), (8, 7)], .vscat 1 3 63 1 1 7),
  (32, 0x81, [(27, 1), (21, 63), (20, 1), (14, 7), (8, 7)], .vld32 1 63 1 7 7),
  (32, 0x20081, [(27, 31), (21, 3), (20, 1), (14, 7), (8, 1)], .vldB 31 3 1 7 1),
  (32, 0x83, [(27, 1), (21, 3), (20, 1), (14, 7), (8, 1)], .vst32 1 3 1 7 1),
  (32, 0x85, [(27, 1), (22, 31), (17, 5), (11, 7), (8, 7)], .vslideup 1 31 5 7 7),
  (32, 0x87, [(27, 31), (22, 3), (17, 5), (11, 63), (8, 1)], .vslidedn 31 3 5 63 1),
  (32, 0x89, [(27, 1), (22, 3), (17, 31), (11, 7), (8, 1)], .vperm 1 3 31 7 1),
  (32, 0x8B, [(27, 1), (22, 31), (14, 5), (11, 7), (8, 7)], .vred 1 31 5 7 7),
  (32, 0x8D, [(27, 31), (22, 3), (14, 5), (11, 7), (8, 1)], .vscan 31 3 5 7 1),
  (32, 0x8F, [(27, 1), (22, 3), (16, 63), (13, 7), (8, 1)], .vcvtTo 1 3 63 7 1),
  (32, 0x108F, [(27, 1), (22, 31), (16, 5), (13, 7), (8, 7)], .vcvtFrom 1 31 5 7 7),
  (32, 0x91, [(27, 31), (22, 3), (17, 5), (11, 63), (8, 1)], .vmxq 31 3 5 63 1),
  (32, 0x93, [(27, 1), (22, 3), (16, 63), (13, 7), (8, 1)], .vsrc 1 3 63 7 1),
  (32, 0x95, [(28, 1), (24, 15), (20, 5), (8, 7)], .qand 1 15 5 7),
  (32, 0x895, [(28, 15), (24, 3), (20, 5), (8, 7)], .qor 15 3 5 7),
  (32, 0x1095, [(28, 1), (24, 3), (20, 15), (8, 7)], .qxor 1 3 15 7),
  (32, 0x1895, [(28, 1), (24, 15), (20, 5), (8, 7)], .qandn 1 15 5 7),
  (32, 0x2095, [(28, 15), (24, 3), (20, 5), (8, 7)], .qnot 15 3 5 7)] = true := by decide +kernel

theorem test_encodings_5 : tDecode [
  (32, 0x2895, [(28, 1), (24, 3), (20, 15), (8, 7)], .qmov 1 3 15 7),
  (32, 0x2000097, [(18, 1), (8, 7)], .vsetvlImm 1 7),
  (32, 0x97, [(26, 63), (8, 3)], .vsetvlReg 63 3),
  (32, 0x99, [(27, 1), (22, 3), (16, 63), (8, 7)], .vmv 1 3 63 7),
  (32, 0x899, [(27, 1), (16, 63), (8, 5)], .vbcast 1 63 5),
  (32, 0x9B, [(27, 31), (22, 3), (17, 5), (11, 7), (8, 1)], .vsel 31 3 5 7 1),
  (32, 0xC1, [(29, 1), (26, 3), (20, 63), (8, 7)], .mnest 1 3 63 7),
  (32, 0xC3, [(26, 1), (20, 63), (19, 1), (18, 1), (8, 7)], .mopa 1 63 1 1 7),
  (32, 0x8C3, [(26, 63), (20, 3), (19, 1), (18, 1), (8, 1)], .mopb 63 3 1 1 1),
  (32, 0x10C3, [(26, 1), (20, 3), (19, 1), (18, 1), (8, 1)], .mopm 1 3 1 1 1),
  (32, 0xC5, [(28, 1), (22, 63), (8, 5)], .mma 1 63 5),
  (32, 0xC7, [(28, 15), (22, 3), (8, 5)], .mmas 15 3 5),
  (32, 0xC9, [(28, 1), (22, 3), (8, 7)], .mgo 1 3 7),
  (32, 0xCB, [(26, 1), (20, 63), (14, 5), (8, 7)], .mfmt 1 63 5 7),
  (32, 0x8CB, [(20, 63), (14, 3), (8, 5)], .mfmtPool 63 3 5),
  (32, 0xCD, [(8, 1)], .mfmtcommit 1),
  (32, 0xCF, [(24, 1), (18, 63), (11, 1), (8, 7)], .chbuild 1 63 1 7),
  (32, 0xD1, [(24, 255), (18, 3), (12, 5), (11, 1), (8, 1)], .chclose 255 3 5 1 1),
  (32, 0xD3, [(24, 1), (18, 3), (8, 7)], .chstat 1 3 7),
  (32, 0xD5, [(24, 1), (18, 63), (12, 5), (8, 7)], .chsplice 1 63 5 7),
  (32, 0xD7, [(24, 255), (8, 3)], .chhalt 255 3),
  (32, 0x10D7, [(24, 1), (8, 3)], .chthaw 1 3),
  (32, 0x20D7, [(24, 1), (8, 7)], .chrel 1 7),
  (32, 0xD9, [(24, 255), (18, 3), (12, 5), (11, 1), (8, 1)], .chread 255 3 5 1 1),
  (32, 0xE1, [(26, 1), (20, 3), (19, 1), (18, 1), (11, 9), (8, 7)], .cp 1 3 1 1 9 7),
  (32, 0xE3, [(26, 1), (20, 63), (19, 1), (18, 1), (11, 63), (8, 3)], .cpR 1 63 1 1 63 3),
  (32, 0xE5, [(26, 63), (19, 1), (8, 5)], .cpD2d 63 1 5),
  (32, 0x100E5, [(26, 1), (19, 1), (8, 7)], .cpD3d 1 1 7),
  (32, 0x200E5, [(26, 1), (19, 1), (8, 5)], .cpDCvt 1 1 5),
  (32, 0x300E5, [(26, 63), (19, 1), (8, 5)], .cpDGath 63 1 5),
  (32, 0x400E5, [(26, 1), (19, 1), (8, 7)], .cpDScat 1 1 7)] = true := by decide +kernel

theorem test_encodings_6 : tDecode [
  (32, 0x500E5, [(26, 1), (19, 1), (8, 5)], .cpDFill 1 1 5),
  (32, 0x600E5, [(26, 63), (19, 1), (8, 5)], .cpDRemote 63 1 5),
  (32, 0xE7, [(26, 1), (20, 3), (14, 63), (8, 7)], .stmap 1 3 63 7),
  (32, 0x8E7, [(26, 1), (8, 7)], .stunmap 1 7),
  (32, 0x10E7, [(26, 63), (20, 3), (8, 5)], .stflush 63 3 5),
  (32, 0x18E7, [(26, 1), (20, 3), (8, 7)], .stinv 1 3 7),
  (32, 0xE9, [(20, 1), (14, 63), (8, 5)], .barArriveD 1 63 5),
  (32, 0xEB, [(20, 63), (14, 3), (8, 5)], .hlaunch 63 3 5),
  (32, 0xED, [(8, 1)], .hstop 1),
  (32, 0x8ED, [(26, 1), (8, 7)], .hstat 1 7),
  (32, 0xF1, [(26, 63), (20, 3), (14, 5), (8, 7)], .hballoc 63 3 5 7),
  (32, 0x8F1, [(20, 1), (14, 3), (8, 7)], .hbgate 1 3 7),
  (32, 0x10F1, [(26, 1), (20, 63), (8, 5)], .hbpoll 1 63 5),
  (32, 0x18F1, [(20, 63), (8, 3)], .hbrel 63 3),
  (32, 0x20F1, [(26, 1), (20, 3), (8, 7)], .hbstat 1 3 7),
  (32, 0x28F1, [(26, 1), (20, 63), (8, 5)], .hbcfg 1 63 5),
  (32, 0xF3, [(26, 63), (20, 3), (14, 5), (8, 7)], .hbput 63 3 5 7),
  (32, 0x8F3, [(26, 1), (20, 3), (14, 63), (8, 7)], .prgrad 1 3 63 7),
  (32, 0x10F3, [(26, 1), (20, 63), (14, 5), (8, 7)], .gdep 1 63 5 7),
  (32, 0x18F3, [(26, 63), (20, 3), (14, 5), (8, 7)], .prread 63 3 5 7),
  (32, 0x20F3, [(26, 1), (20, 3), (14, 63), (8, 7)], .gread 1 3 63 7),
  (32, 0xF5, [(26, 1), (20, 63), (14, 5), (8, 7)], .prsync 1 63 5 7),
  (32, 0x8F5, [(26, 63), (20, 3), (14, 5), (8, 7)], .prrule 63 3 5 7),
  (32, 0x10F5, [(29, 1), (20, 3), (14, 63), (8, 7)], .gspread 1 3 63 7),
  (32, 0x18F5, [(26, 1), (20, 63), (8, 5)], .gmass 1 63 5),
  (32, 0x20F5, [(26, 63), (20, 3), (8, 5)], .gcfg 63 3 5),
  (32, 0xF9, [(26, 1), (14, 3), (8, 7)], .csrr 1 3 7),
  (32, 0x8F9, [(26, 1), (14, 4095), (8, 5)], .csrw 1 4095 5),
  (32, 0xFB, [(20, 63), (8, 3)], .trap 63 3),
  (32, 0x8FB, [(8, 1)], .eret 1),
  (32, 0x10FB, [(8, 1)], .halt 1)] = true := by decide +kernel

/-- The six micro-instructions of Table 12.4, whose operation is in bits [63:60]. -/
theorem test_encodings_helper : ∀ p ∈ [
  (6 * 2 ^ 32 + 0x20000, Instr.hcp 6 0x20000), (1 * 2 ^ 60 + 1 * 2 ^ 4 + 15, .hwait 1 15), (2 * 2 ^ 60 + 4095 * 2 ^ 48 + 4 * 2 ^ 32 + 0xFFFF * 2 ^ 16 + 16, .hloop 4095 4 0xFFFF 16),
  (3 * 2 ^ 60 + 1 * 2 ^ 38 + 1 * 2 ^ 37 + 31 * 2 ^ 32 + 0xFFFFFFFF, .hflag 1 1 31 0xFFFFFFFF), (4 * 2 ^ 60 + 0xFFFFF, .hjmp 0xFFFFF), (5 * 2 ^ 60 + 1, .hend 1)],
  decodeTableWord 64 p.1 = some p.2 := by decide +kernel

/-! ### Ill-formed instructions are refused by the check, and stop nowhere but at exec's own fault -/

theorem smoke_wellFormed : ([.cmp 1 2 0 6 0, .cmp 1 2 0 7 0, .cmpi 1 6 2 0 0, .cmpi 1 7 2 0 0, .st 1 2 1 0 0, .st 1 2 3 0 0, .st 1 2 5 0 0, .stSp 1 2 1 0 0, .stSp 1 2 3 0 0, .stSp 1 2 5 0 0,
    .atom 1 2 0 3 0 0, .atom 2 2 0 2 0 0, .atom 2 2 7 1 0 0, .atomSp 1 2 0 3 0 0, .atomSp 2 2 7 2 0 0, .cas 2 3 3 0 0, .casSp 2 3 3 0 0, .fence 4 0, .fence 7 0, .vcmpF32 1 2 3 4 0 0, .vcmpI32 1 2 3 6 0 0,
    .vred 1 2 6 0 0, .vred 1 2 7 0 0, .vscan 1 2 6 0 0] : List Instr).all (fun i => !i.wellFormed) = true := by decide +kernel

theorem smoke_exec : (match exec (.cmp 1 2 0 6 0) (tAt .c), exec (.vred 1 2 7 0 0) (tAt .v) with
    | .fault .illFormed, .fault .illFormed => true
    | _, _ => false) = true := by decide +kernel

/-- Words that no row of the map encodes: an unassigned compact opcode and major, and a reserved minor. -/
theorem test_reserved_words : decodeTableWord 16 0x000C = none ∧ decodeTableWord 16 0x0040 = none ∧ decodeTableWord 32 (0x13 + 6 * 2 ^ 11) = none ∧
    decodeTableWord 32 (0x13 + 1 * 2 ^ 26) = none ∧ decodeTableWord 64 (6 * 2 ^ 60) = none ∧ decodeTableWord 64 (2 * 2 ^ 60 + 1) = none := by decide +kernel

/-! ### A step runs the instruction placed for it -/

/-- The state in which the current stream's next turn runs, with no turn on the tape. -/
def tClk (s : State) : State := ({ s with now := max (s.now + 1) s.me.nextIssue } : State).clkStart

theorem witness_StepRunsDecoded : let s := State.reset.withFetchWord 32 (0x3 + 5 * 2 ^ 26 + 6 * 2 ^ 20 + 7 * 2 ^ 14)
    s.tape = [] ∧ (tClk s).me.phase = .body ∧ decode (tClk s).unitWord = .ok (.add 5 6 7 0) ∧
    (tHead 0x30FF 0).tape = [] ∧ (tClk (tHead 0x30FF 0)).me.phase = .header ∧ (tClk State.reset).me.phase = .ended := by decide +kernel

theorem witness_StepRunsDecoded_bad : let s := State.reset.withFetchWord 16 0x000C
    let a := tClk s
    s.tape = [] ∧ a.me.phase = .body ∧ decode a.unitWord = .error .unCompact ∧ a.unitWord % 64 ≠ 0x3E ∧ s.curOk = true ∧ a.mayIssue = true := by decide +kernel

theorem witness_StepRunsDecoded_turns :
    let e : State := { tAt .c {} 0x3 with tape := [⟨3, .engine ⟨0, 0, .c⟩⟩] }
    let h := State.reset.withFetchWord 64 (5 * 2 ^ 60)
    let v : State := { ({ e with tape := [], now := e.now + 3 } : State).clkStart with cur := ⟨0, 0, .c⟩ }
    let x : State := { ({ h with tape := [], now := h.now + 0 } : State).clkStart with cur := ⟨0, 0, .x⟩ }
    v.me.phase = .body ∧ decode v.unitWord = .ok (.add 0 0 0 0) ∧
    isEvent .powerGood = true ∧ h.tape = [⟨0, .helper 0 0⟩] ∧ x.helperWord = some (5 * 2 ^ 60) ∧ decodeHelper (5 * 2 ^ 60) = some (.hend 0) := by
  decide +kernel

theorem witness_EncodedInstructionsDecode : (Instr.ld 63 63 7 63 7).wellFormed = true ∧ encode (.ld 63 63 7 63 7) = some (32, 0xFFFFFF19) := by decide +kernel

theorem witness_DecodedWordsAreEncodings : (decode 0xFFFFFF19).toOption = some (.ld 63 63 7 63 7) ∧ decodeHelper (5 * 2 ^ 60) = some (.hend 0) := by decide +kernel

theorem witness_EveryInstructionRuns : State.reset.tape = [] ∧ State.reset.curOk = true := by decide +kernel

theorem witness_StepKeepsInv : State.reset.Inv ∧ (match step State.reset with
    | .next _ => true
    | _ => false) = true := ⟨rfl, by decide +kernel⟩

/-! ### The spec's own examples -/

/-- 2^64 − 1 plus 2 wraps to 1 (R99). -/
theorem test_add_wraps : after (.add 5 3 4 0) (tX .c [(3, 0xFFFFFFFFFFFFFFFF), (4, 2)]) (fun t => decide (tGet 0 t.me.x 5 = 1)) = true := by decide +kernel

/-- A write to s0 is discarded (R79). -/
theorem test_s0_discards : after (.addi 0 3 1 0) (tX .c [(3, 7)]) (fun t => decide (tGet 0 t.me.x 0 = 0)) = true := by decide +kernel

/-- The high half of (−1) × 2 is −1 signed and 1 unsigned (R99). -/
theorem test_mulh_signs : after (.mulh 5 3 4 0) (tX .c [(3, 0xFFFFFFFFFFFFFFFF), (4, 2)]) (fun t => decide (tGet 0 t.me.x 5 = 0xFFFFFFFFFFFFFFFF)) = true ∧
    after (.mulhu 5 3 4 0) (tX .c [(3, 0xFFFFFFFFFFFFFFFF), (4, 2)]) (fun t => decide (tGet 0 t.me.x 5 = 1)) = true := by decide +kernel

/-- `ltu` compares the sign-extended immediate as unsigned: 5 is below 0xFFFF…FF (R100). -/
theorem test_cmpi_ltu : after (.cmpi 1 4 3 511 0) (tX .c [(3, 5)]) (fun t => t.me.p.getLsbD 1) = true := by decide +kernel

/-- `cas` of a word that is not the compare value lands it and leaves it (R108). -/
theorem test_cas_differs : let s := tWords (tX .c [(3, 0x5000), (4, 1), (5, 9)]) 0x5000 [7]
    after (.cas 4 3 1 0 0) (tOut s (.cas 4 3 1 0 0) 0x5000) (fun t => decide (tGet 0 t.me.x 4 = 7) && decide (t.cohNat 0x5000 8 = 7)) = true := by decide +kernel

/-- A misaligned load traps with the memory class, subcode MISALIGN, at its address, and lands nothing (R102). -/
theorem test_ld_misaligned : after (.ld 5 3 4 0 0) (tX .c [(3, 0x5002)]) (fun t => decide (t.me.trap.map (fun r => (r.cls, r.sub, r.addr)) = some (3, 3, 0x5002)) && decide (tGet 0 t.me.x 5 = 0)) = true := by
  decide +kernel

/-- With vl = 16, `vslideup v2, v1, v1, 1` gives v2[0] = v1[15] and v2[1] = v1[0] (R155). -/
theorem test_vslideup_rotates : let s := tAt .v (tLanes 1 ((upto 100 16).map (BitVec.ofNat 32)) { vl := 16 })
    after (.vslideup 2 1 1 1 0) s (fun t => decide (tGet 0 t.myCore.vr 128 = 115) && decide (tGet 0 t.myCore.vr 129 = 100)) = true := by decide +kernel

/-- The tree of 2^24, 1, 1, 1 gives 0x4B800001, and the scan 0x4B800000 in every lane, each with NX (R164, R165). -/
theorem test_tree_and_scan : let s := tAt .v (tLanes 1 [0x4B800000, 0x3F800000, 0x3F800000, 0x3F800000] { vl := 4 })
    after (.vred 5 1 0 0 0) s (fun t => decide (tGet 0 t.myCore.vr 320 = 0x4B800001) && decide (t.myCore.fpflags ≠ 0)) = true ∧
    after (.vscan 6 1 0 0 0) s (fun t => decide ((upto 384 4).map (tGet 0 t.myCore.vr) = [0x4B800000, 0x4B800000, 0x4B800000, 0x4B800000])) = true := by decide +kernel

/-- Table 3.5, row 1: 5.5, 2.5 and −0.3 as mxf4 are the codes 7, 4 and 9 with the scale code 0x7F. -/
theorem test_vmxq_block : let s := tAt .v (tLanes 1 [0x40B00000, 0x40200000, 0xBE99999A] { vl := 3 })
    after (.vmxq 2 1 3 0x20 0) s (fun t => decide (tGet 0 t.myCore.vr 128 = 0x947) && decide (tGet 0 t.myCore.vr 192 = 0x7F)) = true := by decide +kernel

/-- 300 into f8p4 under RNE is 240 (0x7F) with SAT and NaN (0x80) without; 225 is 224 (R60, R69). -/
theorem test_round_f8p4 : (roundTo 0x0B (decodeF 0 0x43960000) 0 true false 0).1 = 0x7F ∧ (roundTo 0x0B (decodeF 0 0x43960000) 0 false false 0).1 = 0x80 ∧
    (roundTo 0x0B (decodeF 0 0x43610000) 0 true false 0).1 = 0x7E := by decide +kernel

/-- Where R65 flushes, the grid has no subnormals: 0.75 × 2^-126 by RNE goes up to 2^-126, and 0.25 × 2^-126 to 0 (R57). -/
theorem test_flush_grid : (roundTo 0 (decodeF 0 0x00600000) 0 true true 0).1 = 0x00800000 ∧ (roundTo 0 (decodeF 0 0x00200000) 0 true true 0).1 = 0 := by decide +kernel

/-- 2^24 plus the group value 141 is 16,777,356 in f32 (R66). -/
theorem test_group_into_acc : (accStep false 0x4B800000 (decodeF 0 0x430D0000, 0)).1 = 0x4B800046 := by decide +kernel

/-- Table 13.6: the first chunk of 1000 by a gang of 4 with MIN 8 is 125 from 0. -/
theorem test_chunk_first : let s := tWords (tX .c [(3, 0x5000), (4, 4 * 2 ^ 32 + 8)]) 0x5000 [0, 1000]
    after (.chunk 6 3 4 0) (tOut s (.chunk 6 3 4 0) 0x5000) (fun t => decide (tGet 0 t.me.x 6 = 0) && decide (tGet 0 t.me.x 7 = 125) && decide (t.cohNat 0x5000 8 = 125)) = true := by decide +kernel

/-- Table 13.6: later sizes of the same chunks. -/
theorem test_chunk_sizes : chunkSize 125 1000 8 4 = 110 ∧ chunkSize 235 1000 8 4 = 96 ∧ chunkSize 331 1000 8 4 = 84 ∧ chunkSize 998 1000 8 4 = 2 ∧ chunkSize 1000 1000 8 4 = 0 := by
  decide +kernel

/-- `hloop` that finds HLOOP = 0 loads CNT 4, counts, advances both offsets by 1024 and goes back 3 words (R236). -/
theorem test_hloop_loads : after (.hloop 3 4 16 16) (tHelp false) (fun t => decide (t.myCore.helper.hloop = 3) && decide (t.myCore.helper.hpc = 0x100 - 24) &&
    decide (bytesToNat (mRead t.myCore.scratch 0x1010 16) = 1024 * 2 ^ 64 + 1024)) = true := by decide +kernel

/-- A halving of a line of two quanta leaves one in the line and sends one (R360). -/
theorem test_halving : after (.halving 1 0) (tGos [] []) (fun t => decide (t.halves.length = 1) && decide (t.cohNat 0x800000FC 4 = wOf 24 1)) = true := by decide +kernel

/-- FEATACCEPT 0x8000000000000013 accepts features 0, 1 and 4, and locks (R377). -/
theorem test_features : let s := { tMod .c with mill := { (tMod .c).mill with feats := 0, lock := false } }
    after (.featacceptWrite 0x8000000000000013) s (fun t => decide (t.mill.feats = 0x13) && t.mill.lock) = true := by decide +kernel

/-- Its first update: a record with LRSCALE 1, W 1 and gradients 1.5 and 0.5 (here for every parameter, since 0 divided by 0 would set NV) comes to W 0.875, M 1, V 1, G +0, UPD and STEP 1, with no flag (R353, R354, R356). -/
theorem test_moment_rule :
    let ls : List Lane := [2 * 2 ^ 28 |> BitVec.ofNat 32, 2, 0, 0, 0x3F800000, 0, 0, 0, 0x3F800000] ++ List.replicate 55 0
    let arrived := recArrive (List.replicate 14 0x3F000000) (recArrive (List.replicate 14 0x3FC00000) ls)
    let r := recUpdate (some tMoment) arrived
    recFull arrived = true ∧ laneAt arrived 11 = 0x40000000 ∧ (upto 0 12).map (laneAt r) = [0x20000000, 2, 1, 1, 0x3F800000, 0, 0, 0, 0x3F600000, 0x3F800000, 0x3F800000, 0] := by
  decide +kernel

/-- Experts 5, 9 and 12 of weight 1 that return 2^24, 1 and 1 combine to 0x4B800000 in ascending order; two of weights 0.75 and 0.25 give 5.0 with the residual (R334). -/
theorem test_combine : (combineElem 0 0 [(0x3F800000, 0x4B800000), (0x3F800000, 0x3F800000), (0x3F800000, 0x3F800000)]).1 = 0x4B800000 ∧
    (combineElem 0 0 [(0x3F400000, 0x40800000), (0x3E800000, 0x41000000)]).1 = 0x40A00000 := by decide +kernel

/-- 244 into f8p4 by SR is 240 (0x7F) or NaN by the random bits against 4,194,304; 230 into f8p4x is 224 (0x7E) or infinity (0x7F) against 6,291,456 (R59, R60). -/
theorem test_stochastic_overflow : (roundTo 0x0B (decodeF 0 0x43740000) 4 false false 4194304).1 = 0x7F ∧ (roundTo 0x0B (decodeF 0 0x43740000) 4 false false 4194303).1 = 0x80 ∧
    (roundTo 0x13 (decodeF 0 0x43660000) 4 true false 6291456).1 = 0x7E ∧ (roundTo 0x13 (decodeF 0 0x43660000) 4 true false 6291455).1 = 0x7F := by decide +kernel

/-- Half of 6.0 is 3.0, and what stays is the rest (R360). -/
theorem test_halves : halfOf 0x40C00000 = 0x40400000 ∧ keepOf 0x40C00000 0x40400000 = 0x40400000 ∧ halfOf 0x00000003 = 0x00000001 ∧ keepOf 0x00000003 0x00000001 = 0x00000002 := by
  decide +kernel

/-- SHA-256 of "abc" (FIPS 180-4's example; log 40). -/
theorem test_sha256 : (sha256 [0x61, 0x62, 0x63]).take 4 = [0xBA, 0x78, 0x16, 0xBF] := by decide +kernel

end Sys2Proof.Tests
end

section
/-! PROOFS. The integer lanes and the lane moves of the vector stream (R149, R150, R153 to R159): each instruction is one of the shared forms of
Laws/Vector.lean with its own lane operation, or a body of its own that lands lanes with no flag. -/

namespace Sys2Proof.Machine

/-! ### The vector length -/

/-- vl landed: the core's field, then the landing noted. -/
theorem State.landVL_noted (s : State) (n l : Nat) : s.landVL n l = (s.setMyCore { s.myCore with vl := n }).noteLanding idVL l := rfl

/-- The streams of a core do not depend on its vector length. -/
theorem Core.withVL_eng (c : Core) (n : Nat) (w : Eng) : ({ c with vl := n } : Core).eng w = c.eng w := by cases w <;> rfl

/-- A body that lands vl. -/
theorem vl_next {s : State} {f : Form} {n l : Nat} {body : State → Res State} (h : s.issues f = true) (heff : f.eff = false)
    (hb : body s.atIssue = .ok (s.atIssue.landVL n l)) : ∃ t, issue s f body = .next t ∧ s.CoreTo t { s.myCore with vl := n } ∧ t.me.x = s.me.x :=
  noted_next h heff (Core.withVL_eng _ _ _) (hb.trans (congrArg Except.ok (State.landVL_noted _ _ _)))

/-! ### Bodies that no other instruction shares -/

section
variable {s : State} {d a b c : BitVec 5} {q g : BitVec 3} {x : BitVec 6}

theorem execVlut3_next (h : s.issues { fV g (subUnless ((s.extBits.getD 0) < 256) subRSVFIELD) with ext := true, needExt := true } = true) :
    ∃ t, execVlut3 d a b c g s = .next t ∧ s.LanesLand t d.toNat (onLanes (s.atIssue.active 0) fun k =>
      lut3 (s.extBits.getD 0 % 256) (s.atIssue.rv a.toNat k) (s.atIssue.rv b.toNat k 1) (s.atIssue.rv c.toNat k 2)) 0 false := int_next h rfl rfl

theorem execVperm_next (h : s.issues (fV g) = true) : ∃ t, execVperm d a b q g s = .next t ∧
    s.LanesLand t d.toNat (onLanes (s.atIssue.active q.toNat) fun k => s.atIssue.rv a.toNat ((s.atIssue.rv b.toNat k 1).toNat % 64)) 0 false :=
  int_next h rfl rfl

theorem execVsel_next (h : s.issues (fV g) = true) : ∃ t, execVsel d a b q g s = .next t ∧ s.LanesLand t d.toNat (onLanes (s.atIssue.active 0) fun k =>
    if (s.atIssue.rq q.toNat).getLsbD k then s.atIssue.rv a.toNat k else s.atIssue.rv b.toNat k 1) 0 false := int_next h rfl rfl

theorem execVpart_next (h : s.issues (fV g) = true) : ∃ t, execVpart d a q g s = .next t ∧ s.LanesLand t d.toNat (onLanes (s.atIssue.active 0) fun k =>
    s.atIssue.rv a.toNat ((partOrder s.atIssue.rvl (s.atIssue.rq q.toNat)).getD k 0)) 0 false := int_next h rfl rfl

theorem execVmv_next (h : s.issues (fV g (s.regs [x.toNat])) = true) : ∃ t, execVmv d a x g s = .next t ∧
    s.LanesLand t d.toNat (onLanes (s.atIssue.active 0) fun k => if k = bits (s.atIssue.rx x.toNat).toNat 32 6 then BitVec.ofNat 32 (s.atIssue.rx x.toNat).toNat
      else s.atIssue.rv a.toNat k) 0 false := int_next h rfl rfl

theorem execVbcast_next (h : s.issues (fV g (s.regs [x.toNat])) = true) : ∃ t, execVbcast d x g s = .next t ∧
    s.LanesLand t d.toNat (onLanes (s.atIssue.active 0) fun _ => BitVec.ofNat 32 (s.atIssue.rx x.toNat).toNat) 0 false := int_next h rfl rfl

theorem execVsetvlReg_next (h : s.issues (fV g (s.regs [x.toNat])) = true) : ∃ t, execVsetvlReg x g s = .next t ∧
    s.CoreTo t { s.myCore with vl := min (max (s.atIssue.rx x.toNat).toNat 1) 64 } ∧ t.me.x = s.me.x := vl_next h rfl rfl

theorem execVsetvlImm_next {m : BitVec 7} (h : s.issues (fV g (subUnless (1 ≤ m.toNat && m.toNat ≤ 64) subIMMRANGE)) = true) :
    ∃ t, execVsetvlImm m g s = .next t ∧ s.CoreTo t { s.myCore with vl := m.toNat } ∧ t.me.x = s.me.x := vl_next h rfl rfl

end

/-! ### The obligations -/

/-- Settles O31: the two- and one-input forms by the shared lemma at the operation of each (R149, R150), the funnel shifts and the rotate as the
immediate form (R154), and `vlut3` by its own body (R153). -/
theorem integerLanesLand : Obligations.IntegerLanesLand := by
  intro s d x y z q g i a on r u w lands
  refine ⟨fun h => ?forms, fun h => ?funnels, fun h => ?rotate, fun h => ?table⟩
  case forms =>
    have two (l : Nat) (f : Lane → Lane → Lane) := vi2_next (d := d) (a := x) (b := y) (q := q) h l f
    have one (f : Lane → Lane) := vi1_next (d := d) (a := x) (q := q) h f
    exact ⟨two 2 (· + ·), two 2 (· - ·), two 4 (· * ·), two 4 lMulh, two 2 lMin, two 2 lMax, two 2 lMinu, two 2 lMaxu,
      two 2 (· &&& ·), two 2 (· ||| ·), two 2 (· ^^^ ·), two 2 (fun m n => m &&& ~~~n), two 2 lSll, two 2 lSrl, two 2 lSra,
      one lPopc, one lClz, one lBrev⟩
  case funnels => exact ⟨viImm_next h funnelL, viImm_next h funnelR⟩
  case rotate => exact viImm_next (b := x) h fun m _ n => funnelL m m n
  case table => exact execVlut3_next h

/-- Settles O32: the slides as the form that moves whole lanes (R155), the other moves each by its own body (R156 to R158), and `vsetvl` as the
landing of vl (R159). -/
theorem lanesMove : Obligations.LanesMove := by
  intro s d x y q g i n m a r u lands long
  refine ⟨fun h => ?moves, fun h => ?scalars, fun h => ?length⟩
  case moves =>
    exact ⟨viMove_next h fun v => v.slideUp x.toNat y.toNat i.toNat, viMove_next h fun v => v.slideDn x.toNat y.toNat i.toNat,
      execVperm_next h, execVsel_next h, execVpart_next h⟩
  case scalars => exact ⟨execVmv_next h, execVbcast_next h, execVsetvlReg_next h⟩
  case length => exact execVsetvlImm_next h

end Sys2Proof.Machine
end

section
/-! PROOFS. The encoding in both directions (R75 to R88, R235): every instruction's word decodes to it, which Laws/PerInstr.lean has for each
constructor, and every word that decodes is the encoding of what it decodes to. -/

namespace Sys2Proof.Laws.RoundTrip

/-! ### From instructions to words -/

/-- Every instruction with a word comes back from it. -/
theorem statement_all : ∀ i : Instr, Statement i
  | .nop16 => nop16 | .mv16 _ _ => mv16 _ _ | .add16 _ _ => add16 _ _ | .sub16 _ _ => sub16 _ _ | .addi16 _ _ => addi16 _ _ | .li16 _ _ => li16 _ _
  | .ext _ => ext _ | .fmt _ => fmt _ | .add _ _ _ _ => add _ _ _ _ | .sub _ _ _ _ => sub _ _ _ _ | .and _ _ _ _ => and _ _ _ _
  | .or _ _ _ _ => or _ _ _ _ | .xor _ _ _ _ => xor _ _ _ _ | .sll _ _ _ _ => sll _ _ _ _ | .srl _ _ _ _ => srl _ _ _ _ | .sra _ _ _ _ => sra _ _ _ _
  | .mul _ _ _ _ => mul _ _ _ _ | .mulh _ _ _ _ => mulh _ _ _ _ | .mulhu _ _ _ _ => mulhu _ _ _ _ | .min _ _ _ _ => min _ _ _ _
  | .max _ _ _ _ => max _ _ _ _ | .minu _ _ _ _ => minu _ _ _ _ | .maxu _ _ _ _ => maxu _ _ _ _ | .addi _ _ _ _ => addi _ _ _ _
  | .andi _ _ _ _ => andi _ _ _ _ | .ori _ _ _ _ => ori _ _ _ _ | .xori _ _ _ _ => xori _ _ _ _ | .slli _ _ _ _ => slli _ _ _ _
  | .srli _ _ _ _ => srli _ _ _ _ | .srai _ _ _ _ => srai _ _ _ _ | .lui _ _ _ => lui _ _ _ | .cmp _ _ _ _ _ => cmp _ _ _ _ _
  | .cmpi _ _ _ _ _ => cmpi _ _ _ _ _ | .pand _ _ _ _ => pand _ _ _ _ | .por _ _ _ _ => por _ _ _ _ | .pxor _ _ _ _ => pxor _ _ _ _
  | .pandn _ _ _ _ => pandn _ _ _ _ | .pnot _ _ _ _ => pnot _ _ _ _ | .ld _ _ _ _ _ => ld _ _ _ _ _ | .ldSp _ _ _ _ _ => ldSp _ _ _ _ _
  | .st _ _ _ _ _ => st _ _ _ _ _ | .stSp _ _ _ _ _ => stSp _ _ _ _ _ | .atom _ _ _ _ _ _ => atom _ _ _ _ _ _ | .cas _ _ _ _ _ => cas _ _ _ _ _
  | .atomSp _ _ _ _ _ _ => atomSp _ _ _ _ _ _ | .casSp _ _ _ _ _ => casSp _ _ _ _ _ | .fence _ _ => fence _ _ | .flsig _ _ _ => flsig _ _ _
  | .tkwait _ _ _ => tkwait _ _ _ | .pbr _ _ _ => pbr _ _ _ | .br _ _ _ => br _ _ _ | .brL _ _ _ => brL _ _ _ | .pbrR _ _ _ => pbrR _ _ _
  | .evterm _ _ _ _ _ _ => evterm _ _ _ _ _ _ | .evinc _ _ _ => evinc _ _ _ | .evwait _ _ => evwait _ _ | .barArrive _ _ _ _ => barArrive _ _ _ _
  | .barWait _ _ _ _ => barWait _ _ _ _ | .barWait4 _ _ _ _ => barWait4 _ _ _ _ | .flagAdd _ _ _ _ => flagAdd _ _ _ _
  | .flagWait _ _ _ _ => flagWait _ _ _ _ | .chunk _ _ _ _ => chunk _ _ _ _ | .tlaunch _ _ _ _ => tlaunch _ _ _ _ | .tdone _ _ => tdone _ _
  | .tsignal _ => tsignal _ | .vaddF32 _ _ _ _ _ => vaddF32 _ _ _ _ _ | .vsubF32 _ _ _ _ _ => vsubF32 _ _ _ _ _
  | .vmulF32 _ _ _ _ _ => vmulF32 _ _ _ _ _ | .vminF32 _ _ _ _ _ => vminF32 _ _ _ _ _ | .vmaxF32 _ _ _ _ _ => vmaxF32 _ _ _ _ _
  | .vabsF32 _ _ _ _ => vabsF32 _ _ _ _ | .vnegF32 _ _ _ _ => vnegF32 _ _ _ _ | .vaddI32 _ _ _ _ _ => vaddI32 _ _ _ _ _
  | .vsubI32 _ _ _ _ _ => vsubI32 _ _ _ _ _ | .vmulI32 _ _ _ _ _ => vmulI32 _ _ _ _ _ | .vmulhI32 _ _ _ _ _ => vmulhI32 _ _ _ _ _
  | .vminI32 _ _ _ _ _ => vminI32 _ _ _ _ _ | .vmaxI32 _ _ _ _ _ => vmaxI32 _ _ _ _ _ | .vminuI32 _ _ _ _ _ => vminuI32 _ _ _ _ _
  | .vmaxuI32 _ _ _ _ _ => vmaxuI32 _ _ _ _ _ | .vand _ _ _ _ _ => vand _ _ _ _ _ | .vor _ _ _ _ _ => vor _ _ _ _ _
  | .vxor _ _ _ _ _ => vxor _ _ _ _ _ | .vandn _ _ _ _ _ => vandn _ _ _ _ _ | .vsll _ _ _ _ _ => vsll _ _ _ _ _ | .vsrl _ _ _ _ _ => vsrl _ _ _ _ _
  | .vsra _ _ _ _ _ => vsra _ _ _ _ _ | .vfmaF32 _ _ _ _ _ => vfmaF32 _ _ _ _ _ | .vfmsF32 _ _ _ _ _ => vfmsF32 _ _ _ _ _
  | .vfnmaF32 _ _ _ _ _ => vfnmaF32 _ _ _ _ _ | .vfnmsF32 _ _ _ _ _ => vfnmsF32 _ _ _ _ _ | .vrcp _ _ _ _ => vrcp _ _ _ _
  | .vrsqrt _ _ _ _ => vrsqrt _ _ _ _ | .vexp2 _ _ _ _ => vexp2 _ _ _ _ | .vlog2 _ _ _ _ => vlog2 _ _ _ _
  | .vcmpF32 _ _ _ _ _ _ => vcmpF32 _ _ _ _ _ _ | .vcmpI32 _ _ _ _ _ _ => vcmpI32 _ _ _ _ _ _ | .vlut3 _ _ _ _ _ => vlut3 _ _ _ _ _
  | .vfsl _ _ _ _ _ => vfsl _ _ _ _ _ | .vfsr _ _ _ _ _ => vfsr _ _ _ _ _ | .vrotl _ _ _ _ => vrotl _ _ _ _ | .vpopc _ _ _ _ => vpopc _ _ _ _
  | .vclz _ _ _ _ => vclz _ _ _ _ | .vbrev _ _ _ _ => vbrev _ _ _ _ | .vpart _ _ _ _ => vpart _ _ _ _ | .vgath _ _ _ _ _ _ => vgath _ _ _ _ _ _
  | .vscat _ _ _ _ _ _ => vscat _ _ _ _ _ _ | .vld32 _ _ _ _ _ => vld32 _ _ _ _ _ | .vldB _ _ _ _ _ => vldB _ _ _ _ _
  | .vst32 _ _ _ _ _ => vst32 _ _ _ _ _ | .vslideup _ _ _ _ _ => vslideup _ _ _ _ _ | .vslidedn _ _ _ _ _ => vslidedn _ _ _ _ _
  | .vperm _ _ _ _ _ => vperm _ _ _ _ _ | .vred _ _ _ _ _ => vred _ _ _ _ _ | .vscan _ _ _ _ _ => vscan _ _ _ _ _
  | .vcvtTo _ _ _ _ _ => vcvtTo _ _ _ _ _ | .vcvtFrom _ _ _ _ _ => vcvtFrom _ _ _ _ _ | .vmxq _ _ _ _ _ => vmxq _ _ _ _ _
  | .vsrc _ _ _ _ _ => vsrc _ _ _ _ _ | .qand _ _ _ _ => qand _ _ _ _ | .qor _ _ _ _ => qor _ _ _ _ | .qxor _ _ _ _ => qxor _ _ _ _
  | .qandn _ _ _ _ => qandn _ _ _ _ | .qnot _ _ _ _ => qnot _ _ _ _ | .qmov _ _ _ _ => qmov _ _ _ _ | .vsetvlImm _ _ => vsetvlImm _ _
  | .vsetvlReg _ _ => vsetvlReg _ _ | .vmv _ _ _ _ => vmv _ _ _ _ | .vbcast _ _ _ => vbcast _ _ _ | .vsel _ _ _ _ _ => vsel _ _ _ _ _
  | .mnest _ _ _ _ => mnest _ _ _ _ | .mopa _ _ _ _ _ => mopa _ _ _ _ _ | .mopb _ _ _ _ _ => mopb _ _ _ _ _ | .mopm _ _ _ _ _ => mopm _ _ _ _ _
  | .mma _ _ _ => mma _ _ _ | .mmas _ _ _ => mmas _ _ _ | .mgo _ _ _ => mgo _ _ _ | .mfmt _ _ _ _ => mfmt _ _ _ _ | .mfmtPool _ _ _ => mfmtPool _ _ _
  | .mfmtcommit _ => mfmtcommit _ | .chbuild _ _ _ _ => chbuild _ _ _ _ | .chclose _ _ _ _ _ => chclose _ _ _ _ _ | .chstat _ _ _ => chstat _ _ _
  | .chsplice _ _ _ _ => chsplice _ _ _ _ | .chhalt _ _ => chhalt _ _ | .chthaw _ _ => chthaw _ _ | .chrel _ _ => chrel _ _
  | .chread _ _ _ _ _ => chread _ _ _ _ _ | .cp _ _ _ _ _ _ => cp _ _ _ _ _ _ | .cpR _ _ _ _ _ _ => cpR _ _ _ _ _ _ | .cpD2d _ _ _ => cpD2d _ _ _
  | .cpD3d _ _ _ => cpD3d _ _ _ | .cpDCvt _ _ _ => cpDCvt _ _ _ | .cpDGath _ _ _ => cpDGath _ _ _ | .cpDScat _ _ _ => cpDScat _ _ _
  | .cpDFill _ _ _ => cpDFill _ _ _ | .cpDRemote _ _ _ => cpDRemote _ _ _ | .stmap _ _ _ _ => stmap _ _ _ _ | .stunmap _ _ => stunmap _ _
  | .stflush _ _ _ => stflush _ _ _ | .stinv _ _ _ => stinv _ _ _ | .barArriveD _ _ _ => barArriveD _ _ _ | .hlaunch _ _ _ => hlaunch _ _ _
  | .hstop _ => hstop _ | .hstat _ _ => hstat _ _ | .hcp _ _ => hcp _ _ | .hwait _ _ => hwait _ _ | .hloop _ _ _ _ => hloop _ _ _ _
  | .hflag _ _ _ _ => hflag _ _ _ _ | .hjmp _ => hjmp _ | .hend _ => hend _ | .hballoc _ _ _ _ => hballoc _ _ _ _ | .hbgate _ _ _ => hbgate _ _ _
  | .hbpoll _ _ _ => hbpoll _ _ _ | .hbrel _ _ => hbrel _ _ | .hbstat _ _ _ => hbstat _ _ _ | .hbcfg _ _ _ => hbcfg _ _ _
  | .hbput _ _ _ _ => hbput _ _ _ _ | .prgrad _ _ _ _ => prgrad _ _ _ _ | .gdep _ _ _ _ => gdep _ _ _ _ | .prread _ _ _ _ => prread _ _ _ _
  | .gread _ _ _ _ => gread _ _ _ _ | .prsync _ _ _ _ => prsync _ _ _ _ | .prrule _ _ _ _ => prrule _ _ _ _ | .gspread _ _ _ _ => gspread _ _ _ _
  | .gmass _ _ _ => gmass _ _ _ | .gcfg _ _ _ => gcfg _ _ _ | .csrr _ _ _ => csrr _ _ _ | .csrw _ _ _ => csrw _ _ _ | .trap _ _ => trap _ _
  | .eret _ => eret _ | .halt _ => halt _ | .blockStart _ _ _ => blockStart _ _ _ | .blockRaise _ _ _ => blockRaise _ _ _
  | .traceFreeze _ _ => traceFreeze _ _ | .haltComplete _ _ => haltComplete _ _ | .handlerStart _ _ => handlerStart _ _
  | .containment _ _ => containment _ _ | .uncorrectableError _ _ _ _ => uncorrectableError _ _ _ _ | .memoryTimeout _ _ _ => memoryTimeout _ _ _
  | .switchOut _ _ _ => switchOut _ _ _ | .switchIn _ => switchIn _ | .matrixGroup _ _ => matrixGroup _ _ | .hopArrival _ => hopArrival _
  | .closeStart _ _ => closeStart _ _ | .closeLand _ _ => closeLand _ _ | .copyBeatGroup _ _ => copyBeatGroup _ _
  | .stashFill _ _ _ => stashFill _ _ _ | .stashSnoop _ _ _ _ => stashSnoop _ _ _ _ | .stashWriteback _ _ _ => stashWriteback _ _ _
  | .qtailWrite _ _ _ => qtailWrite _ _ _ | .qbaseWrite _ _ _ => qbaseWrite _ _ _ | .qsizeWrite _ _ _ => qsizeWrite _ _ _
  | .graphAdmit _ => graphAdmit _ | .recordAdmit _ => recordAdmit _ | .taskStart _ _ => taskStart _ _ | .gangStart _ _ => gangStart _ _
  | .preempt _ _ => preempt _ _ | .taskRetire _ _ => taskRetire _ _ | .reads _ => reads _ | .readx _ => readx _ | .writeback _ _ => writeback _ _
  | .homeDieRead _ => homeDieRead _ | .homeDieWrite _ => homeDieWrite _ | .fwds _ => fwds _ | .fwdh _ => fwdh _ | .inv _ => inv _
  | .entryEviction _ _ => entryEviction _ _ | .postedStorePerformed _ _ _ => postedStorePerformed _ _ _ | .storeAck _ => storeAck _
  | .dieLost _ => dieLost _ | .hbPutArrival _ => hbPutArrival _ | .hbTimeout _ _ _ => hbTimeout _ _ _ | .combineWrite _ _ _ => combineWrite _ _ _
  | .prArrival _ => prArrival _ | .prUpdate _ => prUpdate _ | .halving _ _ => halving _ _ | .halfMerge _ _ => halfMerge _ _
  | .halfApplied _ _ => halfApplied _ _ | .halfRefused _ _ => halfRefused _ _ | .halfRetransmit _ _ => halfRetransmit _ _
  | .zynothPortFail _ => zynothPortFail _ | .zynothPortRetrain _ _ => zynothPortRetrain _ _ | .mbExport _ => mbExport _ | .mbImport _ => mbImport _
  | .unimport _ => unimport _ | .revoke _ => revoke _ | .invaltr _ => invaltr _ | .migrate _ _ => migrate _ _ | .warmreset _ => warmreset _
  | .gresolve _ => gresolve _ | .ctxcreate _ => ctxcreate _ | .ctxdestroy _ => ctxdestroy _ | .keyload _ => keyload _ | .keyclr _ => keyclr _
  | .manadd _ => manadd _ | .mansign _ => mansign _ | .imgpush _ => imgpush _ | .pwrlimit _ => pwrlimit _ | .featacceptWrite _ => featacceptWrite _
  | .registerWrite _ _ _ => registerWrite _ _ _ | .powerGood => powerGood | .dieAdmit _ _ => dieAdmit _ _ | .powerSample _ => powerSample _
  | .thermalSample _ => thermalSample _ | .coreAgeingCheck _ _ _ => coreAgeingCheck _ _ _ | .savedContextReply _ _ _ => savedContextReply _ _ _
  | .flagAddArrival _ => flagAddArrival _ | .deposit _ => deposit _ | .acknowledgement _ => acknowledgement _
  | .cxlMemAccess _ _ _ _ => cxlMemAccess _ _ _ _ | .dieMapChange _ => dieMapChange _ | .l2ModeChange _ _ => l2ModeChange _ _
  | .contextResume _ => contextResume _ | .powerLoss _ => powerLoss _

/-! ### From words to instructions -/

/-- A word of n bits reads as a well-formed instruction of which it is the encoding, or as an error. -/
def Reads (n w : Nat) (r : Except DecodeErr Instr) : Prop := ∀ i, r = .ok i → i.wellFormed = true ∧ encode i = some (n, w)

/-- The part of a word below a bit, as an integer. -/
def low (w b : Nat) : Int := ((w % 2 ^ b : Nat) : Int)

theorem low_of_lt {w b : Nat} (h : w < 2 ^ b) : low w b = w := by rw [low, Nat.mod_eq_of_lt h]

/-- A field is what the part below its end has over the part below its start: the fields of a word add up along its bits. -/
theorem fldN_low (w lo wd : Nat) : (fldN w lo wd : Int) * 2 ^ lo = low w (lo + wd) - low w lo := by
  have h : w % 2 ^ (lo + wd) = w % 2 ^ lo + 2 ^ lo * (w / 2 ^ lo % 2 ^ wd) := by rw [pow_add, Nat.mod_mul]
  simp only [low, h, fldN]
  push_cast
  ring

theorem fld_low {w lo wd : Nat} {c : Int} (hc : c = 2 ^ lo) : ((fld w lo wd).toNat : Int) * c = low w (lo + wd) - low w lo := by
  rw [hc, ← fldN_low, fld, BitVec.toNat_ofNat]
  rfl

theorem fld_low_zero (w wd : Nat) : ((fld w 0 wd).toNat : Int) = low w wd := by
  rw [fld, BitVec.toNat_ofNat, pow_zero, Nat.div_one]
  rfl

theorem fldN_eq_iff (w lo wd v : Nat) : fldN w lo wd = v ↔ low w (lo + wd) - low w lo = v * 2 ^ lo := by
  rw [← fldN_low, mul_eq_mul_right_iff]
  simp

/-- A word of 32 bits, as bit 0 says, with its major opcode (R75, R76). -/
def Wide (m w : Nat) : Prop := low w 32 = w ∧ low w 1 = 1 ∧ fldN w 1 7 = m

/-- The reserved fields of a word are zero (R83). -/
def Zeros (w : Nat) (zs : List (Nat × Nat)) : Prop := zs.all (fun z => fldN w z.1 z.2 = 0) = true

theorem zeros_nil (w : Nat) : Zeros w [] ↔ True := by simp [Zeros]
theorem zeros_cons (w lo wd : Nat) (zs : List (Nat × Nat)) : Zeros w ((lo, wd) :: zs) ↔ fldN w lo wd = 0 ∧ Zeros w zs := by
  rw [Zeros, List.all_cons, Bool.and_eq_true, decide_eq_true_eq]; rfl

section
variable {n w k : Nat} {i : Instr}

theorem error_reads {e : DecodeErr} : Reads n w (.error e) := fun _ h => nomatch h

theorem ok_reads (hw : i.wellFormed = true) (he : encode i = some (n, k)) (hk : (k : Int) = w) : Reads n w (.ok i) := fun _ h => by
  cases h
  exact ⟨hw, by rw [he, Int.ofNat.inj hk]⟩

/-- An instruction accepted, whose word is the sum of the fields read. -/
theorem accept_reads {zs : List (Nat × Nat)} (he : encode i = some (n, k)) (hk : Zeros w zs → (k : Int) = w) : Reads n w (accept w zs i) := by
  unfold accept
  split
  · exact error_reads
  · next hw =>
    split
    · next hz => exact ok_reads (by simpa using hw) he (hk hz)
    · exact error_reads

theorem reads_01 (h : Wide 0x01 w) : Reads 32 w (decode01 w) := by
  obtain ⟨h32, h1, hm⟩ := h
  unfold decode01
  split
  pick_goal -1
  · exact error_reads
  all_goals
    refine accept_reads rfl fun _ => ?_
    simp (disch := norm_num) only [fld_low, fldN_eq_iff, zeros_nil, Nat.reduceAdd, Nat.cast_add, Nat.cast_mul, Nat.cast_ofNat, Nat.cast_zero, Nat.cast_one] at *
    omega

theorem reads_02 (h : Wide 0x02 w) : Reads 32 w (decode02 w) := by
  obtain ⟨h32, h1, hm⟩ := h
  unfold decode02
  split
  pick_goal -1
  · exact error_reads
  all_goals
    refine accept_reads rfl fun _ => ?_
    simp (disch := norm_num) only [fld_low, fldN_eq_iff, zeros_nil, Nat.reduceAdd, Nat.cast_add, Nat.cast_mul, Nat.cast_ofNat, Nat.cast_zero, Nat.cast_one] at *
    omega

theorem reads_03 (h : Wide 0x03 w) : Reads 32 w (decode03 w) := by
  obtain ⟨h32, h1, hm⟩ := h
  refine accept_reads rfl fun _ => ?_
  simp (disch := norm_num) only [fld_low, fldN_eq_iff, zeros_nil, Nat.reduceAdd, Nat.cast_add, Nat.cast_mul, Nat.cast_ofNat] at *
  omega

theorem reads_04 (h : Wide 0x04 w) : Reads 32 w (decode04 w) := by
  obtain ⟨h32, h1, hm⟩ := h
  refine accept_reads rfl fun _ => ?_
  simp (disch := norm_num) only [fld_low, fldN_eq_iff, zeros_nil, Nat.reduceAdd, Nat.cast_add, Nat.cast_mul, Nat.cast_ofNat] at *
  omega

theorem reads_05 (h : Wide 0x05 w) : Reads 32 w (decode05 w) := by
  obtain ⟨h32, h1, hm⟩ := h
  refine accept_reads rfl fun _ => ?_
  simp (disch := norm_num) only [fld_low, fldN_eq_iff, zeros_nil, Nat.reduceAdd, Nat.cast_add, Nat.cast_mul, Nat.cast_ofNat] at *
  omega

theorem reads_06 (h : Wide 0x06 w) : Reads 32 w (decode06 w) := by
  obtain ⟨h32, h1, hm⟩ := h
  refine accept_reads rfl fun _ => ?_
  simp (disch := norm_num) only [fld_low, fldN_eq_iff, zeros_nil, Nat.reduceAdd, Nat.cast_add, Nat.cast_mul, Nat.cast_ofNat] at *
  omega

theorem reads_07 (h : Wide 0x07 w) : Reads 32 w (decode07 w) := by
  obtain ⟨h32, h1, hm⟩ := h
  unfold decode07
  split
  pick_goal -1
  · exact error_reads
  all_goals
    refine accept_reads rfl fun _ => ?_
    simp (disch := norm_num) only [fld_low, fldN_eq_iff, zeros_nil, Nat.reduceAdd, Nat.cast_add, Nat.cast_mul, Nat.cast_ofNat, Nat.cast_zero, Nat.cast_one] at *
    omega

theorem reads_08 (h : Wide 0x08 w) : Reads 32 w (decode08 w) := by
  obtain ⟨h32, h1, hm⟩ := h
  refine accept_reads rfl fun _ => ?_
  simp (disch := norm_num) only [fld_low, fldN_eq_iff, zeros_nil, Nat.reduceAdd, Nat.cast_add, Nat.cast_mul, Nat.cast_ofNat] at *
  omega

theorem reads_09 (h : Wide 0x09 w) : Reads 32 w (decode09 w) := by
  obtain ⟨h32, h1, hm⟩ := h
  refine accept_reads rfl fun _ => ?_
  simp (disch := norm_num) only [fld_low, fldN_eq_iff, zeros_cons, zeros_nil, Nat.reduceAdd, Nat.cast_add, Nat.cast_mul, Nat.cast_ofNat, Nat.cast_zero] at *
  omega

theorem reads_0A (h : Wide 0x0a w) : Reads 32 w (decode0A w) := by
  obtain ⟨h32, h1, hm⟩ := h
  refine accept_reads rfl fun _ => ?_
  simp (disch := norm_num) only [fld_low, fldN_eq_iff, zeros_nil, Nat.reduceAdd, Nat.cast_add, Nat.cast_mul, Nat.cast_ofNat] at *
  omega

theorem reads_0B (h : Wide 0x0b w) : Reads 32 w (decode0B w) := by
  obtain ⟨h32, h1, hm⟩ := h
  unfold decode0B
  split
  pick_goal -1
  · exact error_reads
  all_goals
    refine accept_reads rfl fun _ => ?_
    simp (disch := norm_num) only [fld_low, fldN_eq_iff, zeros_cons, zeros_nil, Nat.reduceAdd, Nat.cast_add, Nat.cast_mul, Nat.cast_ofNat, Nat.cast_zero, Nat.cast_one] at *
    omega

theorem reads_0C (h : Wide 0x0c w) : Reads 32 w (decode0C w) := by
  obtain ⟨h32, h1, hm⟩ := h
  refine accept_reads rfl fun _ => ?_
  simp (disch := norm_num) only [fld_low, fldN_eq_iff, zeros_nil, Nat.reduceAdd, Nat.cast_add, Nat.cast_mul, Nat.cast_ofNat] at *
  omega

theorem reads_0D (h : Wide 0x0d w) : Reads 32 w (decode0D w) := by
  obtain ⟨h32, h1, hm⟩ := h
  refine accept_reads rfl fun _ => ?_
  simp (disch := norm_num) only [fld_low, fldN_eq_iff, zeros_nil, Nat.reduceAdd, Nat.cast_add, Nat.cast_mul, Nat.cast_ofNat] at *
  omega

theorem reads_0E (h : Wide 0x0e w) : Reads 32 w (decode0E w) := by
  obtain ⟨h32, h1, hm⟩ := h
  refine accept_reads rfl fun _ => ?_
  simp (disch := norm_num) only [fld_low, fldN_eq_iff, zeros_nil, Nat.reduceAdd, Nat.cast_add, Nat.cast_mul, Nat.cast_ofNat] at *
  omega

theorem reads_0F (h : Wide 0x0f w) : Reads 32 w (decode0F w) := by
  obtain ⟨h32, h1, hm⟩ := h
  refine accept_reads rfl fun _ => ?_
  simp (disch := norm_num) only [fld_low, fldN_eq_iff, zeros_nil, Nat.reduceAdd, Nat.cast_add, Nat.cast_mul, Nat.cast_ofNat] at *
  omega

theorem reads_10 (h : Wide 0x10 w) : Reads 32 w (decode10 w) := by
  obtain ⟨h32, h1, hm⟩ := h
  refine accept_reads rfl fun _ => ?_
  simp (disch := norm_num) only [fld_low, fldN_eq_iff, zeros_cons, zeros_nil, Nat.reduceAdd, Nat.cast_add, Nat.cast_mul, Nat.cast_ofNat, Nat.cast_zero] at *
  omega

theorem reads_11 (h : Wide 0x11 w) : Reads 32 w (decode11 w) := by
  obtain ⟨h32, h1, hm⟩ := h
  refine accept_reads rfl fun _ => ?_
  simp (disch := norm_num) only [fld_low, fldN_eq_iff, zeros_cons, zeros_nil, Nat.reduceAdd, Nat.cast_add, Nat.cast_mul, Nat.cast_ofNat, Nat.cast_zero] at *
  omega

theorem reads_12 (h : Wide 0x12 w) : Reads 32 w (decode12 w) := by
  obtain ⟨h32, h1, hm⟩ := h
  refine accept_reads rfl fun _ => ?_
  simp (disch := norm_num) only [fld_low, fldN_eq_iff, zeros_cons, zeros_nil, Nat.reduceAdd, Nat.cast_add, Nat.cast_mul, Nat.cast_ofNat, Nat.cast_zero] at *
  omega

theorem reads_13 (h : Wide 0x13 w) : Reads 32 w (decode13 w) := by
  obtain ⟨h32, h1, hm⟩ := h
  refine accept_reads rfl fun _ => ?_
  simp (disch := norm_num) only [fld_low, fldN_eq_iff, zeros_cons, zeros_nil, Nat.reduceAdd, Nat.cast_add, Nat.cast_mul, Nat.cast_ofNat, Nat.cast_zero] at *
  omega

theorem reads_14 (h : Wide 0x14 w) : Reads 32 w (decode14 w) := by
  obtain ⟨h32, h1, hm⟩ := h
  refine accept_reads rfl fun _ => ?_
  simp (disch := norm_num) only [fld_low, fldN_eq_iff, zeros_cons, zeros_nil, Nat.reduceAdd, Nat.cast_add, Nat.cast_mul, Nat.cast_ofNat, Nat.cast_zero] at *
  omega

theorem reads_15 (h : Wide 0x15 w) : Reads 32 w (decode15 w) := by
  obtain ⟨h32, h1, hm⟩ := h
  unfold decode15
  split
  pick_goal -1
  · exact error_reads
  all_goals
    refine accept_reads rfl fun _ => ?_
    simp (disch := norm_num) only [fld_low, fldN_eq_iff, zeros_cons, zeros_nil, Nat.reduceAdd, Nat.cast_add, Nat.cast_mul, Nat.cast_ofNat, Nat.cast_zero] at *
    omega

theorem reads_16 (h : Wide 0x16 w) : Reads 32 w (decode16 w) := by
  obtain ⟨h32, h1, hm⟩ := h
  unfold decode16
  split
  pick_goal -1
  · exact error_reads
  all_goals
    refine accept_reads rfl fun _ => ?_
    simp (disch := norm_num) only [fld_low, fldN_eq_iff, zeros_cons, zeros_nil, Nat.reduceAdd, Nat.cast_add, Nat.cast_mul, Nat.cast_ofNat, Nat.cast_zero] at *
    omega

theorem reads_18 (h : Wide 0x18 w) : Reads 32 w (decode18 w) := by
  obtain ⟨h32, h1, hm⟩ := h
  refine accept_reads rfl fun _ => ?_
  simp (disch := norm_num) only [fld_low, fldN_eq_iff, zeros_nil, Nat.reduceAdd, Nat.cast_add, Nat.cast_mul, Nat.cast_ofNat] at *
  omega

theorem reads_19 (h : Wide 0x19 w) : Reads 32 w (decode19 w) := by
  obtain ⟨h32, h1, hm⟩ := h
  unfold decode19
  split
  pick_goal -1
  · exact error_reads
  all_goals
    refine accept_reads rfl fun _ => ?_
    simp (disch := norm_num) only [fld_low, fldN_eq_iff, zeros_cons, zeros_nil, Nat.reduceAdd, Nat.cast_add, Nat.cast_mul, Nat.cast_ofNat, Nat.cast_zero, Nat.cast_one] at *
    omega

theorem reads_1A (h : Wide 0x1a w) : Reads 32 w (decode1A w) := by
  obtain ⟨h32, h1, hm⟩ := h
  refine accept_reads rfl fun _ => ?_
  simp (disch := norm_num) only [fld_low, fldN_eq_iff, zeros_cons, zeros_nil, Nat.reduceAdd, Nat.cast_add, Nat.cast_mul, Nat.cast_ofNat, Nat.cast_zero] at *
  omega

theorem reads_1B (h : Wide 0x1b w) : Reads 32 w (decode1B w) := by
  obtain ⟨h32, h1, hm⟩ := h
  refine accept_reads rfl fun _ => ?_
  simp (disch := norm_num) only [fld_low, fldN_eq_iff, zeros_nil, Nat.reduceAdd, Nat.cast_add, Nat.cast_mul, Nat.cast_ofNat] at *
  omega

theorem reads_1C (h : Wide 0x1c w) : Reads 32 w (decode1C w) := by
  obtain ⟨h32, h1, hm⟩ := h
  refine accept_reads rfl fun _ => ?_
  simp (disch := norm_num) only [fld_low, fldN_eq_iff, zeros_nil, Nat.reduceAdd, Nat.cast_add, Nat.cast_mul, Nat.cast_ofNat] at *
  omega

theorem reads_1D (h : Wide 0x1d w) : Reads 32 w (decode1D w) := by
  obtain ⟨h32, h1, hm⟩ := h
  unfold decode1D
  split
  · refine ok_reads rfl rfl ?_
    simp (disch := norm_num) only [fld_low, fldN_eq_iff, Nat.reduceAdd, Nat.cast_add, Nat.cast_mul, Nat.cast_ofNat, Nat.cast_zero] at *
    omega
  · exact error_reads

theorem reads_20 (h : Wide 0x20 w) : Reads 32 w (decode20 w) := by
  obtain ⟨h32, h1, hm⟩ := h
  unfold decode20
  split
  pick_goal -1
  · exact error_reads
  all_goals
    refine accept_reads rfl fun _ => ?_
    simp (disch := norm_num) only [fld_low, fldN_eq_iff, zeros_nil, Nat.reduceAdd, Nat.cast_add, Nat.cast_mul, Nat.cast_ofNat, Nat.cast_zero, Nat.cast_one] at *
    omega

theorem reads_21 (h : Wide 0x21 w) : Reads 32 w (decode21 w) := by
  obtain ⟨h32, h1, hm⟩ := h
  unfold decode21
  split
  pick_goal -1
  · exact error_reads
  all_goals
    refine accept_reads rfl fun _ => ?_
    simp (disch := norm_num) only [fld_low, fldN_eq_iff, zeros_nil, Nat.reduceAdd, Nat.cast_add, Nat.cast_mul, Nat.cast_ofNat, Nat.cast_zero, Nat.cast_one] at *
    omega

theorem reads_22 (h : Wide 0x22 w) : Reads 32 w (decode22 w) := by
  obtain ⟨h32, h1, hm⟩ := h
  unfold decode22
  split
  pick_goal -1
  · exact error_reads
  all_goals
    refine accept_reads rfl fun _ => ?_
    simp (disch := norm_num) only [fld_low, fldN_eq_iff, zeros_nil, Nat.reduceAdd, Nat.cast_add, Nat.cast_mul, Nat.cast_ofNat, Nat.cast_zero] at *
    omega

theorem reads_23 (h : Wide 0x23 w) : Reads 32 w (decode23 w) := by
  obtain ⟨h32, h1, hm⟩ := h
  unfold decode23
  split
  pick_goal -1
  · exact error_reads
  all_goals
    refine accept_reads rfl fun _ => ?_
    simp (disch := norm_num) only [fld_low, fldN_eq_iff, zeros_cons, zeros_nil, Nat.reduceAdd, Nat.cast_add, Nat.cast_mul, Nat.cast_ofNat, Nat.cast_zero, Nat.cast_one] at *
    omega

theorem reads_30 (h : Wide 0x30 w) : Reads 32 w (decode30 w) := by
  obtain ⟨h32, h1, hm⟩ := h
  unfold decode30
  split
  pick_goal -1
  · exact error_reads
  all_goals
    refine accept_reads rfl fun _ => ?_
    simp (disch := norm_num) only [fld_low, fldN_eq_iff, zeros_cons, zeros_nil, Nat.reduceAdd, Nat.cast_add, Nat.cast_mul, Nat.cast_ofNat, Nat.cast_zero, Nat.cast_one] at *
    omega

theorem reads_31 (h : Wide 0x31 w) : Reads 32 w (decode31 w) := by
  obtain ⟨h32, h1, hm⟩ := h
  unfold decode31
  split
  pick_goal -1
  · exact error_reads
  all_goals
    refine accept_reads rfl fun _ => ?_
    simp (disch := norm_num) only [fld_low, fldN_eq_iff, zeros_nil, Nat.reduceAdd, Nat.cast_add, Nat.cast_mul, Nat.cast_ofNat, Nat.cast_zero, Nat.cast_one] at *
    omega

theorem reads_32 (h : Wide 0x32 w) : Reads 32 w (decode32 w) := by
  obtain ⟨h32, h1, hm⟩ := h
  unfold decode32
  split
  pick_goal -1
  · exact error_reads
  all_goals
    refine accept_reads rfl fun _ => ?_
    simp (disch := norm_num) only [fld_low, fldN_eq_iff, zeros_nil, Nat.reduceAdd, Nat.cast_add, Nat.cast_mul, Nat.cast_ofNat, Nat.cast_zero, Nat.cast_one] at *
    omega

theorem reads_33 (h : Wide 0x33 w) : Reads 32 w (decode33 w) := by
  obtain ⟨h32, h1, hm⟩ := h
  unfold decode33
  split
  pick_goal -1
  · exact error_reads
  all_goals
    refine accept_reads rfl fun _ => ?_
    simp (disch := norm_num) only [fld_low, fldN_eq_iff, zeros_nil, Nat.reduceAdd, Nat.cast_add, Nat.cast_mul, Nat.cast_ofNat, Nat.cast_zero, Nat.cast_one] at *
    omega

theorem reads_34 (h : Wide 0x34 w) : Reads 32 w (decode34 w) := by
  obtain ⟨h32, h1, hm⟩ := h
  unfold decode34
  split
  pick_goal -1
  · exact error_reads
  all_goals
    refine accept_reads rfl fun _ => ?_
    simp (disch := norm_num) only [fld_low, fldN_eq_iff, zeros_nil, Nat.reduceAdd, Nat.cast_add, Nat.cast_mul, Nat.cast_ofNat, Nat.cast_zero, Nat.cast_one] at *
    omega

theorem reads_35 (h : Wide 0x35 w) : Reads 32 w (decode35 w) := by
  obtain ⟨h32, h1, hm⟩ := h
  unfold decode35
  split
  pick_goal -1
  · exact error_reads
  all_goals
    refine accept_reads rfl fun _ => ?_
    simp (disch := norm_num) only [fld_low, fldN_eq_iff, zeros_cons, zeros_nil, Nat.reduceAdd, Nat.cast_add, Nat.cast_mul, Nat.cast_ofNat, Nat.cast_zero, Nat.cast_one] at *
    omega

theorem reads_36 (h : Wide 0x36 w) : Reads 32 w (decode36 w) := by
  obtain ⟨h32, h1, hm⟩ := h
  refine accept_reads rfl fun _ => ?_
  simp (disch := norm_num) only [fld_low, fldN_eq_iff, zeros_cons, zeros_nil, Nat.reduceAdd, Nat.cast_add, Nat.cast_mul, Nat.cast_ofNat, Nat.cast_zero] at *
  omega

theorem reads_37 (h : Wide 0x37 w) : Reads 32 w (decode37 w) := by
  obtain ⟨h32, h1, hm⟩ := h
  refine accept_reads rfl fun _ => ?_
  simp (disch := norm_num) only [fld_low, fldN_eq_iff, zeros_cons, zeros_nil, Nat.reduceAdd, Nat.cast_add, Nat.cast_mul, Nat.cast_ofNat, Nat.cast_zero] at *
  omega

theorem reads_38 (h : Wide 0x38 w) : Reads 32 w (decode38 w) := by
  obtain ⟨h32, h1, hm⟩ := h
  unfold decode38
  split
  pick_goal -1
  · exact error_reads
  all_goals
    refine accept_reads rfl fun _ => ?_
    simp (disch := norm_num) only [fld_low, fldN_eq_iff, zeros_nil, Nat.reduceAdd, Nat.cast_add, Nat.cast_mul, Nat.cast_ofNat, Nat.cast_zero] at *
    omega

theorem reads_39 (h : Wide 0x39 w) : Reads 32 w (decode39 w) := by
  obtain ⟨h32, h1, hm⟩ := h
  refine accept_reads rfl fun _ => ?_
  simp (disch := norm_num) only [fld_low, fldN_eq_iff, zeros_nil, Nat.reduceAdd, Nat.cast_add, Nat.cast_mul, Nat.cast_ofNat] at *
  omega

theorem reads_3A (h : Wide 0x3a w) : Reads 32 w (decode3A w) := by
  obtain ⟨h32, h1, hm⟩ := h
  refine accept_reads rfl fun _ => ?_
  simp (disch := norm_num) only [fld_low, fldN_eq_iff, zeros_nil, Nat.reduceAdd, Nat.cast_add, Nat.cast_mul, Nat.cast_ofNat] at *
  omega

theorem reads_3B (h : Wide 0x3b w) : Reads 32 w (decode3B w) := by
  obtain ⟨h32, h1, hm⟩ := h
  refine accept_reads rfl fun _ => ?_
  simp (disch := norm_num) only [fld_low, fldN_eq_iff, zeros_cons, zeros_nil, Nat.reduceAdd, Nat.cast_add, Nat.cast_mul, Nat.cast_ofNat, Nat.cast_zero] at *
  omega

theorem reads_3C (h : Wide 0x3c w) : Reads 32 w (decode3C w) := by
  obtain ⟨h32, h1, hm⟩ := h
  unfold decode3C
  split
  pick_goal -1
  · exact error_reads
  all_goals
    refine accept_reads rfl fun _ => ?_
    simp (disch := norm_num) only [fld_low, fldN_eq_iff, zeros_cons, zeros_nil, Nat.reduceAdd, Nat.cast_add, Nat.cast_mul, Nat.cast_ofNat, Nat.cast_zero, Nat.cast_one] at *
    omega

theorem reads_3D (h : Wide 0x3d w) : Reads 32 w (decode3D w) := by
  obtain ⟨h32, h1, hm⟩ := h
  unfold decode3D
  split
  pick_goal -1
  · exact error_reads
  all_goals
    refine accept_reads rfl fun _ => ?_
    simp (disch := norm_num) only [fld_low, fldN_eq_iff, zeros_cons, zeros_nil, Nat.reduceAdd, Nat.cast_add, Nat.cast_mul, Nat.cast_ofNat, Nat.cast_zero] at *
    omega

theorem reads_3E (h : Wide 0x3e w) : Reads 32 w (decode3E w) := by
  obtain ⟨h32, h1, hm⟩ := h
  refine accept_reads rfl fun _ => ?_
  simp (disch := norm_num) only [fld_low, fldN_eq_iff, zeros_cons, zeros_nil, Nat.reduceAdd, Nat.cast_add, Nat.cast_mul, Nat.cast_ofNat, Nat.cast_zero] at *
  omega

theorem reads_3F (h : Wide 0x3f w) : Reads 32 w (decode3F w) := by
  obtain ⟨h32, h1, hm⟩ := h
  refine accept_reads rfl fun _ => ?_
  simp (disch := norm_num) only [fld_low, fldN_eq_iff, zeros_cons, zeros_nil, Nat.reduceAdd, Nat.cast_add, Nat.cast_mul, Nat.cast_ofNat, Nat.cast_zero] at *
  omega

theorem reads_40 (h : Wide 0x40 w) : Reads 32 w (decode40 w) := by
  obtain ⟨h32, h1, hm⟩ := h
  unfold decode40
  split
  pick_goal -1
  · exact error_reads
  all_goals
    refine accept_reads rfl fun _ => ?_
    simp (disch := norm_num) only [fld_low, fldN_eq_iff, zeros_cons, zeros_nil, Nat.reduceAdd, Nat.cast_add, Nat.cast_mul, Nat.cast_ofNat, Nat.cast_zero, Nat.cast_one] at *
    omega

theorem reads_41 (h : Wide 0x41 w) : Reads 32 w (decode41 w) := by
  obtain ⟨h32, h1, hm⟩ := h
  unfold decode41
  split
  pick_goal -1
  · exact error_reads
  all_goals
    refine accept_reads rfl fun _ => ?_
    simp (disch := norm_num) only [fld_low, fldN_eq_iff, zeros_cons, zeros_nil, Nat.reduceAdd, Nat.cast_add, Nat.cast_mul, Nat.cast_ofNat, Nat.cast_zero] at *
    omega

theorem reads_42 (h : Wide 0x42 w) : Reads 32 w (decode42 w) := by
  obtain ⟨h32, h1, hm⟩ := h
  refine accept_reads rfl fun _ => ?_
  simp (disch := norm_num) only [fld_low, fldN_eq_iff, zeros_nil, Nat.reduceAdd, Nat.cast_add, Nat.cast_mul, Nat.cast_ofNat] at *
  omega

theorem reads_43 (h : Wide 0x43 w) : Reads 32 w (decode43 w) := by
  obtain ⟨h32, h1, hm⟩ := h
  refine accept_reads rfl fun _ => ?_
  simp (disch := norm_num) only [fld_low, fldN_eq_iff, zeros_nil, Nat.reduceAdd, Nat.cast_add, Nat.cast_mul, Nat.cast_ofNat] at *
  omega

theorem reads_44 (h : Wide 0x44 w) : Reads 32 w (decode44 w) := by
  obtain ⟨h32, h1, hm⟩ := h
  unfold decode44
  split
  pick_goal -1
  · exact error_reads
  all_goals
    refine accept_reads rfl fun _ => ?_
    simp (disch := norm_num) only [fld_low, fldN_eq_iff, zeros_nil, Nat.reduceAdd, Nat.cast_add, Nat.cast_mul, Nat.cast_ofNat, Nat.cast_zero] at *
    omega

theorem reads_45 (h : Wide 0x45 w) : Reads 32 w (decode45 w) := by
  obtain ⟨h32, h1, hm⟩ := h
  refine accept_reads rfl fun _ => ?_
  simp (disch := norm_num) only [fld_low, fldN_eq_iff, zeros_cons, zeros_nil, Nat.reduceAdd, Nat.cast_add, Nat.cast_mul, Nat.cast_ofNat, Nat.cast_zero] at *
  omega

theorem reads_46 (h : Wide 0x46 w) : Reads 32 w (decode46 w) := by
  obtain ⟨h32, h1, hm⟩ := h
  refine accept_reads rfl fun _ => ?_
  simp (disch := norm_num) only [fld_low, fldN_eq_iff, zeros_cons, zeros_nil, Nat.reduceAdd, Nat.cast_add, Nat.cast_mul, Nat.cast_ofNat, Nat.cast_zero] at *
  omega

theorem reads_47 (h : Wide 0x47 w) : Reads 32 w (decode47 w) := by
  obtain ⟨h32, h1, hm⟩ := h
  unfold decode47
  split
  pick_goal -1
  · exact error_reads
  all_goals
    refine accept_reads rfl fun _ => ?_
    simp (disch := norm_num) only [fld_low, fldN_eq_iff, zeros_cons, zeros_nil, Nat.reduceAdd, Nat.cast_add, Nat.cast_mul, Nat.cast_ofNat, Nat.cast_zero, Nat.cast_one] at *
    omega

theorem reads_48 (h : Wide 0x48 w) : Reads 32 w (decode48 w) := by
  obtain ⟨h32, h1, hm⟩ := h
  refine accept_reads rfl fun _ => ?_
  simp (disch := norm_num) only [fld_low, fldN_eq_iff, zeros_nil, Nat.reduceAdd, Nat.cast_add, Nat.cast_mul, Nat.cast_ofNat] at *
  omega

theorem reads_49 (h : Wide 0x49 w) : Reads 32 w (decode49 w) := by
  obtain ⟨h32, h1, hm⟩ := h
  refine accept_reads rfl fun _ => ?_
  simp (disch := norm_num) only [fld_low, fldN_eq_iff, zeros_cons, zeros_nil, Nat.reduceAdd, Nat.cast_add, Nat.cast_mul, Nat.cast_ofNat, Nat.cast_zero] at *
  omega

theorem reads_4A (h : Wide 0x4a w) : Reads 32 w (decode4A w) := by
  obtain ⟨h32, h1, hm⟩ := h
  unfold decode4A
  split
  pick_goal -1
  · exact error_reads
  all_goals
    refine accept_reads rfl fun _ => ?_
    simp (disch := norm_num) only [fld_low, fldN_eq_iff, zeros_cons, zeros_nil, Nat.reduceAdd, Nat.cast_add, Nat.cast_mul, Nat.cast_ofNat, Nat.cast_zero, Nat.cast_one] at *
    omega

theorem reads_4B (h : Wide 0x4b w) : Reads 32 w (decode4B w) := by
  obtain ⟨h32, h1, hm⟩ := h
  unfold decode4B
  split
  pick_goal -1
  · exact error_reads
  all_goals
    refine accept_reads rfl fun _ => ?_
    simp (disch := norm_num) only [fld_low, fldN_eq_iff, zeros_cons, zeros_nil, Nat.reduceAdd, Nat.cast_add, Nat.cast_mul, Nat.cast_ofNat, Nat.cast_zero, Nat.cast_one] at *
    omega

theorem reads_4C (h : Wide 0x4c w) : Reads 32 w (decode4C w) := by
  obtain ⟨h32, h1, hm⟩ := h
  unfold decode4C
  split
  pick_goal -1
  · exact error_reads
  all_goals
    refine accept_reads rfl fun _ => ?_
    simp (disch := norm_num) only [fld_low, fldN_eq_iff, zeros_cons, zeros_nil, Nat.reduceAdd, Nat.cast_add, Nat.cast_mul, Nat.cast_ofNat, Nat.cast_zero, Nat.cast_one] at *
    omega

theorem reads_4D (h : Wide 0x4d w) : Reads 32 w (decode4D w) := by
  obtain ⟨h32, h1, hm⟩ := h
  unfold decode4D
  split
  pick_goal -1
  · exact error_reads
  all_goals
    refine accept_reads rfl fun _ => ?_
    simp (disch := norm_num) only [fld_low, fldN_eq_iff, zeros_nil, Nat.reduceAdd, Nat.cast_add, Nat.cast_mul, Nat.cast_ofNat, Nat.cast_zero] at *
    omega

theorem reads_60 (h : Wide 0x60 w) : Reads 32 w (decode60 w) := by
  obtain ⟨h32, h1, hm⟩ := h
  refine accept_reads rfl fun _ => ?_
  simp (disch := norm_num) only [fld_low, fldN_eq_iff, zeros_cons, zeros_nil, Nat.reduceAdd, Nat.cast_add, Nat.cast_mul, Nat.cast_ofNat, Nat.cast_zero] at *
  omega

theorem reads_61 (h : Wide 0x61 w) : Reads 32 w (decode61 w) := by
  obtain ⟨h32, h1, hm⟩ := h
  unfold decode61
  split
  pick_goal -1
  · exact error_reads
  all_goals
    refine accept_reads rfl fun _ => ?_
    simp (disch := norm_num) only [fld_low, fldN_eq_iff, zeros_cons, zeros_nil, Nat.reduceAdd, Nat.cast_add, Nat.cast_mul, Nat.cast_ofNat, Nat.cast_zero, Nat.cast_one] at *
    omega

theorem reads_62 (h : Wide 0x62 w) : Reads 32 w (decode62 w) := by
  obtain ⟨h32, h1, hm⟩ := h
  refine accept_reads rfl fun _ => ?_
  simp (disch := norm_num) only [fld_low, fldN_eq_iff, zeros_cons, zeros_nil, Nat.reduceAdd, Nat.cast_add, Nat.cast_mul, Nat.cast_ofNat, Nat.cast_zero] at *
  omega

theorem reads_63 (h : Wide 0x63 w) : Reads 32 w (decode63 w) := by
  obtain ⟨h32, h1, hm⟩ := h
  refine accept_reads rfl fun _ => ?_
  simp (disch := norm_num) only [fld_low, fldN_eq_iff, zeros_cons, zeros_nil, Nat.reduceAdd, Nat.cast_add, Nat.cast_mul, Nat.cast_ofNat, Nat.cast_zero] at *
  omega

theorem reads_64 (h : Wide 0x64 w) : Reads 32 w (decode64 w) := by
  obtain ⟨h32, h1, hm⟩ := h
  refine accept_reads rfl fun _ => ?_
  simp (disch := norm_num) only [fld_low, fldN_eq_iff, zeros_cons, zeros_nil, Nat.reduceAdd, Nat.cast_add, Nat.cast_mul, Nat.cast_ofNat, Nat.cast_zero] at *
  omega

theorem reads_65 (h : Wide 0x65 w) : Reads 32 w (decode65 w) := by
  obtain ⟨h32, h1, hm⟩ := h
  unfold decode65
  split
  pick_goal -1
  · exact error_reads
  all_goals
    refine accept_reads rfl fun _ => ?_
    simp (disch := norm_num) only [fld_low, fldN_eq_iff, zeros_cons, zeros_nil, Nat.reduceAdd, Nat.cast_add, Nat.cast_mul, Nat.cast_ofNat, Nat.cast_zero, Nat.cast_one] at *
    omega

theorem reads_66 (h : Wide 0x66 w) : Reads 32 w (decode66 w) := by
  obtain ⟨h32, h1, hm⟩ := h
  refine accept_reads rfl fun _ => ?_
  simp (disch := norm_num) only [fld_low, fldN_eq_iff, zeros_cons, zeros_nil, Nat.reduceAdd, Nat.cast_add, Nat.cast_mul, Nat.cast_ofNat, Nat.cast_zero] at *
  omega

theorem reads_67 (h : Wide 0x67 w) : Reads 32 w (decode67 w) := by
  obtain ⟨h32, h1, hm⟩ := h
  refine accept_reads rfl fun _ => ?_
  simp (disch := norm_num) only [fld_low, fldN_eq_iff, zeros_cons, zeros_nil, Nat.reduceAdd, Nat.cast_add, Nat.cast_mul, Nat.cast_ofNat, Nat.cast_zero] at *
  omega

theorem reads_68 (h : Wide 0x68 w) : Reads 32 w (decode68 w) := by
  obtain ⟨h32, h1, hm⟩ := h
  refine accept_reads rfl fun _ => ?_
  simp (disch := norm_num) only [fld_low, fldN_eq_iff, zeros_nil, Nat.reduceAdd, Nat.cast_add, Nat.cast_mul, Nat.cast_ofNat] at *
  omega

theorem reads_69 (h : Wide 0x69 w) : Reads 32 w (decode69 w) := by
  obtain ⟨h32, h1, hm⟩ := h
  refine accept_reads rfl fun _ => ?_
  simp (disch := norm_num) only [fld_low, fldN_eq_iff, zeros_cons, zeros_nil, Nat.reduceAdd, Nat.cast_add, Nat.cast_mul, Nat.cast_ofNat, Nat.cast_zero] at *
  omega

theorem reads_6A (h : Wide 0x6a w) : Reads 32 w (decode6A w) := by
  obtain ⟨h32, h1, hm⟩ := h
  refine accept_reads rfl fun _ => ?_
  simp (disch := norm_num) only [fld_low, fldN_eq_iff, zeros_cons, zeros_nil, Nat.reduceAdd, Nat.cast_add, Nat.cast_mul, Nat.cast_ofNat, Nat.cast_zero] at *
  omega

theorem reads_6B (h : Wide 0x6b w) : Reads 32 w (decode6B w) := by
  obtain ⟨h32, h1, hm⟩ := h
  unfold decode6B
  split
  pick_goal -1
  · exact error_reads
  all_goals
    refine accept_reads rfl fun _ => ?_
    simp (disch := norm_num) only [fld_low, fldN_eq_iff, zeros_cons, zeros_nil, Nat.reduceAdd, Nat.cast_add, Nat.cast_mul, Nat.cast_ofNat, Nat.cast_zero, Nat.cast_one] at *
    omega

theorem reads_6C (h : Wide 0x6c w) : Reads 32 w (decode6C w) := by
  obtain ⟨h32, h1, hm⟩ := h
  refine accept_reads rfl fun _ => ?_
  simp (disch := norm_num) only [fld_low, fldN_eq_iff, zeros_nil, Nat.reduceAdd, Nat.cast_add, Nat.cast_mul, Nat.cast_ofNat] at *
  omega

theorem reads_70 (h : Wide 0x70 w) : Reads 32 w (decode70 w) := by
  obtain ⟨h32, h1, hm⟩ := h
  refine accept_reads rfl fun _ => ?_
  simp (disch := norm_num) only [fld_low, fldN_eq_iff, zeros_nil, Nat.reduceAdd, Nat.cast_add, Nat.cast_mul, Nat.cast_ofNat] at *
  omega

theorem reads_71 (h : Wide 0x71 w) : Reads 32 w (decode71 w) := by
  obtain ⟨h32, h1, hm⟩ := h
  refine accept_reads rfl fun _ => ?_
  simp (disch := norm_num) only [fld_low, fldN_eq_iff, zeros_cons, zeros_nil, Nat.reduceAdd, Nat.cast_add, Nat.cast_mul, Nat.cast_ofNat, Nat.cast_zero] at *
  omega

theorem reads_72 (h : Wide 0x72 w) : Reads 32 w (decode72 w) := by
  obtain ⟨h32, h1, hm⟩ := h
  unfold decode72
  split
  pick_goal -1
  · exact error_reads
  all_goals
    refine accept_reads rfl fun _ => ?_
    simp (disch := norm_num) only [fld_low, fldN_eq_iff, zeros_cons, zeros_nil, Nat.reduceAdd, Nat.cast_add, Nat.cast_mul, Nat.cast_ofNat, Nat.cast_zero, Nat.cast_one] at *
    omega

theorem reads_73 (h : Wide 0x73 w) : Reads 32 w (decode73 w) := by
  obtain ⟨h32, h1, hm⟩ := h
  unfold decode73
  split
  pick_goal -1
  · exact error_reads
  all_goals
    refine accept_reads rfl fun _ => ?_
    simp (disch := norm_num) only [fld_low, fldN_eq_iff, zeros_cons, zeros_nil, Nat.reduceAdd, Nat.cast_add, Nat.cast_mul, Nat.cast_ofNat, Nat.cast_zero, Nat.cast_one] at *
    omega

theorem reads_74 (h : Wide 0x74 w) : Reads 32 w (decode74 w) := by
  obtain ⟨h32, h1, hm⟩ := h
  unfold decode74
  split
  pick_goal -1
  · exact error_reads
  all_goals
    refine accept_reads rfl fun _ => ?_
    simp (disch := norm_num) only [fld_low, fldN_eq_iff, zeros_cons, zeros_nil, Nat.reduceAdd, Nat.cast_add, Nat.cast_mul, Nat.cast_ofNat, Nat.cast_zero] at *
    omega

theorem reads_75 (h : Wide 0x75 w) : Reads 32 w (decode75 w) := by
  obtain ⟨h32, h1, hm⟩ := h
  unfold decode75
  split
  pick_goal -1
  · exact error_reads
  all_goals
    refine accept_reads rfl fun _ => ?_
    simp (disch := norm_num) only [fld_low, fldN_eq_iff, zeros_cons, zeros_nil, Nat.reduceAdd, Nat.cast_add, Nat.cast_mul, Nat.cast_ofNat, Nat.cast_zero] at *
    omega

theorem reads_76 (h : Wide 0x76 w) : Reads 32 w (decode76 w) := by
  obtain ⟨h32, h1, hm⟩ := h
  unfold decode76
  split
  pick_goal -1
  · exact error_reads
  all_goals
    refine accept_reads rfl fun _ => ?_
    simp (disch := norm_num) only [fld_low, fldN_eq_iff, zeros_cons, zeros_nil, Nat.reduceAdd, Nat.cast_add, Nat.cast_mul, Nat.cast_ofNat, Nat.cast_zero, Nat.cast_one] at *
    omega

theorem reads_78 (h : Wide 0x78 w) : Reads 32 w (decode78 w) := by
  obtain ⟨h32, h1, hm⟩ := h
  unfold decode78
  split
  pick_goal -1
  · exact error_reads
  all_goals
    refine accept_reads rfl fun _ => ?_
    simp (disch := norm_num) only [fld_low, fldN_eq_iff, zeros_cons, zeros_nil, Nat.reduceAdd, Nat.cast_add, Nat.cast_mul, Nat.cast_ofNat, Nat.cast_zero, Nat.cast_one] at *
    omega

theorem reads_79 (h : Wide 0x79 w) : Reads 32 w (decode79 w) := by
  obtain ⟨h32, h1, hm⟩ := h
  unfold decode79
  split
  pick_goal -1
  · exact error_reads
  all_goals
    refine accept_reads rfl fun _ => ?_
    simp (disch := norm_num) only [fld_low, fldN_eq_iff, zeros_nil, Nat.reduceAdd, Nat.cast_add, Nat.cast_mul, Nat.cast_ofNat, Nat.cast_zero, Nat.cast_one] at *
    omega

theorem reads_7A (h : Wide 0x7a w) : Reads 32 w (decode7A w) := by
  obtain ⟨h32, h1, hm⟩ := h
  unfold decode7A
  split
  pick_goal -1
  · exact error_reads
  all_goals
    refine accept_reads rfl fun _ => ?_
    simp (disch := norm_num) only [fld_low, fldN_eq_iff, zeros_cons, zeros_nil, Nat.reduceAdd, Nat.cast_add, Nat.cast_mul, Nat.cast_ofNat, Nat.cast_zero, Nat.cast_one] at *
    omega

theorem reads_7C (h : Wide 0x7c w) : Reads 32 w (decode7C w) := by
  obtain ⟨h32, h1, hm⟩ := h
  unfold decode7C
  split
  pick_goal -1
  · exact error_reads
  all_goals
    refine accept_reads rfl fun _ => ?_
    simp (disch := norm_num) only [fld_low, fldN_eq_iff, zeros_cons, zeros_nil, Nat.reduceAdd, Nat.cast_add, Nat.cast_mul, Nat.cast_ofNat, Nat.cast_zero, Nat.cast_one] at *
    omega

theorem reads_7D (h : Wide 0x7d w) : Reads 32 w (decode7D w) := by
  obtain ⟨h32, h1, hm⟩ := h
  unfold decode7D
  split
  pick_goal -1
  · exact error_reads
  all_goals
    refine accept_reads rfl fun _ => ?_
    simp (disch := norm_num) only [fld_low, fldN_eq_iff, zeros_cons, zeros_nil, Nat.reduceAdd, Nat.cast_add, Nat.cast_mul, Nat.cast_ofNat, Nat.cast_zero, Nat.cast_one] at *
    omega

/-- Every major opcode reads its words as encodings. -/
theorem decodeMajor_reads {m : Nat} (h : Wide m w) : Reads 32 w (decodeMajor m w) := by
  unfold decodeMajor
  split
  exacts [
    reads_01 h, reads_02 h, reads_03 h, reads_04 h, reads_05 h, reads_06 h, reads_07 h, reads_08 h, reads_09 h, reads_0A h, reads_0B h, reads_0C h,
    reads_0D h, reads_0E h, reads_0F h, reads_10 h, reads_11 h, reads_12 h, reads_13 h, reads_14 h, reads_15 h, reads_16 h, reads_18 h, reads_19 h,
    reads_1A h, reads_1B h, reads_1C h, reads_1D h, reads_20 h, reads_21 h, reads_22 h, reads_23 h, reads_30 h, reads_31 h, reads_32 h, reads_33 h,
    reads_34 h, reads_35 h, reads_36 h, reads_37 h, reads_38 h, reads_39 h, reads_3A h, reads_3B h, reads_3C h, reads_3D h, reads_3E h, reads_3F h,
    reads_40 h, reads_41 h, reads_42 h, reads_43 h, reads_44 h, reads_45 h, reads_46 h, reads_47 h, reads_48 h, reads_49 h, reads_4A h, reads_4B h,
    reads_4C h, reads_4D h, reads_60 h, reads_61 h, reads_62 h, reads_63 h, reads_64 h, reads_65 h, reads_66 h, reads_67 h, reads_68 h, reads_69 h,
    reads_6A h, reads_6B h, reads_6C h, reads_70 h, reads_71 h, reads_72 h, reads_73 h, reads_74 h, reads_75 h, reads_76 h, reads_78 h, reads_79 h,
    reads_7A h, reads_7C h, reads_7D h, error_reads, error_reads]

/-- Every compact opcode reads its words as encodings. -/
theorem decodeCompact_reads {op : Nat} (h16 : low w 16 = w) (h0 : low w 1 = 0) (hop : fldN w 1 5 = op) : Reads 16 w (decodeCompact op w) := by
  unfold decodeCompact
  split
  pick_goal -1
  · exact error_reads
  all_goals
    refine accept_reads rfl fun _ => ?_
    simp (disch := norm_num) only [fld_low, fldN_eq_iff, zeros_cons, zeros_nil, Nat.reduceAdd, Nat.cast_add, Nat.cast_mul, Nat.cast_ofNat, Nat.cast_zero, Nat.cast_one] at *
    omega

/-- A word of each length reads as an encoding of that length (R75). -/
theorem decode_reads_even (h : w % 2 = 0) : Reads 16 (w % 2 ^ 16) (decode w) := by
  unfold decode
  rw [if_pos h]
  exact decodeCompact_reads (low_of_lt (Nat.mod_lt _ (by decide))) (by unfold low; omega) (by unfold fldN; omega)

theorem decode_reads_odd (h : w % 2 = 1) : Reads 32 (w % 2 ^ 32) (decode w) := by
  unfold decode
  rw [if_neg (by omega)]
  exact decodeMajor_reads ⟨low_of_lt (Nat.mod_lt _ (by decide)), by unfold low; omega, by unfold fldN; omega⟩

/-- A helper word whose reserved bits pass. -/
theorem some_reads {c : Prop} [Decidable c] {j : Instr} (h : (if c then some j else none) = some i) (hw : j.wellFormed = true)
    (he : c → encode j = some (64, k)) (hk : c → (k : Int) = low w 64) : i.wellFormed = true ∧ encode i = some (64, w % 2 ^ 64) := by
  split at h
  · next hc => cases h; exact ⟨hw, by rw [he hc, Int.ofNat.inj (hk hc)]⟩
  · cases h

/-- A helper word that is an instruction is its encoding (R235); no word loops back by 0. -/
theorem decodeHelper_reads (h : decodeHelper w = some i) : i.wellFormed = true ∧ encode i = some (64, w % 2 ^ 64) := by
  unfold decodeHelper at h
  split at h
  pick_goal -1
  · cases h
  pick_goal 3
  · refine some_reads h rfl (fun hc => if_neg (by rw [fld, BitVec.toNat_ofNat]; exact hc)) fun _ => ?_
    clear h
    simp (disch := norm_num) only [fld_low, fld_low_zero, fldN_eq_iff, Nat.reduceAdd, Nat.cast_add, Nat.cast_mul, Nat.cast_ofNat] at *
    omega
  all_goals
    refine some_reads h rfl (fun _ => rfl) fun _ => ?_
    clear h
    simp (disch := norm_num) only [fld_low, fld_low_zero, fldN_eq_iff, Nat.reduceAdd, Nat.cast_add, Nat.cast_mul, Nat.cast_ofNat, Nat.cast_zero, Nat.cast_one] at *
    omega

end

/-! ### The obligations -/

/-- Settles O55: the round trip of each constructor (Laws/PerInstr.lean). -/
theorem encodedInstructionsDecode : Obligations.EncodedInstructionsDecode := statement_all

/-- Settles O56: every arm of the decoder reads fields and reserved zeros that together are all bits of the word, by the word's length (R75). -/
theorem decodedWordsAreEncodings : Obligations.DecodedWordsAreEncodings := by
  intro w i
  refine ⟨fun h => ?word, decodeHelper_reads⟩
  rcases Nat.mod_two_eq_zero_or_one w with h0 | h1
  · obtain ⟨hw, he⟩ := decode_reads_even h0 i h
    exact ⟨hw, .inl he, iff_of_true he h0⟩
  · obtain ⟨hw, he⟩ := decode_reads_odd h1 i h
    exact ⟨hw, .inr he, iff_of_false (by simp [he]) (by omega)⟩

end Sys2Proof.Laws.RoundTrip
end

section
/-! PROOFS. The compact forms and prefixes, the integer, compare and predicate instructions, and the branch targets (R78 to R82, R99, R100, R115):
each is one of the shared forms of Laws/Scalar.lean at its own operation. -/

namespace Sys2Proof.Machine

/-! ### Prefixes -/

/-- An `ext` or `fmt` that does not end the body is kept with its place (R80 to R82). -/
theorem issuePrefix_kept {s : State} (hok : s.curOk = true) (hmay : s.mayIssue = true) (hlen : s.me.pos + 1 < s.me.hdr.len) (isFmt : Bool) (v : Nat) :
    issuePrefix s isFmt v = .next (s.setMe { s.me with pos := s.me.pos + 1, pfx := s.me.pfx ++ [{ isFmt := isFmt, val := v, pos := s.me.pos }] }) := by
  simp [issuePrefix, hok, hmay, hlen]

/-- `nop16` names no register. -/
theorem compactForm_nil (s : State) : compactForm s [] = { streams := allStreams, len := 1 } := by simp [compactForm, State.regs]

theorem execNop16_next {s : State} (h : s.issues (compactForm s []) = true) : ∃ t, execNop16 s = .next t ∧ s.PlaceOnly t :=
  place_next (compactForm_nil s ▸ h) rfl rfl

/-! ### Forms with a body of their own -/

theorem execLui_next {s : State} {d : BitVec 6} {j : BitVec 15} {g : BitVec 3} (h : s.issues { fAll g (s.regs [d.toNat]) with ext := true } = true) :
    ∃ t, execLui d j g s = .next t ∧ s.WritesX t d.toNat (s.atIssue.simm j.toNat 15 <<< 16) := landX_next h rfl rfl

section
variable {s : State} {p c g b : BitVec 3} {a x : BitVec 6}

/-- A compare's form is well formed where its condition is a listed one (R100). -/
theorem condForm (hc : c.toNat ≤ 5) {f : Form} (hf : f.wf = true) : ({ f with wf := decide (c.toNat ≤ 5) } : Form) = f := by
  rw [decide_eq_true hc, ← hf]

theorem execCmp_next {y : BitVec 6} (hc : c.toNat ≤ 5) (h : s.issues (fAll g (s.preds [p.toNat] ++ s.regs [a.toNat, y.toNat])) = true) :
    ∃ t, execCmp p a y c g s = .next t ∧ s.WritesP t p.toNat (cmpCond c.toNat (s.atIssue.rx a.toNat) (s.atIssue.rx y.toNat 1)) := by
  rw [← condForm hc (f := fAll g _) rfl] at h
  exact landP_next h rfl p.isLt rfl

theorem execCmpi_next {i : BitVec 9} (hc : c.toNat ≤ 5) (h : s.issues { fAll g (s.preds [p.toNat] ++ s.regs [a.toNat]) with ext := true } = true) :
    ∃ t, execCmpi p c a i g s = .next t ∧ s.WritesP t p.toNat (cmpCond c.toNat (s.atIssue.rx a.toNat) (s.atIssue.simm i.toNat 9)) := by
  rw [← condForm hc (f := { fAll g _ with ext := true }) rfl] at h
  exact landP_next h rfl p.isLt rfl

theorem execPbr_next {o : BitVec 18} (h : s.issues { fAll g (s.preds [b.toNat]) with ext := true } = true) : ∃ t, execPbr b o g s = .next t ∧
    s.WritesB t b.toNat (BitVec.ofNat 64 (s.me.ringBase + (((s.me.offAt s.me.pos : Nat) + 2 * (s.simm o.toNat 18).toInt) % (s.me.ringSize : Int)).toNat)) :=
  landB_next h rfl rfl

theorem execPbrR_next (h : s.issues (fAll g (s.preds [b.toNat] ++ s.regs [x.toNat])) = true) : ∃ t, execPbrR b x g s = .next t ∧
    s.WritesB t b.toNat (BitVec.ofNat 64 (bits (s.atIssue.rx x.toNat).toNat 1 20 * 2)) := landB_next h rfl rfl

end

/-! ### Minima and maxima -/

theorem wMin_eq (x y : Word) : wMin x y = if x.toInt < y.toInt then x else y := by simp [wMin, BitVec.slt]
theorem wMax_eq (x y : Word) : wMax x y = if x.toInt < y.toInt then y else x := by simp [wMax, BitVec.slt]
theorem wMinu_eq (x y : Word) : wMinu x y = if x.toNat < y.toNat then x else y := by simp [wMinu, BitVec.ult]
theorem wMaxu_eq (x y : Word) : wMaxu x y = if x.toNat < y.toNat then y else x := by simp [wMaxu, BitVec.ult]

/-! ### The obligations -/

/-- Settles O1: each compact form as `compact` at its operation, and the prefixes as kept. -/
theorem compactFormsAndPrefixes : Obligations.CompactFormsAndPrefixes := by
  refine ⟨fun s i a d => ⟨execNop16_next, fun h => ?two, fun h => ?one⟩, fun s n k hok hmay hlen =>
    ⟨issuePrefix_kept hok hmay hlen false n.toNat, issuePrefix_kept hok hmay hlen true k.toNat⟩⟩
  case two =>
    exact ⟨compact_next h fun u => u.rx a.toNat, compact_next h fun u => u.rx d.toNat + u.rx a.toNat 1, compact_next h fun u => u.rx d.toNat - u.rx a.toNat 1⟩
  case one =>
    rw [← sext_five]
    exact ⟨compact_next h fun u => u.rx d.toNat + sext i.toNat 5, compact_next h fun _ => sext i.toNat 5⟩

/-- Settles O2: each form as `aluRR` at its operation. -/
theorem registerFormsLand : Obligations.RegisterFormsLand := by
  intro s d a b g h x y
  rw [← wMin_eq, ← wMax_eq, ← wMinu_eq, ← wMaxu_eq]
  have form (l : Nat) (f : Word → Word → Word) := aluRR_next h l f
  exact ⟨form 1 (· + ·), form 1 (· - ·), form 1 (· &&& ·), form 1 (· ||| ·), form 1 (· ^^^ ·), form 1 fun x y => wSll x (shAmt y),
    form 1 fun x y => wSrl x (shAmt y), form 1 fun x y => wSra x (shAmt y), form 4 (· * ·), form 4 wMulh, form 4 wMulhu, form 1 wMin, form 1 wMax,
    form 1 wMinu, form 1 wMaxu⟩

/-- Settles O3: each form as `aluRI` or `aluRS` at its operation, and `lui` by its own body. -/
theorem immediateFormsLand : Obligations.ImmediateFormsLand := by
  intro s d a sh i j g x y
  refine ⟨fun h => ?immediate, fun h => ?shift, execLui_next⟩
  case immediate => exact ⟨aluRI_next h i (· + ·), aluRI_next h i (· &&& ·), aluRI_next h i (· ||| ·), aluRI_next h i (· ^^^ ·)⟩
  case shift => exact ⟨aluRS_next h sh wSll, aluRS_next h sh wSrl, aluRS_next h sh wSra⟩

/-- Settles O4: the compares by their own bodies, the predicate forms as `predOp` at the operation of each. -/
theorem predicateFormsLand : Obligations.PredicateFormsLand := by
  intro s p q r a b c i g hc x
  refine ⟨execCmp_next hc, execCmpi_next hc, fun h => ?forms⟩
  case forms =>
    have form (f : Bool → Bool → Bool) := predOp_next h f
    exact ⟨form (· && ·), form (· || ·), form (· != ·), form fun x y => x && !y, form fun x _ => !x⟩

/-- Settles O13: each lands the target its body computes. -/
theorem branchTargetsLand : Obligations.BranchTargetsLand := fun _ _ _ _ _ => ⟨execPbr_next, execPbrR_next⟩

end Sys2Proof.Machine
end

section
/-! PROOFS. The scalar loads and stores (R102 to R106, R272, R290): what the body of each answers once its access passes, and with it what the
instruction leaves (Laws/Access.lean). -/

namespace Sys2Proof.Machine

section
variable {s u : State} {i : Instr} {d b w k : Nat} {p : Phys}

/-! ### Loads -/

theorem apertureLoad {rq ea n : Nat} {foot : Option (List Range)} (hin : inAperture ea = true) (hc : isC s.cur.eng = true)
    (hcheck : s.apertureCheck ea n false foot = .ok ()) (hready : s.spReady s.cur.die (apertureAt ea).1 (apertureAt ea).2 n false = .ok ()) :
    s.globalLoad i rq ea n foot = .ok (s.spBytes s.cur.die (apertureAt ea).1 (apertureAt ea).2 n, s.stampRemote s.cur.die (apertureAt ea).1) := by
  simp only [State.globalLoad, hin, hc, hcheck, hready, asReq, bind_ok, Bool.and_self, if_true]
  rfl

theorem ldBody_lands {bs : List Byte} (hal : aligned (s.memAddr b k (memSize w)) (memSize w) = true)
    (hload : s.globalLoad i (s.memAddr b k (memSize w)) (s.memAddr b k (memSize w)) (memSize w) (some s.myFoot) = .ok (bs, u)) :
    ldBody i d b w k s = .ok ((u.landLoad d w bs 1).trace 2 (log2Size (memSize w)) (BitVec.ofNat 64 (s.memAddr b k (memSize w)))) := by
  simp only [ldBody, need_ok hal, hload, bind_ok]
  rfl

theorem ldBody_leaves {v : State} (hal : aligned (s.memAddr b k (memSize w)) (memSize w) = true)
    (hload : s.globalLoad i (s.memAddr b k (memSize w)) (s.memAddr b k (memSize w)) (memSize w) (some s.myFoot) = .error (.wait v)) :
    ldBody i d b w k s = .error (.wait v) := by
  simp only [ldBody, need_ok hal, hload, bind_ok, bind_error]

theorem ldSpBody_lands (hal : aligned (s.memAddr b k (memSize w)) (memSize w) = true) (hov : s.myCore.overflow (s.memAddr b k (memSize w)) (memSize w) = none)
    (hcheck : s.myCore.spCheck (s.memAddr b k (memSize w)) (memSize w) false = .ok ())
    (hready : s.spReady s.cur.die s.cur.core (s.memAddr b k (memSize w)) (memSize w) false = .ok ()) :
    ldSpBody i d b w k s = .ok (s.landLoad d w (mRead s.myCore.scratch (s.memAddr b k (memSize w)) (memSize w)) 6) := by
  simp only [ldSpBody, need_ok hal, hov, hcheck, hready, liftTrap, bind_ok]
  rfl

theorem ldSpBody_overflows {va : Nat} {bs : List Byte} (hal : aligned (s.memAddr b k (memSize w)) (memSize w) = true)
    (hov : s.myCore.overflow (s.memAddr b k (memSize w)) (memSize w) = some va) (hload : s.globalLoad i va va (memSize w) none = .ok (bs, u)) :
    ldSpBody i d b w k s = .ok ((u.setSpov.landLoad d w bs 1).trace 2 (log2Size (memSize w)) (BitVec.ofNat 64 va)) := by
  simp only [ldSpBody, need_ok hal, hov, hload, bind_ok]
  rfl

theorem ldSpBody_leaves {v : State} {va : Nat} (hal : aligned (s.memAddr b k (memSize w)) (memSize w) = true)
    (hov : s.myCore.overflow (s.memAddr b k (memSize w)) (memSize w) = some va) (hload : s.globalLoad i va va (memSize w) none = .error (.wait v)) :
    ldSpBody i d b w k s = .error (.wait v) := by
  simp only [ldSpBody, need_ok hal, hov, hload, bind_ok, bind_error]

/-- A check of an access leaves SPOV alone. -/
theorem State.own_spov {v : State} {die core : Nat} {t : Option RunTask} {va n : Nat} {wr : Bool} (h : s.own die core t p va n wr = .ok v) :
    v.myCore.spov = s.myCore.spov := by
  obtain ⟨g, rfl⟩ := State.own_shape h
  rfl

/-- An access checked against no task leaves the owner tags alone (R106). -/
theorem State.own_none {v : State} {die core va n : Nat} {wr : Bool} (h : s.own die core none p va n wr = .ok v) : v = s := by
  cases h
  rfl

/-- The order of a clk stamped from outside leaves SPOV alone. -/
theorem State.stampRemote_spov (s : State) (die core : Nat) : (s.stampRemote die core).myCore.spov = s.myCore.spov := by
  obtain ⟨l, r, h⟩ := (s.stampRemote_shape die core).2 (coreKey s.cur.die s.cur.core)
  have e := congrArg Core.spov h
  exact e

theorem State.setSpov_spov (s : State) : s.setSpov.myCore.spov = true := congrArg Core.spov (s.myCore_setMyCore _)

/-- Settles O5: the body lands what the port or the aperture reads, or its request leaves first. -/
theorem loadsLand : Obligations.LoadsLand := by
  intro s d b i w g p u a n ea h hal
  have hi := (State.issues_iff.1 h).1
  refine ⟨fun hl => ⟨fun ho => ?port, fun hm ho => ?leaves⟩, fun hin hc hcheck hready => ?aperture⟩
  case port =>
    obtain ⟨t, h1, h2, h3, h4, h5⟩ := load_next h rfl (State.loadedFrom_own hl.own) rfl (State.tracedTo_trace _ _ _ _) (ldBody_lands hal (hl.reads ho))
    exact ⟨t, h1, h2, h3, h4.trans (State.own_spov (s := a) hl.own), h5⟩
  case leaves => exact issue_wait hi (ldBody_leaves hal (hl.leaves hm ho))
  case aperture =>
    obtain ⟨t, h1, h2, h3, h4, h5⟩ := load_next h rfl (s.loadedFrom_stampRemote _ _) rfl (State.tracedTo_trace _ _ _ _)
      (ldBody_lands hal (apertureLoad hin hc hcheck hready))
    exact ⟨t, h1, h2, h3, h4.trans (a.stampRemote_spov _ _), h5⟩

/-- Settles O6: the same of the scratchpad, and of the overflow window, whose accesses are no task's. -/
theorem scratchpadLoadsLand : Obligations.ScratchpadLoadsLand := by
  intro s d b i w g p u a n ea h hal
  have hi := (State.issues_iff.1 h).1
  refine ⟨fun hov hcheck hready => ?scratchpad, fun va hov hl => ⟨fun ho => ?window, fun hm ho => ?leaves⟩⟩
  case scratchpad => exact load_next (v := a) h rfl s.loadedFrom_atIssue rfl (State.TracedTo.refl _) (ldSpBody_lands hal hov hcheck hready)
  case window =>
    have hu : u = a := State.own_none hl.own
    obtain ⟨t, h1, h2, h3, h4, h5⟩ := load_next h rfl (State.loadedFrom_setSpov (State.loadedFrom_own hl.own)) rfl (State.tracedTo_trace _ _ _ _)
      (ldSpBody_overflows hal hov (hl.reads ho))
    exact ⟨t, h1, h2, h3.trans (by rw [hu]; rfl), h4.trans u.setSpov_spov, h5⟩
  case leaves => exact issue_wait hi (ldSpBody_leaves hal hov (hl.leaves hm ho))

end

end Sys2Proof.Machine
end

section
/-! PROOFS. The scalar stores (R103 to R106, R272, R290): to the store queue, through a window, through the aperture, to the scratchpad. -/

namespace Sys2Proof.Machine

/-! ### What a store's instruction leaves -/

section
variable {s u v w : State} {f : Form} {body : State → Res State}

/-- A store's body with an effect outside its core, its trace entry aside. -/
theorem store_next (h : s.issues f = true) (heff : f.eff = true) (hv : s.StoredFrom v) (hw : v.TracedTo w) (hb : body s.atIssue = .ok w) :
    ∃ t, issue s f body = .next t ∧ s.AccessOnly t ∧ t.me.x = s.me.x ∧ v.Ends t v.myCore.marked.task := by
  obtain ⟨h1, h2⟩ := State.issues_iff.1 h
  obtain ⟨a, b, c⟩ := State.access_end h2 heff hv (State.Lands.refl v) hw
  exact ⟨_, issue_ok h1 hb, a, b.trans (congrArg Engine.x hv.me), c⟩

/-- The same of a body whose effect stays in its core. -/
theorem store_next_plain (h : s.issues f = true) (heff : f.eff = false) (hv : s.StoredFrom v) (hw : v.TracedTo w) (hb : body s.atIssue = .ok w) :
    ∃ t, issue s f body = .next t ∧ s.AccessOnly t ∧ t.me.x = s.me.x ∧ v.Ends t v.myCore.task := by
  obtain ⟨h1, h2⟩ := State.issues_iff.1 h
  obtain ⟨a, b, c⟩ := State.access_end_plain h2 heff hv (State.Lands.refl v) hw
  exact ⟨_, issue_ok h1 hb, a, b.trans (congrArg Engine.x hv.me), c⟩

/-- The end of an instruction leaves every scratchpad as the body did. -/
theorem State.Ends.scratchAt {t : State} {tk : Option RunTask} (h : v.Ends t tk) (hc : t.cur = v.cur) (k : Nat) :
    (tGet {} t.cores k).scratch = (tGet {} v.cores k).scratch := by
  by_cases hk : k = coreKey v.cur.die v.cur.core
  · have e := h.scratch
    unfold State.myCore State.coreAt at e
    rw [hc] at e
    rw [hk, e]
  · rw [h.others k hk]

/-! ### Scratchpad writes and remote stamps, core by core -/

theorem State.Wrote.scratch {die core lo : Nat} {data : List Byte} (h : s.Wrote v die core lo data) :
    (tGet {} v.cores (coreKey die core)).scratch = mWrite (tGet {} s.cores (coreKey die core)).scratch lo data := by
  obtain ⟨e, he⟩ := h.own
  exact (congrArg Core.scratch he :)

theorem State.Wrote.storeq {die core lo : Nat} {data : List Byte} (h : s.Wrote v die core lo data) (k : Nat) :
    (tGet {} v.cores k).storeq = (tGet {} s.cores k).storeq := by
  by_cases hk : k = coreKey die core
  · obtain ⟨e, he⟩ := h.own
    rw [hk]
    exact (congrArg Core.storeq he :)
  · rw [h.other k hk]

theorem State.stampRemote_scratch (die core k : Nat) : (tGet {} (s.stampRemote die core).cores k).scratch = (tGet {} s.cores k).scratch := by
  obtain ⟨l, r, h⟩ := (s.stampRemote_shape die core).2 k
  rw [h]

theorem State.stampRemote_storeq (die core k : Nat) : (tGet {} (s.stampRemote die core).cores k).storeq = (tGet {} s.cores k).storeq := by
  obtain ⟨l, r, h⟩ := (s.stampRemote_shape die core).2 k
  rw [h]

/-- A scratchpad of the die written by an access of the current core through the aperture (R272). -/
structure State.ApertureWrote (s v : State) (core lo : Nat) (data : List Byte) : Prop where
  stored  : s.StoredFrom v
  mem     : v.mem = s.mem
  posts   : v.posts = s.posts
  storeq  : v.myCore.storeq = s.myCore.storeq
  scratch : (v.coreAt s.cur.die core).scratch = mWrite (s.coreAt s.cur.die core).scratch lo data
  others  : ∀ k, k ≠ coreKey s.cur.die core → (tGet {} v.cores k).scratch = (tGet {} s.cores k).scratch

theorem State.apertureWrote (s : State) (core lo : Nat) (data : List Byte) :
    s.ApertureWrote ((s.atIssue.spWrite s.cur.die core lo data).stampRemote s.cur.die core) core lo data := by
  have hw := s.atIssue.wrote_spWrite s.cur.die core lo data
  have hs := hw.storedFrom
  obtain ⟨c, g, e⟩ := hw.shape
  refine ⟨hs.stampRemote _ _, (by rw [e]; rfl), (by rw [e]; rfl), ?_, (State.stampRemote_scratch _ _ _).trans hw.scratch, fun k hk => ?_⟩
  · unfold State.myCore State.coreAt
    rw [State.stampRemote_storeq, hw.storeq, (hs.stampRemote _ _).cur]
    rfl
  · rw [State.stampRemote_scratch, hw.other k hk]
    rfl

/-! ### What the body of each answers -/

variable {d b k : Nat} {m : BitVec 3}

/-- The address of a store and its bytes. -/
theorem apertureStore {ea : Nat} {data : List Byte} {foot : Option (List Range)} (hin : inAperture ea = true) (hc : isC s.cur.eng = true)
    (hcheck : s.apertureCheck ea data.length true foot = .ok ())
    (hsp : (s.coreAt s.cur.die (apertureAt ea).1).spCheck (apertureAt ea).2 data.length true = .ok ())
    (hready : s.spReady s.cur.die (apertureAt ea).1 (apertureAt ea).2 data.length true = .ok ()) :
    s.globalStore ea data foot = .ok ((s.spWrite s.cur.die (apertureAt ea).1 (apertureAt ea).2 data).stampRemote s.cur.die (apertureAt ea).1) := by
  simp only [State.globalStore, hin, hc, hcheck, hsp, hready, liftAt, bind_ok, Bool.and_self, if_true]
  rfl

theorem stBody_stores (hal : aligned (s.memAddr b k (memSize m.toNat)) (memSize m.toNat) = true)
    (hst : s.globalStore (s.memAddr b k (memSize m.toNat)) (s.storeData d (memSize m.toNat)) (some s.myFoot) = .ok v) :
    stBody d b m.toNat k s = .ok (v.trace 3 (log2Size (memSize m.toNat)) (BitVec.ofNat 64 (s.memAddr b k (memSize m.toNat)))) := by
  simp only [stBody, need_ok hal, hst, bind_ok]
  rfl

theorem stSpBody_stores (hal : aligned (s.memAddr b k (memSize m.toNat)) (memSize m.toNat) = true)
    (hov : s.myCore.overflow (s.memAddr b k (memSize m.toNat)) (memSize m.toNat) = none)
    (hcheck : s.myCore.spCheck (s.memAddr b k (memSize m.toNat)) (memSize m.toNat) true = .ok ())
    (hready : s.spReady s.cur.die s.cur.core (s.memAddr b k (memSize m.toNat)) (memSize m.toNat) true = .ok ()) :
    stSpBody d b m.toNat k s = .ok (s.spWrite s.cur.die s.cur.core (s.memAddr b k (memSize m.toNat)) (s.storeData d (memSize m.toNat))) := by
  simp only [stSpBody, need_ok hal, hov, hcheck, hready, liftTrap, bind_ok]
  rfl

theorem stSpBody_overflows {va : Nat} (hal : aligned (s.memAddr b k (memSize m.toNat)) (memSize m.toNat) = true)
    (hov : s.myCore.overflow (s.memAddr b k (memSize m.toNat)) (memSize m.toNat) = some va)
    (hst : s.globalStore va (s.storeData d (memSize m.toNat)) none = .ok v) :
    stSpBody d b m.toNat k s = .ok (v.setSpov.markEffect.trace 3 (log2Size (memSize m.toNat)) (BitVec.ofNat 64 va)) := by
  simp only [stSpBody, need_ok hal, hov, hst, bind_ok]
  rfl

end

/-! ### The obligations -/

/-- A store's queue entry, put last. -/
theorem State.StoredFrom.queued {s u : State} (hu : s.StoredFrom u) (w : Eng) (p : Phys) (ea : Nat) (data : List Byte) :
    s.StoredFrom (u.setMyCore (u.myCore.queueStore w p ea data)) := hu.core' _ ⟨_, _, _, _, _, _, _, _, _, rfl⟩

/-- A posted store of the current stream. -/
theorem State.StoredFrom.posted {s u : State} (hu : s.StoredFrom u) (w : Eng) (p : Phys) (h : Nat) (data : List Byte) :
    s.StoredFrom (u.post s.cur.die s.cur.core w p h data) := hu.cur ▸ hu.post w p h data

theorem State.post_posts (u : State) (die core : Nat) (w : Eng) (p : Phys) (h : Nat) (data : List Byte) : (u.post die core w p h data).posts =
    u.posts ++ [⟨die, core, (u.coreAt die core).nextPid, h, p.exp, p.slot.getD 0, BitVec.ofNat 64 p.va, if p.ok then some p.key else none, data⟩] := rfl

/-- The current core past a posted store. -/
theorem State.myCore_post {s u : State} (hu : u.cur = s.cur) (w : Eng) (p : Phys) (h : Nat) (data : List Byte) :
    (u.post s.cur.die s.cur.core w p h data).myCore = { u.coreAt s.cur.die s.cur.core with
      nextPid := (u.coreAt s.cur.die s.cur.core).nextPid + 1,
      posted := (u.coreAt s.cur.die s.cur.core).posted ++ [{ pid := (u.coreAt s.cur.die s.cur.core).nextPid, imp := p.imp, home := some h, eng := w, mtype := p.mtype }] } := by
  rw [← hu]
  exact u.post_myCore w p h data

/-- What a check of an access leaves alone. -/
theorem State.own_frame {s u : State} {die core : Nat} {t : Option RunTask} {p : Phys} {va n : Nat} {wr : Bool} (h : s.own die core t p va n wr = .ok u) :
    u.cur = s.cur ∧ u.mem = s.mem ∧ u.posts = s.posts ∧ ∀ d k, u.coreAt d k = s.coreAt d k := by
  obtain ⟨g, rfl⟩ := State.own_shape h
  exact ⟨rfl, rfl, rfl, fun _ _ => rfl⟩

/-- Settles O7: by where the store goes. -/
theorem storesLand : Obligations.StoresLand := by
  intro s d b i w g p u a n ea data hw h hal
  have hn : data.length = n := State.storeData_length _ _ _
  refine ⟨fun hst hp => ?queue, fun k hst hp => ?post, fun hin hc hcheck hsp hready => ?aperture⟩
  case queue =>
    rw [← hn] at hst
    have hu := State.storedFrom_own hst.own
    obtain ⟨t, h1, h2, h3, h4⟩ := store_next h rfl (hu.queued _ _ _ _) (State.tracedTo_trace _ _ _ _) (stBody_stores hal (hst.queues hp))
    obtain ⟨tg, rfl⟩ := State.own_shape hst.own
    exact ⟨t, h1, h2, h3, h4.mem, h4.tags, h4.posts, h4.scratch.trans (by rw [State.myCore_setMyCore]; rfl),
      h4.storeq.trans (by rw [State.myCore_setMyCore]; rfl)⟩
  case post =>
    rw [← hn] at hst
    have hu := State.storedFrom_own hst.own
    obtain ⟨t, h1, h2, h3, h4⟩ := store_next h rfl (hu.posted s.cur.eng _ _ _) (State.tracedTo_trace _ _ _ _) (stBody_stores hal (hst.posts hp))
    have hc : (u.post s.cur.die s.cur.core s.cur.eng p (a.expDie p) data).myCore = _ := State.myCore_post hu.cur _ _ _ _
    obtain ⟨hcur, hmem, hposts, hcore⟩ := State.own_frame hst.own
    exact ⟨t, h1, h2, h3, h4.mem.trans hmem, h4.tags, h4.scratch.trans (by rw [hc, hcore]; rfl), h4.storeq.trans (by rw [hc, hcore]; rfl),
      h4.posts.trans (by rw [State.post_posts, hposts, hcore, hp]; rfl)⟩
  case aperture =>
    have hv := s.apertureWrote (apertureAt ea).1 (apertureAt ea).2 data
    obtain ⟨t, h1, h2, h3, h4⟩ := store_next h rfl hv.stored (State.tracedTo_trace _ _ _ _)
      (stBody_stores hal (apertureStore hin hc (hn.symm ▸ hcheck) (hn.symm ▸ hsp) (hn.symm ▸ hready)))
    have hs := h4.scratchAt (h2.cur.trans hv.stored.cur.symm)
    exact ⟨t, h1, h2, h3, h4.mem.trans hv.mem, h4.posts.trans hv.posts, h4.storeq.trans hv.storeq, (hs _).trans hv.scratch,
      fun k hk => (hs k).trans (hv.others k hk)⟩

/-- Settles O8: the scratchpad, or the overflow window, whose accesses are no task's. -/
theorem scratchpadStoresLand : Obligations.ScratchpadStoresLand := by
  intro s d b i w g p u a n ea data hw h hal
  have hn : data.length = n := State.storeData_length _ _ _
  refine ⟨fun hov hcheck hready => ?scratchpad, fun va hov hst hp => ?window⟩
  case scratchpad =>
    have hv := a.wrote_spWrite s.cur.die s.cur.core ea data
    obtain ⟨t, h1, h2, h3, h4⟩ := store_next_plain h rfl hv.storedFrom (State.TracedTo.refl _) (stSpBody_stores hal hov hcheck hready)
    obtain ⟨c, tg, e⟩ := hv.shape
    obtain ⟨q, hq⟩ := hv.own
    have hc : (a.spWrite s.cur.die s.cur.core ea data).cur = s.cur := by rw [e]; rfl
    have hm : (a.spWrite s.cur.die s.cur.core ea data).myCore = { s.myCore with scratch := mWrite s.myCore.scratch ea data, sectors := q } := by
      rw [State.myCore, hc]; exact hq
    exact ⟨t, h1, h2, h3, h4.mem.trans (by rw [e]; rfl), h4.posts.trans (by rw [e]; rfl), h4.storeq.trans (by rw [hm]), h4.spov.trans (by rw [hm]),
      h4.scratch.trans (by rw [hm]), fun hst => h4.tags.trans (hv.plain hst).1, fun k hk => (h4.others k (by rw [hc]; exact hk)).trans (hv.other k hk)⟩
  case window =>
    rw [← hn] at hst
    have hu : u = a := State.own_none hst.own
    subst hu
    have hv : s.StoredFrom (State.markEffect (State.setSpov (a.setMyCore (a.myCore.queueStore a.cur.eng p va data)))) :=
      State.storedFrom_mark ((s.storedFrom_atIssue.queued _ _ _ _).core' _ ⟨_, _, _, _, _, _, _, _, _, rfl⟩)
    obtain ⟨t, h1, h2, h3, h4⟩ := store_next_plain h rfl hv (State.tracedTo_trace _ _ _ _) (stSpBody_overflows hal hov (hst.queues hp))
    have hm : (State.markEffect (State.setSpov (a.setMyCore (a.myCore.queueStore a.cur.eng p va data)))).myCore =
        ({ a.myCore.queueStore a.cur.eng p va data with spov := true } : Core).marked := by simp [State.markEffect, State.setSpov]
    exact ⟨t, h1, h2, h3, h4.mem, h4.tags, h4.posts, h4.scratch.trans (by rw [hm]; rfl), h4.spov.trans (by rw [hm]; rfl),
      h4.storeq.trans (by rw [hm]; rfl)⟩

end Sys2Proof.Machine
end

section
/-! PROOFS. The atomics (R108 to R111, R272, R291): what their access answers of memory, through the aperture and in the scratchpad, and what their
instruction leaves. -/

namespace Sys2Proof.Machine

/-! ### What an atomic's access answers -/

section
variable {s : State} {i : Instr} {ea n sc : Nat} {p : Phys} {f : Nat → Nat}

theorem State.AtomicAt.sends (h : s.AtomicAt ea n p) (hal : aligned ea n = true) (hout : s.reqOut i ea = false) (hmay : s.AtomicMay n sc p) :
    s.atomGlobal i ea n sc false f = .error (.wait (s.noteReq i ea true)) := by
  have hap := State.check_aperture h.check
  have hscope : ((decide (sc = 0) && p.slot.isNone) || s.released) = true := by
    rcases hmay.scope with ⟨h0, hs⟩ | hr
    · simp [h0, hs]
    · simp [hr]
  simp only [State.atomGlobal, hal, hap, h.check, liftAt, h.normal, need, h.record, hout, hscope, hmay.own, h.normal ▸ hmay.order, await, bind_ok,
    Bool.false_eq_true, if_false, Bool.not_false, Bool.and_self, Bool.or_true, if_true, decide_true]
  rfl

theorem State.AtomicAt.lands (h : s.AtomicAt ea n p) (hal : aligned ea n = true) (hout : s.reqOut i ea = true) (hw : s.canWrite p.home none p n = .ok ()) :
    s.atomGlobal i ea n sc false f = .ok (s.cohNat p.key n, s.putMem p.key p.keyNo (natToBytes n (f (s.cohNat p.key n)))) := by
  have hap := State.check_aperture h.check
  simp only [State.atomGlobal, hal, hap, h.check, liftAt, h.normal, need, h.record, hout, hw, asReq, await, bind_ok, Bool.false_eq_true, if_false,
    Bool.not_false, Bool.true_or, if_true, decide_true]
  rfl

/-- The checks of an atomic through the aperture (R272). -/
structure State.ApertureAtomic (s : State) (ea n : Nat) : Prop where
  aligned : aligned ea n = true
  within  : inAperture ea = true
  check   : s.apertureCheck ea n true none = .ok ()
  range   : (s.coreAt s.cur.die (apertureAt ea).1).spCheck (apertureAt ea).2 n true = .ok ()

theorem State.ApertureAtomic.sends (h : s.ApertureAtomic ea n) (hout : s.reqOut i ea = false) (hmay : sc = 0 ∨ s.released = true) :
    s.atomGlobal i ea n sc false f = .error (.wait (s.noteReq i ea true)) := by
  have hscope : (decide (sc = 0) || s.released) = true := by simpa using hmay
  simp only [State.atomGlobal, h.aligned, h.within, h.check, h.range, liftAt, need, hout, hscope, Bool.false_or, await, bind_ok, Bool.not_false, if_true,
    Bool.false_eq_true, if_false]
  rfl

theorem State.ApertureAtomic.lands (h : s.ApertureAtomic ea n) (hout : s.reqOut i ea = true)
    (hready : s.spReady s.cur.die (apertureAt ea).1 (apertureAt ea).2 n true = .ok ()) :
    let old := bytesToNat (s.spBytes s.cur.die (apertureAt ea).1 (apertureAt ea).2 n)
    s.atomGlobal i ea n sc false f =
      .ok (old, (s.spWrite s.cur.die (apertureAt ea).1 (apertureAt ea).2 (natToBytes n (f old))).stampRemote s.cur.die (apertureAt ea).1) := by
  simp only [State.atomGlobal, h.aligned, h.within, h.check, h.range, liftAt, need, hout, hready, Bool.true_or, await, bind_ok, Bool.not_false, if_true]
  rfl

theorem atomScratch_lands (hal : aligned ea n = true) (hsp : s.myCore.spCheck ea n true = .ok ()) (hr : s.spReady s.cur.die s.cur.core ea n false = .ok ())
    (hw : s.spReady s.cur.die s.cur.core ea n true = .ok ()) :
    let old := bytesToNat (mRead s.myCore.scratch ea n)
    s.atomScratch ea n false f = .ok (old, s.spWrite s.cur.die s.cur.core ea (natToBytes n (f old))) := by
  simp only [State.atomScratch, hal, hsp, hr, hw, liftTrap, need, bind_ok, Bool.not_false, if_true]
  rfl

end

/-! ### What an atomic's instruction leaves -/

/-- An atomic past its access: the old value landed, and one trace entry made. -/
theorem atomic_next {s v w : State} {f : Form} {body : State → Res State} {d n old l : Nat} (h : s.issues f = true) (heff : f.eff = true) (hv : s.StoredFrom v)
    (hw : (v.landOld d n old l).TracedTo w) (hb : body s.atIssue = .ok w) :
    ∃ t, issue s f body = .next t ∧ s.AccessOnly t ∧ s.Regs t (landedOld d n old) ∧ v.Ends t v.myCore.marked.task := by
  obtain ⟨h1, h2⟩ := State.issues_iff.1 h
  obtain ⟨a, b, c⟩ := State.access_end h2 heff hv (v.lands_landOld d n old l) hw
  exact ⟨_, issue_ok h1 hb, a, hv.regs (v.regs_landOld d n old l) b, c⟩

/-- Bytes put in memory. -/
theorem State.storedFrom_putMem (s : State) (key kn : Nat) (data : List Byte) : s.StoredFrom (s.atIssue.putMem key kn data) :=
  ⟨⟨_, _, _, _, _, rfl⟩, _, _, _, _, _, _, _, _, _, rfl⟩

section
variable {s : State} {i : Instr} {b d c z : Nat} {f : Nat → Nat} {p : Phys} {form : Form} {body : State → Res State}

/-- What the body of an atomic does, whichever operation it has. -/
def atomicBody (i : Instr) (d ea n sc : Nat) (det : Bool) (f : Nat → Nat) (s : State) : Res State := do
  let r ← s.atomGlobal i ea n sc det f
  pure ((r.2.landOld d n r.1 1).trace 4 (log2Size n) (BitVec.ofNat 64 ea))

variable {ea n sc : Nat} {det : Bool}

/-- An atomic of memory: its request, then its effect on exactly its bytes. -/
theorem atomic_memory (hbody : body s.atIssue = atomicBody i d ea n sc det f s.atIssue) (h : s.issues form = true) (heff : form.eff = true)
    (hal : aligned ea n = true) (hat : s.atIssue.AtomicAt ea n p) (hdet : det = false) :
    (s.atIssue.reqOut i ea = false → s.atIssue.AtomicMay n sc p → issue s form body = .next (s.atIssue.noteReq i ea true)) ∧
    (s.atIssue.reqOut i ea = true → s.atIssue.canWrite p.home none p n = .ok () →
      ∃ t, issue s form body = .next t ∧ s.AccessOnly t ∧ s.Regs t (landedOld d n (s.atIssue.cohNat p.key n)) ∧ t.tags = s.tags ∧
        t.posts = s.posts ∧ t.myCore.storeq = s.myCore.storeq ∧ t.myCore.scratch = s.myCore.scratch ∧
        (∀ k, k ≠ coreKey s.cur.die s.cur.core → tGet {} t.cores k = tGet {} s.cores k) ∧
        ∀ k, tGet 0 t.mem k = if p.key ≤ k ∧ k < p.key + n then (natToBytes n (f (s.atIssue.cohNat p.key n))).getD (k - p.key) 0 else tGet 0 s.mem k) := by
  subst hdet
  refine ⟨fun hout hmay => ?sends, fun hout hw => ?lands⟩
  case sends => exact issue_wait (State.issues_iff.1 h).1 (by rw [hbody, atomicBody, hat.sends hal hout hmay]; rfl)
  case lands =>
    obtain ⟨t, h1, h2, h3, h4⟩ := atomic_next h heff (s.storedFrom_putMem _ _ _) (State.tracedTo_trace _ _ _ _)
      (show body s.atIssue = .ok _ by rw [hbody, atomicBody, hat.lands hal hout hw]; rfl)
    refine ⟨t, h1, h2, h3, h4.tags, h4.posts, h4.storeq, h4.scratch, h4.others, fun k => ?_⟩
    rw [h4.mem, State.putMem, tGet_mWrite, natToBytes_length]
    rfl

/-- An atomic through the aperture: its request, then its effect on the other core's scratchpad. -/
theorem atomic_aperture (hbody : body s.atIssue = atomicBody i d ea n sc det f s.atIssue) (h : s.issues form = true) (heff : form.eff = true)
    (hat : s.atIssue.ApertureAtomic ea n) (hdet : det = false) :
    let k := (apertureAt ea).1
    let off := (apertureAt ea).2
    let old := bytesToNat (s.atIssue.spBytes s.cur.die k off n)
    (s.atIssue.reqOut i ea = false → sc = 0 ∨ s.atIssue.released = true → issue s form body = .next (s.atIssue.noteReq i ea true)) ∧
    (s.atIssue.reqOut i ea = true → s.atIssue.spReady s.cur.die k off n true = .ok () →
      ∃ t, issue s form body = .next t ∧ s.AccessOnly t ∧ s.Regs t (landedOld d n old) ∧ t.mem = s.mem ∧ t.posts = s.posts ∧
        t.myCore.storeq = s.myCore.storeq ∧ (t.coreAt s.cur.die k).scratch = mWrite (s.coreAt s.cur.die k).scratch off (natToBytes n (f old)) ∧
        ∀ j, j ≠ coreKey s.cur.die k → (tGet {} t.cores j).scratch = (tGet {} s.cores j).scratch) := by
  subst hdet
  intro k off old
  refine ⟨fun hout hmay => ?sends, fun hout hready => ?lands⟩
  case sends => exact issue_wait (State.issues_iff.1 h).1 (by rw [hbody, atomicBody, hat.sends hout hmay]; rfl)
  case lands =>
    have hv := s.apertureWrote k off (natToBytes n (f old))
    obtain ⟨t, h1, h2, h3, h4⟩ := atomic_next h heff hv.stored (State.tracedTo_trace _ _ _ _)
      (show body s.atIssue = .ok _ by rw [hbody, atomicBody, hat.lands hout hready]; rfl)
    have hs := h4.scratchAt (h2.cur.trans hv.stored.cur.symm)
    exact ⟨t, h1, h2, h3, h4.mem.trans hv.mem, h4.posts.trans hv.posts, h4.storeq.trans hv.storeq, (hs _).trans hv.scratch,
      fun j hj => (hs j).trans (hv.others j hj)⟩

/-- What the body of a scratchpad atomic does, whichever operation it has. -/
def scratchAtomicBody (d n : Nat) (ea : Word) (det : Bool) (f : Nat → Nat) (s : State) : Res State := do
  let r ← s.atomScratch ea.toNat n det f
  pure ((r.2.landOld d n r.1 8).trace 4 (log2Size n) ea)

/-- An atomic of the scratchpad (R111). -/
theorem atomic_scratch {x : Word} (hbody : body s.atIssue = scratchAtomicBody d n x det f s.atIssue) (h : s.issues form = true) (heff : form.eff = true)
    (hal : aligned x.toNat n = true) (hsp : s.myCore.spCheck x.toNat n true = .ok ()) (hr : s.atIssue.spReady s.cur.die s.cur.core x.toNat n false = .ok ())
    (hw : s.atIssue.spReady s.cur.die s.cur.core x.toNat n true = .ok ()) (hdet : det = false) :
    let old := bytesToNat (mRead s.myCore.scratch x.toNat n)
    ∃ t, issue s form body = .next t ∧ s.AccessOnly t ∧ s.Regs t (landedOld d n old) ∧ t.mem = s.mem ∧ t.posts = s.posts ∧
      t.myCore.storeq = s.myCore.storeq ∧ t.myCore.scratch = mWrite s.myCore.scratch x.toNat (natToBytes n (f old)) ∧
      ∀ k, k ≠ coreKey s.cur.die s.cur.core → tGet {} t.cores k = tGet {} s.cores k := by
  subst hdet
  intro old
  have hv := s.atIssue.wrote_spWrite s.cur.die s.cur.core x.toNat (natToBytes n (f old))
  obtain ⟨t, h1, h2, h3, h4⟩ := atomic_next h heff hv.storedFrom (State.tracedTo_trace _ _ _ _)
    (show body s.atIssue = .ok _ by rw [hbody, scratchAtomicBody, atomScratch_lands (s := s.atIssue) hal hsp hr hw]; rfl)
  obtain ⟨c, tg, e⟩ := hv.shape
  obtain ⟨q, hq⟩ := hv.own
  have hc := hv.storedFrom.cur
  have hm : (s.atIssue.spWrite s.cur.die s.cur.core x.toNat (natToBytes n (f old))).myCore =
      { s.myCore with scratch := mWrite s.myCore.scratch x.toNat (natToBytes n (f old)), sectors := q } := by
    rw [State.myCore, hc]; exact hq
  exact ⟨t, h1, h2, h3, h4.mem.trans (by rw [e]; rfl), h4.posts.trans (by rw [e]; rfl), h4.storeq.trans (by rw [hm]), h4.scratch.trans (by rw [hm]),
    fun k hk => (h4.others k (by rw [hc]; exact hk)).trans (hv.other k hk)⟩

end

/-- `fadd` outside a deterministic phase, and every other operation, passes the check of R108. -/
theorem det_passes {o : Nat} {det : Bool} (h : ¬(o = 7 ∧ det = true)) : (decide (o = 7) && det) = false := by simpa using h

/-! ### The obligations -/

/-- Settles O10: `atom` and `cas` as the one body at their operations, of memory and through the aperture. -/
theorem memoryAtomicsLand : Obligations.MemoryAtomicsLand := by
  refine ⟨?memory, ?aperture⟩
  case memory =>
    intro s d b o z c g p a n ea old acts hal hat
    exact ⟨fun h hdet => atomic_memory (body := atomBody _ _ _ _ _ _) rfl h rfl hal hat (det_passes hdet),
      fun h => atomic_memory (body := casBody _ _ _ _ _) rfl h rfl hal hat rfl⟩
  case aperture =>
    intro s d b o z c g a n ea k off old acts hal hin hcheck hsp
    have hap : a.ApertureAtomic ea n := ⟨hal, hin, hcheck, hsp⟩
    exact ⟨fun h hdet => atomic_aperture (body := atomBody _ _ _ _ _ _) rfl h rfl hap (det_passes hdet),
      fun h => atomic_aperture (body := casBody _ _ _ _ _) rfl h rfl hap rfl⟩

/-- Settles O11: `atom.sp` and `cas.sp` as the one body at their operations. -/
theorem scratchpadAtomicsLand : Obligations.ScratchpadAtomicsLand := by
  intro s d b o z c g a n ea old done hal hsp hr hw
  exact ⟨fun h hdet => atomic_scratch (body := atomSpBody _ _ _ _) rfl h rfl hal hsp hr hw (det_passes hdet),
    fun h => atomic_scratch (body := casSpBody _ _ _) rfl h rfl hal hsp hr hw rfl⟩

end Sys2Proof.Machine
end

section
/-! PROOFS. Fences, flush signals and tokens, branches, and the event instructions (R112 to R118). -/

namespace Sys2Proof.Machine

/-! ### A core changed and one register landed -/

/-- A body that leaves the current core as c and then lands one scalar register. -/
theorem coreTo_landX {s : State} {f : Form} {c : Core} {body : State → Res State} {d l : Nat} {x : Word} (h : s.issues f = true) (heff : f.eff = false)
    (hc : c.eng s.cur.eng = s.me) (hb : body s.atIssue = .ok ((s.atIssue.setMyCore c).landX d x l)) :
    ∃ t, issue s f body = .next t ∧ s.CoreTo t c ∧ s.Regs t (fun r => if r = d then some x else none) := by
  obtain ⟨t, h1, h2, h3⟩ := coreTo_next h heff rfl hc (State.lands_landX _ d x l) hb
  have hme : (s.atIssue.setMyCore c).me = s.me := by rw [State.me_setMyCore]; exact hc
  refine ⟨t, h1, h2, fun r => ?_⟩
  rw [h3, State.landX_regs, hme]
  change (if r = d ∧ ¬(isC s.cur.eng = true ∧ d = 0) then x else tGet 0 s.me.x r) = _
  by_cases hr : r = d
  · subst hr
    by_cases hz : isC s.cur.eng = true ∧ r = 0 <;> simp [hz]
  · simp [hr]

/-- A body that leaves the current core as c. -/
theorem coreTo_plain {s : State} {f : Form} {c : Core} {body : State → Res State} (h : s.issues f = true) (heff : f.eff = false)
    (hc : c.eng s.cur.eng = s.me) (hb : body s.atIssue = .ok (s.atIssue.setMyCore c)) : ∃ t, issue s f body = .next t ∧ s.CoreTo t c := by
  obtain ⟨t, h1, h2, -⟩ := coreTo_next_plain h heff hc hb
  exact ⟨t, h1, h2⟩

/-! ### Fences and tokens -/

/-- Completing flushes leaves the streams of the core as they are. -/
@[simp] theorem settleFlushes_eng (c : Core) (fs : List Flush) (w : Eng) : (settleFlushes c fs).eng w = c.eng w := by
  induction fs generalizing c with
  | nil => cases w <;> rfl
  | cons f fs ih =>
    rw [settleFlushes]
    by_cases h : f.items.isEmpty = true
    · rw [if_pos h, ih]; cases w <;> rfl
    · rw [if_neg h]; cases w <;> rfl

theorem Core.signalled_eng (c : Core) (items : List OutItem) (map : Word) (w : Eng) : (c.signalled items map).eng w = c.eng w := by
  rw [Core.signalled, settleFlushes_eng]
  cases w <;> rfl

section
variable {s : State} {d x : BitVec 6} {sc g : BitVec 3}

theorem execFence_next (h : s.issues { fC g with wf := sc.toNat ≤ 3 } = true) (hrel : sc.toNat ≠ 0 → s.released = true)
    (hown : sc.toNat = 0 → ∀ q ∈ s.myCore.storeq, ¬(q.eng = s.cur.eng ∧ q.mtype = 1)) : ∃ t, execFence sc g s = .next t ∧ s.PlaceOnly t := by
  have hgo : (if sc.toNat = 0 then s.myCore.storeq.all (fun q => !(q.eng = s.cur.eng && q.mtype = 1)) else s.released) = true := by
    split_ifs with hz
    · simpa [imp_iff_not_or] using hown hz
    · exact hrel hz
  exact place_next h rfl (congrArg (· >>= fun _ => pure s.atIssue) (await_ok hgo s.atIssue))

/-- `flsig` that covers a list of outstanding stores, its token's mask given (R113). -/
theorem flush_next {f : Form} {body : State → Res State} {dd : Nat} (h : s.issues f = true) (heff : f.eff = false) (items : List OutItem) (mask : Nat)
    (hb : body s.atIssue = .ok (s.atIssue.flush_ dd items mask)) : ∃ t, issue s f body = .next t ∧
      s.CoreTo t (s.myCore.signalled items s.mill.dieMap) ∧ s.Regs t (fun r => if r = dd then some (s.token mask) else none) :=
  coreTo_landX h heff (Core.signalled_eng ..) hb

/-- With no handle named, every outstanding store of the core is covered. -/
theorem execFlsig_all (h : s.issues (fC g) = true) (hx : x.toNat = 0) :
    let mask := dieMask ((s.myCore.posted.filter (fun i => !i.dropped && !i.done)).filterMap (fun i => i.home.map s.vdie))
    ∃ t, execFlsig d x g s = .next t ∧ s.CoreTo t (s.myCore.signalled s.myCore.posted s.mill.dieMap) ∧
      s.Regs t (fun r => if r = d.toNat then some (s.token mask) else none) :=
  flush_next h rfl _ _ (if_pos hx)

/-- With a handle named, the outstanding stores through its import. -/
theorem execFlsig_import {e : Nat × ImportEnt} (h : s.issues (fC g) = true) (hx : x.toNat ≠ 0) (hi : s.importOf s.myCtx (s.atIssue.rx x.toNat) [1, 3] = .ok e) :
    ∃ t, execFlsig d x g s = .next t ∧ s.CoreTo t (s.myCore.signalled (s.myCore.posted.filter (fun i => i.imp = e.2.uid)) s.mill.dieMap) ∧
      s.Regs t (fun r => if r = d.toNat then some (s.token (if e.2.foreign then 0 else dieMask [e.2.vdie])) else none) :=
  flush_next h rfl _ _ ((if_neg hx).trans (congrArg (fun r => liftTrap r >>= _) hi))

theorem execFlsig_bad {r : TrapRec} (h : s.issues (fC g) = true) (hx : x.toNat ≠ 0) (hi : s.importOf s.myCtx (s.atIssue.rx x.toNat) [1, 3] = .error r) :
    execFlsig d x g s = .next (s.atIssue.takeTrap s.cur r) :=
  issue_trap (State.issues_iff.1 h).1 ((if_neg hx).trans (congrArg (fun r => liftTrap r >>= _) hi))

theorem execTkwait_next (h : s.issues (fC g) = true) (hsent : diff32 (BitVec.ofNat 32 (s.atIssue.rx x.toNat).toNat) s.myCore.flseq ≤ 0)
    (hdone : diff32 (BitVec.ofNat 32 (s.atIssue.rx x.toNat).toNat) s.myCore.fldone ≤ 0) :
    let t0 := (s.atIssue.rx x.toNat).toNat
    ∃ t, execTkwait d x g s = .next t ∧ s.WritesX t d.toNat (BitVec.ofNat 64 (b2n (s.remapped (bits t0 56 8) (BitVec.ofNat 32 t0).toNat (bits t0 48 8)) +
      2 * b2n (s.myCore.revokedFlush.contains (BitVec.ofNat 32 t0).toNat))) := by
  refine landX_next h rfl (l := 1) ?_
  dsimp only
  rw [need_ok (by simpa using hsent), bind_ok, await_ok (by simpa using hdone), bind_ok]
  rfl

end

/-- Settles O12: each by the lemma of its own outcome. -/
theorem fencesAndTokens : Obligations.FencesAndTokens := by
  intro s d x sc g a
  refine ⟨execFence_next, fun h => ?signal, fun h => ?wait⟩
  case signal => exact ⟨execFlsig_all h, fun e => execFlsig_import h, fun r => execFlsig_bad h⟩
  case wait =>
    intro t0 hsent hdone
    exact execTkwait_next (d := d) h hsent hdone

/-! ### Branches -/

/-- A taken branch: a trace entry, what it lands first, and its stream at another place. -/
theorem State.jump_loadOnly {s u w : State} {e : Engine} (hu : s.atIssue.TracedTo u) (hw : u.Lands w)
    (he : ({ e.placedAs s.me with x := s.me.x, cntReads := s.me.cntReads } : Engine) = s.me) : s.LoadOnly (w.setMe e).stamp ∧ (w.setMe e).stamp.tags = s.tags := by
  have hc : w.cur = s.cur := hw.cur.trans hu.cur
  have hn : w.now = s.now := hw.now.trans hu.now
  obtain ⟨c, e1⟩ := hu.shape
  obtain ⟨k, e2⟩ := hw.shape
  refine ⟨⟨?_, fun k hk => ?_, ?_, ?_⟩, ?_⟩
  · rw [e2, e1]; rfl
  · have hk' : k ≠ coreKey w.cur.die w.cur.core := by rw [hc]; exact hk
    refine ⟨(tGet {} s.cores k).lastClk, (tGet {} s.cores k).lastRank, ?_⟩
    rw [State.stamp_other (w.setMe e) hk', State.setMe, State.cores_setMyCore_other _ _ hk', hw.other k (by rw [hu.cur]; exact hk), hu.other k hk]
    rfl
  · obtain ⟨x, y, z, t, e3⟩ := hu.core
    rw [State.stamp_me, State.me_setMe, State.stamp_myCore, State.myCore_setMe, State.setMe_cur, State.setMe_now, hc, hn, hw.core, e3, hu.cur]
    rw [show s.atIssue.cur = s.cur from rfl, Core.setEng_setEng, State.mineAs]
    cases s.cur.eng <;> rfl
  · rw [State.stamp_me, State.me_setMe]; exact he
  · rw [e2, e1]; rfl

/-- Whether a branch target is a header marker in the stream's ring (R116). -/
def State.marker (s : State) (t : Nat) : Prop :=
  s.me.ringBase ≤ t ∧ t < s.me.ringBase + s.me.ringSize ∧ s.myCore.ringByte s.cur.eng (t - s.me.ringBase) = 0xFF

section
variable {s : State} {f : Form} {b p g : BitVec 3} {pre : State → State}

theorem branch_no_marker (hp : s.rp p.toNat = true) (ht : ¬s.marker (s.rb b.toNat 1).toNat) : branch b p g pre s = stopTrap 1 0x10 := by
  unfold branch
  rw [if_pos hp]
  dsimp only
  by_cases hin : s.me.ringBase ≤ (s.rb b.toNat 1).toNat ∧ (s.rb b.toNat 1).toNat < s.me.ringBase + s.me.ringSize
  · rw [need_ok (by simpa using hin), bind_ok, need_no (by simpa using fun hm => ht ⟨hin.1, hin.2, hm⟩), bind_error]
    rfl
  · rw [need_no (by simpa using hin), bind_error]
    rfl

/-- The trace entry of a taken branch (R139). -/
def State.branchTraced (s : State) (p t : Nat) : State :=
  s.trace 0 p (BitVec.ofNat 64 ((s.me.ringBase + s.me.offAt s.me.pos) % 2 ^ 21 * 2 ^ 21 + t % 2 ^ 21))

/-- The stream of a taken branch: at the header at its target, its issue gap counted. -/
def Engine.branched (e : Engine) (off now g : Nat) (ilk : Bool) : Engine :=
  { e.branchTo off with gap := if ilk then 0 else g, nextIssue := now + 1 + (if ilk then 0 else g) }

theorem branch_marker (hp : s.rp p.toNat = true) (ht : s.marker (s.rb b.toNat 1).toNat) :
    let t := (s.rb b.toNat 1).toNat
    let u := pre (s.branchTraced p.toNat t)
    branch b p g pre s = .error (.jump (u.setMe (u.me.branched (t - s.me.ringBase) s.now g.toNat s.me.hdr.ilk))) := by
  obtain ⟨h1, h2, h3⟩ := ht
  unfold branch
  rw [if_pos hp]
  dsimp only
  rw [need_ok (by simpa using And.intro h1 h2), bind_ok, need_ok (by simpa using h3), bind_ok]
  rfl

/-- With its predicate false a branch falls through. -/
theorem branch_falls (h : s.issues f = true) (heff : f.eff = false) (hp : s.atIssue.rp p.toNat = false) :
    ∃ t, issue s f (branch b p g pre) = .next t ∧ s.PlaceOnly t :=
  place_next h heff (by simp [branch, hp]; rfl)

/-- A target that is no marker traps. -/
theorem branch_traps (h : s.canIssue f = true) (hp : s.atIssue.rp p.toNat = true) (ht : ¬s.marker (s.atIssue.rb b.toNat 1).toNat) :
    issue s f (branch b p g pre) = .next (s.atIssue.takeTrap s.cur { cls := 1, sub := 0x10 }) := by
  exact issue_trap h (branch_no_marker (s := s.atIssue) hp ht)

/-- A taken branch stands at the header at its target, with what it lands first landed. -/
theorem branch_goes (h : s.canIssue f = true) (hp : s.atIssue.rp p.toNat = true) (ht : s.marker (s.atIssue.rb b.toNat 1).toNat) (hpre : ∀ u : State, u.Lands (pre u)) :
    ∃ t u, issue s f (branch b p g pre) = .next t ∧ s.atIssue.TracedTo u ∧ s.LoadOnly t ∧ t.tags = s.tags ∧ t.me.phase = .header ∧
      t.me.blk = (s.atIssue.rb b.toNat 1).toNat - s.me.ringBase ∧ t.me.iter = 0 ∧
      t.me.nextIssue = s.now + 1 + (if s.me.hdr.ilk then 0 else g.toNat) ∧ t.me.x = (pre u).me.x := by
  set v := s.atIssue.branchTraced p.toNat (s.atIssue.rb b.toNat 1).toNat with hv
  have htr : s.atIssue.TracedTo v := State.tracedTo_trace ..
  obtain ⟨x, r, y, hme⟩ := (hpre v).me
  obtain ⟨hlo, htag⟩ := State.jump_loadOnly (e := (pre v).me.branched ((s.atIssue.rb b.toNat 1).toNat - s.me.ringBase) s.now g.toNat s.me.hdr.ilk) htr (hpre v)
    (by rw [hme, htr.me]; rfl)
  refine ⟨_, v, issue_jump h (branch_marker (s := s.atIssue) hp ht), htr, hlo, htag, ?_⟩
  rw [State.stamp_me, State.me_setMe]
  exact ⟨rfl, rfl, rfl, rfl, rfl⟩

end

/-- Settles O14: a branch by its three outcomes, `br.l` with its link landed first. -/
theorem branchesGo : Obligations.BranchesGo := by
  intro s b p g a t0 off good goes trap
  refine ⟨fun h => ⟨fun hp ht => ?br, fun hp ht => ?_, branch_falls h rfl⟩, fun h hC => ⟨fun hp ht => ?brL, fun hp ht => ?_, branch_falls h rfl⟩⟩
  case br =>
    obtain ⟨t, u, h1, hu, hlo, htag, hph, hblk, hit, hnx, hx⟩ := branch_goes (pre := id) (State.issues_iff.1 h).1 hp ht State.Lands.refl
    exact ⟨t, h1, ⟨hlo, htag, hph, hblk, hit, hnx⟩, by rw [hx, id, hu.me]; rfl⟩
  case brL =>
    obtain ⟨t, u, h1, hu, hlo, htag, hph, hblk, hit, hnx, hx⟩ := branch_goes (pre := State.linkReg) (State.issues_iff.1 h).1 hp ht fun u => u.lands_landX _ _ _
    refine ⟨t, h1, ⟨hlo, htag, hph, hblk, hit, hnx⟩, fun r => ?_⟩
    have hme : u.me = s.me := hu.me
    rw [hx, State.linkReg, State.landX_regs, hme]
    by_cases hr : r = 63
    · simp [hr]
    · simp [hr]
  · exact branch_traps (State.issues_iff.1 h).1 hp ht
  · exact branch_traps (State.issues_iff.1 h).1 hp ht

/-! ### Event instructions -/

@[simp] theorem Core.raised_eng (c : Core) (e w : Eng) : (c.raised e).eng w = c.eng w := by cases w <;> rfl

@[simp] theorem Core.raiseCnt_eng (c : Core) (now e n : Nat) (w : Eng) : (c.raiseCnt now e n).eng w = c.eng w := by
  obtain ⟨x, y, z, h⟩ := c.raiseCnt_shape now e n
  rw [h]; cases w <;> rfl

/-- A stream that stands in a body is let go by no redefinition. -/
theorem Core.letGo_eng {c : Core} {w : Eng} (h : (c.eng w).phase = .body) (t r : Nat) (k : Eng) : (c.letGo t r k).eng w = c.eng w := by
  unfold Core.letGo
  dsimp only
  split_ifs with hk
  · have hne : w ≠ k := by
      rintro rfl
      simp [h] at hk
    exact c.eng_setEng_other _ hne
  · rfl

theorem Core.defineTerm_eng {c : Core} {w : Eng} (h : (c.eng w).phase = .body) (now t : Nat) (d : Term) : (c.defineTerm now t d).eng w = c.eng w := by
  have h1 : (({ c with terms := tSet {} c.terms t d } : Core).retime now).eng w = c.eng w := by cases w <;> rfl
  have go (k : Core) (r : Nat) (j : Eng) (hk : k.eng w = c.eng w) : (k.letGo t r j).eng w = c.eng w :=
    (Core.letGo_eng (by rw [hk]; exact h) t r j).trans hk
  unfold Core.defineTerm
  dsimp only
  split_ifs
  · exact go _ _ _ (go _ _ _ (go _ _ _ (go _ _ _ h1)))
  · exact h1

@[simp] theorem Core.withPend_eng (c : Core) (e w : Eng) (p : Option PendTerm) : (c.withPend e p).eng w = c.eng w := by
  unfold Core.withPend
  split_ifs <;> cases w <;> rfl

theorem State.setPend_eq (s : State) (p : Option PendTerm) : s.setPend p = s.setMyCore (s.myCore.withPend s.cur.eng p) := by
  unfold State.setPend Core.withPend
  split_ifs <;> rfl

/-- A stream that issues stands in a body. -/
theorem State.canIssue_body {s : State} {f : Form} (h : s.canIssue f = true) : s.me.phase = .body := by
  have hm := ((s.canIssue_iff f).1 h).2.2.1
  simp only [State.mayIssue, Bool.and_eq_true, decide_eq_true_eq] at hm
  exact hm.1.1.1.1.1

section
variable {s : State} {t : BitVec 4} {sl : BitVec 2} {l : BitVec 1} {e : BitVec 5} {h : BitVec 9} {i : BitVec 16} {g : BitVec 3} {p : PendTerm}

/-- The form of `evterm`. -/
def evtermForm (s : State) (t : BitVec 4) (h : BitVec 9) (g : BitVec 3) : Form :=
  { fC g (subUnless (t.toNat ≠ 0) subREGRANGE ++ subUnless (s.uimm h.toNat 9 ≤ 0xFFFF) subIMMRANGE) with ext := true, evterm := true }

/-- A word of a definition that is not the last is kept pending (R117). -/
theorem execEvterm_pends (hi : s.issues (evtermForm s t h g) = true) (hp : evtermStep s.pend t.toNat sl.toNat ⟨e.toNat, s.atIssue.uimm h.toNat 9⟩ = some p) (hl : l ≠ 1) :
    ∃ u, execEvterm t sl l e h g s = .next u ∧ s.CoreTo u (s.myCore.withPend s.cur.eng (some p)) := by
  refine coreTo_plain hi rfl (Core.withPend_eng ..) ?_
  change evtermStep s.atIssue.pend _ _ _ = _ at hp
  rw [hp]
  exact (if_neg hl).trans (congrArg Except.ok (State.setPend_eq _ _))

/-- The last word puts the definition in force. -/
theorem execEvterm_defines (hi : s.issues (evtermForm s t h g) = true) (hp : evtermStep s.pend t.toNat sl.toNat ⟨e.toNat, s.atIssue.uimm h.toNat 9⟩ = some p) (hl : l = 1) :
    ∃ u, execEvterm t sl l e h g s = .next u ∧ s.CoreTo u ((s.myCore.defineTerm s.now t.toNat p.term).withPend s.cur.eng none) := by
  refine coreTo_plain hi rfl ((Core.withPend_eng ..).trans (Core.defineTerm_eng (State.canIssue_body (State.issues_iff.1 hi).1) ..)) ?_
  change evtermStep s.atIssue.pend _ _ _ = _ at hp
  rw [hp]
  refine (if_pos hl).trans (congrArg Except.ok ((State.setPend_eq _ _).trans ?_))
  rw [State.setMyCore_setMyCore, State.myCore_setMyCore]
  rfl

theorem execEvinc_next (hi : s.issues (fC g) = true) :
    ∃ u, execEvinc e i g s = .next u ∧ s.CoreTo u ((s.myCore.raised s.cur.eng).raiseCnt s.now e.toNat i.toNat) ∧ u.me.x = s.me.x :=
  coreTo_next_plain hi rfl (by rw [Core.raiseCnt_eng, Core.raised_eng]; rfl) rfl

theorem execEvwait_goes (hi : s.issues (fC g (subUnless (e.toNat ≤ 15) subREGRANGE)) = true) (hr : s.myCore.termReady s.now e.toNat = true) :
    ∃ u, execEvwait e g s = .next u ∧ s.PlaceOnly u :=
  place_next hi rfl (congrArg (· >>= fun _ => pure s.atIssue) (await_ok (show s.atIssue.myCore.termReady s.atIssue.now e.toNat = true from hr) s.atIssue))

theorem execEvwait_waits (hi : s.issues (fC g (subUnless (e.toNat ≤ 15) subREGRANGE)) = true) (hr : s.myCore.termReady s.now e.toNat = false) :
    execEvwait e g s = .next s.atIssue :=
  issue_wait (State.issues_iff.1 hi).1 (congrArg (· >>= fun _ => pure s.atIssue) (await_no (show s.atIssue.myCore.termReady s.atIssue.now e.toNat = false from hr) s.atIssue))

end

/-- Settles O15: `evterm` by whether the word is the last, `evwait` by whether its term is true. -/
theorem eventInstructions : Obligations.EventInstructions := by
  intro s t sl l e h i g thr
  refine ⟨fun hi => ⟨fun p hp hl => execEvterm_pends hi hp hl, fun p hp hl => execEvterm_defines hi hp hl⟩, execEvinc_next, fun hi => ⟨execEvwait_goes hi, execEvwait_waits hi⟩⟩

end Sys2Proof.Machine
end

section
/-! PROOFS. The store queue's drain, CSR access, illegal units, the taking of traps, handlers' ends, block starts and raises (R14 to R22, R91, R92, R105, R119 to
R123, R131, R132, R279). -/

namespace Sys2Proof.Machine

/-! ### The store queue -/

/-- A queued store performed by its home: its bytes of memory, and its entry gone. -/
theorem State.drain_performs {u : State} {die core n : Nat} {e : QStore} (he : (u.coreAt die core).storeq[n]? = some e) (hc : canDrain (u.coreAt die core).storeq n = true)
    (hh : die = e.home ∨ 4 ≤ e.home)
    (hw : u.canWrite die none { key := e.key, home := e.home, keyNo := e.keyNo, mtype := e.mtype, mclass := 0 } e.data.length = .ok ()) :
    (u.drain die core n).tape = u.tape ∧ ((u.drain die core n).coreAt die core).storeq = dropNth (u.coreAt die core).storeq n ∧
      ∀ k, tGet 0 (u.drain die core n).mem k = if e.key ≤ k ∧ k < e.key + e.data.length then e.data.getD (k - e.key) 0 else tGet 0 u.mem k := by
  obtain ⟨m, t, hput, -, hmem⟩ := State.put_home (u.setCoreAt die core { u.coreAt die core with storeq := dropNth (u.coreAt die core).storeq n }) die
    { key := e.key, home := e.home, keyNo := e.keyNo, mtype := e.mtype, mclass := 0 } e.data hh
  have hd : u.drain die core n = { u.setCoreAt die core { u.coreAt die core with storeq := dropNth (u.coreAt die core).storeq n } with mem := m, keyTag := t } := by
    rw [← hput]
    unfold State.drain
    simp [he, hc, hw]
  rw [hd]
  refine ⟨rfl, ?_, hmem⟩
  change ((u.setCoreAt die core { u.coreAt die core with storeq := dropNth (u.coreAt die core).storeq n }).coreAt die core).storeq = _
  rw [State.coreAt_setCoreAt]

/-- Settles O9: the turn's drain at the clk's start, from which memory is as it was. -/
theorem storeQueueDrains : Obligations.StoreQueueDrains := by
  intro s die core n e rest u htape he hc haway hhome _ hw
  obtain ⟨h1, h2, h3⟩ := State.drain_performs he hc hhome hw
  have hdue : (canDrain (u.coreAt die core).storeq n && !u.dieAway die) = true := by simp [hc, haway]
  have hstep : step s = .next (u.drain die core n) := (step_cons htape).trans (congrArg Host.Outcome.next (if_pos hdue))
  refine ⟨_, hstep, ?_, h2, fun k => ?_⟩
  · rw [h1]; exact State.clkStart_tape _
  · rw [h3, show u.mem = s.mem from State.clkStart_mem _]

/-! ### States set again -/

theorem State.setMe_setMe (s : State) (e f : Engine) : (s.setMe e).setMe f = s.setMe f := by
  rw [State.setMe, State.myCore_setMe, State.setMe_cur, Core.setEng_setEng, State.setMe, State.setMe, State.setMyCore_setMyCore]

theorem State.cores_setCoreAt_other (s : State) {die core k : Nat} (c : Core) (h : k ≠ coreKey die core) : tGet {} (s.setCoreAt die core c).cores k = tGet {} s.cores k := by
  simp [State.setCoreAt, tGet_tSet, h]

/-! ### CSR access -/

theorem Engine.landCnts_none {e : Engine} (h : e.cntReads = []) (cnt : Tab (BitVec 16)) (now : Nat) : e.landCnts cnt now = e := by
  unfold Engine.landCnts
  rw [h]
  cases e
  cases h
  rfl

theorem Engine.landCnts_one {e : Engine} {r : CntRead} (h : e.cntReads = [r]) (cnt : Tab (BitVec 16)) {now : Nat} (hr : r.at_ ≤ now) :
    (e.landCnts cnt now).x = tSet 0 e.x r.d (BitVec.ofNat 64 (tGet 0 cnt r.n).toNat) := by
  simp [Engine.landCnts, h, hr]

/-- A write of a CSR leaves the counter reads of every stream on their way. -/
theorem Core.csrSet_cntReads (c : Core) (n : Nat) (v : Word) (w : Eng) : ((c.csrSet n v).eng w).cntReads = (c.eng w).cntReads := by
  have hset (k : Eng) (e : Engine) (he : e.cntReads = (c.eng k).cntReads) : ((c.setEng k e).eng w).cntReads = (c.eng w).cntReads := by
    by_cases hk : w = k
    · rw [hk, Core.eng_setEng, he]
    · rw [c.eng_setEng_other e hk]
  unfold Core.csrSet
  dsimp only
  split_ifs
  on_goal 6 =>
    refine hset _ _ ?_
    rfl
  all_goals cases w <;> rfl

/-- A late CSR write that is the only thing on its way lands at its clk. -/
theorem Core.landBy_csr {k : Core} (hl : k.late = []) (hc : k.c.cntReads = []) (hh : k.h.cntReads = []) (now : Nat) (w : Eng) (n : Nat) (v : Word) :
    (k.addLate ⟨now, w, .csr n v⟩).landBy now = k.csrSet n v := by
  have e1 : (k.csrSet n v).c.landCnts (k.csrSet n v).cnt now = (k.csrSet n v).c := Engine.landCnts_none ((k.csrSet_cntReads n v .c).trans hc) _ _
  have e2 : (k.csrSet n v).h.landCnts (k.csrSet n v).cnt now = (k.csrSet n v).h := Engine.landCnts_none ((k.csrSet_cntReads n v .h).trans hh) _ _
  have hk : ({ k with late := [] } : Core) = k := by cases k; cases hl; rfl
  simp only [Core.landBy, Core.addLate, hl, List.nil_append, List.filter_cons, List.filter_nil, le_refl, decide_true, if_true, Bool.not_true, Bool.false_eq_true, if_false,
    List.foldl_cons, List.foldl_nil, Core.doLate, hk, e1, e2]

theorem Core.addLate_eng (c : Core) (l : Late) (w : Eng) : (c.addLate l).eng w = c.eng w := by cases w <;> rfl

section
variable {s : State} {d : BitVec 6} {c : BitVec 12} {g : BitVec 3}

/-- The form of `csrr` and `csrw`. -/
def csrForm (g : BitVec 3) (c : BitVec 12) : Form := fC g (subUnless (csrKnown c.toNat) subIMMRANGE)

/-- `csrr` of a CSR that is no counter, once it need not wait. -/
theorem execCsrr_value (h : s.issues (csrForm g c) = true) (hw : (s.me.hdr.ilk && s.csrLate c.toNat) = false) (hn : ¬(0x20 ≤ c.toNat ∧ c.toNat < 0x40)) :
    ∃ t, execCsrr d c g s = .next t ∧ s.WritesX t d.toNat (if s.csrLate c.toNat then BitVec.ofNat 64 (s.atIssue.freeNat 0) else s.atIssue.csr c.toNat) := by
  refine landX_next h rfl (l := 2) ?_
  unfold csrrBody
  rw [show (!(s.atIssue.me.hdr.ilk && s.atIssue.csrLate c.toNat)) = true from congrArg not hw, await_ok rfl, bind_ok, if_neg hn]
  rfl

theorem execCsrr_waits (h : s.issues (csrForm g c) = true) (hl : s.csrLate c.toNat = true) (hi : s.me.hdr.ilk = true) : execCsrr d c g s = .next s.atIssue := by
  refine issue_wait (State.issues_iff.1 h).1 ?_
  have hw : (s.atIssue.me.hdr.ilk && s.atIssue.csrLate c.toNat) = true := Bool.and_eq_true_iff.2 ⟨hi, hl⟩
  unfold csrrBody
  rw [hw]
  rfl

/-- A read of an event counter leaves its read on the way (R119). -/
theorem execCsrr_counter (h : s.issues (csrForm g c) = true) (hl : s.csrLate c.toNat = false) (hn : 0x20 ≤ c.toNat ∧ c.toNat < 0x40) :
    ∃ t, execCsrr d c g s = .next t ∧ s.StreamOnly t ∧ ({ t.me.placedAs s.me with cntReads := s.me.cntReads } : Engine) = s.me ∧
      t.me.cntReads = if d = 0 then s.me.cntReads else s.me.cntReads.filter (fun r => r.d ≠ d.toNat) ++ [⟨d.toNat, s.now + 2, c.toNat - 0x20⟩] := by
  obtain ⟨h1, h2⟩ := State.issues_iff.1 h
  have hw : (s.atIssue.me.hdr.ilk && s.atIssue.csrLate c.toNat) = false := Bool.and_eq_false_iff.2 (.inr hl)
  have hb : csrrBody d.toNat c.toNat s.atIssue = .ok (s.atIssue.readCnt d.toNat (c.toNat - 0x20)) := by
    unfold csrrBody
    rw [hw, Bool.not_false, await_ok rfl, bind_ok, if_pos hn]
    rfl
  refine ⟨_, issue_ok h1 hb, ?_⟩
  by_cases hd : d = 0
  · have e : s.atIssue.readCnt d.toNat (c.toNat - 0x20) = s.atIssue := by simp [State.readCnt, hd]
    rw [e, if_pos hd, State.advance_eq s.atIssue _ rfl (State.not_ends h2 rfl (Engine.StaysAt.refl _))]
    exact ⟨s.streamOnly_atIssue _, by rw [State.past_me, Engine.moved_placedAs]; rfl, by rw [State.past_me, Engine.moved_cntReads]; rfl⟩
  · have hz : d.toNat ≠ 0 := fun hz => hd (BitVec.eq_of_toNat_eq hz)
    have e : s.atIssue.readCnt d.toNat (c.toNat - 0x20) = s.atIssue.setMe
        (({ s.me with cntReads := s.me.cntReads.filter (fun r => r.d ≠ d.toNat) ++ [⟨d.toNat, s.now + 2, c.toNat - 0x20⟩] } : Engine).landing s.now (idX d.toNat) 2) := by
      unfold State.readCnt State.noteLanding
      rw [if_neg hz]
      dsimp only
      rw [State.me_setMe, State.setMe_setMe]
      rfl
    have st : (s.atIssue.readCnt d.toNat (c.toNat - 0x20)).me.StaysAt s.me := by
      rw [e, State.me_setMe]
      refine Engine.StaysAt.landing ?_ _ _ _
      exact ⟨⟨rfl, rfl, rfl⟩, rfl, rfl, rfl, rfl⟩
    rw [if_neg hd, State.advance_eq _ _ rfl (State.not_ends h2 (by rw [e]; rfl) st), e]
    refine ⟨s.streamOnly_setMe _ _, ?_, ?_⟩
    · rw [State.past_me, State.me_setMe, Engine.moved_placedAs, Engine.landing_placedAs]; rfl
    · rw [State.past_me, State.me_setMe, Engine.moved_cntReads, Engine.landing_cntReads]

theorem execCsrw_next (h : s.issues (csrForm g c) = true) (hw : csrWritable c.toNat = true) (hs : csrStop c.toNat = true → s.cur.eng = .h) :
    ∃ t, execCsrw d c g s = .next t ∧ s.CoreTo t (s.myCore.addLate ⟨s.now + 2, s.cur.eng, .csr c.toNat (s.atIssue.rx d.toNat)⟩) ∧ t.me.x = s.me.x := by
  have hok : (!(csrStop c.toNat && decide (s.cur.eng ≠ .h))) = true := by
    cases hc : csrStop c.toNat
    · rfl
    · simp [hs hc]
  refine coreTo_next_plain h rfl (c := s.myCore.addLate ⟨s.now + 2, s.cur.eng, .csr c.toNat (s.atIssue.rx d.toNat)⟩) (Core.addLate_eng ..) ?_
  rw [need_ok (show (!(csrStop c.toNat && decide (s.atIssue.cur.eng ≠ .h))) = true from hok), bind_ok, need_ok hw, bind_ok]
  rfl

theorem execCsrw_stop (h : s.issues (csrForm g c) = true) (hs : csrStop c.toNat = true) (hh : s.cur.eng ≠ .h) :
    execCsrw d c g s = .next (s.atIssue.takeTrap s.cur { cls := 2, sub := 6 }) := by
  have hno : (!(csrStop c.toNat && decide (s.cur.eng ≠ .h))) = false := by simp [hs, hh]
  refine issue_trap (State.issues_iff.1 h).1 ?_
  rw [need_no (show (!(csrStop c.toNat && decide (s.atIssue.cur.eng ≠ .h))) = false from hno), bind_error]
  rfl

theorem execCsrw_readOnly (h : s.issues (csrForm g c) = true) (hw : csrWritable c.toNat = false) (hs : csrStop c.toNat = false) :
    execCsrw d c g s = .next (s.atIssue.takeTrap s.cur { cls := 2, sub := 4 }) := by
  refine issue_trap (State.issues_iff.1 h).1 ?_
  rw [need_ok (by simp [hs]), bind_ok, need_no hw, bind_error]
  rfl

end

/-- Settles O16: the read by whether it waits and what it reads, the write by its two checks; the moment two clk later is the model's choice (log 67). -/
theorem csrAccess : Obligations.CsrAccess := by
  intro s d c g cnt h
  refine ⟨fun hl hn => ?value, execCsrr_waits h, fun hl hi hn => ?late, execCsrr_counter h, fun e r counts now he hr => Engine.landCnts_one he counts hr,
    fun hw hs => ⟨execCsrw_next h hw hs, fun k hl hc hh w v => Core.landBy_csr hl hc hh _ w _ v⟩, execCsrw_stop h, execCsrw_readOnly h⟩
  case value =>
    obtain ⟨t, h1, h2⟩ := execCsrr_value (d := d) h (by simp [hl]) hn
    exact ⟨t, h1, by simpa only [hl, Bool.false_eq_true, if_false] using h2⟩
  case late =>
    obtain ⟨t, h1, h2⟩ := execCsrr_value (d := d) h (by simp [hi]) hn
    exact ⟨t, h1, by simpa only [hl, if_true] using h2⟩

/-! ### Traps -/

/-- Settles O17: the issue answers the lowest violation before it runs the body. -/
theorem illegalUnitsTrap : Obligations.IllegalUnitsTrap := by
  intro s f body sub pos hok hwf hmay hlow
  simp only [issue, hok, hwf, hmay, hlow, Bool.true_eq_false, if_false]
  rfl

/-- Settles O18: by the one state that taking a trap leaves. -/
theorem trapsAreTaken : Obligations.TrapsAreTaken := by
  intro s id t hh ht u part
  obtain ⟨p, e, hother, hpart⟩ := s.takeTrap_shape id t hh ht
  have hu : u = _ := e
  have hcore : u.coreAt id.die id.core = (s.coreAt id.die id.core).setEng id.eng { s.engAt id with trap := some { t with clk := s.now }, req := none } := by
    rw [hu]; exact s.coreAt_setCoreAt _ _ _
  have heng : u.engAt id = { s.engAt id with trap := some { t with clk := s.now }, req := none } := by
    rw [State.engAt, hcore, Core.eng_setEng]
  refine ⟨by rw [heng], ?_, fun w hw => ?_, ?_, fun k hk => ?_, fun k hk => ?_, ?_⟩
  · rw [heng]
    have : ({ s.engAt id with trap := none } : Engine) = s.engAt id := by rw [← ht]
    exact this
  · rw [hcore, Core.eng_setEng_other _ _ hw]
  · rw [hu]; exact congrArg Part.halt hpart
  · rw [hu]; exact State.cores_setCoreAt_other s _ hk
  · rw [hu]; exact hother k hk
  · rw [hu]; rfl

end Sys2Proof.Machine
end

section
/-! PROOFS. Traps raised by instructions, handlers' starts and ends, block starts and raises, and the completion of a halt (R17 to R22, R87, R95, R120, R126 to R132, R140). -/

namespace Sys2Proof.Machine

/-! ### trap and halt -/

theorem State.engAt_setEngAt (s : State) (id : EngId) (e : Engine) : (s.setEngAt id e).engAt id = e := by
  rw [State.engAt, State.setEngAt, State.coreAt_setCoreAt, Core.eng_setEng]

/-- What a trap of the current stream leaves in its own terms. -/
theorem State.takeTrap_me {s : State} (t : TrapRec) (hh : s.cur.eng ≠ .h) (ht : s.me.trap = none) :
    (s.takeTrap s.cur t).me = { s.me with trap := some { t with clk := s.now }, req := none } ∧ (s.takeTrap s.cur t).mem = s.mem ∧
      (s.takeTrap s.cur t).myPart.halt = some (s.myPart.halt.getD { clk := s.now, cls := 0, sub := 0 }) := by
  obtain ⟨p, e, -, hp⟩ := s.takeTrap_shape s.cur t hh ht
  rw [e]
  exact ⟨s.engAt_setEngAt s.cur _, rfl, congrArg Part.halt hp⟩

@[simp] theorem State.stamp_mem (s : State) : s.stamp.mem = s.mem := rfl
@[simp] theorem State.stamp_myPart (s : State) : s.stamp.myPart = s.myPart := rfl

/-- An instruction that stops its stream past itself with a trap (R120). -/
theorem stops_next {s : State} {g : BitVec 3} {body : State → Res State} {tr : TrapRec} (hi : s.canIssue (fC g) = true) (hh : s.cur.eng ≠ .h) (ht : s.me.trap = none)
    (hb : body s.atIssue = .error (.jump ((s.atIssue.after g.toNat).takeTrap s.cur tr))) :
    ∃ t, issue s (fC g) body = .next t ∧ t.me.trap = some { tr with clk := s.now } ∧ t.me.pos = s.me.pos + 2 ∧ t.me.pfx = [] ∧ t.me.x = s.me.x ∧ t.mem = s.mem ∧
      t.myPart.halt = some (s.myPart.halt.getD { clk := s.now, cls := 0, sub := 0 }) := by
  have hme : (s.atIssue.after g.toNat).me = { s.me with pos := s.me.pos + 2, pfx := [], gap := if s.me.hdr.ilk then 0 else g.toNat, nextIssue := s.now + 1 } :=
    State.me_setMe _ _
  obtain ⟨h1, h2, h3⟩ := State.takeTrap_me (s := s.atIssue.after g.toNat) tr hh (by rw [hme]; exact ht)
  refine ⟨_, issue_jump hi hb, ?_⟩
  simp only [State.stamp_me, State.stamp_mem, State.stamp_myPart]
  rw [show (s.atIssue.after g.toNat).cur = s.cur from rfl] at h1 h2 h3
  rw [h1, h2, h3, hme]
  exact ⟨rfl, rfl, rfl, rfl, rfl, rfl⟩

theorem execTrap_next {s : State} {x : BitVec 6} {g : BitVec 3} (hi : s.canIssue (fC g) = true) (hh : s.cur.eng ≠ .h) (ht : s.me.trap = none) :
    ∃ t, execTrap x g s = .next t ∧ t.me.trap = some { cls := 8, sub := (s.atIssue.rx x.toNat).toNat % 2 ^ 16, skip := false, clk := s.now } ∧
      t.me.pos = s.me.pos + 2 ∧ t.me.pfx = [] ∧ t.me.x = s.me.x ∧ t.mem = s.mem ∧ t.myPart.halt = some (s.myPart.halt.getD { clk := s.now, cls := 0, sub := 0 }) := by
  refine stops_next (tr := { cls := 8, sub := (s.atIssue.rx x.toNat).toNat % 2 ^ 16, skip := false }) hi hh ht ?_
  rfl

theorem execHalt_next {s : State} {g : BitVec 3} (hi : s.canIssue (fC g) = true) (hh : s.cur.eng ≠ .h) (ht : s.me.trap = none) :
    ∃ t, execHalt g s = .next t ∧ t.me.trap = some { cls := 0x0A, sub := 0, skip := false, clk := s.now } ∧
      t.me.pos = s.me.pos + 2 ∧ t.me.pfx = [] ∧ t.me.x = s.me.x ∧ t.mem = s.mem ∧ t.myPart.halt = some (s.myPart.halt.getD { clk := s.now, cls := 0, sub := 0 }) := by
  refine stops_next (tr := { cls := 0x0A, sub := 0, skip := false }) hi hh ht ?_
  rfl

/-- Settles O19: both leave a trap with the stream past them. -/
theorem trapAndHalt : Obligations.TrapAndHalt := fun _ _ _ hi hh ht => ⟨execTrap_next hi hh ht, execHalt_next hi hh ht⟩

/-! ### Handlers' ends -/

/-- A handler's failure on the current core, in its own terms (R131). -/
theorem State.handlerFail_mine {s : State} {h : HaltSt} (hh : s.myPart.halt = some h) : let t := s.handlerFail s.cur.die s.cur.core
    t.myCore = { s.myCore with hfail := true, inHandler := false, htask := none, h := { s.myCore.h with phase := .ended } } ∧
      t.myPart.halt = some { h with handler := false, contain := true } ∧ t.mem = s.mem ∧ t.cur = s.cur := by
  intro t
  refine ⟨?_, ?_, rfl, rfl⟩
  · change (s.setCoreAt _ _ _).coreAt s.cur.die s.cur.core = _
    rw [State.coreAt_setCoreAt]; rfl
  · change ((State.setPartAt _ _ (s.partOf s.cur.die s.cur.core) _).partAt s.cur.die (s.partOf s.cur.die s.cur.core)).halt = _
    rw [State.partAt_setPartAt]
    change s.myPart.halt.map _ = _
    rw [hh]; rfl

/-- A `nop16` that ends its handler's image. -/
theorem execNop16_ends {s : State} {h : HaltSt} (hi : s.canIssue (compactForm s []) = true) (hg : s.goesOn (compactForm s []) = false) (hh : s.myPart.halt = some h) :
    ∃ t, execNop16 s = .next t ∧ t.myCore.hfail = true ∧ t.myCore.inHandler = false ∧ t.myCore.htask = none ∧ t.me.phase = .ended ∧
      t.myPart.halt = some { h with handler := false, contain := true } ∧ t.mem = s.mem := by
  rw [compactForm_nil] at hi hg
  set f : Form := { streams := allStreams, len := 1 }
  simp only [State.goesOn, Bool.not_eq_false', Bool.and_eq_true, decide_eq_true_eq] at hg
  obtain ⟨heng, hend⟩ := hg
  have hmv : (s.atIssue.me.moved f s.atIssue.now).phase = .ended := (Engine.moved_phase (Engine.StaysAt.refl s.me) f s.now).trans hend
  obtain ⟨c, e⟩ := s.atIssue.past_shape f
  have hp : (s.atIssue.past f).myPart.halt = some h := by rw [e]; exact hh
  obtain ⟨hc, hpart, hmem, hcur⟩ := State.handlerFail_mine hp
  refine ⟨_, (issue_ok (f := f) (t := s.atIssue) hi rfl).trans (congrArg Host.Outcome.next (State.advance_ends _ f rfl heng hmv)), ?_⟩
  rw [show s.atIssue.cur = (s.atIssue.past f).cur from rfl, State.me, hc, hpart, hmem, hcur]
  refine ⟨rfl, rfl, rfl, ?_, rfl, by rw [e]; rfl⟩
  rw [show (s.atIssue.past f).cur.eng = .h from heng]
  rfl

section
variable {s : State} {g : BitVec 3}

theorem execEret_outside (hi : s.canIssue (fC g) = true) (hh : s.myCore.inHandler = false) : execEret g s = .next (s.atIssue.takeTrap s.cur { cls := 2, sub := 5 }) := by
  refine issue_trap hi ?_
  rw [need_no (show s.atIssue.myCore.inHandler = false from hh), bind_error]
  rfl

theorem execEret_next (hi : s.canIssue (fC g) = true) (hh : s.myCore.inHandler = true) (hl : s.myCore.handlerLanded = true) :
    execEret g s = .next ((s.atIssue.setMyCore s.myCore.leaveHandler).resumeWhole s.cur.die (s.partOf s.cur.die s.cur.core)).stamp := by
  refine issue_jump hi ?_
  rw [need_ok (show s.atIssue.myCore.inHandler = true from hh), bind_ok, await_ok (show s.atIssue.myCore.handlerLanded = true from hl), bind_ok]
  rfl

end

/-- Settles O20: the end of an image as the handler's failure, `eret` by its check, and the resumption of the partition core by core. -/
theorem handlersEnd : Obligations.HandlersEnd := by
  refine ⟨fun s h => execNop16_ends, fun s g hi => ⟨execEret_outside hi, execEret_next hi, fun u die part hk => ?resume⟩⟩
  case resume =>
    obtain ⟨c, e, hin, hout⟩ := u.resumePart_shape die part hk
    rw [e]
    exact ⟨congrArg Part.halt (State.partAt_setPartAt _ _ _ _), hin, hout, fun e n => ⟨e.resumed_trap n, e.resumed_x n, e.resumed_p n, e.resumed_b n⟩⟩

/-! ### Raises and block starts -/

/-- Whatever an ended block raises, only its core changes. -/
theorem State.doRaise_shape (s : State) (id : EngId) :
    ∃ c, s.doRaise id = { s with cores := c } ∧ ∀ k, k ≠ coreKey id.die id.core → tGet {} c k = tGet {} s.cores k := by
  unfold State.doRaise
  dsimp only
  split
  · exact ⟨s.cores, rfl, fun _ _ => rfl⟩
  · exact ⟨_, rfl, fun k hk => State.cores_setCoreAt_other s _ hk⟩

/-- A header that passes, whose term holds or held: its body is entered, and only its core changes (R87, R22). -/
theorem State.enterBlock_enters {u : State} {id : EngId} (hok : headerOk ((u.coreAt id.die id.core).ringWord id.eng (u.engAt id).blk)
      ((u.coreAt id.die id.core).ringWord id.eng ((u.engAt id).blk + 4)) = true)
    (hgo : (u.coreAt id.die id.core).termReady u.now (headerOf ((u.coreAt id.die id.core).ringWord id.eng (u.engAt id).blk)
      ((u.coreAt id.die id.core).ringWord id.eng ((u.engAt id).blk + 4))).await = true ∨ ∃ r, (u.engAt id).released = some r ∧ r ≤ u.now) :
    (u.enterBlock id).engAt id = { u.engAt id with
      phase := .body, pos := 0, iter := 0, awaited := true, released := none, nextIssue := max u.now (u.engAt id).nextIssue, busy := [],
      hdr := headerOf ((u.coreAt id.die id.core).ringWord id.eng (u.engAt id).blk) ((u.coreAt id.die id.core).ringWord id.eng ((u.engAt id).blk + 4)) } ∧
    ∃ c, u.enterBlock id = { u with cores := c } ∧ ∀ k, k ≠ coreKey id.die id.core → tGet {} c k = tGet {} u.cores k := by
  have hgo' : (!((u.coreAt id.die id.core).termReady u.now (headerOf ((u.coreAt id.die id.core).ringWord id.eng (u.engAt id).blk)
      ((u.coreAt id.die id.core).ringWord id.eng ((u.engAt id).blk + 4))).await || (u.engAt id).released.any (fun r => decide (r ≤ u.now)))) = false := by
    rcases hgo with h | ⟨r, h1, h2⟩
    · simp [h]
    · simp [h1, h2]
  unfold State.enterBlock
  dsimp only
  rw [hok, if_neg (by decide), if_neg (by rw [hgo']; decide)]
  refine ⟨?_, _, rfl, fun k hk => State.cores_setCoreAt_other u _ hk⟩
  rw [State.engAt, State.coreAt_setCoreAt, Core.traced_eng, Core.stamp_eng, Core.eng_setEng]

theorem State.enterBlock_waits {u : State} {id : EngId} (hok : headerOk ((u.coreAt id.die id.core).ringWord id.eng (u.engAt id).blk)
      ((u.coreAt id.die id.core).ringWord id.eng ((u.engAt id).blk + 4)) = true)
    (hgo : ¬((u.coreAt id.die id.core).termReady u.now (headerOf ((u.coreAt id.die id.core).ringWord id.eng (u.engAt id).blk)
      ((u.coreAt id.die id.core).ringWord id.eng ((u.engAt id).blk + 4))).await = true ∨ ∃ r, (u.engAt id).released = some r ∧ r ≤ u.now)) : u.enterBlock id = u := by
  rw [not_or, not_exists] at hgo
  obtain ⟨h1, h2⟩ := hgo
  have hany : (u.engAt id).released.any (fun r => decide (r ≤ u.now)) = false := by
    cases hr : (u.engAt id).released with
    | none => rfl
    | some r => simpa using fun hle => h2 r ⟨hr, hle⟩
  unfold State.enterBlock
  dsimp only
  rw [hok, if_neg (by decide), if_pos (by simp [h1, hany])]

theorem State.enterBlock_bad {u : State} {id : EngId} (hok : headerOk ((u.coreAt id.die id.core).ringWord id.eng (u.engAt id).blk)
      ((u.coreAt id.die id.core).ringWord id.eng ((u.engAt id).blk + 4)) = false) : u.enterBlock id = u.takeTrap id { cls := 1, sub := 3 } := by
  unfold State.enterBlock
  dsimp only
  rw [hok, if_pos (by decide)]
  rfl

theorem execBlockStart_due {s : State} {die core : Nat} {e : Eng} (h : s.blockDue ⟨die, core, e⟩ = true) :
    execBlockStart die core e s = .next ((s.fresh.doRaise ⟨die, core, e⟩).enterBlock ⟨die, core, e⟩) := event_due h _

theorem execBlockRaise_due {s : State} {die core : Nat} {e : Eng} {n : Nat} (hd : die < 4) (hk : core < 160) (hr : (s.engAt ⟨die, core, e⟩).raiseDue = some n)
    (hl : s.landedAll ⟨die, core, e⟩ = true) (hs : s.raises ⟨die, core, e⟩ = true) : execBlockRaise die core e s = .next (s.fresh.doRaise ⟨die, core, e⟩) := by
  unfold execBlockRaise
  exact event_due (by simp [hd, hk, hr, hl, hs]) _

theorem execTraceFreeze_due {s : State} {die core : Nat} (hleft : (s.coreAt die core).trace.left = some 0) (hfr : (s.coreAt die core).trace.frozen = false) :
    execTraceFreeze die core s = .next (s.fresh.setCoreAt die core { s.coreAt die core with trace := { (s.coreAt die core).trace with frozen := true } }) := by
  unfold execTraceFreeze
  exact event_due (by simp [hleft, hfr]) _

/-- What a raise that is due leaves of its core. -/
theorem State.doRaise_core {s : State} {id : EngId} {n : Nat} (h : (s.engAt id).raiseDue = some n) :
    (s.doRaise id).coreAt id.die id.core = (((s.coreAt id.die id.core).setEng id.eng { s.engAt id with raiseDue := none }).raised id.eng).raiseCnt s.now n 1 := by
  unfold State.doRaise
  dsimp only
  rw [h]
  exact State.coreAt_setCoreAt _ _ _ _

/-- Settles O21: the event as `enterBlock` of the state after the raise, by its three outcomes. -/
theorem blocksStart : Obligations.BlocksStart := by
  intro s die core e id u g c w0 w1 goes hdue
  obtain ⟨d, hd, hother⟩ := s.fresh.doRaise_shape id
  have hu : u = { s.fresh with cores := d } := hd
  have hnow : u.now = s.now := by rw [hu]; rfl
  have hev : exec (.blockStart die core e) s = .next (u.enterBlock id) := execBlockStart_due hdue
  refine ⟨fun hok hgo => ?enters, fun hok hgo => ?waits, fun hok => ?bad⟩
  case enters =>
    obtain ⟨h1, c2, h2, h3⟩ := State.enterBlock_enters (u := u) (id := id) hok (by rw [hnow]; exact hgo)
    refine ⟨_, hev, ?_, ?_, fun k hk => ?_⟩
    · rw [h1, hnow]
    · rw [h2, hu]; rfl
    · rw [h2]
      refine (h3 k hk).trans ?_
      rw [hu]
      exact hother k hk
  case waits => rw [hev, State.enterBlock_waits (u := u) (id := id) hok (by rw [hnow]; exact hgo)]
  case bad => rw [hev, State.enterBlock_bad (u := u) (id := id) hok]

/-- Settles O22: each event where it is due. -/
theorem raisesAndFreezes : Obligations.RaisesAndFreezes := by
  intro s die core e n
  refine ⟨fun hd hk hr hl hs => ?raise, fun hleft hfr => ?freeze⟩
  case raise =>
    obtain ⟨c, h1, h2⟩ := s.fresh.doRaise_shape ⟨die, core, e⟩
    exact ⟨_, execBlockRaise_due hd hk hr hl hs, by rw [h1]; rfl, State.doRaise_core (s := s.fresh) (id := ⟨die, core, e⟩) hr, fun k hk => by rw [h1]; exact h2 k hk⟩
  case freeze =>
    exact ⟨_, execTraceFreeze_due hleft hfr, State.coreAt_setCoreAt _ _ _ _, rfl, fun k hk => State.cores_setCoreAt_other _ _ hk⟩

end Sys2Proof.Machine
end

section
/-! PROOFS. The completion of a halt, handlers' starts, containment, errors, time-outs and late replies (R95, R105, R110, R122 to R134, R161). -/

namespace Sys2Proof.Machine

/-! ### The completion of a halt -/

theorem State.parts_setPartAt_other (s : State) {die part k : Nat} (p : Part) (h : k ≠ partKey die part) : tGet {} (s.setPartAt die part p).parts k = tGet {} s.parts k := by
  simp [State.setPartAt, tGet_tSet, h]

/-- What a core still has to land, landed. -/
def Core.landed (c : Core) (now : Nat) : Core := if c.landing then c.landBy (max now c.lastLanding) else c

/-- Everything the cores of a partition still have to land, landed: each core by itself. -/
theorem State.landAll_shape (s : State) (die : Nat) (ks : List Nat) (hn : ks.Nodup) :
    ∃ c, ks.foldl (fun u k => u.landNow die k) s = { s with cores := c } ∧ (∀ k ∈ ks, tGet {} c (coreKey die k) = (s.coreAt die k).landed s.now) ∧
      ∀ j, (∀ k ∈ ks, j ≠ coreKey die k) → tGet {} c j = tGet {} s.cores j :=
  foldCores die (fun u k => u.landNow die k) (fun _ c => c.landed s.now) s (fun c k => State.landNow_shape { s with cores := c } die k) ks hn s.cores

theorem execHaltComplete_due {s : State} {die part : Nat} {h : HaltSt} (hh : (s.partAt die part).halt = some h) (hc : h.complete = false) :
    let v := (s.coresOf die part).foldl (fun u k => u.landNow die k) s.fresh
    execHaltComplete die part s = .next (((s.coresOf die part).filter (fun k => ((v.haltPart die part).coreAt die k).errored)).foldl (fun s k => s.abandonOps die k) (v.haltPart die part)) := by
  intro v
  refine (event_due (by rw [hh]; simp [hc]) _).trans (congrArg Host.Outcome.next ?_)
  unfold State.haltNow
  rw [show (s.fresh.partAt die part).halt = some h from hh]
  dsimp only
  rw [if_neg (by simp [hc])]
  rfl

/-- A halted core with its TCAUSE and TADDR, its trace, and its operations abandoned. -/
theorem Core.halted_with {c k : Core} {h : HaltSt} {tc ta : Word} {x y z w o m} (hk : k = { c.halted h with
    tcause := tc, taddr := ta, cnt := x, evsat := y, tsince := z, trace := w, ops := o, mWaiting := m }) :
    k.tcause = tc ∧ k.taddr = ta ∧ ∀ w, w ≠ Eng.h →
      let e1 := (c.eng w).stopped ((c.eng w).past 2)
      k.eng w = { e1 with stop := stopRec h c w e1, stop0 := stopRec h c w e1 } ∧ (k.eng w).x = (c.eng w).x := by
  subst hk
  refine ⟨rfl, rfl, fun w hw => ?_⟩
  have he := Core.halted_eng c h w hw
  have hx := congrArg Engine.x he
  cases w
  case h => exact absurd rfl hw
  all_goals exact ⟨he, hx.trans (Engine.stopped_x _)⟩

/-- Settles O23: the landings, the halt of each core, and the operations abandoned, each by its shape. -/
theorem haltsComplete : Obligations.HaltsComplete := by
  intro s die part h hh hc v p
  obtain ⟨c, hv, hland, hrest⟩ := s.fresh.landAll_shape die (s.coresOf die part) (nodup_upto _ _)
  have hv : v = { s.fresh with cores := c } := hv
  have hpart : (v.partAt die part).halt = some h := by rw [hv]; exact hh
  obtain ⟨c1, hh1, hcore1, hrest1⟩ := v.haltPart_shape die part h hpart hc
  have hcores : v.coresOf die part = s.coresOf die part := by rw [hv]; rfl
  have htc : v.tcauseOf p = s.tcauseOf p := by rw [hv]; rfl
  rw [hcores] at hcore1 hrest1
  obtain ⟨l, c2, hab, hcore2, hrest2⟩ := State.abandonAll_shape die ((s.coresOf die part).filter (fun k => ((v.haltPart die part).coreAt die k).errored)) (v.haltPart die part)
  refine ⟨fun k hk => ?landed, _, execHaltComplete_due hh hc, ?mem, ?halt, fun k hk => ?core, fun j hj => ?others, fun j hj => ?parts⟩
  case landed => rw [hv]; exact hland k hk
  case halt =>
    rw [hab]
    change ((v.haltPart die part).partAt die part).halt = _
    rw [hh1, State.partAt_setPartAt]
  case parts =>
    rw [hab]
    change tGet {} (v.haltPart die part).parts j = _
    rw [hh1, State.parts_setPartAt_other _ _ hj, hv]
    rfl
  all_goals rw [hab, hh1]
  case mem => rw [hv]; rfl
  case core =>
    obtain ⟨x, y, z, w, hk1⟩ := hcore1 k hk
    obtain ⟨o, m, hk2⟩ := hcore2 k
    rw [hh1] at hk2
    have hfin : tGet {} c2 (coreKey die k) = { (v.coreAt die k).halted h with
        tcause := s.tcauseOf p, taddr := p.2.addr, cnt := x, evsat := y, tsince := z, trace := w, ops := o, mWaiting := m } := by
      rw [hk2, ← htc]
      exact congrArg (fun c : Core => { c with ops := o, mWaiting := m }) hk1
    exact Core.halted_with hfin
  case others =>
    have h2 := hrest2 j (fun k hk => hj k (List.mem_of_mem_filter hk))
    rw [hh1] at h2
    refine h2.trans ((hrest1 j hj).trans ?_)
    rw [hv]
    exact hrest j hj


/-! ### Handlers' starts -/

theorem execHandlerStart_due {s : State} {die part : Nat} {h : HaltSt} (hs : s.standing die part = some h) (ho : s.offered die part h = true) :
    execHandlerStart die part s = .next (s.fresh.deliver die part h) := by
  unfold execHandlerStart
  rw [hs]
  exact event_due ho _

section
variable {u : State} {die part : Nat} {h : HaltSt}

/-- A vector entry that names a usable record starts its handler (R130). -/
theorem State.deliver_starts {a : Nat} {r : Rec} {img : List Byte} (he : u.vectorAt ((u.partAt die part).ctx.getD 0) (u.tvecOf die part + 8 * h.trap.cls) = some a)
    (h0 : a ≠ 0) (ha : a % 128 = 0) (hr : u.handlerRec ((u.partAt die part).ctx.getD 0) die part a = some (r, img)) (hl : r.lens.1 ≠ 0) :
    u.deliver die part h = (u.setCoreAt die h.who.core ((u.coreAt die h.who.core).beginHandler r img)).setPartAt die part { u.partAt die part with halt := some { h with handler := true } } := by
  obtain ⟨b, rfl⟩ := Nat.exists_eq_succ_of_ne_zero h0
  unfold State.deliver
  simp [he, ha, hr, hl]

theorem State.deliver_zero (he : u.vectorAt ((u.partAt die part).ctx.getD 0) (u.tvecOf die part + 8 * h.trap.cls) = some 0) :
    u.deliver die part h = u.toContain die part := by
  unfold State.deliver
  simp [he]

theorem State.deliver_fails (he : let entry := u.vectorAt ((u.partAt die part).ctx.getD 0) (u.tvecOf die part + 8 * h.trap.cls)
      entry = none ∨ ∃ a, entry = some a ∧ a ≠ 0 ∧ (a % 128 ≠ 0 ∨ u.handlerRec ((u.partAt die part).ctx.getD 0) die part a = none)) :
    u.deliver die part h = u.handlerFail die h.who.core := by
  unfold State.deliver
  rcases he with he | ⟨a, he, h0, hbad⟩
  · simp [he]
  · obtain ⟨b, rfl⟩ := Nat.exists_eq_succ_of_ne_zero h0
    rcases hbad with ha | hr
    · simp [he, ha]
    · simp [he, hr]

end

/-- Settles O24: the delivery by what the vector entry names. -/
theorem handlersStart : Obligations.HandlersStart := by
  intro s die part h hs ho u ctx entry
  have hev : exec (.handlerStart die part) s = .next (u.deliver die part h) := execHandlerStart_due hs ho
  refine ⟨fun a r img he h0 ha hr hl => ?starts, fun he => ?zero, fun he => ?fails⟩
  case starts =>
    refine ⟨_, hev, ?_⟩
    rw [State.deliver_starts (u := u) he h0 ha hr hl]
    exact ⟨State.coreAt_setCoreAt _ _ _ _, congrArg Part.halt (State.partAt_setPartAt _ _ _ _), rfl, fun k hk => State.cores_setCoreAt_other u _ hk⟩
  case zero =>
    refine ⟨_, hev, ?_⟩
    rw [State.deliver_zero (u := u) he]
    exact ⟨rfl, congrArg Part.halt (State.partAt_setPartAt _ _ _ _)⟩
  case fails => rw [hev, State.deliver_fails (u := u) he]

/-! ### Containment -/

/-- Whether a trap is of a class whose task is killed whatever the policy (R134). -/
def TrapRec.hard (t : TrapRec) : Bool := (9 ≤ t.cls && t.cls ≤ 0x0C) || t.imprecise

section
variable {s : State} {die part : Nat} {h : HaltSt}

theorem execContainment_due (hs : s.standing die part = some h) (ho : s.offered die part h = false) (hc : h.trap.cls ≠ 0x0C) :
    execContainment die part s = .next (s.fresh.containStep die part h) := by
  unfold execContainment
  rw [hs]
  exact event_due (by simp [ho, hc]) _

/-- A halt for a switch is the scheduler's (R135). -/
theorem execContainment_switch (hs : s.standing die part = some h) (hc : h.trap.cls = 0x0C) : execContainment die part s = .next s := by
  unfold execContainment
  rw [hs]
  simp [event, hc]

theorem State.containStep_host {u : State} (hc : h.trap.cls = 0x0A) :
    u.containStep die part h = u.setCtx { u.ctxAt ((u.partAt die part).ctx.getD 0) with hostHalt := true } := by
  unfold State.containStep
  exact if_pos hc

theorem State.containStep_idle {u : State} (hc : h.trap.cls ≠ 0x0A) (ht : (u.coreAt die h.who.core).task = none) : u.containStep die part h = u.resumeIf die part := by
  unfold State.containStep
  dsimp only
  rw [if_neg hc, ht]

theorem State.containStep_task {u : State} {t : RunTask} (hc : h.trap.cls ≠ 0x0A) (ht : (u.coreAt die h.who.core).task = some t) :
    u.containStep die part h = (u.contain die part h t).resumeIf die part := by
  unfold State.containStep
  dsimp only
  rw [if_neg hc, ht]

theorem execContextResume_due {cid : Nat} (hs : s.standing die part = some h) (hc : h.trap.cls = 0x0A) (hdie : (s.ctxAt cid).die = die) (hpart : (s.ctxAt cid).part = part)
    (hlive : (s.ctxAt cid).live = true) (hctx : (s.partAt die part).ctx = some cid) (hh : (s.ctxAt cid).hostHalt = true) :
    execContextResume cid s = .next ((s.fresh.setCtx { s.ctxAt cid with hostHalt := false }).resumeWhole die part) := by
  subst hdie hpart
  unfold execContextResume
  dsimp only
  rw [hs]
  exact event_due (by simp [hlive, hctx, hc, hh]) _

end

section
variable {u : State} {die part : Nat} {h : HaltSt} {t : RunTask}

theorem State.contain_kill (hp : (u.policy t ((u.partAt die part).ctx.getD 0)).2 = 2) :
    u.contain die part h t = u.killAt t ((u.partAt die part).ctx.getD 0) (u.policy t ((u.partAt die part).ctx.getD 0)).1 h := by
  simp [State.contain, hp]

theorem State.contain_retry (hp : (u.policy t ((u.partAt die part).ctx.getD 0)).2 = 1) :
    u.contain die part h t = if h.trap.hard || decide (3 ≤ t.retries) then u.killAt t ((u.partAt die part).ctx.getD 0) 0 h
      else u.setCoreAt die h.who.core (u.coreAt die h.who.core).retried := by
  simp [State.contain, hp, TrapRec.hard]

theorem State.contain_ignore (hp : (u.policy t ((u.partAt die part).ctx.getD 0)).2 = 0) :
    u.contain die part h t = if h.trap.hard || h.trap.async then u.killAt t ((u.partAt die part).ctx.getD 0) 0 h
      else if h.trap.skip then u.setCoreAt die h.who.core ((u.coreAt die h.who.core).skipUnit h.who.eng) else u := by
  simp [State.contain, hp, TrapRec.hard]

end

/-- A partition that stands halted resumes as its context asks, or as the policy of its task says. -/
theorem containment_acts (s : State) (die part : Nat) (h : HaltSt) (hs : s.standing die part = some h) (ho : s.offered die part h = false) :
    let u := s.fresh
    let ctx := (s.partAt die part).ctx.getD 0
    let k := h.who.core
    (h.trap.cls = 0x0A → exec (.containment die part) s = .next (u.setCtx { s.ctxAt ctx with hostHalt := true })) ∧
    (h.trap.cls = 0x0C → exec (.containment die part) s = .next s) ∧
    (h.trap.cls ≠ 0x0A → h.trap.cls ≠ 0x0C → (s.coreAt die k).task = none → exec (.containment die part) s = .next (u.resumeIf die part)) ∧
    (∀ t, h.trap.cls ≠ 0x0A → h.trap.cls ≠ 0x0C → (s.coreAt die k).task = some t → exec (.containment die part) s = .next ((u.contain die part h t).resumeIf die part)) := by
  have due (hc : h.trap.cls ≠ 0x0C) : exec (.containment die part) s = .next (s.fresh.containStep die part h) := execContainment_due hs ho hc
  refine ⟨fun hc => ?_, execContainment_switch hs, fun hc hn ht => ?_, fun t hc hn ht => ?_⟩
  · rw [due (by omega), State.containStep_host hc]; rfl
  · rw [due hn, State.containStep_idle (u := s.fresh) hc ht]
  · rw [due hn, State.containStep_task (u := s.fresh) hc ht]

/-! ### Errors, time-outs and late replies -/

section
variable {s : State} {die core : Nat} {e : Eng}

theorem execUncorrectableError_due {kind : BitVec 16} (hd : die < 4) (hk : core < 160) (he : e ≠ .h) (h1 : 1 ≤ kind.toNat % 256) (h4 : kind.toNat % 256 ≤ 4)
    (hm : kind.toNat % 256 = 4 → e = .m ∧ kind.toNat / 256 ≤ 15) (hs : kind.toNat % 256 ≠ 4 → kind.toNat / 256 = 0) (ha : s.dieAway die = false)
    (hh : (s.partOfCore die core).halt = none) : execUncorrectableError die core e kind s = .next (s.fresh.uncorrectable die core e kind.toNat) := by
  unfold execUncorrectableError
  refine event_due ?_ _
  rw [hh]
  by_cases hsub : kind.toNat % 256 = 4
  · simp [hd, hk, hsub, hm hsub, ha]
  · simp [hd, hk, he, h1, h4, hsub, hs hsub, ha]

theorem execMemoryTimeout_due {r : Req} (hd : die < 4) (hk : core < 160) (hsv : (s.engAt ⟨die, core, e⟩).saved = none) (hr : (s.engAt ⟨die, core, e⟩).req = some r)
    (ho : s.overdue r.since = true) (hb : r.begun = false) (hrun : s.streamRuns ⟨die, core, e⟩ = true) :
    execMemoryTimeout die core e s = .next (s.fresh.takeTrap ⟨die, core, e⟩ { cls := 3, sub := 5, addr := r.addr }) := by
  unfold execMemoryTimeout
  refine (event_due (by simp [hd, hk]) _).trans (congrArg Host.Outcome.next ?_)
  have hto : s.fresh.timeoutOf die core e = some (timeoutAt r.addr) := by
    unfold State.timeoutOf
    dsimp only
    rw [show ((s.fresh.coreAt die core).eng e).req = some r from hr]
    simp [show s.fresh.overdue r.since = true from ho, hb]
  unfold State.timeout
  dsimp only
  rw [show (s.fresh.engAt ⟨die, core, e⟩).saved = none from hsv]
  dsimp only
  rw [hto]
  exact if_pos hrun

theorem execSavedContextReply_due {r : Req} {h : HaltSt} (hsv : (s.engAt ⟨die, core, e⟩).saved = some r) (hh : (s.partOfCore die core).halt = some h) (hc : h.complete = true) :
    execSavedContextReply die core e s = .next (s.fresh.savedReply ⟨die, core, e⟩ r) := by
  unfold execSavedContextReply
  rw [hsv]
  exact event_due (by rw [hh]; exact hc) _

end

/-- Settles O25: containment by the class of the trap and the policy (no task on the core: log 45), and each error by its event where it is due. -/
theorem containmentAndErrors : Obligations.ContainmentAndErrors := by
  refine ⟨fun s die part h hs ho => ?contain, fun s die core e kind => ⟨?uncorr, ?timeout, ?reply⟩⟩
  case contain =>
    intro u ctx k hard
    obtain ⟨hhost, hswitch, hidle, htask⟩ := containment_acts s die part h hs ho
    refine ⟨hhost, fun hc cid hdie hpart hlive hctx hh => execContextResume_due hs hc hdie hpart hlive hctx hh, hswitch, hidle, fun t hc hn ht => ?_⟩
    intro does
    have run {v : State} (hv : u.contain die part h t = v) : does v := (htask t hc hn ht).trans (by rw [hv])
    refine ⟨fun hp => run (State.contain_kill (u := u) hp), fun hp hh hr => run ?_, fun hp hh => run ?_, fun hp hh ha hk => run ?_, fun hp hh ha hk => run ?_, fun hp hh => run ?_⟩
    · rw [State.contain_retry (u := u) hp, if_neg (by simp [show h.trap.hard = false from hh]; omega)]; rfl
    · rw [State.contain_retry (u := u) hp, show h.trap.hard = hard from rfl, if_pos (by simpa using hh)]; rfl
    · rw [State.contain_ignore (u := u) hp, if_neg (by simp [show h.trap.hard = false from hh, ha]), if_pos hk]; rfl
    · rw [State.contain_ignore (u := u) hp, if_neg (by simp [show h.trap.hard = false from hh, ha]), if_neg (by simp [hk])]
    · rw [State.contain_ignore (u := u) hp, show h.trap.hard = hard from rfl, if_pos (by simpa using hh)]; rfl
  case uncorr =>
    intro hd hk he h1 h4 hm hs ha hh _
    exact execUncorrectableError_due hd hk he h1 h4 hm hs ha hh
  case timeout =>
    intro r hd hk hsv hr ho hb hrun
    exact execMemoryTimeout_due hd hk hsv hr ho hb hrun
  case reply =>
    intro r h body hsv hh hc hb s0
    refine (execSavedContextReply_due hsv hh hc).trans (congrArg Host.Outcome.next ?_)
    have hhalt : (s.fresh.partOfCore die core).halt.isSome = true := by rw [show (s.fresh.partOfCore die core).halt = some h from hh]; rfl
    unfold State.savedReply
    simp only [hb, hhalt, if_true]
    rfl

end Sys2Proof.Machine
end

section
/-! PROOFS. Barriers, flags, chunks and what arrives from afar (R110, R258 to R263, R314). -/

namespace Sys2Proof.Machine

/-! ### The flag file -/

/-- A wrap of PHASE clears owner tags alone. -/
theorem State.wrapTags_shape (s : State) (ctx f : Nat) (old new : Tab (BitVec 32)) : ∃ g, s.wrapTags ctx f old new = { s with tags := g } := by
  unfold State.wrapTags
  split_ifs <;> exact ⟨_, rfl⟩

/-- An arrival leaves the flag file, owner tags where PHASE wraps, and nothing else. -/
theorem State.arriveAt_shape (s : State) (ctx f j : Nat) : ∃ x g, (s.arriveAt ctx f j).1 = { s with ctxs := x, tags := g } := by
  obtain ⟨g, h⟩ := (s.setFlags ctx (arrive (s.ctxAt ctx).flags f j).1).wrapTags_shape ctx f (s.ctxAt ctx).flags (arrive (s.ctxAt ctx).flags f j).1
  exact ⟨_, g, h⟩

/-! ### What the bodies answer -/

section
variable {a : State} {d x y : Nat}

theorem barArriveBody_ok (hd : a.myCore.drained = true) (hb : barBad a.flags (a.rx x).toNat = false) : barArriveBody d x y a =
    .ok ((a.arriveAt a.myCtx (a.rx x).toNat ((a.rx y 1).toNat % 4)).1.landX d (BitVec.ofNat 64 (a.arriveAt a.myCtx (a.rx x).toNat ((a.rx y 1).toNat % 4)).2) 1) := by
  simp only [barArriveBody, hd, await, hb, need, Bool.not_false, if_true, bind_ok]
  rfl

theorem barArriveBody_bad (hd : a.myCore.drained = true) (hb : barBad a.flags (a.rx x).toNat = true) : barArriveBody d x y a =
    .error (.trap { cls := 2, sub := 0x26, addr := BitVec.ofNat 64 (a.rx x).toNat }) := by
  simp only [barArriveBody, hd, await, hb, need, Bool.not_true, if_true, Bool.false_eq_true, if_false, bind_ok]
  rfl

theorem barWaitBody_ok (hd : a.myCore.drained = true) (hb : barBad a.flags (a.rx x).toNat = false) (hf : barFour (flagAt a.flags (a.rx x).toNat) = false)
    (hp : 0 ≤ (BitVec.ofNat 16 (bits (flagAt a.flags ((a.rx x).toNat + 1)) 16 16) - BitVec.ofNat 16 (a.rx y 1).toNat).toInt) :
    barWaitBody d x y a = .ok (a.landX d (BitVec.ofNat 64 (bits (flagAt a.flags ((a.rx x).toNat + 1)) 16 16)) 1) := by
  simp only [barWaitBody, hd, await, hb, hf, need, Bool.not_false, Bool.and_true, if_true, bind_ok, decide_eq_true hp]
  rfl

theorem barWait4Body_ok (hd : a.myCore.drained = true) (hb : barBad a.flags (a.rx x).toNat = false) (hf : barFour (flagAt a.flags (a.rx x).toNat) = true)
    (hp : bit (flagAt a.flags ((a.rx x).toNat + 1 + (a.rx y 1).toNat % 4)) 15 = false) :
    barWait4Body d x y a = .ok (a.landX d (BitVec.ofNat 64 (bits (flagAt a.flags ((a.rx x).toNat + 1 + (a.rx y 1).toNat % 4)) 16 16)) 1) := by
  simp only [barWait4Body, hd, await, hb, hf, hp, need, Bool.not_false, Bool.and_true, if_true, bind_ok]
  rfl

theorem flagWaitBody_ok (hd : a.myCore.drained = true) (hf : (a.rx x).toNat ≤ 4095)
    (hp : 0 ≤ (tGet 0 a.flags (a.rx x).toNat - BitVec.ofNat 32 (a.rx y 1).toNat).toInt) :
    flagWaitBody d x y a = .ok (a.landX d (BitVec.ofNat 64 (tGet 0 a.flags (a.rx x).toNat).toNat) 1) := by
  simp only [flagWaitBody, hd, await, need, if_true, bind_ok, decide_eq_true hf, decide_eq_true hp]
  rfl

theorem flagAddBody_local (hd : a.myCore.drained = true) (hf : (a.rx x 1).toNat ≤ 4095) :
    flagAddBody 0 x y a = .ok (a.setFlags a.myCtx (addFlag a.flags (a.rx x 1).toNat (BitVec.ofNat 32 (a.rx y 2).toNat))) := by
  simp only [flagAddBody, hd, await, need, if_true, bind_ok, decide_eq_true hf]
  rfl

/-- The state past a posted flag add: its item on the core's list, its message on the way (R259). -/
def State.flagPosted (a : State) (e : ImportEnt) (i : Nat) (v : BitVec 32) : State :=
  { (a.newItem a.cur.die a.cur.core { pid := 0, imp := e.uid, home := if e.foreign then none else some e.die, eng := a.cur.eng }).2 with
    flagMsgs := a.flagMsgs ++ [⟨a.cur.die, a.cur.core, a.myCore.nextPid, e.exp, e.die, i, v⟩] }

theorem flagAddBody_posted {e : Nat × ImportEnt} (hd : a.myCore.drained = true) (hf : (a.rx x 1).toNat ≤ 4095) (h0 : d ≠ 0)
    (hi : a.importOf a.myCtx (a.rx d) [3] = .ok e) :
    flagAddBody d x y a = .ok (a.flagPosted e.2 (a.rx x 1).toNat (BitVec.ofNat 32 (a.rx y 2).toNat)) := by
  simp only [flagAddBody, hd, await, need, if_true, bind_ok, decide_eq_true hf, if_neg h0, hi, liftTrap]
  rfl

theorem State.flagPosted_me (e : ImportEnt) (i : Nat) (v : BitVec 32) : (a.flagPosted e i v).me = a.me := by
  change ((a.setCoreAt a.cur.die a.cur.core _).coreAt a.cur.die a.cur.core).eng a.cur.eng = _
  rw [State.coreAt_setCoreAt, State.me]
  cases a.cur.eng <;> rfl

end

/-! ### The instructions -/

section
variable {s : State} {d x y : BitVec 6} {g : BitVec 3}

theorem execBarArrive_next (h : s.issues (flagForm g) = true) (hd : s.myCore.drained = true) (hb : barBad s.flags (s.atIssue.rx x.toNat).toNat = false) :
    let r := s.atIssue.arriveAt s.myCtx (s.atIssue.rx x.toNat).toNat ((s.atIssue.rx y.toNat 1).toNat % 4)
    ∃ t, execBarArrive d x y g s = .next t ∧ r.1.EndsAs t true ∧ r.1.Regs t (fun k => if k = d.toNat then some (BitVec.ofNat 64 r.2) else none) := by
  intro r
  obtain ⟨c, t, e⟩ := s.atIssue.arriveAt_shape s.myCtx (s.atIssue.rx x.toNat).toNat ((s.atIssue.rx y.toNat 1).toNat % 4)
  have hr : r.1 = { s.atIssue with ctxs := c, tags := t } := e
  exact endsAs_landX h (by rw [hr]; rfl) (by rw [hr]; exact Engine.StaysAt.refl _) (barArriveBody_ok (a := s.atIssue) hd hb)

theorem execBarArrive_bad (h : s.issues (flagForm g) = true) (hd : s.myCore.drained = true) (hb : barBad s.flags (s.atIssue.rx x.toNat).toNat = true) :
    execBarArrive d x y g s = .next (s.atIssue.takeTrap s.cur { cls := 2, sub := 0x26, addr := BitVec.ofNat 64 (s.atIssue.rx x.toNat).toNat }) :=
  issue_trap (State.issues_iff.1 h).1 (barArriveBody_bad (a := s.atIssue) hd hb)

/-- A body of the flag unit that lands one register beside what it leaves. -/
theorem flag_lands {f : Form} {body : State → Res State} {dd n l : Nat} (h : s.issues f = true) (heff : f.eff = true)
    (hb : body s.atIssue = .ok (s.atIssue.landX dd (BitVec.ofNat 64 n) l)) :
    ∃ t, issue s f body = .next t ∧ s.atIssue.EndsAs t true ∧ s.atIssue.Regs t (fun k => if k = dd then some (BitVec.ofNat 64 n) else none) :=
  heff ▸ endsAs_landX h rfl (Engine.StaysAt.refl _) hb

end

/-- Settles O27: each body's answer, and the end of an instruction (BARBAD with the flag index as TADDR: log 23). -/
theorem barriersAndFlags : Obligations.BarriersAndFlags := by
  intro s d x y g a f w fs r v ph ph4 lands
  refine ⟨fun h hd => ⟨fun hb => ?arrive, fun hb hf hp => ?wait, fun hf hp => ?flagWait, fun hb => ?bad⟩, fun h hd hb hf hp => ?wait4, fun h hd => ?add⟩
  case arrive => exact execBarArrive_next h hd hb
  case wait => exact flag_lands h rfl (barWaitBody_ok (a := s.atIssue) hd hb hf hp)
  case flagWait => exact flag_lands h rfl (flagWaitBody_ok (a := s.atIssue) hd hf hp)
  case bad => exact execBarArrive_bad h hd hb
  case wait4 => exact flag_lands h rfl (barWait4Body_ok (a := s.atIssue) hd hb hf hp)
  case add =>
    intro i n hi
    refine ⟨fun h0 => ?loc, fun e h0 he => ?posted⟩
    case loc =>
      have hb : flagAddBody d.toNat x.toNat y.toNat s.atIssue = .ok (a.setFlags s.myCtx (addFlag fs i n)) := by
        rw [h0]
        exact flagAddBody_local (a := s.atIssue) hd hi
      exact endsAs_plain h rfl (Engine.StaysAt.refl _) hb
    case posted =>
      have hme := State.flagPosted_me (a := s.atIssue) e.2 i n
      intro q
      have hst : (s.atIssue.flagPosted e.2 i n).me.StaysAt s.me := by rw [hme]; exact Engine.StaysAt.refl _
      obtain ⟨t, h1, h2, h3⟩ := endsAs_plain (v := s.atIssue.flagPosted e.2 i n) h rfl hst (flagAddBody_posted (a := s.atIssue) hd hi h0 he)
      exact ⟨t, h1, h2, by rw [h3, hme]; rfl⟩

/-! ### chunk -/

/-- `chunk` past its checks. -/
structure State.ChunkAt (a : State) (x y : Nat) (p : Phys) : Prop where
  aligned : aligned (a.rx x).toNat 16 = true
  legal   : bits (a.rx y 1).toNat 48 16 = 0
  check   : a.check a.myCtx none [0] (a.rx x).toNat 16 true = .ok p
  normal  : p.mtype = 0

/-- The index that `chunk` reads and the size it takes (R263). -/
def State.chunkNext (a : State) (p : Phys) : Nat := a.cohNat p.key 8
def State.chunkTakes (a : State) (y : Nat) (p : Phys) : Nat :=
  let w := (a.rx y 1).toNat
  chunkSize (a.cohNat p.key 8) (a.cohNat (p.key + 8) 8) (bits w 0 32) (if bits w 32 16 = 0 then a.gangTiles else bits w 32 16)

section
variable {a : State} {i : Instr} {d x y : Nat} {p : Phys}

theorem State.ChunkAt.sends (h : a.ChunkAt x y p) (hout : a.reqOut i (a.rx x).toNat = false) (hd : a.myCore.drained = true) (hs : a.storesAt p.key 16 = false) :
    chunkBody i d x y a = .error (.wait (a.noteReq i (a.rx x).toNat true)) := by
  simp only [chunkBody, h.aligned, h.legal, h.check, h.normal, liftAt, need, hout, hd, hs, await, bind_ok, decide_true, if_true, Bool.not_false, Bool.and_self,
    Bool.or_true, Bool.false_eq_true, if_false]
  rfl

theorem State.ChunkAt.lands (h : a.ChunkAt x y p) (hout : a.reqOut i (a.rx x).toNat = true) (hw : a.canWrite p.home none p 16 = .ok ()) :
    chunkBody i d x y a = .ok (((a.putMem p.key p.keyNo (natToBytes 8 (a.chunkNext p + a.chunkTakes y p))).landX d (BitVec.ofNat 64 (a.chunkNext p)) 1).landX (d + 1)
      (BitVec.ofNat 64 (a.chunkTakes y p)) 1) := by
  simp only [chunkBody, h.aligned, h.legal, h.check, h.normal, liftAt, need, hout, hw, asReq, await, bind_ok, decide_true, if_true, Bool.true_or]
  rfl

end

/-- Two registers landed in turn. -/
theorem State.regs_landTwo (s : State) (d l m : Nat) (v w : Word) :
    s.Regs ((s.landX d v l).landX (d + 1) w m) (fun r => if r = d then some v else if r = d + 1 then some w else none) := by
  intro r
  have hc : (s.landX d v l).cur = s.cur := (s.lands_landX d v l).cur
  rw [State.landX_regs, State.landX_regs, hc]
  by_cases h1 : r = d <;> by_cases h2 : r = d + 1 <;> by_cases h3 : isC s.cur.eng = true <;> by_cases h4 : r = 0 <;> simp_all

/-- Settles O28: the request, then the two registers and the advanced index. -/
theorem chunksLand : Obligations.ChunksLand := by
  intro s d x y g p a ea w next size h hal hlegal hcheck hnormal
  have hat : a.ChunkAt x.toNat y.toNat p := ⟨hal, hlegal, hcheck, hnormal⟩
  refine ⟨fun hout hd hs => ?sends, fun hout hw => ?lands⟩
  case sends => exact issue_wait (State.issues_iff.1 h).1 (hat.sends hout hd hs)
  case lands =>
    set v := a.putMem p.key p.keyNo (natToBytes 8 (next + size)) with hv
    have hl := (v.lands_landX d.toNat (BitVec.ofNat 64 next) 1).trans (State.lands_landX _ (d.toNat + 1) (BitVec.ofNat 64 size) 1)
    obtain ⟨t, h1, h2, h3⟩ := endsAs_next (v := v) h rfl (Engine.StaysAt.refl _) hl (hat.lands hout hw)
    refine ⟨t, h1, h2, fun r => ?_, fun k => ?_⟩
    · rw [h3]
      exact State.regs_landTwo v d.toNat 1 1 _ _ r
    · have hmem : t.mem = v.mem := (congrArg State.mem h2.rest :)
      rw [hmem, hv, State.putMem, tGet_mWrite, natToBytes_length]
      rfl

/-! ### Deferred arrivals and adds from other cores -/

theorem execBarArriveD_next {s : State} {x y : BitVec 6} {g : BitVec 3} (h : s.issues { fX g (s.regs [x.toNat, y.toNat]) with eff := true } = true) :
    let c := s.myCore
    let q : Deferred := { at_ := s.now + 1, f := s.atIssue.rx x.toNat, j := (s.atIssue.rx y.toNat 1).toNat % 4, nums := (c.copyq.filter (fun k => !k.helper)).map (·.num),
                          pids := (c.posted.filter (fun i => i.copy && !i.dropped)).map (·.pid) }
    ∃ t, execBarArriveD x y g s = .next t ∧ (s.atIssue.setMyCore { c with defer := c.defer ++ [q] }).EndsAs t true ∧ t.me.x = s.me.x := by
  intro c q
  have hme : (s.atIssue.setMyCore { c with defer := c.defer ++ [q] }).me = s.me := by
    rw [State.me_setMyCore, State.me]
    change ({ c with defer := c.defer ++ [q] } : Core).eng s.cur.eng = _
    cases s.cur.eng <;> rfl
  obtain ⟨t, h1, h2, h3⟩ := endsAs_plain (v := s.atIssue.setMyCore { c with defer := c.defer ++ [q] }) (body := barArriveDBody x.toNat y.toNat) h rfl
    (by rw [hme]; exact Engine.StaysAt.refl _) rfl
  exact ⟨t, h1, h2, h3.trans (congrArg Engine.x hme)⟩

/-- The only deferred arrival of a running core, once it is ready. -/
theorem State.settleDefer_one {s : State} {die core : Nat} {d : Deferred} (hh : (s.partOfCore die core).halt = none) (hd : (s.coreAt die core).defer = [d])
    (hr : (s.coreAt die core).deferReady s.now d = true) :
    s.settleDefer die core = (s.setCoreAt die core { s.coreAt die core with defer := [] }).arriveDeferred die core d := by
  unfold State.settleDefer
  simp [hh, hd, hr]

theorem execFlagAddArrival_due {s : State} {n : Nat} {m : FlagMsg} (hm : s.flagMsgs[n]? = some m) (hdue : s.flagAddDue m n = true) :
    execFlagAddArrival n s = .next (s.fresh.flagAddArrive n m) := by
  unfold execFlagAddArrival
  rw [hm]
  exact event_due hdue _

theorem State.flagAddArrive_export {u : State} {n : Nat} {m : FlagMsg} {e : ExportEnt} (he : u.exportOf m.exp = some e) :
    u.flagAddArrive n m = if e.revoked then ({ u with flagMsgs := dropNth u.flagMsgs n } : State).ackItem m.home m.die m.core m.pid true
      else (({ u with flagMsgs := dropNth u.flagMsgs n } : State).flagAdd e.ctx m.idx m.val).ackItem m.home m.die m.core m.pid false := by
  have he' : ({ u with flagMsgs := dropNth u.flagMsgs n } : State).exportOf m.exp = some e := he
  unfold State.flagAddArrive
  dsimp only
  rw [he']
  cases hr : e.revoked <;> simp [hr]

/-- Settles O29: the instruction's deferred entry, its arrival, and a posted add performed or dropped. -/
theorem arrivalsFromAfar : Obligations.ArrivalsFromAfar := by
  intro s x y g a c q
  refine ⟨execBarArriveD_next, fun die core d hh hd hr => ?settle, fun n m e hm hdue he => ?add⟩
  case settle =>
    intro u cx fs
    rw [State.settleDefer_one hh hd hr]
    rfl
  case add =>
    intro u
    have hev : exec (.flagAddArrival n) s = .next (s.fresh.flagAddArrive n m) := execFlagAddArrival_due hm hdue
    rw [hev, State.flagAddArrive_export (u := s.fresh) he]
    exact ⟨fun hr => by rw [hr]; rfl, fun hr => by rw [hr]; rfl⟩

end Sys2Proof.Machine
end

section
/-! PROOFS. The float lanes, the masks, the reductions, scans and conversions of the vector stream (R139, R144 to R148, R151, R152, R164 to R168): each is one of the
shared forms of Laws/Vector.lean at its own operation, or a body of its own that lands lanes with their flags. -/

namespace Sys2Proof.Machine

/-! ### Float lanes -/

/-- Settles O30: the two-, one- and three-input forms and the approximations, each at its operation. -/
theorem floatLanesLand : Obligations.FloatLanesLand := by
  intro s d x y z q g h a on r u w rnd grid to16 lands two one fused
  have pair (op : FVal → FVal → FVal × Flags) := vf2_next (d := d) (a := x) (b := y) (q := q) h op
  have single (op : FVal → FVal × Flags) := vf1_next (d := d) (a := x) (q := q) h op
  have triple (np nc : Bool) := vf3_next (d := d) (a := x) (b := y) (c := z) h np nc
  have approx (f : State → Nat → FVal → Lane → Nat × Flags) := vApprox_next (d := d) (a := x) (q := q) h f
  exact ⟨pair fAdd, pair fun m n => fAdd m (fNeg n), pair fMul, pair fun m n => (fMin m n, 0), pair fun m n => (fMax m n, 0),
    single fun m => (fAbs m, 0), single fun m => (fNeg m, 0), triple false false, triple false true, triple true true, triple true false,
    approx fun v i m _ => v.toG16 i (fRcp m), approx fun v i m _ => v.toG16 i (fRsqrt m),
    approx fun v i m n => exp2G16 m v.row.rnd v.flush (v.vsr v.row.slot i) n.toNat, approx fun v i m n => log2G16 m v.row.rnd v.flush (v.vsr v.row.slot i) n.toNat⟩

/-! ### Masks -/

section
variable {s : State} {d m n : BitVec 4} {x y : BitVec 5} {c q g : BitVec 3}

theorem execVcmpF32_next (h : s.issues { fV g with wf := c.toNat ≤ 3 } = true) : ∃ t, execVcmpF32 d x y c q g s = .next t ∧ s.MaskLands t d.toNat
    (laneMask fun k => s.atIssue.active q.toNat k &&
      vcmpFCond c.toNat (laneIn s.atIssue.flush (s.atIssue.rv x.toNat k)).1 (laneIn s.atIssue.flush (s.atIssue.rv y.toNat k 1)).1) := writeQ_next h rfl rfl

theorem execVcmpI32_next (h : s.issues { fV g with wf := c.toNat ≤ 5 } = true) : ∃ t, execVcmpI32 d x y c q g s = .next t ∧ s.MaskLands t d.toNat
    (laneMask fun k => s.atIssue.active q.toNat k && vcmpICond c.toNat (s.atIssue.rv x.toNat k) (s.atIssue.rv y.toNat k 1)) := writeQ_next h rfl rfl

theorem maskOp_next (h : s.issues (fV g) = true) (f : Word → Word → Word) : ∃ t, maskOp d m n g f s = .next t ∧
    s.MaskLands t d.toNat (f (s.atIssue.rq m.toNat) (s.atIssue.rq n.toNat 1)) := writeQ_next h rfl rfl

end

/-- Settles O33: the compares by their own bodies, the mask operations as the shared form at the operation of each. -/
theorem masksLand : Obligations.MasksLand := by
  intro s d m n x y c q g a f h lands
  refine ⟨execVcmpF32_next, execVcmpI32_next, fun hi => ?ops⟩
  case ops =>
    have op (f : Word → Word → Word) := maskOp_next (d := d) (m := m) (n := n) hi f
    exact ⟨op (· &&& ·), op (· ||| ·), op (· ^^^ ·), op fun u w => u &&& ~~~w, op fun u _ => ~~~u, op fun u _ => u⟩

/-! ### Reductions, scans and conversions -/

section
variable {s : State} {f : Form} {d l : Nat} {h : Nat → Option Lane} {fl : Flags} {sr : Bool} {body : State → Res State}

/-- A body that lands lanes, ORs flags and steps SRSEQ. -/
theorem landed_next (hi : s.issues f = true) (heff : f.eff = false) (hb : body s.atIssue = .ok (((s.atIssue.landV d h l).orFlags fl).srStep sr)) :
    ∃ t, issue s f body = .next t ∧ s.LanesLand t d h fl sr := lanes_next hi heff (hb.trans (congrArg Except.ok (State.landV_lanes ..)))

end

section
variable {s : State} {d x e : BitVec 5} {m q g : BitVec 3} {f : BitVec 6}

theorem execVred_next (h : s.issues { fVF g with wf := m.toNat ≤ 5 } = true) :
    let t := s.atIssue.redTree m.toNat 6 1 ((upto 0 64).map fun k => if s.atIssue.active q.toNat k then some (s.atIssue.redSrc m.toNat (s.atIssue.rv x.toNat k)).1 else none)
    ∃ u, execVred d x m q g s = .next u ∧ s.LanesLand u d.toNat (fun k => if k = 0 then some (t.1.getD (redIdentity m.toNat)) else none)
      (s.atIssue.redInFlags m.toNat x.toNat q.toNat ||| t.2) (s.atIssue.redSr m.toNat) := landed_next h rfl rfl

theorem execVscan_next (h : s.issues { fVF g with wf := m.toNat ≤ 5 } = true) :
    let r := s.atIssue.scanLanes m.toNat x.toNat q.toNat (upto 0 64) none
    ∃ u, execVscan d x m q g s = .next u ∧ s.LanesLand u d.toNat (fun k => r.1.getD k none) (s.atIssue.redInFlags m.toNat x.toNat q.toNat ||| r.2) (s.atIssue.redSr m.toNat) :=
  landed_next h rfl rfl

/-- The lanes that packed elements touch, as they leave them (R60). -/
def State.packed (a : State) (d w k : Nat) (h : Nat → Option Nat) (l : Nat) : Option Lane :=
  if packTouched (32 / w) h l then some (BitVec.ofNat 32 (packLane w (32 / w) h l (a.rv d l k).toNat (32 / w))) else none

/-- A conversion into a format, its elements rounded by a mode (R166, R168). -/
theorem cvtTo_next {body : State → Res State} {rnd : Nat} (h : s.issues (cvtForm f g) = true)
    (hb : body s.atIssue = .ok (s.atIssue.cvtTo d.toNat x.toNat f.toNat q.toNat rnd)) :
    let elem := fun j => s.atIssue.cvtElem f.toNat rnd (s.atIssue.rv x.toNat j) j
    ∃ u, issue s (cvtForm f g) body = .next u ∧ s.LanesLand u d.toNat
      (s.atIssue.packed d.toNat (fmtOf f.toNat).width 1 fun j => if s.atIssue.active q.toNat j then some (elem j).1 else none)
      (lanesFlags (s.atIssue.active q.toNat) (fun j => (0, (elem j).2)) (upto 0 64)) (decide (rnd = 4)) := landed_next h rfl hb

theorem execVcvtTo_next (h : s.issues (cvtForm f g) = true) : ∃ u, execVcvtTo d x f q g s = .next u ∧ s.LanesLand u d.toNat
    (s.atIssue.packed d.toNat (fmtOf f.toNat).width 1 fun j =>
      if s.atIssue.active q.toNat j then some (s.atIssue.cvtElem f.toNat s.atIssue.row.rnd (s.atIssue.rv x.toNat j) j).1 else none)
    (lanesFlags (s.atIssue.active q.toNat) (fun j => (0, (s.atIssue.cvtElem f.toNat s.atIssue.row.rnd (s.atIssue.rv x.toNat j) j).2)) (upto 0 64))
    (decide (s.atIssue.row.rnd = 4)) := cvtTo_next h rfl

theorem execVsrc_next (h : s.issues (cvtForm f g) = true) : ∃ u, execVsrc d x f q g s = .next u ∧ s.LanesLand u d.toNat
    (s.atIssue.packed d.toNat (fmtOf f.toNat).width 1 fun j =>
      if s.atIssue.active q.toNat j then some (s.atIssue.cvtElem f.toNat 4 (s.atIssue.rv x.toNat j) j).1 else none)
    (lanesFlags (s.atIssue.active q.toNat) (fun j => (0, (s.atIssue.cvtElem f.toNat 4 (s.atIssue.rv x.toNat j) j).2)) (upto 0 64)) (decide (4 = 4)) := cvtTo_next h rfl

theorem execVcvtFrom_next (h : s.issues (cvtForm f g) = true) : ∃ u, execVcvtFrom d x f q g s = .next u ∧ s.LanesLand u d.toNat
    (onLanes (s.atIssue.active q.toNat) fun j => (s.atIssue.fromElem f.toNat x.toNat j).1)
    (lanesFlags (s.atIssue.active q.toNat) (s.atIssue.fromElem f.toNat x.toNat) (upto 0 64)) s.atIssue.sr := float_next h rfl rfl

/-- Two registers' lanes landed in turn, with flags and the SR sequence. -/
theorem State.landV_twice (s : State) (d e l : Nat) (f h : Nat → Option Lane) (fl : Flags) (sr : Bool) :
    (((s.landV d f l).landV e h l).orFlags fl).srStep sr =
      ((s.setMyCore ((s.myCore.lanes d f 0 false).lanes e h fl sr)).noteLanding (idV d) l).noteLanding (idV e) l := by
  rw [State.landV_lanes, State.landV_plain]
  congr 1
  have hset := State.noteLanding_setMyCore (s.setMyCore (s.myCore.lanes d f 0 false)) (fun c => c.lanes e h fl sr) (fun c w x => by cases w <;> rfl)
    (fun c w => by cases w <;> rfl) (idV d) l
  rw [State.setMyCore_setMyCore, State.myCore_setMyCore] at hset
  exact hset

end

/-- Settles O34: each body's lanes, flags and SR step; `vmxq` as two landings in turn. -/
theorem reductionsAndConversionsLand : Obligations.ReductionsAndConversionsLand := by
  intro s d x e m q g f a on lands tree run elems packed turned
  refine ⟨fun h => ⟨execVred_next h, execVscan_next h⟩, fun h => ⟨execVcvtTo_next h, execVsrc_next h, execVcvtFrom_next h⟩, fun h => ?mxq⟩
  case mxq =>
    intro bs nb blocks w elem some_ lane old scales fl
    set c := (s.myCore.lanes d.toNat (packed w 1 some_) 0 false).lanes e.toNat (fun l => if l = 0 then some (BitVec.ofNat 32 scales) else none) fl a.sr with hc
    have hl := (State.lands_noteLanding (a.setMyCore c) (idV d.toNat) 12).trans (State.lands_noteLanding _ (idV e.toNat) 12)
    have hme : c.eng s.cur.eng = s.me := (Core.lanes_eng ..).trans (Core.lanes_eng ..)
    have hb : a.mxq d.toNat x.toNat e.toNat f.toNat = ((a.setMyCore c).noteLanding (idV d.toNat) 12).noteLanding (idV e.toNat) 12 :=
      State.landV_twice a d.toNat e.toNat 12 (packed w 1 some_) _ fl a.sr
    obtain ⟨t, h1, h2, h3⟩ := coreTo_next (body := fun s => .ok (s.mxq d.toNat x.toNat e.toNat f.toNat)) h rfl rfl hme hl (congrArg Except.ok hb)
    refine ⟨t, h1, ?_, h2⟩
    rw [h3, State.noteLanding_x, State.noteLanding_x, State.me_setMyCore]
    exact congrArg Engine.x hme

end Sys2Proof.Machine
end

section
/-! PROOFS. The vector loads and stores (R124, R160 to R163): the elements' checks, the elements that return, and the lanes they land in. -/

namespace Sys2Proof.Machine

/-! ### Elements by lane -/

theorem setLanes_congr (t : Tab Lane) (v : Nat) {f g : Nat → Option Lane} {ls : List Nat} (h : ∀ i ∈ ls, f i = g i) : setLanes t v f ls = setLanes t v g ls := by
  induction ls generalizing t with
  | nil => rfl
  | cons i is ih =>
    rw [setLanes, setLanes, h i List.mem_cons_self]
    exact ih _ fun j hj => h j (List.mem_cons_of_mem _ hj)

/-- Values listed by key, each a function of its key. -/
theorem tFind_map {α : Type} (w : Nat → α) (ls : List Nat) (k : Nat) : tFind (ls.map fun i => (i, w i)) k = if k ∈ ls then some (w k) else none := by
  induction ls with
  | nil => rfl
  | cons i is ih =>
    rw [List.map_cons, tFind, ih]
    by_cases h : i = k
    · subst h; simp
    · simp [h, Ne.symm h]

/-- The words of the active lanes, by lane. -/
theorem lanes_elems (c : Core) (a : State) (d q : Nat) (addr : Nat → Nat) (w : Nat → Lane) (fl : Flags) (sr : Bool) :
    c.lanes d (tFind ((a.elems q addr).map fun e => (e.1, w e.2))) fl sr = c.lanes d (onLanes (a.active q) fun k => w (addr k)) fl sr := by
  have h : setLanes c.vr d (tFind ((a.elems q addr).map fun e => (e.1, w e.2))) (upto 0 64) = setLanes c.vr d (onLanes (a.active q) fun k => w (addr k)) (upto 0 64) := by
    refine setLanes_congr _ _ fun i hi => ?_
    rw [State.elems, List.map_map]
    refine (tFind_map (fun i => w (addr i)) _ i).trans ?_
    simp [onLanes, hi]
  rw [Core.lanes, h]
  rfl

theorem tFind_tIns_some {α : Type} {t : Tab α} {j k : Nat} {v w : α} (h : tFind (tIns t j v) k = some w) : tFind t k = some w ∨ (k = j ∧ w = v) := by
  induction t with
  | nil =>
    rw [tIns, tFind] at h
    split_ifs at h with hj
    · exact .inr ⟨hj.symm, (Option.some.inj h).symm⟩
    · cases h
  | cons p t ih =>
    rw [tIns] at h
    split_ifs at h with hlt
    · rw [tFind] at h
      split_ifs at h with hj
      · exact .inr ⟨hj.symm, (Option.some.inj h).symm⟩
      · exact .inl h
    · rw [tFind] at h ⊢
      split_ifs at h ⊢ with hp
      · exact .inl h
      · exact ih h

/-! ### The elements that return -/

/-- With every element returned before, a load takes none. -/
theorem State.takeElems_all {s : State} {qs : List (Elem × Phys)} {got : List (Nat × Lane)} (h : ∀ q ∈ qs, (tFind got q.1.1).isSome) : s.takeElems qs got = (got, s) := by
  induction qs with
  | nil => rfl
  | cons q qs ih =>
    rw [State.takeElems, if_pos (h q List.mem_cons_self)]
    exact ih fun x hx => h x (List.mem_cons_of_mem _ hx)

/-- Every element that returns has the word that its port reads. -/
theorem State.takeElems_word {s : State} {qs : List (Elem × Phys)} {got : List (Nat × Lane)} (hr : ∀ q ∈ qs, s.canRead s.cur.die none q.2 4 = .ok ()) {k : Nat} {w : Lane}
    (h : tFind (s.takeElems qs got).1 k = some w) : tFind got k = some w ∨
      ∃ q ∈ qs, q.1.1 = k ∧ w = BitVec.ofNat 32 (bytesToNat (s.portBytes s.cur.die s.cur.core q.2.key q.2.home 4)) := by
  induction qs generalizing got with
  | nil => exact .inl h
  | cons q qs ih =>
    have tail {got : List (Nat × Lane)} (h : tFind (s.takeElems qs got).1 k = some w) := ih (fun x hx => hr x (List.mem_cons_of_mem _ hx)) h
    have wider : (∃ q ∈ qs, q.1.1 = k ∧ w = BitVec.ofNat 32 (bytesToNat (s.portBytes s.cur.die s.cur.core q.2.key q.2.home 4))) →
        ∃ x ∈ q :: qs, x.1.1 = k ∧ w = BitVec.ofNat 32 (bytesToNat (s.portBytes s.cur.die s.cur.core x.2.key x.2.home 4)) :=
      fun ⟨x, hx, he⟩ => ⟨x, List.mem_cons_of_mem _ hx, he⟩
    rw [State.takeElems, hr q List.mem_cons_self] at h
    dsimp only at h
    split_ifs at h
    · exact (tail h).imp_right wider
    · exact (tail h).imp_right wider
    · rcases tail h with h | h
      · rcases tFind_tIns_some h with h | ⟨rfl, rfl⟩
        · exact .inl h
        · exact .inr ⟨q, List.mem_cons_self, rfl, rfl⟩
      · exact .inr (wider h)

/-! ### The elements' checks -/

/-- Checks of global elements leave owner tags alone. -/
theorem State.glElems_shape {s u : State} {wr : Bool} {es : List Elem} {ps : List Phys} (h : s.glElems wr es = .ok (ps, u)) :
    (∃ g, u = { s with tags := g }) ∧ ps.length = es.length := by
  induction es generalizing s ps u with
  | nil => cases h; exact ⟨⟨_, rfl⟩, rfl⟩
  | cons e es ih =>
    rw [State.glElems] at h
    cases hn : need (aligned e.2 4) clsMem 3 (BitVec.ofNat 64 e.2) with
    | error x => rw [hn] at h; cases h
    | ok x =>
      cases hp : liftAt e.2 (if wr then s.checkSt s.myCtx (some s.myFoot) [0] e.2 4 else s.check s.myCtx (some s.myFoot) [0] e.2 4 false) with
      | error x => rw [hn, bind_ok, hp] at h; cases h
      | ok p =>
        cases hr : need (!(wr && s.inRecord s.myCtx e.2 4)) clsUse subOBLIG with
        | error x => rw [hn, bind_ok, hp, bind_ok, hr] at h; cases h
        | ok x =>
          cases ho : s.own s.cur.die s.cur.core s.myTask p e.2 4 wr with
          | error x => rw [hn, bind_ok, hp, bind_ok, hr, bind_ok, ho] at h; cases h
          | ok s1 =>
            cases hg : s1.glElems wr es with
            | error x => rw [hn, bind_ok, hp, bind_ok, hr, bind_ok, ho, liftAt, bind_ok, hg] at h; cases h
            | ok r =>
              rw [hn, bind_ok, hp, bind_ok, hr, bind_ok, ho, liftAt, bind_ok, hg, bind_ok] at h
              cases h
              obtain ⟨g, h1⟩ := State.own_shape ho
              obtain ⟨⟨g2, h2⟩, hl⟩ := ih hg
              exact ⟨⟨g2, by rw [h2, h1]⟩, by rw [List.length_cons, List.length_cons, hl]⟩

section
variable {a u : State} {i : Instr} {ea : Nat} {es : List Elem} {ps : List Phys}

theorem inOrder_all (h : ∀ p ∈ ps, a.myCore.inOrder a.cur.eng p.mtype = true) : ps.all (fun p => a.myCore.inOrder a.cur.eng p.mtype) = true := List.all_eq_true.2 h

/-- The one trace entry of a vector access of memory, with its first element's address (log 24). -/
def State.traceFirst (u : State) (kind : Nat) (es : List Elem) : State :=
  match es with
  | [] => u
  | e :: _ => u.trace kind 2 (BitVec.ofNat 64 e.2)

theorem State.tracedTo_first (u : State) (kind : Nat) (es : List Elem) : u.TracedTo (u.traceFirst kind es) := by
  cases es with
  | nil => exact State.TracedTo.refl u
  | cons e es => exact u.tracedTo_trace _ _ _

/-- A load of once-only pages sends its request first (R124). -/
theorem State.loadElems_sends (hg : a.glElems false es = .ok (ps, u)) (ho : ∀ p ∈ ps, a.myCore.inOrder a.cur.eng p.mtype = true) (h1 : onceOnly ps = true)
    (hr : a.reqOut i ea = false) : a.loadElems i ea es = .error (.wait (a.noteReq i ea true)) := by
  rw [State.loadElems, hg, bind_ok, await_ok (inOrder_all ho), bind_ok, await_no (by simp [h1, hr]), bind_error]

/-- An element that has not returned keeps the load waiting with what it has got (R161). -/
theorem State.loadElems_keeps (hg : a.glElems false es = .ok (ps, u)) (ho : ∀ p ∈ ps, a.myCore.inOrder a.cur.eng p.mtype = true) (h1 : onceOnly ps = true → a.reqOut i ea = true)
    (hm : ∃ e ∈ es, tFind (a.takeElems (es.zip ps) (a.gotten i ea)).1 e.1 = none) :
    a.loadElems i ea es = .error (.wait ((a.takeElems (es.zip ps) (a.gotten i ea)).2.keepGot i ea (a.takeElems (es.zip ps) (a.gotten i ea)).1)) := by
  obtain ⟨e, he, hn⟩ := hm
  have hall : es.all (fun e => (tFind (a.takeElems (es.zip ps) (a.gotten i ea)).1 e.1).isSome) = false := List.all_eq_false.2 ⟨e, he, by simp [hn]⟩
  rw [State.loadElems, hg, bind_ok, await_ok (inOrder_all ho), bind_ok, await_ok (by simpa [imp_iff_not_or] using h1), bind_ok]
  dsimp only
  rw [await_no hall, bind_error]

/-- With every element returned the load has its words, its owner tags and one trace entry (log 24). -/
theorem State.loadElems_done (hg : a.glElems false es = .ok (ps, u)) (ho : ∀ p ∈ ps, a.myCore.inOrder a.cur.eng p.mtype = true) (h1 : onceOnly ps = true → a.reqOut i ea = true)
    (hd : ∀ e ∈ es, (tFind (a.takeElems (es.zip ps) (a.gotten i ea)).1 e.1).isSome) :
    a.loadElems i ea es = .ok ((a.takeElems (es.zip ps) (a.gotten i ea)).1, u.traceFirst 2 es) := by
  rw [State.loadElems, hg, bind_ok, await_ok (inOrder_all ho), bind_ok, await_ok (by simpa [imp_iff_not_or] using h1), bind_ok]
  dsimp only
  rw [await_ok (List.all_eq_true.2 hd), bind_ok]
  rfl

end

/-! ### Vector loads -/

section
variable {a : State} {i : Instr} {ea v : Nat} {es : List Elem} {range : Nat × Nat} {lmax : Nat}

theorem vecLoad_scratch (hc : a.myCore.spElems false es = .ok ())
    (hr : range.2 = 0 ∨ (a.myCore.conflict range.1 range.2 false = false ∧ a.myCore.sb.length < Config.scoreboardSize)) (hs : a.spElemsReady false es = .ok ()) :
    vecLoad i true ea v es range lmax a = .ok (a.landElems v (a.spLoad es) lmax) := by
  have hok : (decide (range.2 = 0) || (!a.myCore.conflict range.1 range.2 false && decide (a.myCore.sb.length < Config.scoreboardSize))) = true := by simpa using hr
  rw [vecLoad, if_pos rfl, hc, bind_ok, await_ok hok, bind_ok, hs, bind_ok]
  rfl

end

/-- What a vector load does, its answer given (R161 to R163): of the scratchpad at once, of memory with the elements as they return. -/
def State.VecLoads (s : State) (out : Out) (i : Instr) (sp : BitVec 1) (v q at_ : Nat) (addr : Nat → Nat) (range : Nat × Nat) : Prop :=
  let a := s.atIssue
  let es := a.elems q addr
  (sp = 1 → a.myCore.spElems false es = .ok () → (range.2 = 0 ∨ (a.myCore.conflict range.1 range.2 false = false ∧ a.myCore.sb.length < Config.scoreboardSize)) →
    a.spElemsReady false es = .ok () →
    ∃ t, out = .next t ∧ s.LanesLand t v (onLanes (a.active q) fun k => BitVec.ofNat 32 (bytesToNat (a.spBytes s.cur.die s.cur.core (addr k) 4))) 0 false) ∧
  (sp ≠ 1 → ∀ ps u, a.glElems false es = .ok (ps, u) → (∀ p ∈ ps, a.myCore.inOrder s.cur.eng p.mtype = true) →
    (onceOnly ps = true → a.reqOut i at_ = false → out = .next (a.noteReq i at_ true)) ∧
    ((onceOnly ps = true → a.reqOut i at_ = true) →
      let r := a.takeElems (es.zip ps) (a.gotten i at_)
      let u1 := u.traceFirst 2 es
      ((∀ e ∈ es, (tFind (a.gotten i at_) e.1).isSome) → r.1 = a.gotten i at_) ∧
      ((∀ p ∈ ps, a.canRead s.cur.die none p 4 = .ok ()) → ∀ k w, tFind r.1 k = some w → tFind (a.gotten i at_) k = some w ∨
        ∃ e p, (e, p) ∈ es.zip ps ∧ e.1 = k ∧ w = BitVec.ofNat 32 (bytesToNat (a.portBytes s.cur.die s.cur.core p.key p.home 4))) ∧
      ((∀ e ∈ es, (tFind r.1 e.1).isSome) →
        ∃ t, out = .next t ∧ (u1.setMyCore (u1.myCore.lanes v (tFind r.1) 0 false)).EndsAs t false ∧ t.me.x = s.me.x) ∧
      ((∃ e ∈ es, tFind r.1 e.1 = none) → out = .next (r.2.keepGot i at_ r.1))))



/-- Every vector load acts by its shared body. -/
theorem vecLoad_acts {s : State} {f : Form} {body : State → Res State} {i : Instr} {sp : BitVec 1} {v q at_ lmax : Nat} {addr : Nat → Nat} {range : Nat × Nat}
    (h : s.issues f = true) (heff : f.eff = false) (hb : body s.atIssue = vecLoad i (decide (sp = 1)) at_ v (s.atIssue.elems q addr) range lmax s.atIssue) :
    s.VecLoads (issue s f body) i sp v q at_ addr range := by
  obtain ⟨hi, -⟩ := State.issues_iff.1 h
  refine ⟨fun hsp hc hr hs => ?scratch, fun hsp ps u hg ho => ?memory⟩
  case scratch =>
    rw [decide_eq_true hsp, vecLoad_scratch hc hr hs, State.landElems, State.landV_plain, State.spLoad,
      lanes_elems _ _ _ _ _ (fun x => BitVec.ofNat 32 (bytesToNat (s.atIssue.spBytes s.atIssue.cur.die s.atIssue.cur.core x 4)))] at hb
    exact lanes_next h heff hb
  case memory =>
    have hb : body s.atIssue = (s.atIssue.loadElems i at_ (s.atIssue.elems q addr) >>= fun r => pure (r.2.landElems v r.1 lmax)) := by
      rw [hb, vecLoad, decide_eq_false hsp, if_neg Bool.false_ne_true]
    refine ⟨fun h1 hr => ?sends, fun h1 => ⟨fun hall => ?old, fun hread k w hk => ?word, fun hd => ?done, fun hm => ?keeps⟩⟩
    case sends => exact issue_wait hi (by rw [hb, State.loadElems_sends hg ho h1 hr, bind_error])
    case old => rw [State.takeElems_all fun x hx => hall _ (List.of_mem_zip hx).1]
    case word =>
      refine (State.takeElems_word (fun x hx => hread _ (List.of_mem_zip hx).2) hk).imp_right ?_
      rintro ⟨⟨e, p⟩, hm, rfl, rfl⟩
      exact ⟨e, p, hm, rfl, rfl⟩
    case keeps => exact issue_wait hi (by rw [hb, State.loadElems_keeps hg ho h1 hm, bind_error])
    case done =>
      obtain ⟨⟨g, hu⟩, -⟩ := State.glElems_shape hg
      rw [State.loadElems_done hg ho h1 hd, bind_ok] at hb
      set w := u.traceFirst 2 (s.atIssue.elems q addr) with hw
      have htr : u.TracedTo w := u.tracedTo_first 2 _
      have hcur : w.cur = s.cur := by rw [htr.cur, hu]; rfl
      have hme : w.me = s.me := by rw [htr.me, hu]; rfl
      set c := w.myCore.lanes v (tFind (s.atIssue.takeElems ((s.atIssue.elems q addr).zip ps) (s.atIssue.gotten i at_)).1) 0 false with hc
      have hcm : (w.setMyCore c).me = s.me := by rw [State.me_setMyCore, hc, Core.lanes_eng]; exact hme
      have hb : body s.atIssue = .ok ((w.setMyCore c).noteLanding (idV v) lmax) := hb.trans (congrArg Except.ok (State.landV_plain ..))
      obtain ⟨t, h1, h2, h3⟩ := endsAs_next (v := w.setMyCore c) h hcur (by rw [hcm]; exact Engine.StaysAt.refl _) (State.lands_noteLanding _ _ _) hb
      exact ⟨t, h1, heff ▸ h2, by rw [h3, State.noteLanding_x, hcm]⟩

section
variable {s : State} {v ix : BitVec 5} {b : BitVec 6} {sp : BitVec 1} {q g : BitVec 3}

theorem execVld32_acts (h : s.issues { vmForm b g s with ext := true } = true) (hal : aligned (s.atIssue.vmAddr b.toNat) 4 = true) :
    s.VecLoads (execVld32 v b sp q g s) (.vld32 v b sp q g) sp v.toNat q.toNat (s.atIssue.vmAddr b.toNat) (fun l => (s.atIssue.vmAddr b.toNat + 4 * l) % 2 ^ 64)
      (s.atIssue.vmAddr b.toNat, 4 * s.atIssue.rvl) :=
  vecLoad_acts h rfl (lmax := 8) (by rw [vld32Body, need_ok hal, bind_ok])

theorem execVldB_acts (h : s.issues { vmForm b g s with ext := true } = true) (hal : aligned (s.atIssue.vmAddr b.toNat) 4 = true) :
    s.VecLoads (execVldB v b sp q g s) (.vldB v b sp q g) sp v.toNat q.toNat (s.atIssue.vmAddr b.toNat) (fun _ => s.atIssue.vmAddr b.toNat)
      (s.atIssue.vmAddr b.toNat, 4) :=
  vecLoad_acts h rfl (lmax := 8) (by rw [vldBBody, need_ok hal, bind_ok])

theorem execVgath_acts (h : s.issues (vmForm b g s) = true) :
    let addr := s.atIssue.vgAddr b.toNat ix.toNat
    let es := s.atIssue.elems q.toNat addr
    s.VecLoads (execVgath v ix b sp q g s) (.vgath v ix b sp q g) sp v.toNat q.toNat ((es.map (·.2)).headD 0) addr (elemRange es) :=
  vecLoad_acts h rfl (lmax := 16) rfl

end

/-- Settles O35: each by the shared body (one trace entry: log 24; addresses modulo 2^64: log 65). -/
theorem vectorLoadsLand : Obligations.VectorLoadsLand := by
  intro s v ix b sp q g a ea lands
  exact ⟨fun h hal => ⟨execVld32_acts h hal, execVldB_acts h hal⟩, execVgath_acts⟩

/-! ### Vector stores -/

/-- A write of the current core's scratchpad leaves the current stream. -/
theorem State.spWrite_mine (s : State) (lo : Nat) (data : List Byte) :
    (s.spWrite s.cur.die s.cur.core lo data).cur = s.cur ∧ (s.spWrite s.cur.die s.cur.core lo data).me = s.me := by
  have hw := s.wrote_spWrite s.cur.die s.cur.core lo data
  obtain ⟨c, g, h1⟩ := hw.shape
  obtain ⟨e, h2⟩ := hw.own
  have hc : (s.spWrite s.cur.die s.cur.core lo data).cur = s.cur := by rw [h1]
  refine ⟨hc, ?_⟩
  rw [State.me, State.myCore, hc, h2]
  change _ = (s.coreAt s.cur.die s.cur.core).eng s.cur.eng
  cases s.cur.eng <;> rfl

theorem State.spStore_mine (s : State) (w : Nat → Lane) (es : List Elem) : (s.spStore w es).cur = s.cur ∧ (s.spStore w es).me = s.me := by
  induction es generalizing s with
  | nil => exact ⟨rfl, rfl⟩
  | cons e es ih =>
    obtain ⟨h1, h2⟩ := s.spWrite_mine e.2 (natToBytes 4 (w e.1).toNat)
    obtain ⟨k1, k2⟩ := ih (s.spWrite s.cur.die s.cur.core e.2 (natToBytes 4 (w e.1).toNat))
    exact ⟨k1.trans h1, k2.trans h2⟩

/-- A store entered in the store queue or posted leaves the current stream. -/
theorem State.storeElem_mine (s : State) (e : Elem) (p : Phys) (w : Lane) : (s.storeElem e p w).cur = s.cur ∧ (s.storeElem e p w).me = s.me := by
  unfold State.storeElem
  dsimp only
  split
  · refine ⟨rfl, ?_⟩
    have hc : (s.post s.cur.die s.cur.core s.cur.eng p (s.expDie p) (natToBytes 4 w.toNat)).cur = s.cur := rfl
    rw [State.me, State.post_myCore, hc, State.me]
    cases s.cur.eng <;> rfl
  · refine ⟨rfl, ?_⟩
    rw [State.me_setMyCore, State.me]
    cases s.cur.eng <;> rfl

theorem State.storeAll_mine (s : State) (w : Nat → Lane) (qs : List (Elem × Phys)) : (s.storeAll w qs).cur = s.cur ∧ (s.storeAll w qs).me = s.me := by
  induction qs generalizing s with
  | nil => exact ⟨rfl, rfl⟩
  | cons q qs ih =>
    obtain ⟨h1, h2⟩ := s.storeElem_mine q.1 q.2 (w q.1.1)
    obtain ⟨k1, k2⟩ := ih (s.storeElem q.1 q.2 (w q.1.1))
    exact ⟨k1.trans h1, k2.trans h2⟩

section
variable {a : State} {v : Nat} {es : List Elem} {range : Nat × Nat}

theorem vecStore_scratch (hc : a.myCore.spElems true es = .ok ())
    (hr : range.2 = 0 ∨ (a.myCore.conflict range.1 range.2 true = false ∧ a.myCore.sb.length < Config.scoreboardSize)) (hs : a.spElemsReady true es = .ok ()) :
    vecStore true v es range a = .ok (a.spStore (fun l => a.rv v l) es) := by
  have hok : (decide (range.2 = 0) || (!a.myCore.conflict range.1 range.2 true && decide (a.myCore.sb.length < Config.scoreboardSize))) = true := by simpa using hr
  rw [vecStore, if_pos rfl, hc, bind_ok, await_ok hok, bind_ok, hs, bind_ok]
  rfl

/-- A store of memory enters every element at once, the last of those that name one word, and makes one trace entry. -/
theorem State.storeElems_enters {u : State} {w : Nat → Lane} {ps : List Phys} (hg : a.glElems true es = .ok (ps, u)) (ho : ∀ p ∈ ps, a.storeOrder p = true)
    (hr : a.storeRoom ((lastOf (es.zip ps)).map (·.2)) = true) : a.storeElems w es = .ok ((u.storeAll w (lastOf (es.zip ps))).traceFirst 3 es) := by
  rw [State.storeElems, hg, bind_ok, await_ok (List.all_eq_true.2 ho), bind_ok]
  dsimp only
  rw [await_ok hr, bind_ok]
  rfl

end

/-- What a vector store does, its answer given (R161 to R163). -/
def State.VecStores (s : State) (out : Out) (sp : BitVec 1) (v q : Nat) (addr : Nat → Nat) (range : Nat × Nat) : Prop :=
  let a := s.atIssue
  let w := fun l => a.rv v l
  let es := a.elems q addr
  (sp = 1 → a.myCore.spElems true es = .ok () → (range.2 = 0 ∨ (a.myCore.conflict range.1 range.2 true = false ∧ a.myCore.sb.length < Config.scoreboardSize)) →
    a.spElemsReady true es = .ok () → ∃ t, out = .next t ∧ (a.spStore w es).EndsAs t false ∧ t.me.x = s.me.x) ∧
  (sp ≠ 1 → ∀ ps u, a.glElems true es = .ok (ps, u) → (∀ p ∈ ps, a.storeOrder p = true) → a.storeRoom ((lastOf (es.zip ps)).map (·.2)) = true →
    ∃ t, out = .next t ∧ ((u.storeAll w (lastOf (es.zip ps))).traceFirst 3 es).EndsAs t true ∧ t.me.x = s.me.x)

/-- Every vector store acts by its shared body. -/
theorem vecStore_acts {s : State} {f : Form} {body : State → Res State} {sp : BitVec 1} {v q : Nat} {addr : Nat → Nat} {range : Nat × Nat}
    (h : s.issues f = true) (heff : f.eff = decide (sp ≠ 1)) (hb : body s.atIssue = vecStore (decide (sp = 1)) v (s.atIssue.elems q addr) range s.atIssue) :
    s.VecStores (issue s f body) sp v q addr range := by
  refine ⟨fun hsp hc hr hs => ?scratch, fun hsp ps u hg ho hr => ?memory⟩
  case scratch =>
    obtain ⟨h1, h2⟩ := s.atIssue.spStore_mine (fun l => s.atIssue.rv v l) (s.atIssue.elems q addr)
    rw [decide_eq_true hsp, vecStore_scratch hc hr hs] at hb
    obtain ⟨t, k1, k2, k3⟩ := endsAs_plain h h1 (by rw [h2]; exact Engine.StaysAt.refl _) hb
    rw [show f.eff = false by rw [heff]; simpa using hsp] at k2
    exact ⟨t, k1, k2, by rw [k3, h2]; rfl⟩
  case memory =>
    obtain ⟨⟨g, hu⟩, -⟩ := State.glElems_shape hg
    obtain ⟨h1, h2⟩ := u.storeAll_mine (fun l => s.atIssue.rv v l) (lastOf ((s.atIssue.elems q addr).zip ps))
    have htr := State.tracedTo_first (u.storeAll (fun l => s.atIssue.rv v l) (lastOf ((s.atIssue.elems q addr).zip ps))) 3 (s.atIssue.elems q addr)
    have hcur := htr.cur.trans (h1.trans (show u.cur = s.cur by rw [hu]; rfl))
    have hme := htr.me.trans (h2.trans (show u.me = s.me by rw [hu]; rfl))
    rw [decide_eq_false hsp, vecStore, if_neg Bool.false_ne_true, State.storeElems_enters hg ho hr] at hb
    obtain ⟨t, k1, k2, k3⟩ := endsAs_plain h hcur (by rw [hme]; exact Engine.StaysAt.refl _) hb
    rw [show f.eff = true by rw [heff]; simpa using hsp] at k2
    exact ⟨t, k1, k2, by rw [k3, hme]⟩

section
variable {s : State} {v ix : BitVec 5} {b : BitVec 6} {sp : BitVec 1} {q g : BitVec 3}

theorem execVst32_acts (h : s.issues { vmForm b g s with ext := true, eff := sp ≠ 1 } = true) (hal : aligned (s.atIssue.vmAddr b.toNat) 4 = true) :
    s.VecStores (execVst32 v b sp q g s) sp v.toNat q.toNat (fun l => (s.atIssue.vmAddr b.toNat + 4 * l) % 2 ^ 64) (s.atIssue.vmAddr b.toNat, 4 * s.atIssue.rvl) :=
  vecStore_acts h rfl (by rw [vst32Body, need_ok hal, bind_ok])

theorem execVscat_acts (h : s.issues { vmForm b g s with eff := sp ≠ 1 } = true) :
    s.VecStores (execVscat v ix b sp q g s) sp v.toNat q.toNat (s.atIssue.vgAddr b.toNat ix.toNat)
      (elemRange (s.atIssue.elems q.toNat (s.atIssue.vgAddr b.toNat ix.toNat))) :=
  vecStore_acts h rfl rfl

end

/-- Settles O36: both by the shared body (one trace entry: log 24; addresses modulo 2^64: log 65). -/
theorem vectorStoresLand : Obligations.VectorStoresLand := by
  intro s v ix b sp q g a ea w lands
  exact ⟨execVst32_acts, execVscat_acts⟩

end Sys2Proof.Machine
end

section
/-! PROOFS. What the machine holds at reset, the spec's example words, what a step runs, and that every instruction answers. -/

namespace Sys2Proof.Machine

/-! ### Reset, example words and the step -/

/-- Settles O58: the reset state lists nothing (vl = 64 and memory reading as 0 are the model's choices, log 4 and log 8). -/
theorem resetState : Obligations.ResetState := by
  unfold Obligations.ResetState
  intro s
  exact ⟨rfl, rfl, rfl, rfl, rfl, rfl, rfl, rfl, rfl, rfl, rfl, rfl, rfl, rfl, rfl, rfl, rfl, rfl, fun _ _ w => by cases w <;> rfl, fun _ _ => ⟨rfl, rfl, rfl⟩⟩

/-- Settles O54: each listed word is decoded. -/
theorem exampleWordsDecode : Obligations.ExampleWordsDecode := by
  unfold Obligations.ExampleWordsDecode
  decide

theorem badWord_illegal {s : State} {e : DecodeErr} {w : Nat} (hw : w % 64 ≠ 0x3E) (hc : s.curOk = true) (hi : s.mayIssue = true) :
    badWord e w s = .next (s.illegal e.subcode (wordForm w)) := by
  simp only [badWord, hw, hc, hi, if_false, if_true, Bool.true_eq_false]

theorem State.withCur_eq {s : State} {c : EngId} (h : s.cur = c) : ({ s with cur := c } : State) = s := by
  subst h
  rfl

/-- Settles O57: with the tape empty or at its first turn, the step is that turn's act, after what falls due by its clk. -/
theorem stepRunsDecoded : Obligations.StepRunsDecoded := by
  unfold Obligations.StepRunsDecoded
  intro s i t ts id die core w
  dsimp only
  refine ⟨fun h => ?_, fun h => ?_, State.clkStart_now _, State.clkStart_mem _, State.clkStart_cur _, State.clkStart_now _, State.clkStart_mem _⟩
  · rw [step_nil h, act_engine, State.withCur_eq (State.clkStart_cur _)]
    refine ⟨streamTurn_body, fun hp => ?_, streamTurn_ended, fun e hp hd hw hc hi => ?_⟩
    · rw [streamTurn_header hp, State.clkStart_cur]
    · rw [streamTurn_bad hp hd, badWord_illegal hw ?_ hi]
      simpa only [State.curOk, State.clkStart_cur] using hc
  · rw [step_cons h]
    refine ⟨fun ha hp hd => ?_, fun ha he => ?_, fun ha hp hd => ?_⟩
    · rw [ha, act_engine, streamTurn_body hp hd]
    · rw [ha, act_event he]
    · rw [ha, act_helper, helperTurn_word hp hd]

/-! ### Every instruction answers -/

/-- A next state, or the fault of an engine that the part lacks, or of an instruction that is not well formed. -/
def State.Answers (s : State) (wf : Bool) (o : Out) : Prop :=
  (∃ t, o = .next t) ∨ (o = .fault .noEngine ∧ s.curOk = false) ∨ (o = .fault .illFormed ∧ wf = false)

theorem issue_answers {s : State} {f : Form} {body : State → Res State} {wf : Bool} (h : f.wf = false → wf = false) : s.Answers wf (issue s f body) := by
  obtain hn | hc | ⟨hf, hw⟩ := issue_cases s f body
  · exact .inl hn
  · exact .inr (.inl hc)
  · exact .inr (.inr ⟨hf, h hw⟩)

theorem issuePrefix_answers (s : State) (isFmt : Bool) (val : Nat) (bad wf : Bool) : s.Answers wf (issuePrefix s isFmt val bad) := by
  unfold issuePrefix
  cases hc : s.curOk with
  | false => exact .inr (.inl ⟨rfl, hc⟩)
  | true =>
    refine .inl ?_
    simp only [Bool.true_eq_false, if_false]
    split_ifs
    · exact ⟨_, rfl⟩
    · exact ⟨_, rfl⟩
    · split <;> exact ⟨_, rfl⟩

theorem helperOp_answers (s : State) (body : State → Res State) (wf : Bool) : s.Answers wf (helperOp s body) := by
  unfold helperOp
  cases hc : s.curOk with
  | false => exact .inr (.inl ⟨rfl, hc⟩)
  | true =>
    refine .inl ?_
    simp only [Bool.true_eq_false, if_false]
    split_ifs
    · exact ⟨_, rfl⟩
    · exact ⟨_, rfl⟩
    · split <;> exact ⟨_, rfl⟩

/-- An event never faults: where it is not due, or there is nothing for it to act on, the state stays as it is. -/
theorem exec_event {i : Instr} (h : isEvent i = true) (s : State) : ∃ t, exec i s = .next t := by
  cases i
  case blockStart | haltComplete | uncorrectableError | memoryTimeout | closeStart | stashFill | stashSnoop | stashWriteback | qbaseWrite |
    qsizeWrite | graphAdmit | writeback | entryEviction | dieLost | halfMerge | halfApplied | halfRefused | zynothPortFail | zynothPortRetrain |
    warmreset | imgpush | featacceptWrite | registerWrite | powerGood | powerSample | thermalSample | coreAgeingCheck | cxlMemAccess | dieMapChange |
    l2ModeChange | powerLoss | blockRaise | traceFreeze | switchIn | mbExport | mbImport | unimport | revoke | invaltr | gresolve | ctxcreate |
    ctxdestroy | keyload | keyclr | manadd | mansign | pwrlimit =>
    exact ⟨_, rfl⟩
  case reads | readx | homeDieRead | homeDieWrite | fwds | fwdh | inv =>
    unfold exec
    dsimp only [execReads, execReadx, execHomeDieRead, execHomeDieWrite, execFwds, execFwdh, execInv, reqEvent, fwdEvent]
    split <;> exact ⟨_, rfl⟩
  case handlerStart | containment | switchOut | matrixGroup | hopArrival | copyBeatGroup | qtailWrite | taskStart | gangStart | preempt |
    taskRetire | postedStorePerformed | storeAck | hbTimeout | combineWrite | prUpdate | halving | savedContextReply | flagAddArrival |
    acknowledgement | migrate | dieAdmit | closeLand | contextResume =>
    unfold exec
    dsimp only [
      execHandlerStart, execContainment, execSwitchOut, execMatrixGroup, execHopArrival, execCopyBeatGroup, execQtailWrite, execTaskStart,
        execGangStart, execPreempt, execTaskRetire, execPostedStorePerformed, execStoreAck, execHbTimeout, execCombineWrite, execPrUpdate,
        execHalving, execSavedContextReply, execFlagAddArrival, execAcknowledgement, execMigrate, execDieAdmit, execCloseLand, execContextResume]
    split <;> exact ⟨_, rfl⟩
  case hbPutArrival src | prArrival src | deposit src =>
    cases src with
    | queued n =>
      unfold exec
      dsimp only [execHbPutArrival, execPrArrival, execDeposit]
      split <;> exact ⟨_, rfl⟩
    | foreign => exact ⟨_, rfl⟩
  case halfRetransmit | recordAdmit =>
    unfold exec
    dsimp only [execHalfRetransmit, execRecordAdmit]
    split
    · exact ⟨_, rfl⟩
    · split <;> exact ⟨_, rfl⟩
  all_goals contradiction

/-- An instruction of a stream or of the helper answers; only a field outside its range makes it ill-formed. -/
theorem exec_answers (s : State) (i : Instr) : s.Answers i.wellFormed (exec i s) := by
  cases i
  case ext | fmt => exact issuePrefix_answers _ _ _ _ _
  case hcp | hwait | hloop | hflag | hjmp | hend =>
    unfold exec
    dsimp only [execHcp, execHwait, execHloop, execHflag, execHjmp, execHend]
    exact helperOp_answers _ _ _
  case cmp | cmpi | st | stSp | atom | cas | atomSp | casSp | fence | vcmpF32 | vcmpI32 | vred | vscan =>
    unfold exec
    dsimp only [execCmp, execCmpi, execSt, execStSp, execAtom, execCas, execAtomSp, execCasSp, execFence, execVcmpF32, execVcmpI32, execVred, execVscan]
    exact issue_answers id
  case nop16 | lui | ld | ldSp | flsig | tkwait | pbr | br | brL | pbrR | evterm | evinc | evwait | barArrive | barWait | barWait4 | flagAdd |
    flagWait | chunk | tlaunch | tdone | tsignal | vlut3 | vpart | vgath | vscat | vld32 | vldB | vst32 | vperm | vcvtTo | vcvtFrom | vmxq | vsrc |
    vsetvlImm | vsetvlReg | vmv | vbcast | vsel | mnest | mopa | mopb | mopm | mma | mmas | mgo | mfmt | mfmtPool | mfmtcommit | chbuild | chclose |
    chstat | chsplice | chhalt | chthaw | chrel | chread | cp | cpR | cpD2d | cpD3d | cpDCvt | cpDGath | cpDScat | cpDFill | cpDRemote | stmap |
    stunmap | stflush | stinv | barArriveD | hlaunch | hstop | hstat | hballoc | hbgate | hbpoll | hbrel | hbstat | hbcfg | hbput | prgrad | gdep |
    prread | gread | prsync | prrule | gspread | gmass | gcfg | csrr | csrw | trap | eret | halt | mv16 | add16 | sub16 | addi16 | li16 | add | sub |
    and | or | xor | sll | srl | sra | mul | mulh | mulhu | min | max | minu | maxu | addi | andi | ori | xori | slli | srli | srai | pand | por |
    pxor | pandn | pnot | vaddF32 | vsubF32 | vmulF32 | vminF32 | vmaxF32 | vabsF32 | vnegF32 | vaddI32 | vsubI32 | vmulI32 | vmulhI32 | vminI32 |
    vmaxI32 | vminuI32 | vmaxuI32 | vand | vor | vxor | vandn | vsll | vsrl | vsra | vfmaF32 | vfmsF32 | vfnmaF32 | vfnmsF32 | vrcp | vrsqrt |
    vexp2 | vlog2 | vfsl | vfsr | vrotl | vpopc | vclz | vbrev | vslideup | vslidedn | qand | qor | qxor | qandn | qnot | qmov =>
    unfold exec
    dsimp only [
      execNop16, execLui, execLd, execLdSp, execFlsig, execTkwait, execPbr, execBr, execBrL, execPbrR, execEvterm, execEvinc, execEvwait,
        execBarArrive, execBarWait, execBarWait4, execFlagAdd, execFlagWait, execChunk, execTlaunch, execTdone, execTsignal, execVlut3, execVpart,
        execVgath, execVscat, execVld32, execVldB, execVst32, execVperm, execVcvtTo, execVcvtFrom, execVmxq, execVsrc, execVsetvlImm, execVsetvlReg,
        execVmv, execVbcast, execVsel, execMnest, execMopa, execMopb, execMopm, execMma, execMmas, execMgo, execMfmt, execMfmtPool, execMfmtcommit,
        execChbuild, execChclose, execChstat, execChsplice, execChhalt, execChthaw, execChrel, execChread, execCp, execCpR, execCpD2d, execCpD3d,
        execCpDCvt, execCpDGath, execCpDScat, execCpDFill, execCpDRemote, execStmap, execStunmap, execStflush, execStinv, execBarArriveD,
        execHlaunch, execHstop, execHstat, execHballoc, execHbgate, execHbpoll, execHbrel, execHbstat, execHbcfg, execHbput, execPrgrad, execGdep,
        execPrread, execGread, execPrsync, execPrrule, execGspread, execGmass, execGcfg, execCsrr, execCsrw, execTrap, execEret, execHalt, execMv16,
        execAdd16, execSub16, execAddi16, execLi16, execAdd, execSub, execAnd, execOr, execXor, execSll, execSrl, execSra, execMul, execMulh,
        execMulhu, execMin, execMax, execMinu, execMaxu, execAddi, execAndi, execOri, execXori, execSlli, execSrli, execSrai, execPand, execPor,
        execPxor, execPandn, execPnot, execVaddF32, execVsubF32, execVmulF32, execVminF32, execVmaxF32, execVabsF32, execVnegF32, execVaddI32,
        execVsubI32, execVmulI32, execVmulhI32, execVminI32, execVmaxI32, execVminuI32, execVmaxuI32, execVand, execVor, execVxor, execVandn,
        execVsll, execVsrl, execVsra, execVfmaF32, execVfmsF32, execVfnmaF32, execVfnmsF32, execVrcp, execVrsqrt, execVexp2, execVlog2, execVfsl,
        execVfsr, execVrotl, execVpopc, execVclz, execVbrev, execVslideup, execVslidedn, execQand, execQor, execQxor, execQandn, execQnot, execQmov]
    exact issue_answers fun h => Bool.noConfusion h
  all_goals exact .inl (exec_event rfl s)

theorem State.Answers.of_ok {s : State} {wf : Bool} {o : Out} (h : s.Answers wf o) (hc : s.curOk = true) (hw : wf = true) : ∃ t, o = .next t := by
  obtain hn | ⟨-, hc'⟩ | ⟨-, hw'⟩ := h
  · exact hn
  · simp [hc] at hc'
  · simp [hw] at hw'

/-- A word that decodes, and a word that does not, answer; what the decoder gives is well formed. -/
theorem streamTurn_answers (s : State) : s.Answers true (streamTurn s) := by
  unfold streamTurn
  split
  · exact .inl ⟨_, rfl⟩
  · exact .inl (exec_event rfl s)
  · split
    case h_1 i hd =>
      rw [← (Sys2Proof.Laws.RoundTrip.decodedWordsAreEncodings s.unitWord i).1 hd |>.1]
      exact exec_answers s i
    · unfold badWord
      split_ifs with hp hc
      · exact issuePrefix_answers _ _ _ _ _
      · exact .inr (.inl ⟨rfl, hc⟩)
      · exact .inl ⟨_, rfl⟩
      · exact .inl ⟨_, rfl⟩

theorem helperTurn_answers (s : State) (die core : Nat) : ({ s with cur := ⟨die, core, .x⟩ } : State).Answers true (helperTurn die core s) := by
  unfold helperTurn
  dsimp only
  split
  · exact helperOp_answers _ _ _
  · split
    case h_1 i hd =>
      rw [← (Sys2Proof.Laws.RoundTrip.decodedWordsAreEncodings _ i).2 hd |>.1]
      exact exec_answers _ i
    · exact helperOp_answers _ _ _

theorem act_answers (s : State) (a : Act) : (∃ t, act a s = .next t) ∨ act a s = .fault .noEngine := by
  have of {u : State} {o : Out} (h : u.Answers true o) : (∃ t, o = .next t) ∨ o = .fault .noEngine := by
    obtain hn | ⟨hf, -⟩ | ⟨-, hw⟩ := h
    · exact .inl hn
    · exact .inr hf
    · cases hw
  cases a with
  | engine id => exact of (streamTurn_answers _)
  | event i =>
    refine .inl ?_
    unfold act
    dsimp only
    split
    case isTrue h => exact exec_event h s
    · exact ⟨_, rfl⟩
  | helper die core => exact of (helperTurn_answers s die core)
  | drain die core n => exact .inl ⟨_, rfl⟩
  | cache ctx va => exact .inl ⟨_, rfl⟩
  | uncache n => exact .inl ⟨_, rfl⟩
  | hostWrite addr data => exact .inl ⟨_, rfl⟩

/-- Settles O59: instruction by instruction; a step's instruction is one that the decoder gave, which is well formed. The two faults are those of log 53. -/
theorem everyInstructionRuns : Obligations.EveryInstructionRuns := by
  unfold Obligations.EveryInstructionRuns
  intro s i
  refine ⟨exec_answers s i, act_answers _ _, fun ht hc => ?_⟩
  rw [step_nil ht, act_engine]
  refine (streamTurn_answers _).of_ok ?_ rfl
  exact hc

end Sys2Proof.Machine
end

section
/-! PROOFS. The nest, the operand descriptors and the format table (R174, R176, R188 to R190). -/

namespace Sys2Proof.Machine

variable {s : State}

@[simp] theorem Core.eng_setShadow (c : Core) (n : NestSet) (w : Eng) : (c.setShadow n).eng w = c.eng w := by cases w <;> rfl

@[simp] theorem Core.eng_addLate (c : Core) (l : Late) (w : Eng) : (c.addLate l).eng w = c.eng w := by cases w <;> rfl

@[simp] theorem Core.eng_pool (c : Core) (b n : Nat) (w : Eng) : ({ c with poolBase := b, poolUnits := n } : Core).eng w = c.eng w := by cases w <;> rfl

/-! ### The nest and the descriptors -/

theorem execMnest_next {l f g : BitVec 3} {x : BitVec 6}
    (h : s.issues (fM g (subUnless (x.toNat < 16) subREGRANGE ++
      subUnless (l.toNat < 6 && f.toNat < 4 && (f.toNat = 0 || 3 ≤ l.toNat)) subIMMRANGE)) = true)
    (hv : nestOk l.toNat f.toNat (s.atIssue.rx x.toNat) = true) :
    ∃ u, execMnest l f x g s = .next u ∧ s.CoreTo u (s.myCore.setShadow
      (s.myCore.shadow.setLevel l.toNat ((s.myCore.shadow.level l.toNat).setField f.toNat (s.atIssue.rx x.toNat)))) ∧ u.me.x = s.me.x :=
  coreTo_next_plain h rfl (Core.eng_setShadow _ _ _) (by simp only [need_ok hv, bind_ok]; rfl)

theorem execMnest_traps {l f g : BitVec 3} {x : BitVec 6}
    (h : s.issues (fM g (subUnless (x.toNat < 16) subREGRANGE ++
      subUnless (l.toNat < 6 && f.toNat < 4 && (f.toNat = 0 || 3 ≤ l.toNat)) subIMMRANGE)) = true)
    (hv : nestOk l.toNat f.toNat (s.atIssue.rx x.toNat) = false) :
    execMnest l f x g s = .next (s.atIssue.takeTrap s.cur { cls := 2, sub := 0x10 }) :=
  issue_trap (State.issues_iff.1 h).1 (by simp only [need_no hv, bind_error]; rfl)

/-- A descriptor instruction whose checks pass leaves its operand in the shadow set. -/
theorem mop_next {x y : BitVec 6} {g : BitVec 3} {sp t m : Bool} {put : NestSet → Operand → NestSet} (h : s.issues (moForm x y g) = true)
    (hok : (!(t && !sp) && !(m && (t || (mkOperand (s.atIssue.rx x.toNat) (s.atIssue.rx y.toNat 1) sp t).soff ≠ 0))) = true) :
    ∃ u, issue s (moForm x y g) (mopBody x.toNat y.toNat sp t m put) = .next u ∧
      s.CoreTo u (s.myCore.setShadow (put s.myCore.shadow (mkOperand (s.atIssue.rx x.toNat) (s.atIssue.rx y.toNat 1) sp t))) ∧ u.me.x = s.me.x :=
  coreTo_next_plain h rfl (Core.eng_setShadow _ _ _) (by simp only [mopBody, need_ok hok, bind_ok]; rfl)

theorem execMopa_traps {x y : BitVec 6} {p t : BitVec 1} {g : BitVec 3} (h : s.issues (moForm x y g) = true) (ht : t = 1) (hp : p ≠ 1) :
    execMopa x y p t g s = .next (s.atIssue.takeTrap s.cur { cls := 2, sub := 0x11 }) :=
  issue_trap (State.issues_iff.1 h).1 (by
    unfold mopBody
    dsimp only
    rw [need_no (by rw [decide_eq_true ht, decide_eq_false hp]; rfl)]
    rfl)

/-! ### The format table -/

theorem State.tableWait_ok (h : (s.me.hdr.ilk && s.tableLate) = false) : s.atIssue.tableWait = .ok () := await_ok (by rw [Bool.not_eq_true']; exact h) _

theorem State.tableWait_waits (h : (s.me.hdr.ilk && s.tableLate) = true) : s.atIssue.tableWait = .error (.wait s.atIssue) := await_no (by rw [Bool.not_eq_false']; exact h) _

theorem execMfmtPool_next {x y : BitVec 6} {g : BitVec 3} (h : s.issues (rrForm g [x, y]) = true)
    (hp : s.myCore.poolOk (s.atIssue.rx x.toNat).toNat (s.atIssue.rx y.toNat 1).toNat = true) :
    ∃ u, execMfmtPool x y g s = .next u ∧
      s.CoreTo u { s.myCore with poolBase := (s.atIssue.rx x.toNat).toNat, poolUnits := (s.atIssue.rx y.toNat 1).toNat } ∧ u.me.x = s.me.x :=
  coreTo_next_plain h rfl (Core.eng_pool _ _ _ _)
    (by simp only [show s.atIssue.myCore.poolOk _ _ = true from hp, need_ok, bind_ok]; rfl)

theorem execMfmtcommit_next {g : BitVec 3} (h : s.issues (fM g) = true) (hl : (s.me.hdr.ilk && s.tableLate) = false) :
    ∃ u, execMfmtcommit g s = .next u ∧ s.CoreTo u (s.myCore.addLate ⟨s.now + 2, s.cur.eng, .commit⟩) ∧ u.me.x = s.me.x :=
  coreTo_next_plain h rfl (Core.eng_addLate _ _ _) (by simp only [mfmtcommitBody, State.tableWait_ok hl, bind_ok]; rfl)

theorem execMfmtcommit_waits {g : BitVec 3} (h : s.issues (fM g) = true) (hl : (s.me.hdr.ilk && s.tableLate) = true) :
    execMfmtcommit g s = .next s.atIssue :=
  issue_wait (State.issues_iff.1 h).1 (by simp only [mfmtcommitBody, State.tableWait_waits hl, bind_error])

theorem execMfmt_waits {x y z : BitVec 6} {g : BitVec 3} (h : s.issues (rrForm g [x, y, z]) = true) (hl : (s.me.hdr.ilk && s.tableLate) = true) :
    execMfmt x y z g s = .next s.atIssue :=
  issue_wait (State.issues_iff.1 h).1 (by simp only [mfmtBody, State.tableWait_waits hl, bind_error])

/-- The dump of the status words, where the control word asks for one. -/
def State.dumped (s : State) (dump : Bool) (dst : Nat) : State := if dump then s.dumpStat dst else s

@[simp] theorem State.dumpStat_cur (s : State) (dst : Nat) : (s.dumpStat dst).cur = s.cur := (s.spWrite_mine _ _).1

@[simp] theorem State.dumpStat_me (s : State) (dst : Nat) : (s.dumpStat dst).me = s.me := (s.spWrite_mine _ _).2

@[simp] theorem State.dumped_cur (s : State) (b : Bool) (dst : Nat) : (s.dumped b dst).cur = s.cur := by cases b <;> simp [State.dumped]

@[simp] theorem State.dumped_me (s : State) (b : Bool) (dst : Nat) : (s.dumped b dst).me = s.me := by cases b <;> simp [State.dumped]

/-- The state in which a load of the table is on its way: the dump made, the rows queued to land 80 clk later. -/
def State.tableSent (a : State) (ctl src dst : Nat) : State :=
  let v := a.dumped (bit ctl 7) dst
  v.setMyCore (v.myCore.addLate ⟨a.now + 80, a.cur.eng, .table (bit ctl 8) (v.tableWords src (bits ctl 0 7))⟩)

@[simp] theorem State.tableSent_cur (a : State) (ctl src dst : Nat) : (a.tableSent ctl src dst).cur = a.cur := a.dumped_cur _ _

theorem State.tableSent_me (a : State) (ctl src dst : Nat) : (a.tableSent ctl src dst).me = a.me := by
  unfold State.tableSent
  rw [State.me_setMyCore, Core.eng_addLate]
  exact a.dumped_me (bit ctl 7) dst

theorem State.dumped_now (s : State) (b : Bool) (dst : Nat) : (s.dumped b dst).now = s.now := by
  cases b
  · rfl
  · obtain ⟨⟨c, g, h⟩, -, -, -⟩ := s.wrote_spWrite s.cur.die s.cur.core dst ((upto 0 64).flatMap (fun r => natToBytes 4 (tGet 0 s.myCore.fmtStat r).toNat))
    exact (congrArg State.now h :)

theorem mfmtBody_sends {a : State} {d x y : Nat} (ctl : Nat) (src dst : Nat) (hctl : (a.rx y 2).toNat = ctl) (hsrc : (a.rx x 1).toNat = src)
    (hdst : (a.rx d).toNat = dst) (hw : a.tableWait = .ok ()) (hn : bits ctl 0 7 ≤ 64) (hz : ctl / 2 ^ 9 = 0)
    (hr : bits ctl 0 7 ≠ 0 → aligned src 8 = true ∧ a.myCore.spCheck src (8 * bits ctl 0 7) false = .ok () ∧
      a.spReady a.cur.die a.cur.core src (8 * bits ctl 0 7) false = .ok ())
    (hd : bit ctl 7 = true → aligned dst 4 = true ∧ a.myCore.spCheck dst 256 true = .ok () ∧ a.spReady a.cur.die a.cur.core dst 256 true = .ok ())
    (hb : badRow (a.tableWords src (bits ctl 0 7)) 0 = none) : mfmtBody d x y a = .ok (a.tableSent ctl src dst) := by
  unfold mfmtBody State.spReadyIf
  rw [hw, hctl, hsrc, hdst]
  have hread : (bits ctl 0 7 = 0 || aligned src 8) = true ∧ (if bits ctl 0 7 = 0 then .ok () else a.myCore.spCheck src (8 * bits ctl 0 7) false) = .ok () ∧
      (if decide (bits ctl 0 7 ≠ 0) = true then a.spReady a.cur.die a.cur.core src (8 * bits ctl 0 7) false else .ok ()) = .ok () := by
    by_cases h0 : bits ctl 0 7 = 0
    · simp [h0]
    · obtain ⟨h1, h2, h3⟩ := hr h0
      simp [h0, h1, h2, h3]
  have hdump : (!bit ctl 7 || aligned dst 4) = true ∧ (if bit ctl 7 = true then a.myCore.spCheck dst 256 true else .ok ()) = .ok () ∧
      (if bit ctl 7 = true then a.spReady a.cur.die a.cur.core dst 256 true else .ok ()) = .ok () := by
    cases h0 : bit ctl 7
    · simp
    · obtain ⟨h1, h2, h3⟩ := hd h0
      simp [h1, h2, h3]
  obtain ⟨r1, r2, r3⟩ := hread
  obtain ⟨d1, d2, d3⟩ := hdump
  have hf : (decide (bits ctl 0 7 ≤ 64) && decide (ctl / 2 ^ 9 = 0)) = true := by rw [decide_eq_true hn, decide_eq_true hz]; rfl
  simp only [bind_ok, need_ok hf, need_ok r1, need_ok d1, r2, d2, r3, d3, liftTrap, hb]
  exact congrArg Except.ok (by rw [State.tableSent, ← a.dumped_now (bit ctl 7) dst]; rfl)

theorem execMfmt_next {x y z : BitVec 6} {g : BitVec 3} (h : s.issues (rrForm g [x, y, z]) = true)
    (hb : mfmtBody x.toNat y.toNat z.toNat s.atIssue =
      .ok (s.atIssue.tableSent (s.atIssue.rx z.toNat 2).toNat (s.atIssue.rx y.toNat 1).toNat (s.atIssue.rx x.toNat).toNat)) :
    ∃ u, execMfmt x y z g s = .next u ∧ u.me.x = s.me.x ∧
      (s.atIssue.tableSent (s.atIssue.rx z.toNat 2).toNat (s.atIssue.rx y.toNat 1).toNat (s.atIssue.rx x.toNat).toNat).EndsAs u false := by
  have hme := s.atIssue.tableSent_me (s.atIssue.rx z.toNat 2).toNat (s.atIssue.rx y.toNat 1).toNat (s.atIssue.rx x.toNat).toNat
  obtain ⟨u, h1, h2, h3⟩ := endsAs_plain (v := s.atIssue.tableSent _ _ _) h (State.tableSent_cur _ _ _ _) (by rw [hme]; exact Engine.StaysAt.refl _) hb
  exact ⟨u, h1, h3.trans (congrArg Engine.x hme), h2⟩

/-! ### What lands on the table -/

/-- With no other write on its way, what is queued for a clk is done alone at that clk. -/
theorem Core.landBy_alone {k : Core} {w : Eng} {n : Nat} {op : LateOp} {d : Core} (hl : k.late = []) (hd : k.doLate ⟨n, w, op⟩ = d)
    (hc : d.c.cntReads = []) (hh : d.h.cntReads = []) : (k.addLate ⟨n, w, op⟩).landBy n = d := by
  have hk : ({ k with late := [] } : Core) = k := by cases k; simp_all
  simp only [Core.landBy, Core.addLate, hl, List.nil_append, List.filter_cons, List.filter_nil, le_refl, decide_true, if_true, Bool.not_true,
    Bool.false_eq_true, if_false, List.foldl_cons, List.foldl_nil, hk, hd, Engine.landCnts_none hc, Engine.landCnts_none hh]

theorem Core.loadTable_engines (k : Core) (clear : Bool) (ws : List Nat) : (k.loadTable clear ws).c = k.c ∧ (k.loadTable clear ws).h = k.h := by
  unfold Core.loadTable
  cases clear <;> dsimp only <;> split <;> exact ⟨rfl, rfl⟩

theorem Core.loadTable_rows (k : Core) (clear : Bool) {ws : List Nat} (h : ws ≠ []) :
    (k.loadTable clear ws).fmtStat = [] ∧ (k.loadTable clear ws).fmtCfg = loadRows ws := by
  unfold Core.loadTable
  dsimp only
  rw [if_neg h]
  exact ⟨rfl, rfl⟩

/-- The rows of a loaded table from row m on. -/
theorem tGet_tabFmt (ws : List Nat) (m r : Nat) :
    tGet (fmtReset r) (loadRows.tabFmt m ws) r = if m ≤ r ∧ r < m + ws.length then BitVec.ofNat 64 (ws.getD (r - m) 0) else fmtReset r := by
  induction ws generalizing m with
  | nil => rw [if_neg (by simp only [List.length_nil]; omega)]; rfl
  | cons w t ih =>
    have hrest : m ≠ r → tGet (fmtReset r) (loadRows.tabFmt (m + 1) t) r =
        if m ≤ r ∧ r < m + (w :: t).length then BitVec.ofNat 64 ((w :: t).getD (r - m) 0) else fmtReset r := by
      intro hm
      rw [ih]
      by_cases hlt : m < r
      · obtain ⟨j, rfl⟩ : ∃ j, r = m + 1 + j := ⟨r - (m + 1), by omega⟩
        have e1 : m + 1 + j - (m + 1) = j := by omega
        have e2 : m + 1 + j - m = j + 1 := by omega
        rw [e1, e2, List.getD_cons_succ, List.length_cons]
        congr 1
        exact propext ⟨fun h => by omega, fun h => by omega⟩
      · rw [if_neg (by omega), if_neg (by omega)]
    unfold loadRows.tabFmt
    split
    case isTrue he =>
      by_cases hm : m = r
      · subst hm
        rw [ih, if_neg (by omega), if_pos (by simp), Nat.sub_self, List.getD_cons_zero, he]
      · exact hrest hm
    case isFalse he =>
      by_cases hm : m = r
      · subst hm
        simp [tGet]
      · rw [tGet, if_neg hm]
        exact hrest hm

theorem Core.loadTable_cfgRow (k : Core) (clear : Bool) {ws : List Nat} (h : ws ≠ []) (r : Nat) :
    (k.loadTable clear ws).cfgRow r = if r < ws.length then BitVec.ofNat 64 (ws.getD r 0) else fmtReset r := by
  rw [Core.cfgRow, (k.loadTable_rows clear h).2, loadRows, tGet_tabFmt]
  simp

/-- Settles O37: each instruction whose checks pass by its own lemma. The moments at which the table and the commit land, 80 and 2 clk later, are
the model's choice within R188, R190 and Lmax of R94 (logs 11 and 67). -/
theorem nestsAndTables : Obligations.NestsAndTables := by
  intro s l f g x y z p t a c leaves shadow o late
  refine ⟨fun h => ⟨execMnest_next h, execMnest_traps h⟩, fun h => ⟨fun hp => ?_, fun ht ho => ?_, execMopa_traps h⟩, fun h => ?_, execMfmtPool_next,
    execMfmtcommit_next, execMfmt_waits, execMfmtcommit_waits, fun k clear ws w n hl hc hh => ⟨?_, ?_, fun hw => ?_⟩⟩
  · have hok : (!(decide (t = 1) && !decide (p = 1)) && !(false && (decide (t = 1) ||
        (mkOperand (s.atIssue.rx x.toNat) (s.atIssue.rx y.toNat 1) (decide (p = 1)) (decide (t = 1))).soff ≠ 0))) = true := by
      by_cases ht : t = 1 <;> simp_all
    exact ⟨mop_next h hok, mop_next h hok⟩
  · refine mop_next h ?_
    rw [decide_eq_false ht, decide_eq_false (show ¬ (mkOperand (s.atIssue.rx x.toNat) (s.atIssue.rx y.toNat 1) (decide (p = 1)) false).soff ≠ 0 from ?_)]
    · rfl
    · rw [← decide_eq_false ht]
      exact fun hne => hne ho
  · intro ctl src dst n hn hz hr hd hb hl
    obtain ⟨u, h1, h2, h3⟩ := execMfmt_next h (mfmtBody_sends ctl src dst rfl rfl rfl (State.tableWait_ok hl) hn hz hr hd hb)
    exact ⟨u, h1, h2, h3⟩
  · obtain ⟨h1, h2⟩ := k.loadTable_engines clear ws
    exact Core.landBy_alone hl rfl (by rw [h1]; exact hc) (by rw [h2]; exact hh)
  · exact Core.landBy_alone hl rfl hc hh
  · exact ⟨(k.loadTable_rows clear hw).1, k.loadTable_cfgRow clear hw⟩

end Sys2Proof.Machine
end

section
/-! PROOFS. Matrix operations: their start and their groups (R175, R179, R182 to R187, R197). -/

namespace Sys2Proof.Machine

variable {s : State}

/-! ### The start of an operation -/

@[simp] theorem State.startOp_cur (a : State) (slot key : Nat) (sparse flush : Bool) (cfg : Word) (x : NestSet) (sh : Bool) (rs : List (Nat × Nat)) :
    (a.startOp slot key sparse flush cfg x sh rs).cur = a.cur := rfl

@[simp] theorem State.startOp_me (a : State) (slot key : Nat) (sparse flush : Bool) (cfg : Word) (x : NestSet) (sh : Bool) (rs : List (Nat × Nat)) :
    (a.startOp slot key sparse flush cfg x sh rs).me = a.me := by
  unfold State.startOp
  dsimp only
  rw [State.me_setMyCore]
  unfold State.me
  rw [State.setLink_cur]
  cases a.cur.eng <;> rfl

/-- The scratchpad ranges of an operation of the nest set x with the row's formats. -/
def NestSet.opRanges (x : NestSet) (cfg : Word) (sparse : Bool) : List (Int × Int) :=
  (x.spans (bits cfg.toNat 58 6) (bits cfg.toNat 52 6) sparse ++ x.scaleSpans (bits cfg.toNat 58 6) (bits cfg.toNat 52 6) (bit cfg.toNat 45) sparse).filterMap x.spRange

/-- What the checks of an operation ask of the state before its operands are looked at. -/
structure State.TakesOp (a : State) (slot fchk : Nat) : Prop where
  table : ¬(a.me.hdr.ilk = true ∧ a.tableLate = true)
  room  : a.myCore.ops.length < 2
  last  : ∀ o ∈ a.myCore.ops, o.lastGo = true
  fmt   : fchk = 0x3F ∨ fchk = bits (if a.tableLate then a.rowWord a.rowOf 0 else a.myCore.cfgRow a.rowOf).toNat 58 6
  link  : (a.linkAt (a.linkKey a.myCtx a.cur.die a.cur.core slot)).state ∉ [.idle, .ready, .sent, .frozen]
  own   : (a.linkAt (a.linkKey a.myCtx a.cur.die a.cur.core slot)).own = a.myCtx
  more  : (a.linkAt (a.linkKey a.myCtx a.cur.die a.cur.core slot)).issued ≠ (a.linkAt (a.linkKey a.myCtx a.cur.die a.cur.core slot)).decl

/-- The state an operation of the nest set x starts to. -/
def State.opStarted (a : State) (slot : Nat) (x : NestSet) (sparse go : Bool) : State :=
  a.startOp slot (a.linkKey a.myCtx a.cur.die a.cur.core slot) sparse a.flush (a.rowWord a.rowOf 0) x (!go) ((x.opRanges (a.rowWord a.rowOf 0) sparse).map rangeLen)

theorem matBody_starts {a : State} {slot fchk : Nat} {go sp sparse : Bool} {x : NestSet} (h : a.TakesOp slot fchk)
    (hgo : go = true → a.myCore.mActive = true) (hx : (if go then a.myCore.active else a.myCore.shadow) = x)
    (hsp : (if go then a.myCore.mSparse else sp) = sparse)
    (hl : x.layoutOk (bits (a.rowWord a.rowOf 0).toNat 58 6) (bits (a.rowWord a.rowOf 0).toNat 52 6) (bit (a.rowWord a.rowOf 0).toNat 45) sparse = true)
    (hr : ∀ r ∈ x.opRanges (a.rowWord a.rowOf 0) sparse, 0 ≤ r.1 ∧ r.2 < Config.spSize)
    (hsb : a.myCore.sb.length + (x.opRanges (a.rowWord a.rowOf 0) sparse).length ≤ Config.scoreboardSize)
    (hf : a.rangesReady ((x.opRanges (a.rowWord a.rowOf 0) sparse).map rangeLen) = .ok ()) :
    matBody slot fchk go sp a = .ok (a.opStarted slot x sparse go) := by
  obtain ⟨h1, h2, h3, h4, h5, h6, h7⟩ := h
  have htab : (!(a.me.hdr.ilk && a.tableLate)) = true := by rw [Bool.not_eq_true', Bool.and_eq_false_imp]; simpa using h1
  have hops : (decide (a.myCore.ops.length < 2) && a.myCore.ops.all MOp.lastGo) = true := by simp [h2, List.all_eq_true.2 h3]
  have hin : (x.opRanges (a.rowWord a.rowOf 0) sparse).all rangeIn = true := List.all_eq_true.2 fun r hm => by simp [rangeIn, hr r hm]
  have hact : (!go || a.myCore.mActive) = true := by cases go <;> simp_all
  simp only [List.mem_cons, List.not_mem_nil, or_false, not_or] at h5
  obtain ⟨n1, n2, n3, n4⟩ := h5
  unfold matBody State.tableWait
  dsimp only
  rw [await_ok htab, await_ok hops, hx, hsp]
  simp only [bind_ok]
  rw [need_ok (by simpa using h4), need_ok hact, need_ok hl]
  simp only [bind_ok]
  rw [show List.filterMap x.spRange _ = x.opRanges (a.rowWord a.rowOf 0) sparse from rfl, need_ok hin, need_ok (by simp [n1, h6]),
    await_ok (by simp [n2, n3, n4, h7]), await_ok (show a.myCore.sbRoom _ = true from decide_eq_true hsb), hf]
  rfl

theorem State.TakesOp.starts {slot fchk : Nat} {f : Form} {go sp sparse : Bool} {x : NestSet} (h : s.atIssue.TakesOp slot fchk) (hi : s.issues f = true)
    (heff : f.eff = true) (hgo : go = true → s.atIssue.myCore.mActive = true) (hx : (if go then s.atIssue.myCore.active else s.atIssue.myCore.shadow) = x)
    (hsp : (if go then s.atIssue.myCore.mSparse else sp) = sparse)
    (hl : x.layoutOk (bits (s.atIssue.rowWord s.atIssue.rowOf 0).toNat 58 6) (bits (s.atIssue.rowWord s.atIssue.rowOf 0).toNat 52 6)
      (bit (s.atIssue.rowWord s.atIssue.rowOf 0).toNat 45) sparse = true)
    (hr : ∀ r ∈ x.opRanges (s.atIssue.rowWord s.atIssue.rowOf 0) sparse, 0 ≤ r.1 ∧ r.2 < Config.spSize)
    (hsb : s.atIssue.myCore.sb.length + (x.opRanges (s.atIssue.rowWord s.atIssue.rowOf 0) sparse).length ≤ Config.scoreboardSize)
    (hf : s.atIssue.rangesReady ((x.opRanges (s.atIssue.rowWord s.atIssue.rowOf 0) sparse).map rangeLen) = .ok ()) :
    ∃ t, issue s f (matBody slot fchk go sp) = .next t ∧ (s.atIssue.opStarted slot x sparse go).EndsAs t true ∧ t.me.x = s.me.x := by
  obtain ⟨t, h1, h2, h3⟩ := endsAs_plain (v := s.atIssue.opStarted slot x sparse go) hi rfl
    (by rw [State.opStarted, State.startOp_me]; exact Engine.StaysAt.refl _) (matBody_starts h hgo hx hsp hl hr hsb hf)
  refine ⟨t, h1, heff ▸ h2, h3.trans ?_⟩
  rw [State.opStarted, State.startOp_me]
  rfl

/-! ### The groups of an operation -/

theorem tGet_tabOf {α : Type} [DecidableEq α] (d : α) (f : Nat → α) (ks : List Nat) (j : Nat) : tGet d (tabOf d f ks) j = if j ∈ ks then f j else d := by
  induction ks with
  | nil => rfl
  | cons k ks ih =>
    unfold tabOf
    by_cases hj : j = k
    · subst hj
      split
      case isTrue hd => rw [ih, hd, ite_self, if_pos List.mem_cons_self]
      case isFalse => simp [tGet]
    · have hm : j ∈ k :: ks ↔ j ∈ ks := by simp [hj]
      split
      · rw [ih]; simp only [hm]
      · rw [tGet, if_neg (Ne.symm hj), ih]; simp only [hm]

theorem mem_tileKeys (j : Nat) : j ∈ tileKeys ↔ j < 4096 := by simp [tileKeys, mem_upto]

theorem execMatrixGroup_runs {die core : Nat} {o : MOp} {rest : List MOp} (ho : (s.coreAt die core).ops = o :: rest) (hd : s.groupDue die core o = true) :
    execMatrixGroup die core s = .next (s.fresh.runGroup die core o) := by
  unfold execMatrixGroup
  rw [ho]
  exact event_due hd _

theorem State.runGroup_over {die core : Nat} {o : MOp} (h : o.over = true) : s.runGroup die core o = s.landOp die core o := if_pos h

theorem State.runGroup_adds {die core : Nat} {o : MOp} {v : List Vec × List Vec} {w : State} (h : o.over = false) (hf : s.fetchGroup die core o = .ok (v, w)) :
    s.runGroup die core o = w.addGroup die core o v := by
  unfold State.runGroup
  rw [if_neg (by simp [h]), hf]

theorem State.fetchGroup_held {die core : Nat} {o : MOp} {v : List Vec × List Vec} (h : o.held = some v) : s.fetchGroup die core o = .ok (v, s) := by
  unfold State.fetchGroup
  rw [h]

theorem State.fetchGroup_read {die core : Nat} {o : MOp} {va vb : List Vec} {u w : State} (h : o.held = none)
    (ha : s.fetchVecs die core o .a (bits o.row.toNat 58 6) o.sparse (upto 0 o.nest.l0.ext) = .ok (va, u))
    (hb : u.fetchVecs die core o .b (bits o.row.toNat 52 6) false (upto (if o.prog.half then 32 else 0) (o.nest.l1.ext - if o.prog.half then 32 else 0)) = .ok (vb, w)) :
    s.fetchGroup die core o = .ok ((va, List.replicate (if o.prog.half then 32 else 0) ⟨127, []⟩ ++ vb), w) := by
  unfold State.fetchGroup
  rw [h]
  dsimp only
  rw [ha, bind_ok, hb]
  rfl

/-- An element of the sums after a group: stepped by Table 3.9 within the group's part, as it was elsewhere. -/
theorem MOp.tGet_add (o : MOp) (lo n : Nat) (rows cols : List Vec) (sum : Tab (BitVec 32)) (j : Nat) :
    tGet 0 (o.add lo n rows cols sum).1 j = if j < 4096 then (if o.inPart lo n j then
        BitVec.ofNat 32 (accStep o.flush (tGet 0 sum j) (groupValue (bits o.row.toNat 58 6) (bits o.row.toNat 52 6) o.flush
          (decide (o.ks.length = groupSize (bits o.row.toNat 58 6) (bit o.row.toNat 45))) (rows.getD (j / 64) ⟨127, []⟩) (cols.getD (j % 64) ⟨127, []⟩))).1
      else tGet 0 sum j) else 0 := by
  unfold MOp.add
  dsimp only
  rw [tGet_tabOf]
  simp only [mem_tileKeys]

/-- Settles O38: a start by its checks, a group by whether its operands are held or fetched. That a group is fetched whole and a narrowed one keeps its
operands for its second half is log 29; that each range has a scoreboard entry of its own is log 64. -/
theorem matrixOperationsRun : Obligations.MatrixOperationsRun := by
  intro s k f g die core a c row cfg af bf key l starts
  refine ⟨fun htab hlen hlast hfmt hlink hown hmore => ?_, fun o rest ho hd => ⟨fun hover => ?_, fun hover => ?_⟩⟩
  · have hop : a.TakesOp k.toNat f.toNat := ⟨htab, hlen, hlast, hfmt, hlink, hown, hmore⟩
    exact ⟨fun hi => ⟨fun hl hr hsb hf => hop.starts hi rfl (by simp) rfl rfl hl hr hsb hf,
      fun hact hl hr hsb hf => hop.starts hi rfl (fun _ => hact) rfl rfl hl hr hsb hf⟩,
      fun hi hl hr hsb hf => hop.starts hi rfl (by simp) rfl rfl hl hr hsb hf⟩
  · exact (execMatrixGroup_runs ho hd).trans (congrArg _ (State.runGroup_over hover))
  · intro lo adds
    have hadds : ∀ v w, s.fresh.fetchGroup die core o = .ok (v, w) → adds v w := by
      intro v w hf
      refine ⟨(execMatrixGroup_runs ho hd).trans (congrArg _ (State.runGroup_adds hover hf)), fun hidle => ?_, MOp.tGet_add _ _ _ _ _ _⟩
      rw [if_neg hidle]
      exact congrArg Link.sum (State.linkAt_setLink _ _ _)
    exact ⟨fun v hv => hadds v _ (State.fetchGroup_held hv), fun hn va vb u w ha hb => hadds _ w (State.fetchGroup_read hn ha hb)⟩

end Sys2Proof.Machine
end

section
/-! PROOFS. The chain instructions (R209 to R216). -/

namespace Sys2Proof.Machine

variable {s a : State}

/-! ### Reading a chain's entries -/

/-- The entry of link i of a chain that `chbuild` reads from the words w, with the home h names for it. -/
def State.buildEntry (a : State) (w : Nat → Nat) (h : Nat → LinkHome) (i : Nat) : LinkRef × LinkEntry × Nat :=
  let e := linkEntry (w (2 + 2 * i)) (w (3 + 2 * i))
  (LinkRef.mk (h i).via (BitVec.ofNat 64 e.handle) (h i).vdie (h i).die e.core e.slot (a.linkKey (h i).ctx (h i).die e.core e.slot), e, (h i).ctx)

/-- What the checks of `chbuild` ask of entry i of n (R209). -/
def State.EntryOk (a : State) (base n : Nat) (w : Nat → Nat) (h : Nat → LinkHome) (i : Nat) : Prop :=
  let e := fun i => linkEntry (w (2 + 2 * i)) (w (3 + 2 * i))
  let key := fun i => a.linkKey (h i).ctx (h i).die (e i).core (e i).slot
  a.linkHome (e i).handle (base + 16 + 16 * i) = .ok (h i) ∧ (e i).decl ≠ 0 ∧ (e i).core ≤ 159 ∧ (e i).hopf ≠ 3 ∧ (e i).spare = false ∧ (e i).clear = false ∧
    (e i).posn = 0 ∧ (e i).rsv = 0 ∧ (a.coresOf (h i).die (h i).part).contains (e i).core = true ∧ ((e i).hopf = 1 → i + 1 ≠ n) ∧ (∀ j, j < i → key j ≠ key i) ∧
    (a.linkAt (key i)).state = .idle

theorem State.buildEntries_ok {base n : Nat} {w : Nat → Nat} {h : Nat → LinkHome} (k i : Nat) (refs : List LinkRef) (es : List LinkEntry)
    (hr : ∀ r ∈ refs, ∃ j < i, r.key = (a.buildEntry w h j).1.key) (hok : ∀ j, i ≤ j → j < i + k → a.EntryOk base n w h j) :
    a.buildEntries base n w k i refs es = .ok ((upto i k).map (a.buildEntry w h)) := by
  induction k generalizing i refs es with
  | zero => rfl
  | succ k ih =>
    obtain ⟨e1, e2, e3, e4, e5, e6, e7, e8, e9, e10, e11, e12⟩ := hok i le_rfl (by omega)
    have hlast : (!(decide ((linkEntry (w (2 + 2 * i)) (w (3 + 2 * i))).hopf = 1) && decide (i + 1 = n)) &&
        !refs.any (fun r => r.key = a.linkKey (h i).ctx (h i).die (linkEntry (w (2 + 2 * i)) (w (3 + 2 * i))).core (linkEntry (w (2 + 2 * i)) (w (3 + 2 * i))).slot)) = true := by
      have h1 : (decide ((linkEntry (w (2 + 2 * i)) (w (3 + 2 * i))).hopf = 1) && decide (i + 1 = n)) = false := by
        rw [Bool.and_eq_false_imp]
        exact fun hh => decide_eq_false (e10 (of_decide_eq_true hh))
      have h2 : refs.any (fun r => r.key = a.linkKey (h i).ctx (h i).die (linkEntry (w (2 + 2 * i)) (w (3 + 2 * i))).core (linkEntry (w (2 + 2 * i)) (w (3 + 2 * i))).slot) = false := by
        rw [List.any_eq_false]
        intro r hm
        obtain ⟨j, hj, hk⟩ := hr r hm
        simp only [decide_eq_true_eq, hk]
        exact e11 j hj
      rw [h1, h2]
      rfl
    have hrest := ih (i + 1) (refs ++ [(a.buildEntry w h i).1]) (es ++ [linkEntry (w (2 + 2 * i)) (w (3 + 2 * i))])
      (by
        intro r hm
        rcases List.mem_append.1 hm with hm | hm
        · obtain ⟨j, hj, hk⟩ := hr r hm
          exact ⟨j, by omega, hk⟩
        · rw [List.mem_singleton.1 hm]
          exact ⟨i, by omega, rfl⟩)
      (fun j h1 h2 => hok j (by omega) (by omega))
    unfold State.buildEntries
    dsimp only
    rw [e1, bind_ok, need_ok (by simp [e2, e3, e4, e5, e6, e7, e8]), bind_ok, need_ok e9, bind_ok, need_ok hlast, bind_ok, need_ok (decide_eq_true e12), bind_ok]
    exact (congrArg (· >>= _) hrest).trans rfl

theorem chbuildBody_builds {i : Instr} {c x : Nat} {f : Bool} {w v : Nat → Nat} {h : Nat → LinkHome} {u u1 : State} (hn : (a.chainAt a.myCtx c).links = [])
    (hal : aligned (a.rx x).toNat 16 = true) (hd : a.descWords i f (a.rx x).toNat 16 = .ok (v, u)) (hv0 : v 0 = w 0) (hv1 : v 1 = w 1) (h1 : 1 ≤ w 0) (h64 : w 0 ≤ 64) (hz : w 1 = 0)
    (hw : a.descWords i f (a.rx x).toNat (16 + 16 * w 0) = .ok (w, u1)) (hok : ∀ j, j < w 0 → a.EntryOk (a.rx x).toNat (w 0) w h j) :
    chbuildBody i c x f a = .ok (u1.build c ((upto 0 (w 0)).map (a.buildEntry w h))) := by
  unfold chbuildBody
  dsimp only
  rw [need_ok (decide_eq_true hn), bind_ok, need_ok hal, bind_ok, hd, bind_ok]
  dsimp only
  simp only [hv0, hv1]
  rw [need_ok (by simp [h1, h64, hz]), bind_ok, hw, bind_ok, State.buildEntries_ok (h := h) (w 0) 0 [] [] (by simp) (fun j _ hj => hok j (by omega)), bind_ok]
  rfl

/-- The words of a descriptor in the scratchpad. -/
def State.spWords (a : State) (base : Nat) (k : Nat) : Nat := bytesToNat (a.spBytes a.cur.die a.cur.core (base + 8 * k) 8)

theorem State.descWords_scratch {i : Instr} {base n : Nat} (h1 : a.myCore.spCheck base n false = .ok ()) (h2 : a.spReady a.cur.die a.cur.core base n false = .ok ()) :
    a.descWords i true base n = .ok (a.spWords base, a) := by
  unfold State.descWords
  rw [if_pos rfl, h1, h2]
  rfl

theorem State.descWords_global {i : Instr} {base n : Nat} {ws : List Nat} {u : State} (h : a.globalWords i base (n / 8) base = .ok (ws, u)) :
    a.descWords i false base n = .ok (fun k => ws.getD k 0, u) := by
  unfold State.descWords
  rw [if_neg (by simp), h]
  rfl

theorem execChbuild_builds {c : BitVec 8} {x : BitVec 6} {f : BitVec 1} {g : BitVec 3} {w v : Nat → Nat} {h : Nat → LinkHome} {u u1 : State}
    (hi : s.issues (chForm g x 0) = true) (hn : (s.chainAt s.myCtx c.toNat).links = []) (hal : aligned (s.atIssue.rx x.toNat).toNat 16 = true)
    (hd : s.atIssue.descWords (.chbuild c x f g) (f = 1) (s.atIssue.rx x.toNat).toNat 16 = .ok (v, u)) (hv0 : v 0 = w 0) (hv1 : v 1 = w 1) (h1 : 1 ≤ w 0) (h64 : w 0 ≤ 64) (hz : w 1 = 0)
    (hw : s.atIssue.descWords (.chbuild c x f g) (f = 1) (s.atIssue.rx x.toNat).toNat (16 + 16 * w 0) = .ok (w, u1))
    (hok : ∀ j, j < w 0 → s.atIssue.EntryOk (s.atIssue.rx x.toNat).toNat (w 0) w h j) :
    ∃ t, execChbuild c x f g s = .next t ∧ (u1.build c.toNat ((upto 0 (w 0)).map (s.atIssue.buildEntry w h))).EndsAs t true ∧ t.me.x = s.me.x :=
  still_next hi (chbuildBody_builds hn hal hd hv0 hv1 h1 h64 hz hw hok) ((State.descWords_still hw).trans (State.still_build _ _ _))

theorem execChbuild_scratch {c : BitVec 8} {x : BitVec 6} {f : BitVec 1} {g : BitVec 3} {w : Nat → Nat} {h : Nat → LinkHome} {u : State} (hf : f = 1)
    (hw : w = s.atIssue.spWords (s.atIssue.rx x.toNat).toNat) (hu : u = s.atIssue)
    (hi : s.issues (chForm g x 0) = true) (hn : (s.chainAt s.myCtx c.toNat).links = []) (hal : aligned (s.atIssue.rx x.toNat).toNat 16 = true)
    (k1 : s.myCore.spCheck (s.atIssue.rx x.toNat).toNat 16 false = .ok ()) (k2 : s.atIssue.spReady s.cur.die s.cur.core (s.atIssue.rx x.toNat).toNat 16 false = .ok ())
    (k3 : s.myCore.spCheck (s.atIssue.rx x.toNat).toNat (16 + 16 * w 0) false = .ok ())
    (k4 : s.atIssue.spReady s.cur.die s.cur.core (s.atIssue.rx x.toNat).toNat (16 + 16 * w 0) false = .ok ()) (h1 : 1 ≤ w 0) (h64 : w 0 ≤ 64) (hz : w 1 = 0)
    (hok : ∀ j, j < w 0 → s.atIssue.EntryOk (s.atIssue.rx x.toNat).toNat (w 0) w h j) :
    ∃ t, execChbuild c x f g s = .next t ∧ (u.build c.toNat ((upto 0 (w 0)).map (s.atIssue.buildEntry w h))).EndsAs t true ∧ t.me.x = s.me.x := by
  have hdec : (decide (f = 1)) = true := decide_eq_true hf
  have hd : s.atIssue.descWords (.chbuild c x f g) true (s.atIssue.rx x.toNat).toNat 16 = .ok (w, s.atIssue) := by
    rw [hw]
    exact State.descWords_scratch k1 k2
  have hd' : s.atIssue.descWords (.chbuild c x f g) true (s.atIssue.rx x.toNat).toNat (16 + 16 * w 0) = .ok (w, u) := by
    rw [State.descWords_scratch (a := s.atIssue) k3 k4, hw, hu]
  rw [← hdec] at hd hd'
  exact execChbuild_builds (v := w) hi hn hal hd rfl rfl h1 h64 hz hd' hok

theorem execChbuild_global {c : BitVec 8} {x : BitVec 6} {f : BitVec 1} {g : BitVec 3} {w : Nat → Nat} {ws ws' : List Nat} {h : Nat → LinkHome} {u u1 : State} (hf : f ≠ 1)
    (k1 : s.atIssue.globalWords (.chbuild c x f g) (s.atIssue.rx x.toNat).toNat 2 (s.atIssue.rx x.toNat).toNat = .ok (ws, u)) (hv0 : ws.getD 0 0 = w 0) (hv1 : ws.getD 1 0 = w 1)
    (k2 : s.atIssue.globalWords (.chbuild c x f g) (s.atIssue.rx x.toNat).toNat (2 + 2 * w 0) (s.atIssue.rx x.toNat).toNat = .ok (ws', u1)) (hw : w = fun k => ws'.getD k 0)
    (hi : s.issues (chForm g x 0) = true) (hn : (s.chainAt s.myCtx c.toNat).links = []) (hal : aligned (s.atIssue.rx x.toNat).toNat 16 = true)
    (h1 : 1 ≤ w 0) (h64 : w 0 ≤ 64) (hz : w 1 = 0) (hok : ∀ j, j < w 0 → s.atIssue.EntryOk (s.atIssue.rx x.toNat).toNat (w 0) w h j) :
    ∃ t, execChbuild c x f g s = .next t ∧ (u1.build c.toNat ((upto 0 (w 0)).map (s.atIssue.buildEntry w h))).EndsAs t true ∧ t.me.x = s.me.x := by
  have hdec : (decide (f = 1)) = false := decide_eq_false hf
  have hlen : (16 + 16 * w 0) / 8 = 2 + 2 * w 0 := by omega
  have hd := State.descWords_global (n := 16) k1
  have hd' := State.descWords_global (n := 16 + 16 * w 0) (hlen ▸ k2)
  rw [← hw] at hd'
  rw [← hdec] at hd hd'
  exact execChbuild_builds (v := fun k => ws.getD k 0) hi hn hal hd hv0 hv1 h1 h64 hz hd' hok

/-! ### The other instructions -/

theorem State.needChain_ok {c : Nat} (hl : (a.chainAt a.myCtx c).links ≠ []) (hh : (a.chainAt a.myCtx c).home = a.cur.die) :
    a.needChain c = .ok (a.chainAt a.myCtx c) := by
  unfold State.needChain
  dsimp only
  rw [need_ok (decide_eq_true hl), need_ok (decide_eq_true hh)]
  rfl

theorem State.needChain_none {c : Nat} (hl : (a.chainAt a.myCtx c).links = []) : a.needChain c = .error (.trap { cls := 2, sub := 0x18 }) := by
  unfold State.needChain
  dsimp only
  rw [need_no (by simp [hl])]
  rfl

theorem chstatBody_writes {c x : Nat} {ch : Chain} (hch : a.needChain c = .ok ch) (hal : aligned (a.rx x).toNat 8 = true)
    (h1 : a.myCore.spCheck (a.rx x).toNat (32 + 32 * ch.links.length) true = .ok ())
    (h2 : a.spReady a.cur.die a.cur.core (a.rx x).toNat (32 + 32 * ch.links.length) true = .ok ()) :
    chstatBody c x a = .ok (a.spWrite a.cur.die a.cur.core (a.rx x).toNat (wordsBytes (a.chainReport ch))) := by
  unfold chstatBody
  rw [hch, bind_ok]
  dsimp only
  rw [need_ok hal, bind_ok, h1, h2]
  rfl

/-- The request that `chclose` leaves on its chain: the word w of its second register, the tile at dst. -/
def State.closeReq (a : State) (w dst : Nat) (clip : Bool) : CloseReq :=
  { core := a.cur.core, dst := dst, rows := bits w 49 6 + 1, cols := bits w 55 6 + 1, stride := bits w 32 16, scale := BitVec.ofNat 32 w, clip := clip,
    row := a.rowOf, flush := a.flush }

theorem chcloseBody_leaves {c x y w dst len : Nat} {clip : Bool} {tl : LinkRef} (hw : (a.rx y 1).toNat = w) (hdst : (a.rx x).toNat = dst)
    (hlen : bits w 32 16 * (bits w 49 6 + 1 - 1) + 4 * (bits w 55 6 + 1) = len) (hl : (a.chainAt a.myCtx c).links ≠ []) (ht : (a.chainAt a.myCtx c).tail = some tl)
    (hk : slotPhys tl.key = slotPhys (a.linkKey 0 a.cur.die a.cur.core 0)) (hc : (a.chainAt a.myCtx c).close = none) (h61 : bits w 61 3 = 0) (h48 : bit w 48 = false)
    (hd4 : aligned dst 4 = true) (hs4 : aligned (bits w 32 16) 4 = true) (hnan : decodeF 0 w ≠ .nan) (h1 : a.myCore.spCheck dst len true = .ok ())
    (h2 : a.spReady a.cur.die a.cur.core dst len true = .ok ()) : chcloseBody c x y clip a =
      .ok ((a.setMyCore (a.myCore.enter (closeOwner a.myCtx c) [(dst, len, true)])).setChain { a.chainAt a.myCtx c with close := some (a.closeReq w dst clip) }) := by
  unfold chcloseBody
  dsimp only
  rw [hw, hdst, hlen, ht, hc, need_ok (decide_eq_true hl), bind_ok]
  dsimp only
  rw [need_ok (decide_eq_true hk), bind_ok, need_ok Option.isNone_none, bind_ok, need_ok (by simp [h61, h48, hd4, hs4, hnan]), bind_ok, h1, h2]
  rfl

theorem Core.eng_enter (c : Core) (o : Owner) (rs : List (Nat × Nat × Bool)) (w : Eng) : (c.enter o rs).eng w = c.eng w := by cases w <;> rfl

theorem chhaltBody_freezes {c : Nat} {ch : Chain} (hch : a.needChain c = .ok ch) : chhaltBody c a = .ok (a.freeze ch.ctx ch.num 4 0xFF [] false) := by
  unfold chhaltBody
  rw [hch]
  rfl

theorem chthawBody_thaws {c : Nat} {ch : Chain} (hch : a.needChain c = .ok ch) (hf : ch.frozen = true) (hn : ∀ k ∈ ch.keys, (a.linkAt k).needSplice = false) :
    chthawBody c a = .ok (a.thaw ch) := by
  have hany : ch.keys.any (fun k => (a.linkAt k).needSplice) = false := List.any_eq_false.2 fun k hk => by simp [hn k hk]
  unfold chthawBody
  rw [hch, bind_ok, need_ok (by rw [hf, hany]; rfl)]
  rfl

theorem chrelBody_releases {c : Nat} {ch : Chain} (hch : a.needChain c = .ok ch) (hc : ch.close = none) (hb : a.chainBusy ch = false) :
    chrelBody c a = .ok (a.release ch) := by
  unfold chrelBody
  rw [hch, bind_ok, hc, need_ok Option.isNone_none, bind_ok, await_ok (by rw [hb]; rfl)]
  rfl

theorem chreadBody_writes {c x y n : Nat} {f : Bool} {ch : Chain} (hch : a.needChain c = .ok ch) (hf : ch.frozen = true) (hlt : (a.rx y 1).toNat < ch.links.length)
    (h0 : f = true → (a.rx y 1).toNat ≠ 0) (hlost : (a.linkAt (ch.keys.getD (a.rx y 1).toNat 0)).lost = false) (hal : aligned (a.rx x).toNat 64 = true)
    (hn : (if f then 32768 else 16384) = n) (h1 : a.myCore.spCheck (a.rx x).toNat n true = .ok ()) (h2 : a.spReady a.cur.die a.cur.core (a.rx x).toNat n true = .ok ()) :
    chreadBody c x y f a = .ok (a.spWrite a.cur.die a.cur.core (a.rx x).toNat (readTile (a.linkAt (ch.keys.getD (a.rx y 1).toNat 0)) f)) := by
  have hpos : (decide ((a.rx y 1).toNat < ch.links.length) && !(f && decide ((a.rx y 1).toNat = 0))) = true := by
    cases f
    · simp [hlt]
    · simp [hlt, h0 rfl]
  unfold chreadBody
  rw [hch, bind_ok]
  dsimp only
  rw [hn, need_ok hf, bind_ok, need_ok hpos, bind_ok, need_ok (by rw [hlost]; rfl), bind_ok, need_ok hal, bind_ok, h1, h2]
  rfl

/-! ### chsplice -/

/-- The reference a link of the entry e has at a home, on a physical core of its die. -/
def LinkHome.refOn (h : LinkHome) (e : LinkEntry) (phys : Nat) : LinkRef :=
  LinkRef.mk h.via (BitVec.ofNat 64 e.handle) h.vdie h.die e.core e.slot (h.ctx * 2 ^ 20 + (h.die * Config.physPerDie + phys) * 16 + e.slot)

/-- What `chsplice` asks before it looks for a place of the new link (R216). -/
structure State.Splices (a : State) (c x : Nat) (ch : Chain) (e : LinkEntry) (old : LinkRef) (h : LinkHome) : Prop where
  chain  : a.needChain c = .ok ch
  align  : aligned (a.rx x).toNat 16 = true
  check  : a.myCore.spCheck (a.rx x).toNat 16 false = .ok ()
  ready  : a.spReady a.cur.die a.cur.core (a.rx x).toNat 16 false = .ok ()
  entry  : linkEntry (a.spWords (a.rx x).toNat 0) (a.spWords (a.rx x).toNat 1) = e
  frozen : ch.frozen = true
  rsv    : e.rsv = 0
  at_    : ch.links[e.posn]? = some old
  home   : a.linkHome e.handle 0 = .ok h
  core   : (a.coresOf h.die h.part).contains e.core = true
  spare  : e.spare = true → e.core = old.core ∧ a.physFailed old.die (slotPhys old.key % Config.physPerDie) = true
  lost   : (a.linkAt old.key).lost = true → e.clear = true
  works  : e.spare = false → a.physFailed h.die (a.physOf h.die e.core) = false

/-- What is left of `chsplice` once those checks pass: a slot of the named core, or a free spare of the die. -/
def State.splicePlace (a : State) (ch : Chain) (e : LinkEntry) (old : LinkRef) (h : LinkHome) (d : Nat) : Res State :=
  if !e.spare || !a.physFailed h.die (a.physOf h.die e.core) then do
    need ((a.linkAt (h.refOn e (a.physOf h.die e.core)).key).state = .idle) clsUse subCHSLOT
    pure ((a.splice ch e.posn old (h.refOn e (a.physOf h.die e.core)) h.ctx e.clear).landX d 0 2)
  else match a.freeSpare h.die with
    | none => pure (a.landX d 1 2)
    | some q => pure (((a.bindSpare h.die e.core q).splice ch e.posn old (h.refOn e q) h.ctx e.clear).landX d 0 2)

theorem State.Splices.body {c x d : Nat} {ch : Chain} {e : LinkEntry} {old : LinkRef} {h : LinkHome} (k : a.Splices c x ch e old h) :
    chspliceBody c x d a = a.splicePlace ch e old h d := by
  obtain ⟨k1, k2, k3, k4, rfl, k6, k7, k8, k9, k10, k11, k12, k13⟩ := k
  generalize he : linkEntry (a.spWords (a.rx x).toNat 0) (a.spWords (a.rx x).toNat 1) = e at *
  have hs : (!(e.spare && (decide (e.core ≠ old.core) || !a.physFailed old.die (slotPhys old.key % Config.physPerDie)))) = true := by
    cases h : e.spare
    · rfl
    · obtain ⟨h1, h2⟩ := k11 h
      rw [h2, decide_eq_false (not_not.2 h1)]
      rfl
  have hlost : (!(a.linkAt old.key).lost || e.clear) = true := by
    cases h : (a.linkAt old.key).lost
    · rfl
    · rw [k12 h]
      rfl
  have hworks : (e.spare || !a.physFailed h.die (a.physOf h.die e.core)) = true := by
    cases h : e.spare
    · rw [k13 h]
      rfl
    · rfl
  unfold chspliceBody
  rw [k1, bind_ok]
  dsimp only
  rw [need_ok k2, bind_ok, k3, k4]
  simp only [liftTrap, bind_ok]
  rw [show linkEntry (bytesToNat (a.spBytes a.cur.die a.cur.core ((a.rx x).toNat + 8 * 0) 8)) (bytesToNat (a.spBytes a.cur.die a.cur.core ((a.rx x).toNat + 8 * 1) 8)) = e from he]
  rw [need_ok k6, bind_ok, need_ok (decide_eq_true k7), bind_ok, k8]
  dsimp only
  rw [k9, bind_ok, need_ok k10, bind_ok, need_ok hs, bind_ok, need_ok hlost, bind_ok, need_ok hworks, bind_ok]
  rfl

theorem State.splicePlace_named {ch : Chain} {e : LinkEntry} {old : LinkRef} {h : LinkHome} {d : Nat} (hp : e.spare = false ∨ a.physFailed h.die (a.physOf h.die e.core) = false)
    (hi : (a.linkAt (h.refOn e (a.physOf h.die e.core)).key).state = .idle) :
    a.splicePlace ch e old h d = .ok ((a.splice ch e.posn old (h.refOn e (a.physOf h.die e.core)) h.ctx e.clear).landX d 0 2) := by
  unfold State.splicePlace
  rw [if_pos (by rcases hp with hp | hp <;> simp [hp]), need_ok (decide_eq_true hi)]
  rfl

theorem State.splicePlace_spare {ch : Chain} {e : LinkEntry} {old : LinkRef} {h : LinkHome} {d : Nat} (hs : e.spare = true) (hp : a.physFailed h.die (a.physOf h.die e.core) = true) :
    (a.freeSpare h.die = none → a.splicePlace ch e old h d = .ok (a.landX d 1 2)) ∧
    ∀ q, a.freeSpare h.die = some q → a.splicePlace ch e old h d = .ok (((a.bindSpare h.die e.core q).splice ch e.posn old (h.refOn e q) h.ctx e.clear).landX d 0 2) := by
  unfold State.splicePlace
  rw [if_neg (by simp [hs, hp])]
  exact ⟨fun h => by rw [h]; rfl, fun q h => by rw [h]; rfl⟩

/-! ### No chain of the name -/

theorem chain_none {i : Instr} {f : Form} {body : State → Res State} {c : Nat} {k : Chain → Res State} (he : exec i s = issue s f body)
    (hi : s.issues f = true) (hl : (s.chainAt s.myCtx c).links = [])
    (hb : body s.atIssue = s.atIssue.needChain c >>= k) : exec i s = .next (s.atIssue.takeTrap s.cur { cls := 2, sub := 0x18 }) :=
  he.trans (issue_trap (State.issues_iff.1 hi).1 (by rw [hb, State.needChain_none (a := s.atIssue) hl]; rfl))

/-- An instruction by its issue: what its body leaves, and what it lands. -/
theorem still_ends {i : Instr} {f : Form} {body : State → Res State} {v : State} (he : exec i s = issue s f body) (hi : s.issues f = true)
    (hb : body s.atIssue = .ok v) (hv : s.atIssue.Still v) : ∃ t, exec i s = .next t ∧ v.EndsAs t f.eff ∧ t.me.x = s.me.x := by
  rw [he]
  exact still_next hi hb hv

theorem still_lands {i : Instr} {f : Form} {body : State → Res State} {v : State} {d l : Nat} {w : Word} (he : exec i s = issue s f body)
    (hi : s.issues f = true) (hb : body s.atIssue = .ok (v.landX d w l)) (hv : s.atIssue.Still v) :
    ∃ t, exec i s = .next t ∧ v.EndsAs t f.eff ∧ s.Regs t (fun r => if r = d then some w else none) := by
  rw [he]
  exact still_landX hi hb hv

theorem execChclose_none {c : BitVec 8} {x y : BitVec 6} {f : BitVec 1} {g : BitVec 3} (hi : s.issues { chForm g x y with fmt := true } = true)
    (hl : (s.chainAt s.myCtx c.toNat).links = []) : execChclose c x y f g s = .next (s.atIssue.takeTrap s.cur { cls := 2, sub := 0x18 }) :=
  issue_trap (State.issues_iff.1 hi).1 (by
    unfold chcloseBody
    dsimp only
    rw [need_no (show decide ((s.atIssue.chainAt s.atIssue.myCtx c.toNat).links ≠ []) = false from decide_eq_false (not_not.2 hl))]
    rfl)

/-- Settles O39: `chbuild` by its descriptor's words and entries, each other instruction by its body's lemma, and CHNONE where no chain has the name. -/
theorem chainInstructionsAct : Obligations.ChainInstructionsAct := by
  intro s c x y f g a ch acts spOk rx ry
  refine ⟨fun hi => ⟨?_, fun hl hh hal hsp => ?_⟩, ?_, fun hi hl hh => ⟨?_, fun hf hn => ?_, fun hc hb => ?_⟩,
    fun hi hl hh hf => ⟨fun hlt h0 hlost hal hsp => ?_, ?_⟩, fun hl => ?_⟩
  · intro w u u1 h n e key h1 h2 hl hal hn1 hn64 hw1 hok
    by_cases hf : f = 1
    · obtain ⟨hw, hu, k1, k2⟩ := h1 hf
      exact execChbuild_scratch hf hw hu hi hl hal k1.1 k1.2 k2.1 k2.2 hn1 hn64 hw1 hok
    · obtain ⟨⟨ws, k1, k2, k3⟩, ws', k4, hw⟩ := h2 hf
      exact execChbuild_global hf k1 k2 k3 k4 hw hi hl hal hn1 hn64 hw1 hok
  · exact still_ends (exec_chstat c x g s) hi (chstatBody_writes (State.needChain_ok hl hh) hal hsp.1 hsp.2) (State.still_spWrite _ _ _ _ _)
  · intro hi rows cols stride len tl hl ht hk hc h61 h48 hd4 hs4 hnan hsp
    exact still_ends (exec_chclose c x y f g s) hi (chcloseBody_leaves rfl rfl rfl hl ht hk hc h61 h48 hd4 hs4 hnan hsp.1 hsp.2)
      ((State.still_setMyCore _ _ fun w => Core.eng_enter _ _ _ w).trans (State.still_setChain _ _))
  · exact still_ends (exec_chhalt c g s) hi (chhaltBody_freezes (State.needChain_ok hl hh)) (State.still_freeze _ _ _ _ _ _ _)
  · exact still_ends (exec_chthaw c g s) hi (chthawBody_thaws (State.needChain_ok hl hh) hf hn) (State.still_thaw _ _)
  · exact still_ends (exec_chrel c g s) hi (chrelBody_releases (State.needChain_ok hl hh) hc hb) (State.still_release _ _)
  · exact still_ends (exec_chread c x y f g s) hi (chreadBody_writes (State.needChain_ok hl hh) hf hlt (fun h => h0 (of_decide_eq_true h)) hlost hal (by simp) hsp.1 hsp.2) (State.still_spWrite _ _ _ _ _)
  · intro old h hal hsp w e p ref lands hr hat hhome hcore hspare hlost hworks
    have hsplices : a.Splices c.toNat x.toNat ch e old h :=
      ⟨State.needChain_ok hl hh, hal, hsp.1, hsp.2, rfl, hf, hr, hat, hhome, hcore, hspare, hlost, hworks⟩
    have hbody := hsplices.body (d := y.toNat)
    refine ⟨fun hp hidle => still_lands (exec_chsplice c x y g s) hi (hbody.trans (State.splicePlace_named hp hidle)) (State.still_splice _ _ _ _ _ _ _), fun hs hp => ?_⟩
    obtain ⟨k1, k2⟩ := State.splicePlace_spare (a := a) (ch := ch) (old := old) (d := y.toNat) hs hp
    exact ⟨fun hn => still_lands (exec_chsplice c x y g s) hi (hbody.trans (k1 hn)) (State.Still.refl _),
      fun q hq => still_lands (exec_chsplice c x y g s) hi (hbody.trans (k2 q hq)) ((State.still_setDieAt _ _ _).trans (State.still_splice _ _ _ _ _ _ _))⟩
  · exact ⟨fun hi => chain_none (exec_chstat c x g s) hi hl rfl, fun hi => (exec_chclose c x y f g s).trans (execChclose_none hi hl),
      fun hi => ⟨chain_none (exec_chhalt c g s) hi hl rfl, chain_none (exec_chthaw c g s) hi hl rfl, chain_none (exec_chrel c g s) hi hl rfl⟩,
      fun hi => ⟨chain_none (exec_chread c x y f g s) hi hl rfl, chain_none (exec_chsplice c x y g s) hi hl rfl⟩⟩

end Sys2Proof.Machine
end

section
/-! PROOFS. The events of a chain: hops, and the start and landing of a close (R125, R201, R204, R217, R314). -/

namespace Sys2Proof.Machine

variable {s : State}

/-! ### Hops -/

theorem State.hopDue_live {h : Hop} {r : LinkRef} (hr : (s.chainAt h.ctx h.chain).links[h.dest]? = some r) (hl : s.linkLive r = true)
    (hm : (s.linkAt r.key).rearm = false) : s.hopDue h = true := by
  unfold State.hopDue
  rw [hr]
  dsimp only
  rw [hl, hm]
  rfl

theorem execHopArrival_due {n : Nat} {h : Hop} (hn : s.hops[n]? = some h) (hd : s.hopDue h = true)
    (hf : ∀ f ∈ s.hops.take n, s.hopRoute f = s.hopRoute h → s.hopDue f = false) : execHopArrival n s = .next (s.fresh.hopArrive n h) := by
  have hall : (s.hops.take n).all (fun f => !(decide (s.hopRoute f = s.hopRoute h) && s.hopDue f)) = true := by
    refine List.all_eq_true.2 fun f hm => ?_
    by_cases he : s.hopRoute f = s.hopRoute h
    · rw [hf f hm he, Bool.and_false]
      rfl
    · rw [decide_eq_false he]
      rfl
  unfold execHopArrival
  rw [hn]
  exact event_due (by rw [hd, hall]; rfl) _

/-- A hop at its link: kept where none is there yet, which may form the link's sum; a second one is ignored. -/
theorem State.hopArrive_stores {n : Nat} {h : Hop} {r : LinkRef} (hr : (s.chainAt h.ctx h.chain).links[h.dest]? = some r) : s.hopArrive n h =
    if (s.linkAt r.key).inrcv = true then { s with hops := dropNth s.hops n }
    else (({ s with hops := dropNth s.hops n } : State).setLink r.key { s.linkAt r.key with inrcv := true, inc := h.vals }).tryForm h.ctx h.chain h.dest := by
  unfold State.hopArrive
  dsimp only
  rw [show (({ s with hops := dropNth s.hops n } : State).chainAt h.ctx h.chain).links[h.dest]? = some r from hr]
  rfl

/-! ### A close -/

theorem execCloseStart_due {ctx chain : Nat} {q : CloseReq} {r : LinkRef} (hc : (s.chainAt ctx chain).close = some q) (ht : (s.chainAt ctx chain).tail = some r)
    (hst : q.started = false) (hf : (s.chainAt ctx chain).frozen = false) (hsent : (s.linkAt r.key).state = .sent) (hform : (s.linkAt r.key).formed = true)
    (hl : s.linkLive r = true) (hfree : s.closeFree (s.chainAt ctx chain) = true) :
    execCloseStart ctx chain s = .next (s.fresh.closeStart (s.chainAt ctx chain)) := by
  have hd : s.closeReady (s.chainAt ctx chain) = true := by
    unfold State.closeReady
    rw [hc, show (s.chainAt ctx chain).links.getLast? = some r from ht]
    dsimp only
    rw [hst, hf, hsent, hform, hl, hfree]
    rfl
  exact event_due hd _

/-- The core a close acts on as the close leaves it, for the sums inc of its tail. -/
def State.closedCore (s : State) (ch : Chain) (q : CloseReq) (l : Link) : Core :=
  let elem := fun k => closeElem q (hopFmt l.hopf) ch.num ch.closes.toNat k (tGet 0 l.inc k)
  let keys := closeKeys q.rows q.cols
  let c := s.closeCore ch q
  let st := tGet 0 c.fmtStat q.row
  let pend := decide (q.thresh < (keys.filter (fun k => (elem k).2.2)).length) && !st.getLsbD 30
  let c1 : Core := { c with scratch := closeWrite q (fmtOf (bits q.cfg.toNat 46 6)).width elem c.scratch keys,
                            fmtStat := tSet 0 c.fmtStat q.row (if pend then st ||| 0x80000000#32 else st),
                            fbAt := if pend && !st.getLsbD 31 then tSet 0 c.fbAt q.row (s.now + 1) else c.fbAt }
  (c1.orFlags (orFlagsOf (fun k => (elem k).2.1) keys)).leave (closeOwner ch.ctx ch.num)

theorem State.closedCore_eng (s : State) (ch : Chain) (q : CloseReq) (l : Link) (w : Eng) : (s.closedCore ch q l).eng w = (s.closeCore ch q).eng w := by
  cases w <;> rfl

/-- The links of a chain re-armed after its close. -/
def State.rearmAll (s : State) (rs : List LinkRef) : State :=
  rs.foldl (fun s r => s.setLink r.key (if s.dieAway r.die then { s.linkAt r.key with rearm := true } else (s.linkAt r.key).rearmed)) s

theorem State.still_rearmAll (s : State) (rs : List LinkRef) : s.Still (s.rearmAll rs) := State.still_foldl _ (fun s _ => s.still_setLink _ _) _ _

theorem State.rearmAll_cores (s : State) (rs : List LinkRef) : (s.rearmAll rs).cores = s.cores := by
  induction rs generalizing s with
  | nil => rfl
  | cons r rs ih => exact ih _

theorem State.rearmAll_coreAt (s : State) (rs : List LinkRef) (die core : Nat) : (s.rearmAll rs).coreAt die core = s.coreAt die core := by
  unfold State.coreAt
  rw [State.rearmAll_cores]

theorem State.coreAt_setChain (s : State) (c : Chain) (die core : Nat) : (s.setChain c).coreAt die core = s.coreAt die core := rfl

theorem State.closeLand_eq (s : State) (ch : Chain) (q : CloseReq) (tail : LinkRef) : ∃ us : List Nat, s.closeLand ch q tail =
    ((us.foldl (fun s u => s.markSector ch.home q.core u) (s.setCloseCore ch q (s.closedCore ch q (s.linkAt tail.key)))).rearmAll ch.links).setChain
      { ch with close := none, closes := ch.closes + 1, lastClip := BitVec.ofNat 16 (min ((closeKeys q.rows q.cols).filter (fun k =>
        (closeElem q (hopFmt (s.linkAt tail.key).hopf) ch.num ch.closes.toNat k (tGet 0 (s.linkAt tail.key).inc k)).2.2)).length 0xFFFF) } :=
  ⟨_, rfl⟩

theorem State.still_markSectors (s : State) (die core : Nat) (us : List Nat) : s.Still (us.foldl (fun s u => s.markSector die core u) s) := by
  obtain ⟨⟨c, g, e⟩, ⟨q, e2⟩, e3⟩ := State.markSectors_shape s die core us
  refine ⟨by rw [e], fun d k w => ?_⟩
  by_cases h : coreKey d k = coreKey die core
  · have h1 : ∀ z : State, z.coreAt d k = z.coreAt die core := fun z => by unfold State.coreAt; rw [h]
    rw [h1, h1 s, e2]
    cases w <;> rfl
  · exact congrArg (Core.eng · w) (e3 _ h)

theorem State.ckpts_any_none {ch : Chain} {q : CloseReq} (h : s.ckpts.any (fun k => k.closes ch q) = false) : s.closeCore ch q = s.coreAt ch.home q.core := by
  unfold State.closeCore
  rw [List.find?_eq_none.2 fun k hk => by simpa using List.any_eq_false.1 h k hk]

/-- A close writes the core that issued it, or its image: no core's streams change. -/
theorem State.still_setCloseCore (s : State) (ch : Chain) (q : CloseReq) (c : Core) (hc : ∀ w, c.eng w = (s.closeCore ch q).eng w) : s.Still (s.setCloseCore ch q c) := by
  unfold State.setCloseCore
  cases h : s.ckpts.any (fun k => k.closes ch q)
  · exact s.still_setCoreAt _ _ _ fun w => by rw [hc, State.ckpts_any_none h]
  · exact State.still_of rfl rfl

theorem State.still_closeLand (s : State) (ch : Chain) (q : CloseReq) (tail : LinkRef) : s.Still (s.closeLand ch q tail) := by
  obtain ⟨us, h⟩ := s.closeLand_eq ch q tail
  rw [h]
  exact (((s.still_setCloseCore _ _ _ (s.closedCore_eng _ _ _)).trans (State.still_markSectors _ _ _ _)).trans (State.still_rearmAll _ _)).trans (State.still_setChain _ _)

/-- On a running core the tile and the flags are the core's own. -/
theorem State.closeLand_tile {ch : Chain} {q : CloseReq} {tail : LinkRef} (h : ∀ k ∈ s.ckpts, k.closes ch q = false) :
    ((s.closeLand ch q tail).coreAt ch.home q.core).scratch = (s.closedCore ch q (s.linkAt tail.key)).scratch ∧
    ((s.closeLand ch q tail).coreAt ch.home q.core).fpflags = (s.closedCore ch q (s.linkAt tail.key)).fpflags := by
  obtain ⟨us, hu⟩ := s.closeLand_eq ch q tail
  have hset : s.setCloseCore ch q (s.closedCore ch q (s.linkAt tail.key)) = s.setCoreAt ch.home q.core (s.closedCore ch q (s.linkAt tail.key)) := by
    unfold State.setCloseCore
    rw [if_neg (by rw [List.any_eq_false.2 (fun k hk => by simp [h k hk])]; simp)]
  obtain ⟨-, ⟨e, he⟩, -⟩ := State.markSectors_shape (s.setCoreAt ch.home q.core (s.closedCore ch q (s.linkAt tail.key))) ch.home q.core us
  have hcore : (s.closeLand ch q tail).coreAt ch.home q.core = { s.closedCore ch q (s.linkAt tail.key) with sectors := e } := by
    rw [hu, hset]
    rw [State.coreAt_setChain, State.rearmAll_coreAt, he, State.coreAt_setCoreAt]
  rw [hcore]
  exact ⟨rfl, rfl⟩

theorem execCloseLand_due {ctx chain : Nat} {q : CloseReq} {r : LinkRef} (hc : (s.chainAt ctx chain).close = some q) (ht : (s.chainAt ctx chain).tail = some r)
    (hst : q.started = true) (hl : s.linkLive r = true) (hfree : s.closeFree (s.chainAt ctx chain) = true) :
    execCloseLand ctx chain s = .next (s.fresh.closeLand (s.chainAt ctx chain) q r) := by
  unfold execCloseLand
  dsimp only
  rw [hc, ht]
  exact event_due (by rw [hst, hl, hfree]; rfl) _

/-- Settles O40: HOP_ARRIVAL, CLOSE_START and CLOSE_LAND by their steps. That a close uses the row, the seed and the output of the core that issued it is the
model's choice (log 66); that a second hop at a link is ignored is log 35. -/
theorem chainEventsAct : Obligations.ChainEventsAct := by
  intro s n ctx chain ch u
  refine ⟨?_, fun q r hc ht hst hfr hsent hform hl hfree => ?_, ?_⟩
  · intro h r hn hr hl hm hf v
    have hx := (execHopArrival_due hn (State.hopDue_live hr hl hm) hf).trans (congrArg _ (State.hopArrive_stores (s := u) hr))
    exact ⟨fun hi => hx.trans (congrArg _ (if_neg (ne_true_of_eq_false hi))), fun hi => hx.trans (congrArg _ (if_pos hi))⟩
  · refine (execCloseStart_due hc ht hst hfr hsent hform hl hfree).trans (congrArg _ ?_)
    unfold State.closeStart
    rw [show (s.chainAt ctx chain).close = some q from hc]
    rfl
  · intro q r hc ht hst hl hfree elem keys clip
    refine ⟨_, execCloseLand_due hc ht hst hl hfree, s.still_fresh.trans (State.still_closeLand _ _ _ _), State.chainAt_setChain _ _, fun hk => ?_⟩
    obtain ⟨h1, h2⟩ := State.closeLand_tile (s := u) (tail := r) hk
    have hcore : u.closeCore ch q = s.coreAt ch.home q.core := State.ckpts_any_none (List.any_eq_false.2 fun k hm => by simp [hk k hm])
    refine ⟨h1.trans ?_, h2.trans ?_⟩
    · unfold State.closedCore
      rw [hcore]
      rfl
    · unfold State.closedCore
      rw [hcore]
      rfl

end Sys2Proof.Machine
end

section
/-! PROOFS. The copy queue: copies entered by instructions, and their beat groups (R222 to R232). -/

namespace Sys2Proof.Machine

variable {s u : State}

/-! ### Entering the queue -/

/-- The current core with the copy k last in its queue, its ranges on the scoreboard and its trace entry made. -/
def State.copyEntered (u : State) (k : Copy) (tk : Nat) : Core :=
  let c := u.myCore
  let c1 := c.enter (.copy c.issueNo) k.ranges
  let c2 : Core := { c1 with copyq := c1.copyq ++ [{ k with num := c.issueNo }] }
  (if k.outside then c2.marked else c2).traced u.now (u.cycle u.cur.die) .x 5 tk k.traceAddr

theorem State.copyEntered_eng (u : State) (k : Copy) (tk : Nat) (w : Eng) : (u.copyEntered k tk).eng w = u.myCore.eng w := by
  unfold State.copyEntered
  dsimp only
  rw [Core.traced_eng]
  split <;> cases w <;> rfl

/-- What a copy must find to enter the queue (R222 to R224). -/
structure State.CopyRoom (u : State) (k : Copy) : Prop where
  src   : u.myCore.sideCheck k false = .ok ()
  dst   : u.myCore.sideCheck k true = .ok ()
  queue : u.myCore.copyq.length < Config.copyQueueSize
  sb    : u.myCore.sb.length + k.ranges.length ≤ Config.scoreboardSize
  srcIn : u.sideReady u.cur.die u.cur.core k false none = .ok ()
  dstIn : u.sideReady u.cur.die u.cur.core k true none = .ok ()

theorem State.copyIssue_empty {k : Copy} (h : k.total = 0) (die core tk : Nat) : u.copyIssue die core k tk = .ok u := if_pos h

theorem State.copyIssue_enters {k : Copy} (h : k.total ≠ 0) (r : u.CopyRoom k) (tk : Nat) :
    u.copyIssue u.cur.die u.cur.core k tk = .ok (u.setMyCore (u.copyEntered k tk)) := by
  obtain ⟨h1, h2, h3, h4, h5, h6⟩ := r
  unfold State.copyIssue
  rw [if_neg h]
  dsimp only
  rw [show (u.coreAt u.cur.die u.cur.core).sideCheck k false = .ok () from h1, show (u.coreAt u.cur.die u.cur.core).sideCheck k true = .ok () from h2,
    await_ok (by rw [show decide ((u.coreAt u.cur.die u.cur.core).copyq.length < Config.copyQueueSize) = true from decide_eq_true h3,
      show (u.coreAt u.cur.die u.cur.core).sbRoom k.ranges.length = true from decide_eq_true h4]; rfl), h5, h6]
  rfl

/-- What an instruction does whose body comes to entering the copy k in the state u. -/
theorem copy_enters {f : Form} {body : State → Res State} {k : Copy} {tk : Nat} (hi : s.issues f = true) (heff : f.eff = false) (hu : s.atIssue.Still u)
    (hb : body s.atIssue = u.copyIssue u.cur.die u.cur.core k tk) :
    (k.total = 0 → ∃ t, issue s f body = .next t ∧ u.EndsAs t false ∧ t.me.x = s.me.x) ∧
    (k.total ≠ 0 → u.CopyRoom k → ∃ t, issue s f body = .next t ∧ t.me.x = s.me.x ∧ (u.setMyCore (u.copyEntered k tk)).EndsAs t false) := by
  refine ⟨fun h => ?_, fun h r => ?_⟩
  · obtain ⟨t, h1, h2, h3⟩ := still_next hi (hb.trans (State.copyIssue_empty h _ _ _)) hu
    exact ⟨t, h1, heff ▸ h2, h3⟩
  · obtain ⟨t, h1, h2, h3⟩ := still_next hi (hb.trans (State.copyIssue_enters h r tk)) (hu.trans (State.still_setMyCore _ _ fun w => State.copyEntered_eng _ _ _ w))
    exact ⟨t, h1, h3, heff ▸ h2⟩

theorem cpRBody_fits {a : State} {d x l : Nat} {p q : Bool} (h : (a.rx l 2).toNat ≤ 0xFFFFFFFF) : cpRBody d x l p q a = cpBody d x p q (a.rx l 2).toNat a := by
  unfold cpRBody
  dsimp only
  rw [need_ok (decide_eq_true h)]
  rfl

theorem cpRBody_long {a : State} {d x l : Nat} {p q : Bool} (h : 0xFFFFFFFF < (a.rx l 2).toNat) :
    cpRBody d x l p q a = .error (.trap { cls := 2, sub := 0x21 }) := by
  unfold cpRBody
  dsimp only
  rw [need_no (decide_eq_false (by omega))]
  rfl

theorem cpDBody_plans {a : State} {i : Instr} {kind d : Nat} {sp : Bool} {w : Nat → Nat} {k : Copy} (hal : aligned (a.rx d).toNat 64 = true)
    (hw : a.descWords i sp (a.rx d).toNat 64 = .ok (w, u))
    (hk : a.copyPlan a.cur.die a.cur.core kind w (BitVec.ofNat 64 (a.rx d).toNat) 0 0 = .ok k) :
    cpDBody i kind d sp a = u.copyIssue u.cur.die u.cur.core { k with pc := a.me.issuePc } kind := by
  rw [(State.descWords_still hw).cur]
  unfold cpDBody
  dsimp only
  rw [need_ok hal, bind_ok, hw, bind_ok, hk]
  rfl

/-! ### Beat groups -/

/-- The kinds whose groups are runs of bytes. -/
def CopyKind.isBytes (k : CopyKind) : Prop := k ∉ [CopyKind.put, .grad, .dep, .prRead, .gRead]

theorem State.copyStep_bytes {die core : Nat} {k : Copy} (h : k.kind.isBytes) : s.copyStep die core k = s.runBeat die core k := by
  unfold CopyKind.isBytes at h
  unfold State.copyStep
  split
  case h_6 => rfl
  all_goals simp_all

theorem execCopyBeatGroup_due {die core : Nat} {k : Copy} {rest : List Copy} (hq : (s.coreAt die core).copyq = k :: rest) (hd : s.copyDue die core k = true)
    (hk : k.kind.isBytes) : execCopyBeatGroup die core s = .next (s.fresh.runBeat die core k) := by
  unfold execCopyBeatGroup
  rw [hq]
  exact (event_due hd _).trans (congrArg _ (State.copyStep_bytes hk))

theorem State.runBeat_sends {die core : Nat} {k : Copy} (h : k.unsent ≠ []) : s.runBeat die core k = (s.sendGroup die core).landIfDone die core :=
  if_pos (by simpa using h)

theorem State.runBeat_performs {die core : Nat} {k : Copy} {t : State} (h : k.unsent = []) (hb : s.beat die core k = .ok t) :
    s.runBeat die core k = (t.copySkid die core).landIfDone die core := by
  unfold State.runBeat
  rw [if_neg (by simp [h]), hb]

theorem State.landIfDone_lands {die core : Nat} {k : Copy} (hq : (s.coreAt die core).copyq.head? = some k) (hs : k.unsent = []) (hd : k.total ≤ 256 * k.done) :
    s.landIfDone die core = s.landCopy die core k := by
  unfold State.landIfDone
  rw [hq]
  exact if_pos (by simp [hs, hd])

theorem State.landIfDone_stays {die core : Nat} {k : Copy} (hq : (s.coreAt die core).copyq.head? = some k) (h : k.unsent ≠ [] ∨ 256 * k.done < k.total) :
    s.landIfDone die core = s := by
  unfold State.landIfDone
  rw [hq]
  refine if_neg fun hc => ?_
  simp only [Bool.and_eq_true, List.isEmpty_iff, decide_eq_true_eq] at hc
  rcases h with h | h
  · exact h hc.1
  · omega

/-! ### A group between scratchpad places -/

theorem Core.mapped_plain {c : Core} (h : c.stash = []) (lo n : Nat) : c.mapped lo n = [] := by simp [Core.mapped, h]

/-- Bytes written one by one to a scratchpad that maps nothing. -/
theorem State.spWrites_plain {die core : Nat} (f : Nat → Nat) (es : List (Nat × Byte)) (h : (s.coreAt die core).stash = []) :
    (es.foldl (fun s q => s.spWrite die core (f q.1) [q.2]) s).mem = s.mem ∧
    (es.foldl (fun s q => s.spWrite die core (f q.1) [q.2]) s).coreAt die core =
      { s.coreAt die core with scratch := es.foldl (fun m q => mWrite m (f q.1) [q.2]) (s.coreAt die core).scratch } := by
  induction es generalizing s with
  | nil => exact ⟨rfl, rfl⟩
  | cons e es ih =>
    have hw : s.spWrite die core (f e.1) [e.2] = s.setCoreAt die core { s.coreAt die core with scratch := mWrite (s.coreAt die core).scratch (f e.1) [e.2] } := by
      unfold State.spWrite
      dsimp only
      rw [Core.mapped_plain h]
      rfl
    obtain ⟨h1, h2⟩ := ih (s := s.spWrite die core (f e.1) [e.2]) (by rw [hw, State.coreAt_setCoreAt]; exact h)
    refine ⟨h1.trans (by rw [hw]; rfl), h2.trans ?_⟩
    rw [hw, State.coreAt_setCoreAt]
    rfl

/-- A copy or fill between places of a scratchpad that maps nothing. -/
structure State.SpCopy (s : State) (die core : Nat) (k : Copy) : Prop where
  kind   : k.kind = .plain ∨ k.kind = .fill
  dst    : k.dsp = true
  src    : k.ssp = true ∨ k.kind = .fill
  stash  : (s.coreAt die core).stash = []

/-- The bytes of its next group. -/
def State.spCopyBytes (s : State) (die core : Nat) (k : Copy) : List Byte :=
  (k.group k.done).map fun m => if k.kind = .fill then BitVec.ofNat 8 (k.pattern.toNat / 2 ^ (8 * (m % k.n0 % 8))) else tGet 0 (s.coreAt die core).scratch (k.srcAt m)

theorem State.sideReady_plain {die core : Nat} (h : (s.coreAt die core).stash = []) (k : Copy) (dst : Bool) (of : Option (List Nat)) :
    s.sideReady die core k dst of = .ok () := by
  unfold State.sideReady
  dsimp only
  rw [h]
  rfl

theorem State.SpCopy.ready {die core : Nat} {k : Copy} (h : s.SpCopy die core k) : s.groupReady die core k = .ok (([], []), s) := by
  obtain ⟨hk, hd, hs, hst⟩ := h
  have hr : k.kind ≠ .remote := by rcases hk with hk | hk <;> rw [hk] <;> decide
  have hsrc : (if k.ssp = true then pure ([], s) else s.copyBytes die core false (k.groupSrc k.done)) = (.ok ([], s) : Res (List Phys × State)) := by
    rcases hs with hs | hs
    · rw [hs]
      rfl
    · have : k.groupSrc k.done = [] := by unfold Copy.groupSrc; rw [hs]
      rw [this]
      split <;> rfl
  unfold State.groupReady
  dsimp only
  rw [hsrc, hd]
  simp only [bind_ok, if_true, pure, Except.pure, if_neg hr, State.sideReady_plain hst]
  rfl

theorem State.SpCopy.group_bytes {die core : Nat} {k : Copy} (h : s.SpCopy die core k) :
    k.newBytes k.done (if k.ssp then State.beat.mRead1 (s.coreAt die core).scratch (k.groupSrc k.done) else []) = (s.spCopyBytes die core k, 0) := by
  obtain ⟨hk, hd, hs, hst⟩ := h
  unfold Copy.newBytes State.spCopyBytes
  rcases hk with hk | hk
  · have hs : k.ssp = true := by simpa [hk] using hs
    rw [hk, hs]
    dsimp only [Copy.groupSrc]
    rw [if_pos rfl, hk, State.beat.mRead1, List.map_map]
    rfl
  · rw [hk]
    rfl

theorem Copy.hidden_bytes {k : Copy} (h : k.kind = .plain ∨ k.kind = .fill) (m : Nat) : k.hidden m = false := by
  unfold Copy.hidden
  rcases h with h | h <;> rw [h]

/-- The state of the group written, before it is counted. -/
def State.spCopied (s : State) (die core : Nat) (k : Copy) : State :=
  ((k.group k.done).zip (s.spCopyBytes die core k)).foldl (fun s q => s.spWrite die core (k.dstAt q.1) [q.2]) (s.setCoreAt die core ((s.coreAt die core).orFlags 0))

theorem State.SpCopy.beat_eq {die core : Nat} {k : Copy} (h : s.SpCopy die core k) : s.beat die core k = .ok ((s.spCopied die core k).sendGroup die core) := by
  have hr : k.kind ≠ .remote := by rcases h.kind with hk | hk <;> rw [hk] <;> decide
  have hf : ∀ l : List (Nat × Byte), l.filter (fun q => !k.hidden q.1) = l := fun l => List.filter_eq_self.2 fun q _ => by rw [Copy.hidden_bytes h.kind]; rfl
  unfold State.beat
  rw [h.ready, bind_ok]
  dsimp only
  simp only [List.map_nil, decide_eq_false hr, Bool.false_and, Bool.false_eq_true, if_false]
  rw [h.group_bytes, h.dst, if_pos rfl, hf]
  rfl

/-- A group with nothing to post is counted done, and nothing else changes. -/
theorem State.sendGroup_counts {die core : Nat} {k : Copy} {rest : List Copy} (hq : (s.coreAt die core).copyq = k :: rest) (hs : k.unsent = []) :
    s.sendGroup die core = s.setCoreAt die core { s.coreAt die core with copyq := { k with done := k.done + 1, wait := none, unsent := [] } :: rest } := by
  have hsend : s.sendAll k.unsent = (s, []) := by rw [hs]; rfl
  have hp : (if k.helper = true then [] else upto (s.coreAt die core).nextPid 0) = ([] : List Nat) := by split <;> rfl
  unfold State.sendGroup State.setHead
  rw [hq]
  dsimp only [List.headD_cons]
  rw [hsend]
  dsimp only
  rw [hq, Nat.sub_self, hp, List.modifyHead_cons, List.append_nil]
  rfl

theorem State.SpCopy.spCopied_shape {die core : Nat} {k : Copy} (h : s.SpCopy die core k) : (s.spCopied die core k).mem = s.mem ∧
    (s.spCopied die core k).coreAt die core = { (s.coreAt die core).orFlags 0 with
      scratch := ((k.group k.done).zip (s.spCopyBytes die core k)).foldl (fun m e => mWrite m (k.dstAt e.1) [e.2]) (s.coreAt die core).scratch } := by
  obtain ⟨h1, h2⟩ := State.spWrites_plain (s := s.setCoreAt die core ((s.coreAt die core).orFlags 0)) k.dstAt ((k.group k.done).zip (s.spCopyBytes die core k))
    (by rw [State.coreAt_setCoreAt]; exact h.stash)
  refine ⟨h1, h2.trans ?_⟩
  rw [State.coreAt_setCoreAt]
  rfl

/-- A group with nothing to post: the copy counts it, its core notes the halt under way, and memory is as it was. -/
theorem State.sendGroup_skids {v : State} {die core : Nat} {k : Copy} {rest : List Copy} (hq : (v.coreAt die core).copyq = k :: rest) (hs : k.unsent = []) :
    ((v.sendGroup die core).copySkid die core).mem = v.mem ∧ ∃ b, ((v.sendGroup die core).copySkid die core).coreAt die core =
      { v.coreAt die core with copyq := { k with done := k.done + 1, wait := none, unsent := [] } :: rest, xSkid := b } := by
  have hsend := State.sendGroup_counts (s := v) hq hs
  refine ⟨by rw [hsend]; rfl, (v.coreAt die core).xSkid || ((v.sendGroup die core).partOfCore die core).halt.isSome, ?_⟩
  unfold State.copySkid
  dsimp only
  rw [State.coreAt_setCoreAt, hsend, State.coreAt_setCoreAt]

theorem State.SpCopy.runBeat_writes {die core : Nat} {k : Copy} {rest : List Copy} (h : s.SpCopy die core k) (hq : (s.coreAt die core).copyq = k :: rest)
    (hs : k.unsent = []) (hd : 256 * (k.done + 1) < k.total) : (s.runBeat die core k).mem = s.mem ∧
    ((s.runBeat die core k).coreAt die core).copyq.map (·.done) = (k.done + 1) :: rest.map (·.done) ∧
    ((s.runBeat die core k).coreAt die core).scratch =
      ((k.group k.done).zip (s.spCopyBytes die core k)).foldl (fun m e => mWrite m (k.dstAt e.1) [e.2]) (s.coreAt die core).scratch := by
  obtain ⟨hm, hc⟩ := h.spCopied_shape
  obtain ⟨hmem, b, hskid⟩ := State.sendGroup_skids (v := s.spCopied die core k) (by rw [hc]; exact hq) hs
  have hstay := State.landIfDone_stays (s := ((s.spCopied die core k).sendGroup die core).copySkid die core) (die := die) (core := core)
    (k := { k with done := k.done + 1, wait := none, unsent := [] }) (by rw [hskid]; rfl) (.inr hd)
  rw [State.runBeat_performs hs h.beat_eq, hstay, hskid, hc]
  exact ⟨hmem.trans hm, rfl, rfl⟩

/-- Settles O41: a copy instruction by its body's coming to `copyIssue`, a beat group by what it has to send or perform. What a last group still has to post
is sent by later groups (log 32); each range of a copy has a scoreboard entry of its own (log 64). -/
theorem copiesEnterAndRun : Obligations.CopiesEnterAndRun := by
  intro s d x l p q n g die core a pc enters row desc
  have henters : ∀ (i : Instr) (f : Form) (body : State → Res State) (u : State) (k : Copy) (tk : Nat), exec i s = issue s f body → s.issues f = true → f.eff = false → a.Still u →
      body a = u.copyIssue u.cur.die u.cur.core k tk → enters i u k tk := by
    intro i f body u k tk he hi heff hu hb
    obtain ⟨h1, h2⟩ := copy_enters hi heff hu hb
    have hcur : u.cur = s.cur := hu.cur
    refine ⟨fun h => he ▸ h1 h, fun h r1 r2 r3 r4 r5 r6 => ?_⟩
    have hx := h2 h ⟨r1, r2, r3, r4, hcur ▸ r5, hcur ▸ r6⟩
    unfold State.copyEntered at hx
    rw [hcur] at hx
    exact he ▸ hx
  have hdesc : ∀ (i : Instr) (kind : Nat), exec i s = issue s (cdForm d g s) (cpDBody i kind d.toNat (p = 1)) → s.issues (cdForm d g s) = true → desc i kind :=
    fun i kind he hi w u k hal hw hk => henters i _ _ u _ kind he hi rfl (State.descWords_still hw) (cpDBody_plans hal hw hk)
  refine ⟨fun hi => henters _ _ _ a _ 0 rfl hi rfl (State.Still.refl _) rfl,
    fun hi => ⟨fun hle => henters _ _ _ a _ 0 rfl hi rfl (State.Still.refl _) (cpRBody_fits hle), fun hgt => issue_trap (State.issues_iff.1 hi).1 (cpRBody_long hgt)⟩,
    fun hi => ⟨hdesc _ _ rfl hi, hdesc _ _ rfl hi, hdesc _ _ rfl hi, hdesc _ _ rfl hi, hdesc _ _ rfl hi, hdesc _ _ rfl hi, hdesc _ _ rfl hi⟩,
    fun k rest hq hd hk => ?_, fun t k1 hq => ⟨fun hs hd => State.landIfDone_lands hq hs hd, fun h => State.landIfDone_stays hq h⟩⟩
  have hx := execCopyBeatGroup_due hq hd hk
  refine ⟨fun hs => hx.trans (congrArg _ (State.runBeat_sends hs)), fun hs t ht => hx.trans (congrArg _ (State.runBeat_performs hs ht)), fun hs hkind hdst hsrc hst hlt => ?_⟩
  have hcopy : s.fresh.SpCopy die core k := ⟨hkind, hdst, hsrc, hst⟩
  exact ⟨_, hx, hcopy.runBeat_writes hq hs hlt⟩

end Sys2Proof.Machine
end

section
/-! PROOFS. The stash: its instructions and the events of its sectors (R238 to R241). -/

namespace Sys2Proof.Machine

variable {s a : State}

/-! ### The instructions -/

theorem State.stashRange_free {lo n : Nat} (hc : a.myCore.conflict lo n true = false) (hs : a.myCore.sb.length < Config.scoreboardSize) :
    a.stashRange lo n = .ok () := await_ok (by rw [hc, decide_eq_true hs]; rfl) a

theorem stmapBody_maps {d x y lo va len : Nat} (h1 : (a.rx d).toNat = lo) (h2 : (a.rx x 1).toNat = va) (h3 : (a.rx y 2).toNat = len)
    (hok : a.myCore.stmapOk lo va len = true) (hp : a.stmapPages (pagePieces va 130 len) = .ok ()) (hf : a.stashRange lo len = .ok ()) :
    stmapBody d x y a = .ok (a.setMyCore { a.myCore with stash := a.myCore.stash ++ [⟨lo, BitVec.ofNat 64 va, len⟩], sectors := clearSectors a.myCore.sectors lo len }) := by
  unfold stmapBody
  dsimp only
  rw [h1, h2, h3, need_ok hok, bind_ok, hp, bind_ok, hf]
  rfl

theorem stflushBody_flushes {d x lo n : Nat} {v : State} (h1 : (a.rx d).toNat = lo) (h2 : (a.rx x 1).toNat = n) (hc : a.myCore.stashCovers lo n = true)
    (hf : a.stashRange lo n = .ok ()) (hv : a.flushRange a.cur.die a.cur.core (a.myCore.dirtyIn lo n) = .ok v) : stflushBody d x a = .ok v := by
  unfold stflushBody
  dsimp only
  rw [h1, h2, need_ok hc, bind_ok, hf, bind_ok, hv]

theorem stinvBody_drops {d x lo n : Nat} (h1 : (a.rx d).toNat = lo) (h2 : (a.rx x 1).toNat = n) (hc : a.myCore.stashCovers lo n = true) (hf : a.stashRange lo n = .ok ()) :
    stinvBody d x a = .ok (a.setMyCore { a.myCore with sectors := a.myCore.sectors.filter (fun q =>
      !(decide (q.1 * 32 < lo + n) && decide (lo < q.1 * 32 + 32))) }).filterPrune := by
  unfold stinvBody
  dsimp only
  rw [h1, h2, need_ok hc, bind_ok, hf]
  rfl

theorem stinvBody_none {d x : Nat} (hc : a.myCore.stashCovers (a.rx d).toNat (a.rx x 1).toNat = false) : stinvBody d x a = .error (.trap { cls := 2, sub := 0x23 }) := by
  unfold stinvBody
  dsimp only
  rw [need_no hc]
  rfl

/-- The state a mapping is removed to, once its dirty sectors have been written back in v. -/
def State.unmapped (v : State) (m : StashMap) : State :=
  (v.setMyCore { v.myCore with stash := v.myCore.stash.filter (fun x => x.sp ≠ m.sp), sectors := clearSectors v.myCore.sectors m.sp m.len, fills := [] }).filterPrune

theorem State.still_unmapped (v : State) (m : StashMap) : v.Still (v.unmapped m) :=
  (v.still_setMyCore _ fun w => by cases w <;> rfl).trans (State.still_filterPrune _)

theorem stunmapBody_unmaps {d : Nat} {m : StashMap} {v : State} (hm : a.myCore.stash.find? (fun m => m.sp = (a.rx d).toNat) = some m)
    (hf : a.stashRange m.sp m.len = .ok ()) (hv : a.flushRange a.cur.die a.cur.core (a.myCore.dirtyIn m.sp m.len) = .ok v) : stunmapBody d a = .ok (v.unmapped m) := by
  unfold stunmapBody
  rw [hm]
  dsimp only
  rw [hf, bind_ok]
  unfold State.unmap
  rw [show a.coreAt a.cur.die a.cur.core = a.myCore from rfl, hv, bind_ok, ← (State.flushRange_still hv).cur]
  rfl

/-! ### The events -/

/-- A sector filled with what the core's port reads, in the state w whose tags name the reader. -/
def State.filled (w : State) (die core u : Nat) (k : Core) (p : Phys) : Core :=
  { k with scratch := mWrite k.scratch (u * 32) (w.portBytes die core p.key p.home 32),
           sectors := tSet {} k.sectors u { st := .clean, key := p.key, keyNo := p.keyNo }, fills := k.fills.filter (· ≠ u) }

/-- A sector that may be filled is, and nothing but its core, the owner tags and the snoop filter changes. -/
theorem State.fillSector_fills {die core u : Nat} {p : Phys} {w : State} (hi : (tGet {} (s.coreAt die core).sectors u).st = .invalid)
    (hc : s.check (s.ctxOf die core) (some (s.coreAt die core).foot) [0] ((s.coreAt die core).sectorVa u) 32 false = .ok p)
    (ho : s.own die core (s.coreAt die core).task p ((s.coreAt die core).sectorVa u) 32 false = .ok w) (hr : s.canRead die (some core) p 32 = .ok ())
    (hf : s.filterRoom die (p.key / 256) = true) :
    (s.fillSector die core u).coreAt die core = w.filled die core u (s.coreAt die core) p ∧ (s.fillSector die core u).mem = s.mem ∧ s.Still (s.fillSector die core u) := by
  obtain ⟨g, rfl⟩ := State.own_shape ho
  unfold State.fillSector
  dsimp only
  rw [if_neg (by simp [hi]), hc]
  dsimp only
  rw [ho]
  dsimp only
  rw [hr]
  dsimp only
  rw [if_pos hf]
  rw [State.coreAt_setCoreAt]
  refine ⟨State.coreAt_setCoreAt _ _ _ _, rfl, ?_⟩
  refine State.Still.trans (State.still_of (u := { s with tags := g }) rfl rfl) ?_
  refine State.Still.trans (State.still_setCoreAt _ die core _ fun w => ?_) ((State.still_setCoreAt _ die core _ fun w => ?_).trans (State.still_of rfl rfl))
  · cases w <;> rfl
  · rw [State.coreAt_setCoreAt]
    cases w <;> rfl

theorem execStashFill_due {die core off : Nat} (h : off / 32 ∈ (s.coreAt die core).fills) : execStashFill die core off s = .next (s.fresh.fillSector die core (off / 32)) :=
  event_due (by simpa using h) _

theorem execStashSnoop_due {die core off : Nat} {wr : Bool} (h : ⟨die, core, off, wr⟩ ∈ s.snoops) (hu : s.spInUse die core off 32 = false) :
    execStashSnoop die core off wr s = .next
      (({ s.fresh with snoops := s.snoops.filter (· ≠ ⟨die, core, off, wr⟩) } : State).snoopSector die core (off / 32) wr).filterPrune :=
  event_due (by rw [hu, List.contains_iff_mem.2 h]; rfl) _

theorem execStashWriteback_due {die core off : Nat} {v : State} (h : (tGet {} (s.coreAt die core).sectors (off / 32)).st = .dirty)
    (hv : s.fresh.flushRange die core [off / 32] = .ok v) : execStashWriteback die core off s = .next v := by
  refine (event_due (decide_eq_true h) _).trans (congrArg _ ?_)
  unfold State.lazyBack
  rw [hv]

/-- Settles O42: each instruction by its body, each event by its step. -/
theorem stashActs : Obligations.StashActs := by
  intro s x y z g die core off wr a c lo vy free leaves
  have hrange : ∀ {lo n : Nat}, free lo n → a.stashRange lo n = .ok () := fun h => State.stashRange_free h.1 h.2
  refine ⟨?_, fun hi hc hf v hv => still_next hi (stflushBody_flushes rfl rfl hc (hrange hf) hv) (State.flushRange_still hv),
    fun hi => ⟨fun hc hf => ?_, fun hc => issue_trap (State.issues_iff.1 hi).1 (stinvBody_none hc)⟩, ?_, ?_, ?_, ?_⟩
  · intro hi len hok hp hf
    exact still_next hi (stmapBody_maps rfl rfl rfl hok hp (hrange hf)) (State.still_setMyCore _ _ fun w => by cases w <;> rfl)
  · exact still_next hi (stinvBody_drops rfl rfl hc (hrange hf)) ((State.still_setMyCore _ _ fun w => by cases w <;> rfl).trans (State.still_filterPrune _))
  · intro hi m v hm hf hv
    exact still_next hi (stunmapBody_unmaps hm (hrange hf) hv) ((State.flushRange_still hv).trans (State.still_unmapped _ _))
  · intro p w hm hinv hck ho hr hroom
    obtain ⟨h1, h2, h3⟩ := State.fillSector_fills (s := s.fresh) hinv hck ho hr hroom
    exact ⟨_, execStashFill_due hm, h1, h2, s.still_fresh.trans h3⟩
  · exact execStashSnoop_due
  · intro hd v hv
    exact ⟨execStashWriteback_due hd hv, s.still_fresh.trans (State.flushRange_still hv)⟩

end Sys2Proof.Machine
end

section
/-! PROOFS. The helper: its instructions and micro-instructions (R223, R234 to R237). -/

namespace Sys2Proof.Machine

variable {s a : State}

/-! ### The instructions -/

theorem hlaunchBody_starts {x y blk opts : Nat} (h1 : (a.rx x).toNat = blk) (h2 : (a.rx y 1).toNat = opts) (hr : a.myCore.helper.run = false)
    (hok : hctlOk blk opts (fun k => a.spNat (blk + 8 * k) 8) = true) (hb : blk % 64 = 0) (ho : opts / 64 = 0) (hc : a.myCore.spCheck blk 64 false = .ok ())
    (hs : a.spReady a.cur.die a.cur.core blk 64 false = .ok ()) : hlaunchBody x y a = .ok (a.setMyCore { a.myCore with helper :=
      { run := true, hpc := a.spNat (blk + 8 * 0) 8, hloop := 0, ctl := blk, flag := a.spNat (blk + 8 * 1) 8, raiseEn := bit opts 5, e := bits opts 0 5, next := a.now + 2 } }) := by
  unfold hlaunchBody
  dsimp only
  rw [h1, h2, await_ok (by rw [hr]; rfl), bind_ok, need_ok (by rw [decide_eq_true hb, decide_eq_true ho]; rfl), bind_ok, hc, hs]
  simp only [liftTrap, bind_ok]
  rw [need_ok hok]
  rfl

theorem hstopBody_passes (hr : a.myCore.helper.run = false) (hl : a.myCore.helperLanded = true) : hstopBody a = .ok a := by
  unfold hstopBody
  dsimp only
  rw [await_ok (by rw [hr, hl]; rfl)]
  rfl

theorem execHstat_next {x : BitVec 6} {g : BitVec 3} (hi : s.issues (fX g (s.regs [x.toNat])) = true) :
    ∃ t, execHstat x g s = .next t ∧ s.WritesX t x.toNat (BitVec.ofNat 64 s.myCore.helper.status) := landX_next hi rfl rfl

/-! ### A micro-instruction -/

theorem State.mayHelp_runs (hr : s.myCore.helper.run = true) (hn : s.myCore.helper.next ≤ s.now) (ht : s.myCore.inTurn s.now helperRank = true) (hp : s.myPart.halt = none)
    (hx : s.myCore.x.trap = none) : s.mayHelp = true := by
  unfold State.mayHelp
  dsimp only
  rw [hr, ht, hp, hx, decide_eq_true hn]
  rfl

theorem helperOp_stops (hc : s.curOk = true) (hm : s.mayHelp = true) (hs : s.myCore.helper.stopReq = true) (body : State → Res State) :
    helperOp s body = .next (s.setHelper { s.myCore.helper with run := false, stopReq := false, stopped := true }) := by
  unfold helperOp
  dsimp only
  rw [if_neg (by simp [hc]), if_neg (by simp [hm]), if_pos hs]

theorem helperOp_ends {body : State → Res State} {t : State} (hc : s.curOk = true) (hm : s.mayHelp = true) (hs : s.myCore.helper.stopReq = false)
    (hb : body s.fresh = .ok t) : helperOp s body = .next t.stampHelper := by
  unfold helperOp
  dsimp only
  rw [if_neg (by simp [hc]), if_neg (by simp [hm]), if_neg (by simp [hs]), show ({ s with free := s.free + 1 } : State) = s.fresh from rfl, hb]

theorem helperOp_faults {body : State → Res State} {t : TrapRec} (hc : s.curOk = true) (hm : s.mayHelp = true) (hs : s.myCore.helper.stopReq = false)
    (hb : body s.fresh = .error (.trap t)) : helperOp s body = .next (s.fresh.helperFault t) := by
  unfold helperOp
  dsimp only
  rw [if_neg (by simp [hc]), if_neg (by simp [hm]), if_neg (by simp [hs]), show ({ s with free := s.free + 1 } : State) = s.fresh from rfl, hb]

theorem hcpBody_issues {kind doff : Nat} {k : Copy} {u : State} (hk : kind ≤ 6) (h1 : a.spReady a.cur.die a.cur.core (a.myCore.helper.ctl + 16) 16 false = .ok ())
    (hal : aligned doff 64 = true) (hc : a.myCore.spCheck doff 64 false = .ok ()) (h2 : a.spReady a.cur.die a.cur.core doff 64 false = .ok ())
    (hp : a.copyPlan a.cur.die a.cur.core kind (fun j => a.spNat (doff + 8 * j) 8) (BitVec.ofNat 64 doff) (a.ctlWord 3) (a.ctlWord 2) = .ok k)
    (hu : a.copyIssue a.cur.die a.cur.core { k with helper := true, pc := a.myCore.helper.hpc } kind = .ok u) : hcpBody kind doff a = .ok u.hNext := by
  unfold hcpBody
  dsimp only
  rw [need_ok (decide_eq_true hk), bind_ok, h1, bind_ok, need_ok hal, bind_ok, hc, h2]
  simp only [liftTrap, bind_ok]
  rw [hp, bind_ok, hu]
  rfl

theorem hcpBody_reserved {kind doff : Nat} (hk : kind = 7) : hcpBody kind doff a = .error (.trap { cls := 1, sub := 0x0C }) := by
  unfold hcpBody
  dsimp only
  rw [need_no (decide_eq_false (by omega))]
  rfl

theorem hloopBody_counts {back cnt sadv dadv : Nat} (hb : back ≠ 0) (hc : a.myCore.spCheck (a.myCore.helper.ctl + 16) 16 true = .ok ())
    (hr : a.spReady a.cur.die a.cur.core (a.myCore.helper.ctl + 16) 16 true = .ok ()) :
    hloopBody back cnt sadv dadv a = .ok ((a.spWrite a.cur.die a.cur.core (a.myCore.helper.ctl + 16)
      (natToBytes 8 (a.ctlWord 2 + BitVec.ofInt 64 (64 * sextI sadv 16)).toNat ++ natToBytes 8 (a.ctlWord 3 + BitVec.ofInt 64 (64 * sextI dadv 16)).toNat)).setHelper
      { a.myCore.helper with
        hloop := ((if a.myCore.helper.hloop = 0 then cnt else a.myCore.helper.hloop) + 2 ^ 16 - 1) % 2 ^ 16,
        hpc := if ((if a.myCore.helper.hloop = 0 then cnt else a.myCore.helper.hloop) + 2 ^ 16 - 1) % 2 ^ 16 ≠ 0 then
          (a.myCore.helper.hpc + 2 ^ 48 - 8 * back) % 2 ^ 48 else a.myCore.helper.hpc + 8 }) := by
  unfold hloopBody
  dsimp only
  rw [need_ok (decide_eq_true hb), bind_ok, hc, hr]
  rfl

/-- The flag word written, and the counter e raised where asked. -/
def State.flagWritten (a : State) (raise : Bool) (e value : Nat) : State :=
  let v := a.spWrite a.cur.die a.cur.core a.myCore.helper.flag (natToBytes 4 value)
  if raise then v.setMyCore (v.myCore.raiseCnt a.now e 1) else v

theorem hflagBody_writes {land raise : Bool} {e value : Nat} (hl : land = false ∨ a.myCore.helperLanded = true) (hc : a.myCore.spCheck a.myCore.helper.flag 4 true = .ok ())
    (hr : a.spReady a.cur.die a.cur.core a.myCore.helper.flag 4 true = .ok ()) : hflagBody land raise e value a = .ok (a.flagWritten raise e value) := by
  unfold hflagBody
  dsimp only
  rw [await_ok (by rcases hl with hl | hl <;> simp [hl]), bind_ok, hc, hr]
  rfl

theorem execHflag_ends {land raise : BitVec 1} {e : BitVec 5} {value : BitVec 32} {z : State} (hc : s.curOk = true) (hm : s.mayHelp = true)
    (hs : s.myCore.helper.stopReq = false) (hb : hflagBody (land = 1) (raise = 1) e.toNat value.toNat s.fresh = .ok z) :
    execHflag land raise e value s = .next z.hNext.stampHelper := helperOp_ends hc hm hs (by rw [hb]; rfl)

theorem execHend_ends {value : BitVec 32} {z : State} (hc : s.curOk = true) (hm : s.mayHelp = true) (hs : s.myCore.helper.stopReq = false)
    (hb : hflagBody true s.myCore.helper.raiseEn s.myCore.helper.e value.toNat s.fresh = .ok z) :
    execHend value s = .next (z.setHelper { z.myCore.helper with run := false, stopped := false }).stampHelper := by
  refine helperOp_ends hc hm hs ?_
  dsimp only
  rw [show hflagBody true s.fresh.myCore.helper.raiseEn s.fresh.myCore.helper.e value.toNat s.fresh = .ok z from hb]
  rfl

theorem execHwait_passes {land : BitVec 1} {n : BitVec 4} (hl : land = 0 ∨ a.myCore.helperLanded = true) (ht : a.myCore.termReady a.now n.toNat = true) :
    (do await ((land = 0 || a.myCore.helperLanded) && a.myCore.termReady a.now n.toNat) a; pure a.hNext : Res State) = .ok a.hNext := by
  rw [await_ok (by rcases hl with hl | hl <;> simp [hl, ht])]
  rfl

theorem bit_zero_or {land : BitVec 1} {b : Bool} (h : land = 0 ∨ b = true) : decide (land = 1) = false ∨ b = true :=
  h.imp_left fun h => by rw [h]; rfl

/-- Settles O43: the three instructions by their bodies; a micro-instruction, where its helper may run it, by the stop request or by its body. -/
theorem helperRuns : Obligations.HelperRuns := by
  intro s x y g kind doff value land raise n back cnt sadv dadv e off a c f h leaves spOk
  refine ⟨?_, fun hi hr hl => still_next hi (hstopBody_passes hr hl) (State.Still.refl _), execHstat_next, fun hc hr hn ht hp hx => ?_⟩
  · intro hi hr blk opts w hok hb ho hsp
    exact still_next hi (hlaunchBody_starts rfl rfl hr hok hb ho hsp.1 hsp.2) (State.still_setMyCore _ _ fun w => by cases w <;> rfl)
  have hm : s.mayHelp = true := State.mayHelp_runs hr hn ht hp hx
  refine ⟨fun hs i hi => ?_, fun hs => ?_⟩
  · simp only [List.mem_cons, List.not_mem_nil, or_false] at hi
    have hstops := helperOp_stops hc hm hs
    rcases hi with rfl | rfl | rfl | rfl | rfl | rfl
    · exact (exec_hcp kind doff s).trans (hstops _)
    · exact (exec_hwait land n s).trans (hstops _)
    · exact (exec_hloop back cnt sadv dadv s).trans (hstops _)
    · exact (exec_hflag land raise e value s).trans (hstops _)
    · exact (exec_hjmp off s).trans (hstops _)
    · exact (exec_hend value s).trans (hstops _)
  intro ends next ctl
  have hends : ∀ (i : Instr) (body : State → Res State) (z : State), exec i s = helperOp s body → body f = .ok z → ends i z :=
    fun i body z he hb => he.trans (helperOp_ends hc hm hs hb)
  refine ⟨?_, fun hk => helperOp_faults hc hm hs (hcpBody_reserved hk), fun hl hw => (exec_hwait land n s).trans (helperOp_ends hc hm hs (execHwait_passes (a := f) hl hw)), ?_, ?_, ?_, ?_⟩
  · intro k0 hk hctl hal hsp hplan k
    refine ⟨fun h0 => hends _ _ _ rfl (hcpBody_issues hk hctl hal hsp.1 hsp.2 hplan (State.copyIssue_empty h0 _ _ _)), fun h0 r1 r2 r3 r4 r5 r6 => ?_⟩
    exact hends _ _ _ rfl (hcpBody_issues hk hctl hal hsp.1 hsp.2 hplan (State.copyIssue_enters (u := f) h0 ⟨r1, r2, r3, r4, r5, r6⟩ _))
  · intro hb hsp k data v
    exact hends _ _ _ rfl (hloopBody_counts (fun h0 => hb (BitVec.eq_of_toNat_eq h0)) hsp.1 hsp.2)
  · intro hl hsp v
    have hx := execHflag_ends (land := land) (raise := raise) (e := e) (value := value) hc hm hs (hflagBody_writes (a := f) (bit_zero_or hl) hsp.1 hsp.2)
    unfold State.flagWritten at hx
    simp only [decide_eq_true_eq] at hx
    exact hx
  · exact (exec_hjmp off s).trans (helperOp_ends hc hm hs rfl)
  · intro hl hsp v w
    exact execHend_ends hc hm hs (hflagBody_writes (a := f) (.inr hl) hsp.1 hsp.2)

end Sys2Proof.Machine
end

section
/-! PROOFS. The Hatbox: its instructions (R110, R333 to R346) and its events. -/

namespace Sys2Proof.Machine

variable {s a : State}

/-! ### Requests to a unit -/

theorem State.unitAsk_replied {i : Instr} {rq : Nat} (h : a.reqOut i rq = true) (rel : Bool) : a.unitAsk i rq rel = .ok () := by
  unfold State.unitAsk
  rw [await_ok (by rw [h]; rfl), bind_ok, await_ok h]

theorem State.unitAsk_sends {i : Instr} {rq : Nat} {rel : Bool} (h : a.reqOut i rq = false) (hr : rel = true → a.released = true) :
    a.unitAsk i rq rel = .error (.wait (a.noteReq i rq true)) := by
  unfold State.unitAsk
  rw [await_ok (by cases rel <;> simp_all), bind_ok, await_no h]

section
variable {f : Form} {body : State → Res State} {i : Instr} {rq : Nat} {rel : Bool} {k : Unit → Res State}

/-- An instruction whose body comes to a request, and what it does with the reply. -/
theorem unit_asks (he : exec i s = issue s f body) (hi : s.issues f = true) (hb : body s.atIssue = s.atIssue.unitAsk i rq rel >>= k)
    (h : s.atIssue.reqOut i rq = false) (hr : rel = true → s.released = true) : exec i s = .next (s.atIssue.noteReq i rq true) :=
  he.trans (issue_wait (State.issues_iff.1 hi).1 (by rw [hb, State.unitAsk_sends h hr]; rfl))

theorem unit_leaves {v : State} (he : exec i s = issue s f body) (hi : s.issues f = true) (hb : body s.atIssue = s.atIssue.unitAsk i rq rel >>= k)
    (h : s.atIssue.reqOut i rq = true) (hk : k () = .ok v) (hv : s.atIssue.Still v) : ∃ t, exec i s = .next t ∧ v.EndsAs t f.eff ∧ t.me.x = s.me.x := by
  rw [he]
  exact still_next hi (by rw [hb, State.unitAsk_replied h]; exact hk) hv

theorem unit_lands {v : State} {d l : Nat} {w : Word} (he : exec i s = issue s f body) (hi : s.issues f = true)
    (hb : body s.atIssue = s.atIssue.unitAsk i rq rel >>= k) (h : s.atIssue.reqOut i rq = true) (hk : k () = .ok (v.landX d w l)) (hv : s.atIssue.Still v) :
    ∃ t, exec i s = .next t ∧ v.EndsAs t f.eff ∧ s.Regs t (fun r => if r = d then some w else none) := by
  rw [he]
  exact still_landX hi (by rw [hb, State.unitAsk_replied h]; exact hk) hv

theorem unit_traps {t : TrapRec} (he : exec i s = issue s f body) (hi : s.issues f = true) (hb : body s.atIssue = s.atIssue.unitAsk i rq rel >>= k)
    (h : s.atIssue.reqOut i rq = true) (hk : k () = .error (.trap t)) : exec i s = .next (s.atIssue.takeTrap s.cur t) :=
  he.trans (issue_trap (State.issues_iff.1 hi).1 (by rw [hb, State.unitAsk_replied h]; exact hk))

end

/-! ### The C-stream forms -/

theorem State.needHatbox_ok {h : Hatbox} (hc : (a.ctxAt a.myCtx).hatbox = some h) : a.needHatbox = .ok h := by
  unfold State.needHatbox
  rw [hc]

theorem State.still_hbSet (v : State) (ctx c n k : Nat) (ws : List Nat) (h h1 : Hatbox) : v.Still ((v.hbHeader ctx h n k ws).setHatbox c h1) :=
  (State.unitWrote_hbHeader v ctx h n k ws).still.trans (State.still_setHatbox _ _ _)

section
variable {i : Instr} {h : Hatbox} {d x y g : Nat}

theorem hballocBody_asks {t : Nat} (hc : (a.ctxAt a.myCtx).hatbox = some h) (h1 : (a.rx x).toNat = g) (h2 : (a.rx y 1).toNat = t) (hg : g ≤ 15) (ht : t / 2 ^ 32 = 0) :
    ∃ k, hballocBody i d x y a = a.unitAsk i 0 >>= k ∧ (h.lowest = none → k () = .ok (a.landX d hbFail 1)) ∧
      ∀ n, h.lowest = some n → k () = .ok (((a.hbHeader a.myCtx h n 0 (freshSlot (h.aseq + 1) (BitVec.ofNat 32 t) g).head).setHatbox a.myCtx
        { h.setSlot n (freshSlot (h.aseq + 1) (BitVec.ofNat 32 t) g) with aseq := h.aseq + 1, order := tSet [] h.order g (tGet [] h.order g ++ [n]) }).landX d
          (hbResult (h.aseq + 1) n) 1) := by
  unfold hballocBody
  rw [State.needHatbox_ok hc, bind_ok, h1, h2]
  dsimp only
  rw [need_ok (by rw [decide_eq_true hg, decide_eq_true ht]; rfl), bind_ok]
  exact ⟨_, rfl, fun hn => by rw [hn]; rfl, fun n hn => by rw [hn]; rfl⟩

theorem hballocBody_group (hc : (a.ctxAt a.myCtx).hatbox = some h) (hg : 15 < (a.rx x).toNat) : hballocBody i d x y a = .error (.trap { cls := 2, sub := 0x2C }) := by
  unfold hballocBody
  rw [State.needHatbox_ok hc, bind_ok]
  dsimp only
  rw [need_no (by rw [decide_eq_false (by omega)]; rfl)]
  rfl

theorem hbgateBody_asks {r n : Nat} (hc : (a.ctxAt a.myCtx).hatbox = some h) (h1 : (a.rx x).toNat = n) (h2 : (a.rx y 1).toNat = r) (hal : aligned r 64 = true)
    (hn : n < h.quota) : ∃ k, hbgateBody i x y a = a.unitAsk i r >>= k ∧
      ∀ ws, a.unitWords i r r 8 = .ok ws → (h.slot n).state = .alloc → gateOk (fun k => ws.getD k 0) = true →
        k () = .ok ((a.hbHeader a.myCtx h n 1 (((h.slot n).gate (fun k => ws.getD k 0) (h.group (h.slot n).group).tmo a.now).head.drop 1 ++
          ((h.slot n).gate (fun k => ws.getD k 0) (h.group (h.slot n).group).tmo a.now).tail)).setHatbox a.myCtx
          (h.setSlot n ((h.slot n).gate (fun k => ws.getD k 0) (h.group (h.slot n).group).tmo a.now))) := by
  unfold hbgateBody
  dsimp only
  rw [h1, h2, need_ok hal, bind_ok, State.needHatbox_ok hc, bind_ok, need_ok (decide_eq_true hn), bind_ok]
  refine ⟨_, rfl, fun ws hw hs hg => ?_⟩
  rw [hw, bind_ok]
  rw [need_ok (decide_eq_true hs), bind_ok, need_ok hg]
  rfl

theorem hbpollBody_asks (hc : (a.ctxAt a.myCtx).hatbox = some h) (h1 : (a.rx x).toNat = g) (hg : g ≤ 15) :
    ∃ k, hbpollBody i d x a = a.unitAsk i 0 >>= k ∧ (tGet [] h.queue g = [] → k () = .ok (a.landX d hbFail 1)) ∧
      ∀ n rest, tGet [] h.queue g = n :: rest → k () = .ok ((a.setHatbox a.myCtx
        { h.setSlot n { h.slot n with state := .taken } with queue := tSet [] h.queue g rest }).landX d (hbResult (h.slot n).aseq n) 1) := by
  unfold hbpollBody
  rw [State.needHatbox_ok hc, bind_ok, h1]
  dsimp only
  rw [need_ok (decide_eq_true hg), bind_ok]
  exact ⟨_, rfl, fun hq => by rw [hq]; rfl, fun n rest hq => by rw [hq]; rfl⟩

theorem hbrelBody_asks {n : Nat} (hc : (a.ctxAt a.myCtx).hatbox = some h) (h1 : (a.rx x).toNat = n) (hn : n < h.quota) :
    ∃ k, hbrelBody i x a = a.unitAsk i 0 >>= k ∧ ((h.slot n).state ∈ [SlotState.alloc, .released, .taken] → k () = .ok (a.setHatbox a.myCtx (h.free n))) ∧
      ((h.slot n).state ∉ [SlotState.alloc, .released, .taken] → k () = .error (.trap { cls := 2, sub := 0x2D })) := by
  unfold hbrelBody
  rw [State.needHatbox_ok hc, bind_ok, h1]
  dsimp only
  rw [need_ok (decide_eq_true hn), bind_ok]
  refine ⟨_, rfl, fun hs => ?_, fun hs => ?_⟩
  · rw [need_ok (by simpa [or_assoc] using hs)]
    rfl
  · rw [need_no (by simpa [and_assoc] using hs)]
    rfl

theorem hbstatBody_asks {q : Nat} (hc : (a.ctxAt a.myCtx).hatbox = some h) (h1 : (a.rx x).toNat = q) (hq : q / 2 ^ 16 = 0) (hn : q < h.quota) :
    ∃ k, hbstatBody i d x a = a.unitAsk i 0 >>= k ∧ k () = .ok (a.landX d (BitVec.ofNat 64 ((h.slot q).word a.now)) 1) := by
  have hb : bit q 63 = false := by
    have hz : q / 2 ^ 63 = 0 := Nat.div_eq_of_lt (by omega)
    unfold bit
    rw [hz]
    rfl
  unfold hbstatBody
  rw [h1]
  dsimp only
  rw [if_neg (by rw [hb]; exact Bool.false_ne_true), State.needHatbox_ok hc, bind_ok, need_ok (by rw [decide_eq_true hq, decide_eq_true hn]; rfl), bind_ok]
  exact ⟨_, rfl, rfl⟩

/-- Whether the context has a configuration with slots in use. -/
def State.hbBusy (a : State) : Bool :=
  match (a.ctxAt a.myCtx).hatbox with
  | some o => decide (o.used ≠ 0)
  | none => false

theorem State.hbBusy_used (h : ∃ o, (a.ctxAt a.myCtx).hatbox = some o ∧ o.used ≠ 0) : a.hbBusy = true := by
  obtain ⟨o, h1, h2⟩ := h
  unfold State.hbBusy
  rw [h1]
  exact decide_eq_true h2

theorem State.hbBusy_idle (h : ∀ o, (a.ctxAt a.myCtx).hatbox = some o → o.used = 0) : a.hbBusy = false := by
  unfold State.hbBusy
  split
  case h_1 o ho => exact decide_eq_false (not_not.2 (h o ho))
  case h_2 => rfl

theorem hbcfgBody_asks {b : Nat} (h1 : (a.rx x).toNat = b) (hal : aligned b 8 = true) :
    ∃ k, hbcfgBody i d x a = a.unitAsk i b >>= k ∧ ∀ ws, a.unitWords i b b 18 = .ok ws → hbBlockOk (fun k => ws.getD k 0) = true →
      (a.hbBusy = true → k () = .ok (a.landX d 2 1)) ∧
      (a.hbBusy = false → 65536 < a.otherQuota a.cur.die a.myCtx + (hbOf (fun k => ws.getD k 0)).quota → k () = .ok (a.landX d 1 1)) ∧
      (a.hbBusy = false → a.otherQuota a.cur.die a.myCtx + (hbOf (fun k => ws.getD k 0)).quota ≤ 65536 →
        a.pagesCheck a.myCtx 3 (pagesOf (hbOf (fun k => ws.getD k 0)).region.toNat ((hbOf (fun k => ws.getD k 0)).quota * (hbOf (fun k => ws.getD k 0)).frame)) = .ok () →
        k () = .ok (((a.hbZero a.myCtx (hbOf (fun k => ws.getD k 0))).setHatbox a.myCtx (hbOf (fun k => ws.getD k 0))).landX d 0 1)) := by
  unfold hbcfgBody
  rw [h1]
  dsimp only
  rw [need_ok hal, bind_ok]
  refine ⟨_, rfl, fun ws hw hok => ?_⟩
  rw [hw, bind_ok]
  rw [need_ok hok, bind_ok]
  change (a.hbBusy = true → (if a.hbBusy = true then _ else _) = _) ∧ (_ → _ → (if a.hbBusy = true then _ else _) = _) ∧ (_ → _ → _ → (if a.hbBusy = true then _ else _) = _)
  refine ⟨fun hb => if_pos hb, fun hb hq => ?_, fun hb hq hp => ?_⟩
  · rw [if_neg (ne_true_of_eq_false hb), if_pos hq]
    rfl
  · rw [if_neg (ne_true_of_eq_false hb), if_neg (by omega), hp]
    rfl

end

/-! ### hbput -/

/-- The current core with a class form last in its queue. -/
def State.queued (a : State) (k : Copy) (lo n : Nat) (wr : Bool) : Core :=
  let c := a.myCore
  let c1 := c.enter (.copy c.issueNo) [(lo, n, wr)]
  { c1 with copyq := c1.copyq ++ [{ k with num := c.issueNo, pc := a.me.pc }] }

theorem State.still_queued (a : State) (k : Copy) (lo n : Nat) (wr : Bool) : a.Still (a.setMyCore (a.queued k lo n wr)) :=
  a.still_setMyCore _ fun w => by cases w <;> rfl

theorem State.queueEntry_enters {k : Copy} {lo n : Nat} {wr : Bool} (hq : a.myCore.copyq.length < Config.copyQueueSize) (hs : a.myCore.sb.length + 1 ≤ Config.scoreboardSize)
    (hr : a.sectorsReady a.cur.die a.cur.core lo n wr (a.myCore.mapped lo n) = .ok ()) : a.queueEntry k lo n wr = .ok (a.setMyCore (a.queued k lo n wr)) := by
  unfold State.queueEntry
  dsimp only
  rw [await_ok (by rw [decide_eq_true hq, show a.myCore.sbRoom 1 = true from decide_eq_true hs]; rfl), bind_ok, hr]
  rfl

theorem hbputBody_queues {d x y w src dst dl : Nat} (h1 : (a.rx d).toNat = w) (h2 : (a.rx x 1).toNat = src) (h3 : (a.rx y 2).toNat = dst) (hdl : bits w 16 7 = dl)
    (hc : (a.ctxAt a.myCtx).hatbox.isSome = true) (hs : aligned src 4 = true) (hd : aligned dst 256 = true) (hw : bits w 23 9 = 0) (hl1 : 1 ≤ dl) (hl2 : dl ≤ 64)
    (hck : a.myCore.spCheck src (256 * dl) false = .ok ()) (ht : a.putTarget a.myCtx dst = .ok ()) (hq : a.myCore.copyq.length < Config.copyQueueSize)
    (hsb : a.myCore.sb.length + 1 ≤ Config.scoreboardSize) (hr : a.sectorsReady a.cur.die a.cur.core src (256 * dl) false (a.myCore.mapped src (256 * dl)) = .ok ()) :
    hbputBody d x y a = .ok (a.setMyCore (a.queued { num := 0, kind := .put, dst := BitVec.ofNat 64 dst, src := BitVec.ofNat 64 src, n0 := 256 * dl, ssp := true, word := BitVec.ofNat 64 w }
      src (256 * dl) false)) := by
  obtain ⟨h, hc⟩ := Option.isSome_iff_exists.1 hc
  unfold hbputBody
  dsimp only
  rw [h1, h2, h3, hdl, need_ok hs, bind_ok, need_ok hd, bind_ok, need_ok (by simp [hw, hl2, Nat.pos_iff_ne_zero.1 hl1]), bind_ok, State.needHatbox_ok hc, bind_ok, hck, ht]
  exact State.queueEntry_enters hq hsb hr

/-! ### Events -/

theorem execHbTimeout_due {die ctx slot : Nat} {h : Hatbox} (hc : (s.ctxAt ctx).hatbox = some h) (hd : (s.ctxAt ctx).die = die) (ha : s.dieAway die = false)
    (hg : (h.slot slot).state = .gated) (ht : (h.slot slot).due ≤ s.now) : execHbTimeout die ctx slot s =
      .next (s.fresh.setHatbox ctx { h.setSlot slot ((h.slot slot).expire s.now) with tmos := satInc h.tmos }) := by
  unfold execHbTimeout
  rw [hc]
  exact event_due (by rw [decide_eq_true hd, decide_eq_true hg, decide_eq_true ht, ha]; rfl) _

theorem execCombineWrite_due {die ctx slot : Nat} {h : Hatbox} (hc : (s.ctxAt ctx).hatbox = some h) (hd : (s.ctxAt ctx).die = die) (ha : s.dieAway die = false)
    (hg : (h.slot slot).state = .done) (hk : (h.slot slot).combined = false) : execCombineWrite die ctx slot s = .next (s.fresh.combineWrite ctx h slot) := by
  unfold execCombineWrite
  rw [hc]
  exact event_due (by rw [decide_eq_true hd, decide_eq_true hg, hk, ha]; rfl) _

theorem execHbPutArrival_foreign {exp target word : Word} {src : Nat} {data : List Lane} {e : ExportEnt} (he : s.exportOf exp.toNat = some e) (ha : s.dieAway e.die = false)
    (hl : ∀ c, s.putPlace exp.toNat target.toNat = some c → s.hbTooLate c src target.toNat word.toNat = false) :
    execHbPutArrival (.foreign exp target word src data) s = .next (s.fresh.foreignPut exp.toNat target.toNat word.toNat src data) := by
  unfold execHbPutArrival
  refine event_due ?_ _
  unfold State.foreignDue
  rw [he]
  dsimp only
  rw [ha]
  split
  case h_1 c hc => rw [hl c hc]; rfl
  case h_2 => rfl

theorem State.foreignPut_drops {exp target word src : Nat} {data : List Lane} (h : s.putPlace exp target = none) : s.foreignPut exp target word src data = s := by
  unfold State.foreignPut
  rw [h]

theorem State.foreignPut_arrives {exp target word src c : Nat} {data : List Lane} (h : s.putPlace exp target = some c) :
    s.foreignPut exp target word src data = s.hbArrive c src target word data := by
  unfold State.foreignPut
  rw [h]

theorem execHbPutArrival_queued {n : Nat} {m : PutMsg} (hn : s.puts[n]? = some m) (hf : s.putFree m = true)
    (ho : ∀ q ∈ s.puts.take n, q.die = m.die → q.home = m.home → s.putFree q = false) : execHbPutArrival (.queued n) s = .next (s.fresh.putArrive n m) := by
  have hall : (s.puts.take n).all (fun x => !(decide (x.die = m.die) && decide (x.home = m.home) && s.putFree x)) = true := by
    refine List.all_eq_true.2 fun q hq => ?_
    by_cases h1 : q.die = m.die
    · by_cases h2 : q.home = m.home
      · rw [ho q hq h1 h2, Bool.and_false]
        rfl
      · rw [decide_eq_false h2, Bool.and_false]
        rfl
    · rw [decide_eq_false h1]
      rfl
  unfold execHbPutArrival
  dsimp only
  rw [hn]
  exact event_due (by unfold State.putDue; rw [hf]; exact hall) _

theorem State.putFree_home {m : PutMsg} {h : Nat} (hh : m.home = some h) (ha : s.dieAway h = false)
    (hl : ∀ c, s.putPlace m.exp m.target = some c → s.hbTooLate c (s.sender m.die m.core) m.target m.word.toNat = false) : s.putFree m = true := by
  unfold State.putFree
  rw [hh]
  dsimp only
  rw [ha]
  split
  case h_1 c hc => rw [hl c hc]; rfl
  case h_2 => rfl

theorem State.putFree_foreign {m : PutMsg} (hh : m.home = none) : s.putFree m = true := by
  unfold State.putFree
  rw [hh]

/-- A posted put at its home: brought to its unit, or dropped with its import revoked; of another package the answer is not known. -/
theorem State.putArrive_cases (n : Nat) (m : PutMsg) : (∀ h c, m.home = some h → ({ s with puts := dropNth s.puts n } : State).putPlace m.exp m.target = some c →
      s.putArrive n m = (({ s with puts := dropNth s.puts n } : State).hbArrive c (s.sender m.die m.core) m.target m.word.toNat m.data).ackItem h m.die m.core m.pid false) ∧
    (∀ h, m.home = some h → ({ s with puts := dropNth s.puts n } : State).putPlace m.exp m.target = none → s.putArrive n m =
      (({ s with puts := dropNth s.puts n } : State).revokeImport (({ s with puts := dropNth s.puts n } : State).ctxOf m.die m.core) m.slot).ackItem h m.die m.core m.pid true) ∧
    (m.home = none → ∃ bad : Bool, s.putArrive n m = (if bad then ({ s with puts := dropNth s.puts n } : State).revokeImport
      (({ s with puts := dropNth s.puts n } : State).ctxOf m.die m.core) m.slot else { s with puts := dropNth s.puts n }).ackItem 4 m.die m.core m.pid bad) := by
  unfold State.putArrive
  dsimp only
  refine ⟨fun h c hh hp => ?_, fun h hh hp => ?_, fun hh => ?_⟩
  · rw [hh]
    dsimp only
    rw [hp]
  · rw [hh]
    dsimp only
    rw [hp]
  · rw [hh]
    exact ⟨decide (s.freeNat 0 % 2 = 1), by simp only [decide_eq_true_eq]⟩

/-- Settles O44: each instruction by its request and what it does with the reply, each event by its step. -/
theorem hatboxActs : Obligations.HatboxActs := by
  intro s x y z g die ctx slot a rx ry cfg asks lands leaves
  refine ⟨fun hi => ⟨fun h hc => ⟨fun hg ht => ?_, fun hg => issue_trap (State.issues_iff.1 hi).1 (hballocBody_group hc hg), fun hal hn => ?_, fun hg => ?_, fun hn => ?_,
    fun hq hn => ?_⟩, fun hal => ?_⟩, ?_, ?_, fun exp target word src data e he ha => ⟨fun h1 h2 => ?_, fun c h1 h2 hl => ?_⟩, ?_⟩
  · have he := exec_hballoc z x y g s
    obtain ⟨k, hb, k1, k2⟩ := hballocBody_asks (a := a) (i := .hballoc z x y g) (d := z.toNat) (x := x.toNat) (y := y.toNat) hc rfl rfl hg ht
    exact ⟨fun h0 hr => unit_asks he hi hb h0 fun _ => hr, fun hl h0 => unit_lands he hi hb h0 (k1 hl) (State.Still.refl _),
      fun n hl h0 => unit_lands he hi hb h0 (k2 n hl) (State.still_hbSet _ _ _ _ _ _ _ _)⟩
  · have he := exec_hbgate x y g s
    obtain ⟨k, hb, k1⟩ := hbgateBody_asks (a := a) (i := .hbgate x y g) (x := x.toNat) (y := y.toNat) hc rfl rfl hal hn
    exact ⟨fun h0 hr => unit_asks he hi hb h0 fun _ => hr, fun ws hw hs hg h0 => unit_leaves he hi hb h0 (k1 ws hw hs hg) (State.still_hbSet _ _ _ _ _ _ _ _)⟩
  · have he := exec_hbpoll z x g s
    obtain ⟨k, hb, k1, k2⟩ := hbpollBody_asks (a := a) (i := .hbpoll z x g) (d := z.toNat) (x := x.toNat) hc rfl hg
    exact ⟨fun h0 hr => unit_asks he hi hb h0 fun _ => hr, fun hq h0 => unit_lands he hi hb h0 (k1 hq) (State.Still.refl _),
      fun n rest hq h0 => unit_lands he hi hb h0 (k2 n rest hq) (State.still_setHatbox _ _ _)⟩
  · have he := exec_hbrel x g s
    obtain ⟨k, hb, k1, k2⟩ := hbrelBody_asks (a := a) (i := .hbrel x g) (x := x.toNat) hc rfl hn
    exact ⟨fun h0 hr => unit_asks he hi hb h0 fun _ => hr, fun hs h0 => unit_leaves he hi hb h0 (k1 hs) (State.still_setHatbox _ _ _),
      fun hs h0 => unit_traps he hi hb h0 (k2 hs)⟩
  · have he := exec_hbstat z x g s
    obtain ⟨k, hb, k1⟩ := hbstatBody_asks (a := a) (i := .hbstat z x g) (d := z.toNat) (x := x.toNat) hc rfl hq hn
    exact ⟨fun h0 hr => unit_asks he hi hb h0 fun _ => hr, fun h0 => unit_lands he hi hb h0 k1 (State.Still.refl _)⟩
  · have he := exec_hbcfg z x g s
    obtain ⟨k, hb, k1⟩ := hbcfgBody_asks (a := a) (i := .hbcfg z x g) (d := z.toNat) (x := x.toNat) rfl hal
    refine ⟨fun h0 hr => unit_asks he hi hb h0 fun _ => hr, fun ws hw hok => ?_⟩
    obtain ⟨k2, k3, k4⟩ := k1 ws hw hok
    exact ⟨fun hu h0 => unit_lands he hi hb h0 (k2 (State.hbBusy_used hu)) (State.Still.refl _), fun hu hq h0 => unit_lands he hi hb h0 (k3 (State.hbBusy_idle hu) hq) (State.Still.refl _),
      fun hu hq hp h0 => unit_lands he hi hb h0 (k4 (State.hbBusy_idle hu) hq hp) ((State.unitWrote_hbZero _ _ _).still.trans (State.still_setHatbox _ _ _))⟩
  · intro hi dst dl c k hc hs hd hw hl1 hl2 hck ht hq hsb hr
    have hx := still_next hi (hbputBody_queues rfl rfl rfl rfl hc hs hd hw hl1 hl2 hck ht hq hsb hr) (State.still_queued _ _ _ _ _)
    exact hx
  · intro h hc hd ha k f
    exact ⟨fun hg ht => execHbTimeout_due hc hd ha hg ht, fun hg hk => execCombineWrite_due hc hd ha hg hk⟩
  · exact (execHbPutArrival_foreign he ha fun c hc => by rw [h1] at hc; cases hc).trans (congrArg _ (State.foreignPut_drops h2))
  · exact (execHbPutArrival_foreign he ha fun c' hc => by rw [h1] at hc; cases hc; exact hl).trans (congrArg _ (State.foreignPut_arrives h2))
  · intro n m hn ho u
    obtain ⟨k1, k2, k3⟩ := State.putArrive_cases (s := s.fresh) n m
    refine ⟨fun h c hh ha h1 h2 hl => ?_, fun h hh ha h1 h2 => ?_, fun hh => ?_⟩
    · exact (execHbPutArrival_queued hn (State.putFree_home hh ha fun c' hc => by rw [h1] at hc; cases hc; exact hl) ho).trans (congrArg _ (k1 h c hh h2))
    · exact (execHbPutArrival_queued hn (State.putFree_home hh ha fun c' hc => by rw [h1] at hc; cases hc) ho).trans (congrArg _ (k2 h hh h2))
    · obtain ⟨bad, hb⟩ := k3 hh
      exact ⟨bad, (execHbPutArrival_queued hn (State.putFree_foreign hh) ho).trans (congrArg _ hb)⟩

end Sys2Proof.Machine
end

section
/-! PROOFS. The parameter-record and gossip instructions (R356, R365 to R367). -/

namespace Sys2Proof.Machine

variable {s a : State}

section
variable {i : Instr} {d x y : Nat}

theorem State.classForm_enters {kind : CopyKind} {arg bytes n at_ sp : Nat} {wr : Bool} (h1 : (a.rx y 2).toNat = n) (h2 : (a.rx x 1).toNat = at_) (h3 : (a.rx d).toNat = sp)
    (hn1 : 1 ≤ n) (hn2 : n ≤ 4096) (ha : aligned at_ 256 = true) (hs : aligned sp 4 = true) (hc : a.myCore.spCheck sp (bytes * n) wr = .ok ())
    (hq : a.myCore.copyq.length < Config.copyQueueSize) (hsb : a.myCore.sb.length + 1 ≤ Config.scoreboardSize)
    (hr : a.sectorsReady a.cur.die a.cur.core sp (bytes * n) wr (a.myCore.mapped sp (bytes * n)) = .ok ()) :
    a.classForm kind arg bytes wr d x y = .ok (a.setMyCore (a.queued { num := 0, kind := kind, dst := BitVec.ofNat 64 at_, src := BitVec.ofNat 64 sp, n0 := bytes, n1 := n, ssp := true }
      sp (bytes * n) wr)) := by
  unfold State.classForm
  dsimp only
  rw [h1, h2, h3, need_ok (by rw [decide_eq_true hn1, decide_eq_true hn2]; rfl), bind_ok, need_ok ha, bind_ok, need_ok hs, bind_ok, hc]
  exact State.queueEntry_enters hq hsb hr

/-- A record's UPD. -/
def State.updOf (a : State) (q : Phys) : BitVec 32 := BitVec.ofNat 32 (laneAt (a.unitLanes q.key) 3)

/-- How far UPD is ahead of the operand. -/
def State.updAhead (a : State) (q : Phys) (y : Nat) : Int := (a.updOf q - BitVec.ofNat 32 (a.rx y 1).toNat).toInt

theorem prsyncBody_lands {q : Phys} (ha : aligned (a.rx x).toNat 256 = true) (hq : a.unitPlace false a.myCtx 1 (a.rx x).toNat 256 false = .ok q) (hp : 0 ≤ a.updAhead q y) :
    prsyncBody d x y a = .ok (a.landX d (BitVec.ofNat 64 (a.updOf q).toNat) 1) := by
  unfold prsyncBody
  dsimp only
  rw [need_ok ha, bind_ok, hq]
  simp only [liftTrap, bind_ok]
  exact (congrArg (· >>= _) (await_ok (decide_eq_true hp) a)).trans rfl

theorem prsyncBody_waits {q : Phys} (ha : aligned (a.rx x).toNat 256 = true) (hq : a.unitPlace false a.myCtx 1 (a.rx x).toNat 256 false = .ok q) (hp : a.updAhead q y < 0) :
    prsyncBody d x y a = .error (.wait a) := by
  unfold prsyncBody
  dsimp only
  rw [need_ok ha, bind_ok, hq]
  simp only [liftTrap, bind_ok]
  exact (congrArg (· >>= _) (await_no (decide_eq_false (Int.not_le.2 hp)) a)).trans rfl

theorem prruleBody_asks {b n : Nat} (h1 : (a.rx x).toNat = b) (h2 : (a.rx y 1).toNat = n) (ha : aligned b 32 = true) (hn : n ≤ 15) :
    ∃ k, prruleBody i d x y a = a.unitAsk i b >>= k ∧ ∀ ws, a.unitWords i b b 20 = .ok ws →
      (∀ o, ruleBad (ruleOf ws).nops (fun k => ((ruleOf ws).words.getD k 0).toNat) = some o →
        k () = .error (.trap { cls := 2, sub := 0x31, addr := BitVec.ofNat 64 (b + o) })) ∧
      (ruleBad (ruleOf ws).nops (fun k => ((ruleOf ws).words.getD k 0).toNat) = none →
        (a.ruleRoom a.cur.die a.myCtx = true → k () = .ok ((a.setCtx ((a.ctxAt a.myCtx).setRule n (ruleOf ws))).landX d 0 1)) ∧
        (a.ruleRoom a.cur.die a.myCtx = false → k () = .ok (a.landX d 1 1))) := by
  unfold prruleBody
  dsimp only
  rw [h1, h2, need_ok ha, bind_ok, need_ok (decide_eq_true hn), bind_ok]
  refine ⟨_, rfl, fun ws hw => ?_⟩
  rw [hw, bind_ok]
  refine ⟨fun o ho => ?_, fun ho => ⟨fun hr => ?_, fun hr => ?_⟩⟩
  · rw [ho]
    rfl
  · rw [ho]
    exact if_pos hr
  · rw [ho]
    exact if_neg (ne_true_of_eq_false hr)

theorem gspreadBody_asks {p w b : Nat} (h1 : (a.rx y 1).toNat = w) (h2 : (a.rx x).toNat = b) (hw : w / 2 ^ 48 = 0) (hn : bits w 32 16 ≠ 0)
    (hb : boundOk (bits w 0 32) = true) (ha : aligned b 256 = true) :
    ∃ k, gspreadBody i p x y a = a.unitAsk i b false >>= k ∧ k () = .ok (a.landP p (a.spread a.myCtx b (bits w 32 16) (bits w 0 32)) 1) := by
  unfold gspreadBody
  dsimp only
  rw [h1, h2, need_ok (by rw [decide_eq_true hw, decide_eq_true hn, hb, ha]; rfl), bind_ok]
  exact ⟨_, rfl, rfl⟩

/-- A line of a region at a unit's place. -/
theorem State.gossipAt_line {va n : Nat} {q : Phys} {h : Gossip} (hq : a.unitPlace false a.myCtx 2 va 256 false = .ok q)
    (hh : (a.ctxAt (a.ctxOfPlace a.myCtx q)).gossip = some h) (hl : h.lineAt (if q.slot.isSome then q.va else va) = some n) : a.gossipAt va = .ok (some (h, n), q) := by
  unfold State.gossipAt
  rw [hq]
  simp only [liftTrap, bind_ok, hh]
  rw [Option.bind_some, hl]
  rfl

/-- Two registers landed in turn, the last one first. -/
theorem State.regs_landTwo_last (s : State) (d l m : Nat) (v w : Word) :
    s.Regs ((s.landX d v l).landX (d + 1) w m) (fun r => if r = d + 1 then some w else if r = d then some v else none) := by
  have hswap : (fun r => if r = d then some v else if r = d + 1 then some w else none) = fun r => if r = d + 1 then some w else if r = d then some v else none := by
    funext r
    by_cases h : r = d
    · rw [if_pos h, if_neg (by omega), if_pos h]
    · rw [if_neg h, if_neg h]
  exact hswap ▸ s.regs_landTwo d l m v w

theorem gmassBody_asks {b : Nat} (h1 : (a.rx x).toNat = b) (ha : aligned b 256 = true) :
    ∃ k, gmassBody i d x a = a.unitAsk i b false >>= k ∧ ∀ q h n, a.gossipAt b = .ok (some (h, n), q) →
      k () = .ok ((a.landX d (BitVec.ofNat 64 ((lineK h (a.unitLanes q.key)).getD (a.freeNat 0))) 1).landX (d + 1) (BitVec.ofNat 64 (((h.line n).out.map (·.ks)).getD 0)) 1) := by
  unfold gmassBody
  dsimp only
  rw [h1, need_ok ha, bind_ok]
  refine ⟨_, rfl, fun q h n hg => ?_⟩
  rw [hg, bind_ok]
  cases ho : (h.line n).out <;> dsimp only <;> rw [ho] <;> rfl

/-- Whether the context has a region with a half outstanding. -/
def State.gossipBusy (a : State) : Bool :=
  match (a.ctxAt a.myCtx).gossip with
  | some o => o.busy
  | none => false

theorem State.gossipBusy_some (h : ∃ o, (a.ctxAt a.myCtx).gossip = some o ∧ o.busy = true) : a.gossipBusy = true := by
  obtain ⟨o, h1, h2⟩ := h
  unfold State.gossipBusy
  rw [h1]
  exact h2

theorem State.gossipBusy_none (h : ∀ o, (a.ctxAt a.myCtx).gossip = some o → o.busy = false) : a.gossipBusy = false := by
  unfold State.gossipBusy
  split
  case h_1 o ho => exact h o ho
  case h_2 => rfl

theorem gcfgBody_asks {b : Nat} (h1 : (a.rx x).toNat = b) (ha : aligned b 64 = true) :
    ∃ k, gcfgBody i d x a = a.unitAsk i b >>= k ∧ ∀ ws, a.unitWords i b b 8 = .ok ws → gcfgOk (fun k => ws.getD k 0) = true →
      (∀ j, j < 12 → (gossipOf (fun k => ws.getD k 0)).ports.getLsbD j = true → (a.portAt j).up = true) →
      (a.gossipBusy = true → k () = .ok (a.landX d 1 1)) ∧
      (a.gossipBusy = false → a.pagesCheck a.myCtx 2 (pagesOf (gossipOf (fun k => ws.getD k 0)).region.toNat (256 * (gossipOf (fun k => ws.getD k 0)).nlines)) = .ok () →
        k () = .ok ((a.setCtx { a.ctxAt a.myCtx with gossip := if (gossipOf (fun k => ws.getD k 0)).nlines = 0 then none else some (gossipOf (fun k => ws.getD k 0)) }).landX d 0 1)) := by
  unfold gcfgBody
  dsimp only
  rw [h1, need_ok ha, bind_ok]
  refine ⟨_, rfl, fun ws hw hok hp => ?_⟩
  have hall : (upto 0 12).all (fun p => !(gossipOf (fun k => ws.getD k 0)).ports.getLsbD p || (a.portAt p).up) = true := by
    refine List.all_eq_true.2 fun j hj => ?_
    have hj : j < 12 := by simpa using ((mem_upto 0 12 j).1 hj).2
    cases hb : (gossipOf (fun k => ws.getD k 0)).ports.getLsbD j
    · rfl
    · rw [hp j hj hb]
      rfl
  rw [hw, bind_ok, need_ok (by rw [hok, hall]; rfl), bind_ok]
  change (a.gossipBusy = true → (if a.gossipBusy = true then _ else _) = _) ∧ (_ → _ → (if a.gossipBusy = true then _ else _) = _)
  refine ⟨fun hb => if_pos hb, fun hb hc => ?_⟩
  rw [if_neg (ne_true_of_eq_false hb), hc]
  rfl

end

/-- Settles O45: the queued forms by `classForm`, `prsync` by its read, the others by their request and reply. The value that `gmass` lands for a line
which breaks the weight quantum is free (logs 7 and 39). -/
theorem classInstructionsAct : Obligations.ClassInstructionsAct := by
  intro s d x y p g a rx cx asks lands enters
  have henters : ∀ (i : Instr) (feature bytes arg : Nat) (eff wr : Bool) (kind : CopyKind),
      exec i s = issue s (classX feature eff d x y g s) (fun s => s.classForm kind arg bytes wr d.toNat x.toNat y.toNat) → enters i feature bytes eff wr kind := by
    intro i feature bytes arg eff wr kind he hi hn1 hn2 hal hsp hck hq hsb hr
    have hx := still_next (body := fun s => s.classForm kind arg bytes wr d.toNat x.toNat y.toNat) hi
      (State.classForm_enters (a := a) rfl rfl rfl hn1 hn2 hal hsp hck hq hsb hr) (State.still_queued _ _ _ _ _)
    exact he ▸ hx
  refine ⟨henters _ _ _ _ _ _ _ rfl, henters _ _ _ _ _ _ _ rfl, henters _ _ _ _ _ _ _ rfl, henters _ _ _ _ _ _ _ rfl, ?_, fun hi hal hn => ?_, ?_, fun hi hal => ?_, fun hi hal => ?_⟩
  · intro hi q hal hq upd ahead
    exact ⟨fun hp => still_landX hi (prsyncBody_lands (a := a) hal hq hp) (State.Still.refl _),
      fun hp => issue_wait (State.issues_iff.1 hi).1 (prsyncBody_waits (a := a) hal hq hp)⟩
  · have he := exec_prrule d x y g s
    obtain ⟨k, hb, k1⟩ := prruleBody_asks (a := a) (i := .prrule d x y g) (d := d.toNat) (x := x.toNat) (y := y.toNat) rfl rfl hal hn
    refine ⟨fun h0 hr => unit_asks he hi hb h0 hr, fun h0 ws hw => ?_⟩
    obtain ⟨k2, k3⟩ := k1 ws hw
    exact ⟨fun o ho => unit_traps he hi hb h0 (k2 o ho), fun ho => ⟨fun hr => unit_lands he hi hb h0 ((k3 ho).1 hr) (State.still_setCtx _ _),
      fun hr => unit_lands he hi hb h0 ((k3 ho).2 hr) (State.Still.refl _)⟩⟩
  · intro hi w hw hn hbd hal
    have he := exec_gspread p x y g s
    obtain ⟨k, hb, k1⟩ := gspreadBody_asks (a := a) (i := .gspread p x y g) (p := p.toNat) (x := x.toNat) (y := y.toNat) rfl rfl hw hn hbd hal
    exact ⟨fun h0 hr => unit_asks he hi hb h0 hr, fun h0 => landP_next hi rfl p.isLt (by rw [hb, State.unitAsk_replied h0]; exact k1)⟩
  · have he := exec_gmass d x g s
    obtain ⟨k, hb, k1⟩ := gmassBody_asks (a := a) (i := .gmass d x g) (d := d.toNat) (x := x.toNat) rfl hal
    refine ⟨fun h0 hr => unit_asks he hi hb h0 hr, fun h0 q hq => ?_⟩
    intro at_ h n hh hl
    have hk := k1 q h n (State.gossipAt_line hq hh hl)
    have hlands := (a.lands_landX d.toNat (BitVec.ofNat 64 ((lineK h (a.unitLanes q.key)).getD (a.freeNat 0))) 1).trans
      (State.lands_landX _ (d.toNat + 1) (BitVec.ofNat 64 (((h.line n).out.map (·.ks)).getD 0)) 1)
    obtain ⟨t, h1, h2, h3⟩ := endsAs_next (v := a) (body := gmassBody (.gmass d x g) d.toNat x.toNat) hi rfl (Engine.StaysAt.refl _) hlands (by rw [hb, State.unitAsk_replied h0]; exact hk)
    refine ⟨t, h1, h2, fun r => ?_⟩
    rw [h3]
    exact State.regs_landTwo_last a d.toNat 1 1 _ _ r
  · have he := exec_gcfg d x g s
    obtain ⟨k, hb, k1⟩ := gcfgBody_asks (a := a) (i := .gcfg d x g) (d := d.toNat) (x := x.toNat) rfl hal
    refine ⟨fun h0 hr => unit_asks he hi hb h0 hr, fun h0 ws hw hok => ?_⟩
    intro h hp
    obtain ⟨k2, k3⟩ := k1 ws hw hok hp
    exact ⟨fun hu => unit_lands he hi hb h0 (k2 (State.gossipBusy_some hu)) (State.Still.refl _),
      fun hu hc => unit_lands he hi hb h0 (k3 (State.gossipBusy_none hu) hc) (State.still_setCtx _ _)⟩

end Sys2Proof.Machine
end

section
/-! PROOFS. Units at their home: contributions, updates, deposits, and the failure and retraining of a port (R306, R353, R354, R362, R365, R366). -/

namespace Sys2Proof.Machine

variable {s : State}

/-! ### Units from a queue and from another package -/

/-- A unit at the place n of the queue whose turn it is. -/
theorem State.unitDue_first {n : Nat} {m : UnitMsg} (hf : s.unitFree m = true)
    (ho : ∀ q ∈ s.units.take n, q.die = m.die → q.home = m.home → s.unitFree q = false) : s.unitDue n m = true := by
  have hall : (s.units.take n).all (fun x => !(decide (x.die = m.die) && decide (x.home = m.home) && s.unitFree x)) = true := by
    refine List.all_eq_true.2 fun q hq => ?_
    by_cases h1 : q.die = m.die
    · by_cases h2 : q.home = m.home
      · rw [ho q hq h1 h2, Bool.and_false]
        rfl
      · rw [decide_eq_false h2, Bool.and_false]
        rfl
    · rw [decide_eq_false h1]
      rfl
  unfold State.unitDue
  rw [hf, hall]
  rfl

theorem State.unitFree_foreign {m : UnitMsg} (hh : m.home = none) : s.unitFree m = true := by
  unfold State.unitFree
  rw [hh]

theorem State.unitFree_deposit {m : UnitMsg} {h : Nat} (hh : m.home = some h) (ha : s.dieAway h = false) (hg : m.grad = false) : s.unitFree m = true := by
  unfold State.unitFree
  rw [hh]
  dsimp only
  rw [ha, hg]
  rfl

theorem State.unitFree_grad {m : UnitMsg} {h : Nat} (hh : m.home = some h) (ha : s.dieAway h = false)
    (hu : ∀ c p, s.unitHome true m.exp m.va = some (c, p) → s.updating p.key = false) : s.unitFree m = true := by
  unfold State.unitFree
  rw [hh]
  dsimp only
  rw [ha]
  cases hp : s.unitHome true m.exp m.va with
  | none => simp
  | some q => simp [hu q.1 q.2 hp]

theorem State.foreignUnitDue_at {grad : Bool} {exp va : Nat} {e : ExportEnt} (he : s.exportOf exp = some e) (ha : s.dieAway e.die = false)
    (hu : grad = true → ∀ c p, s.unitHome grad exp va = some (c, p) → s.updating p.key = false) : s.foreignUnitDue grad exp va = true := by
  unfold State.foreignUnitDue
  rw [he]
  dsimp only
  rw [ha]
  cases hp : s.unitHome grad exp va with
  | none => rfl
  | some q =>
    cases grad
    · rfl
    · simp [hu rfl q.1 q.2 hp]

theorem State.dropUnit_home {m : UnitMsg} {h : Nat} (hh : m.home = some h) :
    s.dropUnit m = (s.revokeImport (s.ctxOf m.die m.core) m.slot).ackItem h m.die m.core m.pid true := by
  unfold State.dropUnit State.ackUnit
  rw [hh]
  rfl

theorem State.ackUnit_home {m : UnitMsg} {h : Nat} (hh : m.home = some h) (b : Bool) : s.ackUnit m b = s.ackItem h m.die m.core m.pid b := by
  unfold State.ackUnit
  rw [hh]
  rfl

/-- What another package answers is not known. -/
theorem State.foreignAnswer_either {m : UnitMsg} (hh : m.home = none) : ∃ bad : Bool, s.foreignAnswer m =
    if bad then (s.revokeImport (s.ctxOf m.die m.core) m.slot).ackItem 4 m.die m.core m.pid true else s.ackItem 4 m.die m.core m.pid false := by
  unfold State.foreignAnswer State.dropUnit State.ackUnit
  rw [hh]
  exact ⟨decide (s.freeNat 0 % 2 = 1), by simp only [decide_eq_true_eq]; rfl⟩

/-! ### Contributions and updates -/

theorem execPrArrival_queued {n : Nat} {m : UnitMsg} (hn : s.units[n]? = some m) (hg : m.grad = true) (hd : s.unitDue n m = true) :
    execPrArrival (.queued n) s = .next (s.fresh.prPosted n m) := by
  unfold execPrArrival
  dsimp only
  rw [hn]
  exact event_due (by rw [hg, hd]; rfl) _

theorem execPrArrival_foreign {exp va : Word} {data : List Lane} (hd : s.foreignUnitDue true exp.toNat va.toNat = true) :
    execPrArrival (.foreign exp va data) s = .next (s.fresh.foreignGrad exp.toNat va.toNat data) := by
  unfold execPrArrival
  exact event_due hd _

theorem State.prPosted_drops {n : Nat} {m : UnitMsg} {h : Nat} (hh : m.home = some h) (hu : ({ s with units := dropNth s.units n } : State).unitHome true m.exp m.va = none) :
    s.prPosted n m = ({ s with units := dropNth s.units n } : State).dropUnit m := by
  unfold State.prPosted
  dsimp only
  rw [if_neg (by simp [hh]), hu]

theorem State.prPosted_adds {n : Nat} {m : UnitMsg} {h c : Nat} {p : Phys} (hh : m.home = some h)
    (hu : ({ s with units := dropNth s.units n } : State).unitHome true m.exp m.va = some (c, p)) :
    s.prPosted n m = (({ s with units := dropNth s.units n } : State).prArrive c p m.data).ackUnit m false := by
  unfold State.prPosted
  dsimp only
  rw [if_neg (by simp [hh]), hu]

theorem State.prPosted_foreign {n : Nat} {m : UnitMsg} (hh : m.home = none) : s.prPosted n m = ({ s with units := dropNth s.units n } : State).foreignAnswer m := by
  unfold State.prPosted
  rw [hh]
  rfl

/-- A contribution that leaves its step open. -/
theorem State.prArrive_open {c : Nat} {p : Phys} {g : List Lane} (h : recFull (recArrive g (s.unitLanes p.key)) = false) :
    s.prArrive c p g = s.putUnit p (recArrive g (s.unitLanes p.key)) := by
  unfold State.prArrive State.awaitUpdate
  dsimp only
  rw [if_neg (ne_true_of_eq_false h)]

/-- A contribution that completes its step opens an update. -/
theorem State.prArrive_full {c : Nat} {p : Phys} {g : List Lane} (h : recFull (recArrive g (s.unitLanes p.key)) = true) :
    s.prArrive c p g = { s.putUnit p (recArrive g (s.unitLanes p.key)) with updates := (s.putUnit p (recArrive g (s.unitLanes p.key))).updates ++
      [⟨p.key, if recBad (recArrive g (s.unitLanes p.key)) then none
        else ((s.putUnit p (recArrive g (s.unitLanes p.key))).ctxAt c).rule (laneAt (recArrive g (s.unitLanes p.key)) 0 / 2 ^ 28), p.keyNo⟩] } := by
  unfold State.prArrive State.awaitUpdate
  dsimp only
  rw [if_pos h]

theorem execPrUpdate_runs {r : Nat} {w : Update} (h : s.updates.find? (fun u => u.key = r) = some w) : execPrUpdate r s = .next (s.fresh.prUpdate w) := by
  unfold execPrUpdate
  rw [h]
  exact event_due rfl _

theorem contributions_act (s : State) (n : Nat) (m : UnitMsg) (exp va : Word) (data : List Lane) :
    let u : State := { s.fresh with units := dropNth s.units n }
    let first := fun (h : Option Nat) => ∀ q ∈ s.units.take n, q.die = m.die → q.home = h → s.unitFree q = false
    (∀ h, s.units[n]? = some m → m.grad = true → m.home = some h → s.dieAway h = false → first (some h) →
      (s.unitHome true m.exp m.va = none → u.unitHome true m.exp m.va = none →
        execPrArrival (.queued n) s = .next ((u.revokeImport (u.ctxOf m.die m.core) m.slot).ackItem h m.die m.core m.pid true)) ∧
      (∀ c p, s.unitHome true m.exp m.va = some (c, p) → u.unitHome true m.exp m.va = some (c, p) → s.updating p.key = false →
        execPrArrival (.queued n) s = .next ((u.prArrive c p m.data).ackItem h m.die m.core m.pid false))) ∧
    (s.units[n]? = some m → m.grad = true → m.home = none → first none → ∃ bad : Bool, execPrArrival (.queued n) s =
      .next (if bad then (u.revokeImport (u.ctxOf m.die m.core) m.slot).ackItem 4 m.die m.core m.pid true else u.ackItem 4 m.die m.core m.pid false)) ∧
    (∀ e, s.exportOf exp.toNat = some e → s.dieAway e.die = false →
      (s.unitHome true exp.toNat va.toNat = none → s.fresh.unitHome true exp.toNat va.toNat = none → execPrArrival (.foreign exp va data) s = .next s.fresh) ∧
      (∀ c p, s.unitHome true exp.toNat va.toNat = some (c, p) → s.fresh.unitHome true exp.toNat va.toNat = some (c, p) → s.updating p.key = false →
        execPrArrival (.foreign exp va data) s = .next (s.fresh.prArrive c p data))) := by
  intro u first
  refine ⟨fun h hn hg hh ha ho => ⟨fun h1 h2 => ?_, fun c p h1 h2 hu => ?_⟩, fun hn hg hh ho => ?_, fun e he ha => ⟨fun h1 h2 => ?_, fun c p h1 h2 hu => ?_⟩⟩
  · have hf : s.unitFree m = true := State.unitFree_grad hh ha fun c p hp => by rw [h1] at hp; cases hp
    refine (execPrArrival_queued hn hg (State.unitDue_first hf (hh ▸ ho))).trans (congrArg _ ?_)
    rw [State.prPosted_drops (s := s.fresh) hh h2, State.dropUnit_home hh]
    rfl
  · have hf : s.unitFree m = true := State.unitFree_grad hh ha fun c' p' hp => by rw [h1] at hp; cases hp; exact hu
    refine (execPrArrival_queued hn hg (State.unitDue_first hf (hh ▸ ho))).trans (congrArg _ ?_)
    rw [State.prPosted_adds (s := s.fresh) hh h2, State.ackUnit_home hh]
    rfl
  · obtain ⟨bad, hb⟩ := State.foreignAnswer_either (s := u) hh
    exact ⟨bad, (execPrArrival_queued hn hg (State.unitDue_first (State.unitFree_foreign hh) (hh ▸ ho))).trans
      (congrArg _ ((State.prPosted_foreign (s := s.fresh) hh).trans hb))⟩
  · refine (execPrArrival_foreign (State.foreignUnitDue_at he ha fun _ c p hp => by rw [h1] at hp; cases hp)).trans (congrArg _ ?_)
    unfold State.foreignGrad
    rw [h2]
  · refine (execPrArrival_foreign (State.foreignUnitDue_at he ha fun _ c' p' hp => by rw [h1] at hp; cases hp; exact hu)).trans (congrArg _ ?_)
    unfold State.foreignGrad
    rw [h2]

/-! ### Deposits and ports -/

theorem execDeposit_queued {n : Nat} {m : UnitMsg} (hn : s.units[n]? = some m) (hg : m.grad = false) (hd : s.unitDue n m = true) :
    execDeposit (.queued n) s = .next (s.fresh.depPosted n m) := by
  unfold execDeposit
  dsimp only
  rw [hn]
  exact event_due (by rw [hg, hd]; rfl) _

theorem execDeposit_foreign {exp va : Word} {data : List Lane} (hd : s.foreignUnitDue false exp.toNat va.toNat = true) :
    execDeposit (.foreign exp va data) s = .next (s.fresh.foreignDep exp.toNat va.toNat data) := by
  unfold execDeposit
  exact event_due hd _

/-- A posted deposit at its home: dropped where its place or its line's check fails, added otherwise. -/
theorem State.depPosted_cases {n h : Nat} {m : UnitMsg} (hh : m.home = some h) :
    let u : State := { s with units := dropNth s.units n }
    (u.unitHome false m.exp m.va = none → s.depPosted n m = u.dropUnit m) ∧
    (∀ c p, u.unitHome false m.exp m.va = some (c, p) → u.depositLanes c m.va (u.unitLanes p.key) m.data = none → s.depPosted n m = u.dropUnit m) ∧
    (∀ c p ls, u.unitHome false m.exp m.va = some (c, p) → u.depositLanes c m.va (u.unitLanes p.key) m.data = some ls → s.depPosted n m = (u.putUnit p ls).ackUnit m false) := by
  intro u
  unfold State.depPosted
  dsimp only
  rw [if_neg (by simp [hh])]
  refine ⟨fun h1 => ?_, fun c p h1 h2 => ?_, fun c p ls h1 h2 => ?_⟩
  · rw [h1]
  · rw [h1]
    dsimp only
    rw [h2]
  · rw [h1]
    dsimp only
    rw [h2]

theorem execZynothPortFail_due {port : Nat} (h12 : port < 12) (hu : (s.portAt port).up = true) : execZynothPortFail port s = .next (s.fresh.portFail port) :=
  event_due (by rw [decide_eq_true h12, hu]; rfl) _

theorem State.portFail_portAt (s : State) (port : Nat) : (s.portFail port).portAt port = { s.portAt port with up := false, failed := true } := by
  unfold State.portFail State.portAt State.setPort
  dsimp only
  rw [tGet_tSet_same]

theorem execZynothPortRetrain_due {port : Nat} {applied : BitVec 32} (h12 : port < 12) (hf : (s.portAt port).failed = true) :
    execZynothPortRetrain port applied s = .next (s.fresh.portRetrain port applied) := event_due (by rw [decide_eq_true h12, hf]; rfl) _

/-- Settles O46: contributions by their place and what they complete, updates, ports and deposits by their steps. -/
theorem parameterAndPortEvents : Obligations.ParameterAndPortEvents := by
  refine ⟨fun s n m exp va data => ?_, fun s port n applied m exp va data => ?_⟩
  · intro u first
    obtain ⟨k1, k2, k3⟩ := contributions_act s n m exp va data
    refine ⟨fun h hn hg hh ha ho => ⟨(k1 h hn hg hh ha ho).1, fun c p h1 h2 hu => ?_⟩, k2, k3, fun r w hw => execPrUpdate_runs hw⟩
    intro ls v
    have hx := (k1 h hn hg hh ha ho).2 c p h1 h2 hu
    exact ⟨fun hf => hx.trans (congrArg (fun z : State => Host.Outcome.next (z.ackItem h m.die m.core m.pid false)) (State.prArrive_open hf)),
      fun hf => hx.trans (congrArg (fun z : State => Host.Outcome.next (z.ackItem h m.die m.core m.pid false)) (State.prArrive_full hf))⟩
  · intro f q u drop
    refine ⟨fun h12 hup => ⟨_, execZynothPortFail_due h12 hup, State.portFail_portAt _ _, rfl, rfl⟩,
      fun h12 hf => execZynothPortRetrain_due h12 hf, fun h hn hg hh ha ho => ?_, fun e he ha => ?_⟩
    · have hx := execDeposit_queued hn hg (State.unitDue_first (State.unitFree_deposit hh ha hg) (hh ▸ ho))
      obtain ⟨k1, k2, k3⟩ := State.depPosted_cases (s := s.fresh) (n := n) hh
      exact ⟨fun h1 => hx.trans (congrArg _ ((k1 h1).trans (State.dropUnit_home hh))), fun c p h1 h2 => hx.trans (congrArg _ ((k2 c p h1 h2).trans (State.dropUnit_home hh))),
        fun c p ls h1 h2 => hx.trans (congrArg _ ((k3 c p ls h1 h2).trans (State.ackUnit_home hh _)))⟩
    · have hx := execDeposit_foreign (data := data) (State.foreignUnitDue_at (va := va.toNat) he ha fun h => by cases h)
      refine ⟨fun h1 => hx.trans (congrArg _ ?_), fun c p ls h1 h2 => hx.trans (congrArg _ ?_)⟩
      · unfold State.foreignDep
        rw [h1]
      · unfold State.foreignDep
        rw [h1]
        dsimp only
        rw [h2]

end Sys2Proof.Machine
end

section
/-! PROOFS. Halves: their split, merging, answers and retransmission (R360, R361). -/

namespace Sys2Proof.Machine

variable {s : State}

/-! ### Halving -/

theorem execHalving_due {ctx n : Nat} {g : Gossip} (hg : (s.ctxAt ctx).gossip = some g) (hn : n < g.nlines) (hx : n = g.next) (ha : s.dieAway (s.ctxAt ctx).die = false)
    (hf : ∀ v, s.halvable ctx g n = some v → s.farOut (v.2.1 / 6) < 4096) : execHalving ctx n s = .next (s.fresh.halve ctx g n) := by
  unfold execHalving
  rw [hg]
  refine event_due ?_ _
  rw [decide_eq_true hn, decide_eq_true hx, ha]
  cases hv : s.halvable ctx g n with
  | none => rfl
  | some v => exact decide_eq_true (hf v hv)

theorem State.halvable_ready {ctx n port k : Nat} {g : Gossip} {p : Phys} (ho : (g.line n).out = none) (hp : s.periodOver g (g.line n) = true)
    (hl : s.linePlace ctx g n = some p) (hn : s.nextPort g (g.line n).lastPort = some port) (hk : lineK g (s.unitLanes p.key) = some k) (h2 : 2 ≤ k) :
    s.halvable ctx g n = some (p, port, k) := by
  unfold State.halvable
  dsimp only
  rw [if_neg (by simp [ho, hp]), hl, hn]
  dsimp only
  rw [hk]
  exact if_neg (by omega)

theorem State.halve_skips {ctx n : Nat} {g : Gossip} (h : s.halvable ctx g n = none) : s.halve ctx g n = s.setGossip ctx { g with next := (n + 1) % g.nlines } := by
  unfold State.halve
  rw [h]

theorem State.halve_splits {ctx n port k : Nat} {g : Gossip} {p : Phys} (h : s.halvable ctx g n = some (p, port, k)) :
    s.halve ctx g n = s.split ctx { g with next := (n + 1) % g.nlines } n p port k := by
  unfold State.halve
  rw [h]

theorem State.unitWrote_putUnit (s : State) (p : Phys) (ls : List Lane) : s.UnitWrote (s.putUnit p ls) := s.unitWrote_devWrite p (laneBytes ls)

/-- A half sent from a state that differs from s by the writing of a unit. -/
theorem State.UnitWrote.sendHalf {v : State} (h : s.UnitWrote v) (ctx : Nat) (g : Gossip) (n port : Nat) (half : List Lane) (ks : Nat) :
    (v.sendHalf ctx g n port half ks).halves = s.halves ++ [(port, ⟨g.regId, n, (s.portAt port).seq, half, ks⟩)] ∧
    (v.sendHalf ctx g n port half ks).ports = tSet {} s.ports port { s.portAt port with seq := (s.portAt port).seq + 1 } ∧
    (v.sendHalf ctx g n port half ks).ctxs = (s.setGossip ctx (g.setLine n
      { out := some { port := port, seq := (s.portAt port).seq, s := half, ks := ks, sent := s.now }, lastPort := some port, lastAt := some s.now })).ctxs ∧
    (v.sendHalf ctx g n port half ks).mem = v.mem := by
  obtain ⟨m, k, c, l, rfl⟩ := h.shape
  exact ⟨rfl, rfl, rfl, rfl⟩

/-! ### Merging -/

theorem execHalfMerge_due {port : Nat} {h : HalfMsg} (h12 : port < 12) (hu : (s.portAt port).up = true) : execHalfMerge port h s = .next (s.fresh.mergeHalf port h) :=
  event_due (by rw [decide_eq_true h12, hu]; rfl) _

theorem State.mergeHalf_again {port : Nat} {h : HalfMsg} (hh : (s.portAt port).has h.seq = true) : s.mergeHalf port h = s.reply port true h.seq := if_pos hh

theorem State.mergeHalf_stale {port : Nat} {h : HalfMsg} (hh : (s.portAt port).has h.seq = false) (hs : (s.portAt port).stale h.seq = true) :
    s.mergeHalf port h = s.reply port false h.seq := by
  unfold State.mergeHalf
  dsimp only
  rw [if_neg (ne_true_of_eq_false hh), if_pos hs]

theorem State.mergeHalf_adds {port c k : Nat} {h : HalfMsg} {r : Gossip} {p : Phys} (hh : (s.portAt port).has h.seq = false) (hs : (s.portAt port).stale h.seq = false)
    (hr : s.regionOf h.regId port = some (c, r)) (hn : h.line < r.nlines) (hp : s.linePlace c r h.line = some p) (hk : lineK r (s.unitLanes p.key) = some k) (hm : k + h.ks ≤ kMax) :
    s.mergeHalf port h = (((s.putUnit p (mergeLanes r (s.unitLanes p.key) h.s (k + h.ks))).setGossip c
      { r with delta := tSet 0x7F800000#32 r.delta (h.line * 12 + port) (BitVec.ofNat 32 (mergeDelta r.wq k h.ks (s.unitLanes p.key) h.s)) }).setPort port
        { s.portAt port with applied := (s.portAt port).applied ++ [h.seq] }).reply port true h.seq := by
  unfold State.mergeHalf
  dsimp only
  rw [if_neg (ne_true_of_eq_false hh), if_neg (ne_true_of_eq_false hs), hr]
  dsimp only
  rw [if_neg (Nat.not_le.2 hn), hp]
  dsimp only
  rw [hk]
  exact if_neg (Nat.not_lt.2 hm)

/-! ### Answers and retransmission -/

/-- The halves in flight that an answer of a port with a number is for. -/
def State.answered (s : State) (port : Nat) (seq : BitVec 32) : List (Nat × Nat) := s.outOn (fun o => o.port = port && o.seq = seq && !o.doubt)

theorem execHalfApplied_due {port : Nat} {seq : BitVec 32} (hu : (s.portAt port).up = true) :
    execHalfApplied port seq s = .next ((s.fresh.answered port seq).foldl (fun s q => s.dropHalf q.1 q.2) s.fresh) := event_due hu _

theorem execHalfRefused_due {port : Nat} {seq : BitVec 32} (hu : (s.portAt port).up = true) :
    execHalfRefused port seq s = .next ((s.fresh.answered port seq).foldl (fun s q => s.restoreHalf q.1 q.2) s.fresh) := event_due hu _

theorem execHalfRetransmit_due {ctx n : Nat} {g : Gossip} {o : OutHalf} (hg : (s.ctxAt ctx).gossip = some g) (ho : (g.line n).out = some o) (hd : o.doubt = false)
    (hu : (s.portAt o.port).up = true) (ht : g.tack * Config.clkPerUs ≤ s.now - o.sent) : execHalfRetransmit ctx n s = .next (s.fresh.resend ctx g n o) := by
  unfold execHalfRetransmit
  rw [hg]
  dsimp only
  rw [ho]
  exact event_due (by rw [hd, hu, decide_eq_true ht]; rfl) _

/-- Settles O47: a line's visit by whether it may be halved, a half's merge by its number and place, the answers and the retransmission by their steps. -/
theorem halvesTravel : Obligations.HalvesTravel := by
  intro s ctx n port g h seq f q g1
  refine ⟨fun hg hn hx ha hf => ⟨fun hv => (execHalving_due hg hn hx ha hf).trans (congrArg _ (State.halve_skips hv)), fun p k ho hp hl hnp hk h2 => ?_⟩,
    fun h12 hu => ⟨fun hh => (execHalfMerge_due h12 hu).trans (congrArg _ (State.mergeHalf_again hh)),
      fun hh hs => (execHalfMerge_due h12 hu).trans (congrArg _ (State.mergeHalf_stale hh hs)),
      fun hh hs c r p k hr hln hp hk hm => (execHalfMerge_due h12 hu).trans (congrArg _ (State.mergeHalf_adds hh hs hr hln hp hk hm))⟩,
    fun hu => ⟨execHalfApplied_due hu, execHalfRefused_due hu⟩, fun o hg ho hd hu ht => execHalfRetransmit_due hg ho hd hu ht⟩
  intro ls half kept
  refine ⟨_, (execHalving_due hg hn hx ha hf).trans (congrArg _ (State.halve_splits (State.halvable_ready ho hp hl hnp hk h2))), ?_⟩
  exact (f.unitWrote_putUnit p (kept ++ [BitVec.ofNat 32 (wOf g.wq (k - k / 2))])).sendHalf ctx g1 n port half (k / 2)

end Sys2Proof.Machine
end

section

/-! PROOFS. `tlaunch`, `tdone` and `tsignal` (R264, R265). -/

namespace Sys2Proof.Machine

section

variable {a : State}

theorem State.still_setGraph (s : State) (g : Graph) : s.Still (s.setGraph g) := State.still_of rfl rfl

theorem State.still_setQueue (s : State) (die q : Nat) (x : Queue) : s.Still (s.setQueue die q x) := State.still_of rfl rfl

/-! ### `tlaunch` -/

theorem State.still_submit (s : State) (q desc : Nat) (n : Option Nat) : s.Still (s.submit q desc n) :=
  (s.unitWrote_vwrite _ _ _ _).still.trans (State.still_setQueue _ _ _ _)

/-- What the body does once it knows the count that goes with the entry: none with no place for one, else the word of its place. -/
def launchEntry (i : Instr) (d desc : Nat) (s : State) (r : Option Nat × State) : Res State := do
  need (decide (r.1.getD 0 ≤ 65535)) clsUse subLAUNCH
  let w ← r.2.globalLoad i desc (desc + 8) 8 none
  let q := bits (bytesToNat w.1) 36 6
  need (match s.queueCtx s.cur.die q with
    | some c => c.id = s.myCtx
    | none => false) clsUse subLAUNCH
  let x := s.queueAt s.cur.die q
  pure ((r.2.submit q desc r.1).landX d (BitVec.ofNat 64 (q * 2 ^ 48 + x.tail.toNat % x.entries)) 1)

/-- The count a `tlaunch` names, as it is loaded. -/
def launchCount (i : Instr) (desc cnt : Nat) (s : State) : Res (Option Nat × State) :=
  if cnt = 0 then pure (none, s) else do
    let v ← s.globalLoad i desc cnt 4 (some s.myFoot)
    pure (some (bytesToNat v.1), v.2)

theorem tlaunchBody_eq {i : Instr} {d x y : Nat} (hd : aligned (a.rx x).toNat 64 = true) (hc : aligned (a.rx y 1).toNat 4 = true) (hdr : a.myCore.drained = true) :
    tlaunchBody i d x y a = launchCount i (a.rx x).toNat (a.rx y 1).toNat a >>= launchEntry i d (a.rx x).toNat a := by
  unfold tlaunchBody
  dsimp only
  rw [need_ok hd, bind_ok, need_ok hc, bind_ok, await_ok hdr, bind_ok]
  rfl

theorem launchCount_none {i : Instr} {desc cnt : Nat} (h : cnt = 0) : launchCount i desc cnt a = .ok (none, a) := if_pos h

theorem launchCount_leaves {i : Instr} {desc cnt : Nat} {p : Phys} {u : State} (h : cnt ≠ 0) (hl : a.LoadsAt cnt 4 (some a.myFoot) p u) (hm : 2 ≤ p.mtype)
    (ho : a.reqOut i desc = false) : launchCount i desc cnt a = .error (.wait (a.noteReq i desc true)) := by
  rw [launchCount, if_neg h, hl.leaves hm ho, bind_error]

theorem launchCount_reads {i : Instr} {desc cnt : Nat} {p : Phys} {u : State} (h : cnt ≠ 0) (hl : a.LoadsAt cnt 4 (some a.myFoot) p u)
    (ho : 2 ≤ p.mtype → a.reqOut i desc = true) :
    launchCount i desc cnt a = .ok (some (bytesToNat (a.portBytes a.cur.die a.cur.core p.key p.home 4)), u) := by
  rw [launchCount, if_neg h, hl.reads ho, bind_ok]
  rfl

theorem launchEntry_leaves {i : Instr} {d desc : Nat} {n : Option Nat} {u v : State} {p : Phys} (hn : n.getD 0 ≤ 65535) (hl : u.LoadsAt (desc + 8) 8 none p v)
    (hm : 2 ≤ p.mtype) (ho : u.reqOut i desc = false) : launchEntry i d desc a (n, u) = .error (.wait (u.noteReq i desc true)) := by
  unfold launchEntry
  rw [need_ok (decide_eq_true hn), bind_ok, hl.leaves hm ho, bind_error]

theorem launchEntry_lands {i : Instr} {d desc q : Nat} {n : Option Nat} {u v : State} {p : Phys} {c : Ctx} (hn : n.getD 0 ≤ 65535)
    (hl : u.LoadsAt (desc + 8) 8 none p v) (ho : 2 ≤ p.mtype → u.reqOut i desc = true)
    (hq : bits (bytesToNat (u.portBytes u.cur.die u.cur.core p.key p.home 8)) 36 6 = q) (hc : a.queueCtx a.cur.die q = some c) (hid : c.id = a.myCtx) :
    launchEntry i d desc a (n, u) =
      .ok ((u.submit q desc n).landX d (BitVec.ofNat 64 (q * 2 ^ 48 + (a.queueAt a.cur.die q).tail.toNat % (a.queueAt a.cur.die q).entries)) 1) := by
  unfold launchEntry
  rw [need_ok (decide_eq_true hn), bind_ok, hl.reads ho, bind_ok]
  dsimp only
  rw [hq, hc, need_ok (decide_eq_true hid), bind_ok]
  rfl

/-! ### `tdone` and `tsignal` -/

/-- The task's USER goes into the record and its memory image; the clk and the engines are as they were. -/
theorem State.noteUser_shape (s : State) (n : Nat) : ∃ g, ({ s with graphs := g } : State).UnitWrote (s.noteUser n) := by
  unfold State.noteUser
  split
  · exact ⟨_, State.UnitWrote.refl s⟩
  · split
    · exact ⟨_, State.UnitWrote.refl s⟩
    · split
      · exact ⟨_, State.UnitWrote.refl s⟩
      · split
        · exact ⟨_, State.unitWrote_vwrite _ _ _ _ _⟩
        · exact ⟨_, State.UnitWrote.refl s⟩

theorem State.still_noteUser (s : State) (n : Nat) : s.Still (s.noteUser n) := by
  obtain ⟨g, h⟩ := s.noteUser_shape n
  exact (State.still_of (s := s) (u := { s with graphs := g }) rfl rfl).trans h.still

theorem State.now_noteUser (s : State) (n : Nat) : (s.noteUser n).now = s.now := by
  obtain ⟨g, h⟩ := s.noteUser_shape n
  obtain ⟨_, _, _, _, e⟩ := h.shape
  rw [e]

/-- The engine that a stream ends with: R19, the raise it still owes is of the last iteration only. -/
def endedEngine (e : Engine) (now : Nat) : Engine :=
  { e with phase := .ended, pfx := [], req := none, raiseDue := (if e.hdr.raiseEn && e.iter + 1 = e.hdr.rep then some e.hdr.raise else none), nextIssue := now + 1 }

theorem State.endStream_eq {s : State} (h : s.cur.eng ≠ .h) : s.endStream = s.setMe (endedEngine s.me s.now) := if_neg h

theorem State.rest_setMe_stamp (s : State) (e : Engine) (c : Tab Core) : { (s.setMe e).stamp with cores := c } = { s with cores := c } := by
  simp only [State.stamp, State.setMe, State.setMyCore, State.setCoreAt]

theorem tdoneBody_eq (x : Nat) : tdoneBody x a = .error (.jump (a.noteUser ((a.rx x).toNat % 2 ^ 16)).endStream) := rfl

theorem State.still_countSignal (s : State) (gid i tile : Nat) : s.Still (s.countSignal gid i tile) := by
  unfold State.countSignal
  split
  · exact State.Still.refl s
  · split
    · exact State.Still.refl s
    · exact State.still_ite _ (s.still_setGraph _) (s.still_setGraph _)

theorem State.still_markSignal (s : State) : s.Still s.markSignal :=
  State.still_ite _ (s.still_setMyCore _ fun w => by cases w <;> rfl) (s.still_setMyCore _ fun w => by cases w <;> rfl)

theorem State.markSignal_myTask {s : State} {t0 : RunTask} (h : s.myTask = some t0) : s.markSignal.myTask = some { t0 with signalled := true } := by
  unfold State.markSignal State.myTask
  unfold State.myTask at h
  by_cases hh : s.cur.eng = .h
  · rw [if_pos hh] at h
    rw [if_pos hh, if_pos (show (s.setMyCore _).cur.eng = .h from hh), State.myCore_setMyCore, h]
    rfl
  · rw [if_neg hh] at h
    rw [if_neg hh, if_neg (show ¬(s.setMyCore _).cur.eng = .h from hh), State.myCore_setMyCore, h]
    rfl

theorem tsignalBody_traps {t0 : RunTask} (ht : a.myTask = some t0) (h : t0.signalled = true) : tsignalBody a = .error (.trap { cls := 2, sub := 0x2A }) := by
  unfold tsignalBody
  rw [State.hasSignalled, ht, need_no (show (!t0.signalled) = false by rw [h]; rfl), bind_error]
  rfl

theorem tsignalBody_counts {t0 : RunTask} (ht : a.myTask = some t0) (h : t0.signalled = false) (hd : a.myCore.drained = true)
    (hp : a.myCore.posted.all (fun i => i.dropped || i.done) = true) (hq : a.myCore.copyq = []) :
    tsignalBody a = .ok (a.markSignal.countSignal t0.graph t0.record t0.tile) := by
  unfold tsignalBody
  dsimp only
  rw [State.hasSignalled, ht, need_ok (show (!t0.signalled) = true by rw [h]; rfl), bind_ok, await_ok (by rw [hd, hp, hq]; rfl), bind_ok]
  rfl

end

/-- Settles O48. Between `tlaunch` and its entry stand two loads; `launchCount` and `launchEntry` are the two halves of its body. That `tdone` raises in the
last iteration only, and ends the image in a handler, is log 26. -/
theorem tasksAct : Obligations.TasksAct := by
  unfold Obligations.TasksAct
  intro s d x y g
  refine ⟨?_, ?_, ?_, ?_⟩
  · intro hi hd hc hdr
    have hb := tlaunchBody_eq (a := s.atIssue) (i := .tlaunch d x y g) (d := d.toNat) hd hc hdr
    refine ⟨?_, ?_⟩
    · intro p0 u hcnt hl hm ho
      exact (exec_tlaunch d x y g s).trans (issue_wait (State.issues_iff.1 hi).1 (hb.trans (by rw [launchCount_leaves hcnt hl hm ho, bind_error])))
    · intro u v n p0 p hn hle hl
      have hu : s.atIssue.Still u ∧ launchCount (.tlaunch d x y g) (s.atIssue.rx x.toNat).toNat (s.atIssue.rx y.toNat 1).toNat s.atIssue = .ok (n, u) := by
        obtain ⟨h0, rfl, rfl⟩ | ⟨h0, hl0, ho0, rfl⟩ := hn
        · exact ⟨State.Still.refl _, launchCount_none h0⟩
        · exact ⟨State.globalLoad_still (hl0.reads ho0), launchCount_reads h0 hl0 ho0⟩
      obtain ⟨hu, hcount⟩ := hu
      have hb := hb.trans (by rw [hcount, bind_ok])
      refine ⟨fun hm ho => ?_, ?_⟩
      · have hn2 := hm
        exact (exec_tlaunch d x y g s).trans (issue_wait (State.issues_iff.1 hi).1 (hb.trans (launchEntry_leaves hle hl hm ho)))
      · intro ho q k c hctx hid
        exact still_landX hi (hb.trans (launchEntry_lands hle hl ho (by rw [hu.cur]; rfl) hctx hid)) (hu.trans (State.still_submit _ _ _ _))
  · intro hi he
    have hst := s.atIssue.still_noteUser ((s.atIssue.rx x.toNat).toNat % 2 ^ 16)
    have hme := hst.me
    have hend := State.endStream_eq (s := s.atIssue.noteUser ((s.atIssue.rx x.toNat).toNat % 2 ^ 16)) (by rw [hst.cur]; exact he)
    rw [hme, State.now_noteUser] at hend
    refine ⟨_, (exec_tdone x g s).trans (issue_jump hi (tdoneBody_eq x.toNat)), ?_⟩
    rw [hend, State.stamp_me, State.me_setMe]
    exact ⟨rfl, rfl, rfl, rfl, rfl, rfl, State.rest_setMe_stamp _ _ _⟩
  · intro hi _
    exact issue_jump hi (tdoneBody_eq x.toNat)
  · intro hi t0 ht
    exact ⟨fun h => issue_trap (State.issues_iff.1 hi).1 (tsignalBody_traps (a := s.atIssue) ht h),
      fun h hd hp hq => ⟨State.markSignal_myTask (s := s.atIssue) ht,
        still_next hi (tsignalBody_counts (a := s.atIssue) ht h hd hp hq) ((State.still_markSignal _).trans (State.still_countSignal _ _ _ _))⟩⟩

end Sys2Proof.Machine

end

section

/-! PROOFS. Queues, graphs, records, tiles and pre-emption (R245 to R256, R285). -/

namespace Sys2Proof.Machine

section

variable {s : State}

/-! ### The events, once their conditions hold -/

theorem Queue.idle_of {x : Queue} (h : x.prog = x.tail.toNat) : x.idle = true := decide_eq_true h

theorem execQtailWrite_due {die n : Nat} {v : BitVec 64} {c : Ctx} (hd : die < 4) (hn : n < 64) (hc : s.queueCtx die n = some c) :
    execQtailWrite die n v s = .next (s.fresh.setQueue die n
      (if c.out = true then { s.queueAt die n with shadow := some (BitVec.ofNat 32 v.toNat) } else { s.queueAt die n with tail := BitVec.ofNat 32 v.toNat })) := by
  unfold execQtailWrite
  rw [hc]
  exact event_due (by rw [decide_eq_true hd, decide_eq_true hn]; rfl) _

theorem queueWrite_due {die n : Nat} (hd : die < 4) (hn : n < 64) (hi : (s.queueAt die n).idle = true) :
    (decide (die < 4) && decide (n < 64) && (s.queueAt die n).idle) = true := by rw [decide_eq_true hd, decide_eq_true hn, hi]; rfl

theorem execGraphAdmit_due {die : Nat} (hd : die < 4) (ha : s.dieAway die = false) : execGraphAdmit die s = .next (s.fresh.takeGraph die) :=
  event_due (by rw [decide_eq_true hd, ha]; rfl) _

theorem State.takeGraph_skips {die q : Nat} (h : s.badQueue die = some q) : s.takeGraph die = s.skipEntry die q := by rw [State.takeGraph, h]

/-- The best queue's next graph is taken and stands last (R247). -/
theorem State.takeGraph_takes {die q a e : Nat} {c : Ctx} {z : Queue} (hb : s.badQueue die = none) (hq : s.bestQueue die = some (q, a, e))
    (hl : s.queueLive die q = some (c, z)) (hok : descriptorOk (fun k => (s.vread c.id [0] (a + 8 * k) 8).getD 0) = true) :
    s.takeGraph die = { (s.pass die q).setDieAt die { s.dieAt die with lastQ := q } with
      graphs := s.graphs ++ [graphOf s.nextGraph c.id die q z.taken a ((z.counts.find? (fun p => p.1 = z.taken)).map (·.2))
        (fun k => (s.vread c.id [0] (a + 8 * k) 8).getD 0)], nextGraph := s.nextGraph + 1 } := by
  unfold State.takeGraph
  rw [hb]
  dsimp only
  rw [hq]
  dsimp only
  rw [hl]
  dsimp only
  rw [if_pos hok]
  rfl

theorem execRecordAdmit_checks {n : Nat} {g : Graph} (hg : s.graphAt n = some g) (ha : s.dieAway g.die = false) (hn : g.admitted = false) :
    execRecordAdmit n s = .next (s.fresh.checkGraph g) := by
  unfold execRecordAdmit
  rw [hg]
  dsimp only
  rw [if_neg (ne_true_of_eq_false hn)]
  exact event_due (by rw [ha]; rfl) _

theorem execRecordAdmit_admits {n : Nat} {g : Graph} (hg : s.graphAt n = some g) (ha : s.dieAway g.die = false) (hy : g.admitted = true)
    (hnext : g.admitNext < g.recs.length) (hlive : g.live < 256) : execRecordAdmit n s = .next (s.fresh.admitRec g) := by
  unfold execRecordAdmit
  rw [hg]
  dsimp only
  rw [if_pos hy]
  exact event_due (by rw [ha, decide_eq_true hnext, decide_eq_true hlive]; rfl) _

theorem State.checkGraph_fails {g : Graph} (h : s.loadRecs g (s.ctxAt g.ctx).part (upto 0 g.ntask) = none) : s.checkGraph g = s.complete_ g 3 1 := by
  rw [State.checkGraph, h]

theorem State.checkGraph_passes {g : Graph} {rs rs' : List Rec} (h : s.loadRecs g (s.ctxAt g.ctx).part (upto 0 g.ntask) = some rs)
    (hc : withCount g.count rs = some rs') : s.checkGraph g =
      (s.vwrite g.ctx [0] (g.desc.toNat + 24) (natToBytes 8 (2 ^ 56))).setGraph { g with recs := rs', admitted := true } := by
  rw [State.checkGraph, h]
  dsimp only
  rw [hc]

theorem execTaskStart_due {die part : Nat} {r : Ready} (h : s.nextStart die part = some r) (hk : r.kind ≠ .gang) :
    execTaskStart die part s = .next (s.fresh.startReady die part r) := by
  unfold execTaskStart
  rw [h]
  exact event_due (decide_eq_true hk) _

theorem execGangStart_due {die part : Nat} {r : Ready} (h : s.nextStart die part = some r) (hk : r.kind = .gang) :
    execGangStart die part s = .next (s.fresh.startReady die part r) := by
  unfold execGangStart
  rw [h]
  exact event_due (decide_eq_true hk) _

theorem execPreempt_due {die part prio : Nat} {r : Ready} {only : Option Nat} (h : s.starved die part = some (r, prio, only))
    (hh : (s.partAt die part).halt = none) (ha : s.dieAway die = false) : execPreempt die part s = .next (s.fresh.preemptFor die part r prio only) := by
  unfold execPreempt
  rw [h]
  exact event_due (by rw [hh, ha]; rfl) _

theorem execTaskRetire_due {die core : Nat} {t : RunTask} (h : (s.coreAt die core).task = some t) (ho : (s.coreAt die core).over = true)
    (hf : (s.coreAt die core).fbSettled s.now = true) (hh : (s.partOfCore die core).halt = none) (ha : s.dieAway die = false) :
    execTaskRetire die core s = .next (s.fresh.retire die core t) := by
  unfold execTaskRetire
  rw [h]
  exact event_due (by rw [ho, hf, hh, ha]; rfl) _

/-- With no mapping left a retiring core has only to be vacated and its tile counted. -/
theorem State.retire_unmapped {die core : Nat} {t : RunTask} (h : (s.coreAt die core).stash = []) : s.retire die core t =
    (((s.setCoreAt die core (s.coreAt die core).vacant).noteIdle die core).countSignal t.graph t.record t.tile).tileOver t := by
  rw [State.retire, h]
  rfl

/-! ### A tile placed -/

theorem Rec.gang_flat {q : Rec} (h : q.nest = none) : q.gang = false := by rw [Rec.gang, h]

/-- A ready record starts on the first of its free cores; of a gang, which a record without a nest is not, on several. -/
theorem State.startReady_flat {die part k : Nat} {ks : List Nat} {r : Ready} {g : Graph} {q : Rec} (hk : r.kind = .record) (hr : s.readyRec r = some (g, q))
    (hn : q.nest = none) (hf : s.freeCores die part q.only = k :: ks) : s.startReady die part r = s.startOn g q r.idx [k] := by
  unfold State.startReady
  rw [hk, hr]
  dsimp only
  rw [Rec.gang_flat hn, hf]
  rfl

/-- Outside determinism mode, with its images readable, a record without a nest starts its tile at once. -/
theorem State.startOn_flat {g : Graph} {q : Rec} {i k : Nat} {img : List Byte} (hd : g.det = false) (hi : s.images g q = some img) (hn : q.nest = none) :
    s.startOn g q i [k] = (s.setGraph { g with phaseOk := some q.phase }).startTile g.id i k img := by
  unfold State.startOn
  rw [hd, hi]
  dsimp only
  rw [hn]
  rfl

theorem State.graphAt_id {n : Nat} {g : Graph} (h : s.graphAt n = some g) : g.id = n := by
  have := List.find?_some (p := fun g : Graph => decide (g.id = n)) h
  exact of_decide_eq_true this

/-- A graph put back under its own id is the one that is found there. -/
theorem State.graphAt_setGraph {g g' : Graph} (h : s.graphAt g.id = some g) (hid : g'.id = g.id) : (s.setGraph g').graphAt g.id = some g' := by
  unfold State.graphAt State.setGraph
  unfold State.graphAt at h
  dsimp only
  rw [hid, List.find?_map]
  have hsame : (fun x : Graph => decide (x.id = g.id)) ∘ (fun x => if x.id = g.id then g' else x) = fun x => decide (x.id = g.id) := by
    funext x
    by_cases hx : x.id = g.id
    · simp [hx, hid]
    · simp [hx]
  rw [hsame, h]
  simp

theorem State.readyRec_found {r : Ready} {g : Graph} {q : Rec} (h : s.readyRec r = some (g, q)) : s.graphAt g.id = some g ∧ g.recs[r.idx]? = some q := by
  unfold State.readyRec at h
  cases hg : s.graphAt r.graph with
  | none => rw [hg] at h; cases h
  | some g1 =>
    rw [hg] at h
    dsimp only at h
    cases hq : g1.recs[r.idx]? with
    | none => rw [hq] at h; cases h
    | some q1 =>
      rw [hq] at h
      cases h
      exact ⟨State.graphAt_id hg ▸ hg, hq⟩

/-- A tile's start: the record hands it out, and its core begins it. -/
theorem State.startTile_found {gid i k : Nat} {img : List Byte} {g : Graph} {q : Rec} (hg : s.graphAt gid = some g) (hq : g.recs[i]? = some q) :
    s.startTile gid i k img = (s.setGraph (g.setRec i q.nextTile.2)).setCoreAt g.die k
      ((s.coreAt g.die k).begin_ (runOf g q i q.nextTile.1 s.now) q (q.tileAt q.nextTile.1) img) := by
  unfold State.startTile
  rw [hg]
  dsimp only
  rw [hq]
  rfl

/-- What a placed tile leaves: its core has begun the task, no other core and no byte of memory has changed. -/
theorem State.startTile_placed {g : Graph} {q : Rec} {i k : Nat} {img : List Byte} (hg : s.graphAt g.id = some g) (hq : g.recs[i]? = some q) :
    ∃ t, (s.setGraph { g with phaseOk := some q.phase }).startTile g.id i k img = t ∧
      t.coreAt g.die k = (s.coreAt g.die k).begin_ (runOf { g with phaseOk := some q.phase } q i q.nextTile.1 s.now) q (q.tileAt q.nextTile.1) img ∧
      t.mem = s.mem ∧ ∀ j, j ≠ coreKey g.die k → tGet {} t.cores j = tGet {} s.cores j :=
  ⟨_, State.startTile_found (State.graphAt_setGraph (g' := { g with phaseOk := some q.phase }) hg rfl) hq, State.coreAt_setCoreAt _ _ _ _, rfl,
    fun _ hj => tGet_tSet_other _ _ _ hj⟩

end

/-- Settles O49. That RECORD_ADMIT checks every record of a graph in its first step, which writes STATE 1, is log 41. -/
theorem graphsRun : Obligations.GraphsRun := by
  unfold Obligations.GraphsRun
  intro s die n part core v
  refine ⟨?_, ?_, ?_, ?_, ?_, ?_⟩
  · intro hd hn
    refine ⟨fun c hc => (exec_qtailWrite die n v s).trans (execQtailWrite_due hd hn hc), fun hi => ?_⟩
    have hdue := queueWrite_due hd hn (Queue.idle_of hi)
    exact ⟨(exec_qbaseWrite die n v s).trans (event_due hdue _), (exec_qsizeWrite die n v s).trans (event_due hdue _)⟩
  · intro hd ha
    have hadmit := (exec_graphAdmit die s).trans (execGraphAdmit_due hd ha)
    refine ⟨fun q hq => hadmit.trans (congrArg Host.Outcome.next (State.takeGraph_skips hq)), ?_⟩
    intro q at_ e c z hb hq hl w g hok
    exact hadmit.trans (congrArg Host.Outcome.next (State.takeGraph_takes hb hq hl hok))
  · intro g hg ha
    refine ⟨fun hn => ?_, fun hy hnext hlive => (exec_recordAdmit n s).trans (execRecordAdmit_admits hg ha hy hnext hlive)⟩
    have hadmit := (exec_recordAdmit n s).trans (execRecordAdmit_checks hg ha hn)
    exact ⟨fun rs rs' hl hc => hadmit.trans (congrArg Host.Outcome.next (State.checkGraph_passes hl hc)),
      fun hl => hadmit.trans (congrArg Host.Outcome.next (State.checkGraph_fails hl))⟩
  · intro r hr
    refine ⟨fun hk => (exec_taskStart die part s).trans (execTaskStart_due hr hk), ?_, fun hk => (exec_gangStart die part s).trans (execGangStart_due hr hk)⟩
    intro g q i img k ks hk hrec hdet himg hnest hfree hi
    subst hi
    have hfound := State.readyRec_found (s := s.fresh) hrec
    obtain ⟨t, ht, hplaced⟩ := State.startTile_placed (s := s.fresh) (k := k) (img := img) hfound.1 hfound.2
    refine ⟨t, ?_, hplaced⟩
    rw [← ht, ← State.startOn_flat hdet himg hnest, ← State.startReady_flat hk hrec hnest hfree]
    exact (exec_taskStart die part s).trans (execTaskStart_due hr (by rw [hk]; decide))
  · intro r prio only hst hh ha
    exact (exec_preempt die part s).trans (execPreempt_due hst hh ha)
  · intro t0 ht ho hf hh ha hstash
    exact ((exec_taskRetire die core s).trans (execTaskRetire_due ht ho hf hh ha)).trans (congrArg Host.Outcome.next (State.retire_unmapped (s := s.fresh) hstash))

end Sys2Proof.Machine

end

section

/-! PROOFS. Lines and their transactions between the dies (R308, R310, Table 16.7). -/

namespace Sys2Proof.Machine

section

variable {s : State}

/-! ### Requests at their home -/

theorem reqEvent_due {k : ReqKind} {n : Nat} {r : CohReq} (hr : s.reqs[n]? = some r) (hd : s.reqDue n r = true) (hk : r.kind = k) :
    reqEvent k n s = .next (s.fresh.startReq n r) := by
  unfold reqEvent
  rw [hr]
  exact event_due (by rw [decide_eq_true hk, hd]; rfl) _

theorem State.startReq_snoops {n : Nat} {r : CohReq} {x : Snoop} {xs : List Snoop} (h : s.reqSnoops r = x :: xs) :
    s.startReq n r = { s with snoops := addNew s.snoops (x :: xs) } := by rw [State.startReq, h]

/-- What a request begins at its home, once the line's holders have been read from the directory. -/
def State.beginReq (u : State) (r : CohReq) (d : Dir) : State :=
  match r.kind with
  | .readS => if d.owned then u.beginXact r .fwdS [d.owner] else u.beginXact r .fwdS []
  | .readX => u.beginXact r .inv (d.holders.filter (· ≠ r.die))
  | .homeRead => if d.owned then u.beginXact r .fwdH [d.owner] else u.beginXact r .fwdH []
  | .homeWrite => u.beginXact r .inv d.holders

/-- The filters of both dies take an entry, and nothing else moves. -/
theorem State.filterBoth_shape (s : State) (h die line : Nat) :
    ∃ ft, (if die = h then s else (s.filterAdd h line).filterAdd die line) = { s with filt := ft } := by
  split
  · exact ⟨_, rfl⟩
  · exact ⟨_, rfl⟩

/-- The state a request begins in: off the list, its requester out of the directory where it has dropped its copy silently. -/
def State.reqFrom (s : State) (n : Nat) (r : CohReq) : State :=
  let u : State := { s with reqs := dropNth s.reqs n }
  if r.kind = .readS && (s.lineAt r.line r.die).st = .i then u.setDir r.line ((s.dirAt r.line).without r.die) else u

/-- A request that meets no stash sector begins with the directory as `reqFrom` leaves it. -/
theorem State.startReq_begins {n : Nat} {r : CohReq} (h : s.reqSnoops r = []) :
    ∃ ft, s.startReq n r = State.beginReq { s.reqFrom n r with filt := ft } r ((s.reqFrom n r).dirAt r.line) := by
  obtain ⟨ft, hft⟩ := State.filterBoth_shape (s.reqFrom n r) (s.homeOf (r.line * 256)) r.die r.line
  refine ⟨ft, ?_⟩
  rw [← hft, State.startReq, h]
  rfl

theorem State.reqFrom_kept {n : Nat} {r : CohReq} (hg : (r.kind = .readS && decide ((s.lineAt r.line r.die).st = .i)) = false) :
    s.reqFrom n r = { s with reqs := dropNth s.reqs n } := if_neg (ne_true_of_eq_false hg)

theorem State.reqFrom_gone {n : Nat} {r : CohReq} (hk : r.kind = .readS) (hi : (s.lineAt r.line r.die).st = .i) :
    s.reqFrom n r = ({ s with reqs := dropNth s.reqs n } : State).setDir r.line ((s.dirAt r.line).without r.die) :=
  if_pos (by rw [decide_eq_true hk, decide_eq_true hi]; rfl)

/-- A transaction with dies to hear from waits for them, with a message to each on its way. -/
theorem State.beginXact_calls {q : List CohReq} {ft : List (Nat × Nat)} {r : CohReq} {kind : FwdKind} {ds : List Nat} (hd : ds ≠ []) {t : State}
    (ht : State.beginXact { s with reqs := q, filt := ft } r kind ds = t) :
    t.reqs = q ∧ t.xacts = s.xacts ++ [{ req := r, due := ds }] ∧ t.fwds = s.fwds ++ ds.map (fun d => ⟨kind, d, r.line, r.die⟩) ∧ t.dirs = s.dirs ∧
      t.lines = s.lines ∧ t.mem = s.mem := by
  rw [← ht, State.beginXact, if_neg hd]
  exact ⟨rfl, rfl, rfl, rfl, rfl, rfl⟩

theorem State.beginReq_readS {u : State} {r : CohReq} {d : Dir} (hk : r.kind = .readS) (ho : d.owned = true) : u.beginReq r d = u.beginXact r .fwdS [d.owner] := by
  unfold State.beginReq
  rw [hk]
  exact if_pos ho

theorem State.beginReq_homeRead {u : State} {r : CohReq} {d : Dir} (hk : r.kind = .homeRead) (ho : d.owned = true) :
    u.beginReq r d = u.beginXact r .fwdH [d.owner] := by
  unfold State.beginReq
  rw [hk]
  exact if_pos ho

theorem State.beginReq_readX {u : State} {r : CohReq} {d : Dir} (hk : r.kind = .readX) : u.beginReq r d = u.beginXact r .inv (d.holders.filter (· ≠ r.die)) := by
  unfold State.beginReq
  rw [hk]

theorem State.beginReq_homeWrite {u : State} {r : CohReq} {d : Dir} (hk : r.kind = .homeWrite) : u.beginReq r d = u.beginXact r .inv d.holders := by
  unfold State.beginReq
  rw [hk]

/-- A request event that has dies to ask: it leaves its messages. -/
theorem reqEvent_calls {k : ReqKind} {n : Nat} {r : CohReq} {kind : FwdKind} {ds : List Nat} (hr : s.reqs[n]? = some r) (hd : s.reqDue n r = true)
    (hk : r.kind = k) (h : s.reqSnoops r = []) (hg : (r.kind = .readS && decide ((s.lineAt r.line r.die).st = .i)) = false)
    (hb : ∀ u : State, u.beginReq r (s.dirAt r.line) = u.beginXact r kind ds) (hne : ds ≠ []) :
    ∃ t, reqEvent k n s = .next t ∧ t.reqs = dropNth s.reqs n ∧ t.xacts = s.xacts ++ [{ req := r, due := ds }] ∧
      t.fwds = s.fwds ++ ds.map (fun d => ⟨kind, d, r.line, r.die⟩) ∧ t.dirs = s.dirs ∧ t.lines = s.lines ∧ t.mem = s.mem := by
  obtain ⟨ft, hft⟩ := State.startReq_begins (s := s.fresh) (n := n) h
  rw [State.reqFrom_kept (s := s.fresh) hg] at hft
  exact ⟨_, reqEvent_due hr hd hk, State.beginXact_calls (s := s.fresh) (q := dropNth s.reqs n) (ft := ft) hne ((hft.trans (hb _)).symm)⟩

/-! ### The grant of an uncached line -/

/-- The coherent bytes of a line depend on the directory only through what it says. -/
theorem State.lineBytes_redir {q : List CohReq} {ft : List (Nat × Nat)} {dirs : Tab Dir} (h : ∀ k, tGet {} dirs k = s.dirAt k) (line : Nat) :
    ({ s with reqs := q, filt := ft, dirs := dirs } : State).lineBytes line = s.lineBytes line := by
  have hby : ({ s with reqs := q, filt := ft, dirs := dirs } : State).cohByte = s.cohByte := by
    funext key
    unfold State.cohByte
    rw [show ({ s with reqs := q, filt := ft, dirs := dirs } : State).dirAt (key / 256) = s.dirAt (key / 256) from h _]
    rfl
  unfold State.lineBytes
  rw [hby]

theorem State.dirAt_setDir_same (s : State) (line : Nat) (d : Dir) : (s.setDir line d).dirAt line = d := tGet_tSet_same _ _ _ _

theorem State.dirAt_setDir_filt (s : State) (line : Nat) (d : Dir) (ft : List (Nat × Nat)) : ({ s.setDir line d with filt := ft } : State).dirAt line = d :=
  s.dirAt_setDir_same line d

/-- Writing into the directory what it says already changes no entry. -/
theorem State.dirAt_setDir_eq {line : Nat} {d : Dir} (h : s.dirAt line = d) (k : Nat) : tGet {} (s.setDir line d).dirs k = s.dirAt k := by
  by_cases hk : k = line
  · rw [hk, h]
    exact s.dirAt_setDir_same line d
  · exact tGet_tSet_other _ _ _ hk

theorem State.beginXact_nothing (u : State) (r : CohReq) (kind : FwdKind) : u.beginXact r kind [] = u.finishXact { req := r, due := [] } := if_pos rfl

/-- What a completed transaction leaves of its line, the requests and memory is its effect's. -/
theorem State.finishXact_keeps (u : State) (x : Xact) : (u.finishXact x).dirs = (u.complete x).dirs ∧ (u.finishXact x).lines = (u.complete x).lines ∧
    (u.finishXact x).reqs = (u.complete x).reqs ∧ (u.finishXact x).mem = (u.complete x).mem := ⟨rfl, rfl, rfl, rfl⟩

theorem State.complete_uncached {u : State} {x : Xact} (hk : x.req.kind = .readS) (hd : u.dirAt x.req.line = {}) :
    u.complete x = (u.takeLine x.req.die x.req.line .e).setDir x.req.line { st := .e, owner := x.req.die } := by
  unfold State.complete State.grantS
  dsimp only
  rw [hk, hd]
  rfl

theorem State.takeLine_keeps (u : State) (die line : Nat) (st : LineSt) :
    (u.takeLine die line st).lineAt line die = ⟨st, u.lineBytes line, 0⟩ ∧ (u.takeLine die line st).reqs = u.reqs ∧ (u.takeLine die line st).mem = u.mem := by
  unfold State.takeLine
  exact ⟨tGet_tSet_same _ _ _ _, rfl, rfl⟩

/-- A ReadS of an uncached line completes where it begins: the requester becomes the owner, in E (R308). -/
theorem State.beginReq_grants {u : State} {r : CohReq} (hk : r.kind = .readS) (hd : u.dirAt r.line = {}) {t : State} (ht : u.beginReq r {} = t) :
    t.dirAt r.line = { st := .e, owner := r.die } ∧ t.lineAt r.line r.die = ⟨.e, u.lineBytes r.line, 0⟩ ∧ t.reqs = u.reqs ∧ t.mem = u.mem := by
  have hbegin : u.beginReq r {} = u.finishXact { req := r, due := [] } := by
    unfold State.beginReq
    rw [hk]
    exact u.beginXact_nothing r .fwdS
  obtain ⟨hdirs, hlines, hreqs, hmem⟩ := u.finishXact_keeps { req := r, due := [] }
  rw [State.complete_uncached (x := { req := r, due := [] }) hk hd] at hdirs hlines hreqs hmem
  rw [← hbegin.symm.trans ht]
  obtain ⟨hline, hq, hm⟩ := u.takeLine_keeps r.die r.line .e
  refine ⟨?_, ?_, hreqs.trans hq, hmem.trans hm⟩
  · unfold State.dirAt
    rw [hdirs]
    exact State.dirAt_setDir_same _ _ _
  · unfold State.lineAt
    rw [hlines]
    exact hline

theorem execReads_grants {n : Nat} {r : CohReq} (hr : s.reqs[n]? = some r) (hdue : s.reqDue n r = true) (hs : s.reqSnoops r = []) (hk : r.kind = .readS)
    (hd : s.dirAt r.line = {}) (hi : (s.lineAt r.line r.die).st = .i) : ∃ t, execReads n s = .next t ∧ t.dirAt r.line = { st := .e, owner := r.die } ∧
      t.lineAt r.line r.die = ⟨.e, s.fresh.lineBytes r.line, 0⟩ ∧ t.reqs = dropNth s.reqs n ∧ t.mem = s.mem := by
  obtain ⟨ft, hft⟩ := State.startReq_begins (s := s.fresh) (n := n) hs
  have hw : (s.fresh.dirAt r.line).without r.die = {} := by rw [show s.fresh.dirAt r.line = {} from hd]; rfl
  rw [State.reqFrom_gone (s := s.fresh) hk hi, hw, State.dirAt_setDir_same] at hft
  have hgrant := fun hd => State.beginReq_grants hk hd hft.symm
  obtain ⟨hdir, hline, hreqs, hmem⟩ := hgrant (State.dirAt_setDir_filt _ _ _ _)
  refine ⟨_, reqEvent_due hr hdue hk, hdir, ?_, hreqs, hmem⟩
  rw [hline]
  exact congrArg (Line.mk .e · 0) (State.lineBytes_redir (s := s.fresh) (State.dirAt_setDir_eq (s := s.fresh) hd) r.line)

/-! ### Messages at a holder -/

theorem fwdEvent_due {k : FwdKind} {n : Nat} {m : Fwd} (hm : s.fwds[n]? = some m) (hk : m.kind = k) (ha : s.dieAway m.dest = false)
    (ho : ∀ g ∈ s.fwds.take n, s.sameRoute m g = false) : fwdEvent k n s = .next (s.fresh.arriveFwd n m) := by
  unfold fwdEvent
  rw [hm]
  have hfirst : (s.fwds.take n).all (fun g => !s.sameRoute m g) = true := List.all_eq_true.2 fun g hg => by rw [ho g hg]; rfl
  exact event_due (by rw [decide_eq_true hk, ha, hfirst]; rfl) _

/-- A message that meets no stash sector leaves its list, and its holder answers it. -/
theorem State.arriveFwd_answers {n : Nat} {m : Fwd} (h : s.stashConf m.dest none m.line (m.kind = .inv) = []) :
    s.arriveFwd n m = (({ s with fwds := dropNth s.fwds n } : State).answer m).filterPrune := by rw [State.arriveFwd, h]

/-- A line that is written and a message that is sent: where they stand afterwards. -/
theorem State.holderAnswered (s : State) (n : Nat) (m : Fwd) (l1 : Line) (a : Ack) {t : State}
    (ht : (({ s with fwds := dropNth s.fwds n, acks := s.acks ++ [a] } : State).setLine m.line m.dest l1).filterPrune = t) :
    t.lineAt m.line m.dest = l1 ∧ t.acks = s.acks ++ [a] ∧ t.fwds = dropNth s.fwds n ∧ t.mem = s.mem := by
  rw [← ht]
  exact ⟨tGet_tSet_same _ _ _ _, rfl, rfl, rfl⟩

theorem State.answer_fwdS {m : Fwd} (hk : m.kind = .fwdS) (hl : (s.lineAt m.line m.dest).st ≠ .i) :
    s.answer m = ({ s with acks := s.acks ++ [{ line := m.line, die := m.dest, nodata := false, dirty := (s.lineAt m.line m.dest).dirty }] } : State).setLine
      m.line m.dest { s.lineAt m.line m.dest with st := if (s.lineAt m.line m.dest).dirty = true then .o else .s } := by
  unfold State.answer
  rw [hk]
  dsimp only
  rw [if_neg hl, decide_eq_false hl]
  split <;> rfl

theorem State.answer_fwdH {m : Fwd} (hk : m.kind = .fwdH) (hl : (s.lineAt m.line m.dest).st ≠ .i) :
    s.answer m = ({ s with acks := s.acks ++ [{ line := m.line, die := m.dest, nodata := false, dirty := false, data := (s.lineAt m.line m.dest).dirtyData }] } : State).setLine
      m.line m.dest { s.lineAt m.line m.dest with st := .s } := by
  unfold State.answer
  rw [hk]
  dsimp only
  rw [if_neg hl, decide_eq_false hl]

theorem State.answer_inv {m : Fwd} (hk : m.kind = .inv) (hl : (s.lineAt m.line m.dest).st ≠ .i) :
    s.answer m = ({ s with acks := s.acks ++ [{ line := m.line, die := m.dest, nodata := false, dirty := false, data := (s.lineAt m.line m.dest).dirtyData }] } : State).setLine
      m.line m.dest {} := by
  unfold State.answer
  rw [hk]
  dsimp only
  rw [decide_eq_false hl]

/-! ### Acknowledgements -/

theorem execAcknowledgement_due {n : Nat} {a : Ack} (ha : s.acks[n]? = some a)
    (ho : ∀ b ∈ s.acks.take n, b.die = a.die → s.homeOf (b.line * 256) ≠ s.homeOf (a.line * 256)) :
    execAcknowledgement n s = .next (s.fresh.ackArrive n a) := by
  unfold execAcknowledgement
  rw [ha]
  refine event_due (List.all_eq_true.2 fun b hb => ?_) _
  by_cases hd : b.die = a.die
  · rw [decide_eq_false (ho b hb hd), Bool.and_false]
    rfl
  · rw [decide_eq_false hd, Bool.false_and]
    rfl

/-- A transaction that an acknowledgement has reached. -/
def Xact.heard (x : Xact) (a : Ack) : Xact :=
  { x with due := x.due.filter (· ≠ a.die), dirty := x.dirty || a.dirty, data := if a.data.isSome then a.data else x.data }

theorem State.ackArrive_heard {n : Nat} {a : Ack} {x : Xact} (hx : s.xacts.find? (fun x => x.req.line = a.line) = some x) (hn : a.nodata = false) :
    s.ackArrive n a =
      let v : State := { s with acks := dropNth s.acks n, xacts := s.xacts.map (fun y => if y.req.line = a.line then x.heard a else y) }
      if (x.heard a).due = [] then v.finishXact (x.heard a) else v := by
  unfold State.ackArrive
  dsimp only
  rw [hx]
  dsimp only
  rw [if_neg (ne_true_of_eq_false hn)]
  rfl

/-! ### Write-backs and evictions -/

theorem execWriteback_due {die line : Nat} (h : s.writeBackDue die line = true) : execWriteback die line s = .next (s.fresh.writeBack die line) := event_due h _

/-- A die's copy gone home: its data put there, and the directory without the die. -/
def State.wroteBack (s : State) (die line : Nat) : State :=
  ((s.lineHome line ((s.lineAt line die).data, (s.lineAt line die).keyNo)).setLine line die {}).setDir line ((s.dirAt line).without die)

theorem State.wroteBack_shape (s : State) (die line : Nat) :
    ∃ m k l d, s.wroteBack die line = { s with mem := m, keyTag := k, lines := l, dirs := d } := by
  unfold State.wroteBack State.lineHome State.putMem State.setLine State.setDir
  exact ⟨_, _, _, _, rfl⟩

theorem State.xacts_wroteBack (s : State) (die line : Nat) : (s.wroteBack die line).xacts = s.xacts := by
  obtain ⟨_, _, _, _, h⟩ := s.wroteBack_shape die line
  rw [h]

theorem State.fwds_wroteBack (s : State) (die line : Nat) : (s.wroteBack die line).fwds = s.fwds := by
  obtain ⟨_, _, _, _, h⟩ := s.wroteBack_shape die line
  rw [h]

/-- The write-back of a line: alone where no transaction waits for the die, else it answers the message that it crosses. -/
theorem State.writeBack_eq (s : State) (die line : Nat) : s.writeBack die line =
    match (s.wroteBack die line).xacts.find? (fun x => x.req.line = line && x.due.contains die) with
    | none => (s.wroteBack die line).filterPrune
    | some x =>
      let x1 : Xact := { x with due := x.due.filter (· ≠ die) }
      let v : State := { s.wroteBack die line with
        fwds := (s.wroteBack die line).fwds.filter (fun f => !(f.line = line && f.dest = die)),
        xacts := (s.wroteBack die line).xacts.map (fun y => if y.req.line = line then x1 else y) }
      if x1.due = [] then v.finishXact x1 else v := rfl

theorem State.writeBack_plain {die line : Nat} (h : s.xactOn line = false) : s.writeBack die line = (s.wroteBack die line).filterPrune := by
  have hnone : s.xacts.find? (fun x => x.req.line = line && x.due.contains die) = none :=
    List.find?_eq_none.2 fun x hx hc => Bool.false_ne_true (h.symm.trans (List.any_eq_true.2 ⟨x, hx, (Bool.and_eq_true_iff.1 hc).1⟩))
  rw [State.writeBack_eq, State.xacts_wroteBack, hnone]

theorem State.writeBack_crosses {die line : Nat} {x : Xact} {w : State} {fs : List Fwd} {xs : List Xact} (hw : s.wroteBack die line = w) (hf : s.fwds = fs)
    (hq : s.xacts = xs) (h : xs.find? (fun x => x.req.line = line && x.due.contains die) = some x) :
    s.writeBack die line =
      let x1 : Xact := { x with due := x.due.filter (· ≠ die) }
      let v : State := { w with
        fwds := fs.filter (fun m => !(m.line = line && m.dest = die)), xacts := xs.map (fun y => if y.req.line = line then x1 else y) }
      if x1.due = [] then v.finishXact x1 else v := by
  rw [State.writeBack_eq, State.xacts_wroteBack, State.fwds_wroteBack, hw, hf, hq, h]

theorem State.filterPrune_keeps (u : State) (die line : Nat) :
    u.filterPrune.lineAt line die = u.lineAt line die ∧ u.filterPrune.dirAt line = u.dirAt line ∧ u.filterPrune.mem = u.mem := ⟨rfl, rfl, rfl⟩

theorem State.setLine_setDir_keeps (u : State) (die line : Nat) (l : Line) (d : Dir) : ((u.setLine line die l).setDir line d).lineAt line die = l ∧
    ((u.setLine line die l).setDir line d).dirAt line = d ∧ ((u.setLine line die l).setDir line d).mem = u.mem :=
  ⟨tGet_tSet_same _ u.lines _ _, State.dirAt_setDir_same _ _ _, rfl⟩

/-- What a write-back alone leaves at the line: no copy, the directory without the die, and memory with the data home. -/
theorem State.wroteBack_keeps (s : State) (die line : Nat) : (s.wroteBack die line).lineAt line die = {} ∧
    (s.wroteBack die line).dirAt line = (s.dirAt line).without die ∧
    (s.wroteBack die line).mem = (s.lineHome line ((s.lineAt line die).data, (s.lineAt line die).keyNo)).mem := by
  exact State.setLine_setDir_keeps _ die line {} _

theorem State.evict_frees (s : State) (die line : Nat) : (s.evict die line).filt.contains (die, line) = false := by
  unfold State.evict
  rw [List.contains_eq_any_beq, List.any_eq_false]
  intro p hp he
  exact of_decide_eq_true (List.mem_filter.1 hp).2 (eq_of_beq he).symm

end

/-- Settles O50. -/
theorem linesTravel : Obligations.LinesTravel := by
  unfold Obligations.LinesTravel
  intro s n die line
  refine ⟨?_, ?_, ?_, ?_, ?_, ?_⟩
  · intro r hr hdue d rest calls
    refine ⟨fun x xs hs => ?_, fun hs => ⟨fun hk hd hi => execReads_grants hr hdue hs hk hd hi, ?_, ?_, ?_, ?_⟩⟩
    · have hstart : s.fresh.startReq n r = { s.fresh with snoops := addNew s.snoops (x :: xs) } := State.startReq_snoops (s := s.fresh) hs
      cases hk : r.kind <;> exact (reqEvent_due hr hdue hk).trans (congrArg Host.Outcome.next hstart)
    · intro hk hi ho
      exact reqEvent_calls hr hdue hk hs (by rw [decide_eq_false hi, Bool.and_false]) (fun u => State.beginReq_readS hk ho) (List.cons_ne_nil _ _)
    · intro hk hne
      exact reqEvent_calls hr hdue hk hs (by rw [hk]; rfl) (fun u => State.beginReq_readX hk) hne
    · intro hk ho
      exact reqEvent_calls hr hdue hk hs (by rw [hk]; rfl) (fun u => State.beginReq_homeRead hk ho) (List.cons_ne_nil _ _)
    · intro hk hne
      exact reqEvent_calls hr hdue hk hs (by rw [hk]; rfl) (fun u => State.beginReq_homeWrite hk) hne
  · intro m hm ha ho hconf hl l does
    have harr := State.arriveFwd_answers (s := s.fresh) (n := n) hconf
    refine ⟨fun hk => ⟨_, fwdEvent_due hm hk ha ho, ?_⟩, fun hk => ⟨_, fwdEvent_due hm hk ha ho, ?_⟩, fun hk => ⟨_, fwdEvent_due hm hk ha ho, ?_⟩⟩
    · exact State.holderAnswered s.fresh n m _ _ (harr.trans (congrArg State.filterPrune (State.answer_fwdS hk hl))).symm
    · exact State.holderAnswered s.fresh n m _ _ (harr.trans (congrArg State.filterPrune (State.answer_fwdH hk hl))).symm
    · exact State.holderAnswered s.fresh n m _ _ (harr.trans (congrArg State.filterPrune (State.answer_inv hk hl))).symm
  · intro a x ha hx hn ho x1 v
    have hack := (execAcknowledgement_due ha ho).trans (congrArg Host.Outcome.next (State.ackArrive_heard (s := s.fresh) (n := n) hx hn))
    exact ⟨fun hd => hack.trans (congrArg Host.Outcome.next (if_neg hd)), fun hd => hack.trans (congrArg Host.Outcome.next (if_pos hd))⟩
  · intro hdue hon
    have hrun := (exec_writeback die line s).trans (execWriteback_due hdue)
    obtain ⟨hline, hdir, hmem⟩ := s.fresh.wroteBack_keeps die line
    refine ⟨_, hrun, ?_⟩
    rw [State.writeBack_plain (s := s.fresh) hon]
    obtain ⟨pline, pdir, pmem⟩ := (s.fresh.wroteBack die line).filterPrune_keeps die line
    exact ⟨pline.trans hline, pdir.trans hdir, pmem.trans hmem⟩
  · intro x hdue hx x1 w v
    have hcross := State.writeBack_crosses (s := s.fresh) (die := die) (w := w) (fs := s.fwds) (xs := s.xacts) rfl rfl rfl hx
    exact ((exec_writeback die line s).trans (execWriteback_due hdue)).trans (congrArg Host.Outcome.next hcross)
  · intro hdue
    exact ⟨_, (exec_entryEviction die line s).trans (event_due hdue _), State.evict_frees _ _ _⟩

end Sys2Proof.Machine

end

section

/-! PROOFS. Posted stores, their acknowledgements, and a lost die (R309, R306, R113, R318). -/

namespace Sys2Proof.Machine

section

variable {s : State}

theorem execPostedStorePerformed_due {die core home : Nat} {m : Posted} (hm : (s.postedTo die core home).head? = some m) (ha : s.dieAway home = false) :
    execPostedStorePerformed die core home s = .next (s.fresh.performPost m) := by
  unfold execPostedStorePerformed
  rw [hm]
  exact event_due (by rw [ha]; rfl) _

/-- A store whose exporter no longer admits it is dropped, and its import revoked (R306). -/
theorem State.performPost_drops {m : Posted} {u : State} (hu : { s with posts := s.posts.filter (fun p => !(p.die = m.die && p.core = m.core && p.pid = m.pid)) } = u)
    (h : s.postPlace m = none) : s.performPost m = (u.revokeImport (s.ctxOf m.die m.core) m.slot).ackItem m.home m.die m.core m.pid true := by
  unfold State.performPost
  rw [h, ← hu]

theorem State.performPost_writes {m : Posted} {p : Phys} {u : State}
    (hu : { s with posts := s.posts.filter (fun p => !(p.die = m.die && p.core = m.core && p.pid = m.pid)) } = u)
    (h : s.postPlace m = some p) (hc : s.canWrite m.die none p m.data.length = .ok ()) :
    s.performPost m = (u.put m.die p m.data).ackItem m.home m.die m.core m.pid false := by
  unfold State.performPost
  rw [h, ← hu]
  dsimp only
  rw [hc]

theorem execStoreAck_due {n : Nat} {a : StoreAck} (ha : s.sacks[n]? = some a) (ho : ∀ b ∈ s.sacks.take n, b.src = a.src → b.die ≠ a.die) :
    execStoreAck n s = .next (s.fresh.ackStore n a) := by
  unfold execStoreAck
  rw [ha]
  refine event_due (List.all_eq_true.2 fun b hb => ?_) _
  by_cases hs : b.src = a.src
  · rw [decide_eq_false (ho b hb hs), Bool.and_false]
    rfl
  · rw [decide_eq_false hs, Bool.false_and]
    rfl

/-- Flushes that have ended leave the list of posted items as it is. -/
theorem settleFlushes_posted (c : Core) (fs : List Flush) : (settleFlushes c fs).posted = c.posted := by
  induction fs generalizing c with
  | nil => rfl
  | cons f fs ih =>
    rw [settleFlushes]
    split
    · exact ih _
    · rfl

/-- An item that has been performed is off its core's list. -/
theorem Core.itemDone_gone (c : Core) (pid : Nat) : ∀ i ∈ (c.itemDone pid false).posted, i.pid ≠ pid := by
  intro i hi
  rw [Core.itemDone, settleFlushes_posted] at hi
  exact of_decide_eq_true (List.mem_filter.1 hi).2

end

/-- Settles O51. -/
theorem postsAndLoss : Obligations.PostsAndLoss := by
  unfold Obligations.PostsAndLoss
  intro s die core home n
  refine ⟨?_, ?_, ?_⟩
  · intro m hm ha u
    have hrun := (exec_postedStorePerformed die core home s).trans (execPostedStorePerformed_due hm ha)
    exact ⟨fun h => hrun.trans (congrArg Host.Outcome.next (State.performPost_drops (s := s.fresh) (u := u) rfl h)),
      fun p h hc => hrun.trans (congrArg Host.Outcome.next (State.performPost_writes (s := s.fresh) (u := u) rfl h hc))⟩
  · intro a ha ho c
    refine ⟨(exec_storeAck n s).trans (execStoreAck_due ha ho), fun hd => ?_⟩
    have hc : c = (s.coreAt a.die a.core).itemDone a.pid false := hd ▸ rfl
    rw [hc]
    exact Core.itemDone_gone _ _
  · intro hd hl
    exact (exec_dieLost die s).trans (event_due (by rw [decide_eq_true hd, hl]; rfl) _)

end Sys2Proof.Machine

end

section

/-! PROOFS. The module's own events (R292, R300, R311, R370 to R377, R383 to R385). -/

namespace Sys2Proof.Machine

section

variable {s : State}

/-! ### The host's registers -/

theorem State.writeBar_mbcmd (s : State) (fn : Nat) (v : BitVec 64) : s.writeBar fn 0x100 v = s.writeCmd fn v.toNat := by
  unfold State.writeBar
  dsimp only
  rw [if_neg (by decide), if_neg (by decide), if_pos rfl]

theorem execRegisterWrite_mbcmd {fn : Nat} {v : BitVec 64} (hb : s.barOpen = true) (hf : fn < 4) :
    execRegisterWrite fn 0x100 v s = .next (s.fresh.writeCmd fn v.toNat) := by
  rw [← State.writeBar_mbcmd]
  exact event_due (by rw [hb, decide_eq_true hf]; rfl) _

theorem State.writeCmd_busy {fn v : Nat} (h : (s.dieAt fn).mbox.busy = true) : s.writeCmd fn v = s.setMbox fn { (s.dieAt fn).mbox with ovr := true } := if_pos h

/-- A command that starts: it takes the argument registers as they are (R371); one whose opcode is not listed ends at once. -/
theorem State.writeCmd_starts {fn v : Nat} (h : (s.dieAt fn).mbox.busy = false) : s.writeCmd fn v =
    let u := s.setMbox fn { (s.dieAt fn).mbox with cmd := BitVec.ofNat 64 (v % 2 ^ 24), busy := true, progress := false, cargs := (s.dieAt fn).mbox.args }
    if opcListed (v % 2 ^ 16) = true then u else u.mbEnd fn 1 [] := if_neg (ne_true_of_eq_false h)

theorem State.writeFeats_locked {v : Word} (h : s.mill.lock = true) : s.writeFeats v = s := if_pos h

theorem State.writeFeats_open {v : Word} (h : s.mill.lock = false) :
    s.writeFeats v = { s with mill := { s.mill with feats := BitVec.ofNat 5 v.toNat, lock := bit v.toNat 63 } } := if_neg (ne_true_of_eq_false h)

/-! ### Start, training and loss -/

/-- A start finds the module as a loss of power leaves it, and the flash image decides its stage (R375). -/
theorem State.start_starts (s : State) : s.start.mill.on = true ∧ s.start.mill.flash = s.mill.flash ∧ s.start.mem = [] ∧ s.start.ctxs = [] ∧
    s.start.mill.stage = (if s.mill.flashBad = false ∧ Config.imageVerifies s.mill.flash = true then 1 else 2) := by
  refine ⟨rfl, rfl, rfl, rfl, ?_⟩
  change (if (!(s.mill.flashBad || false) && Config.imageVerifies s.mill.flash) = true then 1 else 2) = _
  cases s.mill.flashBad <;> cases Config.imageVerifies s.mill.flash <;> rfl

theorem State.powerOff_leaves (s : State) (b : Bool) : (s.powerOff b).mill = { ({} : Mill) with flash := s.mill.flash, flashBad := s.mill.flashBad || b } ∧
    (s.powerOff b).mem = [] ∧ (s.powerOff b).ctxs = [] ∧ (s.powerOff b).cores = [] := ⟨rfl, rfl, rfl, rfl⟩

theorem execPowerLoss_due {b : Bool} (hon : s.mill.on = true) (h : b = false ∨ s.flashing = true) : execPowerLoss b s = .next (s.fresh.powerOff b) := by
  refine event_due ?_ _
  rw [hon]
  rcases h with h | h
  · rw [h]
    rfl
  · rw [h, Bool.or_true]
    rfl

theorem execDieAdmit_warm {die : Nat} (hw : (s.dieAt die).warm = true) (hd : die < 4) : execDieAdmit die true s = .next (s.fresh.readmit die) := by
  unfold execDieAdmit
  rw [if_pos hw]
  exact event_due (by rw [decide_eq_true hd]; rfl) _

theorem execDieAdmit_trains {die : Nat} (hw : (s.dieAt die).warm = false) (hon : s.mill.on = true) (hst : s.mill.stage = 1) (hd : die < 6)
    (ht : s.mill.trained.contains die = false) : execDieAdmit die true s = .next (s.fresh.train die true) := by
  unfold execDieAdmit
  rw [if_neg (ne_true_of_eq_false hw)]
  exact event_due (by rw [hon, decide_eq_true hst, decide_eq_true hd, ht]; rfl) _

/-- A compute die trained: admitted, divided by firmware, and counted. -/
def State.admitted (s : State) (die : Nat) : State :=
  ({ s with mill := { s.mill with trained := s.mill.trained ++ [die], dieUp := s.mill.dieUp ||| BitVec.ofNat 4 (2 ^ die) } } : State).setDieAt die
    { s.dieAt die with admitAt := s.now, partLog := Config.partLogOf die % 4 }

theorem State.train_admits {die : Nat} (hd : die < 4) : s.train die true =
    if (upto 0 6).all (fun d => (s.mill.trained ++ [die]).contains d) = true then { s.admitted die with mill := { (s.admitted die).mill with stage := 3 } }
    else s.admitted die := by
  unfold State.train
  dsimp only
  simp only [Bool.not_true, Bool.false_eq_true, if_false, if_pos hd]
  rfl

theorem State.partLog_admitted (s : State) (die : Nat) : ((s.admitted die).dieAt die).partLog = Config.partLogOf die % 4 := by
  unfold State.admitted
  rw [State.dieAt_setDieAt]

theorem State.train_keeps {die : Nat} (hd : die < 4) (hst : s.mill.stage = 1) : (s.train die true).mill.dieUp = s.mill.dieUp ||| BitVec.ofNat 4 (2 ^ die) ∧
    (s.train die true).mill.trained = s.mill.trained ++ [die] ∧ ((s.train die true).dieAt die).partLog = Config.partLogOf die % 4 ∧
    (s.train die true).mill.stage = (if (upto 0 6).all (fun d => (s.mill.trained ++ [die]).contains d) = true then 3 else 1) := by
  rw [State.train_admits hd]
  split
  · exact ⟨rfl, rfl, s.partLog_admitted die, rfl⟩
  · exact ⟨rfl, rfl, s.partLog_admitted die, hst⟩

/-! ### Power, heat and ageing -/

theorem State.powerSample_power (s : State) (watts : Nat) : (s.powerSample watts).mill.power =
    avgOf (s.mill.samples.filter (fun p => decide (s.now < p.1 + clkPerMs)) ++ [(s.now, watts)]) := rfl

/-- A sample that brings the average above the limit raises the alarm. -/
theorem State.powerSample_alarms {watts : Nat} (h : s.mill.limit < (s.powerSample watts).mill.power) : (s.powerSample watts).mill.alarmPow = true :=
  Bool.or_eq_true_iff.2 (.inl (decide_eq_true h))

theorem execThermalSample_due {temps : List Nat} (hon : s.mill.on = true) (hl : temps.length = 6) : execThermalSample temps s = .next (s.fresh.thermal temps) :=
  event_due (by rw [hon, decide_eq_true hl]; rfl) _

theorem execCoreAgeingCheck_due {die core : Nat} (hd : die < 4) (hc : core < 160) (ht : (s.coreAt die core).task = none)
    (hi : tGet 0 (s.dieAt die).idleFrom core + 10 * clkPerMs ≤ s.now) (hm : s.mayRetire die core = true) :
    execCoreAgeingCheck die core true s = .next (s.fresh.age die core) :=
  event_due (by rw [decide_eq_true hd, decide_eq_true hc, ht, decide_eq_true hi, hm]; rfl) _

theorem State.age_retires {die core p : Nat} (h : s.freeSpare die = some p) : s.age die core =
    (s.bindSpare die core p).setDieAt die
      { (s.bindSpare die core p).dieAt die with retired := ((s.bindSpare die core p).dieAt die).retired ++ [s.physOf die core] } := by
  unfold State.age
  rw [h]

theorem State.age_reports {die core : Nat} (h : s.freeSpare die = none) : s.age die core =
    s.setDieAt die { s.dieAt die with evlog := (s.dieAt die).evlog ++ [core] } := by
  unfold State.age
  rw [h]

/-! ### The host's accesses, the die map and the L2 mode -/

theorem execCxlMemAccess_writes {fn addr : Nat} {bs : List Byte} (hf : fn < 4) (hu : s.mill.dieUp.getLsbD fn = true)
    (ha : addr + bs.length ≤ min (Config.cxlWindow fn) (2 ^ 36)) : execCxlMemAccess fn addr true bs s =
      .next (s.fresh.devWrite { key := physKey fn addr, home := fn, keyNo := 0, mtype := 0, mclass := 0 } bs) :=
  event_due (by rw [decide_eq_true hf, hu, decide_eq_true ha]; rfl) _

theorem execCxlMemAccess_reads (fn addr : Nat) (bs : List Byte) : execCxlMemAccess fn addr false bs s = .next s := rfl

theorem execDieMapChange_due {v : BitVec 64} (hon : s.mill.on = true) (hok : mapOk v.toNat = true) (hq : s.mapQuiet v.toNat = true) :
    execDieMapChange v s = .next (s.fresh.setMap v.toNat) :=
  event_due (by rw [hon, hok, hq]; rfl) _

theorem execL2ModeChange_due {die : Nat} {b : Bool} (hd : die < 4) (hon : s.mill.on = true)
    (hc : s.ctxs.any (fun p => p.2.live && p.2.die = die && !p.2.out) = false) (hb : (s.dieLines die).any (fun ln => s.entryBusy die ln) = false) :
    execL2ModeChange die b s = .next (s.fresh.changeMode die b) :=
  event_due (by rw [decide_eq_true hd, hon, hc, hb]; rfl) _

/-- The mode is the new one, and no filter entry of the die is left. -/
theorem State.changeMode_leaves (s : State) (die : Nat) (b : Bool) :
    ((s.changeMode die b).dieAt die).priv = b ∧ ∀ e ∈ (s.changeMode die b).filt, e.1 ≠ die := by
  unfold State.changeMode
  dsimp only
  exact ⟨by rw [State.dieAt_setDieAt], fun e he => of_decide_eq_true (List.mem_filter.1 he).2⟩

end

/-- Settles O53. That the last of six dies brings FULL is log 49, and the average is over the samples so far (log 51). -/
theorem moduleEvents : Obligations.ModuleEvents := by
  unfold Obligations.ModuleEvents
  intro s fn die core addr watts v bs b temps
  refine ⟨?_, ?_, ?_, ?_, ?_, ?_, ?_, ?_, ?_, ?_, ?_⟩
  · intro hbar
    refine ⟨fun hf => ?_, fun hl => ?_, fun hl => ?_⟩
    · have hrun := (exec_registerWrite fn 0x100 v s).trans (execRegisterWrite_mbcmd hbar hf)
      refine ⟨fun hbusy => hrun.trans (congrArg Host.Outcome.next (State.writeCmd_busy (s := s.fresh) hbusy)), fun hidle => ?_⟩
      have hstart := hrun.trans (congrArg Host.Outcome.next (State.writeCmd_starts (s := s.fresh) hidle))
      exact ⟨fun ho => hstart.trans (congrArg Host.Outcome.next (if_pos ho)),
        fun ho => hstart.trans (congrArg Host.Outcome.next (if_neg (ne_true_of_eq_false ho)))⟩
    · exact (exec_featacceptWrite v s).trans ((event_due hbar _).trans (congrArg Host.Outcome.next (State.writeFeats_locked (s := s.fresh) hl)))
    · exact (exec_featacceptWrite v s).trans ((event_due hbar _).trans (congrArg Host.Outcome.next (State.writeFeats_open (s := s.fresh) hl)))
  · intro hoff
    exact ⟨_, (exec_powerGood s).trans (event_due (by rw [hoff]; rfl) _), s.fresh.start_starts⟩
  · intro hw hon hst hd ht
    exact ⟨_, (exec_dieAdmit die true s).trans (execDieAdmit_trains hw hon hst (by omega) ht), State.train_keeps (s := s.fresh) hd hst⟩
  · intro hw hd
    exact (exec_dieAdmit die true s).trans (execDieAdmit_warm hw hd)
  · intro hon hb
    exact ⟨_, (exec_powerLoss b s).trans (execPowerLoss_due hon hb), s.fresh.powerOff_leaves b⟩
  · intro hon
    refine ⟨⟨_, (exec_powerSample watts s).trans (event_due hon _), s.fresh.powerSample_power watts, State.powerSample_alarms (s := s.fresh)⟩, ?_⟩
    intro hl top
    have hrun := (exec_thermalSample temps s).trans (execThermalSample_due hon hl)
    exact ⟨fun hhot => hrun.trans (congrArg Host.Outcome.next (if_pos hhot)),
      fun hcool => hrun.trans (congrArg Host.Outcome.next (if_neg (Nat.not_le.2 hcool)))⟩
  · intro hd hc ht hi hm
    have hrun := (exec_coreAgeingCheck die core true s).trans (execCoreAgeingCheck_due hd hc ht hi hm)
    exact ⟨fun p hp => hrun.trans (congrArg Host.Outcome.next (State.age_retires (s := s.fresh) hp)),
      fun hn => hrun.trans (congrArg Host.Outcome.next (State.age_reports (s := s.fresh) hn))⟩
  · intro hf hu ha
    exact (exec_cxlMemAccess fn addr true bs s).trans (execCxlMemAccess_writes hf hu ha)
  · exact ⟨s, (exec_cxlMemAccess fn addr false bs s).trans (execCxlMemAccess_reads fn addr bs), rfl⟩
  · intro hon hok hq old new
    have hrun := (exec_dieMapChange v s).trans (execDieMapChange_due hon hok hq)
    exact ⟨fun h => hrun.trans (congrArg Host.Outcome.next (if_pos h)), fun h => hrun.trans (congrArg Host.Outcome.next (if_neg h))⟩
  · intro hd hon hc hb
    obtain ⟨hpriv, hfilt⟩ := s.fresh.changeMode_leaves die b
    exact ⟨_, (exec_l2ModeChange die b s).trans (execL2ModeChange_due hd hon hc hb), hpriv, hfilt⟩

end Sys2Proof.Machine

end

section
/-! PROOFS. The operations of the model that write no byte of memory, in the order of the model's files. -/

namespace Sys2Proof.Machine

@[simp] theorem State.ite_mem (c : Prop) [Decidable c] (s t : State) : (if c then s else t).mem = if c then s.mem else t.mem := apply_ite State.mem c s t

/-- A fold whose every step leaves memory as it was. -/
theorem State.foldl_mem {α : Type} {f : State → α → State} (h : ∀ t a, (f t a).mem = t.mem) (s : State) (l : List α) : (l.foldl f s).mem = s.mem := by
  induction l generalizing s with
  | nil => rfl
  | cons a l ih => exact (ih _).trans (h s a)

/-! ### Operations of `Machine/Ops` -/

@[simp] theorem State.handlerFail_mem (s : State) (die core : Nat) : (s.handlerFail die core).mem = s.mem := rfl

@[simp] theorem State.raiseHalt_mem (s : State) (die part cls sub : Nat) : (s.raiseHalt die part cls sub).mem = s.mem := by
  unfold State.raiseHalt
  dsimp only
  split <;> simp

@[simp] theorem State.takeTrap_mem (s : State) (id : EngId) (t : TrapRec) : (s.takeTrap id t).mem = s.mem := by
  unfold State.takeTrap
  dsimp only
  split
  · exact State.handlerFail_mem _ _ _
  · rw [State.raiseHalt_mem]
    split
    · rfl
    · exact State.setEngAt_mem _ _ _

@[simp] theorem State.haltPart_mem (s : State) (die part : Nat) : (s.haltPart die part).mem = s.mem := by
  unfold State.haltPart
  split
  · rfl
  · rw [State.ite_mem, State.setPartAt_mem, State.foldl_mem fun _ _ => State.setCoreAt_mem _ _ _ _, ite_self]

@[simp] theorem State.raiseSaved_mem (s : State) (die core : Nat) : (s.raiseSaved die core).mem = s.mem := by
  have one (t : State) (e : Eng) : (match (t.engAt ⟨die, core, e⟩).savedTrap with
      | some x => (t.setEngAt ⟨die, core, e⟩ { t.engAt ⟨die, core, e⟩ with savedTrap := none }).takeTrap ⟨die, core, e⟩ x
      | none => t).mem = t.mem := by split <;> simp
  exact (one _ .x).trans ((one _ .m).trans ((one _ .v).trans (one s .c)))

@[simp] theorem State.resumePart_mem (s : State) (die part : Nat) : (s.resumePart die part).mem = s.mem := by
  unfold State.resumePart
  dsimp only
  rw [State.foldl_mem fun _ _ => State.raiseSaved_mem _ _ _, State.setPartAt_mem, State.foldl_mem fun _ _ => State.setCoreAt_mem _ _ _ _]

@[simp] theorem State.markEffect_mem (s : State) : s.markEffect.mem = s.mem := rfl

@[simp] theorem State.advance_mem (s : State) (f : Form) : (s.advance f).mem = s.mem := by
  unfold State.advance
  simp only [State.ite_mem, State.handlerFail_mem, State.stamp_mem, State.setMe_mem, State.markEffect_mem, ite_self]

@[simp] theorem State.setPend_mem (s : State) (p : Option PendTerm) : (s.setPend p).mem = s.mem := by simp [State.setPend]
@[simp] theorem State.dropPend_mem (s : State) : s.dropPend.mem = s.mem := by simp [State.dropPend]

@[simp] theorem State.illegal_mem (s : State) (sub : Nat) (f : Form) : (s.illegal sub f).mem = s.mem := by
  unfold State.illegal
  split <;> simp

/-! ### Operations of `Machine/Operands` -/

@[simp] theorem State.landX_mem (s : State) (d : Nat) (v : Word) (lmax : Nat) : (s.landX d v lmax).mem = s.mem := by simp [State.landX]
@[simp] theorem State.landP_mem (s : State) (d : Nat) (v : Bool) (lmax : Nat) : (s.landP d v lmax).mem = s.mem := by simp [State.landP]
@[simp] theorem State.landB_mem (s : State) (i : Nat) (v : Word) (lmax : Nat) : (s.landB i v lmax).mem = s.mem := rfl
@[simp] theorem State.noteLanding_mem (s : State) (r lmax : Nat) : (s.noteLanding r lmax).mem = s.mem := rfl
@[simp] theorem State.landV_mem (s : State) (v : Nat) (f : Nat → Option Lane) (lmax : Nat) : (s.landV v f lmax).mem = s.mem := rfl
@[simp] theorem State.landQ_mem (s : State) (d : Nat) (x : Word) (lmax : Nat) : (s.landQ d x lmax).mem = s.mem := by simp [State.landQ]
@[simp] theorem State.landVL_mem (s : State) (n lmax : Nat) : (s.landVL n lmax).mem = s.mem := rfl

/-! ### Operations of `Machine/Memory` -/

@[simp] theorem State.setLine_mem (s : State) (line die : Nat) (l : Line) : (s.setLine line die l).mem = s.mem := rfl
@[simp] theorem State.setDir_mem (s : State) (line : Nat) (d : Dir) : (s.setDir line d).mem = s.mem := rfl

@[simp] theorem State.cacheVa_mem (s : State) (ctx va : Nat) : (s.cacheVa ctx va).mem = s.mem := by
  unfold State.cacheVa
  dsimp only
  split <;> simp

@[simp] theorem State.dropTlb_mem (s : State) (p : TlbEnt → Bool) : (s.dropTlb p).mem = s.mem := rfl
@[simp] theorem State.request_mem (s : State) (k : ReqKind) (die line : Nat) : (s.request k die line).mem = s.mem := by simp [State.request]

@[simp] theorem State.markSector_mem (s : State) (die core u : Nat) : (s.markSector die core u).mem = s.mem := by
  unfold State.markSector
  dsimp only
  split
  · rfl
  · split
    case h_1 h => obtain ⟨g, rfl⟩ := State.own_shape h; rfl
    · rfl

@[simp] theorem State.spWrite_mem (s : State) (die core lo : Nat) (data : List Byte) :
    (s.spWrite die core lo data).mem = s.mem := by simp [State.spWrite, State.foldl_mem]

@[simp] theorem State.putCopies_mem (s : State) (key : Nat) (b : Byte) : (s.putCopies key b).mem = s.mem := by
  unfold State.putCopies
  dsimp only
  rw [State.foldl_mem fun _ _ => by simp]

@[simp] theorem State.ackItem_mem (s : State) (src die core pid : Nat) (dropped : Bool) : (s.ackItem src die core pid dropped).mem = s.mem := rfl
@[simp] theorem State.send_mem (s : State) (m : OutItem × Posted) : (s.send m).mem = s.mem := rfl
@[simp] theorem State.post_mem (s : State) (die core : Nat) (e : Eng) (p : Phys) (expDie : Nat) (data : List Byte) (copy : Bool) :
    (s.post die core e p expDie data copy).mem = s.mem := rfl

@[simp] theorem State.noteReq_mem (s : State) (i : Instr) (addr : Nat) (once : Bool) : (s.noteReq i addr once).mem = s.mem := by
  unfold State.noteReq
  dsimp only
  split <;> simp

/-! ### Operations of `Machine/Flags` -/

@[simp] theorem State.orFlags_mem (s : State) (f : Flags) : (s.orFlags f).mem = s.mem := rfl
@[simp] theorem State.srStep_mem (s : State) (sr : Bool) : (s.srStep sr).mem = s.mem := by simp [State.srStep]
@[simp] theorem State.landFloat_mem (s : State) (vd : Nat) (on : Nat → Bool) (f : Nat → LaneRes) (lmax : Nat) (sr : Bool) :
    (s.landFloat vd on f lmax sr).mem = s.mem := by simp [State.landFloat]

/-! ### Operations of `Machine/Loads` -/

@[simp] theorem State.landLoad_mem (s : State) (d m : Nat) (bs : List Byte) (lmax : Nat) : (s.landLoad d m bs lmax).mem = s.mem := by simp [State.landLoad]
@[simp] theorem State.stampRemote_mem (s : State) (die core : Nat) : (s.stampRemote die core).mem = s.mem := rfl
@[simp] theorem State.setSpov_mem (s : State) : s.setSpov.mem = s.mem := rfl
@[simp] theorem State.landOld_mem (s : State) (d n old lmax : Nat) : (s.landOld d n old lmax).mem = s.mem := by simp [State.landOld]

/-! ### Operations of `Machine/Operands` -/

@[simp] theorem State.flush_mem (s : State) (d : Nat) (covered : List OutItem) (mask : Nat) : (s.flush_ d covered mask).mem = s.mem := by simp [State.flush_]

/-! ### Operations of `Machine/Chain` -/

@[simp] theorem State.tryForm_mem (s : State) (ctx chain i : Nat) : (s.tryForm ctx chain i).mem = s.mem := by
  unfold State.tryForm
  dsimp only
  split <;> simp

@[simp] theorem State.formChain_mem (s : State) (ctx chain : Nat) : (s.formChain ctx chain).mem = s.mem := by simp [State.formChain, State.foldl_mem]
@[simp] theorem State.formAll_mem (s : State) : s.formAll.mem = s.mem := by simp [State.formAll, State.foldl_mem]
@[simp] theorem State.freeze_mem (s : State) (ctx chain cause named : Nat) (marks : List Nat) (lost : Bool) :
    (s.freeze ctx chain cause named marks lost).mem = s.mem := by
  unfold State.freeze
  dsimp only
  rw [State.foldl_mem fun t a => by split <;> simp]
  split
  · split <;> simp
  · rw [State.setChain_mem, State.foldl_mem fun _ _ => State.setLink_mem _ _ _]

@[simp] theorem State.freezeAll_mem (s : State) (cause : Nat) (mark lost : Bool) (named : State → Chain → List Nat) :
    (s.freezeAll cause mark lost named).mem = s.mem := by
  unfold State.freezeAll
  refine State.foldl_mem (fun t a => ?_) _ _
  split <;> simp

@[simp] theorem State.freezeTask_mem (s : State) (task : Nat × Nat × Nat) : (s.freezeTask task).mem = s.mem := by simp [State.freezeTask]
@[simp] theorem State.freezeUncorr_mem (s : State) (die core : Nat) : (s.freezeUncorr die core).mem = s.mem := by simp [State.freezeUncorr]
@[simp] theorem State.freezeExport_mem (s : State) (exp : Nat) : (s.freezeExport exp).mem = s.mem := by simp [State.freezeExport]
@[simp] theorem State.freezeDie_mem (s : State) (die : Nat) : (s.freezeDie die).mem = s.mem := by simp [State.freezeDie]
@[simp] theorem State.freezeWarm_mem (s : State) (die : Nat) : (s.freezeWarm die).mem = s.mem := by simp [State.freezeWarm]
@[simp] theorem State.freezeRemap_mem (s : State) (ctx : Nat) : (s.freezeRemap ctx).mem = s.mem := by simp [State.freezeRemap]
@[simp] theorem State.setCloseCore_mem (s : State) (ch : Chain) (q : CloseReq) (c : Core) : (s.setCloseCore ch q c).mem = s.mem := by simp [State.setCloseCore]

@[simp] theorem State.closeStart_mem (s : State) (ch : Chain) : (s.closeStart ch).mem = s.mem := by
  unfold State.closeStart
  split <;> simp

@[simp] theorem State.closeLand_mem (s : State) (ch : Chain) (q : CloseReq) (tail : LinkRef) : (s.closeLand ch q tail).mem = s.mem := by
  unfold State.closeLand
  dsimp only
  rw [State.setChain_mem, State.foldl_mem fun _ _ => State.setLink_mem _ _ _, State.foldl_mem fun _ _ => State.markSector_mem _ _ _ _, State.setCloseCore_mem]

@[simp] theorem State.build_mem (s : State) (c : Nat) (ls : List (LinkRef × LinkEntry × Nat)) : (s.build c ls).mem = s.mem := by
  unfold State.build
  exact State.foldl_mem (fun _ _ => State.setLink_mem _ _ _) _ _

@[simp] theorem State.bindSpare_mem (s : State) (die core p : Nat) : (s.bindSpare die core p).mem = s.mem := rfl
@[simp] theorem State.retireFailed_mem (s : State) (die phys : Nat) : (s.retireFailed die phys).mem = s.mem := by simp [State.retireFailed]
@[simp] theorem State.splice_mem (s : State) (ch : Chain) (pos : Nat) (oldRef newRef : LinkRef) (own : Nat) (clear : Bool) :
    (s.splice ch pos oldRef newRef own clear).mem = s.mem := by simp [State.splice]

@[simp] theorem State.thaw_mem (s : State) (ch : Chain) : (s.thaw ch).mem = s.mem := by
  unfold State.thaw
  dsimp only
  rw [State.formChain_mem, State.setChain_mem, State.foldl_mem fun _ _ => State.setLink_mem _ _ _]

@[simp] theorem State.release_mem (s : State) (ch : Chain) : (s.release ch).mem = s.mem := by simp [State.release, State.foldl_mem]

@[simp] theorem State.hopArrive_mem (s : State) (n : Nat) (h : Hop) : (s.hopArrive n h).mem = s.mem := by
  unfold State.hopArrive
  dsimp only
  split <;> simp

/-! ### Operations of `Machine/Control` -/

@[simp] theorem State.linkReg_mem (s : State) : s.linkReg.mem = s.mem := by simp [State.linkReg]
@[simp] theorem State.readCnt_mem (s : State) (d n : Nat) : (s.readCnt d n).mem = s.mem := by simp [State.readCnt]
@[simp] theorem State.after_mem (s : State) (g : Nat) : (s.after g).mem = s.mem := rfl

/-! ### Operations of `Machine/Matrix` -/

@[simp] theorem State.mWait_mem (s : State) : s.mWait.mem = s.mem := rfl
@[simp] theorem State.startOp_mem (s : State) (slot key : Nat) (sparse flush : Bool) (cfg : Word) (active : NestSet) (fromShadow : Bool) (rs : List (Nat × Nat)) :
    (s.startOp slot key sparse flush cfg active fromShadow rs).mem = s.mem := rfl

@[simp] theorem State.landInto_mem (s : State) (key : Nat) : (s.landInto key).mem = s.mem := by simp [State.landInto]
@[simp] theorem State.landOp_mem (s : State) (die core : Nat) (o : MOp) : (s.landOp die core o).mem = s.mem := by simp [State.landOp]
@[simp] theorem State.addGroup_mem (s : State) (die core : Nat) (o : MOp) (v : List Vec × List Vec) :
    (s.addGroup die core o v).mem = s.mem := by simp [State.addGroup]

@[simp] theorem State.dumpStat_mem (s : State) (dst : Nat) : (s.dumpStat dst).mem = s.mem := by simp [State.dumpStat]

/-! ### Operations of `Machine/Sync` -/

@[simp] theorem State.setFlags_mem (s : State) (ctx : Nat) (fs : Tab (BitVec 32)) : (s.setFlags ctx fs).mem = s.mem := rfl
@[simp] theorem State.wrapTags_mem (s : State) (ctx f : Nat) (old : Tab (BitVec 32)) (new : Tab (BitVec 32)) :
    (s.wrapTags ctx f old new).mem = s.mem := by simp [State.wrapTags]

@[simp] theorem State.arriveDeferred_mem (s : State) (die core : Nat) (d : Deferred) : (s.arriveDeferred die core d).mem = s.mem := by
  unfold State.arriveDeferred State.arriveAt
  dsimp only
  split <;> simp

@[simp] theorem State.settleDefer_mem (s : State) (die core : Nat) : (s.settleDefer die core).mem = s.mem := by simp [State.settleDefer, State.foldl_mem]
@[simp] theorem State.settleAll_mem (s : State) : s.settleAll.mem = s.mem := by simp [State.settleAll, State.foldl_mem]
@[simp] theorem State.resumeWhole_mem (s : State) (die part : Nat) : (s.resumeWhole die part).mem = s.mem := by simp [State.resumeWhole]

/-! ### Operations of `Machine/Coherence` -/

@[simp] theorem State.filterAdd_mem (s : State) (die line : Nat) : (s.filterAdd die line).mem = s.mem := rfl
@[simp] theorem State.filterPrune_mem (s : State) : s.filterPrune.mem = s.mem := rfl
@[simp] theorem State.sectorDrop_mem (s : State) (die core u : Nat) : (s.sectorDrop die core u).mem = s.mem := rfl
@[simp] theorem State.revokeImport_mem (s : State) (ctx slot : Nat) : (s.revokeImport ctx slot).mem = s.mem := rfl
@[simp] theorem State.takeLine_mem (s : State) (die line : Nat) (st : LineSt) : (s.takeLine die line st).mem = s.mem := rfl
@[simp] theorem State.grantS_mem (s : State) (die line : Nat) : (s.grantS die line).mem = s.mem := by simp [State.grantS]
@[simp] theorem State.answer_mem (s : State) (f : Fwd) : (s.answer f).mem = s.mem := rfl

@[simp] theorem State.arriveFwd_mem (s : State) (n : Nat) (f : Fwd) : (s.arriveFwd n f).mem = s.mem := by
  unfold State.arriveFwd
  split <;> simp

@[simp] theorem State.ackStore_mem (s : State) (n : Nat) (a : StoreAck) : (s.ackStore n a).mem = s.mem := by simp [State.ackStore]

@[simp] theorem State.dropExport_mem (s : State) (exp : Nat) : (s.dropExport exp).mem = s.mem := by
  unfold State.dropExport
  dsimp only
  iterate 4 rw [State.foldl_mem fun _ _ => State.ackItem_mem _ _ _ _ _ _]

@[simp] theorem State.revokeImports_mem (s : State) (exp : Nat) : (s.revokeImports exp).mem = s.mem := rfl

@[simp] theorem State.dropCopies_mem (s : State) (die : Nat) : (s.dropCopies die).mem = s.mem := by
  unfold State.dropCopies
  dsimp only
  rw [State.foldl_mem fun _ _ => by simp]

@[simp] theorem State.stopDie_mem (s : State) (die : Nat) : (s.stopDie die).mem = s.mem := rfl

/-! ### Operations of `Machine/Copy` -/

@[simp] theorem State.onRemote_mem (s : State) (k : Copy) (f : Core → Core) : (s.onRemote k f).mem = s.mem := by
  unfold State.onRemote
  split <;> simp

@[simp] theorem State.remoteWrite_mem (s : State) (k : Copy) (ws : List (Nat × Byte)) : (s.remoteWrite k ws).mem = s.mem := by
  unfold State.remoteWrite
  split <;> simp [State.foldl_mem]

@[simp] theorem State.setHead_mem (s : State) (die core : Nat) (f : Copy → Copy) : (s.setHead die core f).mem = s.mem := rfl
@[simp] theorem State.groupWaits_mem (s : State) (die core a : Nat) : (s.groupWaits die core a).mem = s.mem := rfl
@[simp] theorem State.copyFault_mem (s : State) (die core : Nat) (k : Copy) (t : TrapRec) : (s.copyFault die core k t).mem = s.mem := by simp [State.copyFault]
@[simp] theorem State.landCopy_mem (s : State) (die core : Nat) (k : Copy) : (s.landCopy die core k).mem = s.mem := by simp [State.landCopy]

theorem State.sendAll_mem (s : State) (ms : List (OutItem × Posted)) : (s.sendAll ms).1.mem = s.mem := by
  induction ms generalizing s with
  | nil => rfl
  | cons m ms ih =>
    unfold State.sendAll
    split
    · exact (ih _).trans (State.send_mem _ _)
    · rfl

@[simp] theorem State.sendGroup_mem (s : State) (die core : Nat) : (s.sendGroup die core).mem = s.mem := by
  unfold State.sendGroup
  rw [State.setHead_mem, State.sendAll_mem]

@[simp] theorem State.copySkid_mem (s : State) (die core : Nat) : (s.copySkid die core).mem = s.mem := rfl

@[simp] theorem State.landIfDone_mem (s : State) (die core : Nat) : (s.landIfDone die core).mem = s.mem := by
  unfold State.landIfDone
  split <;> simp

/-! ### Operations of `Machine/Helper` -/

@[simp] theorem State.setHelper_mem (s : State) (h : Helper) : (s.setHelper h).mem = s.mem := rfl
@[simp] theorem State.hNext_mem (s : State) : s.hNext.mem = s.mem := rfl
@[simp] theorem State.helperFault_mem (s : State) (t : TrapRec) : (s.helperFault t).mem = s.mem := by simp [State.helperFault]
@[simp] theorem State.stampHelper_mem (s : State) : s.stampHelper.mem = s.mem := rfl

/-! ### Operations of `Machine/Hatbox` -/

@[simp] theorem State.setHatbox_mem (s : State) (ctx : Nat) (h : Hatbox) : (s.setHatbox ctx h).mem = s.mem := rfl
@[simp] theorem State.notePid_mem (s : State) (die core pid : Nat) : (s.notePid die core pid).mem = s.mem := rfl

@[simp] theorem State.landHead_mem (s : State) (die core : Nat) : (s.landHead die core).mem = s.mem := by
  unfold State.landHead
  split <;> simp

@[simp] theorem State.postPut_mem (s : State) (die core : Nat) (k : Copy) (slot : Nat) (w : ImportEnt) (target : Nat) (home : Option Nat) :
    (s.postPut die core k slot w target home).mem = s.mem := by
  unfold State.postPut
  rw [State.landHead_mem, State.notePid_mem]
  rfl

/-! ### Operations of `Machine/Param` -/

@[simp] theorem State.awaitUpdate_mem (s : State) (ctx : Nat) (p : Phys) (ls : List Lane) : (s.awaitUpdate ctx p ls).mem = s.mem := by simp [State.awaitUpdate]
@[simp] theorem State.ackUnit_mem (s : State) (m : UnitMsg) (dropped : Bool) : (s.ackUnit m dropped).mem = s.mem := rfl
@[simp] theorem State.dropUnit_mem (s : State) (m : UnitMsg) : (s.dropUnit m).mem = s.mem := rfl
@[simp] theorem State.foreignAnswer_mem (s : State) (m : UnitMsg) : (s.foreignAnswer m).mem = s.mem := by simp [State.foreignAnswer]
@[simp] theorem State.postUnit_mem (s : State) (die core : Nat) (grad : Bool) (m : UnitMsg) (imp : Nat) : (s.postUnit die core grad m imp).mem = s.mem := rfl
@[simp] theorem State.unitDone_mem (s : State) (die core : Nat) (k : Copy) : (s.unitDone die core k).mem = s.mem := by simp [State.unitDone]

/-! ### Operations of `Machine/Gossip` -/

@[simp] theorem State.setGossip_mem (s : State) (ctx : Nat) (g : Gossip) : (s.setGossip ctx g).mem = s.mem := rfl
@[simp] theorem State.setPort_mem (s : State) (n : Nat) (p : Port) : (s.setPort n p).mem = s.mem := rfl
@[simp] theorem State.sendHalf_mem (s : State) (ctx : Nat) (g : Gossip) (n port : Nat) (half : List Lane) (ks : Nat) :
    (s.sendHalf ctx g n port half ks).mem = s.mem := rfl

@[simp] theorem State.reply_mem (s : State) (port : Nat) (ok : Bool) (seq : BitVec 32) : (s.reply port ok seq).mem = s.mem := rfl

@[simp] theorem State.dropHalf_mem (s : State) (ctx n : Nat) : (s.dropHalf ctx n).mem = s.mem := by
  unfold State.dropHalf
  split <;> simp

@[simp] theorem State.resend_mem (s : State) (ctx : Nat) (g : Gossip) (n : Nat) (o : OutHalf) : (s.resend ctx g n o).mem = s.mem := rfl
@[simp] theorem State.portFail_mem (s : State) (port : Nat) : (s.portFail port).mem = s.mem := rfl

/-! ### Operations of `Machine/Landing` -/

@[simp] theorem State.landDue_mem (s : State) : s.landDue.mem = s.mem := by simp [State.landDue, State.foldl_mem]
@[simp] theorem State.landNow_mem (s : State) (die core : Nat) : (s.landNow die core).mem = s.mem := by simp [State.landNow]

/-! ### Operations of `Machine/Sched` -/

@[simp] theorem State.entryDone_mem (s : State) (die q idx : Nat) : (s.entryDone die q idx).mem = s.mem := rfl
@[simp] theorem State.pass_mem (s : State) (die q : Nat) : (s.pass die q).mem = s.mem := rfl
@[simp] theorem State.skipEntry_mem (s : State) (die q : Nat) : (s.skipEntry die q).mem = s.mem := by simp [State.skipEntry]
@[simp] theorem State.setGraph_mem (s : State) (g : Graph) : (s.setGraph g).mem = s.mem := rfl
@[simp] theorem State.dropTags_mem (s : State) (inst : Nat) : (s.dropTags inst).mem = s.mem := by simp [State.dropTags]

@[simp] theorem State.abandonInto_mem (s : State) (os : List (MOp × Nat)) : (s.abandonInto os).mem = s.mem := by
  unfold State.abandonInto
  dsimp only
  rw [State.foldl_mem fun _ _ => by simp]

@[simp] theorem State.abandonOps_mem (s : State) (die core : Nat) : (s.abandonOps die core).mem = s.mem := by simp [State.abandonOps]

@[simp] theorem State.haltNow_mem (s : State) (die part : Nat) : (s.haltNow die part).mem = s.mem := by
  unfold State.haltNow
  split <;> simp [State.foldl_mem]

@[simp] theorem State.leaveRemote_mem (s : State) (die core : Nat) (ks : List Copy) :
    (s.leaveRemote die core ks).mem = s.mem := by simp [State.leaveRemote, State.foldl_mem]

@[simp] theorem State.noteIdle_mem (s : State) (die core : Nat) : (s.noteIdle die core).mem = s.mem := rfl

@[simp] theorem State.commitAll_mem (s : State) (g : Graph) : (s.commitAll g).mem = s.mem := by
  unfold State.commitAll
  dsimp only
  rw [State.foldl_mem fun _ _ => by simp]

@[simp] theorem State.startTile_mem (s : State) (gid i core : Nat) (img : List Byte) : (s.startTile gid i core img).mem = s.mem := by
  unfold State.startTile
  repeat' split
  all_goals simp

@[simp] theorem State.handBack_mem (s : State) (t : RunTask) : (s.handBack t).mem = s.mem := by
  unfold State.handBack
  repeat' split
  all_goals simp

@[simp] theorem State.markChosen_mem (s : State) (r : Ready) (drain : Option Nat) : (s.markChosen r drain).mem = s.mem := by
  unfold State.markChosen
  repeat' split
  all_goals simp

@[simp] theorem State.countSignal_mem (s : State) (gid i tile : Nat) : (s.countSignal gid i tile).mem = s.mem := by
  unfold State.countSignal
  repeat' split
  all_goals simp

@[simp] theorem State.endStream_mem (s : State) : s.endStream.mem = s.mem := by simp [State.endStream]
@[simp] theorem State.markSignal_mem (s : State) : s.markSignal.mem = s.mem := by simp [State.markSignal]

/-! ### Operations of `Machine/VecMem` -/

@[simp] theorem State.keepGot_mem (s : State) (i : Instr) (ea : Nat) (got : List (Nat × Lane)) : (s.keepGot i ea got).mem = s.mem := by simp [State.keepGot]

@[simp] theorem State.storeElem_mem (s : State) (e : Elem) (p : Phys) (w : Lane) : (s.storeElem e p w).mem = s.mem := by
  unfold State.storeElem
  split <;> simp

@[simp] theorem State.landElems_mem (s : State) (v : Nat) (ws : List (Nat × Lane)) (lmax : Nat) : (s.landElems v ws lmax).mem = s.mem := rfl

/-! ### Operations of `Machine/Traps` -/

@[simp] theorem State.doRaise_mem (s : State) (id : EngId) : (s.doRaise id).mem = s.mem := by
  unfold State.doRaise
  dsimp only
  split <;> simp

@[simp] theorem State.enterBlock_mem (s : State) (id : EngId) : (s.enterBlock id).mem = s.mem := by simp [State.enterBlock]
@[simp] theorem State.toContain_mem (s : State) (die part : Nat) : (s.toContain die part).mem = s.mem := rfl

@[simp] theorem State.deliver_mem (s : State) (die part : Nat) (h : HaltSt) : (s.deliver die part h).mem = s.mem := by
  unfold State.deliver
  dsimp only
  split
  · simp
  · simp
  · split
    · simp
    · split
      · simp
      · split <;> simp

@[simp] theorem State.freePart_mem (s : State) (id : Nat) : (s.freePart id).mem = s.mem := by
  unfold State.freePart
  dsimp only
  split
  · rw [State.setPartAt_mem, State.foldl_mem fun _ _ => State.setCoreAt_mem _ _ _ _]
  · rfl

@[simp] theorem State.endCtx_mem (s : State) (id : Nat) : (s.endCtx id).mem = s.mem := rfl
@[simp] theorem State.resumeIf_mem (s : State) (die part : Nat) : (s.resumeIf die part).mem = s.mem := by simp [State.resumeIf]
@[simp] theorem State.loseSlot_mem (s : State) (die core slot : Nat) : (s.loseSlot die core slot).mem = s.mem := rfl
@[simp] theorem State.uncorrectable_mem (s : State) (die core : Nat) (e : Eng) (kind : Nat) :
    (s.uncorrectable die core e kind).mem = s.mem := by simp [State.uncorrectable]

@[simp] theorem State.timeout_mem (s : State) (die core : Nat) (e : Eng) : (s.timeout die core e).mem = s.mem := by
  unfold State.timeout
  dsimp only
  split
  · split <;> simp
  · split
    · split <;> simp
    · rfl

@[simp] theorem State.replied_mem (s : State) (cur : EngId) (saved : Option Req) : (s.replied cur saved).mem = s.mem := rfl

@[simp] theorem State.quiet_mem (s : State) (die part sub : Nat) : (s.quiet die part sub).mem = s.mem := by
  unfold State.quiet
  dsimp only
  split <;> simp

@[simp] theorem State.loadFlags_mem (s : State) (ctx : Nat) : (s.loadFlags ctx).mem = s.mem := rfl
@[simp] theorem State.remap_mem (s : State) (ctx : Nat) : (s.remap ctx).mem = s.mem := by simp [State.remap]

@[simp] theorem State.loadFull_mem (s : State) (ctx : Nat) : (s.loadFull ctx).mem = s.mem := by
  unfold State.loadFull
  dsimp only
  split
  · rfl
  · rw [State.setCtx_mem, State.setPartAt_mem, State.foldl_mem fun _ _ => State.setCoreAt_mem _ _ _ _]

@[simp] theorem State.switchIn_mem (s : State) (ctx : Nat) : (s.switchIn ctx).mem = s.mem := by
  unfold State.switchIn
  dsimp only
  have hq (t : State) (c : Ctx) (l : List Nat) : (l.foldl (fun s q => s.setQueue c.die q
      { s.queueAt c.die q with tail := (s.queueAt c.die q).shadow.getD (s.queueAt c.die q).tail, shadow := none, frozen := none }) t).mem = t.mem :=
    State.foldl_mem (fun _ _ => State.setQueue_mem _ _ _ _) _ _
  split
  · simp [hq]
  · split <;> simp [hq]

/-! ### Operations of `Machine/Milliner` -/

@[simp] theorem State.setMap_mem (s : State) (m : Nat) : (s.setMap m).mem = s.mem := by simp [State.setMap]
@[simp] theorem State.unmapDie_mem (s : State) (die : Nat) : (s.unmapDie die).mem = s.mem := by simp [State.unmapDie]
@[simp] theorem State.setMbox_mem (s : State) (fn : Nat) (m : Mbox) : (s.setMbox fn m).mem = s.mem := rfl
@[simp] theorem State.mbEnd_mem (s : State) (fn code : Nat) (res : List Nat) : (s.mbEnd fn code res).mem = s.mem := rfl
@[simp] theorem State.rearmDie_mem (s : State) (die : Nat) : (s.rearmDie die).mem = s.mem := by simp [State.rearmDie, State.foldl_mem]

@[simp] theorem State.readmit_mem (s : State) (die : Nat) : (s.readmit die).mem = s.mem := by
  unfold State.readmit
  dsimp only
  split <;> simp

@[simp] theorem State.portsUp_mem (s : State) (die : Nat) : (s.portsUp die).mem = s.mem := by
  unfold State.portsUp
  dsimp only
  rw [State.foldl_mem fun _ _ => by simp]

@[simp] theorem State.train_mem (s : State) (die : Nat) (ok : Bool) : (s.train die ok).mem = s.mem := by simp [State.train]
@[simp] theorem State.writeFeats_mem (s : State) (v : Word) : (s.writeFeats v).mem = s.mem := by simp [State.writeFeats]
@[simp] theorem State.writeCmd_mem (s : State) (fn : Nat) (v : Nat) : (s.writeCmd fn v).mem = s.mem := by simp [State.writeCmd]
@[simp] theorem State.powerSample_mem (s : State) (watts : Nat) : (s.powerSample watts).mem = s.mem := rfl

@[simp] theorem State.age_mem (s : State) (die core : Nat) : (s.age die core).mem = s.mem := by
  unfold State.age
  split <;> simp

/-! ### Operations of `Machine/VecFloat` -/

@[simp] theorem State.writeQ_mem (s : State) (d : Nat) (x : Word) (lmax : Nat) : (s.writeQ d x lmax).mem = s.mem := by simp [State.writeQ]
@[simp] theorem State.reduce_mem (s : State) (m d a q : Nat) : (s.reduce m d a q).mem = s.mem := by simp [State.reduce]
@[simp] theorem State.scan_mem (s : State) (m d a q : Nat) : (s.scan m d a q).mem = s.mem := by simp [State.scan]

/-! ### Operations of `Machine/VecInt` -/

@[simp] theorem State.landInt_mem (s : State) (d : Nat) (on : Nat → Bool) (f : Nat → Lane) (lmax : Nat) : (s.landInt d on f lmax).mem = s.mem := rfl

/-! ### Operations of `Machine/VecMove` -/

@[simp] theorem State.landPacked_mem (s : State) (d w : Nat) (f : Nat → Option Nat) (lmax k : Nat) : (s.landPacked d w f lmax k).mem = s.mem := rfl
@[simp] theorem State.cvtTo_mem (s : State) (d a fc q rnd : Nat) : (s.cvtTo d a fc q rnd).mem = s.mem := by simp [State.cvtTo]
@[simp] theorem State.mxq_mem (s : State) (d a vs c : Nat) : (s.mxq d a vs c).mem = s.mem := by simp [State.mxq]

/-! ### Operations of `Machine/Fetch` -/

@[simp] theorem State.clearHalt_mem (s : State) : s.clearHalt.mem = s.mem := rfl

/-! ### Operations of `Machine/Step` -/

@[simp] theorem State.withFetchWord_mem (s : State) (nbits w : Nat) : (s.withFetchWord nbits w).mem = s.mem := by simp [State.withFetchWord]

end Sys2Proof.Machine
end

section
/-! PROOFS. What a check, a wait or a body of an instruction can leave, as far as memory's canonical form is concerned: one rule for each way of
building such an operation, then one lemma for each operation of the model. -/

namespace Sys2Proof.Machine

/-! ### Rules -/

/-- Memory is canonical in the state that `r` stops with, and `p` holds of what it gives. -/
def Res.Keeps {α : Type} (r : Res α) (p : α → Prop) : Prop :=
  match r with
  | .ok a => p a
  | .error (.trap _) => True
  | .error (.wait t) => Memory.wf t.mem = true
  | .error (.jump t) => Memory.wf t.mem = true

@[simp] theorem Res.keeps_ok {α : Type} {p : α → Prop} {a : α} : Res.Keeps (.ok a) p ↔ p a := Iff.rfl
@[simp] theorem Res.keeps_pure {α : Type} {p : α → Prop} {a : α} : Res.Keeps (pure a) p ↔ p a := Iff.rfl
@[simp] theorem Res.keeps_trap {α : Type} {p : α → Prop} {t : TrapRec} : Res.Keeps (.error (.trap t)) p ↔ True := Iff.rfl
@[simp] theorem Res.keeps_wait {α : Type} {p : α → Prop} {t : State} : Res.Keeps (.error (.wait t)) p ↔ Memory.wf t.mem = true := Iff.rfl
@[simp] theorem Res.keeps_jump {α : Type} {p : α → Prop} {t : State} : Res.Keeps (.error (.jump t)) p ↔ Memory.wf t.mem = true := Iff.rfl

@[simp] theorem Res.keeps_bind {α β : Type} {p : β → Prop} {x : Res α} {f : α → Res β} : Res.Keeps (x >>= f) p ↔ x.Keeps fun a => (f a).Keeps p := by
  match x with
  | .ok _ => exact Iff.rfl
  | .error (.trap _) => exact Iff.rfl
  | .error (.wait _) => exact Iff.rfl
  | .error (.jump _) => exact Iff.rfl

@[simp] theorem Res.keeps_map {α β : Type} {p : β → Prop} {x : Res α} {f : α → β} : Res.Keeps (f <$> x) p ↔ x.Keeps fun a => p (f a) := by
  match x with
  | .ok _ => exact Iff.rfl
  | .error (.trap _) => exact Iff.rfl
  | .error (.wait _) => exact Iff.rfl
  | .error (.jump _) => exact Iff.rfl

@[simp] theorem Res.keeps_ite {α : Type} {p : α → Prop} {c : Prop} [Decidable c] {x y : Res α} :
    Res.Keeps (if c then x else y) p ↔ (c → x.Keeps p) ∧ (¬c → y.Keeps p) := by
  split <;> simp [*]

/-- What an operation is known to keep is all that its use has to look at. -/
theorem Res.keeps_iff {α : Type} {p q : α → Prop} {x : Res α} (h : x.Keeps q) : x.Keeps p ↔ ∀ a, x = .ok a → q a → p a := by
  match x with
  | .ok a => exact ⟨fun hp _ e _ => by cases e; exact hp, fun hp => hp a rfl h⟩
  | .error (.trap _) => exact ⟨fun _ _ e => (by cases e), fun _ => trivial⟩
  | .error (.wait _) => exact ⟨fun _ _ e => (by cases e), fun _ => h⟩
  | .error (.jump _) => exact ⟨fun _ _ e => (by cases e), fun _ => h⟩

theorem Res.Keeps.of_ok {α : Type} {q : α → Prop} {x : Res α} {a : α} (h : x.Keeps q) (e : x = .ok a) : q a := by
  subst e
  exact h

theorem Res.Keeps.of_wait {α : Type} {q : α → Prop} {x : Res α} {t : State} (h : x.Keeps q) (e : x = .error (.wait t)) : Memory.wf t.mem = true := by
  subst e
  exact h

theorem Res.Keeps.of_jump {α : Type} {q : α → Prop} {x : Res α} {t : State} (h : x.Keeps q) (e : x = .error (.jump t)) : Memory.wf t.mem = true := by
  subst e
  exact h

@[simp] theorem keeps_stopTrap {α : Type} {p : α → Prop} {cls sub : Nat} {addr : Word} : Res.Keeps (stopTrap cls sub addr) p ↔ True := Iff.rfl

@[simp] theorem keeps_need {p : Unit → Prop} {ok : Bool} {cls sub : Nat} {addr : Word} : Res.Keeps (need ok cls sub addr) p ↔ (ok = true → p ()) := by
  cases ok <;> simp [need]

@[simp] theorem keeps_await {p : Unit → Prop} {ok : Bool} {s : State} :
    Res.Keeps (await ok s) p ↔ (ok = true → p ()) ∧ (ok = false → Memory.wf s.mem = true) := by
  cases ok <;> simp [await]

@[simp] theorem keeps_liftTrap {α : Type} {p : α → Prop} {x : Except TrapRec α} : Res.Keeps (liftTrap x) p ↔ ∀ a, x = .ok a → p a := by
  cases x <;> simp [liftTrap]

@[simp] theorem keeps_liftAt {α : Type} {p : α → Prop} {n : Nat} {x : Except TrapRec α} : Res.Keeps (liftAt n x) p ↔ ∀ a, x = .ok a → p a := by
  cases x <;> simp [liftAt]

@[simp] theorem keeps_asReq {α : Type} {p : α → Prop} {i : Instr} {n : Nat} {b : Bool} {x : Res α} : Res.Keeps (asReq i n b x) p ↔ x.Keeps p := by
  match x with
  | .ok _ => exact Iff.rfl
  | .error (.trap _) => exact Iff.rfl
  | .error (.wait t) => simp [asReq]
  | .error (.jump _) => exact Iff.rfl

@[simp] theorem keeps_groupAwaits {α : Type} {p : α → Prop} {die core n : Nat} {x : Res α} : Res.Keeps (groupAwaits die core n x) p ↔ x.Keeps p := by
  match x with
  | .ok _ => exact Iff.rfl
  | .error (.trap _) => exact Iff.rfl
  | .error (.wait t) => simp [groupAwaits]
  | .error (.jump _) => exact Iff.rfl

theorem State.own_mem {s u : State} {die core : Nat} {t : Option RunTask} {p : Phys} {va n : Nat} {wr : Bool} (h : s.own die core t p va n wr = .ok u) :
    u.mem = s.mem := by
  obtain ⟨g, rfl⟩ := State.own_shape h
  rfl

@[simp high] theorem keeps_liftTrap_own {p : State → Prop} {s : State} {die core : Nat} {t : Option RunTask} {q : Phys} {va n : Nat} {wr : Bool} :
    Res.Keeps (liftTrap (s.own die core t q va n wr)) p ↔ ∀ u, s.own die core t q va n wr = .ok u → u.mem = s.mem → p u :=
  keeps_liftTrap.trans ⟨fun h u e _ => h u e, fun h u e => h u e (State.own_mem e)⟩

@[simp high] theorem keeps_liftAt_own {p : State → Prop} {s : State} {die core : Nat} {t : Option RunTask} {q : Phys} {m va n : Nat} {wr : Bool} :
    Res.Keeps (liftAt m (s.own die core t q va n wr)) p ↔ ∀ u, s.own die core t q va n wr = .ok u → u.mem = s.mem → p u :=
  keeps_liftAt.trans ⟨fun h u e _ => h u e, fun h u e => h u e (State.own_mem e)⟩

/-! ### Writes and folds -/

@[simp] theorem State.putMem_wf {s : State} (h : Memory.wf s.mem = true) (key keyNo : Nat) (data : List Byte) : Memory.wf (s.putMem key keyNo data).mem = true :=
  Memory.wf_mWrite _ _ _ h

theorem State.foldl_wf {α : Type} {f : State → α → State} (hf : ∀ t a, Memory.wf t.mem = true → Memory.wf (f t a).mem = true) {s : State}
    (h : Memory.wf s.mem = true) (l : List α) : Memory.wf (l.foldl f s).mem = true := by
  induction l generalizing s with
  | nil => exact h
  | cons a l ih => exact ih (hf s a h)

end Sys2Proof.Machine
end

section
/-! PROOFS. Every operation of the model keeps memory canonical, in the order of the model's files: operations that give a state, and checks, waits and
bodies, whose `_wf_iff` rule lets a body that uses them forget all but that. -/

namespace Sys2Proof.Machine

/-! ### Operations of `Machine/Memory` -/

theorem State.lineRead_wf {s : State} (hs : Memory.wf s.mem = true) (die : Nat) (but : Option Nat) (line home : Nat) :
    Res.Keeps (s.lineRead die but line home) fun _ => True := by
  simp [State.lineRead, hs]

@[simp] theorem State.lineRead_wf_iff {φ : Unit → Prop} {s : State} (hs : Memory.wf s.mem = true) (die : Nat) (but : Option Nat) (line home : Nat) :
    Res.Keeps (s.lineRead die but line home) φ ↔ ∀ out, s.lineRead die but line home = .ok out → φ out :=
  (Res.keeps_iff (State.lineRead_wf hs _ _ _ _)).trans (by simp)

theorem State.lineWrite_wf {s : State} (hs : Memory.wf s.mem = true) (die : Nat) (but : Option Nat) (line home : Nat) :
    Res.Keeps (s.lineWrite die but line home) fun _ => True := by
  simp [State.lineWrite, hs]

@[simp] theorem State.lineWrite_wf_iff {φ : Unit → Prop} {s : State} (hs : Memory.wf s.mem = true) (die : Nat) (but : Option Nat) (line home : Nat) :
    Res.Keeps (s.lineWrite die but line home) φ ↔ ∀ out, s.lineWrite die but line home = .ok out → φ out :=
  (Res.keeps_iff (State.lineWrite_wf hs _ _ _ _)).trans (by simp)

theorem State.linesRead_wf {s : State} (hs : Memory.wf s.mem = true) (die : Nat) (but : Option Nat) (home : Nat) (xs : List Nat) :
    Res.Keeps (s.linesRead die but home xs) fun _ => True := by
  induction xs with
  | nil => trivial
  | cons a l ih => simp +contextual [State.linesRead, hs, ih]

@[simp] theorem State.linesRead_wf_iff {φ : Unit → Prop} {s : State} (hs : Memory.wf s.mem = true) (die : Nat) (but : Option Nat) (home : Nat) (xs : List Nat) :
    Res.Keeps (s.linesRead die but home xs) φ ↔ ∀ out, s.linesRead die but home xs = .ok out → φ out :=
  (Res.keeps_iff (State.linesRead_wf hs _ _ _ _)).trans (by simp)

theorem State.linesWrite_wf {s : State} (hs : Memory.wf s.mem = true) (die : Nat) (but : Option Nat) (home : Nat) (xs : List Nat) :
    Res.Keeps (s.linesWrite die but home xs) fun _ => True := by
  induction xs with
  | nil => trivial
  | cons a l ih => simp +contextual [State.linesWrite, hs, ih]

@[simp] theorem State.linesWrite_wf_iff {φ : Unit → Prop} {s : State} (hs : Memory.wf s.mem = true) (die : Nat) (but : Option Nat) (home : Nat) (xs : List Nat) :
    Res.Keeps (s.linesWrite die but home xs) φ ↔ ∀ out, s.linesWrite die but home xs = .ok out → φ out :=
  (Res.keeps_iff (State.linesWrite_wf hs _ _ _ _)).trans (by simp)

theorem State.canRead_wf {s : State} (hs : Memory.wf s.mem = true) (die : Nat) (but : Option Nat) (p : Phys) (n : Nat) :
    Res.Keeps (s.canRead die but p n) fun _ => True := by
  simp [State.canRead, hs]

@[simp] theorem State.canRead_wf_iff {φ : Unit → Prop} {s : State} (hs : Memory.wf s.mem = true) (die : Nat) (but : Option Nat) (p : Phys) (n : Nat) :
    Res.Keeps (s.canRead die but p n) φ ↔ ∀ out, s.canRead die but p n = .ok out → φ out :=
  (Res.keeps_iff (State.canRead_wf hs _ _ _ _)).trans (by simp)

theorem State.canWrite_wf {s : State} (hs : Memory.wf s.mem = true) (die : Nat) (but : Option Nat) (p : Phys) (n : Nat) :
    Res.Keeps (s.canWrite die but p n) fun _ => True := by
  simp [State.canWrite, hs]

@[simp] theorem State.canWrite_wf_iff {φ : Unit → Prop} {s : State} (hs : Memory.wf s.mem = true) (die : Nat) (but : Option Nat) (p : Phys) (n : Nat) :
    Res.Keeps (s.canWrite die but p n) φ ↔ ∀ out, s.canWrite die but p n = .ok out → φ out :=
  (Res.keeps_iff (State.canWrite_wf hs _ _ _ _)).trans (by simp)

@[simp] theorem State.putLine_wf {s : State} (hs : Memory.wf s.mem = true) (die key home keyNo : Nat) (data : List Byte) :
    Memory.wf (s.putLine die key home keyNo data).mem = true := by
  unfold State.putLine
  dsimp only
  split <;> simp [hs]

@[simp] theorem State.put_wf {s : State} (hs : Memory.wf s.mem = true) (die : Nat) (p : Phys) (data : List Byte) : Memory.wf (s.put die p data).mem = true := by
  refine State.foldl_wf (fun t a ht => ?_) hs _
  simp [ht]

@[simp] theorem State.drain_wf {s : State} (hs : Memory.wf s.mem = true) (die core n : Nat) : Memory.wf (s.drain die core n).mem = true := by
  unfold State.drain
  dsimp only
  split
  · exact hs
  · split
    · exact hs
    · split
      case h_1 h => exact (State.canWrite_wf hs _ _ _ _).of_wait h
      · exact hs
      · simp [hs]

theorem State.sectorReady_wf {s : State} (hs : Memory.wf s.mem = true) (die core lo n : Nat) (wr : Bool) (u : Nat) :
    Res.Keeps (s.sectorReady die core lo n wr u) fun _ => True := by
  simp [State.sectorReady, hs]

@[simp] theorem State.sectorReady_wf_iff {φ : Unit → Prop} {s : State} (hs : Memory.wf s.mem = true) (die core lo n : Nat) (wr : Bool) (u : Nat) :
    Res.Keeps (s.sectorReady die core lo n wr u) φ ↔ ∀ out, s.sectorReady die core lo n wr u = .ok out → φ out :=
  (Res.keeps_iff (State.sectorReady_wf hs _ _ _ _ _ _)).trans (by simp)

theorem State.sectorsReady_wf {s : State} (hs : Memory.wf s.mem = true) (die core lo n : Nat) (wr : Bool) (xs : List Nat) :
    Res.Keeps (s.sectorsReady die core lo n wr xs) fun _ => True := by
  induction xs with
  | nil => trivial
  | cons a l ih => simp +contextual [State.sectorsReady, hs, ih]

@[simp] theorem State.sectorsReady_wf_iff {φ : Unit → Prop} {s : State} (hs : Memory.wf s.mem = true) (die core lo n : Nat) (wr : Bool) (xs : List Nat) :
    Res.Keeps (s.sectorsReady die core lo n wr xs) φ ↔ ∀ out, s.sectorsReady die core lo n wr xs = .ok out → φ out :=
  (Res.keeps_iff (State.sectorsReady_wf hs _ _ _ _ _ _)).trans (by simp)

theorem State.spReady_wf {s : State} (hs : Memory.wf s.mem = true) (die core lo n : Nat) (wr : Bool) : Res.Keeps (s.spReady die core lo n wr) fun _ => True := by
  simp [State.spReady, hs]

@[simp] theorem State.spReady_wf_iff {φ : Unit → Prop} {s : State} (hs : Memory.wf s.mem = true) (die core lo n : Nat) (wr : Bool) :
    Res.Keeps (s.spReady die core lo n wr) φ ↔ ∀ out, s.spReady die core lo n wr = .ok out → φ out :=
  (Res.keeps_iff (State.spReady_wf hs _ _ _ _ _)).trans (by simp)

@[simp] theorem State.putAll_mem (s : State) (key : Nat) (bs : List Byte) : (s.putAll key bs).mem = s.mem := by
  induction bs generalizing s key with
  | nil => rfl
  | cons b bs ih => exact (ih _ _).trans (State.putCopies_mem _ _ _)

@[simp] theorem State.putEvery_wf {s : State} (hs : Memory.wf s.mem = true) (key keyNo : Nat) (data : List Byte) :
    Memory.wf (s.putEvery key keyNo data).mem = true := by
  simp [State.putEvery, hs]

@[simp] theorem State.dropSector_wf {s : State} (hs : Memory.wf s.mem = true) (ck u : Nat) (e : StSector) : Memory.wf (s.dropSector ck u e).mem = true := by
  unfold State.dropSector
  dsimp only
  split <;> simp [hs]

@[simp] theorem State.dropSectors_wf {s : State} (hs : Memory.wf s.mem = true) (line : Nat) : Memory.wf (s.dropSectors line).mem = true := by
  refine State.foldl_wf (fun t p ht => State.foldl_wf (fun t q ht => ?_) ht _) hs _
  split
  · exact State.dropSector_wf ht _ _ _
  · exact ht

@[simp] theorem State.devWrite_wf {s : State} (hs : Memory.wf s.mem = true) (p : Phys) (data : List Byte) :
    Memory.wf (s.devWrite p data).mem = true := State.putEvery_wf (State.foldl_wf (fun _ _ ht => State.dropSectors_wf ht _) hs _) _ _ _

@[simp] theorem State.vwrite_wf {s : State} (hs : Memory.wf s.mem = true) (ctx : Nat) (classes : List Nat) (va : Nat) (data : List Byte) :
    Memory.wf (s.vwrite ctx classes va data).mem = true := by
  unfold State.vwrite
  repeat' split
  all_goals simp [hs]

/-! ### Operations of `Machine/Loads` -/

theorem State.apertureCheck_wf {s : State} (ea n : Nat) (wr : Bool) (foot : Option (List Range)) : Res.Keeps (s.apertureCheck ea n wr foot) fun _ => True := by
  simp [State.apertureCheck]

@[simp] theorem State.apertureCheck_wf_iff {φ : Unit → Prop} {s : State} (ea n : Nat) (wr : Bool) (foot : Option (List Range)) :
    Res.Keeps (s.apertureCheck ea n wr foot) φ ↔ ∀ out, s.apertureCheck ea n wr foot = .ok out → φ out :=
  (Res.keeps_iff (State.apertureCheck_wf _ _ _ _)).trans (by simp)

theorem State.globalLoad_wf {s : State} (hs : Memory.wf s.mem = true) (i : Instr) (rq ea n : Nat) (foot : Option (List Range)) :
    Res.Keeps (s.globalLoad i rq ea n foot) fun a => Memory.wf a.2.mem = true := by
  simp +contextual [State.globalLoad, hs]

@[simp] theorem State.globalLoad_wf_iff {φ : (List Byte × State) → Prop} {s : State} (hs : Memory.wf s.mem = true) (i : Instr) (rq ea n : Nat)
    (foot : Option (List Range)) :
    Res.Keeps (s.globalLoad i rq ea n foot) φ ↔ ∀ out, s.globalLoad i rq ea n foot = .ok out → Memory.wf out.2.mem = true → φ out :=
  (Res.keeps_iff (State.globalLoad_wf hs _ _ _ _ _))

theorem State.globalStore_wf {s : State} (hs : Memory.wf s.mem = true) (ea : Nat) (data : List Byte) (foot : Option (List Range)) :
    Res.Keeps (s.globalStore ea data foot) fun t => Memory.wf t.mem = true := by
  unfold State.globalStore
  simp +contextual [hs]
  intros
  split <;> simp [*]

@[simp] theorem State.globalStore_wf_iff {φ : State → Prop} {s : State} (hs : Memory.wf s.mem = true) (ea : Nat) (data : List Byte) (foot : Option (List Range)) :
    Res.Keeps (s.globalStore ea data foot) φ ↔ ∀ out, s.globalStore ea data foot = .ok out → Memory.wf out.mem = true → φ out :=
  (Res.keeps_iff (State.globalStore_wf hs _ _ _))

theorem ldBody_wf (i : Instr) (d b w disp : Nat) {s : State} (hs : Memory.wf s.mem = true) : Res.Keeps (ldBody i d b w disp s) fun t => Memory.wf t.mem = true := by
  simp [ldBody, hs]

@[simp] theorem ldBody_wf_iff {φ : State → Prop} (i : Instr) (d b w disp : Nat) {s : State} (hs : Memory.wf s.mem = true) :
    Res.Keeps (ldBody i d b w disp s) φ ↔ ∀ out, ldBody i d b w disp s = .ok out → Memory.wf out.mem = true → φ out :=
  (Res.keeps_iff (ldBody_wf _ _ _ _ _ hs))

theorem ldSpBody_wf (i : Instr) (d b w disp : Nat) {s : State} (hs : Memory.wf s.mem = true) :
    Res.Keeps (ldSpBody i d b w disp s) fun t => Memory.wf t.mem = true := by
  unfold ldSpBody
  dsimp only
  split <;> simp [hs]

@[simp] theorem ldSpBody_wf_iff {φ : State → Prop} (i : Instr) (d b w disp : Nat) {s : State} (hs : Memory.wf s.mem = true) :
    Res.Keeps (ldSpBody i d b w disp s) φ ↔ ∀ out, ldSpBody i d b w disp s = .ok out → Memory.wf out.mem = true → φ out :=
  (Res.keeps_iff (ldSpBody_wf _ _ _ _ _ hs))

@[simp] theorem stBody_wf (d b w disp : Nat) {s : State} (hs : Memory.wf s.mem = true) : Res.Keeps (stBody d b w disp s) fun t => Memory.wf t.mem = true := by
  simp [stBody, hs]

@[simp] theorem stSpBody_wf (d b w disp : Nat) {s : State} (hs : Memory.wf s.mem = true) : Res.Keeps (stSpBody d b w disp s) fun t => Memory.wf t.mem = true := by
  unfold stSpBody
  dsimp only
  split <;> simp [hs]

theorem State.atomGlobal_wf {s : State} (hs : Memory.wf s.mem = true) (i : Instr) (ea n sc : Nat) (det : Bool) (f : Nat → Nat) :
    Res.Keeps (s.atomGlobal i ea n sc det f) fun a => Memory.wf a.2.mem = true := by
  simp [State.atomGlobal, hs]

@[simp] theorem State.atomGlobal_wf_iff {φ : (ℕ × State) → Prop} {s : State} (hs : Memory.wf s.mem = true) (i : Instr) (ea n sc : Nat) (det : Bool) (f : Nat → Nat) :
    Res.Keeps (s.atomGlobal i ea n sc det f) φ ↔ ∀ out, s.atomGlobal i ea n sc det f = .ok out → Memory.wf out.2.mem = true → φ out :=
  (Res.keeps_iff (State.atomGlobal_wf hs _ _ _ _ _ _))

theorem State.atomScratch_wf {s : State} (hs : Memory.wf s.mem = true) (ea n : Nat) (det : Bool) (f : Nat → Nat) :
    Res.Keeps (s.atomScratch ea n det f) fun a => Memory.wf a.2.mem = true := by
  simp [State.atomScratch, hs]

@[simp] theorem State.atomScratch_wf_iff {φ : (ℕ × State) → Prop} {s : State} (hs : Memory.wf s.mem = true) (ea n : Nat) (det : Bool) (f : Nat → Nat) :
    Res.Keeps (s.atomScratch ea n det f) φ ↔ ∀ out, s.atomScratch ea n det f = .ok out → Memory.wf out.2.mem = true → φ out :=
  (Res.keeps_iff (State.atomScratch_wf hs _ _ _ _))

theorem atomBody_wf (i : Instr) (d b o z c : Nat) {s : State} (hs : Memory.wf s.mem = true) :
    Res.Keeps (atomBody i d b o z c s) fun t => Memory.wf t.mem = true := by
  simp [atomBody, hs]

@[simp] theorem atomBody_wf_iff {φ : State → Prop} (i : Instr) (d b o z c : Nat) {s : State} (hs : Memory.wf s.mem = true) :
    Res.Keeps (atomBody i d b o z c s) φ ↔ ∀ out, atomBody i d b o z c s = .ok out → Memory.wf out.mem = true → φ out :=
  (Res.keeps_iff (atomBody_wf _ _ _ _ _ _ hs))

theorem casBody_wf (i : Instr) (d b z c : Nat) {s : State} (hs : Memory.wf s.mem = true) : Res.Keeps (casBody i d b z c s) fun t => Memory.wf t.mem = true := by
  simp [casBody, hs]

@[simp] theorem casBody_wf_iff {φ : State → Prop} (i : Instr) (d b z c : Nat) {s : State} (hs : Memory.wf s.mem = true) :
    Res.Keeps (casBody i d b z c s) φ ↔ ∀ out, casBody i d b z c s = .ok out → Memory.wf out.mem = true → φ out :=
  (Res.keeps_iff (casBody_wf _ _ _ _ _ hs))

@[simp] theorem atomSpBody_wf (d b o z : Nat) {s : State} (hs : Memory.wf s.mem = true) : Res.Keeps (atomSpBody d b o z s) fun t => Memory.wf t.mem = true := by
  simp [atomSpBody, hs]

@[simp] theorem casSpBody_wf (d b z : Nat) {s : State} (hs : Memory.wf s.mem = true) : Res.Keeps (casSpBody d b z s) fun t => Memory.wf t.mem = true := by
  simp [casSpBody, hs]

/-! ### Operations of `Machine/Chain` -/

theorem State.needChain_wf {s : State} (c : Nat) : Res.Keeps (s.needChain c) fun _ => True := by
  simp [State.needChain]

@[simp] theorem State.needChain_wf_iff {φ : Chain → Prop} {s : State} (c : Nat) : Res.Keeps (s.needChain c) φ ↔ ∀ out, s.needChain c = .ok out → φ out :=
  (Res.keeps_iff (State.needChain_wf _)).trans (by simp)

theorem State.linkHome_wf {s : State} (h addr : Nat) : Res.Keeps (s.linkHome h addr) fun _ => True := by
  unfold State.linkHome
  simp
  intros
  split <;> simp

@[simp] theorem State.linkHome_wf_iff {φ : LinkHome → Prop} {s : State} (h addr : Nat) :
    Res.Keeps (s.linkHome h addr) φ ↔ ∀ out, s.linkHome h addr = .ok out → φ out :=
  (Res.keeps_iff (State.linkHome_wf _ _)).trans (by simp)

theorem State.buildEntries_wf {s : State} (base n : Nat) (words : Nat → Nat) (xs : Nat) (x1 : Nat) (x2 : List LinkRef) (x3 : List LinkEntry) :
    Res.Keeps (s.buildEntries base n words xs x1 x2 x3) fun _ => True := by
  induction xs generalizing x1 x2 x3 with
  | zero => trivial
  | succ k ih =>
    unfold State.buildEntries
    simp [Res.keeps_iff (ih _ _ _)]

@[simp] theorem State.buildEntries_wf_iff {φ : (List (LinkRef × LinkEntry × ℕ)) → Prop} {s : State} (base n : Nat) (words : Nat → Nat) (xs : Nat)
    (x1 : Nat) (x2 : List LinkRef) (x3 : List LinkEntry) :
    Res.Keeps (s.buildEntries base n words xs x1 x2 x3) φ ↔ ∀ out, s.buildEntries base n words xs x1 x2 x3 = .ok out → φ out :=
  (Res.keeps_iff (State.buildEntries_wf _ _ _ _ _ _ _)).trans (by simp)

theorem State.globalWords_wf {s : State} (hs : Memory.wf s.mem = true) (i : Instr) (base : Nat) (xs : Nat) (x1 : Nat) :
    Res.Keeps (s.globalWords i base xs x1) fun a => Memory.wf a.2.mem = true := by
  induction xs generalizing s x1 with
  | zero => exact hs
  | succ m ih =>
    unfold State.globalWords
    simp +contextual [hs, ih]

@[simp] theorem State.globalWords_wf_iff {φ : (List ℕ × State) → Prop} {s : State} (hs : Memory.wf s.mem = true) (i : Instr) (base : Nat) (xs : Nat) (x1 : Nat) :
    Res.Keeps (s.globalWords i base xs x1) φ ↔ ∀ out, s.globalWords i base xs x1 = .ok out → Memory.wf out.2.mem = true → φ out :=
  (Res.keeps_iff (State.globalWords_wf hs _ _ _ _))

theorem State.descWords_wf {s : State} (hs : Memory.wf s.mem = true) (i : Instr) (scratch : Bool) (base n : Nat) :
    Res.Keeps (s.descWords i scratch base n) fun a => Memory.wf a.2.mem = true := by
  simp [State.descWords, hs]

@[simp] theorem State.descWords_wf_iff {φ : ((ℕ → ℕ) × State) → Prop} {s : State} (hs : Memory.wf s.mem = true) (i : Instr) (scratch : Bool) (base n : Nat) :
    Res.Keeps (s.descWords i scratch base n) φ ↔ ∀ out, s.descWords i scratch base n = .ok out → Memory.wf out.2.mem = true → φ out :=
  (Res.keeps_iff (State.descWords_wf hs _ _ _ _))

theorem chbuildBody_wf (i : Instr) (c : Nat) (a : Nat) (f : Bool) {s : State} (hs : Memory.wf s.mem = true) :
    Res.Keeps (chbuildBody i c a f s) fun t => Memory.wf t.mem = true := by
  simp +contextual [chbuildBody, hs]

@[simp] theorem chbuildBody_wf_iff {φ : State → Prop} (i : Instr) (c : Nat) (a : Nat) (f : Bool) {s : State} (hs : Memory.wf s.mem = true) :
    Res.Keeps (chbuildBody i c a f s) φ ↔ ∀ out, chbuildBody i c a f s = .ok out → Memory.wf out.mem = true → φ out :=
  (Res.keeps_iff (chbuildBody_wf _ _ _ _ hs))

@[simp] theorem chcloseBody_wf (c a b : Nat) (clip : Bool) {s : State} (hs : Memory.wf s.mem = true) :
    Res.Keeps (chcloseBody c a b clip s) fun t => Memory.wf t.mem = true := by
  simp [chcloseBody, hs]

@[simp] theorem chstatBody_wf (c a : Nat) {s : State} (hs : Memory.wf s.mem = true) : Res.Keeps (chstatBody c a s) fun t => Memory.wf t.mem = true := by
  simp [chstatBody, hs]

@[simp] theorem chspliceBody_wf (c a b : Nat) {s : State} (hs : Memory.wf s.mem = true) : Res.Keeps (chspliceBody c a b s) fun t => Memory.wf t.mem = true := by
  unfold chspliceBody
  simp +contextual [hs]
  intros
  split
  · trivial
  · simp +contextual [hs]
    intros
    split <;> simp [hs]

@[simp] theorem chhaltBody_wf (c : Nat) {s : State} (hs : Memory.wf s.mem = true) : Res.Keeps (chhaltBody c s) fun t => Memory.wf t.mem = true := by
  simp [chhaltBody, hs]

@[simp] theorem chthawBody_wf (c : Nat) {s : State} (hs : Memory.wf s.mem = true) : Res.Keeps (chthawBody c s) fun t => Memory.wf t.mem = true := by
  simp [chthawBody, hs]

@[simp] theorem chrelBody_wf (c : Nat) {s : State} (hs : Memory.wf s.mem = true) : Res.Keeps (chrelBody c s) fun t => Memory.wf t.mem = true := by
  simp [chrelBody, hs]

@[simp] theorem chreadBody_wf (c a b : Nat) (f : Bool) {s : State} (hs : Memory.wf s.mem = true) :
    Res.Keeps (chreadBody c a b f s) fun t => Memory.wf t.mem = true := by
  simp [chreadBody, hs]

/-! ### Operations of `Machine/Control` -/

/-- A branch goes on from what `pre` leaves. -/
@[simp] theorem branch_wf (b p g : BitVec 3) {pre : State → State} (hp : ∀ t, (pre t).mem = t.mem) {s : State} (hs : Memory.wf s.mem = true) :
    Res.Keeps (branch b p g pre s) fun t => Memory.wf t.mem = true := by
  unfold branch
  simp [hs, hp]

@[simp] theorem csrrBody_wf (d n : Nat) {s : State} (hs : Memory.wf s.mem = true) : Res.Keeps (csrrBody d n s) fun t => Memory.wf t.mem = true := by
  simp [csrrBody, hs]

/-! ### Operations of `Machine/Matrix` -/

@[simp] theorem mopBody_wf (b str : Nat) (sp t meta_ : Bool) (put : NestSet → Operand → NestSet) {s : State} (hs : Memory.wf s.mem = true) :
    Res.Keeps (mopBody b str sp t meta_ put s) fun t => Memory.wf t.mem = true := by
  simp [mopBody, hs]

theorem State.tableWait_wf {s : State} (hs : Memory.wf s.mem = true) : Res.Keeps s.tableWait fun _ => True := by
  simp [State.tableWait, hs]

@[simp] theorem State.tableWait_wf_iff {φ : Unit → Prop} {s : State} (hs : Memory.wf s.mem = true) :
    Res.Keeps s.tableWait φ ↔ ∀ out, s.tableWait = .ok out → φ out :=
  (Res.keeps_iff (State.tableWait_wf hs)).trans (by simp)

theorem State.rangesReady_wf {s : State} (hs : Memory.wf s.mem = true) (xs : List (Nat × Nat)) : Res.Keeps (s.rangesReady xs) fun _ => True := by
  induction xs with
  | nil => trivial
  | cons a l ih => simp +contextual [State.rangesReady, hs, ih]

@[simp] theorem State.rangesReady_wf_iff {φ : Unit → Prop} {s : State} (hs : Memory.wf s.mem = true) (xs : List (Nat × Nat)) :
    Res.Keeps (s.rangesReady xs) φ ↔ ∀ out, s.rangesReady xs = .ok out → φ out :=
  (Res.keeps_iff (State.rangesReady_wf hs _)).trans (by simp)

@[simp] theorem matBody_wf (slot fchk : Nat) (go sp : Bool) {s : State} (hs : Memory.wf s.mem = true) :
    Res.Keeps (matBody slot fchk go sp s) fun t => Memory.wf t.mem = true := by
  simp [matBody, hs]

theorem State.fetch_wf {s : State} (hs : Memory.wf s.mem = true) (die core : Nat) (sp : Bool) (addr n : Nat) :
    Res.Keeps (s.fetch die core sp addr n) fun a => Memory.wf a.2.mem = true := by
  unfold State.fetch
  simp [hs]
  intros
  split
  case h_1 h => simpa using (State.canRead_wf hs _ _ _ _).of_wait h
  case h_2 e _ h =>
    match e, h with
    | .trap _, _ => trivial
    | .wait t, h => exact (State.canRead_wf hs _ _ _ _).of_wait h
    | .jump t, h => exact (State.canRead_wf hs _ _ _ _).of_jump h
  · simp [*]

@[simp] theorem State.fetch_wf_iff {φ : (ℕ × State) → Prop} {s : State} (hs : Memory.wf s.mem = true) (die core : Nat) (sp : Bool) (addr n : Nat) :
    Res.Keeps (s.fetch die core sp addr n) φ ↔ ∀ out, s.fetch die core sp addr n = .ok out → Memory.wf out.2.mem = true → φ out :=
  (Res.keeps_iff (State.fetch_wf hs _ _ _ _ _))

theorem State.fetchAll_wf {s : State} (hs : Memory.wf s.mem = true) (die core : Nat) (sp : Bool) (n : Nat) (xs : List Nat) :
    Res.Keeps (s.fetchAll die core sp n xs) fun a => Memory.wf a.2.mem = true := by
  induction xs generalizing s with
  | nil => simp [State.fetchAll, hs]
  | cons a l ih => simp +contextual [State.fetchAll, hs, ih]

@[simp] theorem State.fetchAll_wf_iff {φ : (List ℕ × State) → Prop} {s : State} (hs : Memory.wf s.mem = true) (die core : Nat) (sp : Bool) (n : Nat)
    (xs : List Nat) :
    Res.Keeps (s.fetchAll die core sp n xs) φ ↔ ∀ out, s.fetchAll die core sp n xs = .ok out → Memory.wf out.2.mem = true → φ out :=
  (Res.keeps_iff (State.fetchAll_wf hs _ _ _ _ _))

theorem State.fetchRow_wf {s : State} (hs : Memory.wf s.mem = true) (die core : Nat) (o : MOp) (wh : Which) (c : Nat) (i : Nat) :
    Res.Keeps (s.fetchRow die core o wh c i) fun a => Memory.wf a.2.mem = true := by
  simp [State.fetchRow, hs]

@[simp] theorem State.fetchRow_wf_iff {φ : (List ℕ × State) → Prop} {s : State} (hs : Memory.wf s.mem = true) (die core : Nat) (o : MOp)
    (wh : Which) (c : Nat) (i : Nat) :
    Res.Keeps (s.fetchRow die core o wh c i) φ ↔ ∀ out, s.fetchRow die core o wh c i = .ok out → Memory.wf out.2.mem = true → φ out :=
  (Res.keeps_iff (State.fetchRow_wf hs _ _ _ _ _ _))

theorem State.fetchMeta_wf {s : State} (hs : Memory.wf s.mem = true) (die core : Nat) (o : MOp) (i : Nat) (q : Nat) :
    Res.Keeps (s.fetchMeta die core o i q) fun a => Memory.wf a.2.mem = true := by
  simp +contextual [State.fetchMeta, hs]

@[simp] theorem State.fetchMeta_wf_iff {φ : (ℕ × State) → Prop} {s : State} (hs : Memory.wf s.mem = true) (die core : Nat) (o : MOp) (i : Nat) (q : Nat) :
    Res.Keeps (s.fetchMeta die core o i q) φ ↔ ∀ out, s.fetchMeta die core o i q = .ok out → Memory.wf out.2.mem = true → φ out :=
  (Res.keeps_iff (State.fetchMeta_wf hs _ _ _ _ _))

theorem State.fetchMetas_wf {s : State} (hs : Memory.wf s.mem = true) (die core : Nat) (o : MOp) (i : Nat) (xs : List Nat) :
    Res.Keeps (s.fetchMetas die core o i xs) fun a => Memory.wf a.2.mem = true := by
  induction xs generalizing s with
  | nil => simp [State.fetchMetas, hs]
  | cons a l ih => simp +contextual [State.fetchMetas, hs, ih]

@[simp] theorem State.fetchMetas_wf_iff {φ : (List (ℕ × ℕ) × State) → Prop} {s : State} (hs : Memory.wf s.mem = true) (die core : Nat) (o : MOp)
    (i : Nat) (xs : List Nat) :
    Res.Keeps (s.fetchMetas die core o i xs) φ ↔ ∀ out, s.fetchMetas die core o i xs = .ok out → Memory.wf out.2.mem = true → φ out :=
  (Res.keeps_iff (State.fetchMetas_wf hs _ _ _ _ _))

theorem State.fetchSparse_wf {s : State} (hs : Memory.wf s.mem = true) (die core : Nat) (o : MOp) (c i : Nat) (ms : List (Nat × Nat)) (xs : List Nat) :
    Res.Keeps (s.fetchSparse die core o c i ms xs) fun a => Memory.wf a.2.mem = true := by
  induction xs generalizing s with
  | nil => exact hs
  | cons k ks ih =>
    unfold State.fetchSparse
    split <;> simp +contextual [hs, ih]

@[simp] theorem State.fetchSparse_wf_iff {φ : (List ℕ × State) → Prop} {s : State} (hs : Memory.wf s.mem = true) (die core : Nat) (o : MOp)
    (c i : Nat) (ms : List (Nat × Nat)) (xs : List Nat) :
    Res.Keeps (s.fetchSparse die core o c i ms xs) φ ↔ ∀ out, s.fetchSparse die core o c i ms xs = .ok out → Memory.wf out.2.mem = true → φ out :=
  (Res.keeps_iff (State.fetchSparse_wf hs _ _ _ _ _ _ _))

theorem State.fetchScale_wf {s : State} (hs : Memory.wf s.mem = true) (die core : Nat) (o : MOp) (wh : Which) (c : Nat) (sparse : Bool) (i : Nat) :
    Res.Keeps (s.fetchScale die core o wh c sparse i) fun a => Memory.wf a.2.mem = true := by
  simp [State.fetchScale, hs]

@[simp] theorem State.fetchScale_wf_iff {φ : (ℕ × State) → Prop} {s : State} (hs : Memory.wf s.mem = true) (die core : Nat) (o : MOp) (wh : Which)
    (c : Nat) (sparse : Bool) (i : Nat) :
    Res.Keeps (s.fetchScale die core o wh c sparse i) φ ↔ ∀ out, s.fetchScale die core o wh c sparse i = .ok out → Memory.wf out.2.mem = true → φ out :=
  (Res.keeps_iff (State.fetchScale_wf hs _ _ _ _ _ _ _))

theorem State.fetchVec_wf {s : State} (hs : Memory.wf s.mem = true) (die core : Nat) (o : MOp) (wh : Which) (c : Nat) (sparse : Bool) (i : Nat) :
    Res.Keeps (s.fetchVec die core o wh c sparse i) fun a => Memory.wf a.2.mem = true := by
  simp +contextual [State.fetchVec, hs]

@[simp] theorem State.fetchVec_wf_iff {φ : (Vec × State) → Prop} {s : State} (hs : Memory.wf s.mem = true) (die core : Nat) (o : MOp) (wh : Which)
    (c : Nat) (sparse : Bool) (i : Nat) :
    Res.Keeps (s.fetchVec die core o wh c sparse i) φ ↔ ∀ out, s.fetchVec die core o wh c sparse i = .ok out → Memory.wf out.2.mem = true → φ out :=
  (Res.keeps_iff (State.fetchVec_wf hs _ _ _ _ _ _ _))

theorem State.fetchVecs_wf {s : State} (hs : Memory.wf s.mem = true) (die core : Nat) (o : MOp) (wh : Which) (c : Nat) (sparse : Bool) (xs : List Nat) :
    Res.Keeps (s.fetchVecs die core o wh c sparse xs) fun a => Memory.wf a.2.mem = true := by
  induction xs generalizing s with
  | nil => simp [State.fetchVecs, hs]
  | cons a l ih => simp +contextual [State.fetchVecs, hs, ih]

@[simp] theorem State.fetchVecs_wf_iff {φ : (List Vec × State) → Prop} {s : State} (hs : Memory.wf s.mem = true) (die core : Nat) (o : MOp)
    (wh : Which) (c : Nat) (sparse : Bool) (xs : List Nat) :
    Res.Keeps (s.fetchVecs die core o wh c sparse xs) φ ↔ ∀ out, s.fetchVecs die core o wh c sparse xs = .ok out → Memory.wf out.2.mem = true → φ out :=
  (Res.keeps_iff (State.fetchVecs_wf hs _ _ _ _ _ _ _))

theorem State.fetchGroup_wf {s : State} (hs : Memory.wf s.mem = true) (die core : Nat) (o : MOp) :
    Res.Keeps (s.fetchGroup die core o) fun a => Memory.wf a.2.mem = true := by
  unfold State.fetchGroup
  dsimp only
  split <;> simp +contextual [hs]

@[simp] theorem State.fetchGroup_wf_iff {φ : ((List Vec × List Vec) × State) → Prop} {s : State} (hs : Memory.wf s.mem = true) (die core : Nat) (o : MOp) :
    Res.Keeps (s.fetchGroup die core o) φ ↔ ∀ out, s.fetchGroup die core o = .ok out → Memory.wf out.2.mem = true → φ out :=
  (Res.keeps_iff (State.fetchGroup_wf hs _ _ _))

@[simp] theorem State.runGroup_wf {s : State} (hs : Memory.wf s.mem = true) (die core : Nat) (o : MOp) : Memory.wf (s.runGroup die core o).mem = true := by
  unfold State.runGroup
  split
  · simp [hs]
  · have hf := State.fetchGroup_wf hs die core o
    split
    case h_1 h => exact hf.of_wait h
    case h_2 h => exact hf.of_jump h
    · simp [hs]
    case h_4 h => simpa using hf.of_ok h

theorem State.spReadyIf_wf {s : State} (hs : Memory.wf s.mem = true) (on : Bool) (off n : Nat) (wr : Bool) : Res.Keeps (s.spReadyIf on off n wr) fun _ => True := by
  simp [State.spReadyIf, hs]

@[simp] theorem State.spReadyIf_wf_iff {φ : Unit → Prop} {s : State} (hs : Memory.wf s.mem = true) (on : Bool) (off n : Nat) (wr : Bool) :
    Res.Keeps (s.spReadyIf on off n wr) φ ↔ ∀ out, s.spReadyIf on off n wr = .ok out → φ out :=
  (Res.keeps_iff (State.spReadyIf_wf hs _ _ _ _)).trans (by simp)

@[simp] theorem mfmtBody_wf (d a b : Nat) {s : State} (hs : Memory.wf s.mem = true) : Res.Keeps (mfmtBody d a b s) fun t => Memory.wf t.mem = true := by
  unfold mfmtBody
  simp [hs]
  intros
  split <;> simp [hs]

@[simp] theorem mfmtcommitBody_wf {s : State} (hs : Memory.wf s.mem = true) : Res.Keeps (mfmtcommitBody s) fun t => Memory.wf t.mem = true := by
  simp [mfmtcommitBody, hs]

/-! ### Operations of `Machine/Sync` -/

@[simp] theorem barArriveBody_wf (d a b : Nat) {s : State} (hs : Memory.wf s.mem = true) : Res.Keeps (barArriveBody d a b s) fun t => Memory.wf t.mem = true := by
  unfold barArriveBody
  simp [hs, State.arriveAt]

@[simp] theorem barWaitBody_wf (d a b : Nat) {s : State} (hs : Memory.wf s.mem = true) : Res.Keeps (barWaitBody d a b s) fun t => Memory.wf t.mem = true := by
  simp [barWaitBody, hs]

@[simp] theorem barWait4Body_wf (d a b : Nat) {s : State} (hs : Memory.wf s.mem = true) : Res.Keeps (barWait4Body d a b s) fun t => Memory.wf t.mem = true := by
  simp [barWait4Body, hs]

@[simp] theorem flagAddBody_wf (d a b : Nat) {s : State} (hs : Memory.wf s.mem = true) : Res.Keeps (flagAddBody d a b s) fun t => Memory.wf t.mem = true := by
  unfold flagAddBody
  simp [hs, State.newItem]

@[simp] theorem flagWaitBody_wf (d a b : Nat) {s : State} (hs : Memory.wf s.mem = true) : Res.Keeps (flagWaitBody d a b s) fun t => Memory.wf t.mem = true := by
  simp [flagWaitBody, hs]

@[simp] theorem State.flagAdd_wf {s : State} (hs : Memory.wf s.mem = true) (ctx idx : Nat) (v : BitVec 32) : Memory.wf (s.flagAdd ctx idx v).mem = true := by
  unfold State.flagAdd
  dsimp only
  split <;> simp [hs]

@[simp] theorem State.flagAddArrive_wf {s : State} (hs : Memory.wf s.mem = true) (n : Nat) (m : FlagMsg) : Memory.wf (s.flagAddArrive n m).mem = true := by
  unfold State.flagAddArrive
  dsimp only
  rw [State.ackItem_mem]
  repeat' split
  all_goals simp [hs]

theorem chunkBody_wf (i : Instr) (d a b : Nat) {s : State} (hs : Memory.wf s.mem = true) : Res.Keeps (chunkBody i d a b s) fun t => Memory.wf t.mem = true := by
  simp [chunkBody, hs]

@[simp] theorem chunkBody_wf_iff {φ : State → Prop} (i : Instr) (d a b : Nat) {s : State} (hs : Memory.wf s.mem = true) :
    Res.Keeps (chunkBody i d a b s) φ ↔ ∀ out, chunkBody i d a b s = .ok out → Memory.wf out.mem = true → φ out :=
  (Res.keeps_iff (chunkBody_wf _ _ _ _ hs))

@[simp] theorem barArriveDBody_wf (a b : Nat) {s : State} (hs : Memory.wf s.mem = true) : Res.Keeps (barArriveDBody a b s) fun t => Memory.wf t.mem = true := by
  simp [barArriveDBody, hs]

/-! ### Operations of `Machine/Coherence` -/

@[simp] theorem State.sectorBack_wf {s : State} (hs : Memory.wf s.mem = true) (die core u : Nat) : Memory.wf (s.sectorBack die core u).mem = true := by
  unfold State.sectorBack
  dsimp only
  split <;> simp [hs]

@[simp] theorem State.snoopSector_wf {s : State} (hs : Memory.wf s.mem = true) (die core u : Nat) (write : Bool) :
    Memory.wf (s.snoopSector die core u write).mem = true := by
  simp [State.snoopSector, hs]

@[simp] theorem State.stashClear_wf {s : State} (hs : Memory.wf s.mem = true) (die line : Nat) : Memory.wf (s.stashClear die line).mem = true := by
  unfold State.stashClear
  simp +contextual [State.foldl_wf, hs]

@[simp] theorem State.performPost_wf {s : State} (hs : Memory.wf s.mem = true) (m : Posted) : Memory.wf (s.performPost m).mem = true := by
  unfold State.performPost
  dsimp only
  split
  · simp [hs]
  · split
    case h_1 h => exact (State.canWrite_wf hs _ _ _ _).of_wait h
    · exact hs
    · simp [hs]

@[simp] theorem State.mergePosts_wf {s : State} (hs : Memory.wf s.mem = true) (die line : Nat) : Memory.wf (s.mergePosts die line).mem = true := by
  refine State.foldl_wf (fun t m ht => ?_) hs _
  split
  · exact State.performPost_wf ht _
  · exact ht

@[simp] theorem State.lineHome_wf {s : State} (hs : Memory.wf s.mem = true) (line : Nat) (data : Mem × Nat) : Memory.wf (s.lineHome line data).mem = true := by
  simp [State.lineHome, hs]

@[simp] theorem State.complete_wf {s : State} (hs : Memory.wf s.mem = true) (x : Xact) : Memory.wf (s.complete x).mem = true := by
  unfold State.complete
  repeat' split
  all_goals simp [hs]

@[simp] theorem State.finishXact_wf {s : State} (hs : Memory.wf s.mem = true) (x : Xact) : Memory.wf (s.finishXact x).mem = true := by
  simp [State.finishXact, hs]

@[simp] theorem State.beginXact_wf {s : State} (hs : Memory.wf s.mem = true) (r : CohReq) (kind : FwdKind) (to_ : List Nat) :
    Memory.wf (s.beginXact r kind to_).mem = true := by
  unfold State.beginXact
  repeat' split
  all_goals simp [hs]

@[simp] theorem State.startReq_wf {s : State} (hs : Memory.wf s.mem = true) (n : Nat) (r : CohReq) : Memory.wf (s.startReq n r).mem = true := by
  unfold State.startReq
  split
  · exact hs
  · dsimp only
    repeat' split
    all_goals simp [hs]

@[simp] theorem State.ackArrive_wf {s : State} (hs : Memory.wf s.mem = true) (n : Nat) (a : Ack) : Memory.wf (s.ackArrive n a).mem = true := by
  unfold State.ackArrive
  dsimp only
  split
  · exact hs
  · split
    · exact State.finishXact_wf (by simp [hs]) _
    · simp [hs]

@[simp] theorem State.writeBack_wf {s : State} (hs : Memory.wf s.mem = true) (die line : Nat) : Memory.wf (s.writeBack die line).mem = true := by
  unfold State.writeBack
  dsimp only
  split
  · simp [hs]
  · split
    · exact State.finishXact_wf (by simp [hs]) _
    · simp [hs]

@[simp] theorem State.giveUp_wf {s : State} (hs : Memory.wf s.mem = true) (die line : Nat) : Memory.wf (s.giveUp die line).mem = true := by
  unfold State.giveUp
  dsimp only
  split <;> simp [hs]

@[simp] theorem State.abortXact_wf {s : State} (hs : Memory.wf s.mem = true) (line : Nat) : Memory.wf (s.abortXact line).mem = true := by
  unfold State.abortXact
  dsimp only
  split <;> simp [hs]

@[simp] theorem State.backInval_wf {s : State} (hs : Memory.wf s.mem = true) (line : Nat) : Memory.wf (s.backInval line).mem = true := by
  unfold State.backInval
  dsimp only
  rw [State.filterPrune_mem, State.setDir_mem]
  exact State.stashClear_wf (State.foldl_wf (fun _ _ ht => State.giveUp_wf ht _ _) (State.abortXact_wf hs _) _) _ _

@[simp] theorem State.evict_wf {s : State} (hs : Memory.wf s.mem = true) (die line : Nat) : Memory.wf (s.evict die line).mem = true := by
  unfold State.evict
  dsimp only
  split <;> simp [hs]

@[simp] theorem State.revokeExport_wf {s : State} (hs : Memory.wf s.mem = true) (exp : Nat) : Memory.wf (s.revokeExport exp).mem = true := by
  unfold State.revokeExport
  split
  · exact hs
  · dsimp only
    split
    · exact hs
    · simp only [State.freezeExport_mem, State.revokeImports_mem, State.dropExport_mem]
      split
      · exact State.foldl_wf (fun _ _ ht => State.backInval_wf ht _) hs _
      · exact hs

@[simp] theorem State.settleHome_wf {s : State} (hs : Memory.wf s.mem = true) (die : Nat) : Memory.wf (s.settleHome die).mem = true := by
  refine State.foldl_wf (fun t _ ht => ?_) hs _
  split
  · exact State.abortXact_wf ht _
  · exact ht

@[simp] theorem State.loseDie_wf {s : State} (hs : Memory.wf s.mem = true) (die : Nat) : Memory.wf (s.loseDie die).mem = true := by
  unfold State.loseDie
  simp +contextual [State.foldl_wf, hs]

/-! ### Operations of `Machine/Copy` -/

theorem State.rowsReady_wf {s : State} (hs : Memory.wf s.mem = true) (die core : Nat) (wr : Bool) (rs : List (Nat × Nat)) (xs : List Nat) :
    Res.Keeps (s.rowsReady die core wr rs xs) fun _ => True := by
  induction xs with
  | nil => trivial
  | cons a l ih => simp +contextual [State.rowsReady, hs, ih]

@[simp] theorem State.rowsReady_wf_iff {φ : Unit → Prop} {s : State} (hs : Memory.wf s.mem = true) (die core : Nat) (wr : Bool) (rs : List
    (Nat × Nat)) (xs : List Nat) :
    Res.Keeps (s.rowsReady die core wr rs xs) φ ↔ ∀ out, s.rowsReady die core wr rs xs = .ok out → φ out :=
  (Res.keeps_iff (State.rowsReady_wf hs _ _ _ _ _)).trans (by simp)

theorem State.sideReady_wf {s : State} (hs : Memory.wf s.mem = true) (die core : Nat) (k : Copy) (dst : Bool) (of : Option (List Nat)) :
    Res.Keeps (s.sideReady die core k dst of) fun _ => True := by
  simp [State.sideReady, hs]

@[simp] theorem State.sideReady_wf_iff {φ : Unit → Prop} {s : State} (hs : Memory.wf s.mem = true) (die core : Nat) (k : Copy) (dst : Bool)
    (of : Option (List Nat)) :
    Res.Keeps (s.sideReady die core k dst of) φ ↔ ∀ out, s.sideReady die core k dst of = .ok out → φ out :=
  (Res.keeps_iff (State.sideReady_wf hs _ _ _ _ _)).trans (by simp)

theorem State.copyIssue_wf {s : State} (hs : Memory.wf s.mem = true) (die core : Nat) (k : Copy) (tkind : Nat) :
    Res.Keeps (s.copyIssue die core k tkind) fun t => Memory.wf t.mem = true := by
  simp [State.copyIssue, hs]

@[simp] theorem State.copyIssue_wf_iff {φ : State → Prop} {s : State} (hs : Memory.wf s.mem = true) (die core : Nat) (k : Copy) (tkind : Nat) :
    Res.Keeps (s.copyIssue die core k tkind) φ ↔ ∀ out, s.copyIssue die core k tkind = .ok out → Memory.wf out.mem = true → φ out :=
  (Res.keeps_iff (State.copyIssue_wf hs _ _ _ _))

theorem cpBody_wf (d x : Nat) (dsp ssp : Bool) (n : Nat) {s : State} (hs : Memory.wf s.mem = true) :
    Res.Keeps (cpBody d x dsp ssp n s) fun t => Memory.wf t.mem = true := by
  simp [cpBody, hs]

@[simp] theorem cpBody_wf_iff {φ : State → Prop} (d x : Nat) (dsp ssp : Bool) (n : Nat) {s : State} (hs : Memory.wf s.mem = true) :
    Res.Keeps (cpBody d x dsp ssp n s) φ ↔ ∀ out, cpBody d x dsp ssp n s = .ok out → Memory.wf out.mem = true → φ out :=
  (Res.keeps_iff (cpBody_wf _ _ _ _ _ hs))

@[simp] theorem cpRBody_wf (d x l : Nat) (dsp ssp : Bool) {s : State} (hs : Memory.wf s.mem = true) :
    Res.Keeps (cpRBody d x l dsp ssp s) fun t => Memory.wf t.mem = true := by
  simp [cpRBody, hs]

theorem State.copyPlan_wf {s : State} (hs : Memory.wf s.mem = true) (die core kind : Nat) (w : Nat → Nat) (addr od os : Word) :
    Res.Keeps (s.copyPlan die core kind w addr od os) fun _ => True := by
  unfold State.copyPlan
  dsimp only
  split <;> simp [hs]

@[simp] theorem State.copyPlan_wf_iff {φ : Copy → Prop} {s : State} (hs : Memory.wf s.mem = true) (die core kind : Nat) (w : Nat → Nat) (addr od os : Word) :
    Res.Keeps (s.copyPlan die core kind w addr od os) φ ↔ ∀ out, s.copyPlan die core kind w addr od os = .ok out → φ out :=
  (Res.keeps_iff (State.copyPlan_wf hs _ _ _ _ _ _ _)).trans (by simp)

theorem cpDBody_wf (i : Instr) (kind d : Nat) (sp : Bool) {s : State} (hs : Memory.wf s.mem = true) :
    Res.Keeps (cpDBody i kind d sp s) fun t => Memory.wf t.mem = true := by
  simp +contextual [cpDBody, hs]

@[simp] theorem cpDBody_wf_iff {φ : State → Prop} (i : Instr) (kind d : Nat) (sp : Bool) {s : State} (hs : Memory.wf s.mem = true) :
    Res.Keeps (cpDBody i kind d sp s) φ ↔ ∀ out, cpDBody i kind d sp s = .ok out → Memory.wf out.mem = true → φ out :=
  (Res.keeps_iff (cpDBody_wf _ _ _ _ hs))

theorem State.copyByte_wf {s : State} (hs : Memory.wf s.mem = true) (die core a : Nat) (wr : Bool) :
    Res.Keeps (s.copyByte die core a wr) fun a => Memory.wf a.2.mem = true := by
  simp +contextual [State.copyByte, hs]

@[simp] theorem State.copyByte_wf_iff {φ : (Phys × State) → Prop} {s : State} (hs : Memory.wf s.mem = true) (die core a : Nat) (wr : Bool) :
    Res.Keeps (s.copyByte die core a wr) φ ↔ ∀ out, s.copyByte die core a wr = .ok out → Memory.wf out.2.mem = true → φ out :=
  (Res.keeps_iff (State.copyByte_wf hs _ _ _ _))

theorem State.copyBytes_wf {s : State} (hs : Memory.wf s.mem = true) (die core : Nat) (wr : Bool) (xs : List Nat) :
    Res.Keeps (s.copyBytes die core wr xs) fun a => Memory.wf a.2.mem = true := by
  induction xs generalizing s with
  | nil => simp [State.copyBytes, hs]
  | cons a l ih => simp +contextual [State.copyBytes, hs, ih]

@[simp] theorem State.copyBytes_wf_iff {φ : (List Phys × State) → Prop} {s : State} (hs : Memory.wf s.mem = true) (die core : Nat) (wr : Bool) (xs : List Nat) :
    Res.Keeps (s.copyBytes die core wr xs) φ ↔ ∀ out, s.copyBytes die core wr xs = .ok out → Memory.wf out.2.mem = true → φ out :=
  (Res.keeps_iff (State.copyBytes_wf hs _ _ _ _))

theorem State.bytesReadable_wf {s : State} (hs : Memory.wf s.mem = true) (die core : Nat) (xs : List Phys) :
    Res.Keeps (s.bytesReadable die core xs) fun _ => True := by
  induction xs with
  | nil => trivial
  | cons a l ih => simp +contextual [State.bytesReadable, hs, ih]

@[simp] theorem State.bytesReadable_wf_iff {φ : Unit → Prop} {s : State} (hs : Memory.wf s.mem = true) (die core : Nat) (xs : List Phys) :
    Res.Keeps (s.bytesReadable die core xs) φ ↔ ∀ out, s.bytesReadable die core xs = .ok out → φ out :=
  (Res.keeps_iff (State.bytesReadable_wf hs _ _ _)).trans (by simp)

theorem State.bytesWritable_wf {s : State} (hs : Memory.wf s.mem = true) (die core : Nat) (xs : List Phys) :
    Res.Keeps (s.bytesWritable die core xs) fun _ => True := by
  induction xs with
  | nil => trivial
  | cons p ps ih =>
    unfold State.bytesWritable
    simp
    split <;> simp [hs, ih]

@[simp] theorem State.bytesWritable_wf_iff {φ : Unit → Prop} {s : State} (hs : Memory.wf s.mem = true) (die core : Nat) (xs : List Phys) :
    Res.Keeps (s.bytesWritable die core xs) φ ↔ ∀ out, s.bytesWritable die core xs = .ok out → φ out :=
  (Res.keeps_iff (State.bytesWritable_wf hs _ _ _)).trans (by simp)

theorem State.remoteReady_wf {s : State} (hs : Memory.wf s.mem = true) (die core : Nat) (k : Copy) (bytes : List Nat) (wr : Bool) :
    Res.Keeps (s.remoteReady die core k bytes wr) fun t => Memory.wf t.mem = true := by
  unfold State.remoteReady
  dsimp only
  split <;> simp [hs]

@[simp] theorem State.remoteReady_wf_iff {φ : State → Prop} {s : State} (hs : Memory.wf s.mem = true) (die core : Nat) (k : Copy) (bytes : List Nat) (wr : Bool) :
    Res.Keeps (s.remoteReady die core k bytes wr) φ ↔ ∀ out, s.remoteReady die core k bytes wr = .ok out → Memory.wf out.mem = true → φ out :=
  (Res.keeps_iff (State.remoteReady_wf hs _ _ _ _ _))

@[simp] theorem State.copyStore_wf {s : State} (hs : Memory.wf s.mem = true) (die core : Nat) (copy : Bool) (ws : List (Phys × Byte)) :
    Memory.wf (s.copyStore die core copy ws).mem = true := by
  refine State.foldl_wf (fun t a ht => ?_) hs _
  simp [ht]

theorem State.groupReady_wf {s : State} (hs : Memory.wf s.mem = true) (die core : Nat) (k : Copy) :
    Res.Keeps (s.groupReady die core k) fun a => Memory.wf a.2.mem = true := by
  simp +contextual [State.groupReady, hs]

@[simp] theorem State.groupReady_wf_iff {φ : ((List Phys × List Phys) × State) → Prop} {s : State} (hs : Memory.wf s.mem = true) (die core : Nat) (k : Copy) :
    Res.Keeps (s.groupReady die core k) φ ↔ ∀ out, s.groupReady die core k = .ok out → Memory.wf out.2.mem = true → φ out :=
  (Res.keeps_iff (State.groupReady_wf hs _ _ _))

theorem State.beat_wf {s : State} (hs : Memory.wf s.mem = true) (die core : Nat) (k : Copy) : Res.Keeps (s.beat die core k) fun t => Memory.wf t.mem = true := by
  unfold State.beat
  simp only [Res.keeps_bind, Res.keeps_pure]
  refine (State.groupReady_wf_iff hs _ _ _).2 fun r _ hr => ?_
  rw [State.sendGroup_mem]
  split
  · simpa using hr
  · split
    · rw [State.foldl_mem fun _ _ => State.spWrite_mem _ _ _ _ _]
      exact hr
    · simp [hr]

@[simp] theorem State.beat_wf_iff {φ : State → Prop} {s : State} (hs : Memory.wf s.mem = true) (die core : Nat) (k : Copy) :
    Res.Keeps (s.beat die core k) φ ↔ ∀ out, s.beat die core k = .ok out → Memory.wf out.mem = true → φ out :=
  (Res.keeps_iff (State.beat_wf hs _ _ _))

@[simp] theorem State.runBeat_wf {s : State} (hs : Memory.wf s.mem = true) (die core : Nat) (k : Copy) : Memory.wf (s.runBeat die core k).mem = true := by
  unfold State.runBeat
  split
  · simp [hs]
  · have hb := State.beat_wf hs die core k
    split
    case h_1 h => simpa using hb.of_ok h
    case h_2 h => exact hb.of_wait h
    case h_3 h => exact hb.of_jump h
    · simp [hs]

/-! ### Operations of `Machine/Stash` -/

theorem State.stmapPages_wf {s : State} (xs : List (Nat × Nat)) : Res.Keeps (s.stmapPages xs) fun _ => True := by
  induction xs with
  | nil => trivial
  | cons a l ih => simp +contextual [State.stmapPages, ih]

@[simp] theorem State.stmapPages_wf_iff {φ : Unit → Prop} {s : State} (xs : List (Nat × Nat)) :
    Res.Keeps (s.stmapPages xs) φ ↔ ∀ out, s.stmapPages xs = .ok out → φ out :=
  (Res.keeps_iff (State.stmapPages_wf _)).trans (by simp)

theorem State.stashRange_wf {s : State} (hs : Memory.wf s.mem = true) (lo n : Nat) : Res.Keeps (s.stashRange lo n) fun _ => True := by
  simp [State.stashRange, hs]

@[simp] theorem State.stashRange_wf_iff {φ : Unit → Prop} {s : State} (hs : Memory.wf s.mem = true) (lo n : Nat) :
    Res.Keeps (s.stashRange lo n) φ ↔ ∀ out, s.stashRange lo n = .ok out → φ out :=
  (Res.keeps_iff (State.stashRange_wf hs _ _)).trans (by simp)

@[simp] theorem stmapBody_wf (d a b : Nat) {s : State} (hs : Memory.wf s.mem = true) : Res.Keeps (stmapBody d a b s) fun t => Memory.wf t.mem = true := by
  simp [stmapBody, hs]

theorem State.flushRange_wf {s : State} (hs : Memory.wf s.mem = true) (die core : Nat) (xs : List Nat) :
    Res.Keeps (s.flushRange die core xs) fun t => Memory.wf t.mem = true := by
  induction xs generalizing s with
  | nil => exact hs
  | cons u us ih =>
    unfold State.flushRange
    dsimp only
    have hc (p : Phys) := State.canWrite_wf hs die (some core) p 32
    split
    · exact ih (State.sectorBack_wf hs _ _ _)
    case h_2 e h =>
      match e, h with
      | .trap _, _ => trivial
      | .wait t, h => exact (hc _).of_wait h
      | .jump t, h => exact (hc _).of_jump h

@[simp] theorem State.flushRange_wf_iff {φ : State → Prop} {s : State} (hs : Memory.wf s.mem = true) (die core : Nat) (xs : List Nat) :
    Res.Keeps (s.flushRange die core xs) φ ↔ ∀ out, s.flushRange die core xs = .ok out → Memory.wf out.mem = true → φ out :=
  (Res.keeps_iff (State.flushRange_wf hs _ _ _))

@[simp] theorem stflushBody_wf (d a : Nat) {s : State} (hs : Memory.wf s.mem = true) : Res.Keeps (stflushBody d a s) fun t => Memory.wf t.mem = true := by
  simp [stflushBody, hs]

@[simp] theorem stinvBody_wf (d a : Nat) {s : State} (hs : Memory.wf s.mem = true) : Res.Keeps (stinvBody d a s) fun t => Memory.wf t.mem = true := by
  simp [stinvBody, hs]

theorem State.unmap_wf {s : State} (hs : Memory.wf s.mem = true) (die core : Nat) (m : StashMap) :
    Res.Keeps (s.unmap die core m) fun t => Memory.wf t.mem = true := by
  simp [State.unmap, hs]

@[simp] theorem State.unmap_wf_iff {φ : State → Prop} {s : State} (hs : Memory.wf s.mem = true) (die core : Nat) (m : StashMap) :
    Res.Keeps (s.unmap die core m) φ ↔ ∀ out, s.unmap die core m = .ok out → Memory.wf out.mem = true → φ out :=
  (Res.keeps_iff (State.unmap_wf hs _ _ _))

@[simp] theorem stunmapBody_wf (d : Nat) {s : State} (hs : Memory.wf s.mem = true) : Res.Keeps (stunmapBody d s) fun t => Memory.wf t.mem = true := by
  unfold stunmapBody
  repeat' split
  all_goals simp +contextual [hs]

@[simp] theorem State.fillSector_wf {s : State} (hs : Memory.wf s.mem = true) (die core u : Nat) : Memory.wf (s.fillSector die core u).mem = true := by
  unfold State.fillSector
  dsimp only
  split
  · simp [hs]
  · split
    · simp [hs]
    · split
      · simp [hs]
      case h_2 ho =>
        split
        case h_1 h => exact (State.canRead_wf hs _ _ _ _).of_wait h
        · exact hs
        · split
          · simp [hs, State.own_mem ho]
          · exact hs

@[simp] theorem State.lazyBack_wf {s : State} (hs : Memory.wf s.mem = true) (die core u : Nat) : Memory.wf (s.lazyBack die core u).mem = true := by
  have hf := State.flushRange_wf hs die core [u]
  unfold State.lazyBack
  split
  case h_1 h => exact hf.of_ok h
  case h_2 h => exact hf.of_wait h
  · exact hs

/-! ### Operations of `Machine/Helper` -/

@[simp] theorem hlaunchBody_wf (a b : Nat) {s : State} (hs : Memory.wf s.mem = true) : Res.Keeps (hlaunchBody a b s) fun t => Memory.wf t.mem = true := by
  simp [hlaunchBody, hs]

@[simp] theorem hstopBody_wf {s : State} (hs : Memory.wf s.mem = true) : Res.Keeps (hstopBody s) fun t => Memory.wf t.mem = true := by
  simp [hstopBody, hs]

@[simp] theorem hcpBody_wf (kind doff : Nat) {s : State} (hs : Memory.wf s.mem = true) : Res.Keeps (hcpBody kind doff s) fun t => Memory.wf t.mem = true := by
  simp [hcpBody, hs]

@[simp] theorem hloopBody_wf (back cnt sadv dadv : Nat) {s : State} (hs : Memory.wf s.mem = true) :
    Res.Keeps (hloopBody back cnt sadv dadv s) fun t => Memory.wf t.mem = true := by
  simp [hloopBody, hs]

@[simp] theorem hflagBody_wf (land raiseEn : Bool) (e value : Nat) {s : State} (hs : Memory.wf s.mem = true) :
    Res.Keeps (hflagBody land raiseEn e value s) fun t => Memory.wf t.mem = true := by
  simp [hflagBody, hs]

/-! ### Operations of `Machine/Hatbox` -/

theorem State.unitAsk_wf {s : State} (hs : Memory.wf s.mem = true) (i : Instr) (rq : Nat) (rel : Bool) : Res.Keeps (s.unitAsk i rq rel) fun _ => True := by
  simp [State.unitAsk, hs]

@[simp] theorem State.unitAsk_wf_iff {φ : Unit → Prop} {s : State} (hs : Memory.wf s.mem = true) (i : Instr) (rq : Nat) (rel : Bool) :
    Res.Keeps (s.unitAsk i rq rel) φ ↔ ∀ out, s.unitAsk i rq rel = .ok out → φ out :=
  (Res.keeps_iff (State.unitAsk_wf hs _ _ _)).trans (by simp)

theorem State.unitRead_wf {s : State} (hs : Memory.wf s.mem = true) (i : Instr) (rq va n : Nat) : Res.Keeps (s.unitRead i rq va n) fun _ => True := by
  simp [State.unitRead, hs]

@[simp] theorem State.unitRead_wf_iff {φ : ℕ → Prop} {s : State} (hs : Memory.wf s.mem = true) (i : Instr) (rq va n : Nat) :
    Res.Keeps (s.unitRead i rq va n) φ ↔ ∀ out, s.unitRead i rq va n = .ok out → φ out :=
  (Res.keeps_iff (State.unitRead_wf hs _ _ _ _)).trans (by simp)

theorem State.unitWords_wf {s : State} (hs : Memory.wf s.mem = true) (i : Instr) (rq va : Nat) (xs : Nat) : Res.Keeps (s.unitWords i rq va xs) fun _ => True := by
  induction xs generalizing va with
  | zero => trivial
  | succ n ih =>
    unfold State.unitWords
    simp [hs, Res.keeps_iff (ih _)]

@[simp] theorem State.unitWords_wf_iff {φ : (List ℕ) → Prop} {s : State} (hs : Memory.wf s.mem = true) (i : Instr) (rq va : Nat) (xs : Nat) :
    Res.Keeps (s.unitWords i rq va xs) φ ↔ ∀ out, s.unitWords i rq va xs = .ok out → φ out :=
  (Res.keeps_iff (State.unitWords_wf hs _ _ _ _)).trans (by simp)

@[simp] theorem State.unitWrite_wf {s : State} (hs : Memory.wf s.mem = true) (ctx : Nat) (classes : List Nat) (va : Nat) (data : List Byte) :
    Memory.wf (s.unitWrite ctx classes va data).mem = true := by
  unfold State.unitWrite
  simp +contextual [State.foldl_wf, hs]

@[simp] theorem State.hbHeader_wf {s : State} (hs : Memory.wf s.mem = true) (ctx : Nat) (h : Hatbox) (n k : Nat) (ws : List Nat) :
    Memory.wf (s.hbHeader ctx h n k ws).mem = true := by
  simp [State.hbHeader, hs]

@[simp] theorem State.hbArrive_wf {s : State} (hs : Memory.wf s.mem = true) (ctx src target word : Nat) (data : List Lane) :
    Memory.wf (s.hbArrive ctx src target word data).mem = true := by
  unfold State.hbArrive
  split
  · exact hs
  · split
    · exact hs
    · dsimp only
      split
      · rw [State.setHatbox_mem]
        exact State.unitWrite_wf hs _ _ _ _
      · rw [State.setHatbox_mem]
        exact State.hbHeader_wf (State.unitWrite_wf hs _ _ _ _) _ _ _ _ _
      · simp [hs]
      · simp [hs]

@[simp] theorem State.combineWrite_wf {s : State} (hs : Memory.wf s.mem = true) (ctx : Nat) (h : Hatbox) (n : Nat) :
    Memory.wf (s.combineWrite ctx h n).mem = true := by
  unfold State.combineWrite
  dsimp only
  rw [State.setHatbox_mem]
  exact State.hbHeader_wf (State.hbHeader_wf (State.unitWrite_wf hs _ _ _ _) _ _ _ _ _) _ _ _ _ _

theorem State.needHatbox_wf {s : State} : Res.Keeps s.needHatbox fun _ => True := by
  unfold State.needHatbox
  repeat' split
  all_goals simp +contextual

@[simp] theorem State.needHatbox_wf_iff {φ : Hatbox → Prop} {s : State} : Res.Keeps s.needHatbox φ ↔ ∀ out, s.needHatbox = .ok out → φ out :=
  (Res.keeps_iff (State.needHatbox_wf)).trans (by simp)

theorem hballocBody_wf (i : Instr) (d a b : Nat) {s : State} (hs : Memory.wf s.mem = true) : Res.Keeps (hballocBody i d a b s) fun t => Memory.wf t.mem = true := by
  unfold hballocBody
  simp +contextual [hs]
  intros
  split <;> simp [hs]

@[simp] theorem hballocBody_wf_iff {φ : State → Prop} (i : Instr) (d a b : Nat) {s : State} (hs : Memory.wf s.mem = true) :
    Res.Keeps (hballocBody i d a b s) φ ↔ ∀ out, hballocBody i d a b s = .ok out → Memory.wf out.mem = true → φ out :=
  (Res.keeps_iff (hballocBody_wf _ _ _ _ hs))

theorem hbgateBody_wf (i : Instr) (a b : Nat) {s : State} (hs : Memory.wf s.mem = true) : Res.Keeps (hbgateBody i a b s) fun t => Memory.wf t.mem = true := by
  simp [hbgateBody, hs]

@[simp] theorem hbgateBody_wf_iff {φ : State → Prop} (i : Instr) (a b : Nat) {s : State} (hs : Memory.wf s.mem = true) :
    Res.Keeps (hbgateBody i a b s) φ ↔ ∀ out, hbgateBody i a b s = .ok out → Memory.wf out.mem = true → φ out :=
  (Res.keeps_iff (hbgateBody_wf _ _ _ hs))

theorem hbpollBody_wf (i : Instr) (d a : Nat) {s : State} (hs : Memory.wf s.mem = true) : Res.Keeps (hbpollBody i d a s) fun t => Memory.wf t.mem = true := by
  unfold hbpollBody
  simp [hs]
  intros
  split <;> simp [hs]

@[simp] theorem hbpollBody_wf_iff {φ : State → Prop} (i : Instr) (d a : Nat) {s : State} (hs : Memory.wf s.mem = true) :
    Res.Keeps (hbpollBody i d a s) φ ↔ ∀ out, hbpollBody i d a s = .ok out → Memory.wf out.mem = true → φ out :=
  (Res.keeps_iff (hbpollBody_wf _ _ _ hs))

theorem hbrelBody_wf (i : Instr) (a : Nat) {s : State} (hs : Memory.wf s.mem = true) : Res.Keeps (hbrelBody i a s) fun t => Memory.wf t.mem = true := by
  simp [hbrelBody, hs]

@[simp] theorem hbrelBody_wf_iff {φ : State → Prop} (i : Instr) (a : Nat) {s : State} (hs : Memory.wf s.mem = true) :
    Res.Keeps (hbrelBody i a s) φ ↔ ∀ out, hbrelBody i a s = .ok out → Memory.wf out.mem = true → φ out :=
  (Res.keeps_iff (hbrelBody_wf _ _ hs))

theorem hbstatBody_wf (i : Instr) (d a : Nat) {s : State} (hs : Memory.wf s.mem = true) : Res.Keeps (hbstatBody i d a s) fun t => Memory.wf t.mem = true := by
  simp [hbstatBody, hs]

@[simp] theorem hbstatBody_wf_iff {φ : State → Prop} (i : Instr) (d a : Nat) {s : State} (hs : Memory.wf s.mem = true) :
    Res.Keeps (hbstatBody i d a s) φ ↔ ∀ out, hbstatBody i d a s = .ok out → Memory.wf out.mem = true → φ out :=
  (Res.keeps_iff (hbstatBody_wf _ _ _ hs))

@[simp] theorem State.hbZero_wf {s : State} (hs : Memory.wf s.mem = true) (ctx : Nat) (h : Hatbox) :
    Memory.wf (s.hbZero ctx h).mem = true := State.foldl_wf (fun _ _ ht => State.unitWrite_wf ht _ _ _ _) hs _

theorem hbcfgBody_wf (i : Instr) (d a : Nat) {s : State} (hs : Memory.wf s.mem = true) : Res.Keeps (hbcfgBody i d a s) fun t => Memory.wf t.mem = true := by
  simp [hbcfgBody, hs]

@[simp] theorem hbcfgBody_wf_iff {φ : State → Prop} (i : Instr) (d a : Nat) {s : State} (hs : Memory.wf s.mem = true) :
    Res.Keeps (hbcfgBody i d a s) φ ↔ ∀ out, hbcfgBody i d a s = .ok out → Memory.wf out.mem = true → φ out :=
  (Res.keeps_iff (hbcfgBody_wf _ _ _ hs))

theorem State.queueEntry_wf {s : State} (hs : Memory.wf s.mem = true) (k : Copy) (lo n : Nat) (wr : Bool) :
    Res.Keeps (s.queueEntry k lo n wr) fun t => Memory.wf t.mem = true := by
  simp [State.queueEntry, hs]

@[simp] theorem State.queueEntry_wf_iff {φ : State → Prop} {s : State} (hs : Memory.wf s.mem = true) (k : Copy) (lo n : Nat) (wr : Bool) :
    Res.Keeps (s.queueEntry k lo n wr) φ ↔ ∀ out, s.queueEntry k lo n wr = .ok out → Memory.wf out.mem = true → φ out :=
  (Res.keeps_iff (State.queueEntry_wf hs _ _ _ _))

@[simp] theorem hbputBody_wf (d a b : Nat) {s : State} (hs : Memory.wf s.mem = true) : Res.Keeps (hbputBody d a b s) fun t => Memory.wf t.mem = true := by
  simp [hbputBody, hs]

theorem State.sendPut_wf {s : State} (hs : Memory.wf s.mem = true) (die core : Nat) (k : Copy) :
    Res.Keeps (s.sendPut die core k) fun t => Memory.wf t.mem = true := by
  unfold State.sendPut
  simp [hs]
  intros
  split
  · simp [hs]
  · split <;> simp [hs]

@[simp] theorem State.sendPut_wf_iff {φ : State → Prop} {s : State} (hs : Memory.wf s.mem = true) (die core : Nat) (k : Copy) :
    Res.Keeps (s.sendPut die core k) φ ↔ ∀ out, s.sendPut die core k = .ok out → Memory.wf out.mem = true → φ out :=
  (Res.keeps_iff (State.sendPut_wf hs _ _ _))

@[simp] theorem State.putArrive_wf {s : State} (hs : Memory.wf s.mem = true) (n : Nat) (m : PutMsg) : Memory.wf (s.putArrive n m).mem = true := by
  unfold State.putArrive
  dsimp only
  split
  · rw [State.ackItem_mem]
    split <;> simp [hs]
  · split <;> simp [hs]

@[simp] theorem State.foreignPut_wf {s : State} (hs : Memory.wf s.mem = true) (exp target word src : Nat) (data : List Lane) :
    Memory.wf (s.foreignPut exp target word src data).mem = true := by
  unfold State.foreignPut
  repeat' split
  all_goals simp [hs]

/-! ### Operations of `Machine/Param` -/

@[simp] theorem State.putUnit_wf {s : State} (hs : Memory.wf s.mem = true) (p : Phys) (ls : List Lane) : Memory.wf (s.putUnit p ls).mem = true := by
  simp [State.putUnit, hs]

@[simp] theorem State.prArrive_wf {s : State} (hs : Memory.wf s.mem = true) (ctx : Nat) (p : Phys) (g : List Lane) : Memory.wf (s.prArrive ctx p g).mem = true := by
  simp [State.prArrive, hs]

@[simp] theorem State.prUpdate_wf {s : State} (hs : Memory.wf s.mem = true) (u : Update) : Memory.wf (s.prUpdate u).mem = true := by
  simp [State.prUpdate, hs]

@[simp] theorem State.prPosted_wf {s : State} (hs : Memory.wf s.mem = true) (n : Nat) (m : UnitMsg) : Memory.wf (s.prPosted n m).mem = true := by
  unfold State.prPosted
  dsimp only
  split
  · simp [hs]
  · split <;> simp [hs]

@[simp] theorem State.foreignGrad_wf {s : State} (hs : Memory.wf s.mem = true) (exp va : Nat) (g : List Lane) : Memory.wf (s.foreignGrad exp va g).mem = true := by
  unfold State.foreignGrad
  repeat' split
  all_goals simp [hs]

@[simp] theorem State.classForm_wf {s : State} (hs : Memory.wf s.mem = true) (kind : CopyKind) (arg bytes : Nat) (wr : Bool) (d a b : Nat) :
    Res.Keeps (s.classForm kind arg bytes wr d a b) fun t => Memory.wf t.mem = true := by
  simp [State.classForm, hs]

/-- A unit sent to another die leaves memory alone; one that stays here is placed by `here`. -/
@[simp] theorem State.sendUnit_wf {s : State} (hs : Memory.wf s.mem = true) (die core : Nat) (grad : Bool) (k : Copy) (data : List Lane) {here : Nat → Phys → Res State}
    (hh : ∀ ctx p, (here ctx p).Keeps fun t => Memory.wf t.mem = true) : (s.sendUnit die core grad k data here).Keeps fun t => Memory.wf t.mem = true := by
  unfold State.sendUnit
  simp [hs]
  intros
  split
  · simp [hs]
  · simp
    intros
    split
    · simp [hs]
    · exact hh _ _

theorem State.gradUnit_wf {s : State} (hs : Memory.wf s.mem = true) (die core : Nat) (k : Copy) :
    Res.Keeps (s.gradUnit die core k) fun t => Memory.wf t.mem = true := by
  unfold State.gradUnit
  refine State.sendUnit_wf hs _ _ _ _ _ fun ctx p => ?_
  simp [hs]

@[simp] theorem State.gradUnit_wf_iff {φ : State → Prop} {s : State} (hs : Memory.wf s.mem = true) (die core : Nat) (k : Copy) :
    Res.Keeps (s.gradUnit die core k) φ ↔ ∀ out, s.gradUnit die core k = .ok out → Memory.wf out.mem = true → φ out :=
  (Res.keeps_iff (State.gradUnit_wf hs _ _ _))

theorem State.readUnit_wf {s : State} (hs : Memory.wf s.mem = true) (die core : Nat) (k : Copy) :
    Res.Keeps (s.readUnit die core k) fun t => Memory.wf t.mem = true := by
  simp [State.readUnit, hs]

@[simp] theorem State.readUnit_wf_iff {φ : State → Prop} {s : State} (hs : Memory.wf s.mem = true) (die core : Nat) (k : Copy) :
    Res.Keeps (s.readUnit die core k) φ ↔ ∀ out, s.readUnit die core k = .ok out → Memory.wf out.mem = true → φ out :=
  (Res.keeps_iff (State.readUnit_wf hs _ _ _))

@[simp] theorem prsyncBody_wf (d a b : Nat) {s : State} (hs : Memory.wf s.mem = true) : Res.Keeps (prsyncBody d a b s) fun t => Memory.wf t.mem = true := by
  simp [prsyncBody, hs]

theorem prruleBody_wf (i : Instr) (d a b : Nat) {s : State} (hs : Memory.wf s.mem = true) : Res.Keeps (prruleBody i d a b s) fun t => Memory.wf t.mem = true := by
  unfold prruleBody
  simp [hs]
  intros
  split <;> simp [hs]

@[simp] theorem prruleBody_wf_iff {φ : State → Prop} (i : Instr) (d a b : Nat) {s : State} (hs : Memory.wf s.mem = true) :
    Res.Keeps (prruleBody i d a b s) φ ↔ ∀ out, prruleBody i d a b s = .ok out → Memory.wf out.mem = true → φ out :=
  (Res.keeps_iff (prruleBody_wf _ _ _ _ hs))

/-! ### Operations of `Machine/Gossip` -/

@[simp] theorem State.split_wf {s : State} (hs : Memory.wf s.mem = true) (ctx : Nat) (g : Gossip) (n : Nat) (p : Phys) (port k : Nat) :
    Memory.wf (s.split ctx g n p port k).mem = true := by
  have hp (a b : List Lane) (c : Nat) : Memory.wf ((s.putUnit p a).sendHalf ctx g n port b c).mem = true := by
    rw [State.sendHalf_mem]
    exact State.putUnit_wf hs _ _
  exact hp _ _ _

@[simp] theorem State.halve_wf {s : State} (hs : Memory.wf s.mem = true) (ctx : Nat) (g : Gossip) (n : Nat) : Memory.wf (s.halve ctx g n).mem = true := by
  unfold State.halve
  dsimp only
  split
  · exact State.split_wf hs _ _ _ _ _ _
  · simp [hs]

@[simp] theorem State.mergeHalf_wf {s : State} (hs : Memory.wf s.mem = true) (port : Nat) (h : HalfMsg) : Memory.wf (s.mergeHalf port h).mem = true := by
  have hr (b : Bool) : Memory.wf (s.reply port b h.seq).mem = true := by simp [hs]
  have hm (p : Phys) (ls : List Lane) (ctx : Nat) (g : Gossip) (q : Port) :
      Memory.wf ((((s.putUnit p ls).setGossip ctx g).setPort port q).reply port true h.seq).mem = true := by
    rw [State.reply_mem, State.setPort_mem, State.setGossip_mem]
    exact State.putUnit_wf hs _ _
  unfold State.mergeHalf
  extract_lets q
  split
  · exact hr _
  · split
    · exact hr _
    · split
      · exact hr _
      · split
        · exact hr _
        · split
          · exact hr _
          · extract_lets ls
            split
            · exact hr _
            · split
              · exact hr _
              · exact hm _ _ _ _ _

@[simp] theorem State.restoreHalf_wf {s : State} (hs : Memory.wf s.mem = true) (ctx n : Nat) : Memory.wf (s.restoreHalf ctx n).mem = true := by
  unfold State.restoreHalf
  dsimp only
  repeat' split
  all_goals simp [hs]

@[simp] theorem State.resolve_wf {s : State} (hs : Memory.wf s.mem = true) (port : Nat) (applied : BitVec 32) : Memory.wf (s.resolve port applied).mem = true := by
  unfold State.resolve
  simp +contextual [State.foldl_mem, State.foldl_wf, hs]

@[simp] theorem State.portRetrain_wf {s : State} (hs : Memory.wf s.mem = true) (port : Nat) (applied : BitVec 32) :
    Memory.wf (s.portRetrain port applied).mem = true := by
  simp [State.portRetrain, hs]

theorem State.depUnit_wf {s : State} (hs : Memory.wf s.mem = true) (die core : Nat) (k : Copy) :
    Res.Keeps (s.depUnit die core k) fun t => Memory.wf t.mem = true := by
  unfold State.depUnit
  refine State.sendUnit_wf hs _ _ _ _ _ fun ctx p => ?_
  split <;> simp [hs]

@[simp] theorem State.depUnit_wf_iff {φ : State → Prop} {s : State} (hs : Memory.wf s.mem = true) (die core : Nat) (k : Copy) :
    Res.Keeps (s.depUnit die core k) φ ↔ ∀ out, s.depUnit die core k = .ok out → Memory.wf out.mem = true → φ out :=
  (Res.keeps_iff (State.depUnit_wf hs _ _ _))

theorem State.greadUnit_wf {s : State} (hs : Memory.wf s.mem = true) (die core : Nat) (k : Copy) :
    Res.Keeps (s.greadUnit die core k) fun t => Memory.wf t.mem = true := by
  simp [State.greadUnit, hs]

@[simp] theorem State.greadUnit_wf_iff {φ : State → Prop} {s : State} (hs : Memory.wf s.mem = true) (die core : Nat) (k : Copy) :
    Res.Keeps (s.greadUnit die core k) φ ↔ ∀ out, s.greadUnit die core k = .ok out → Memory.wf out.mem = true → φ out :=
  (Res.keeps_iff (State.greadUnit_wf hs _ _ _))

@[simp] theorem State.depPosted_wf {s : State} (hs : Memory.wf s.mem = true) (n : Nat) (m : UnitMsg) : Memory.wf (s.depPosted n m).mem = true := by
  unfold State.depPosted
  dsimp only
  repeat' split
  all_goals simp [hs]

@[simp] theorem State.foreignDep_wf {s : State} (hs : Memory.wf s.mem = true) (exp va : Nat) (dep : List Lane) : Memory.wf (s.foreignDep exp va dep).mem = true := by
  unfold State.foreignDep
  repeat' split
  all_goals simp [hs]

theorem State.classUnit_wf {s : State} (hs : Memory.wf s.mem = true) (die core : Nat) (k : Copy) :
    Res.Keeps (s.classUnit die core k) fun t => Memory.wf t.mem = true := by
  unfold State.classUnit
  repeat' split
  all_goals simp +contextual [hs]

@[simp] theorem State.classUnit_wf_iff {φ : State → Prop} {s : State} (hs : Memory.wf s.mem = true) (die core : Nat) (k : Copy) :
    Res.Keeps (s.classUnit die core k) φ ↔ ∀ out, s.classUnit die core k = .ok out → Memory.wf out.mem = true → φ out :=
  (Res.keeps_iff (State.classUnit_wf hs _ _ _))

@[simp] theorem State.runUnit_wf {s : State} (hs : Memory.wf s.mem = true) (die core : Nat) (k : Copy) : Memory.wf (s.runUnit die core k).mem = true := by
  have hu := State.classUnit_wf hs die core k
  unfold State.runUnit
  split
  case h_1 h => simpa using hu.of_ok h
  case h_2 h => simpa using hu.of_wait h
  case h_3 h => exact hu.of_jump h
  · simp [hs]

@[simp] theorem State.runPut_wf {s : State} (hs : Memory.wf s.mem = true) (die core : Nat) (k : Copy) : Memory.wf (s.runPut die core k).mem = true := by
  have hu := State.sendPut_wf hs die core k
  unfold State.runPut
  split
  case h_1 h => simpa using hu.of_ok h
  · simp [hs]
  · exact hs

@[simp] theorem State.copyStep_wf {s : State} (hs : Memory.wf s.mem = true) (die core : Nat) (k : Copy) : Memory.wf (s.copyStep die core k).mem = true := by
  unfold State.copyStep
  repeat' split
  all_goals simp [hs]

theorem State.gossipAt_wf {s : State} (va : Nat) : Res.Keeps (s.gossipAt va) fun _ => True := by
  simp [State.gossipAt]

@[simp] theorem State.gossipAt_wf_iff {φ : (Option (Gossip × ℕ) × Phys) → Prop} {s : State} (va : Nat) :
    Res.Keeps (s.gossipAt va) φ ↔ ∀ out, s.gossipAt va = .ok out → φ out :=
  (Res.keeps_iff (State.gossipAt_wf _)).trans (by simp)

theorem gspreadBody_wf (i : Instr) (p a b : Nat) {s : State} (hs : Memory.wf s.mem = true) : Res.Keeps (gspreadBody i p a b s) fun t => Memory.wf t.mem = true := by
  simp [gspreadBody, hs]

@[simp] theorem gspreadBody_wf_iff {φ : State → Prop} (i : Instr) (p a b : Nat) {s : State} (hs : Memory.wf s.mem = true) :
    Res.Keeps (gspreadBody i p a b s) φ ↔ ∀ out, gspreadBody i p a b s = .ok out → Memory.wf out.mem = true → φ out :=
  (Res.keeps_iff (gspreadBody_wf _ _ _ _ hs))

theorem gmassBody_wf (i : Instr) (d a : Nat) {s : State} (hs : Memory.wf s.mem = true) : Res.Keeps (gmassBody i d a s) fun t => Memory.wf t.mem = true := by
  unfold gmassBody
  simp [hs]
  intros
  split <;> simp [hs]

@[simp] theorem gmassBody_wf_iff {φ : State → Prop} (i : Instr) (d a : Nat) {s : State} (hs : Memory.wf s.mem = true) :
    Res.Keeps (gmassBody i d a s) φ ↔ ∀ out, gmassBody i d a s = .ok out → Memory.wf out.mem = true → φ out :=
  (Res.keeps_iff (gmassBody_wf _ _ _ hs))

theorem gcfgBody_wf (i : Instr) (d a : Nat) {s : State} (hs : Memory.wf s.mem = true) : Res.Keeps (gcfgBody i d a s) fun t => Memory.wf t.mem = true := by
  simp [gcfgBody, hs]

@[simp] theorem gcfgBody_wf_iff {φ : State → Prop} (i : Instr) (d a : Nat) {s : State} (hs : Memory.wf s.mem = true) :
    Res.Keeps (gcfgBody i d a s) φ ↔ ∀ out, gcfgBody i d a s = .ok out → Memory.wf out.mem = true → φ out :=
  (Res.keeps_iff (gcfgBody_wf _ _ _ hs))

/-! ### Operations of `Machine/Sched` -/

@[simp] theorem State.completeGraph_wf {s : State} (hs : Memory.wf s.mem = true) (g : Graph) (state cause : Nat) :
    Memory.wf (s.complete_ g state cause).mem = true := by
  unfold State.complete_
  dsimp only
  split <;> simp [hs]

@[simp] theorem State.writeResult_wf {s : State} (hs : Memory.wf s.mem = true) (g : Graph) (r : Rec) (res : Nat) : Memory.wf (s.writeResult g r res).mem = true := by
  simp [State.writeResult, hs]

@[simp] theorem State.performStores_wf {s : State} (hs : Memory.wf s.mem = true) (die core : Nat) : Memory.wf (s.performStores die core).mem = true := by
  unfold State.performStores
  refine State.foldl_wf (fun t m ht => ?_) ?_ _
  · split <;> simp [ht]
  · exact State.foldl_wf (s := s.setCoreAt die core _) (fun _ _ ht => State.devWrite_wf ht _ _) hs _

theorem eachMsg_wf {α : Type} [DecidableEq α] (of : State → List α) {f : Nat → α → State → State}
    (hf : ∀ n m t, Memory.wf t.mem = true → Memory.wf (f n m t).mem = true) {s : State} (hs : Memory.wf s.mem = true) (ms : List α) :
    Memory.wf (eachMsg of f s ms).mem = true := by
  refine State.foldl_wf (fun t m ht => ?_) hs _
  split
  · exact hf _ _ _ ht
  · exact ht

@[simp] theorem State.performAll_wf {s : State} (hs : Memory.wf s.mem = true) (die core : Nat) : Memory.wf (s.performAll die core).mem = true := by
  refine eachMsg_wf _ (fun n m t ht => ?_) (eachMsg_wf _ (fun _ _ _ ht => State.putArrive_wf ht _ _)
    (eachMsg_wf _ (fun _ _ _ ht => State.flagAddArrive_wf ht _ _) (State.performStores_wf hs _ _) _) _) _
  split
  · exact State.prPosted_wf ht _ _
  · exact State.depPosted_wf ht _ _

@[simp] theorem State.dropStash_wf {s : State} (hs : Memory.wf s.mem = true) (die core : Nat) : Memory.wf (s.dropStash die core).mem = true := by
  refine State.foldl_wf (fun t a ht => ?_) hs _
  simp [ht]

@[simp] theorem State.stopTask_wf {s : State} (hs : Memory.wf s.mem = true) (die core : Nat) (sub : Option Nat) :
    Memory.wf (s.stopTask die core sub).mem = true := by
  unfold State.stopTask
  repeat' split
  all_goals simp [hs]

@[simp] theorem State.stopSaved_wf {s : State} (hs : Memory.wf s.mem = true) (k : Ckpt) : Memory.wf (s.stopSaved k).mem = true := by
  unfold State.stopSaved
  repeat' split
  all_goals simp [hs]

@[simp] theorem State.stopSavedAll_wf {s : State} (hs : Memory.wf s.mem = true) (ok : RunTask → Bool) : Memory.wf (s.stopSavedAll ok).mem = true := by
  refine State.foldl_wf (fun t a ht => ?_) hs _
  simp [ht]

@[simp] theorem State.abortGraph_wf {s : State} (hs : Memory.wf s.mem = true) (gid cause : Nat) (sub : Nat) : Memory.wf (s.abort_ gid cause sub).mem = true := by
  unfold State.abort_
  split
  · exact hs
  · dsimp only
    refine State.completeGraph_wf ?_ _ _ _
    rw [State.foldl_mem fun _ _ => State.dropTags_mem _ _]
    exact State.foldl_wf (fun _ _ ht => State.writeResult_wf ht _ _ _)
      (State.stopSavedAll_wf (State.foldl_wf (fun _ _ ht => State.stopTask_wf ht _ _ _) hs _) _) _

@[simp] theorem State.settle_wf {s : State} (hs : Memory.wf s.mem = true) (g : Graph) (is : List Nat) : Memory.wf (s.settle g is).mem = true := by
  unfold State.settle
  dsimp only
  generalize hf : is.foldl _ s = u
  have hu : Memory.wf u.mem = true := by
    rw [← hf]
    refine State.foldl_wf (fun t i ht => ?_) hs _
    split
    · split <;> simp [ht]
    · exact ht
  split <;> simp [hu]

@[simp] theorem State.finishRec_wf {s : State} (hs : Memory.wf s.mem = true) (gid i res : Nat) : Memory.wf (s.finishRec gid i res).mem = true := by
  unfold State.finishRec
  split
  · exact hs
  · split
    · exact hs
    · dsimp only
      refine State.settle_wf ?_ _ _
      rw [State.setGraph_mem]
      refine State.foldl_wf (fun t j ht => ?_) (by simp [hs]) _
      split
      · exact State.writeResult_wf ht _ _ _
      · exact ht

@[simp] theorem State.takeGraph_wf {s : State} (hs : Memory.wf s.mem = true) (die : Nat) : Memory.wf (s.takeGraph die).mem = true := by
  unfold State.takeGraph
  dsimp only
  repeat' split
  all_goals simp [hs]

@[simp] theorem State.checkGraph_wf {s : State} (hs : Memory.wf s.mem = true) (g : Graph) : Memory.wf (s.checkGraph g).mem = true := by
  unfold State.checkGraph
  repeat' split
  all_goals simp [hs]

@[simp] theorem State.admitRec_wf {s : State} (hs : Memory.wf s.mem = true) (g : Graph) : Memory.wf (s.admitRec g).mem = true := by
  unfold State.admitRec
  dsimp only
  split
  · exact hs
  · repeat' split
    all_goals simp [hs]

@[simp] theorem State.failRec_wf {s : State} (hs : Memory.wf s.mem = true) (gid i : Nat) : Memory.wf (s.failRec gid i).mem = true := by
  unfold State.failRec
  split
  · exact hs
  case h_2 g _ =>
    have h2 := State.stopSavedAll_wf (State.foldl_wf (fun _ _ ht => State.stopTask_wf ht _ _ _) hs (s.runners g.die (fun t => t.graph = gid && t.record = i)) :
      Memory.wf ((s.runners g.die (fun t => t.graph = gid && t.record = i)).foldl (fun s k => s.stopTask g.die k (some 1)) s).mem = true)
      (fun t => t.graph = gid && t.record = i)
    dsimp only
    split
    · exact h2
    · exact State.finishRec_wf (by rw [State.setGraph_mem]; exact h2) _ _ _

@[simp] theorem State.startOn_wf {s : State} (hs : Memory.wf s.mem = true) (g : Graph) (r : Rec) (i : Nat) (ks : List Nat) :
    Memory.wf (s.startOn g r i ks).mem = true := by
  unfold State.startOn
  split
  · exact State.abortGraph_wf hs _ _ _
  · split
    · exact State.failRec_wf hs _ _
    · dsimp only
      rw [State.foldl_mem fun _ _ => State.startTile_mem _ _ _ _ _]
      split
      · split <;> simp [hs]
      · simp [hs]

@[simp] theorem State.startReady_wf {s : State} (hs : Memory.wf s.mem = true) (die part : Nat) (r : Ready) : Memory.wf (s.startReady die part r).mem = true := by
  unfold State.startReady
  repeat' split
  all_goals simp [hs]

@[simp] theorem State.checkpoint_wf {s : State} (hs : Memory.wf s.mem = true) (die part core : Nat) (t : RunTask) :
    Memory.wf (s.checkpoint die part core t).mem = true := by
  simp [State.checkpoint, hs]

@[simp] theorem State.preemptFor_wf {s : State} (hs : Memory.wf s.mem = true) (die part : Nat) (r : Ready) (prio : Nat) (only : Option Nat) :
    Memory.wf (s.preemptFor die part r prio only).mem = true := by
  unfold State.preemptFor
  dsimp only
  split
  · simp [hs]
  · split <;> simp [hs]

@[simp] theorem State.tileOver_wf {s : State} (hs : Memory.wf s.mem = true) (t : RunTask) : Memory.wf (s.tileOver t).mem = true := by
  unfold State.tileOver
  dsimp only
  split
  · exact hs
  · split
    · exact hs
    · split <;> simp [hs]

theorem State.unmapAll_wf {s : State} (hs : Memory.wf s.mem = true) (die core : Nat) (xs : List StashMap) :
    Res.Keeps (s.unmapAll die core xs) fun t => Memory.wf t.mem = true := by
  induction xs generalizing s with
  | nil => simp [State.unmapAll, hs]
  | cons a l ih => simp +contextual [State.unmapAll, hs, ih]

@[simp] theorem State.unmapAll_wf_iff {φ : State → Prop} {s : State} (hs : Memory.wf s.mem = true) (die core : Nat) (xs : List StashMap) :
    Res.Keeps (s.unmapAll die core xs) φ ↔ ∀ out, s.unmapAll die core xs = .ok out → Memory.wf out.mem = true → φ out :=
  (Res.keeps_iff (State.unmapAll_wf hs _ _ _))

@[simp] theorem State.retire_wf {s : State} (hs : Memory.wf s.mem = true) (die core : Nat) (t : RunTask) : Memory.wf (s.retire die core t).mem = true := by
  have hu := State.unmapAll_wf hs die core (s.coreAt die core).stash
  unfold State.retire
  split
  case h_1 h => exact hu.of_wait h
  · exact hs
  case h_3 h => exact State.tileOver_wf (by simpa using hu.of_ok h) _

@[simp] theorem State.submit_wf {s : State} (hs : Memory.wf s.mem = true) (q desc : Nat) (count : Option Nat) : Memory.wf (s.submit q desc count).mem = true := by
  simp [State.submit, hs]

theorem tlaunchBody_wf (i : Instr) (d a b : Nat) {s : State} (hs : Memory.wf s.mem = true) : Res.Keeps (tlaunchBody i d a b s) fun t => Memory.wf t.mem = true := by
  simp +contextual [tlaunchBody, hs]

@[simp] theorem tlaunchBody_wf_iff {φ : State → Prop} (i : Instr) (d a b : Nat) {s : State} (hs : Memory.wf s.mem = true) :
    Res.Keeps (tlaunchBody i d a b s) φ ↔ ∀ out, tlaunchBody i d a b s = .ok out → Memory.wf out.mem = true → φ out :=
  (Res.keeps_iff (tlaunchBody_wf _ _ _ _ hs))

@[simp] theorem State.noteUser_wf {s : State} (hs : Memory.wf s.mem = true) (v : Nat) : Memory.wf (s.noteUser v).mem = true := by
  unfold State.noteUser
  repeat' split
  all_goals simp [hs]

@[simp] theorem tdoneBody_wf (a : Nat) {s : State} (hs : Memory.wf s.mem = true) : Res.Keeps (tdoneBody a s) fun t => Memory.wf t.mem = true := by
  simp [tdoneBody, hs]

@[simp] theorem tsignalBody_wf {s : State} (hs : Memory.wf s.mem = true) : Res.Keeps (tsignalBody s) fun t => Memory.wf t.mem = true := by
  unfold tsignalBody
  dsimp only
  split <;> simp [hs]

/-! ### Operations of `Machine/VecMem` -/

theorem Core.spElems_wf (c : Core) (wr : Bool) (xs : List Elem) : Res.Keeps (Core.spElems c wr xs) fun _ => True := by
  induction xs with
  | nil => trivial
  | cons e es ih =>
    unfold Core.spElems
    simp [ih]

@[simp] theorem Core.spElems_wf_iff {φ : Unit → Prop} (c : Core) (wr : Bool) (xs : List Elem) :
    Res.Keeps (Core.spElems c wr xs) φ ↔ ∀ out, Core.spElems c wr xs = .ok out → φ out :=
  (Res.keeps_iff (Core.spElems_wf _ _ _)).trans (by simp)

theorem State.spElemsReady_wf {s : State} (hs : Memory.wf s.mem = true) (wr : Bool) (xs : List Elem) : Res.Keeps (s.spElemsReady wr xs) fun _ => True := by
  induction xs with
  | nil => trivial
  | cons a l ih => simp +contextual [State.spElemsReady, hs, ih]

@[simp] theorem State.spElemsReady_wf_iff {φ : Unit → Prop} {s : State} (hs : Memory.wf s.mem = true) (wr : Bool) (xs : List Elem) :
    Res.Keeps (s.spElemsReady wr xs) φ ↔ ∀ out, s.spElemsReady wr xs = .ok out → φ out :=
  (Res.keeps_iff (State.spElemsReady_wf hs _ _)).trans (by simp)

theorem State.glElems_wf {s : State} (hs : Memory.wf s.mem = true) (wr : Bool) (xs : List Elem) : Res.Keeps (s.glElems wr xs) fun a => Memory.wf a.2.mem = true := by
  induction xs generalizing s with
  | nil => simp [State.glElems, hs]
  | cons a l ih => simp +contextual [State.glElems, hs, ih]

@[simp] theorem State.glElems_wf_iff {φ : (List Phys × State) → Prop} {s : State} (hs : Memory.wf s.mem = true) (wr : Bool) (xs : List Elem) :
    Res.Keeps (s.glElems wr xs) φ ↔ ∀ out, s.glElems wr xs = .ok out → Memory.wf out.2.mem = true → φ out :=
  (Res.keeps_iff (State.glElems_wf hs _ _))

@[simp] theorem State.takeElems_wf {s : State} (hs : Memory.wf s.mem = true) (qs : List (Elem × Phys)) (got : List (Nat × Lane)) :
    Memory.wf (s.takeElems qs got).2.mem = true := by
  induction qs generalizing s got with
  | nil => exact hs
  | cons q qs ih =>
    unfold State.takeElems
    split
    · exact ih hs _
    · split
      case h_1 h => exact ih ((State.canRead_wf hs _ _ _ _).of_wait h) _
      · exact ih hs _
      · split <;> exact ih hs _

theorem State.loadElems_wf {s : State} (hs : Memory.wf s.mem = true) (i : Instr) (ea : Nat) (es : List Elem) :
    Res.Keeps (s.loadElems i ea es) fun a => Memory.wf a.2.mem = true := by
  unfold State.loadElems
  simp +contextual [hs]
  intros
  split <;> simp [*]

@[simp] theorem State.loadElems_wf_iff {φ : (List (ℕ × Lane) × State) → Prop} {s : State} (hs : Memory.wf s.mem = true) (i : Instr) (ea : Nat) (es : List Elem) :
    Res.Keeps (s.loadElems i ea es) φ ↔ ∀ out, s.loadElems i ea es = .ok out → Memory.wf out.2.mem = true → φ out :=
  (Res.keeps_iff (State.loadElems_wf hs _ _ _))

@[simp] theorem State.storeAll_mem (s : State) (w : Nat → Lane) (qs : List (Elem × Phys)) : (s.storeAll w qs).mem = s.mem := by
  induction qs generalizing s with
  | nil => rfl
  | cons q qs ih => exact (ih _).trans (State.storeElem_mem _ _ _ _)

theorem State.storeElems_wf {s : State} (hs : Memory.wf s.mem = true) (w : Nat → Lane) (es : List Elem) :
    Res.Keeps (s.storeElems w es) fun t => Memory.wf t.mem = true := by
  unfold State.storeElems
  dsimp only
  split <;> simp +contextual [hs]

@[simp] theorem State.storeElems_wf_iff {φ : State → Prop} {s : State} (hs : Memory.wf s.mem = true) (w : Nat → Lane) (es : List Elem) :
    Res.Keeps (s.storeElems w es) φ ↔ ∀ out, s.storeElems w es = .ok out → Memory.wf out.mem = true → φ out :=
  (Res.keeps_iff (State.storeElems_wf hs _ _))

@[simp] theorem State.spStore_mem (s : State) (w : Nat → Lane) (es : List Elem) : (s.spStore w es).mem = s.mem := by
  induction es generalizing s with
  | nil => rfl
  | cons e es ih => exact (ih _).trans (State.spWrite_mem _ _ _ _ _)

theorem vecLoad_wf (i : Instr) (sp : Bool) (ea v : Nat) (es : List Elem) (range : Nat × Nat) (lmax : Nat) {s : State} (hs : Memory.wf s.mem = true) :
    Res.Keeps (vecLoad i sp ea v es range lmax s) fun t => Memory.wf t.mem = true := by
  simp [vecLoad, hs]

@[simp] theorem vecLoad_wf_iff {φ : State → Prop} (i : Instr) (sp : Bool) (ea v : Nat) (es : List Elem) (range : Nat × Nat) (lmax : Nat) {s : State}
    (hs : Memory.wf s.mem = true) :
    Res.Keeps (vecLoad i sp ea v es range lmax s) φ ↔ ∀ out, vecLoad i sp ea v es range lmax s = .ok out → Memory.wf out.mem = true → φ out :=
  (Res.keeps_iff (vecLoad_wf _ _ _ _ _ _ _ hs))

theorem vecStore_wf (sp : Bool) (v : Nat) (es : List Elem) (range : Nat × Nat) {s : State} (hs : Memory.wf s.mem = true) :
    Res.Keeps (vecStore sp v es range s) fun t => Memory.wf t.mem = true := by
  simp [vecStore, hs]

@[simp] theorem vecStore_wf_iff {φ : State → Prop} (sp : Bool) (v : Nat) (es : List Elem) (range : Nat × Nat) {s : State} (hs : Memory.wf s.mem = true) :
    Res.Keeps (vecStore sp v es range s) φ ↔ ∀ out, vecStore sp v es range s = .ok out → Memory.wf out.mem = true → φ out :=
  (Res.keeps_iff (vecStore_wf _ _ _ _ hs))

theorem vld32Body_wf (i : Instr) (v b : Nat) (sp : Bool) (q : Nat) {s : State} (hs : Memory.wf s.mem = true) :
    Res.Keeps (vld32Body i v b sp q s) fun t => Memory.wf t.mem = true := by
  simp [vld32Body, hs]

@[simp] theorem vld32Body_wf_iff {φ : State → Prop} (i : Instr) (v b : Nat) (sp : Bool) (q : Nat) {s : State} (hs : Memory.wf s.mem = true) :
    Res.Keeps (vld32Body i v b sp q s) φ ↔ ∀ out, vld32Body i v b sp q s = .ok out → Memory.wf out.mem = true → φ out :=
  (Res.keeps_iff (vld32Body_wf _ _ _ _ _ hs))

theorem vldBBody_wf (i : Instr) (v b : Nat) (sp : Bool) (q : Nat) {s : State} (hs : Memory.wf s.mem = true) :
    Res.Keeps (vldBBody i v b sp q s) fun t => Memory.wf t.mem = true := by
  simp [vldBBody, hs]

@[simp] theorem vldBBody_wf_iff {φ : State → Prop} (i : Instr) (v b : Nat) (sp : Bool) (q : Nat) {s : State} (hs : Memory.wf s.mem = true) :
    Res.Keeps (vldBBody i v b sp q s) φ ↔ ∀ out, vldBBody i v b sp q s = .ok out → Memory.wf out.mem = true → φ out :=
  (Res.keeps_iff (vldBBody_wf _ _ _ _ _ hs))

theorem vgathBody_wf (i : Instr) (v ix b : Nat) (sp : Bool) (q : Nat) {s : State} (hs : Memory.wf s.mem = true) :
    Res.Keeps (vgathBody i v ix b sp q s) fun t => Memory.wf t.mem = true := by
  simp [vgathBody, hs]

@[simp] theorem vgathBody_wf_iff {φ : State → Prop} (i : Instr) (v ix b : Nat) (sp : Bool) (q : Nat) {s : State} (hs : Memory.wf s.mem = true) :
    Res.Keeps (vgathBody i v ix b sp q s) φ ↔ ∀ out, vgathBody i v ix b sp q s = .ok out → Memory.wf out.mem = true → φ out :=
  (Res.keeps_iff (vgathBody_wf _ _ _ _ _ _ hs))

@[simp] theorem vst32Body_wf (v b : Nat) (sp : Bool) (q : Nat) {s : State} (hs : Memory.wf s.mem = true) :
    Res.Keeps (vst32Body v b sp q s) fun t => Memory.wf t.mem = true := by
  simp [vst32Body, hs]

@[simp] theorem vscatBody_wf (v ix b : Nat) (sp : Bool) (q : Nat) {s : State} (hs : Memory.wf s.mem = true) :
    Res.Keeps (vscatBody v ix b sp q s) fun t => Memory.wf t.mem = true := by
  simp [vscatBody, hs]

/-! ### Operations of `Machine/Traps` -/

@[simp] theorem State.endGraph_wf {s : State} (hs : Memory.wf s.mem = true) (g : Graph) (cause : Nat) : Memory.wf (s.endGraph g cause).mem = true := by
  unfold State.endGraph
  split
  · exact State.completeGraph_wf (State.foldl_wf (fun _ _ ht => State.vwrite_wf ht _ _ _ _) hs _) _ _ _
  · exact State.abortGraph_wf hs _ _ _

@[simp] theorem State.endQueue_wf {s : State} (hs : Memory.wf s.mem = true) (die q cause : Nat) (c : Ctx) (xs : Nat) :
    Memory.wf (s.endQueue die q cause c xs).mem = true := by
  induction xs generalizing s with
  | zero => exact hs
  | succ n ih =>
    unfold State.endQueue
    dsimp only
    split
    · exact hs
    · split
      · exact ih (by simp [hs])
      · refine ih ?_
        split <;> simp [hs]

theorem State.endQueues_wf {s : State} (hs : Memory.wf s.mem = true) (die cause : Nat) (c : Ctx) (n : State → Nat → Nat) (qs : List Nat) :
    Memory.wf (qs.foldl (fun s q => s.endQueue die q cause c (n s q)) s).mem = true :=
  State.foldl_wf (fun _ _ ht => State.endQueue_wf ht _ _ _ _ _) hs _

@[simp] theorem State.endWork_wf {s : State} (hs : Memory.wf s.mem = true) (id cause : Nat) : Memory.wf (s.endWork id cause).mem = true := by
  unfold State.endWork
  exact State.endQueues_wf (State.foldl_wf (fun _ _ ht => State.endGraph_wf ht _ _) hs _) _ _ _ _ _

@[simp] theorem State.endShares_wf {s : State} (hs : Memory.wf s.mem = true) (id : Nat) : Memory.wf (s.endShares id).mem = true := by
  unfold State.endShares
  simp +contextual [State.foldl_mem, State.foldl_wf, hs]

@[simp] theorem State.destroy_wf {s : State} (hs : Memory.wf s.mem = true) (id cause : Nat) : Memory.wf (s.destroy id cause).mem = true := by
  simp [State.destroy, hs]

@[simp] theorem State.killAt_wf {s : State} (hs : Memory.wf s.mem = true) (t : RunTask) (ctx level : Nat) (h : HaltSt) :
    Memory.wf (s.killAt t ctx level h).mem = true := by
  unfold State.killAt
  dsimp only
  split <;> simp [hs]

@[simp] theorem State.contain_wf {s : State} (hs : Memory.wf s.mem = true) (die part : Nat) (h : HaltSt) (t : RunTask) :
    Memory.wf (s.contain die part h t).mem = true := by
  unfold State.contain
  dsimp only
  repeat' split
  all_goals simp [hs]

@[simp] theorem State.containStep_wf {s : State} (hs : Memory.wf s.mem = true) (die part : Nat) (h : HaltSt) : Memory.wf (s.containStep die part h).mem = true := by
  unfold State.containStep
  repeat' split
  all_goals simp [hs]

@[simp] theorem State.flagsHome_wf {s : State} (hs : Memory.wf s.mem = true) (die part : Nat) : Memory.wf (s.flagsHome die part).mem = true := by
  unfold State.flagsHome
  simp +contextual [State.foldl_wf, hs]

@[simp] theorem State.saveFlags_wf {s : State} (hs : Memory.wf s.mem = true) (ctx : Nat) : Memory.wf (s.saveFlags ctx).mem = true := by
  refine State.foldl_wf (fun t a ht => ?_) hs _
  simp [ht]

@[simp] theorem State.storesHome_wf {s : State} (hs : Memory.wf s.mem = true) (die core : Nat) :
    Memory.wf (s.storesHome die core).mem = true := eachMsg_wf _ (fun _ _ _ ht => by simpa using ht) (State.performAll_wf hs _ _) _

@[simp] theorem State.saveFull_wf {s : State} (hs : Memory.wf s.mem = true) (ctx : Nat) : Memory.wf (s.saveFull ctx).mem = true := by
  unfold State.saveFull
  dsimp only
  rw [State.setCtx_mem, State.setPartAt_mem, State.foldl_mem fun _ _ => State.setCoreAt_mem _ _ _ _]
  exact State.foldl_wf (fun _ _ ht => State.dropStash_wf (State.storesHome_wf ht _ _) _ _) hs _

@[simp] theorem State.switchOut4_wf {s : State} (hs : Memory.wf s.mem = true) (ctx : Nat) : Memory.wf (s.switchOut4 ctx).mem = true := by
  unfold State.switchOut4
  dsimp only
  rw [State.setCtx_mem, State.foldl_mem fun _ _ => State.setQueue_mem _ _ _ _]
  exact State.saveFlags_wf (State.flagsHome_wf (by simpa using hs) _ _) _

@[simp] theorem State.switchOut_wf {s : State} (hs : Memory.wf s.mem = true) (ctx : Nat) (full : Bool) : Memory.wf (s.switchOut ctx full).mem = true := by
  have h4 : Memory.wf (if (s.ctxAt ctx).out then s else s.switchOut4 ctx).mem = true := by
    split
    · exact hs
    · exact State.switchOut4_wf hs _
  unfold State.switchOut
  extract_lets c s1
  split
  · exact State.saveFull_wf h4 _
  · exact h4

/-! ### Operations of `Machine/Milliner` -/

@[simp] theorem State.powerOff_wf (s : State) (flashBad : Bool) : Memory.wf (s.powerOff flashBad).mem = true := rfl

@[simp] theorem State.start_wf {s : State} : Memory.wf s.start.mem = true := by
  simp [State.start]

@[simp] theorem State.move_wf {s : State} (hs : Memory.wf s.mem = true) (c : Ctx) (va : Nat) (l : Leaf) (frame : Nat) :
    Memory.wf (s.move c va l frame).mem = true := by
  have h1 : Memory.wf ((s.cores.map (·.1)).foldl (fun s k => s.performAll (k / 160) (k % 160)) s).mem = true :=
    State.foldl_wf (fun _ _ ht => State.performAll_wf ht _ _) hs _
  unfold State.move
  extract_lets n old s1 s2 s3 ek e s4
  have h2 : Memory.wf s2.mem = true := State.foldl_wf (fun _ _ ht => State.backInval_wf ht _) h1 _
  have h3 : Memory.wf s3.mem = true := State.putMem_wf h2 _ _ _
  exact State.devWrite_wf (s := s4) h3 _ _

@[simp] theorem State.quiesce_wf {s : State} (hs : Memory.wf s.mem = true) (die : Nat) : Memory.wf (s.quiesce die).mem = true := by
  unfold State.quiesce
  simp +contextual [State.foldl_wf, hs]

@[simp] theorem State.warmReset_wf {s : State} (hs : Memory.wf s.mem = true) (die : Nat) : Memory.wf (s.warmReset die).mem = true := by
  unfold State.warmReset
  extract_lets s1 s2 s3 s4 s5 d6 s6
  have h1 : Memory.wf s1.mem = true := (congrArg Memory.wf (State.freezeWarm_mem s die)).trans hs
  have h2 : Memory.wf s2.mem = true := State.foldl_wf (fun _ _ ht => State.prUpdate_wf ht _) h1 _
  have h3 : Memory.wf s3.mem = true := State.foldl_wf (fun _ _ ht => State.giveUp_wf ht _ _) h2 _
  have h4 : Memory.wf s4.mem = true := (congrArg Memory.wf (State.dropCopies_mem _ die)).trans (State.settleHome_wf h3 _)
  have h5 : Memory.wf s5.mem = true := State.foldl_wf (fun _ _ ht => State.revokeExport_wf ht _) h4 _
  clear_value s5
  simpa [s6] using h5

@[simp] theorem State.warmCmd_wf {s : State} (hs : Memory.wf s.mem = true) (fn : Nat) : Memory.wf (s.warmCmd fn).mem = true := by
  unfold State.warmCmd
  dsimp only
  split
  · simp [hs]
  · split
    · split <;> simp [hs]
    · split
      · simp [hs]
      · split
        · exact State.quiesce_wf hs _
        · rw [State.setMbox_mem]
          exact State.warmReset_wf (State.quiesce_wf hs _) _

@[simp] theorem State.resolveLines_wf {s : State} (hs : Memory.wf s.mem = true) (ctx first count port : Nat) (applied : BitVec 32) :
    Memory.wf (s.resolveLines ctx first count port applied).mem = true := by
  refine State.foldl_wf (fun t q ht => ?_) hs _
  split
  · exact ht
  · split
    · exact ht
    · split <;> simp [ht]

@[simp] theorem State.push_wf {s : State} (hs : Memory.wf s.mem = true) (fn : Nat) : Memory.wf (s.push fn).mem = true := by
  unfold State.push
  dsimp only
  repeat' split
  all_goals simp [hs]

@[simp] theorem State.thermal_wf {s : State} (hs : Memory.wf s.mem = true) (temps : List Nat) : Memory.wf (s.thermal temps).mem = true := by
  unfold State.thermal
  dsimp only
  split <;> simp [hs]

@[simp] theorem State.changeMode_wf {s : State} (hs : Memory.wf s.mem = true) (die : Nat) (priv : Bool) : Memory.wf (s.changeMode die priv).mem = true := by
  unfold State.changeMode
  dsimp only
  rw [State.setDieAt_mem]
  refine State.foldl_wf (fun t ln ht => ?_) hs _
  split
  · exact State.backInval_wf ht _
  · exact State.giveUp_wf ht _ _

end Sys2Proof.Machine
end

section
/-! PROOFS. Memory's canonical form is kept by every instruction, every event and every step. -/

namespace Sys2Proof.Machine

/-! ### Commands of the mailboxes -/

/-- What a command that ends well gives. -/
def MbRes.Gives {α : Type} (r : Except Nat α) (p : α → Prop) : Prop :=
  match r with
  | .ok a => p a
  | .error _ => True

@[simp] theorem MbRes.gives_pure {α : Type} {p : α → Prop} {a : α} : MbRes.Gives (pure a) p ↔ p a := Iff.rfl
@[simp] theorem MbRes.gives_error {α : Type} {p : α → Prop} {n : Nat} : MbRes.Gives (.error n) p ↔ True := Iff.rfl

@[simp] theorem MbRes.gives_bind {α β : Type} {p : β → Prop} {x : Except Nat α} {f : α → Except Nat β} :
    MbRes.Gives (x >>= f) p ↔ MbRes.Gives x fun a => MbRes.Gives (f a) p := by
  cases x <;> exact Iff.rfl

@[simp] theorem MbRes.gives_map {α β : Type} {p : β → Prop} {x : Except Nat α} {f : α → β} : MbRes.Gives (f <$> x) p ↔ MbRes.Gives x fun a => p (f a) := by
  cases x <;> exact Iff.rfl

theorem MbRes.gives_of_forall {α : Type} {p : α → Prop} {x : Except Nat α} (h : ∀ a, p a) : MbRes.Gives x p := by
  cases x with
  | ok a => exact h a
  | error _ => trivial

/-- Memory is canonical where the command ends well. -/
def MbRes.Wf (r : MbRes) : Prop := MbRes.Gives r fun t => Memory.wf t.1.mem = true

theorem State.mbRun_wf {s : State} (hs : Memory.wf s.mem = true) (fn opc : Nat) (masks : List Nat) (keyed : Bool) {f : State → MbRes} (hf : MbRes.Wf (f s)) :
    Memory.wf (s.mbRun fn opc masks keyed f).mem = true := by
  unfold State.mbRun
  split
  · simp [hs]
  · split
    · simp [hs]
    · split
      · simp [hs]
      case h_2 h =>
        rw [h] at hf
        rw [State.mbEnd_mem]
        exact hf

section commands
variable {s : State} (hs : Memory.wf s.mem = true) (fn : Nat)
include hs

theorem ctxdestroyCmd_wf : MbRes.Wf (ctxdestroyCmd fn s) := by
  unfold ctxdestroyCmd MbRes.Wf
  simp only [MbRes.gives_bind, MbRes.gives_pure]
  exact MbRes.gives_of_forall fun _ => State.destroy_wf hs _ _

theorem revokeCmd_wf : MbRes.Wf (revokeCmd fn s) := by
  unfold revokeCmd MbRes.Wf
  simp only [MbRes.gives_bind, MbRes.gives_pure]
  exact MbRes.gives_of_forall fun _ => State.revokeExport_wf hs _

theorem gresolveCmd_wf : MbRes.Wf (gresolveCmd fn s) := by
  unfold gresolveCmd MbRes.Wf
  simp only [MbRes.gives_bind, MbRes.gives_pure]
  exact MbRes.gives_of_forall fun _ => MbRes.gives_of_forall fun _ => MbRes.gives_of_forall fun _ => State.resolveLines_wf hs _ _ _ _ _

theorem migrateCmd_wf (frame : Nat) : MbRes.Wf (migrateCmd fn frame s) := by
  unfold migrateCmd MbRes.Wf
  simp only [MbRes.gives_bind, MbRes.gives_pure]
  refine MbRes.gives_of_forall fun p => ?_
  split
  · exact hs
  · exact State.move_wf hs _ _ _ _

theorem mansignCmd_wf : MbRes.Wf (mansignCmd fn s) := by
  unfold mansignCmd MbRes.Wf
  simp only [MbRes.gives_bind, MbRes.gives_pure]
  exact MbRes.gives_of_forall fun _ => State.devWrite_wf hs _ _

theorem pwrlimitCmd_wf : MbRes.Wf (pwrlimitCmd fn s) := by
  unfold pwrlimitCmd MbRes.Wf
  simp only [MbRes.gives_bind, MbRes.gives_pure]
  exact MbRes.gives_of_forall fun _ => hs

theorem exportCmd_wf : MbRes.Wf (exportCmd fn s) := by
  unfold exportCmd MbRes.Wf
  simp only [MbRes.gives_bind, MbRes.gives_pure]
  iterate 5 refine MbRes.gives_of_forall fun _ => ?_
  exact hs

theorem importCmd_wf : MbRes.Wf (importCmd fn s) := by
  unfold importCmd MbRes.Wf
  simp only [MbRes.gives_bind]
  iterate 5 refine MbRes.gives_of_forall fun _ => ?_
  split
  · trivial
  · exact hs

theorem keyCmd_wf : MbRes.Wf (keyCmd fn s) := by
  unfold keyCmd MbRes.Wf
  simp only [MbRes.gives_bind, MbRes.gives_pure]
  exact MbRes.gives_of_forall fun _ => hs

theorem manaddCmd_wf : MbRes.Wf (manaddCmd fn s) := by
  unfold manaddCmd MbRes.Wf
  simp only [MbRes.gives_bind]
  iterate 2 refine MbRes.gives_of_forall fun _ => ?_
  split
  · trivial
  · exact hs

theorem invaltrCmd_wf : MbRes.Wf (invaltrCmd fn s) := by
  unfold invaltrCmd MbRes.Wf
  simp only [MbRes.gives_bind, MbRes.gives_pure, State.dropTlb_mem]
  exact MbRes.gives_of_forall fun _ => hs

theorem ctxcreateCmd_wf : MbRes.Wf (ctxcreateCmd fn s) := by
  unfold ctxcreateCmd MbRes.Wf
  simp only [MbRes.gives_bind, MbRes.gives_pure, State.setPartAt_mem, State.setCtx_mem]
  iterate 4 refine MbRes.gives_of_forall fun _ => ?_
  rw [State.foldl_mem fun _ _ => State.setCoreAt_mem _ _ _ _]
  exact hs

theorem unimportCmd_wf : MbRes.Wf (unimportCmd fn s) := by
  unfold unimportCmd MbRes.Wf
  simp only [MbRes.gives_bind]
  refine MbRes.gives_of_forall fun _ => ?_
  split
  · trivial
  · simp only [MbRes.gives_bind, MbRes.gives_pure, State.setCtx_mem]
    exact MbRes.gives_of_forall fun _ => hs

end commands

/-! ### The ends of an instruction and of an event -/

/-- Memory is canonical in the next state, where there is one. -/
def NextWf (o : Out) : Prop := ∀ t, o = .next t → Memory.wf t.mem = true

theorem nextWf_next {t : State} (h : Memory.wf t.mem = true) : NextWf (.next t) := fun u e => by
  cases e
  exact h

theorem nextWf_fault (f : Fault) : NextWf (.fault f) := fun _ e => nomatch e

theorem event_wf {s : State} (hs : Memory.wf s.mem = true) {due : Bool} {f : State → State} (hf : ∀ a : State, Memory.wf a.mem = true → Memory.wf (f a).mem = true) :
    NextWf (event s due f) := by
  refine nextWf_next ?_
  split
  · exact hf _ hs
  · exact hs

theorem finish_wf {s : State} (hs : Memory.wf s.mem = true) {f : Form} {r : Res State} (hr : r.Keeps fun t => Memory.wf t.mem = true) : NextWf (finish s f r) := by
  match r, hr with
  | .ok t, hr => exact nextWf_next (by rw [State.advance_mem]; exact hr)
  | .error (.jump t), hr => exact nextWf_next (by rw [State.stamp_mem]; exact hr)
  | .error (.wait t), hr => exact nextWf_next hr
  | .error (.trap t), _ => exact nextWf_next (by rw [State.takeTrap_mem]; exact hs)

theorem issue_wf {s : State} (hs : Memory.wf s.mem = true) {f : Form} {body : State → Res State}
    (hb : ∀ a : State, Memory.wf a.mem = true → (body a).Keeps fun t => Memory.wf t.mem = true) : NextWf (issue s f body) := by
  unfold issue
  split
  · exact nextWf_fault _
  · split
    · exact nextWf_fault _
    · split
      · exact nextWf_next hs
      · split
        · exact nextWf_next (by rw [State.takeTrap_mem]; exact hs)
        · split
          · exact nextWf_next (by rw [State.takeTrap_mem, State.dropPend_mem]; exact hs)
          · exact finish_wf (s := s.atIssue) hs (hb s.atIssue hs)

theorem issuePrefix_wf {s : State} (hs : Memory.wf s.mem = true) (isFmt : Bool) (val : Nat) (bad : Bool) : NextWf (issuePrefix s isFmt val bad) := by
  unfold issuePrefix
  split
  · exact nextWf_fault _
  · split
    · exact nextWf_next hs
    · dsimp only
      split
      · exact nextWf_next hs
      · split
        · exact nextWf_next (by rw [State.takeTrap_mem]; exact hs)
        · exact nextWf_next hs

theorem helperOp_wf {s : State} (hs : Memory.wf s.mem = true) {body : State → Res State}
    (hb : ∀ a : State, Memory.wf a.mem = true → (body a).Keeps fun t => Memory.wf t.mem = true) : NextWf (helperOp s body) := by
  unfold helperOp
  dsimp only
  split
  · exact nextWf_fault _
  · split
    · exact nextWf_next hs
    · split
      · exact nextWf_next hs
      · have h0 := hb { s with free := s.free + 1 } hs
        split
        case h_1 h => exact nextWf_next (by rw [State.stampHelper_mem]; exact h0.of_ok h)
        case h_2 h => exact nextWf_next (h0.of_wait h)
        case h_3 h => exact nextWf_next (h0.of_jump h)
        · exact nextWf_next (by rw [State.helperFault_mem]; exact hs)

theorem mbCommand_wf {s : State} (hs : Memory.wf s.mem = true) (fn opc : Nat) (masks : List Nat) (keyed : Bool) {f : State → MbRes}
    (hf : ∀ a : State, Memory.wf a.mem = true → MbRes.Wf (f a)) : NextWf (mbCommand fn opc masks keyed f s) :=
  event_wf hs fun a ha => State.mbRun_wf ha _ _ _ _ (hf a ha)

theorem reqEvent_wf {s : State} (hs : Memory.wf s.mem = true) (k : ReqKind) (n : Nat) : NextWf (reqEvent k n s) := by
  unfold reqEvent
  split
  · exact nextWf_next hs
  · exact event_wf hs fun a ha => State.startReq_wf ha _ _

theorem fwdEvent_wf {s : State} (hs : Memory.wf s.mem = true) (k : FwdKind) (n : Nat) : NextWf (fwdEvent k n s) := by
  unfold fwdEvent
  split
  · exact nextWf_next hs
  · exact event_wf hs fun a ha => by simpa using ha

/-! ### Instructions, events and the step -/

theorem State.replied_wf {s : State} (hs : Memory.wf s.mem = true) (cur : EngId) (saved : Option Req) : Memory.wf (s.replied cur saved).mem = true := hs

/-- A body that completes from a saved context keeps memory canonical. -/
theorem replyBody_wf {i : Instr} {body : State → Res State} (h : replyBody i = some body) {s : State} (hs : Memory.wf s.mem = true) :
    (body s).Keeps fun t => Memory.wf t.mem = true := by
  cases i <;> cases h <;> simp [hs]

theorem State.savedReply_wf {s : State} (hs : Memory.wf s.mem = true) (id : EngId) (r : Req) : Memory.wf (s.savedReply id r).mem = true := by
  unfold State.savedReply
  dsimp only
  split
  · simp [hs]
  case h_2 body hb =>
    generalize hu : ({ s with cur := id } : State).setMe _ = u
    have hk := replyBody_wf hb (s := u) (by rw [← hu]; exact hs)
    split
    case h_1 h =>
      refine State.replied_wf ?_ _ _
      split
      · rw [State.markEffect_mem]
        exact hk.of_ok h
      · exact hk.of_ok h
    case h_2 h => exact State.replied_wf (hk.of_jump h) _ _
    case h_3 h => exact State.replied_wf (hk.of_wait h) _ _
    · have h1 : Memory.wf (u.replied s.cur none).mem = true := State.replied_wf (by rw [← hu]; exact hs) _ _
      split
      · rw [State.setEngAt_mem]
        exact h1
      · rw [State.takeTrap_mem]
        exact h1

theorem nextOf_wf {s : State} (hs : Memory.wf s.mem = true) {o : Out} (h : NextWf o) : Memory.wf (nextOf s o).mem = true := by
  cases o with
  | next t => exact h t rfl
  | _ => exact hs

theorem State.writeBar_wf {s : State} (hs : Memory.wf s.mem = true) (fn off : Nat) (v : Word) : Memory.wf (s.writeBar fn off v).mem = true := by
  unfold State.writeBar
  dsimp only
  split_ifs
  · exact hs
  · simp [hs]
  · simp [hs]
  · simp [hs]
  · simp [hs]
  · split
    · exact nextOf_wf hs (event_wf hs fun a ha => by simp [ha])
    · exact nextOf_wf hs (event_wf hs fun a ha => by simp [ha])
    · refine nextOf_wf hs ?_
      unfold execQtailWrite
      split
      · exact nextWf_next hs
      · exact event_wf hs fun a ha => by simp [ha]
    · exact hs
  · exact hs

/-- Every event keeps memory canonical. -/
theorem exec_event_wf {s : State} (hs : Memory.wf s.mem = true) {i : Instr} (h : isEvent i = true) : NextWf (exec i s) := by
  cases i
  case blockStart | haltComplete | uncorrectableError | memoryTimeout | closeStart | stashFill | stashSnoop | stashWriteback | qbaseWrite |
    qsizeWrite | graphAdmit | writeback | entryEviction | dieLost | halfMerge | zynothPortFail | zynothPortRetrain | imgpush | featacceptWrite |
    powerGood | powerSample | thermalSample | coreAgeingCheck | cxlMemAccess | dieMapChange | l2ModeChange | powerLoss | blockRaise | traceFreeze |
    switchIn =>
    unfold exec
    dsimp only [
      execBlockStart, execHaltComplete, execUncorrectableError, execMemoryTimeout, execCloseStart, execStashFill, execStashSnoop, execStashWriteback,
        execQbaseWrite, execQsizeWrite, execGraphAdmit, execWriteback, execEntryEviction, execDieLost, execHalfMerge, execZynothPortFail,
        execZynothPortRetrain, execImgpush, execFeatacceptWrite, execPowerGood, execPowerSample, execThermalSample, execCoreAgeingCheck,
        execCxlMemAccess, execDieMapChange, execL2ModeChange, execPowerLoss, execBlockRaise, execTraceFreeze, execSwitchIn]
    exact event_wf hs fun a ha => by simp [ha]
  case reads | readx | homeDieRead | homeDieWrite => exact reqEvent_wf hs _ _
  case fwds | fwdh | inv => exact fwdEvent_wf hs _ _
  case handlerStart | containment | switchOut | matrixGroup | hopArrival | copyBeatGroup | taskStart | gangStart | preempt | taskRetire |
    postedStorePerformed | storeAck | hbTimeout | combineWrite | prUpdate | halving | flagAddArrival | acknowledgement | qtailWrite =>
    unfold exec
    dsimp only [
      execHandlerStart, execContainment, execSwitchOut, execMatrixGroup, execHopArrival, execCopyBeatGroup, execTaskStart, execGangStart,
        execPreempt, execTaskRetire, execPostedStorePerformed, execStoreAck, execHbTimeout, execCombineWrite, execPrUpdate, execHalving,
        execFlagAddArrival, execAcknowledgement, execQtailWrite]
    split
    · exact nextWf_next hs
    · exact event_wf hs fun a ha => by simp [ha]
  case mbExport => exact mbCommand_wf hs _ _ _ _ fun _ ha => exportCmd_wf ha _
  case mbImport => exact mbCommand_wf hs _ _ _ _ fun _ ha => importCmd_wf ha _
  case unimport => exact mbCommand_wf hs _ _ _ _ fun _ ha => unimportCmd_wf ha _
  case revoke => exact mbCommand_wf hs _ _ _ _ fun _ ha => revokeCmd_wf ha _
  case invaltr => exact mbCommand_wf hs _ _ _ _ fun _ ha => invaltrCmd_wf ha _
  case gresolve => exact mbCommand_wf hs _ _ _ _ fun _ ha => gresolveCmd_wf ha _
  case ctxcreate => exact mbCommand_wf hs _ _ _ _ fun _ ha => ctxcreateCmd_wf ha _
  case ctxdestroy => exact mbCommand_wf hs _ _ _ _ fun _ ha => ctxdestroyCmd_wf ha _
  case keyload => exact mbCommand_wf hs _ _ _ _ fun _ ha => keyCmd_wf ha _
  case keyclr => exact mbCommand_wf hs _ _ _ _ fun _ ha => keyCmd_wf ha _
  case manadd => exact mbCommand_wf hs _ _ _ _ fun _ ha => manaddCmd_wf ha _
  case mansign => exact mbCommand_wf hs _ _ _ _ fun _ ha => mansignCmd_wf ha _
  case pwrlimit => exact mbCommand_wf hs _ _ _ _ fun _ ha => pwrlimitCmd_wf ha _
  case halfApplied | halfRefused =>
    unfold exec
    dsimp only [execHalfApplied, execHalfRefused]
    exact event_wf hs fun a ha => State.foldl_wf (fun _ _ ht => by simp [ht]) ha _
  case warmreset =>
    rw [exec_warmreset]
    unfold execWarmreset
    refine event_wf hs fun a ha => ?_
    split
    · simp [ha]
    · split <;> simp [ha]
  case registerWrite => exact event_wf hs fun a ha => State.writeBar_wf ha _ _ _
  case closeLand =>
    rw [exec_closeLand]
    unfold execCloseLand
    dsimp only
    split
    · exact event_wf hs fun a ha => by simp [ha]
    · exact nextWf_next hs
  case contextResume =>
    rw [exec_contextResume]
    unfold execContextResume
    dsimp only
    split
    · exact nextWf_next hs
    · exact event_wf hs fun a ha => by simp [ha]
  case recordAdmit =>
    rw [exec_recordAdmit]
    unfold execRecordAdmit
    split
    · exact nextWf_next hs
    · split <;> exact event_wf hs fun a ha => by simp [ha]
  case hbPutArrival src | prArrival src | deposit src =>
    unfold exec
    dsimp only [execHbPutArrival, execPrArrival, execDeposit]
    split
    · split
      · exact nextWf_next hs
      · exact event_wf hs fun a ha => by simp [ha]
    · exact event_wf hs fun a ha => by simp [ha]
  case halfRetransmit =>
    rw [exec_halfRetransmit]
    unfold execHalfRetransmit
    split
    · exact nextWf_next hs
    · split
      · exact nextWf_next hs
      · exact event_wf hs fun a ha => by simp [ha]
  case savedContextReply =>
    rw [exec_savedContextReply]
    unfold execSavedContextReply
    split
    · exact nextWf_next hs
    · exact event_wf hs fun a ha => State.savedReply_wf ha _ _
  case migrate =>
    rw [exec_migrate]
    unfold execMigrate
    split
    · exact mbCommand_wf hs _ _ _ _ fun _ ha => migrateCmd_wf ha _ _
    · exact nextWf_next hs
  case dieAdmit =>
    rw [exec_dieAdmit]
    unfold execDieAdmit
    split <;> exact event_wf hs fun a ha => by simp [ha]
  all_goals contradiction

/-- Every instruction and every event keeps memory canonical. -/
theorem exec_wf {s : State} (hs : Memory.wf s.mem = true) (i : Instr) : NextWf (exec i s) := by
  cases i
  case mv16 | add16 | sub16 | addi16 | li16 | add | sub | and | or | xor | sll | srl | sra | mul | mulh | mulhu | min | max | minu | maxu | addi |
    andi | ori | xori | slli | srli | srai | pand | por | pxor | pandn | pnot | vaddF32 | vsubF32 | vmulF32 | vminF32 | vmaxF32 | vabsF32 | vnegF32 |
    vaddI32 | vsubI32 | vmulI32 | vmulhI32 | vminI32 | vmaxI32 | vminuI32 | vmaxuI32 | vand | vor | vxor | vandn | vsll | vsrl | vsra | vfmaF32 |
    vfmsF32 | vfnmaF32 | vfnmsF32 | vrcp | vrsqrt | vexp2 | vlog2 | vfsl | vfsr | vrotl | vpopc | vclz | vbrev | vslideup | vslidedn | qand | qor |
    qxor | qandn | qnot | qmov =>
    unfold exec
    dsimp only [
      execMv16, execAdd16, execSub16, execAddi16, execLi16, execAdd, execSub, execAnd, execOr, execXor, execSll, execSrl, execSra, execMul, execMulh,
        execMulhu, execMin, execMax, execMinu, execMaxu, execAddi, execAndi, execOri, execXori, execSlli, execSrli, execSrai, execPand, execPor,
        execPxor, execPandn, execPnot, execVaddF32, execVsubF32, execVmulF32, execVminF32, execVmaxF32, execVabsF32, execVnegF32, execVaddI32,
        execVsubI32, execVmulI32, execVmulhI32, execVminI32, execVmaxI32, execVminuI32, execVmaxuI32, execVand, execVor, execVxor, execVandn,
        execVsll, execVsrl, execVsra, execVfmaF32, execVfmsF32, execVfnmaF32, execVfnmsF32, execVrcp, execVrsqrt, execVexp2, execVlog2, execVfsl,
        execVfsr, execVrotl, execVpopc, execVclz, execVbrev, execVslideup, execVslidedn, execQand, execQor, execQxor, execQandn, execQnot, execQmov,
        compact, aluRR, aluRI, aluRS, predOp, vf2, vf1, vi2, vf3, vApprox, viImm, vi1, viMove, maskOp]
    exact issue_wf hs fun a ha => by simp [ha]
  case nop16 | lui | cmp | cmpi | ld | ldSp | st | stSp | atom | cas | atomSp | casSp | fence | flsig | tkwait | pbr | br | brL | pbrR | evinc |
    evwait | barArrive | barWait | barWait4 | flagAdd | flagWait | chunk | tlaunch | tdone | tsignal | vcmpF32 | vcmpI32 | vlut3 | vpart | vgath |
    vscat | vld32 | vldB | vst32 | vperm | vred | vscan | vcvtTo | vcvtFrom | vmxq | vsrc | vsetvlImm | vsetvlReg | vmv | vbcast | vsel | mnest |
    mopa | mopb | mopm | mma | mmas | mgo | mfmt | mfmtPool | mfmtcommit | chbuild | chclose | chstat | chsplice | chhalt | chthaw | chrel | chread |
    cp | cpR | cpD2d | cpD3d | cpDCvt | cpDGath | cpDScat | cpDFill | cpDRemote | stmap | stunmap | stflush | stinv | barArriveD | hlaunch | hstop |
    hstat | hballoc | hbgate | hbpoll | hbrel | hbstat | hbcfg | hbput | prgrad | gdep | prread | gread | prsync | prrule | gspread | gmass | gcfg |
    csrr | csrw | trap | eret | halt =>
    unfold exec
    dsimp only [
      execNop16, execLui, execCmp, execCmpi, execLd, execLdSp, execSt, execStSp, execAtom, execCas, execAtomSp, execCasSp, execFence, execFlsig,
        execTkwait, execPbr, execBr, execBrL, execPbrR, execEvinc, execEvwait, execBarArrive, execBarWait, execBarWait4, execFlagAdd, execFlagWait,
        execChunk, execTlaunch, execTdone, execTsignal, execVcmpF32, execVcmpI32, execVlut3, execVpart, execVgath, execVscat, execVld32, execVldB,
        execVst32, execVperm, execVred, execVscan, execVcvtTo, execVcvtFrom, execVmxq, execVsrc, execVsetvlImm, execVsetvlReg, execVmv, execVbcast,
        execVsel, execMnest, execMopa, execMopb, execMopm, execMma, execMmas, execMgo, execMfmt, execMfmtPool, execMfmtcommit, execChbuild,
        execChclose, execChstat, execChsplice, execChhalt, execChthaw, execChrel, execChread, execCp, execCpR, execCpD2d, execCpD3d, execCpDCvt,
        execCpDGath, execCpDScat, execCpDFill, execCpDRemote, execStmap, execStunmap, execStflush, execStinv, execBarArriveD, execHlaunch, execHstop,
        execHstat, execHballoc, execHbgate, execHbpoll, execHbrel, execHbstat, execHbcfg, execHbput, execPrgrad, execGdep, execPrread, execGread,
        execPrsync, execPrrule, execGspread, execGmass, execGcfg, execCsrr, execCsrw, execTrap, execEret, execHalt]
    exact issue_wf hs fun a ha => by simp [ha]
  case evterm =>
    rw [exec_evterm]
    unfold execEvterm
    refine issue_wf hs fun a ha => ?_
    split
    · trivial
    · simp [ha]
  case ext | fmt => exact issuePrefix_wf hs _ _ _
  case hcp | hwait | hloop | hflag | hjmp | hend =>
    unfold exec
    dsimp only [
      execHcp, execHwait, execHloop, execHflag, execHjmp, execHend]
    exact helperOp_wf hs fun a ha => by simp [ha]
  all_goals exact exec_event_wf hs rfl

theorem badWord_wf {s : State} (hs : Memory.wf s.mem = true) (e : DecodeErr) (w : Nat) : NextWf (badWord e w s) := by
  unfold badWord
  split
  · exact issuePrefix_wf hs _ _ _
  · split
    · exact nextWf_fault _
    · exact nextWf_next (by simp [hs])

theorem streamTurn_wf {s : State} (hs : Memory.wf s.mem = true) : NextWf (streamTurn s) := by
  unfold streamTurn
  split
  · exact nextWf_next hs
  · exact exec_wf hs _
  · split
    · exact exec_wf hs _
    · exact badWord_wf hs _ _

theorem helperBad_wf {s : State} (hs : Memory.wf s.mem = true) : NextWf (helperBad s) := helperOp_wf hs fun _ _ => trivial

theorem helperTurn_wf {s : State} (hs : Memory.wf s.mem = true) (die core : Nat) : NextWf (helperTurn die core s) := by
  unfold helperTurn
  dsimp only
  split
  · exact helperBad_wf hs
  · split
    · exact exec_wf (s := { s with cur := ⟨die, core, .x⟩ }) hs _
    · exact helperBad_wf hs

theorem act_wf {s : State} (hs : Memory.wf s.mem = true) (a : Act) : NextWf (act a s) := by
  cases a with
  | engine id => exact streamTurn_wf hs
  | event i =>
    unfold act
    dsimp only
    split
    · exact exec_wf hs _
    · exact nextWf_next hs
  | helper die core => exact helperTurn_wf hs _ _
  | drain die core n => exact event_wf hs fun _ ha => State.drain_wf ha _ _ _
  | cache ctx va =>
    unfold act
    exact event_wf hs fun _ ha => by simpa using ha
  | uncache n =>
    unfold act
    exact event_wf hs fun _ ha => ha
  | hostWrite addr data => exact event_wf hs fun _ ha => State.devWrite_wf ha _ _

/-- Settles O60: what falls due at a clk leaves memory as it is, and every act keeps it canonical. -/
theorem stepKeepsInv : Obligations.StepKeepsInv := by
  unfold Obligations.StepKeepsInv
  intro s t hs h
  refine act_wf ?_ _ t h
  rw [State.clkStart_mem]
  unfold State.nextAct
  split <;> exact hs

end Sys2Proof.Machine
end
